-- ==== Sys2Proof/Word.lean ====
section
/-!
DEFINITION. The words of the machine: names for the bit vectors the manual numbers (R8, R9, R126).
-/
namespace Sys2Proof

/-- One byte. -/
abbrev Byte := BitVec 8
/-- One 32-bit lane element, loop counter or predicate (R9). -/
abbrev W32 := BitVec 32
/-- One 64-bit scalar register, address, container or descriptor (R9, R50, R64). -/
abbrev W64 := BitVec 64
/-- One instruction word (R126). -/
abbrev W128 := BitVec 128

end Sys2Proof
end

