-- ==== Sys2Proof/Machine/Flags.lean ====
section
/-!
DEFINITION. The sticky status bits of s60 (R47) and the flag values that ops raise.
-/
namespace Sys2Proof.Machine

/-- A set of status bits, numbered as s60 numbers them (R47). -/
abbrev Flags := BitVec 9

/-- Invalid operation, bit 0. -/
def flagNV : Flags := 0x001
/-- Divide by zero, bit 1. -/
def flagDZ : Flags := 0x002
/-- Overflow, bit 2. -/
def flagOF : Flags := 0x004
/-- Underflow, bit 3. -/
def flagUF : Flags := 0x008
/-- Inexact, bit 4. -/
def flagNX : Flags := 0x010
/-- Saturated, bit 5. -/
def flagSAT : Flags := 0x020
/-- A dropped acquire or release effect, bit 6. -/
def flagSCOPE : Flags := 0x040
/-- A stage-ring overrun, bit 7. -/
def flagOVERRUN : Flags := 0x080
/-- A map operation was rerun, bit 8. -/
def flagRERUN : Flags := 0x100

/-- A flag when a condition holds. -/
def flagIf (b : Bool) (f : Flags) : Flags := if b then f else 0

end Sys2Proof.Machine
end

