-- ==== Sys2Proof/Machine/Num.lean ====
section
/-!
DEFINITION. Number formats, rounding, flags and conversions (R68 to R83). A float encoding decodes to an exact value; an exact
value is rounded once. Everything is computed on natural numbers and integers and is evaluable.
-/
namespace Sys2Proof.Machine

/-- An exact value (R83): NaN, an infinity, or (−1)^neg · m · 2^e; a zero keeps its sign. -/
inductive XV where
  | nan
  | inf (neg : Bool)
  | fin (neg : Bool) (m : Nat) (e : Int)
  deriving DecidableEq, Repr

/-- A float format (R68): exponent bits, fraction bits, bias, largest finite encoding, and whether it is e4m3, which has no
infinity and no signalling NaN. -/
structure FFmt where
  eb : Nat
  fb : Nat
  bias : Nat
  big : Nat
  e4m3 : Bool
  deriving DecidableEq, Repr

/-- binary32 (R68). -/
def fmtF32 : FFmt := { eb := 8, fb := 23, bias := 127, big := 0x7F7FFFFF, e4m3 := false }
/-- binary16 (R68). -/
def fmtF16 : FFmt := { eb := 5, fb := 10, bias := 15, big := 0x7BFF, e4m3 := false }
/-- bfloat16 (R68). -/
def fmtBF16 : FFmt := { eb := 8, fb := 7, bias := 127, big := 0x7F7F, e4m3 := false }
/-- OCP E4M3 (R68). -/
def fmtE4M3 : FFmt := { eb := 4, fb := 3, bias := 7, big := 0x7E, e4m3 := true }
/-- OCP E5M2 (R68). -/
def fmtE5M2 : FFmt := { eb := 5, fb := 2, bias := 15, big := 0x7B, e4m3 := false }

/-- The sign bit of an encoding. -/
def fSign (t : FFmt) (x : Nat) : Bool := x / 2 ^ (t.eb + t.fb) % 2 = 1
/-- The exponent field of an encoding. -/
def fExp (t : FFmt) (x : Nat) : Nat := x / 2 ^ t.fb % 2 ^ t.eb
/-- The fraction field of an encoding. -/
def fFrac (t : FFmt) (x : Nat) : Nat := x % 2 ^ t.fb
/-- The encoding with only a sign bit. -/
def fSignBit (t : FFmt) (neg : Bool) : Nat := if neg then 2 ^ (t.eb + t.fb) else 0

/-- NaN encodings (R68). -/
def fIsNaN (t : FFmt) (x : Nat) : Bool :=
  if t.e4m3 then fExp t x = 2 ^ t.eb - 1 ∧ fFrac t x = 7 else fExp t x = 2 ^ t.eb - 1 ∧ fFrac t x ≠ 0
/-- Infinity encodings (R68). -/
def fIsInf (t : FFmt) (x : Nat) : Bool :=
  if t.e4m3 then false else fExp t x = 2 ^ t.eb - 1 ∧ fFrac t x = 0
/-- Signalling NaN encodings (R69). -/
def fIsSNaN (t : FFmt) (x : Nat) : Bool :=
  if t.e4m3 then false else fIsNaN t x && (fFrac t x / 2 ^ (t.fb - 1) % 2 = 0)
/-- The encoding made quiet (R78, R83). -/
def fQuiet (t : FFmt) (x : Nat) : Nat :=
  if fIsSNaN t x then x + 2 ^ (t.fb - 1) else x
/-- The canonical NaN (R68). -/
def fCanon (t : FFmt) : Nat :=
  if t.e4m3 then 0x7F else (2 ^ t.eb - 1) * 2 ^ t.fb + 2 ^ (t.fb - 1)
/-- The encoding of an infinity; ±448 in e4m3 (R76). -/
def fInf (t : FFmt) (neg : Bool) : Nat :=
  fSignBit t neg + (if t.e4m3 then t.big else (2 ^ t.eb - 1) * 2 ^ t.fb)

/-- The exact value of an encoding (R68, R83). -/
def fDecode (t : FFmt) (x : Nat) : XV :=
  if fIsNaN t x then .nan
  else if fIsInf t x then .inf (fSign t x)
  else if fExp t x = 0 then .fin (fSign t x) (fFrac t x) (1 - (t.bias : Int) - t.fb)
  else .fin (fSign t x) (2 ^ t.fb + fFrac t x) ((fExp t x : Int) - t.bias - t.fb)

/-- Whether a truncated magnitude is raised by one under a rounding mode: 0 nearest even, 1 toward zero, 2 toward −∞,
3 toward +∞ (R74). `r` is the discarded part of `d` bits. -/
def roundsUp (mode : Nat) (neg : Bool) (n r d : Nat) : Bool :=
  match mode with
  | 0 => 2 * r > 2 ^ d ∨ (2 * r = 2 ^ d ∧ n % 2 = 1 ∧ d ≠ 0)
  | 1 => false
  | 2 => neg && r ≠ 0
  | _ => !neg && r ≠ 0

/-- m · 2^e rounded to a multiple of 2^q: the multiple's count, and whether it was inexact. A shift far past the top bit of m
rounds as the shift by two bits past it does. -/
def roundAt (mode : Nat) (neg : Bool) (m : Nat) (e q : Int) : Nat × Bool :=
  if q ≤ e then (m * 2 ^ (e - q).toNat, false)
  else
    let d := min (q - e).toNat (Nat.log2 m + 2)
    let n := m / 2 ^ d
    let r := m % 2 ^ d
    (if roundsUp mode neg n r d then n + 1 else n, r ≠ 0)

/-- The overflow result of R75 and R76. -/
def fOverflow (t : FFmt) (mode : Nat) (sat neg : Bool) : Nat × Flags :=
  if sat || t.e4m3 then (fSignBit t neg + t.big, flagSAT ||| flagNX)
  else
    let big := match mode with
      | 0 => false
      | 1 => true
      | 2 => !neg
      | _ => neg
    (if big then fSignBit t neg + t.big else fInf t neg, flagOF ||| flagNX)

/-- Rounding of an exact value into a float format with its flags (R74 to R76, R83). A NaN gives the canonical NaN. -/
def fRound (t : FFmt) (mode : Nat) (sat : Bool) (v : XV) : Nat × Flags :=
  match v with
  | .nan => (fCanon t, 0)
  | .inf neg => (fInf t neg, flagIf t.e4m3 flagSAT)
  | .fin neg m e =>
    if m = 0 then (fSignBit t neg, 0)
    else
      let top : Int := e + Nat.log2 m
      let emin : Int := 1 - (t.bias : Int)
      let q0 : Int := emin - t.fb
      let q : Int := max (top - t.fb) q0
      let (n, nx) := roundAt mode neg m e q
      let enc := (q - q0).toNat * 2 ^ t.fb + n
      if enc > t.big then fOverflow t mode sat neg
      else
        let free := (roundAt mode neg m e (top - t.fb)).1
        let tiny := top < emin && !(top = emin - 1 && free = 2 ^ (t.fb + 1))
        (fSignBit t neg + enc, flagIf nx flagNX ||| flagIf (nx && tiny) flagUF)

/-- The exact sum; an exact zero takes the sign of R77. -/
def xAdd (mode : Nat) (a b : XV) : XV × Flags :=
  match a, b with
  | .nan, _ => (.nan, 0)
  | _, .nan => (.nan, 0)
  | .inf s, .inf r => if s = r then (.inf s, 0) else (.nan, flagNV)
  | .inf s, .fin .. => (.inf s, 0)
  | .fin .., .inf r => (.inf r, 0)
  | .fin s m e, .fin r n f =>
    let q := min e f
    let x : Int := (m * 2 ^ (e - q).toNat : Nat)
    let y : Int := (n * 2 ^ (f - q).toNat : Nat)
    let z := (if s then -x else x) + (if r then -y else y)
    if z = 0 then
      (.fin (if s = r then s else mode = 2) 0 q, 0)
    else (.fin (z < 0) z.natAbs q, 0)

/-- The exact product; 0 · ∞ is invalid (R78). -/
def xMul (a b : XV) : XV × Flags :=
  match a, b with
  | .nan, _ => (.nan, 0)
  | _, .nan => (.nan, 0)
  | .inf s, .inf r => (.inf (s != r), 0)
  | .inf s, .fin r n _ => if n = 0 then (.nan, flagNV) else (.inf (s != r), 0)
  | .fin s m _, .inf r => if m = 0 then (.nan, flagNV) else (.inf (s != r), 0)
  | .fin s m e, .fin r n f => (.fin (s != r) (m * n) (e + f), 0)

/-- The value with its sign changed. -/
def xNeg : XV → XV
  | .nan => .nan
  | .inf s => .inf !s
  | .fin s m e => .fin (!s) m e

/-- The value without its sign. -/
def xAbs : XV → XV
  | .nan => .nan
  | .inf _ => .inf false
  | .fin _ m e => .fin false m e

/-- The value as a count of 2^q, for finite values with e ≥ q. -/
def xInt (q : Int) : XV → Int
  | .fin s m e => let x : Int := (m * 2 ^ (e - q).toNat : Nat); if s then -x else x
  | _ => 0

/-- a < b on exact values, −0 equal to +0, false for NaN (R169). -/
def xLt (a b : XV) : Bool :=
  match a, b with
  | .nan, _ => false
  | _, .nan => false
  | .inf s, .inf r => s && !r
  | .inf s, .fin .. => s
  | .fin .., .inf r => !r
  | .fin _ _ e, .fin _ _ f => xInt (min e f) a < xInt (min e f) b

/-- a = b on exact values, −0 equal to +0, false for NaN (R169). -/
def xEq (a b : XV) : Bool :=
  match a, b with
  | .nan, _ => false
  | _, .nan => false
  | .inf s, .inf r => s = r
  | .inf _, .fin .. => false
  | .fin .., .inf _ => false
  | .fin _ _ e, .fin _ _ f => xInt (min e f) a = xInt (min e f) b

/-- a ≤ b on exact values. -/
def xLe (a b : XV) : Bool := xLt a b || xEq a b

/-- The first NaN among encodings, made quiet, with NV if any of them signals (R78, R83); none without a NaN. -/
def nanSelect (t : FFmt) (xs : List Nat) : Option (Nat × Flags) :=
  match xs.find? (fIsNaN t) with
  | some x => some (fQuiet t x, flagIf (xs.any (fIsSNaN t)) flagNV)
  | none => none

/-- An exact result and its flags rounded once; a NaN made by an invalid operation is canonical (R78). -/
def fFinish (t : FFmt) (mode : Nat) (sat : Bool) (r : XV × Flags) : Nat × Flags :=
  let (y, f) := fRound t mode sat r.1
  (y, r.2 ||| f)

/-- x + y rounded once (R188). -/
def fAdd (t : FFmt) (mode : Nat) (sat : Bool) (x y : Nat) : Nat × Flags :=
  match nanSelect t [x, y] with
  | some r => r
  | none => fFinish t mode sat (xAdd mode (fDecode t x) (fDecode t y))

/-- x − y rounded once; a NaN operand keeps its sign (R79, R188). -/
def fSub (t : FFmt) (mode : Nat) (sat : Bool) (x y : Nat) : Nat × Flags :=
  match nanSelect t [x, y] with
  | some r => r
  | none => fFinish t mode sat (xAdd mode (fDecode t x) (xNeg (fDecode t y)))

/-- x · y rounded once (R188). -/
def fMul (t : FFmt) (mode : Nat) (sat : Bool) (x y : Nat) : Nat × Flags :=
  match nanSelect t [x, y] with
  | some r => r
  | none => fFinish t mode sat (xMul (fDecode t x) (fDecode t y))

/-- x · y + z with one rounding; 0 · ∞ with a NaN z gives z and NV (R78, R188). -/
def fFma (t : FFmt) (mode : Nat) (sat : Bool) (x y z : Nat) : Nat × Flags :=
  match nanSelect t [x, y, z] with
  | some r => (r.1, r.2 ||| (xMul (fDecode t x) (fDecode t y)).2)
  | none =>
    let p := xMul (fDecode t x) (fDecode t y)
    let s := xAdd mode p.1 (fDecode t z)
    fFinish t mode sat (s.1, p.2 ||| s.2)

/-- minimumNumber or maximumNumber with −0 below +0 (R80); the chosen operand is returned unchanged. -/
def fMinMax (t : FFmt) (isMax : Bool) (x y : Nat) : Nat × Flags :=
  let nv := flagIf (fIsSNaN t x || fIsSNaN t y) flagNV
  if fIsNaN t x && fIsNaN t y then (fQuiet t x, nv)
  else if fIsNaN t x then (y, nv)
  else if fIsNaN t y then (x, nv)
  else
    let a := fDecode t x
    let b := fDecode t y
    let xBelow := xLt a b || (xEq a b && fSign t x && !fSign t y)
    (if xBelow != isMax then x else y, 0)

/-- An integral value of the format, by mode (R189, VFRND). -/
def fRndInt (t : FFmt) (mode : Nat) (x : Nat) : Nat × Flags :=
  match nanSelect t [x] with
  | some r => r
  | none =>
    match fDecode t x with
    | .fin s m e =>
      if 0 ≤ e ∨ m = 0 then (x, 0)
      else
        let (n, nx) := roundAt mode s m e 0
        ((fRound t mode false (.fin s n 0)).1, flagIf nx flagNX)
    | _ => (x, 0)

/-- x · 2^n rounded once (R189, VFSCALE). -/
def fScale (t : FFmt) (mode : Nat) (sat : Bool) (x : Nat) (n : Int) : Nat × Flags :=
  match nanSelect t [x] with
  | some r => r
  | none =>
    match fDecode t x with
    | .fin s m e => fRound t mode sat (.fin s m (e + n))
    | v => fRound t mode sat v

/-- The class code of an encoding (R189, VFCLASS). -/
def fClass (t : FFmt) (x : Nat) : Nat :=
  if fIsNaN t x then (if fIsSNaN t x then 0 else 1)
  else if fIsInf t x then (if fSign t x then 2 else 9)
  else if fExp t x ≠ 0 then (if fSign t x then 3 else 8)
  else if fFrac t x ≠ 0 then (if fSign t x then 4 else 7)
  else (if fSign t x then 5 else 6)

/-- A float comparison (R169, R190): relation 0 eq, 1 lt, 2 le, 3 un; NV by a signalling NaN, or by any NaN with `sig`. -/
def fCompare (t : FFmt) (rel : Nat) (sig : Bool) (x y : Nat) : Bool × Flags :=
  let a := fDecode t x
  let b := fDecode t y
  let un := fIsNaN t x || fIsNaN t y
  let r := match rel with
    | 0 => xEq a b
    | 1 => xLt a b
    | 2 => xLe a b
    | _ => un
  (r, flagIf (fIsSNaN t x || fIsSNaN t y || (sig && un)) flagNV)

/-- A NaN carried into another format (R82). -/
def nanConvert (s d : FFmt) (x : Nat) : Nat :=
  let sign := fSignBit d (fSign s x)
  if d.e4m3 then sign + 0x7F
  else if s.e4m3 then sign + fCanon d
  else
    let f := if s.fb ≤ d.fb then fFrac s x * 2 ^ (d.fb - s.fb) else fFrac s x / 2 ^ (s.fb - d.fb)
    let q := 2 ^ (d.fb - 1)
    sign + (2 ^ d.eb - 1) * 2 ^ d.fb + (if f / q % 2 = 1 then f else f + q)

/-- Float to float (R82). -/
def cvtFF (s d : FFmt) (mode : Nat) (sat : Bool) (x : Nat) : Nat × Flags :=
  if fIsNaN s x then (nanConvert s d x, flagIf (fIsSNaN s x) flagNV)
  else fRound d mode sat (fDecode s x)

/-- Smallest and largest value of an integer format (R70). -/
def intRange (w : Nat) (sgn : Bool) : Int × Int :=
  if sgn then (-(2 ^ (w - 1) : Nat), (2 ^ (w - 1) : Nat) - 1) else (0, (2 ^ w : Nat) - 1)

/-- The w-bit pattern of an integer, wrapped (R70). -/
def intWrap (w : Nat) (v : Int) : Nat := (v % (2 ^ w : Nat)).toNat

/-- A w-bit pattern read as an integer (R70). -/
def intRead (w : Nat) (sgn : Bool) (x : Nat) : Int :=
  let x := x % 2 ^ w
  if sgn && 2 ^ (w - 1) ≤ x then (x : Int) - (2 ^ w : Nat) else x

/-- Clamped to an integer format; SAT when that changed the value (R83, saturate). -/
def intSat (w : Nat) (sgn : Bool) (v : Int) : Int × Flags :=
  let (lo, hi) := intRange w sgn
  if v < lo then (lo, flagSAT) else if hi < v then (hi, flagSAT) else (v, 0)

/-- The pattern of a result that wraps, or clamps with the saturate option (R70). -/
def intFinish (w : Nat) (sgn sat : Bool) (v : Int) : Nat × Flags :=
  if sat then let (u, f) := intSat w sgn v; (intWrap w u, f) else (intWrap w v, 0)

/-- An exact value rounded to an integer under a mode, unclamped, with inexactness. -/
def xToInt (mode : Nat) : XV → Int × Bool
  | .fin s m e =>
    let (n, nx) := roundAt mode s m e 0
    (if s then -(n : Int) else n, nx)
  | _ => (0, false)

/-- Float to integer (R82): out of range is clamped with NV, NaN gives 0 with NV. -/
def cvtFI (s : FFmt) (w : Nat) (sgn : Bool) (mode : Nat) (x : Nat) : Nat × Flags :=
  let (lo, hi) := intRange w sgn
  match fDecode s x with
  | .nan => (0, flagNV)
  | .inf neg => (intWrap w (if neg then lo else hi), flagNV)
  | v =>
    let (n, nx) := xToInt mode v
    if n < lo then (intWrap w lo, flagNV)
    else if hi < n then (intWrap w hi, flagNV)
    else (intWrap w n, flagIf nx flagNX)

/-- Integer to float (R82). -/
def cvtIF (w : Nat) (sgn : Bool) (d : FFmt) (mode : Nat) (sat : Bool) (x : Nat) : Nat × Flags :=
  let v := intRead w sgn x
  fRound d mode sat (.fin (v < 0) v.natAbs 0)

/-- Element types, in the order of their codes (R137). -/
inductive Ty where
  | f32 | f16 | bf16 | e4m3 | e5m2 | px3 | px5 | px8 | i32 | n32 | i16 | n16 | i8 | n8 | i4 | n4
  deriving DecidableEq, Repr

/-- The type of a code (R137). -/
def tyOfCode (n : Nat) : Ty :=
  match n % 16 with
  | 0 => .f32 | 1 => .f16 | 2 => .bf16 | 3 => .e4m3 | 4 => .e5m2 | 5 => .px3 | 6 => .px5 | 7 => .px8
  | 8 => .i32 | 9 => .n32 | 10 => .i16 | 11 => .n16 | 12 => .i8 | 13 => .n8 | 14 => .i4 | _ => .n4

/-- The float format of a type, for the five float types. -/
def Ty.fmt? : Ty → Option FFmt
  | .f32 => some fmtF32
  | .f16 => some fmtF16
  | .bf16 => some fmtBF16
  | .e4m3 => some fmtE4M3
  | .e5m2 => some fmtE5M2
  | _ => none

/-- The float format of a type; binary32 for every other type. -/
def Ty.fmt (t : Ty) : FFmt := t.fmt?.getD fmtF32

/-- Whether a type is an integer type. -/
def Ty.isInt : Ty → Bool
  | .i32 | .n32 | .i16 | .n16 | .i8 | .n8 | .i4 | .n4 => true
  | _ => false

/-- Whether a type is a picot type. -/
def Ty.isPicot : Ty → Bool
  | .px3 | .px5 | .px8 => true
  | _ => false

/-- Whether a type is one of the five float types. -/
def Ty.isFloat (t : Ty) : Bool := !t.isInt && !t.isPicot

/-- Signedness of an integer type. -/
def Ty.signed : Ty → Bool
  | .i32 | .i16 | .i8 | .i4 => true
  | _ => false

/-- Element width in bits (R10, R56). -/
def Ty.bits : Ty → Nat
  | .f32 | .i32 | .n32 => 32
  | .f16 | .bf16 | .i16 | .n16 => 16
  | .i4 | .n4 => 4
  | _ => 8

/-- Distance between sub-vectors in a lane (R56). -/
def Ty.step : Ty → Nat
  | .f32 | .i32 | .n32 => 32
  | .f16 | .bf16 | .i16 | .n16 => 16
  | _ => 8

/-- Number of sub-vectors (R56): c(τ). -/
def Ty.count (t : Ty) : Nat := 32 / t.step

/-- Magnitude bits of a picot type (R71). -/
def Ty.mag : Ty → Nat
  | .px3 => 2
  | .px5 => 4
  | _ => 7

/-- Conversion of one element between any two non-picot types (R82). -/
def cvtElem (s d : Ty) (mode : Nat) (sat : Bool) (x : Nat) : Nat × Flags :=
  match s.isInt, d.isInt with
  | false, false => cvtFF s.fmt d.fmt mode sat x
  | false, true => cvtFI s.fmt d.bits d.signed mode x
  | true, false => cvtIF s.bits s.signed d.fmt mode sat x
  | true, true => intFinish d.bits d.signed sat (intRead s.bits s.signed x)

/-- The exact value of an element of a non-picot type (R83). -/
def elemValue (t : Ty) (x : Nat) : XV :=
  if t.isInt then
    let v := intRead t.bits t.signed x
    .fin (v < 0) v.natAbs 0
  else fDecode t.fmt x

/-- The value of a picot element (R71). -/
def picotValue (neg : Bool) (m es nu mag : Nat) : XV :=
  if es = 255 then .nan else .fin neg m ((es : Int) - 127 - ((mag : Int) - 1) - nu)

/-- Negation and absolute value of a source field on one element (R79, R133): negate first, then absolute value. The magnitude of an
element of an unsigned type is the element itself (DEDUCED, notes/assumptions/23), and with both bits set the operand is |x| (R151). -/
def signMod (t : Ty) (neg abs : Bool) (x : Nat) : Nat :=
  if t.isInt then
    let v := intRead t.bits t.signed x
    let v := if neg && !abs then intRead t.bits t.signed (intWrap t.bits (-v)) else v
    let v := if abs then (v.natAbs : Int) else v
    intWrap t.bits v
  else
    let b := 2 ^ (t.bits - 1)
    let x := x % 2 ^ t.bits
    let x := if neg then (if b ≤ x then x - b else x + b) else x
    if abs && b ≤ x then x - b else x

end Sys2Proof.Machine
end

