-- ==== Sys2Proof/Machine/Acc.lean ====
section
/-!
DEFINITION. Exact map sums, accumulator containers, the lane-reduction tree and picot packing (R84 to R93, R208, R209).
-/
namespace Sys2Proof.Machine

/-- What a float map row gives (R84): a NaN, an infinity, or the exact pair (S, e). -/
inductive RowSum where
  | nan
  | inf (neg : Bool)
  | pair (s : Int) (e : Int)
  deriving DecidableEq, Repr

/-- to_fixed48 of one product for the grid 2^w (R84): floor toward −∞, and whether a nonzero part was discarded. -/
def toFixed48 (w : Int) : XV → Int × Bool
  | .fin neg m e =>
    if w ≤ e then
      let x : Int := (m * 2 ^ (e - w).toNat : Nat)
      (if neg then -x else x, false)
    else
      let d := (w - e).toNat
      let q := m / 2 ^ d
      let r := m % 2 ^ d
      (if neg then (if r = 0 then -(q : Int) else -(q : Int) - 1) else q, r ≠ 0)
  | _ => (0, false)

/-- The exponent of the largest nonzero product (R84). -/
def maxTop (ps : List XV) : Option Int :=
  ps.foldl (fun acc p => match p with
    | .fin _ m e =>
      if m = 0 then acc else
        let t := e + (Nat.log2 m : Int)
        match acc with
        | none => some t
        | some a => some (max a t)
    | _ => acc) none

/-- order_free_row over decoded columns (R84); the Bool beside a value says that its encoding was a signalling NaN. -/
def orderFreeRow (as bs : List (XV × Bool)) : RowSum × Flags :=
  let ps := as.zip bs |>.map fun p => xMul p.1.1 p.2.1
  let nan := (as ++ bs).any fun v => v.1 = .nan
  let snan := (as ++ bs).any fun v => v.2
  let zinf := ps.any fun p => p.2 ≠ 0
  if nan || zinf then (.nan, flagIf (snan || zinf) flagNV)
  else
    let pos := ps.any fun p => p.1 = .inf false
    let neg := ps.any fun p => p.1 = .inf true
    if pos && neg then (.nan, flagNV)
    else if pos then (.inf false, 0)
    else if neg then (.inf true, 0)
    else
      match maxTop (ps.map Prod.fst) with
      | none => (.pair 0 0, 0)
      | some e =>
        let w := e - 41
        let ts := ps.map fun p => toFixed48 w p.1
        (.pair (ts.foldl (fun a t => a + t.1) 0) w, flagIf (ts.any Prod.snd) flagNX)

/-- The exact value of a pair; S = 0 gives +0 (R83). -/
def pairValue (s : Int) (e : Int) : XV := .fin (s < 0) s.natAbs e

/-- A row sum as a value for one rounding (R86). -/
def RowSum.value : RowSum → XV
  | .nan => .nan
  | .inf n => .inf n
  | .pair s e => pairValue s e

/-- A container as arithmetic reads it (R64, R209). -/
inductive CV where
  | nan
  | inf (neg : Bool)
  | fin (s : Int) (e : Nat) (satd : Bool)
  deriving DecidableEq, Repr

/-- Reading precedence of R209. -/
def accRead (c : W64) : CV :=
  if c.getLsbD 63 then .nan
  else if c.getLsbD 62 && c.getLsbD 61 then .nan
  else if c.getLsbD 62 then .inf false
  else if c.getLsbD 61 then .inf true
  else .fin (c.extractLsb' 0 48 : BitVec 48).toInt (c.extractLsb' 48 12 : BitVec 12).toNat (c.getLsbD 60)

/-- The bits of a container (R64, R87). -/
def accBits : CV → W64
  | .nan => 0x8000000000000000
  | .inf false => 0x4000000000000000
  | .inf true => 0x2000000000000000
  | .fin s e satd =>
    (if satd then 0x1000000000000000 else 0) + BitVec.ofNat 64 ((e % 4096) * 2 ^ 48) + (BitVec.ofInt 48 s).setWidth 64

/-- Leading bit position of a nonzero magnitude (R87). -/
def leadBit (t : Int) : Nat := Nat.log2 t.natAbs

/-- The shifting loop of normalise: halve toward −∞ while the leading bit is above bit 46 (R87). -/
def normDown : Nat → Int → Int → Bool → Int × Int × Bool
  | 0, t, e, nx => (t, e, nx)
  | fuel + 1, t, e, nx =>
    if 46 < leadBit t then normDown fuel (t.fdiv 2) (e + 1) (nx || t.fmod 2 = 1) else (t, e, nx)

/-- normalise(T, E) (R87). -/
def accNormalise (t : Int) (e : Int) : CV × Flags :=
  if t = 0 then (.fin 0 0 false, 0)
  else
    let (t, e, nx) := normDown (leadBit t + 2) t e false
    let l := leadBit t
    let k : Nat := if l < 45 then min (45 - l) e.toNat else 0
    let t := t * (2 ^ k : Nat)
    let e := e - k
    if 4095 < e then
      (.fin (if t < 0 then -(2 ^ 47 - 1) else 2 ^ 47 - 1) 4095 true, flagSAT ||| flagNX)
    else (.fin t e.toNat false, flagIf nx flagNX)

/-- acc_from_sum (R87). -/
def accFromSum : RowSum → CV
  | .nan => .nan
  | .inf n => .inf n
  | .pair s e => if s = 0 then .fin 0 0 false else .fin s (e + 2047).toNat false

/-- acc_from_value (R87). -/
def accFromValue : XV → CV × Flags
  | .nan => (.nan, 0)
  | .inf n => (.inf n, 0)
  | .fin neg m e => if m = 0 then (.fin 0 0 false, 0) else accNormalise (if neg then -(m : Int) else m) (e + 2047)

/-- floor(S / 2^d) with the inexact mark; a shift far past the width gives the limit 0 or −1 (R88). -/
def floorShift (s : Int) (d : Nat) : Int × Bool :=
  let d := min d 4096
  (s.fdiv (2 ^ d : Nat), s.fmod (2 ^ d : Nat) ≠ 0)

/-- The same container with SATD ORed in (R88, R89). -/
def CV.orSatd (b : Bool) : CV → CV
  | .fin s e q => .fin s e (q || b)
  | v => v

/-- The finite sum of acc_add (R88). -/
def accSum (s : Int) (e : Nat) (t : Int) (f : Nat) : CV × Flags :=
  if s = 0 then accNormalise t f
  else if t = 0 then accNormalise s e
  else
    let m := max e f
    let (a, n1) := floorShift s (m - e)
    let (b, n2) := floorShift t (m - f)
    let (r, fl) := accNormalise (a + b) m
    (r, fl ||| flagIf (n1 || n2) flagNX)

/-- acc_add (R88): an infinite operand is returned as it stands, the first of two (DESIGN CHOICE where two equal infinities differ in
their other bits; notes/assumptions/65.md). -/
def accAdd (x y : W64) : W64 × Flags :=
  match accRead x, accRead y with
  | .nan, _ => (accBits .nan, 0)
  | _, .nan => (accBits .nan, 0)
  | .inf a, .inf b => if a = b then (x, 0) else (accBits .nan, flagNV)
  | .inf _, .fin .. => (x, 0)
  | .fin .., .inf _ => (y, 0)
  | .fin s e p, .fin t f q => (accBits ((accSum s e t f).1.orSatd (p || q)), (accSum s e t f).2)

/-- acc_scale (R89): a special or zero container is returned as it stands. -/
def accScale (x : W64) (k : Int) : W64 × Flags :=
  match accRead x with
  | .fin s e q =>
    if s = 0 then (x, 0)
    else
      let f : Int := e + k
      let (t, f, nx) := if f < 0 then let (t, nx) := floorShift s (-f).toNat; (t, 0, nx) else (s, f, false)
      let (r, fl) := accNormalise t f
      (accBits (r.orSatd q), fl ||| flagIf nx flagNX)
  | _ => (x, 0)

/-- acc_to_format for a float type (R90), with the saturate option of AOUT (R210). -/
def accToFloat (t : FFmt) (sat : Bool) (c : CV) : Nat × Flags :=
  match c with
  | .nan => (fCanon t, 0)
  | .inf n => fRound t 0 sat (.inf n)
  | .fin s e q =>
    let (x, f) := fRound t 0 sat (pairValue s ((e : Int) - 2047))
    (x, f ||| flagIf q flagSAT)

/-- acc_to_format for an integer type (R90). -/
def accToInt (w : Nat) (sgn : Bool) (c : CV) : Nat × Flags :=
  match c with
  | .nan => (0, flagNV)
  | .inf n => (intWrap w (if n then (intRange w sgn).1 else (intRange w sgn).2), flagSAT)
  | .fin s e q =>
    let (v, nx) := xToInt 0 (pairValue s ((e : Int) - 2047))
    let (u, f) := intSat w sgn v
    (intWrap w u, f ||| flagIf nx flagNX ||| flagIf q flagSAT)

/-- acc_to_format (R90). -/
def accToElem (t : Ty) (sat : Bool) (c : CV) : Nat × Flags :=
  if t.isInt then accToInt t.bits t.signed c else accToFloat t.fmt sat c

/-- A tree node: absent, or a value with the flags of every combination that entered it (R91, R194). -/
abbrev Node := Option (Nat × Flags)

/-- combine (R91). -/
def nodeCombine (op : Nat → Nat → Nat × Flags) (l r : Node) : Node :=
  match l, r with
  | some a, some b => let c := op a.1 b.1; some (c.1, a.2 ||| b.2 ||| c.2)
  | some a, none => some a
  | none, some b => some b
  | none, none => none

/-- One level of the tree: nodes 2k and 2k + 1 combine (R91). -/
def treeLevel (op : Nat → Nat → Nat × Flags) : List Node → List Node
  | a :: b :: rest => nodeCombine op a b :: treeLevel op rest
  | [a] => [a]
  | [] => []

/-- The levels 0 to 5 of the tree (R91). -/
def treeLevels (op : Nat → Nat → Nat × Flags) : Nat → List Node → List (List Node)
  | 0, xs => [xs]
  | n + 1, xs => xs :: treeLevels op n (treeLevel op xs)

/-- tree_reduce: the root (R91). -/
def treeReduce (op : Nat → Nat → Nat × Flags) (xs : List Node) : Node :=
  ((treeLevels op 5 xs).getD 5 []).getD 0 none

/-- The scan loop over levels l down to 0 (R91). -/
def treeScanFrom (op : Nat → Nat → Nat × Flags) (lv : List (List Node)) (i : Nat) : Nat → Nat → Node → Node
  | 0, base, res => if (i + 1) % 2 = 1 then nodeCombine op res ((lv.getD 0 []).getD base none) else res
  | l + 1, base, res =>
    if (i + 1) / 2 ^ (l + 1) % 2 = 1 then
      treeScanFrom op lv i l (base + 2 ^ (l + 1)) (nodeCombine op res ((lv.getD (l + 1) []).getD (base / 2 ^ (l + 1)) none))
    else treeScanFrom op lv i l base res

/-- tree_scan: the inclusive prefix of lane i (R91). -/
def treeScan (op : Nat → Nat → Nat × Flags) (xs : List Node) (i : Nat) : Node :=
  treeScanFrom op (treeLevels op 5 xs) i 5 0 none

/-- v / 2^q rounded to an integer, ties to even (R92, rne_int of a quotient by a step). -/
def rneOver (v : XV) (q : Int) : Nat :=
  match v with
  | .fin _ m e => (roundAt 0 false m e q).1
  | _ => 0

/-- Exponent of step(Es, ν) (R92). -/
def stepExp (es nu mag : Nat) : Int := (es : Int) - 127 - ((mag : Int) - 1) - nu

/-- The larger magnitude of two finite values. -/
def xMaxMag (a b : XV) : XV := if xLt (xAbs a) (xAbs b) then xAbs b else xAbs a

/-- amax of a block of finite values (R92). -/
def blockMax (xs : List XV) : XV := xs.foldl xMaxMag (.fin false 0 0)

/-- floor(log2) of a nonzero finite value. -/
def xTop : XV → Int
  | .fin _ m e => e + (Nat.log2 m : Int)
  | _ => 0

/-- Whether a value is a zero. -/
def xIsZero : XV → Bool
  | .fin _ m _ => m = 0
  | _ => false

/-- Whether a value is finite. -/
def xIsFin : XV → Bool
  | .fin .. => true
  | _ => false

/-- qscan_block: the shared exponent (R92). -/
def qscanBlock (mag : Nat) (xs : List XV) : Nat :=
  if xs.any fun x => !xIsFin x then 255
  else
    let a := blockMax xs
    if xIsZero a then 0
    else
      let e := xTop a + 127
      let big := rneOver a (e - 127 - ((mag : Int) - 1)) > 2 ^ mag - 1
      let e := if big then e + 1 else e
      (min (max e 0) 254).toNat

/-- The sign of a value as its source carries it. -/
def xSign : XV → Bool
  | .fin s _ _ => s
  | .inf s => s
  | .nan => false

/-- The quad shift: the largest ν in 0 to 3 whose step still holds the quad, or 0 (R93). -/
def quadShift (mag es : Nat) (q : List XV) : Nat :=
  let big := blockMax q
  let fits := fun nu => rneOver big (stepExp es nu mag) ≤ 2 ^ mag - 1
  if fits 3 then 3 else if fits 2 then 2 else if fits 1 then 1 else 0

/-- One packed element: magnitude and flags (R93). -/
def packElem (mag es nu : Nat) (clamped : Bool) (x : XV) : Nat × Flags :=
  let m := rneOver (xAbs x) (stepExp es nu mag)
  let above := m > 2 ^ mag - 1
  let m := if above then 2 ^ mag - 1 else m
  let inexact := !xEq (.fin false m (stepExp es nu mag)) (xAbs x)
  (m, flagIf above (flagSAT ||| flagNX) ||| flagIf inexact (flagNX ||| flagIf clamped flagUF))

/-- A packed block: header, element codes, flags (R93). The sign of each element is given beside its value, since a NaN's
exact value has none. -/
def qpackBlock (mag : Nat) (xs : List (XV × Bool)) : Nat × List Nat × Flags :=
  let vs := xs.map Prod.fst
  let es := qscanBlock mag vs
  let code := fun (neg : Bool) (m : Nat) => (if neg then 2 ^ mag else 0) + m
  if es = 255 then (255, xs.map fun x => code x.2 0, 0)
  else
    let a := blockMax vs
    let clamped := !xIsZero a && xTop a + 127 < 0
    let nus := (List.range 4).map fun k => quadShift mag es ((vs.drop (4 * k)).take 4)
    let ps := xs.zipIdx.map fun x =>
      let r := packElem mag es (nus.getD (x.2 / 4) 0) clamped x.1.1
      (code x.1.2 r.1, r.2)
    let shift := nus.zipIdx.foldl (fun s n => s + n.1 * 4 ^ n.2) 0
    (shift * 256 + es, ps.map Prod.fst, ps.foldl (fun f p => f ||| p.2) 0)

end Sys2Proof.Machine
end

