-- ==== Sys2Proof/Config.lean ====
section
/-!
DEFINITION. What an implementation fixes, and the free values: constants with no body, standing for what the manual leaves
open or leaves to Selore and to the outside world. Nothing can be proved about their values. A free value is applied to the
counter `State.tick`, which every use advances, or to the operands it depends on. Log entries name each one.
-/
namespace Sys2Proof.Config

/-- One open binary choice of the memory system: old or new byte without a crossing (R120), old or new element of a slot being loaded (R60), which
of two writes a shared byte keeps (R104, R242). -/
opaque freeBit : Nat → Bool

/-- Whether an access made at a free-value count through a virtual address uses a cached translation (R295). -/
opaque freeXlat : Nat → Nat → Bool

/-- One open choice among finitely many candidates: which bobbin engine a packet with cluster
0xFFFF_FFFF runs on (R276). -/
opaque freeNat : Nat → Nat

/-- Whether AMAC of an unmapped signalling NaN raises NV: R69 says so, and R208 names other flags only. -/
opaque amacNaN : Bool

/-- Selore's random source: the nonce a lock draws (R329). -/
opaque nonce : Nat → BitVec 256

/-- The firmware images in the order Selore, queue engines, management (R344). -/
opaque firmware : Nat → List Byte

/-- The signature-check byte of an image (R344, register M5). -/
opaque signatureStatus : Nat → Byte

/-- The calibration results M3 is extended with (R344). -/
opaque calibration : List Byte

/-- The repair map held in fuses (R344, R349). -/
opaque repairMap : List Byte

/-- The public half of the device identity key, 1952 bytes (R338, R343). -/
opaque identityKey : Vector Byte 1952

/-- The certificate chain of the device identity key before and after that key's bytes (R343). -/
opaque certificateParts : List Byte × List Byte

/-- An ML-DSA-65 signature by the device identity key over a transcript: who sent each message, its code and its bytes (R338, R345). -/
opaque signature : List (Bool × Nat × List Byte) → Vector Byte 3309

/-- The responder's ExchangeData: an ML-KEM-1024 ciphertext for an encapsulation key, drawn with a counter (R338). -/
opaque exchangeData : List Byte → Nat → Vector Byte 1568

/-- A SHAKE256 digest keyed with the context-seal key of a partition: the key's draw number and the record (R313, R346). -/
opaque sealDigest : Nat → List Byte → BitVec 512

/-- A payload the SPDM standard defines and this manual does not: request code and counter (R336). -/
opaque spdmPayload : Nat → Nat → List Byte

end Sys2Proof.Config
end

