-- ==== Sys2Proof/Syntax.lean ====
section
/-!
DEFINITION. The instructions of the machine's steps. `Instr` has one constructor for every row of the
table of operations and events (opcode_table.json): the word fetch, the sequencing selectors of R129, every op of R142 to
R148, and every event, command and request that the table lists. An op constructor carries the fields of R131 to R133 as they
stand in the word, legal or not, because R139 checks an op only when it would execute.
-/
namespace Sys2Proof

/-- The three shapes an op can have in its word (R127): a short op of a paired word, the short op of a literal word, a long op. -/
inductive Form where
  | short | literal | long
  deriving DecidableEq, Repr

/-- A 14-bit source field (R133): register number, map number, negate, absolute value. -/
structure Src where
  reg : BitVec 8
  map : BitVec 4
  neg : Bool
  abs : Bool
  deriving DecidableEq, Repr

/-- The fields of one op (R131, R132). `sub` holds what the opcode of a short form carries beside the operation: the
type code of a typed op (R143, R144, R145), `4·w + q` of a short VLD or VST (R146), or the low bits of a hint (R147).
`rsv` is bit 35 of a long op, `lit` the literal of a literal word. Fields that a form does not have are zero. -/
structure OpF where
  form : Form
  guard : BitVec 4
  dst : BitVec 8
  a : Src
  b : Src
  c : Src
  opt : Bool
  rsv : Bool
  sat : Bool
  rnd : BitVec 2
  imm : BitVec 32
  lit : BitVec 50
  sub : BitVec 5
  deriving DecidableEq, Repr

/-- A launch: its partition and its launch handle (R290). -/
structure Lid where
  part : Nat
  handle : Nat
  deriving DecidableEq, Repr

/-- A team: its launch and its linear index in the grid (R13). -/
structure Tid where
  l : Lid
  team : Nat
  deriving DecidableEq, Repr

/-- A group: its team and its number within the team (R17). -/
structure Gid where
  t : Tid
  num : Nat
  deriving DecidableEq, Repr

/-- Which bobbin command finishes (R243, R276): the oldest one of a group, or a BOB packet of a partition. -/
inductive BobRef where
  | op (k : Gid)
  | packet (p i : Nat)
  deriving DecidableEq, Repr

/-- One entry of the extended-algorithm format: Registry ID, a reserved byte, Algorithm ID (R338). -/
structure ExtAlg where
  registry : BitVec 8
  reserved : BitVec 8
  algorithm : BitVec 16
  deriving DecidableEq, Repr

/-- What a NEGOTIATE_ALGORITHMS request selects, role by role (R337, R338). -/
structure AlgOffer where
  baseAsym : Nat
  extAsym : List ExtAlg
  baseHash : Nat
  extHash : List ExtAlg
  dheBase : Nat
  dhe : List ExtAlg
  reqAsymBase : Nat
  reqAsym : List ExtAlg
  aeadAes256Gcm : Bool
  keySchedule : Bool
  rawMeasurement : Bool
  deriving DecidableEq, Repr

/-- A TDISP request carried by VENDOR_DEFINED_REQUEST (R329, R336). -/
inductive TdispReq where
  | lock
  | start (nonce : BitVec 256)
  | stop
  | state
  | report (nonce : BitVec 256)
  deriving DecidableEq, Repr

/-- How a bring-up stage ends (R354). -/
inductive StageResult where
  | ok | rail | temperature | selore | link | other
  deriving DecidableEq, Repr

/-- The operations of R142 to R147, by name. -/
inductive Op where
  | sli
  | slih
  | smov
  | sadd
  | ssub
  | smul
  | smulhi
  | sdiv
  | srem
  | smin
  | smax
  | sand
  | sor
  | sxor
  | sshl
  | sshr
  | srot
  | scmp
  | ssel
  | sbfx
  | sbfi
  | spopc
  | sclz
  | sctz
  | sadda
  | sld
  | sst
  | sfadd
  | sfmul
  | sfma
  | sfcmp
  | scvt
  | kand
  | kor
  | kxor
  | nset
  | nget
  | clkr
  | idr
  | trap
  | bkpt
  | vmov
  | vli
  | vlane
  | vadd
  | vsub
  | vmul
  | vmulhi
  | vmad
  | vmin
  | vmax
  | vabsdiff
  | vand
  | vor
  | vxor
  | vshl
  | vshr
  | vrot
  | vbfx
  | vbfi
  | vpopc
  | vclz
  | vcmp
  | vsel
  | vfadd
  | vfsub
  | vfmul
  | vfma
  | vfmin
  | vfmax
  | vfcmp
  | vfrnd
  | vfclass
  | vfscale
  | vcvt
  | vpack
  | vunpack
  | vexp2
  | vlog2
  | vrcp
  | vrsq
  | vsqrt
  | vdiv
  | vtanh
  | vsin
  | vcos
  | vlred
  | vlscan
  | vballot
  | vpermx
  | vextr
  | vinsr
  | vrdx
  | vwrx
  | pand
  | por
  | pxor
  | mapld
  | mapst
  | mapgen
  | mapset
  | mapbind
  | mapstr
  | mapadv
  | maprel
  | aclr
  | amac
  | aadd
  | ain
  | aout
  | ascale
  | asave
  | aload
  | qscan
  | qpack
  | qunpack
  | vld
  | vst
  | cpy
  | tmov
  | atom
  | ared
  | fence
  | xfence
  | promote
  | wait
  | twany
  | twall
  | tfirst
  | sigadd
  | sigwait
  | ringput
  | ringputFree
  | ringget
  | ringexp
  | bar
  | roleq
  | bob
  | bobq
  | rfbegin
  | rftest
  | rfend
  | imgst
  | symq
  | rte
  | srd
  | swr
  | replayq
  | nop
  | yield
  deriving DecidableEq, Repr

/-- One constructor per row of the table of operations and events. -/
inductive Instr where
  /-- WORD_FETCH (R139). -/
  | wordFetch
  /-- NEXT (R159). -/
  | next
  /-- JUMP (R159). -/
  | jump (ofs : BitVec 12)
  /-- JUMPC (R159). -/
  | jumpc (neg : Bool) (k : BitVec 3) (ofs : BitVec 12)
  /-- CALL (R159). -/
  | call (ofs : BitVec 12)
  /-- RETURN (R159). -/
  | ret
  /-- LOOP (R160). -/
  | loop (n : BitVec 2) (ofs : BitVec 12)
  /-- JUMPX (R159). -/
  | jumpx (r : BitVec 6)
  /-- EXIT (R24). -/
  | exit
  /-- RFNEXT (R247). -/
  | rfnext
  /-- CALLX (R159). -/
  | callx (r : BitVec 6)
  /-- SLI (R166). -/
  | sli (f : OpF)
  /-- SLIH (R166). -/
  | slih (f : OpF)
  /-- SMOV (R166). -/
  | smov (f : OpF)
  /-- SADD (R167). -/
  | sadd (f : OpF)
  /-- SSUB (R167). -/
  | ssub (f : OpF)
  /-- SMUL (R167). -/
  | smul (f : OpF)
  /-- SMULHI (R167). -/
  | smulhi (f : OpF)
  /-- SDIV (R167). -/
  | sdiv (f : OpF)
  /-- SREM (R167). -/
  | srem (f : OpF)
  /-- SMIN (R167). -/
  | smin (f : OpF)
  /-- SMAX (R167). -/
  | smax (f : OpF)
  /-- SAND (R167). -/
  | sand (f : OpF)
  /-- SOR (R167). -/
  | sor (f : OpF)
  /-- SXOR (R167). -/
  | sxor (f : OpF)
  /-- SSHL (R167). -/
  | sshl (f : OpF)
  /-- SSHR (R167). -/
  | sshr (f : OpF)
  /-- SROT (R167). -/
  | srot (f : OpF)
  /-- SCMP (R168). -/
  | scmp (f : OpF)
  /-- SSEL (R170). -/
  | ssel (f : OpF)
  /-- SBFX (R170). -/
  | sbfx (f : OpF)
  /-- SBFI (R170). -/
  | sbfi (f : OpF)
  /-- SPOPC (R170). -/
  | spopc (f : OpF)
  /-- SCLZ (R170). -/
  | sclz (f : OpF)
  /-- SCTZ (R170). -/
  | sctz (f : OpF)
  /-- SADDA (R170). -/
  | sadda (f : OpF)
  /-- SLD (R171). -/
  | sld (f : OpF)
  /-- SST (R171). -/
  | sst (f : OpF)
  /-- SFADD (R172). -/
  | sfadd (f : OpF)
  /-- SFMUL (R172). -/
  | sfmul (f : OpF)
  /-- SFMA (R172). -/
  | sfma (f : OpF)
  /-- SFCMP (R169). -/
  | sfcmp (f : OpF)
  /-- SCVT (R173). -/
  | scvt (f : OpF)
  /-- KAND (R174). -/
  | kand (f : OpF)
  /-- KOR (R174). -/
  | kor (f : OpF)
  /-- KXOR (R174). -/
  | kxor (f : OpF)
  /-- NSET (R175). -/
  | nset (f : OpF)
  /-- NGET (R175). -/
  | nget (f : OpF)
  /-- CLKR (R26). -/
  | clkr (f : OpF)
  /-- IDR (R27). -/
  | idr (f : OpF)
  /-- TRAP (R177). -/
  | trap (f : OpF)
  /-- BKPT (R177). -/
  | bkpt (f : OpF)
  /-- VMOV (R182). -/
  | vmov (f : OpF)
  /-- VLI (R182). -/
  | vli (f : OpF)
  /-- VLANE (R182). -/
  | vlane (f : OpF)
  /-- VADD (R183). -/
  | vadd (f : OpF)
  /-- VSUB (R183). -/
  | vsub (f : OpF)
  /-- VMUL (R183). -/
  | vmul (f : OpF)
  /-- VMULHI (R183). -/
  | vmulhi (f : OpF)
  /-- VMAD (R183). -/
  | vmad (f : OpF)
  /-- VMIN (R183). -/
  | vmin (f : OpF)
  /-- VMAX (R183). -/
  | vmax (f : OpF)
  /-- VABSDIFF (R183). -/
  | vabsdiff (f : OpF)
  /-- VAND (R184). -/
  | vand (f : OpF)
  /-- VOR (R184). -/
  | vor (f : OpF)
  /-- VXOR (R184). -/
  | vxor (f : OpF)
  /-- VSHL (R184). -/
  | vshl (f : OpF)
  /-- VSHR (R184). -/
  | vshr (f : OpF)
  /-- VROT (R184). -/
  | vrot (f : OpF)
  /-- VBFX (R184). -/
  | vbfx (f : OpF)
  /-- VBFI (R184). -/
  | vbfi (f : OpF)
  /-- VPOPC (R184). -/
  | vpopc (f : OpF)
  /-- VCLZ (R184). -/
  | vclz (f : OpF)
  /-- VCMP (R185). -/
  | vcmp (f : OpF)
  /-- VSEL (R186). -/
  | vsel (f : OpF)
  /-- VFADD (R188). -/
  | vfadd (f : OpF)
  /-- VFSUB (R188). -/
  | vfsub (f : OpF)
  /-- VFMUL (R188). -/
  | vfmul (f : OpF)
  /-- VFMA (R188). -/
  | vfma (f : OpF)
  /-- VFMIN (R189). -/
  | vfmin (f : OpF)
  /-- VFMAX (R189). -/
  | vfmax (f : OpF)
  /-- VFCMP (R190). -/
  | vfcmp (f : OpF)
  /-- VFRND (R189). -/
  | vfrnd (f : OpF)
  /-- VFCLASS (R189). -/
  | vfclass (f : OpF)
  /-- VFSCALE (R189). -/
  | vfscale (f : OpF)
  /-- VCVT (R191). -/
  | vcvt (f : OpF)
  /-- VPACK (R191). -/
  | vpack (f : OpF)
  /-- VUNPACK (R191). -/
  | vunpack (f : OpF)
  /-- VEXP2 (R192). -/
  | vexp2 (f : OpF)
  /-- VLOG2 (R192). -/
  | vlog2 (f : OpF)
  /-- VRCP (R192). -/
  | vrcp (f : OpF)
  /-- VRSQ (R192). -/
  | vrsq (f : OpF)
  /-- VSQRT (R192). -/
  | vsqrt (f : OpF)
  /-- VDIV (R192). -/
  | vdiv (f : OpF)
  /-- VTANH (R192). -/
  | vtanh (f : OpF)
  /-- VSIN (R192). -/
  | vsin (f : OpF)
  /-- VCOS (R192). -/
  | vcos (f : OpF)
  /-- VLRED (R194). -/
  | vlred (f : OpF)
  /-- VLSCAN (R194). -/
  | vlscan (f : OpF)
  /-- VBALLOT (R195). -/
  | vballot (f : OpF)
  /-- VPERMX (R196). -/
  | vpermx (f : OpF)
  /-- VEXTR (R196). -/
  | vextr (f : OpF)
  /-- VINSR (R196). -/
  | vinsr (f : OpF)
  /-- VRDX (R197). -/
  | vrdx (f : OpF)
  /-- VWRX (R197). -/
  | vwrx (f : OpF)
  /-- PAND (R198). -/
  | pand (f : OpF)
  /-- POR (R198). -/
  | por (f : OpF)
  /-- PXOR (R198). -/
  | pxor (f : OpF)
  /-- MAPLD (R201). -/
  | mapld (f : OpF)
  /-- MAPST (R201). -/
  | mapst (f : OpF)
  /-- MAPGEN (R204). -/
  | mapgen (f : OpF)
  /-- MAPSET (R202). -/
  | mapset (f : OpF)
  /-- MAPBIND (R202). -/
  | mapbind (f : OpF)
  /-- MAPSTR (R205). -/
  | mapstr (f : OpF)
  /-- MAPADV (R206). -/
  | mapadv (f : OpF)
  /-- MAPREL (R206). -/
  | maprel (f : OpF)
  /-- ACLR (R209). -/
  | aclr (f : OpF)
  /-- AMAC (R208). -/
  | amac (f : OpF)
  /-- AADD (R209). -/
  | aadd (f : OpF)
  /-- AIN (R210). -/
  | ain (f : OpF)
  /-- AOUT (R210). -/
  | aout (f : OpF)
  /-- ASCALE (R209). -/
  | ascale (f : OpF)
  /-- ASAVE (R211). -/
  | asave (f : OpF)
  /-- ALOAD (R211). -/
  | aload (f : OpF)
  /-- QSCAN (R213). -/
  | qscan (f : OpF)
  /-- QPACK (R214). -/
  | qpack (f : OpF)
  /-- QUNPACK (R215). -/
  | qunpack (f : OpF)
  /-- VLD (R219). -/
  | vld (f : OpF)
  /-- VST (R219). -/
  | vst (f : OpF)
  /-- CPY (R222). -/
  | cpy (f : OpF)
  /-- TMOV (R222). -/
  | tmov (f : OpF)
  /-- ATOM (R225). -/
  | atom (f : OpF)
  /-- ARED (R225). -/
  | ared (f : OpF)
  /-- FENCE (R227). -/
  | fence (f : OpF)
  /-- XFENCE (R228). -/
  | xfence (f : OpF)
  /-- PROMOTE (R229). -/
  | promote (f : OpF)
  /-- PROMOTE_COMPLETE (R123). -/
  | promoteComplete (k : Gid)
  /-- WAIT (R231). -/
  | wait (f : OpF)
  /-- TWANY (R232). -/
  | twany (f : OpF)
  /-- TWALL (R232). -/
  | twall (f : OpF)
  /-- TFIRST (R232). -/
  | tfirst (f : OpF)
  /-- SIGADD (R233). -/
  | sigadd (f : OpF)
  /-- SIGWAIT (R233). -/
  | sigwait (f : OpF)
  /-- RINGPUT (R110). -/
  | ringput (f : OpF)
  /-- RINGPUT_FREE (R110). -/
  | ringputFree (f : OpF)
  /-- RINGGET (R110). -/
  | ringget (f : OpF)
  /-- RINGEXP (R110). -/
  | ringexp (f : OpF)
  /-- BAR (R235). -/
  | bar (f : OpF)
  /-- ROLEQ (R236). -/
  | roleq (f : OpF)
  /-- BOB (R242). -/
  | bob (f : OpF)
  /-- BOBQ (R244). -/
  | bobq (f : OpF)
  /-- RFBEGIN (R246). -/
  | rfbegin (f : OpF)
  /-- RFTEST (R248). -/
  | rftest (f : OpF)
  /-- RFEND (R249). -/
  | rfend (f : OpF)
  /-- IMGST (R252). -/
  | imgst (f : OpF)
  /-- SYMQ (R253). -/
  | symq (f : OpF)
  /-- RTE (R305). -/
  | rte (f : OpF)
  /-- SRD (R306). -/
  | srd (f : OpF)
  /-- SWR (R306). -/
  | swr (f : OpF)
  /-- REPLAYQ (R308). -/
  | replayq (f : OpF)
  /-- NOP (R147). -/
  | nop (f : OpF)
  /-- YIELD (R147). -/
  | yield (f : OpF)
  /-- UNASSIGNED_OPCODE (R148). -/
  | unassignedOpcode (opc : BitVec 10) (f : OpF)
  /-- DEFERRED_ISSUE (R98). -/
  | deferredIssue (k : Gid)
  /-- LOAD_RETIRE (R98). -/
  | loadRetire (k : Gid)
  /-- STORE_RETIRE (R98). -/
  | storeRetire (k : Gid)
  /-- COPY_COMPLETE (R222). -/
  | copyComplete (k : Gid) (i : Nat)
  /-- RING_BYTE_COUNT (R110). -/
  | ringByteCount (k : Gid) (i n : Nat)
  /-- MAP_TRANSFER_COMPLETE (R98). -/
  | mapTransferComplete (k : Gid) (i : Nat)
  /-- STREAM_BLOCK_ARRIVAL (R61). -/
  | streamBlockArrival (k : Gid) (m blk : Nat)
  /-- BOB_COMMAND_COMPLETE (R243). -/
  | bobCommandComplete (r : BobRef)
  /-- IMGST_COMPLETE (R252). -/
  | imgstComplete (k : Gid)
  /-- ACCUMULATOR_TRANSFER_COMPLETE (R211). -/
  | accumulatorTransferComplete (k : Gid)
  /-- WAIT_RESUME (R231). -/
  | waitResume (k : Gid)
  /-- TAG_WAIT_RESUME (R232). -/
  | tagWaitResume (k : Gid)
  /-- SIGWAIT_END (R233). -/
  | sigwaitEnd (k : Gid)
  /-- RINGGET_END (R110). -/
  | ringgetEnd (k : Gid)
  /-- RINGEXP_RESUME (R110). -/
  | ringexpResume (k : Gid)
  /-- RINGPUT_RESUME (R110). -/
  | ringputResume (k : Gid)
  /-- RINGPUT_FREE_EFFECT (R115). -/
  | ringputFreeEffect (k : Gid)
  /-- BAR_DEPART (R235). -/
  | barDepart (t : Tid) (id : Nat)
  /-- ROLEQ_MOVE (R236). -/
  | roleqMove (k : Gid)
  /-- BOBQ_RESUME (R244). -/
  | bobqResume (k : Gid)
  /-- SYMQ_RESUME (R253). -/
  | symqResume (k : Gid)
  /-- ATOM_ORD_ROUND (R226). -/
  | atomOrdRound (k : Gid)
  /-- ORD_DEADLOCK (R35). -/
  | ordDeadlock (t : Tid)
  /-- REGISTER_SPILL (R22). -/
  | registerSpill (k : Gid) (j : Nat)
  /-- GROUP_SLOT_FREE (R24). -/
  | groupSlotFree (k : Gid)
  /-- TEAM_PLACE (R287). -/
  | teamPlace (l : Lid) (dist core : Nat)
  /-- COHORT_PLACEMENT (R25). -/
  | cohortPlacement (l : Lid) (cores : List Nat)
  /-- LOFT_YARD_RESERVE (R96). -/
  | loftYardReserve (l : Lid)
  /-- DISTRIBUTOR_STEAL (R285). -/
  | distributorSteal (l : Lid) (thief : Nat)
  /-- PLACEMENT_STARVATION (R288). -/
  | placementStarvation (l : Lid) (dist : Nat)
  /-- SEAM (R320). -/
  | seam (l : Lid)
  /-- QUEUE_ENGINE_STEP (R269). -/
  | queueEngineStep (p : Nat) (e : Fin 4)
  /-- BUNDLE_ABORT (R272). -/
  | bundleAbort (p b : Nat)
  /-- HUB_COPY_COMPLETE (R275). -/
  | hubCopyComplete (p i : Nat)
  /-- QUEUE_DOORBELL (R262). -/
  | queueDoorbell (p q : Nat) (v : BitVec 64)
  /-- QUEUE_ENABLE (R263). -/
  | queueEnable (p q : Nat) (v : BitVec 64)
  /-- QUEUE_DISABLE (R263). -/
  | queueDisable (p q : Nat) (v : BitVec 64)
  /-- QUEUE_DISABLED (R264). -/
  | queueDisabled (p q : Nat)
  /-- QUEUE_PREEMPT (R291). -/
  | queuePreempt (p q : Nat) (v : BitVec 64)
  /-- QUEUE_PREEMPTED (R291). -/
  | queuePreempted (p q : Nat)
  /-- QUEUE_RESUME (R263). -/
  | queueResume (p q : Nat) (v : BitVec 64)
  /-- EVRD_WRITE (R281). -/
  | evrdWrite (p : Nat) (v : BitVec 64)
  /-- FAULT_RECORD_WRITE (R296). -/
  | faultRecordWrite (k : Gid)
  /-- FBRES_RETRY (R297). -/
  | fbresRetry (p : Nat) (v : BitVec 64)
  /-- FBRES_FAIL (R297). -/
  | fbresFail (p : Nat) (v : BitVec 64)
  /-- TINV_ALL (R295). -/
  | tinvAll (p : Nat) (v : BitVec 64)
  /-- TINV_PAGE (R295). -/
  | tinvPage (p : Nat) (v : BitVec 64)
  /-- LAUNCHEND (R307). -/
  | launchend (k : Gid) (v : BitVec 64)
  /-- ECCCNT_CLEAR (R307). -/
  | ecccntClear (p : Nat) (v : BitVec 64)
  /-- REGISTER_WRITE (R307). -/
  | registerWrite (p num : Nat) (v : BitVec 64)
  /-- TEAM_SAVE (R309). -/
  | teamSave (t : Tid)
  /-- PDEADLINE_EXPIRY (R314). -/
  | pdeadlineExpiry (t : Tid)
  /-- RESTORE (R313). -/
  | restore (t : Tid) (core : Nat)
  /-- PART_CREATE (R333). -/
  | partCreate (ses : Option Nat) (p : Nat)
  /-- PART_ADD_HALF (R333). -/
  | partAddHalf (ses : Option Nat) (p h : Nat)
  /-- PART_ADD_QUEUE (R333). -/
  | partAddQueue (ses : Option Nat) (p q : Nat)
  /-- PART_ADD_KEYS (R333). -/
  | partAddKeys (ses : Option Nat) (p n : Nat)
  /-- PART_ADD_MEM (R333). -/
  | partAddMem (ses : Option Nat) (p base size slot : Nat)
  /-- PART_SET_REG (R333). -/
  | partSetReg (ses : Option Nat) (p num : Nat) (v : BitVec 64)
  /-- PART_DESTROY (R333). -/
  | partDestroy (ses : Option Nat) (p : Nat)
  /-- MGMT_STATUS (R335). -/
  | mgmtStatus
  /-- SET_OWNERHASH (R332). -/
  | setOwnerhash (ses : Option Nat) (h : BitVec 512)
  /-- GRANT_SCRUB_COMPLETE (R342). -/
  | grantScrubComplete (p i : Nat)
  /-- PARTITION_SCRUB_COMPLETE (R331). -/
  | partitionScrubComplete (p : Nat)
  /-- LOCK_INTERFACE_REQUEST (R329). -/
  | lockInterfaceRequest (p ses : Nat)
  /-- LOCK_COMPLETION (R329). -/
  | lockCompletion (p : Nat)
  /-- START_INTERFACE_REQUEST (R329). -/
  | startInterfaceRequest (p ses : Nat) (nonce : BitVec 256)
  /-- STOP_INTERFACE_REQUEST (R329). -/
  | stopInterfaceRequest (p ses : Nat)
  /-- GET_DEVICE_INTERFACE_STATE (R329). -/
  | getDeviceInterfaceState (p ses : Nat)
  /-- GET_DEVICE_INTERFACE_REPORT (R330). -/
  | getDeviceInterfaceReport (p ses : Nat) (nonce : BitVec 256)
  /-- GET_VERSION (R336). -/
  | getVersion (tgt : Nat)
  /-- GET_CAPABILITIES (R336). -/
  | getCapabilities (tgt : Nat)
  /-- NEGOTIATE_ALGORITHMS (R338). -/
  | negotiateAlgorithms (tgt : Nat) (o : AlgOffer)
  /-- GET_DIGESTS (R336). -/
  | getDigests (tgt : Nat)
  /-- GET_CERTIFICATE (R343). -/
  | getCertificate (tgt : Nat)
  /-- CHALLENGE (R345). -/
  | challenge (tgt : Nat) (nonce : BitVec 256)
  /-- GET_MEASUREMENTS (R345). -/
  | getMeasurements (tgt : Nat) (nonce : BitVec 256)
  /-- KEY_EXCHANGE (R338). -/
  | keyExchange (tgt : Nat) (req : Option (BitVec 512)) (ek : List (BitVec 8))
  /-- FINISH (R336). -/
  | finish (tgt ses : Nat)
  /-- HEARTBEAT (R336). -/
  | heartbeat (tgt ses : Nat)
  /-- KEY_UPDATE (R347). -/
  | keyUpdate (tgt ses : Nat)
  /-- END_SESSION (R336). -/
  | endSession (tgt ses : Nat)
  /-- VENDOR_DEFINED_REQUEST (R336). -/
  | vendorDefinedRequest (tgt ses : Nat) (r : TdispReq)
  /-- UNSUPPORTED_REQUEST (R336). -/
  | unsupportedRequest (tgt code : Nat)
  /-- RMA_WRITE (R348). -/
  | rmaWrite (dom : Option Nat) (va : BitVec 64) (data : List (BitVec 8))
  /-- RMA_READ (R348). -/
  | rmaRead (dom : Option Nat) (va : BitVec 64) (n : Nat)
  /-- ATOMIC_ADD (R348). -/
  | atomicAdd (dom : Option Nat) (va d : BitVec 64)
  /-- SWAP (R348). -/
  | swap (dom : Option Nat) (va d : BitVec 64)
  /-- COMPARE_AND_SWAP (R348). -/
  | compareAndSwap (dom : Option Nat) (va e d : BitVec 64)
  /-- SEND (R339). -/
  | send (job : Nat) (rud : Bool) (ses : Option Nat) (msg : List (BitVec 8))
  /-- PATROL_SCRUB (R350). -/
  | patrolScrub (line : Nat)
  /-- LINK_RETRAIN (R350). -/
  | linkRetrain (link : Fin 8) (ok : Bool)
  /-- RAIL_OUT_OF_RANGE (R352). -/
  | railOutOfRange (rail : Nat)
  /-- CRITICAL_TEMPERATURE (R351). -/
  | criticalTemperature
  /-- THROTTLE (R353). -/
  | throttle
  /-- THROTTLE_RESTORE (R353). -/
  | throttleRestore
  /-- MODULE_RESET (R354). -/
  | moduleReset (r : StageResult)
  /-- MEASUREMENT (R354). -/
  | measurement (r : StageResult)
  /-- FIRMWARE_LOAD (R354). -/
  | firmwareLoad (r : StageResult)
  /-- SELF_CALIBRATION (R354). -/
  | selfCalibration (r : StageResult) (deadPorts : List (Fin 12))
  /-- MEMORY_INITIALISATION (R354). -/
  | memoryInitialisation (r : StageResult)
  /-- SELORE_MEMORY_ERROR (R351). -/
  | seloreMemoryError
  /-- FIRMWARE_SAVE_REQUEST (R309). -/
  | firmwareSaveRequest (t : Tid)
  /-- OTHER_MODE_PACKET (R347). -/
  | otherModePacket (port : Fin 12)
  /-- FLIT_RETRY (R350). -/
  | flitRetry (link : Fin 8)
  deriving DecidableEq, Repr

/-- An op's instruction. -/
def Instr.ofOp (o : Op) (f : OpF) : Instr :=
  match o with
  | .sli => .sli f
  | .slih => .slih f
  | .smov => .smov f
  | .sadd => .sadd f
  | .ssub => .ssub f
  | .smul => .smul f
  | .smulhi => .smulhi f
  | .sdiv => .sdiv f
  | .srem => .srem f
  | .smin => .smin f
  | .smax => .smax f
  | .sand => .sand f
  | .sor => .sor f
  | .sxor => .sxor f
  | .sshl => .sshl f
  | .sshr => .sshr f
  | .srot => .srot f
  | .scmp => .scmp f
  | .ssel => .ssel f
  | .sbfx => .sbfx f
  | .sbfi => .sbfi f
  | .spopc => .spopc f
  | .sclz => .sclz f
  | .sctz => .sctz f
  | .sadda => .sadda f
  | .sld => .sld f
  | .sst => .sst f
  | .sfadd => .sfadd f
  | .sfmul => .sfmul f
  | .sfma => .sfma f
  | .sfcmp => .sfcmp f
  | .scvt => .scvt f
  | .kand => .kand f
  | .kor => .kor f
  | .kxor => .kxor f
  | .nset => .nset f
  | .nget => .nget f
  | .clkr => .clkr f
  | .idr => .idr f
  | .trap => .trap f
  | .bkpt => .bkpt f
  | .vmov => .vmov f
  | .vli => .vli f
  | .vlane => .vlane f
  | .vadd => .vadd f
  | .vsub => .vsub f
  | .vmul => .vmul f
  | .vmulhi => .vmulhi f
  | .vmad => .vmad f
  | .vmin => .vmin f
  | .vmax => .vmax f
  | .vabsdiff => .vabsdiff f
  | .vand => .vand f
  | .vor => .vor f
  | .vxor => .vxor f
  | .vshl => .vshl f
  | .vshr => .vshr f
  | .vrot => .vrot f
  | .vbfx => .vbfx f
  | .vbfi => .vbfi f
  | .vpopc => .vpopc f
  | .vclz => .vclz f
  | .vcmp => .vcmp f
  | .vsel => .vsel f
  | .vfadd => .vfadd f
  | .vfsub => .vfsub f
  | .vfmul => .vfmul f
  | .vfma => .vfma f
  | .vfmin => .vfmin f
  | .vfmax => .vfmax f
  | .vfcmp => .vfcmp f
  | .vfrnd => .vfrnd f
  | .vfclass => .vfclass f
  | .vfscale => .vfscale f
  | .vcvt => .vcvt f
  | .vpack => .vpack f
  | .vunpack => .vunpack f
  | .vexp2 => .vexp2 f
  | .vlog2 => .vlog2 f
  | .vrcp => .vrcp f
  | .vrsq => .vrsq f
  | .vsqrt => .vsqrt f
  | .vdiv => .vdiv f
  | .vtanh => .vtanh f
  | .vsin => .vsin f
  | .vcos => .vcos f
  | .vlred => .vlred f
  | .vlscan => .vlscan f
  | .vballot => .vballot f
  | .vpermx => .vpermx f
  | .vextr => .vextr f
  | .vinsr => .vinsr f
  | .vrdx => .vrdx f
  | .vwrx => .vwrx f
  | .pand => .pand f
  | .por => .por f
  | .pxor => .pxor f
  | .mapld => .mapld f
  | .mapst => .mapst f
  | .mapgen => .mapgen f
  | .mapset => .mapset f
  | .mapbind => .mapbind f
  | .mapstr => .mapstr f
  | .mapadv => .mapadv f
  | .maprel => .maprel f
  | .aclr => .aclr f
  | .amac => .amac f
  | .aadd => .aadd f
  | .ain => .ain f
  | .aout => .aout f
  | .ascale => .ascale f
  | .asave => .asave f
  | .aload => .aload f
  | .qscan => .qscan f
  | .qpack => .qpack f
  | .qunpack => .qunpack f
  | .vld => .vld f
  | .vst => .vst f
  | .cpy => .cpy f
  | .tmov => .tmov f
  | .atom => .atom f
  | .ared => .ared f
  | .fence => .fence f
  | .xfence => .xfence f
  | .promote => .promote f
  | .wait => .wait f
  | .twany => .twany f
  | .twall => .twall f
  | .tfirst => .tfirst f
  | .sigadd => .sigadd f
  | .sigwait => .sigwait f
  | .ringput => .ringput f
  | .ringputFree => .ringputFree f
  | .ringget => .ringget f
  | .ringexp => .ringexp f
  | .bar => .bar f
  | .roleq => .roleq f
  | .bob => .bob f
  | .bobq => .bobq f
  | .rfbegin => .rfbegin f
  | .rftest => .rftest f
  | .rfend => .rfend f
  | .imgst => .imgst f
  | .symq => .symq f
  | .rte => .rte f
  | .srd => .srd f
  | .swr => .swr f
  | .replayq => .replayq f
  | .nop => .nop f
  | .yield => .yield f

/-- The operation and fields of an op's instruction; none for every other row. -/
def Instr.op? (i : Instr) : Option (Op × OpF) :=
  match i with
  | .sli f => some (.sli, f)
  | .slih f => some (.slih, f)
  | .smov f => some (.smov, f)
  | .sadd f => some (.sadd, f)
  | .ssub f => some (.ssub, f)
  | .smul f => some (.smul, f)
  | .smulhi f => some (.smulhi, f)
  | .sdiv f => some (.sdiv, f)
  | .srem f => some (.srem, f)
  | .smin f => some (.smin, f)
  | .smax f => some (.smax, f)
  | .sand f => some (.sand, f)
  | .sor f => some (.sor, f)
  | .sxor f => some (.sxor, f)
  | .sshl f => some (.sshl, f)
  | .sshr f => some (.sshr, f)
  | .srot f => some (.srot, f)
  | .scmp f => some (.scmp, f)
  | .ssel f => some (.ssel, f)
  | .sbfx f => some (.sbfx, f)
  | .sbfi f => some (.sbfi, f)
  | .spopc f => some (.spopc, f)
  | .sclz f => some (.sclz, f)
  | .sctz f => some (.sctz, f)
  | .sadda f => some (.sadda, f)
  | .sld f => some (.sld, f)
  | .sst f => some (.sst, f)
  | .sfadd f => some (.sfadd, f)
  | .sfmul f => some (.sfmul, f)
  | .sfma f => some (.sfma, f)
  | .sfcmp f => some (.sfcmp, f)
  | .scvt f => some (.scvt, f)
  | .kand f => some (.kand, f)
  | .kor f => some (.kor, f)
  | .kxor f => some (.kxor, f)
  | .nset f => some (.nset, f)
  | .nget f => some (.nget, f)
  | .clkr f => some (.clkr, f)
  | .idr f => some (.idr, f)
  | .trap f => some (.trap, f)
  | .bkpt f => some (.bkpt, f)
  | .vmov f => some (.vmov, f)
  | .vli f => some (.vli, f)
  | .vlane f => some (.vlane, f)
  | .vadd f => some (.vadd, f)
  | .vsub f => some (.vsub, f)
  | .vmul f => some (.vmul, f)
  | .vmulhi f => some (.vmulhi, f)
  | .vmad f => some (.vmad, f)
  | .vmin f => some (.vmin, f)
  | .vmax f => some (.vmax, f)
  | .vabsdiff f => some (.vabsdiff, f)
  | .vand f => some (.vand, f)
  | .vor f => some (.vor, f)
  | .vxor f => some (.vxor, f)
  | .vshl f => some (.vshl, f)
  | .vshr f => some (.vshr, f)
  | .vrot f => some (.vrot, f)
  | .vbfx f => some (.vbfx, f)
  | .vbfi f => some (.vbfi, f)
  | .vpopc f => some (.vpopc, f)
  | .vclz f => some (.vclz, f)
  | .vcmp f => some (.vcmp, f)
  | .vsel f => some (.vsel, f)
  | .vfadd f => some (.vfadd, f)
  | .vfsub f => some (.vfsub, f)
  | .vfmul f => some (.vfmul, f)
  | .vfma f => some (.vfma, f)
  | .vfmin f => some (.vfmin, f)
  | .vfmax f => some (.vfmax, f)
  | .vfcmp f => some (.vfcmp, f)
  | .vfrnd f => some (.vfrnd, f)
  | .vfclass f => some (.vfclass, f)
  | .vfscale f => some (.vfscale, f)
  | .vcvt f => some (.vcvt, f)
  | .vpack f => some (.vpack, f)
  | .vunpack f => some (.vunpack, f)
  | .vexp2 f => some (.vexp2, f)
  | .vlog2 f => some (.vlog2, f)
  | .vrcp f => some (.vrcp, f)
  | .vrsq f => some (.vrsq, f)
  | .vsqrt f => some (.vsqrt, f)
  | .vdiv f => some (.vdiv, f)
  | .vtanh f => some (.vtanh, f)
  | .vsin f => some (.vsin, f)
  | .vcos f => some (.vcos, f)
  | .vlred f => some (.vlred, f)
  | .vlscan f => some (.vlscan, f)
  | .vballot f => some (.vballot, f)
  | .vpermx f => some (.vpermx, f)
  | .vextr f => some (.vextr, f)
  | .vinsr f => some (.vinsr, f)
  | .vrdx f => some (.vrdx, f)
  | .vwrx f => some (.vwrx, f)
  | .pand f => some (.pand, f)
  | .por f => some (.por, f)
  | .pxor f => some (.pxor, f)
  | .mapld f => some (.mapld, f)
  | .mapst f => some (.mapst, f)
  | .mapgen f => some (.mapgen, f)
  | .mapset f => some (.mapset, f)
  | .mapbind f => some (.mapbind, f)
  | .mapstr f => some (.mapstr, f)
  | .mapadv f => some (.mapadv, f)
  | .maprel f => some (.maprel, f)
  | .aclr f => some (.aclr, f)
  | .amac f => some (.amac, f)
  | .aadd f => some (.aadd, f)
  | .ain f => some (.ain, f)
  | .aout f => some (.aout, f)
  | .ascale f => some (.ascale, f)
  | .asave f => some (.asave, f)
  | .aload f => some (.aload, f)
  | .qscan f => some (.qscan, f)
  | .qpack f => some (.qpack, f)
  | .qunpack f => some (.qunpack, f)
  | .vld f => some (.vld, f)
  | .vst f => some (.vst, f)
  | .cpy f => some (.cpy, f)
  | .tmov f => some (.tmov, f)
  | .atom f => some (.atom, f)
  | .ared f => some (.ared, f)
  | .fence f => some (.fence, f)
  | .xfence f => some (.xfence, f)
  | .promote f => some (.promote, f)
  | .wait f => some (.wait, f)
  | .twany f => some (.twany, f)
  | .twall f => some (.twall, f)
  | .tfirst f => some (.tfirst, f)
  | .sigadd f => some (.sigadd, f)
  | .sigwait f => some (.sigwait, f)
  | .ringput f => some (.ringput, f)
  | .ringputFree f => some (.ringputFree, f)
  | .ringget f => some (.ringget, f)
  | .ringexp f => some (.ringexp, f)
  | .bar f => some (.bar, f)
  | .roleq f => some (.roleq, f)
  | .bob f => some (.bob, f)
  | .bobq f => some (.bobq, f)
  | .rfbegin f => some (.rfbegin, f)
  | .rftest f => some (.rftest, f)
  | .rfend f => some (.rfend, f)
  | .imgst f => some (.imgst, f)
  | .symq f => some (.symq, f)
  | .rte f => some (.rte, f)
  | .srd f => some (.srd, f)
  | .swr f => some (.swr, f)
  | .replayq f => some (.replayq, f)
  | .nop f => some (.nop, f)
  | .yield f => some (.yield, f)
  | .wordFetch => none
  | .next => none
  | .jump _ => none
  | .jumpc _ _ _ => none
  | .call _ => none
  | .ret => none
  | .loop _ _ => none
  | .jumpx _ => none
  | .exit => none
  | .rfnext => none
  | .callx _ => none
  | .promoteComplete _ => none
  | .unassignedOpcode _ _ => none
  | .deferredIssue _ => none
  | .loadRetire _ => none
  | .storeRetire _ => none
  | .copyComplete _ _ => none
  | .ringByteCount _ _ _ => none
  | .mapTransferComplete _ _ => none
  | .streamBlockArrival _ _ _ => none
  | .bobCommandComplete _ => none
  | .imgstComplete _ => none
  | .accumulatorTransferComplete _ => none
  | .waitResume _ => none
  | .tagWaitResume _ => none
  | .sigwaitEnd _ => none
  | .ringgetEnd _ => none
  | .ringexpResume _ => none
  | .ringputResume _ => none
  | .ringputFreeEffect _ => none
  | .barDepart _ _ => none
  | .roleqMove _ => none
  | .bobqResume _ => none
  | .symqResume _ => none
  | .atomOrdRound _ => none
  | .ordDeadlock _ => none
  | .registerSpill _ _ => none
  | .groupSlotFree _ => none
  | .teamPlace _ _ _ => none
  | .cohortPlacement _ _ => none
  | .loftYardReserve _ => none
  | .distributorSteal _ _ => none
  | .placementStarvation _ _ => none
  | .seam _ => none
  | .queueEngineStep _ _ => none
  | .bundleAbort _ _ => none
  | .hubCopyComplete _ _ => none
  | .queueDoorbell _ _ _ => none
  | .queueEnable _ _ _ => none
  | .queueDisable _ _ _ => none
  | .queueDisabled _ _ => none
  | .queuePreempt _ _ _ => none
  | .queuePreempted _ _ => none
  | .queueResume _ _ _ => none
  | .evrdWrite _ _ => none
  | .faultRecordWrite _ => none
  | .fbresRetry _ _ => none
  | .fbresFail _ _ => none
  | .tinvAll _ _ => none
  | .tinvPage _ _ => none
  | .launchend _ _ => none
  | .ecccntClear _ _ => none
  | .registerWrite _ _ _ => none
  | .teamSave _ => none
  | .pdeadlineExpiry _ => none
  | .restore _ _ => none
  | .partCreate _ _ => none
  | .partAddHalf _ _ _ => none
  | .partAddQueue _ _ _ => none
  | .partAddKeys _ _ _ => none
  | .partAddMem _ _ _ _ _ => none
  | .partSetReg _ _ _ _ => none
  | .partDestroy _ _ => none
  | .mgmtStatus => none
  | .setOwnerhash _ _ => none
  | .grantScrubComplete _ _ => none
  | .partitionScrubComplete _ => none
  | .lockInterfaceRequest _ _ => none
  | .lockCompletion _ => none
  | .startInterfaceRequest _ _ _ => none
  | .stopInterfaceRequest _ _ => none
  | .getDeviceInterfaceState _ _ => none
  | .getDeviceInterfaceReport _ _ _ => none
  | .getVersion _ => none
  | .getCapabilities _ => none
  | .negotiateAlgorithms _ _ => none
  | .getDigests _ => none
  | .getCertificate _ => none
  | .challenge _ _ => none
  | .getMeasurements _ _ => none
  | .keyExchange _ _ _ => none
  | .finish _ _ => none
  | .heartbeat _ _ => none
  | .keyUpdate _ _ => none
  | .endSession _ _ => none
  | .vendorDefinedRequest _ _ _ => none
  | .unsupportedRequest _ _ => none
  | .rmaWrite _ _ _ => none
  | .rmaRead _ _ _ => none
  | .atomicAdd _ _ _ => none
  | .swap _ _ _ => none
  | .compareAndSwap _ _ _ _ => none
  | .send _ _ _ _ => none
  | .patrolScrub _ => none
  | .linkRetrain _ _ => none
  | .railOutOfRange _ => none
  | .criticalTemperature => none
  | .throttle => none
  | .throttleRestore => none
  | .moduleReset _ => none
  | .measurement _ => none
  | .firmwareLoad _ => none
  | .selfCalibration _ _ => none
  | .memoryInitialisation _ => none
  | .seloreMemoryError => none
  | .firmwareSaveRequest _ => none
  | .otherModePacket _ => none
  | .flitRetry _ => none

end Sys2Proof
end

