-- ==== Sys2Proof/Decode.lean ====
section
/-!
DEFINITION. Decoding and encoding of instruction words (R126 to R148). Decoding is total: a word with a reserved kind or a
set reserved bit is rejected as ILLEGAL_WORD, a malformed sequencing field as ILLEGAL_SEQ, and an opcode outside the map
becomes the row UNASSIGNED_OPCODE, which is legal to fetch and traps when it would execute (R148). The encoder is written from
the same layouts. No event, command or request has an encoding.
-/
namespace Sys2Proof

/-- Long opcodes of class 0 (R142). -/
def longTable0 : List (Nat × Op) :=
  [(0x000, .sli), (0x001, .slih), (0x002, .smov), (0x003, .sadd), (0x004, .ssub), (0x005, .smul),
   (0x006, .smulhi), (0x007, .sdiv), (0x008, .srem), (0x009, .smin), (0x00A, .smax), (0x00B, .sand),
   (0x00C, .sor), (0x00D, .sxor), (0x00E, .sshl), (0x00F, .sshr), (0x010, .srot), (0x011, .scmp),
   (0x012, .ssel), (0x013, .sbfx), (0x014, .sbfi), (0x015, .spopc), (0x016, .sclz), (0x017, .sctz),
   (0x018, .sadda), (0x019, .sld), (0x01A, .sst), (0x01B, .sfadd), (0x01C, .sfmul), (0x01D, .sfma),
   (0x01E, .sfcmp), (0x01F, .scvt), (0x020, .kand), (0x021, .kor), (0x022, .kxor), (0x023, .nset),
   (0x024, .nget), (0x025, .clkr), (0x026, .idr), (0x027, .trap), (0x028, .bkpt)]

/-- Long opcodes of class 1 (R143). -/
def longTable1 : List (Nat × Op) :=
  [(0x080, .vmov), (0x081, .vli), (0x082, .vlane), (0x083, .vadd), (0x084, .vsub), (0x085, .vmul),
   (0x086, .vmulhi), (0x087, .vmad), (0x088, .vmin), (0x089, .vmax), (0x08A, .vabsdiff), (0x08B, .vand),
   (0x08C, .vor), (0x08D, .vxor), (0x08E, .vshl), (0x08F, .vshr), (0x090, .vrot), (0x091, .vbfx),
   (0x092, .vbfi), (0x093, .vpopc), (0x094, .vclz), (0x095, .vcmp), (0x096, .vsel)]

/-- Long opcodes of class 2 (R144). -/
def longTable2 : List (Nat × Op) :=
  [(0x100, .vfadd), (0x101, .vfsub), (0x102, .vfmul), (0x103, .vfma), (0x104, .vfmin), (0x105, .vfmax),
   (0x106, .vfcmp), (0x107, .vfrnd), (0x108, .vfclass), (0x109, .vfscale), (0x10A, .vcvt), (0x10B, .vpack),
   (0x10C, .vunpack), (0x110, .vexp2), (0x111, .vlog2), (0x112, .vrcp), (0x113, .vrsq), (0x114, .vsqrt),
   (0x115, .vdiv), (0x116, .vtanh), (0x117, .vsin), (0x118, .vcos)]

/-- Long opcodes of class 3 (R145). -/
def longTable3 : List (Nat × Op) :=
  [(0x180, .vlred), (0x181, .vlscan), (0x182, .vballot), (0x183, .vpermx), (0x184, .vextr), (0x185, .vinsr),
   (0x186, .vrdx), (0x187, .vwrx), (0x188, .pand), (0x189, .por), (0x18A, .pxor)]

/-- Long opcodes of class 4 (R145). -/
def longTable4 : List (Nat × Op) :=
  [(0x200, .mapld), (0x201, .mapst), (0x202, .mapgen), (0x203, .mapset), (0x204, .mapbind), (0x205, .mapstr),
   (0x206, .mapadv), (0x207, .maprel), (0x208, .aclr), (0x209, .amac), (0x20A, .aadd), (0x20B, .ain),
   (0x20C, .aout), (0x20D, .ascale), (0x20E, .asave), (0x20F, .aload), (0x210, .qscan), (0x211, .qpack),
   (0x212, .qunpack)]

/-- Long opcodes of class 5 (R146). -/
def longTable5 : List (Nat × Op) :=
  [(0x280, .vld), (0x281, .vst), (0x282, .cpy), (0x283, .tmov), (0x284, .atom), (0x285, .ared),
   (0x286, .fence), (0x287, .xfence), (0x288, .promote)]

/-- Long opcodes of class 6 (R145). -/
def longTable6 : List (Nat × Op) :=
  [(0x300, .wait), (0x301, .twany), (0x302, .twall), (0x303, .tfirst), (0x304, .sigadd), (0x305, .sigwait),
   (0x306, .ringput), (0x307, .ringget), (0x308, .ringexp), (0x309, .bar), (0x30A, .roleq), (0x30B, .bob),
   (0x30C, .bobq), (0x30D, .rfbegin), (0x30E, .rftest), (0x30F, .rfend), (0x310, .imgst), (0x311, .symq)]

/-- Long opcodes of class 7 (R145). -/
def longTable7 : List (Nat × Op) :=
  [(0x380, .rte), (0x381, .srd), (0x382, .swr), (0x383, .replayq)]

/-- Untyped short opcodes of class 0 (R142). -/
def shortTable0 : List (Nat × Op) :=
  [(0x000, .sli), (0x001, .slih), (0x002, .smov), (0x003, .sadd), (0x004, .ssub), (0x005, .smul),
   (0x006, .smulhi), (0x007, .sdiv), (0x008, .srem), (0x009, .smin), (0x00A, .smax), (0x00B, .sand),
   (0x00C, .sor), (0x00D, .sxor), (0x00E, .sshl), (0x00F, .sshr), (0x010, .srot), (0x011, .scmp),
   (0x015, .spopc), (0x016, .sclz), (0x017, .sctz), (0x019, .sld), (0x01A, .sst), (0x01B, .sfadd),
   (0x01C, .sfmul), (0x01E, .sfcmp), (0x020, .kand), (0x021, .kor), (0x022, .kxor), (0x023, .nset),
   (0x024, .nget), (0x025, .clkr), (0x027, .trap), (0x028, .bkpt)]

/-- Untyped short opcodes of class 3 (R145). -/
def shortTable3 : List (Nat × Op) :=
  [(0x0C2, .vballot), (0x0C3, .vpermx), (0x0C4, .vextr), (0x0C5, .vinsr), (0x0C6, .vrdx), (0x0C7, .vwrx),
   (0x0C8, .pand), (0x0C9, .por), (0x0CA, .pxor)]

/-- Untyped short opcodes of class 4 (R145). -/
def shortTable4 : List (Nat × Op) :=
  [(0x100, .mapld), (0x101, .mapst), (0x103, .mapset), (0x104, .mapbind), (0x106, .mapadv), (0x107, .maprel),
   (0x108, .aclr), (0x10A, .aadd)]

/-- Untyped short opcodes of class 6 (R145). -/
def shortTable6 : List (Nat × Op) :=
  [(0x180, .wait), (0x181, .twany), (0x182, .twall), (0x183, .tfirst), (0x186, .ringput), (0x187, .ringget),
   (0x188, .ringexp), (0x189, .bar), (0x18A, .roleq), (0x18C, .bobq), (0x18E, .rftest), (0x18F, .rfend),
   (0x191, .symq)]

/-- Untyped short opcodes of class 7 (R145). -/
def shortTable7 : List (Nat × Op) :=
  [(0x1C0, .rte), (0x1C1, .srd), (0x1C2, .swr), (0x1C3, .replayq)]

/-- Every long opcode (R141 to R146). -/
def longTable : List (Nat × Op) :=
  longTable0 ++ longTable1 ++ longTable2 ++ longTable3 ++ longTable4 ++ longTable5 ++ longTable6 ++ longTable7

/-- The untyped short opcodes (R142, R145). -/
def shortTable : List (Nat × Op) :=
  shortTable0 ++ shortTable3 ++ shortTable4 ++ shortTable6 ++ shortTable7

/-- The short rows of class 1, eight opcodes each from 0x040 (R143). -/
def intRows : List Op := [.vmov, .vadd, .vsub, .vmul, .vmin, .vmax, .vcmp, .vand]

/-- The arithmetic ops of the short rows of class 2, from 0x080 (R144). -/
def floatRows : List Op := [.vfadd, .vfsub, .vfmul, .vfmin, .vfmax, .vfcmp, .vfscale, .vfclass]

/-- The special functions of the short rows of class 2 (R144). -/
def specialRows : List Op := [.vexp2, .vlog2, .vrcp, .vrsq, .vsqrt, .vtanh, .vsin, .vcos]

/-- The first opcode paired with an op in a table. -/
def opcodeIn (t : List (Nat × Op)) (o : Op) : Option Nat :=
  (t.find? fun e => e.2 == o).map Prod.fst

/-- The op paired with an opcode in a table. -/
def opIn (t : List (Nat × Op)) (n : Nat) : Option Op :=
  (t.find? fun e => e.1 == n).map Prod.snd

/-- Position of an op in a row list. -/
def rowIn (t : List Op) (o : Op) : Option Nat :=
  t.findIdx? fun e => e == o

/-- The op and the selector bits that a short opcode names (R142 to R147). -/
def shortOp (n : Nat) : Option (Op × Nat) :=
  if 0x1F0 ≤ n then
    if n = 0x1F1 then some (.yield, 1) else some (.nop, n % 16)
  else if 0x040 ≤ n ∧ n < 0x080 then
    (intRows[(n - 0x040) / 8]?).map fun o => (o, 8 + n % 8)
  else if 0x080 ≤ n ∧ n < 0x0C0 then
    if n % 8 < 5 then (floatRows[(n - 0x080) / 8]?).map fun o => (o, n % 8)
    else (specialRows[(n - 0x080) / 8]?).map fun o => (o, n % 8 - 5)
  else if 0x130 ≤ n ∧ n < 0x140 then
    if n % 16 < 5 ∨ 8 ≤ n % 16 then some (.amac, n % 16) else none
  else if 0x140 ≤ n ∧ n < 0x154 then some (.vld, n - 0x140)
  else if 0x160 ≤ n ∧ n < 0x174 then some (.vst, n - 0x160)
  else (opIn shortTable n).map fun o => (o, 0)

/-- The short opcode of an op with its selector bits; none where the op has no such short form (R142 to R147, R152). -/
def shortOpcode (o : Op) (sub : Nat) : Option Nat :=
  match o with
  | .nop => if sub < 16 ∧ sub ≠ 1 then some (0x1F0 + sub) else none
  | .yield => if sub = 1 then some 0x1F1 else none
  | .amac => if sub < 5 ∨ (8 ≤ sub ∧ sub < 16) then some (0x130 + sub) else none
  | .vld => if sub < 20 then some (0x140 + sub) else none
  | .vst => if sub < 20 then some (0x160 + sub) else none
  | .ringputFree => if sub = 0 then some 0x186 else none
  | _ =>
    match rowIn intRows o, rowIn floatRows o, rowIn specialRows o with
    | some r, _, _ => if 8 ≤ sub ∧ sub < 16 then some (0x040 + 8 * r + (sub - 8)) else none
    | _, some r, _ => if sub < 5 then some (0x080 + 8 * r + sub) else none
    | _, _, some r => if sub < 3 then some (0x080 + 8 * r + 5 + sub) else none
    | _, _, _ => if sub = 0 then opcodeIn shortTable o else none

/-- The op and the selector bits that a long opcode names (R141 to R147). -/
def longOp (n : Nat) : Option (Op × Nat) :=
  if 0x3F0 ≤ n then
    if n = 0x3F1 then some (.yield, 1) else some (.nop, n % 16)
  else (opIn longTable n).map fun o => (o, 0)

/-- The long opcode of an op (R141 to R147). -/
def longOpcode (o : Op) (sub : Nat) : Option Nat :=
  match o with
  | .nop => if sub < 16 ∧ sub ≠ 1 then some (0x3F0 + sub) else none
  | .yield => if sub = 1 then some 0x3F1 else none
  | .ringputFree => if sub = 0 then some 0x306 else none
  | _ => if sub = 0 then opcodeIn longTable o else none

/-- One bit as a Bool. -/
def boolBit (b : Bool) : BitVec 1 := if b then 1 else 0

/-- The source field of 14 bits (R133). -/
def decodeSrc (x : BitVec 14) : Src :=
  { reg := x.extractLsb' 6 8, map := x.extractLsb' 2 4, neg := x.getLsbD 1, abs := x.getLsbD 0 }

/-- The 14 bits of a source field (R133). -/
def encodeSrc (s : Src) : BitVec 14 :=
  s.reg ++ s.map ++ boolBit s.neg ++ boolBit s.abs

/-- The source field with every bit zero. -/
def Src.none : Src := { reg := 0, map := 0, neg := false, abs := false }

/-- An op's row; a RINGPUT with DST bit 0 set is RINGPUT.free (R230). -/
def instrOfOp (o : Op) (f : OpF) : Instr :=
  if o = .ringput ∧ f.dst.getLsbD 0 then .ringputFree f else Instr.ofOp o f

/-- Slot A or B of a paired word, or slot A of a literal word with its literal (R127, R131). -/
def decodeShort (form : Form) (lit : BitVec 50) (x : BitVec 50) : Instr :=
  let f : OpF :=
    { form := form, guard := x.extractLsb' 37 4, dst := x.extractLsb' 29 8, a := decodeSrc (x.extractLsb' 15 14),
      b := decodeSrc (x.extractLsb' 1 14), c := .none, opt := x.getLsbD 0, rsv := false, sat := false, rnd := 0,
      imm := 0, lit := lit, sub := 0 }
  match shortOp (x.extractLsb' 41 9).toNat with
  | some (o, sub) => instrOfOp o { f with sub := BitVec.ofNat 5 sub }
  | none => .unassignedOpcode ((x.extractLsb' 41 9).setWidth 10) f

/-- The long op of a long word (R132). -/
def decodeLong (x : BitVec 100) : Instr :=
  let f : OpF :=
    { form := .long, guard := x.extractLsb' 86 4, dst := x.extractLsb' 78 8, a := decodeSrc (x.extractLsb' 64 14),
      b := decodeSrc (x.extractLsb' 50 14), c := decodeSrc (x.extractLsb' 36 14), opt := false, rsv := x.getLsbD 35,
      sat := x.getLsbD 34, rnd := x.extractLsb' 32 2, imm := x.extractLsb' 0 32, lit := 0, sub := 0 }
  match longOp (x.extractLsb' 90 10).toNat with
  | some (o, sub) => instrOfOp o { f with sub := BitVec.ofNat 5 sub }
  | none => .unassignedOpcode (x.extractLsb' 90 10) f

/-- The sequencing field (R128, R129); none is ILLEGAL_SEQ. -/
def decodeSeq (x : BitVec 20) : Option Instr :=
  let cneg := x.getLsbD 15
  let creg : BitVec 3 := x.extractLsb' 12 3
  let ofs : BitVec 12 := x.extractLsb' 0 12
  let c0 := cneg = false ∧ creg = 0
  let r0 := x.extractLsb' 6 6 = (0 : BitVec 6)
  match (x.extractLsb' 16 4).toNat with
  | 0 => if c0 ∧ ofs = 0 then some .next else none
  | 1 => if c0 then some (.jump ofs) else none
  | 2 => some (.jumpc cneg creg ofs)
  | 3 => if c0 then some (.call ofs) else none
  | 4 => if c0 ∧ ofs = 0 then some .ret else none
  | 5 => if cneg = false ∧ creg.getLsbD 2 = false then some (.loop (creg.extractLsb' 0 2) ofs) else none
  | 6 => if c0 ∧ r0 then some (.jumpx (x.extractLsb' 0 6)) else none
  | 7 => if c0 ∧ ofs = 0 then some .exit else none
  | 8 => if c0 ∧ ofs = 0 then some .rfnext else none
  | 9 => if c0 ∧ r0 then some (.callx (x.extractLsb' 0 6)) else none
  | _ => none

/-- A word as its slots read: slot B is absent in a long or literal word (R127). -/
structure WordD where
  a : Instr
  b : Option Instr
  seq : Instr
  deriving DecidableEq, Repr

/-- The two word checks that look at one word's fields alone (R139). -/
inductive WordErr where
  | illegalWord | illegalSeq
  deriving DecidableEq, Repr

/-- ILLEGAL_WORD before ILLEGAL_SEQ (R127, R129, R139). -/
def decodeWord (w : W128) : Except WordErr WordD :=
  let kind := (w.extractLsb' 106 2).toNat
  if kind = 3 ∨ w.extractLsb' 100 6 ≠ (0 : BitVec 6) then .error .illegalWord
  else
    match decodeSeq (w.extractLsb' 108 20) with
    | none => .error .illegalSeq
    | some q =>
      if kind = 0 then
        .ok { a := decodeShort .short 0 (w.extractLsb' 50 50), b := some (decodeShort .short 0 (w.extractLsb' 0 50)), seq := q }
      else if kind = 1 then .ok { a := decodeLong (w.extractLsb' 0 100), b := none, seq := q }
      else .ok { a := decodeShort .literal (w.extractLsb' 0 50) (w.extractLsb' 50 50), b := none, seq := q }

/-- The instruction a host numbering of one word's bits holds: the op of slot A (notes/assumptions/2.md). -/
def decodeTableWord (nbits w : Nat) : Option Instr :=
  match decodeWord (BitVec.ofNat 128 (w % 2 ^ min nbits 128)) with
  | .ok d => some d.a
  | .error _ => none

/-- The 50 bits of a short op (R131). -/
def encodeShortFields (opc : Nat) (f : OpF) : BitVec 50 :=
  BitVec.ofNat 9 opc ++ f.guard ++ f.dst ++ encodeSrc f.a ++ encodeSrc f.b ++ boolBit f.opt

/-- The 100 bits of a long op (R132). -/
def encodeLongFields (opc : Nat) (f : OpF) : BitVec 100 :=
  BitVec.ofNat 10 opc ++ f.guard ++ f.dst ++ encodeSrc f.a ++ encodeSrc f.b ++ encodeSrc f.c ++ boolBit f.rsv ++
    boolBit f.sat ++ f.rnd ++ f.imm

/-- NOP in a slot, written without a guard (R136, R147, R150). -/
def nopShort : BitVec 50 := BitVec.ofNat 9 0x1F0 ++ (7 : BitVec 4) ++ (0 : BitVec 37)

/-- The 20 bits of a sequencing field (R128, R153). -/
def encodeSeq (i : Instr) : Option (BitVec 20) :=
  match i with
  | .next => some 0
  | .jump o => some ((1 : BitVec 4) ++ (0 : BitVec 4) ++ o)
  | .jumpc n k o => some ((2 : BitVec 4) ++ boolBit n ++ k ++ o)
  | .call o => some ((3 : BitVec 4) ++ (0 : BitVec 4) ++ o)
  | .ret => some ((4 : BitVec 4) ++ (0 : BitVec 16))
  | .loop n o => some ((5 : BitVec 4) ++ (0 : BitVec 2) ++ n ++ o)
  | .jumpx r => some ((6 : BitVec 4) ++ (0 : BitVec 10) ++ r)
  | .exit => some ((7 : BitVec 4) ++ (0 : BitVec 16))
  | .rfnext => some ((8 : BitVec 4) ++ (0 : BitVec 16))
  | .callx r => some ((9 : BitVec 4) ++ (0 : BitVec 10) ++ r)
  | _ => none

/-- The kind bits, the reserved bits and the slots of a word around one op (R127). -/
def encodeBody (opc : Nat) (f : OpF) : BitVec 108 :=
  match f.form with
  | .short => (0 : BitVec 8) ++ encodeShortFields opc f ++ nopShort
  | .literal => (0x80 : BitVec 8) ++ encodeShortFields opc f ++ f.lit
  | .long => (0x40 : BitVec 8) ++ encodeLongFields opc f

/-- The opcode an op's form and selector bits take; none where the form does not exist. -/
def opcodeOf (o : Op) (f : OpF) : Option Nat :=
  match f.form with
  | .long => longOpcode o f.sub.toNat
  | _ => shortOpcode o f.sub.toNat

/-- The word of an instruction: an op in slot A with NOP beside it and SEQ NEXT, or a selector with two NOPs; none for a row
without an encoding. -/
def encode (i : Instr) : Option W128 :=
  match i.op? with
  | some (o, f) => (opcodeOf o f).map fun n => (0 : BitVec 20) ++ encodeBody n f
  | none =>
    match i with
    | .unassignedOpcode n f => some ((0 : BitVec 20) ++ encodeBody n.toNat f)
    | _ => (encodeSeq i).map fun q => q ++ (0 : BitVec 8) ++ nopShort ++ nopShort

end Sys2Proof
end

