-- ==== Sys2Proof/Machine/State.lean ====
section
/-!
DEFINITION. The machine's state, all of it plain data: groups, teams, launches, partitions, the module, physical memory, the
work in flight, and the agenda that says which agent moves next. One group, its team, its launch and its partition stand in
focus (`g`, `t`, `l`, `p`); the lists hold the others. INVENTORY.md lists each field with the rule that names it.
-/
namespace Sys2Proof.Machine

/-- A vector register: 32 lanes of 32 bits (R9). -/
abbrev VReg := Vector W32 32
/-- An accumulator: 32 containers of 64 bits (R64). -/
abbrev AReg := Vector W64 32
/-- Memory: address and byte pairs in strictly rising address order, none of them zero; an unlisted byte reads zero. -/
abbrev Mem := List Host.Cell

/-- The four spaces of a memory operand (R94). -/
inductive Space where
  | g | b | l | y
  deriving DecidableEq, Repr

/-- The path classes (R111). -/
inductive Path where
  | lane | copy | stream | bobbin | image | host
  deriving DecidableEq, Repr

/-- The scopes (R112). -/
inductive Scope where
  | grp | team | clu | die | dev | sys
  deriving DecidableEq, Repr

/-- Where a location lives (R94, R95, R36, R301). -/
inductive Home where
  | phys
  | bench (t : Tid)
  | handler (k : Gid)
  | loft (l : Lid) (cluster : Nat)
  | yard (l : Lid) (die : Nat)
  | taskLoft (t : Tid)
  | taskYard (t : Tid)
  deriving DecidableEq, Repr

/-- A location: one byte (R111). -/
structure Loc where
  home : Home
  addr : Nat
  deriving DecidableEq, Repr

/-- One resolved access: `w` bytes from `loc`, made by `lane` through virtual address `va`; `sub` tells apart several
accesses of one lane; `data` is what a store or an atomic brings, `exp` what a compare-and-swap expects. -/
structure Acc where
  lane : Nat
  sub : Nat
  loc : Loc
  va : W64
  w : Nat
  data : BitVec 128
  exp : W64
  deriving DecidableEq, Repr

/-- A signal to be updated when a command finishes (R107). -/
structure SigRef where
  loc : Loc
  va : W64
  delta : W64
  deriving DecidableEq, Repr

/-- Names an op of a group in flight: the group and its program-order number. -/
structure OpId where
  k : Gid
  seq : Nat
  deriving DecidableEq, Repr

/-- An op whose accesses come before a reader's (R117, R120): the op, its own path, the path they are crossed onto (none: every
path), the bytes it holds for (none: all the op's; some where a read has already returned the op's values of them), the
program-order number of the reading group from which on it holds, and the op whose read returned that value. -/
structure Crossing where
  op : OpId
  path : Path
  onto : Option Path
  at_ : Option (List Loc)
  from_ : Nat
  by_ : Option OpId
  deriving DecidableEq, Repr

/-- A completion that a group has observed (R120): the op, and the program-order number of the group from which on it counts. -/
structure Observed where
  op : OpId
  from_ : Nat
  deriving DecidableEq, Repr

/-- Which counter an op of the lane or stream path belongs to (R98); ASAVE and ALOAD belong to none (R211). -/
inductive Ctr where
  | ld | st | mp | acc
  deriving DecidableEq, Repr

/-- What a lane-path op does to memory. -/
inductive LaneKind where
  | empty
  | load (sgn : Bool)
  | store
  | atom (aop : Nat) (sgn : Bool)
  | ared (aop : Nat) (sgn : Bool)
  | sigadd
  deriving DecidableEq, Repr

/-- Where a lane-path op's results go: for `vec d n` the `n` vector registers from `d` on, of which the access numbered `sub` of a lane
fills one or, from `d + 2 * sub` on, two (R219). -/
inductive LDst where
  | none
  | vec (d n : Nat)
  | scl (d : Nat)
  | acc (d : Nat)
  deriving DecidableEq, Repr

/-- One lane, sub-index and value read by a lane-path op. -/
structure Got where
  lane : Nat
  sub : Nat
  val : BitVec 128
  deriving DecidableEq, Repr

/-- A release as an acquire finds it (R115, R116): the bytes of its write, the plain writes of them that ended its release sequence
and that a reader on another path may not see yet (R120), its scope, the party's place, the op that wrote, what it had observed, and
when. -/
structure RelTag where
  bytes : List Loc
  ended : List (Loc × OpId)
  scope : Scope
  by_ : Option Gid
  op : OpId
  core : Nat
  know : List Crossing
  seen : List OpId
  at_ : Nat
  deriving DecidableEq, Repr

/-- A lane-path op between issue and retirement (R98, R114, R219, R223): `acq` are the scopes at which its reads acquire, its own and
those of FENCEs (R115), `bound` says that later accesses do not follow it, so that as an acquire it is to be a scope mismatch (R116), `parts` are
the places of the accesses already performed (R119, R220), `tags` the releases its reads found. -/
structure LaneOp where
  seq : Nat
  ctr : Ctr
  kind : LaneKind
  w : Nat
  accs : List Acc
  dst : LDst
  acq : List Scope
  bound : Bool
  rel : Option Scope
  done : Bool
  parts : List Nat
  res : List Got
  flags : BitVec 9
  tags : List RelTag
  deriving DecidableEq, Repr

/-- A CPY or TMOV between issue and retirement (R222): whether it is a tile move, source and destination units pairwise, the
source bytes that a tile move has read by parts, by their numbers (R119), the source bytes once all are read, how many bytes are written. -/
structure CopyOp where
  seq : Nat
  tile : Bool
  pairs : List (Acc × Acc)
  got : List (Nat × Byte)
  buf : Option (List Byte)
  written : Nat
  tag : Option Nat
  ring : Option (Nat × Nat)
  sig : Option SigRef
  done : Bool
  deriving DecidableEq, Repr

/-- What an MP-counted op moves (R201, R204). -/
inductive MapKind where
  | empty | load | store | gen | diag
  deriving DecidableEq, Repr

/-- A MAPLD, MAPST or MAPGEN between issue and retirement (R98): `fmt` is its map's format, `first` the first byte of the slot store it touches,
`image` the bytes a generated map or diagonal holds, `got` the image bytes already moved (R119), `rival` the bytes of the slot store that
another group's load has filled since (R201). -/
structure MapOp where
  seq : Nat
  kind : MapKind
  fmt : Nat
  first : Nat
  size : Nat
  accs : List Acc
  image : Option (List Byte)
  got : List (Nat × Byte)
  rival : List Nat
  done : Bool
  deriving DecidableEq, Repr

/-- One element or header moved by a bobbin command, in bits, or some bytes of one (R240, R241, R119), with its value where it has been
read by itself. -/
structure BitMove where
  src : Loc
  sbit : Nat
  dst : Loc
  dva : W64
  dbit : Nat
  w : Nat
  val : Option Nat
  deriving DecidableEq, Repr

/-- An unfinished BOB command (R242, R243): the moves still to be made, whether its sources and destinations share bytes, and which
of the shared bytes keep their old value. -/
structure BobCmd where
  seq : Nat
  moves : List BitMove
  alias_ : Bool
  keep : List Loc
  tag : Option Nat
  sig : Option SigRef
  deriving DecidableEq, Repr

/-- An unfinished IMGST: its writes still to be made in the order of R252. -/
structure ImgOp where
  seq : Nat
  writes : List Acc
  tag : Option Nat
  sig : Option SigRef
  deriving DecidableEq, Repr

/-- A bound stream map beside its descriptor (R61, R205): base, stream word, MAPSTR bits 31:0, the translated 64-byte units of
its blocks, whether the buffers of blocks b and b + 1 have arrived, the program-order numbers at which their fetches began, and the
bytes that each has fetched by parts (R119). -/
structure Stream where
  base : W64
  word : W64
  fields : BitVec 32
  units : List Acc
  here : Bool
  ahead : Bool
  seqHere : Nat
  seqAhead : Nat
  gotHere : List (Nat × Byte)
  gotAhead : List (Nat × Byte)
  deriving DecidableEq, Repr

/-- States of the refinement controller (R247). -/
inductive RfState where
  | idle | start | factor | solve | resid | test
  deriving DecidableEq, Repr

/-- Decisions of the refinement controller (R247). -/
inductive RfDec where
  | none | continue | escalate | stop
  deriving DecidableEq, Repr

/-- The refinement controller of a group (R245 to R249). -/
structure Refine where
  st : RfState
  tier : Nat
  dec : RfDec
  k : Nat
  desc : BitVec 512
  nmin : W32
  hist : Vector W32 16
  deriving DecidableEq, Repr

/-- Where a group stands in its word (R140). -/
inductive Pos where
  | fetch | a | b | seq
  deriving DecidableEq, Repr

/-- What a group waits for (R20, R230). `hold` is an op not yet issued: a register of an unretired load (R100), no room in a
counter, tag or engine (R98, R106), a stream block (R61). -/
inductive Wait where
  | none
  | hold
  | wait (ld st cp mp : Nat)
  | tags (all : Bool) (mask : W64)
  | tfirst (d : Nat) (mask : W64)
  | sigwait (d : Nat) (a : Acc) (target : W64) (sc : Scope)
  | ringget (d r j q : Nat)
  | ringexp (r j n : Nat)
  | ringput (r j : Nat)
  | bar (id gen : Nat)
  | roleq (d r g : Nat)
  | bobq (d : Nat) (lim : W64)
  | symq (d : Nat) (lim : W64)
  | ord (e round : Nat) (op : LaneOp)
  | acc
  | promote (t : W64)
  deriving DecidableEq, Repr

/-- A translation fault as a record holds it (R297); `range` is the deciding range entry, `entry` its place in the fault
buffer once written, `kind` and `path` the codes of FBDATA1. -/
structure Park where
  va : W64
  path : Nat
  kind : Nat
  level : Nat
  range : Option Nat
  reason : Nat
  entry : Option Nat
  failed : Bool
  deriving DecidableEq, Repr

/-- A RINGPUT.free that has issued and waits for the group's earlier loads (R115). -/
structure FreePut where
  seq : Nat
  ring : Nat
  slot : Nat
  deriving DecidableEq, Repr

/-- A group slot and all a group owns (R13, R311). `exited` says that it has executed EXIT, `freed` says that its slot has been freed (R24); the record stays while its
team is resident, since its register bound can still be moved (R236). `satDue` is a SAT of a command's signal update that waits for
the gap between two words (R107); `retired` are the retired ops of LD, ST and MP whose accesses a WAIT may still have to observe (R120);
`trapRound` is the round of the op that entered the handler (R308). -/
structure Group where
  id : Gid
  live : Bool
  exited : Bool
  freed : Bool
  slot : Nat
  role : Nat
  prio : Nat
  bound : Nat
  base : Nat
  s : Vector W64 64
  p : Vector W32 8
  k : Vector Bool 8
  n : Vector W32 4
  v : Vector VReg 256
  acc : Vector AReg 64
  maps : Vector W64 15
  streams : List (Nat × Stream)
  forms : List (Nat × Nat)
  pc : W64
  slotB : Bool
  pos : Pos
  word : W128
  dec : Option WordD
  hmode : Bool
  vec : Bool
  cls : Nat
  harea : Mem
  clkr : W64
  lane : List LaneOp
  copies : List CopyOp
  mapops : List MapOp
  bobs : List BobCmd
  imgs : List ImgOp
  seqn : Nat
  fences : List Nat
  relNext : Option Scope
  lastRead : List RelTag
  lastSeq : Nat
  lastBound : Bool
  observed : List Observed
  retired : List (Ctr × Nat)
  crossed : List Crossing
  frees : List FreePut
  rf : Refine
  wait : Wait
  park : Option Park
  since : Nat
  residue : Nat
  satDue : Bool
  trapRound : Nat
  deriving DecidableEq, Repr

/-- One slot of a stage ring (R109), with the copies counted into it and what its last release knew. -/
structure RingSlot where
  phase : Bool
  full : Bool
  ovr : Bool
  remain : Nat
  ops : List OpId
  know : List Crossing
  deriving DecidableEq, Repr

/-- A copy tag (R106) with the ops that finished on it. -/
structure Tag where
  pending : Nat
  set : Bool
  ops : List OpId
  deriving DecidableEq, Repr

/-- One barrier id (R235): generation, arrived groups, and what the arrivals knew. -/
structure Bar where
  gen : Nat
  arrived : List Nat
  know : List Crossing
  deriving DecidableEq, Repr

/-- One entry of the .ord sequencer (R323): the op's PC and the rounds each group completed. -/
structure OrdEntry where
  pc : W64
  done : List Nat
  deriving DecidableEq, Repr

/-- A save under way (R309): the time of the request, and whether the deadline has passed. -/
structure SaveReq where
  at_ : Nat
  expired : Bool
  deriving DecidableEq, Repr

/-- A resident team (R13, R23). -/
structure Team where
  id : Tid
  live : Bool
  core : Nat
  block : Nat
  regs : Nat
  bench : Mem
  slots : Mem
  rings : List (List RingSlot)
  tags : List Tag
  bars : List Bar
  seqr : List OrdEntry
  tloft : Mem
  tyard : Mem
  save : Option SaveReq
  deriving DecidableEq, Repr

/-- One declared ring (R157). -/
structure RingDecl where
  offset : Nat
  slots : Nat
  size : Nat
  deriving DecidableEq, Repr

/-- One declared generator (R38, R157). -/
inductive Gen where
  | trans (a b : Nat) (anti : Bool)
  | refl (d : Nat) (anti : Bool)
  | cyc (d s : Nat) (anti : Bool)
  deriving DecidableEq, Repr

/-- A kernel as its descriptor declares it (R156): role classes as (count, priority), handler addresses relative to CODE. -/
structure Kernel where
  groups : Nat
  window : Nat
  regs : Nat
  slots : Nat
  maps : Nat
  accs : Nat
  tags : Nat
  bench : Nat
  loft : Nat
  yard : Nat
  roles : List (Nat × Nat)
  rings : List RingDecl
  gens : List Gen
  replay : Bool
  hIllegal : Option Nat
  hRefine : Option Nat
  hShape : Option Nat
  deriving DecidableEq, Repr

/-- One byte of a merge buffer (R318): the path of its last write, the classes an XFENCE has named with that path since, the
virtual address it was written through, and whether the write was marked as a conflict. -/
structure BufByte where
  addr : Nat
  data : Byte
  path : Path
  xset : BitVec 6
  va : W64
  low : W64
  bad : Bool
  deriving DecidableEq, Repr

/-- One deferred reduction record (R318); `aop` 16 is signal_add. `op` made it, an op of the lane path or (`path`) a command with a signal;
`epoch` is its place beside the records of the task's other groups (notes/assumptions/33.md). -/
structure RedRec where
  addr : Nat
  va : W64
  w : Nat
  aop : Nat
  sgn : Bool
  data : W64
  op : OpId
  path : Path
  epoch : Nat
  deriving DecidableEq, Repr

/-- A task of a replay launch (R29, R30) and its merge buffer. -/
structure Task where
  team : Nat
  id : W64
  phase : Nat
  reads : List (W64 × W64)
  writes : List (W64 × W64)
  buf : List BufByte
  recs : List RedRec
  ended : Bool
  deriving DecidableEq, Repr

/-- What one distributor holds of a launch (R284, R285): the chunks it owns, those not yet offered, the teams of the chunk being issued,
whether it has stopped stealing, how often its next team was passed over, and whether that team blocks its die (R288). -/
structure Dist where
  own : List Nat
  chunks : List Nat
  now : List Nat
  stopped : Bool
  passed : Nat
  blocks : Bool
  deriving DecidableEq, Repr

/-- A launch between its start and its retirement (R13, R272, R289). `muted` says that its bundle has aborted: its commands
update no signal (R272). `reported` says that a seam has posted its failure (R321). `begun` is when it started, `know` what happens
before its start, and `endKnow` what its ended teams bring to its end (R125, R270). -/
structure Launch where
  id : Lid
  live : Bool
  order : Nat
  kern : Kernel
  code : W64
  entry : W64
  replay : Bool
  cohort : Bool
  gx : Nat
  gy : Nat
  gz : Nat
  args : W64
  queue : Nat
  pkt : W64
  csig : Option (W64 × W64)
  bundle : Option Nat
  table : Option W64
  tasks : List Task
  phase : Nat
  reserved : Bool
  placedAll : Bool
  dists : List Dist
  ended : List Nat
  loft : List (Nat × Mem)
  yard : List (Nat × Mem)
  code_ : Option W64
  muted : Bool
  reported : Bool
  held : Bool
  begun : Nat
  know : List Crossing
  endKnow : List Crossing
  deriving DecidableEq, Repr

/-- A memory grant (R327, R342). -/
structure Grant where
  base : Nat
  size : Nat
  slot : Nat
  scrubbing : Bool
  deriving DecidableEq, Repr

/-- Queue states (R264). -/
inductive QState where
  | disabled | active | error | haltEventFull | preempted
  deriving DecidableEq, Repr

/-- A member of a bundle, or the work of a packet of its own (R267, R268). -/
inductive Work where
  | launch (image : W64) (idx : Nat) (gx gy gz : Nat) (args : W64) (mode : Nat) (table : Option W64)
  | copy (src dst : W64) (n : Nat)
  | bob (cluster : Nat) (blk : W64)
  deriving DecidableEq, Repr

/-- A parsed packet (R267). -/
inductive Packet where
  | nop
  | barrier (hold : Bool) (waits : List (W64 × W64)) (csig : Option (W64 × W64))
  | signal (addr delta : W64)
  | work (w : Work) (csig : Option (W64 × W64))
  | bundle (ms : List Work) (csig : Option (W64 × W64))
  | event (code : Nat) (data : W64)
  deriving DecidableEq, Repr

/-- A barrier that has started and is not yet satisfied (R278). -/
structure Barrier where
  hold : Bool
  waits : List (W64 × W64)
  csig : Option (W64 × W64)
  pkt : W64
  deriving DecidableEq, Repr

/-- A system event waiting for room in the event ring (R281), with the state it leads its queue to. -/
structure HeldEvent where
  code : Nat
  pkt : W64
  value : W64
  data : W64
  then_ : QState
  err : W64
  deriving DecidableEq, Repr

/-- A hardware queue: its record (R262 to R264) and its engine lane; `know` is what happens before the start of its next packet
(R262, R270). -/
structure Queue where
  num : Nat
  base : W64
  write : W64
  read : W64
  ctl : W64
  state : QState
  err : W64
  passed : Nat
  head : Option (Packet × Nat)
  bars : List Barrier
  won : Bool
  held : List HeldEvent
  sweepStop : Bool
  know : List Crossing
  deriving DecidableEq, Repr

/-- A piece of a COPY packet (R275): where it comes from and goes to, and its bytes where they have been read by themselves. -/
structure HubPiece where
  src : Acc
  dst : Acc
  val : Option (List Byte)
  deriving DecidableEq, Repr

/-- A COPY packet under way (R275): the number of its writes, what happens before its start, what its reads have returned (R117), the
pieces still to be copied; `mem` is its member number in a bundle, 0 for a packet of its own. -/
structure HubCopy where
  seq : Nat
  know : List Crossing
  reads : List Crossing
  queue : Nat
  pkt : W64
  bundle : Option Nat
  mem : Nat
  pieces : List HubPiece
  csig : Option (W64 × W64)
  deriving DecidableEq, Repr

/-- A BOB packet under way (R276) on the bobbin engine of a cluster, with its moves as those of a BOB command and what its reads have
returned (R117). -/
structure BobPkt where
  seq : Nat
  know : List Crossing
  reads : List Crossing
  queue : Nat
  pkt : W64
  bundle : Option Nat
  mem : Nat
  cluster : Nat
  moves : List BitMove
  alias_ : Bool
  keep : List Loc
  csig : Option (W64 × W64)
  deriving DecidableEq, Repr

/-- A bundle under way (R272): members still unretired, the code and number of the lowest failed member, whether that failure has
been reported (R321), and what its ended members release (R270). -/
structure Bundle where
  id : Nat
  queue : Nat
  pkt : W64
  csig : Option (W64 × W64)
  members : Nat
  left : Nat
  failed : Option (Nat × W64)
  aborted : Bool
  reported : Bool
  know : List Crossing
  deriving DecidableEq, Repr

/-- An entry of a core's fault buffer (R296, R297). -/
structure FbEntry where
  core : Nat
  entry : Nat
  k : Gid
  slot : Nat
  rec_ : Park
  deriving DecidableEq, Repr

/-- A cached translation of a page (R295): virtual page, physical address of its first byte, what decided it (the leaf's level or
the range entry, R297), permissions, key. -/
structure Xlat where
  vpn : Nat
  pa : Nat
  level : Nat
  range : Option Nat
  read : Bool
  write : Bool
  exec : Bool
  key : Nat
  deriving DecidableEq, Repr

/-- A sealed context (R309 to R313): the team, its groups, the place of the record in the spill pool, its bytes and its
digest. -/
structure Saved where
  at_ : Nat
  team : Team
  groups : List Group
  record : List Byte
  digest : BitVec 512
  deriving DecidableEq, Repr

/-- TDISP interface states (R329). -/
inductive Tdisp where
  | unlocked | locked | run | error
  deriving DecidableEq, Repr

/-- An SPDM session (R336): the identity it was opened with, the requester's authenticated key digest, whether it is a
provisioning session (R332), whether FINISH has completed it, and how often it was rekeyed. -/
structure Session where
  id : Nat
  tgt : Nat
  digest : Option (BitVec 512)
  prov : Bool
  fin : Bool
  epoch : Nat
  deriving DecidableEq, Repr

/-- The system registers of a partition that hold values (R307). -/
structure SysRegs where
  vecbase : W64
  pdeadline : W64
  rtab : W64
  ptroot : W64
  spillbase : W64
  spillsize : W64
  qtab : W64
  evring : W64
  evwr : W64
  evrd : W64
  lotseed : W64
  fbsel : W64
  ecccnt : W64
  deriving DecidableEq, Repr

/-- A partition (R326). `seqn` numbers the writes of the host and of its queue engines, `hostKnow` is what happens before the next
access of the host (R122), `lockWait` counts the LOCK requests that wait for a scrub (R329). -/
structure Part where
  num : Nat
  live : Bool
  tdisp : Tdisp
  halves : List Nat
  queues : List Queue
  keys : List Nat
  grants : List Grant
  regs : SysRegs
  rtime0 : Option Nat
  lot : W64
  starts : Nat
  copies : List HubCopy
  bobs : List BobPkt
  bundles : List Bundle
  fb : List FbEntry
  tlb : List Xlat
  saved : List Saved
  sessions : List Session
  lockWait : Nat
  nonce : Option (BitVec 256)
  sealKey : Option Nat
  secDomain : Option Nat
  scrub : Option Bool
  seqn : Nat
  hostKnow : List Crossing
  deriving DecidableEq, Repr

/-- SPDM error responses named by the manual (R336, R337). -/
inductive SpdmErr where
  | unsupportedRequest | sessionLimitExceeded | negotiationFail | invalidSession
  deriving DecidableEq, Repr

/-- TDISP error responses named by the manual (R329). -/
inductive TdispErr where
  | invalidInterfaceState | invalidRequest
  deriving DecidableEq, Repr

/-- What leaves the module in answer to a request. -/
inductive Reply where
  | status (code : Nat)
  | word (w : W64)
  | spdm (request : Nat) (body : List Byte)
  | spdmError (e : SpdmErr)
  | tdispError (e : TdispErr)
  | tdispOk
  | tdispState (st : Tdisp)
  | nonce (n : BitVec 256)
  | algorithms (o : AlgOffer)
  | session (id : Nat) (body : List Byte)
  | signed (body sig : List Byte)
  | ack
  | data (bytes : List Byte)
  | nack (reason : Option Nat)
  deriving DecidableEq, Repr

/-- A message of an SPDM conversation: whether the device sent it, the request code it is or answers, and its bytes. -/
structure SpdmMsg where
  sent : Bool
  code : Nat
  body : List Byte
  deriving DecidableEq, Repr

/-- A management command that the endpoint has received and that is not executed yet (R333), and whether it came in a session that may
give it (R332). -/
structure Received where
  cmd : Instr
  ok : Bool
  deriving DecidableEq, Repr

/-- The module: Selore, management, the twelve Ethernet ports and eight die-to-die links (R5), power and bring-up (R332 to R354);
`transcripts` holds each identity's conversation since its last GET_VERSION (R345), `waiting` the management commands received and not yet
executed, oldest first (R333). -/
structure Module where
  stage : Nat
  fault : Nat
  ready : Bool
  throttle : Bool
  clockMHz : Nat
  ownerHash : Option (BitVec 512)
  ownerHashM4 : Option (BitVec 512)
  keyGen : List (Nat × Nat)
  draws : Nat
  m : Vector (BitVec 512) 16
  digests : List (Nat × BitVec 512)
  sessions : List Session
  nextSession : Nat
  negotiated : List Nat
  transcripts : List (Nat × List SpdmMsg)
  poison : List (Home × Nat)
  corrected : List (Home × Nat)
  deadPorts : List (Fin 12)
  retries : List (Fin 8 × Nat)
  dropped : Nat
  retrains : Nat
  waiting : List Received
  out : List Reply
  deriving DecidableEq, Repr

/-- A write whose bytes another path may still see as they were (R120): old bytes beside their locations. `rmw` says that it wrote the bytes
it read, so that nothing comes between it and the write before it (R113). -/
structure WriteRec where
  op : OpId
  path : Path
  rmw : Bool
  old : List (Loc × Byte)
  deriving DecidableEq, Repr

/-- What moves next: an event, command or request; a group's next slot; a lane-path op, or one access of it, performed before it
retires (R119, R220); a read that what follows it may go before, so that as an acquire it is to be a scope mismatch (R116); some source bytes of a
tile move; some bytes of a map transfer or of a block fetch, of a move of a bobbin command or packet, or of a hub copy, the latter two moved or (`rd`) only read, the next
write of an image store or one byte of it (R119, R243, R252, R275); the passing of real time; a translation entering a partition's cache (R295); a residue mismatch in a map unit (R63); an
uncorrectable or corrected error appearing in a line of memory, an uncorrectable one met in a register file, map or accumulator
store, coalescer, ring buffer or bobbin port by a group or by a COPY or BOB packet, a corrected one met in a register file, map or
accumulator store, or an uncorrectable one in a key slot (R350); the bring-up stage that comes next, without a
failure (R354). -/
inductive Turn where
  | event (i : Instr)
  | group (k : Gid)
  | perform (k : Gid) (seq : Nat)
  | performPart (k : Gid) (seq i : Nat)
  | miss (k : Gid) (seq : Nat)
  | copyPart (k : Gid) (i o n : Nat)
  | mapPart (k : Gid) (i o n : Nat)
  | fetchPart (k : Gid) (m blk o n : Nat)
  | bobPart (r : BobRef) (j o n : Nat) (rd : Bool)
  | imgPart (k : Gid) (byte : Option Nat)
  | hubPart (p i j o n : Nat) (rd : Bool)
  | time (ns : Nat)
  | cache (p : Nat) (va : W64)
  | residue (k : Gid) (n : Nat)
  | poison (h : Home) (line : Nat)
  | correctable (h : Home) (line : Nat)
  | parity (k : Gid)
  | packetParity (bob : Bool) (p i : Nat)
  | corrected (k : Gid)
  | keyError (p slot : Nat)
  | bringUp
  deriving DecidableEq, Repr

/-- The whole machine. -/
structure State where
  g : Group
  t : Team
  l : Launch
  p : Part
  groups : List Group
  teams : List Team
  launches : List Launch
  parts : List Part
  hbm : Mem
  recs : List WriteRec
  rels : List RelTag
  dev : Module
  agenda : List Turn
  now : Nat
  tick : Nat
  deriving DecidableEq, Repr

/-- Why a step can stop: for no reason. Every access that the manual says does not exist is a translation fault of the machine (R294,
R327), which parks a group or refuses an agent, so that no step ends in a fault of the model. Safe. -/
inductive Fault where
  deriving DecidableEq, Repr

/-- Why a step can be refused. -/
inductive Refusal where
  /-- Raised by an arm of `exec` whose row has no meaning yet. Safe: the machine stops. -/
  | notModelled (mnemonic : String)
  deriving DecidableEq, Repr

/-- The refinement controller before any RFBEGIN (R247, R311): IDLE, no norm seen. -/
def Refine.idle : Refine :=
  { st := .idle, tier := 0, dec := .none, k := 0, desc := 0, nmin := 0x7F800000, hist := Vector.replicate 16 0 }

/-- A group slot that holds no group. -/
def Group.idle : Group :=
  { id := ⟨⟨⟨0, 0⟩, 0⟩, 0⟩, live := false, exited := false, freed := false, slot := 0, role := 0, prio := 0, bound := 0, base := 0,
    s := Vector.replicate 64 0, p := Vector.replicate 8 0, k := Vector.replicate 8 false, n := Vector.replicate 4 0,
    v := Vector.replicate 256 (Vector.replicate 32 0), acc := Vector.replicate 64 (Vector.replicate 32 0),
    maps := Vector.replicate 15 0, streams := [], forms := [], pc := 0, slotB := false, pos := .fetch, word := 0,
    dec := none, hmode := false, vec := false, cls := 0, harea := [], clkr := 0, lane := [], copies := [], mapops := [],
    bobs := [], imgs := [], seqn := 0, fences := [], relNext := none, lastRead := [], lastSeq := 0, lastBound := false, observed := [], retired := [], crossed := [],
    frees := [], rf := .idle, wait := .none, park := none, since := 0, residue := 0, satDue := false, trapRound := 0 }

/-- A core without a team. -/
def Team.idle : Team :=
  { id := ⟨⟨0, 0⟩, 0⟩, live := false, core := 0, block := 0, regs := 0, bench := [], slots := [], rings := [], tags := [],
    bars := [], seqr := [], tloft := [], tyard := [], save := none }

/-- The kernel of no launch. -/
def Kernel.idle : Kernel :=
  { groups := 0, window := 0, regs := 0, slots := 0, maps := 0, accs := 0, tags := 0, bench := 0, loft := 0, yard := 0,
    roles := [], rings := [], gens := [], replay := false, hIllegal := none, hRefine := none, hShape := none }

/-- No launch. -/
def Launch.idle : Launch :=
  { id := ⟨0, 0⟩, live := false, order := 0, kern := .idle, code := 0, entry := 0, replay := false, cohort := false,
    gx := 0, gy := 0, gz := 0, args := 0, queue := 0, pkt := 0, csig := none, bundle := none, table := none, tasks := [],
    phase := 0, reserved := false, placedAll := false, dists := [], ended := [], loft := [], yard := [], code_ := none,
    muted := false, reported := false, held := false, begun := 0, know := [], endKnow := [] }

/-- The system registers at their reset values (R307). -/
def SysRegs.reset : SysRegs :=
  { vecbase := 0, pdeadline := 100000, rtab := 0, ptroot := 0, spillbase := 0, spillsize := 0, qtab := 0, evring := 0,
    evwr := 0, evrd := 0, lotseed := 0, fbsel := 0, ecccnt := 0 }

/-- No partition (R329). -/
def Part.idle : Part :=
  { num := 0, live := false, tdisp := .unlocked, halves := [], queues := [], keys := [], grants := [], regs := .reset,
    rtime0 := none, lot := 1, starts := 0, copies := [], bobs := [], bundles := [], fb := [], tlb := [],
    saved := [], sessions := [], lockWait := 0, nonce := none, sealKey := none, secDomain := none, scrub := none,
    seqn := 0, hostKnow := [] }

/-- The module right after reset, before bring-up stage 1 (R344, R354): STAGE 0, READY 0, FAULT 0, measurements zero. -/
def Module.reset : Module :=
  { stage := 0, fault := 0, ready := false, throttle := false, clockMHz := 1000, ownerHash := none, ownerHashM4 := none,
    keyGen := [], draws := 0, m := Vector.replicate 16 0, digests := [], sessions := [], nextSession := 1,
    negotiated := [], transcripts := [], poison := [], corrected := [], deadPorts := [], retries := [], dropped := 0, retrains := 0,
    waiting := [], out := [] }

/-- The machine right after reset: no partition, launch, team or group exists, memory lists nothing, bring-up has not begun. -/
def State.reset : State :=
  { g := .idle, t := .idle, l := .idle, p := .idle, groups := [], teams := [], launches := [], parts := [], hbm := [],
    recs := [], rels := [], dev := .reset, agenda := [], now := 0, tick := 0 }

end Sys2Proof.Machine
end

