-- ==== Sys2Proof/Machine/Mem.lean ====
section
/-!
DEFINITION. Memory as a sorted list of nonzero cells, and little-endian byte strings (R8). An unlisted byte reads zero: bring-up
writes zeros to all memory (R354), a grant is scrubbed before use (R342), and every scratchpad allocation is zero-filled (R16).
-/
namespace Sys2Proof.Machine

/-- The byte at an address. -/
def memGet : Mem → Nat → Byte
  | [], _ => 0
  | (x, b) :: r, a => if x = a then b else memGet r a

/-- The memory with one byte replaced, in canonical form. -/
def memPut : Mem → Nat → Byte → Mem
  | [], a, b => if b = 0 then [] else [(a, b)]
  | (x, c) :: r, a, b =>
    if a < x then (if b = 0 then (x, c) :: r else (a, b) :: (x, c) :: r)
    else if a = x then (if b = 0 then r else (a, b) :: r)
    else (x, c) :: memPut r a b

/-- Addresses strictly rising from a bound, no zero byte. -/
def memWfFrom : Nat → Mem → Bool
  | _, [] => true
  | lo, (x, b) :: r => decide (lo ≤ x) && decide (b ≠ 0) && memWfFrom (x + 1) r

/-- The canonical form: addresses strictly rising, no entry equal to what an unlisted address reads as. -/
def memWf (m : Mem) : Bool := memWfFrom 0 m

/-- The memory with the bytes lo to lo + n − 1 zero. -/
def memClear (m : Mem) (lo n : Nat) : Mem := m.filter fun c => c.1 < lo || lo + n ≤ c.1

/-- n bytes from an address, lowest first. -/
def memBytes (m : Mem) (a n : Nat) : List Byte := (List.range n).map fun i => memGet m (a + i)

/-- The bytes written from an address on, lowest first. -/
def memPutBytes (m : Mem) (a : Nat) : List Byte → Mem
  | [] => m
  | b :: bs => memPutBytes (memPut m a b) (a + 1) bs

/-- A byte string as a number, little-endian (R8). -/
def leNat : List Byte → Nat
  | [] => 0
  | b :: bs => b.toNat + 256 * leNat bs

/-- A number as n bytes, little-endian (R8). -/
def leBytes : Nat → Nat → List Byte
  | 0, _ => []
  | n + 1, x => BitVec.ofNat 8 x :: leBytes n (x / 256)

/-- The n-byte little-endian number at an address. -/
def memNat (m : Mem) (a n : Nat) : Nat := leNat (memBytes m a n)

/-- An n-byte little-endian number written at an address. -/
def memPutNat (m : Mem) (a n x : Nat) : Mem := memPutBytes m a (leBytes n x)

/-- Bits lo to lo + n − 1 of a number. -/
def bitsAt (x lo n : Nat) : Nat := x / 2 ^ lo % 2 ^ n

/-- A number of n bits read as signed. -/
def sextNat (n x : Nat) : Int :=
  let x := x % 2 ^ n
  if 2 ^ n ≤ 2 * x then (x : Int) - (2 ^ n : Nat) else x

end Sys2Proof.Machine
end

