-- ==== Sys2Proof/Machine/Ops.lean ====
section
/-!
DEFINITION. The named operations of the machine: bringing a group, team, launch or partition into focus; reading and writing
registers; reading and writing one byte of any space on a path; taking an exception and returning from one; ending a launch.
-/
namespace Sys2Proof.Machine

/-- A step's outcome. -/
abbrev Out := Host.Outcome State Fault Refusal

/-! ### Focus -/

/-- The group slots that hold a group. -/
def allGroups (s : State) : List Group := (s.g :: s.groups).filter fun g => g.live

/-- The resident teams. -/
def allTeams (s : State) : List Team := (s.t :: s.teams).filter fun t => t.live

/-- The launches not yet retired. -/
def allLaunches (s : State) : List Launch := (s.l :: s.launches).filter fun l => l.live

/-- The partitions that exist (R326). -/
def allParts (s : State) : List Part := (s.p :: s.parts).filter fun p => p.live

/-- The group of an id. -/
def group? (s : State) (k : Gid) : Option Group := (allGroups s).find? fun g => g.id = k

/-- The team of an id. -/
def team? (s : State) (k : Tid) : Option Team := (allTeams s).find? fun t => t.id = k

/-- The launch of an id. -/
def launch? (s : State) (k : Lid) : Option Launch := (allLaunches s).find? fun l => l.id = k

/-- The partition of a number. -/
def part? (s : State) (n : Nat) : Option Part := (allParts s).find? fun p => p.num = n

/-- Groups of a team in ascending group number (R17). -/
def teamGroups (s : State) (k : Tid) : List Group :=
  (List.range 32).filterMap fun n => group? s ⟨k, n⟩

/-- Resident teams of a launch. -/
def launchTeams (s : State) (k : Lid) : List Team := (allTeams s).filter fun t => t.id.l = k

/-- The group put in focus; the one that was goes back among the others. -/
def focusGroup (k : Gid) (s : State) : State :=
  if s.g.live && s.g.id = k then s
  else
    match s.groups.find? fun g => g.live && g.id = k with
    | none => s
    | some g => { s with g := g, groups := (if s.g.live then [s.g] else []) ++ s.groups.filter fun h => h.id ≠ k }

/-- The team put in focus. -/
def focusTeam (k : Tid) (s : State) : State :=
  if s.t.live && s.t.id = k then s
  else
    match s.teams.find? fun t => t.live && t.id = k with
    | none => s
    | some t => { s with t := t, teams := (if s.t.live then [s.t] else []) ++ s.teams.filter fun u => u.id ≠ k }

/-- The launch put in focus. -/
def focusLaunch (k : Lid) (s : State) : State :=
  if s.l.live && s.l.id = k then s
  else
    match s.launches.find? fun l => l.live && l.id = k with
    | none => s
    | some l => { s with l := l, launches := (if s.l.live then [s.l] else []) ++ s.launches.filter fun u => u.id ≠ k }

/-- The partition put in focus. -/
def focusPart (n : Nat) (s : State) : State :=
  if s.p.live && s.p.num = n then s
  else
    match s.parts.find? fun p => p.live && p.num = n with
    | none => s
    | some p => { s with p := p, parts := (if s.p.live then [s.p] else []) ++ s.parts.filter fun u => u.num ≠ n }

/-- A group with its team, launch and partition in focus. -/
def focus (k : Gid) (s : State) : State :=
  focusGroup k (focusTeam k.t (focusLaunch k.t.l (focusPart k.t.l.part s)))

/-- An update of one group, wherever it stands. -/
def updGroup (k : Gid) (f : Group → Group) (s : State) : State :=
  if s.g.live && s.g.id = k then { s with g := f s.g }
  else { s with groups := s.groups.map fun g => if g.live && g.id = k then f g else g }

/-- An update of one team, wherever it stands. -/
def updTeam (k : Tid) (f : Team → Team) (s : State) : State :=
  if s.t.live && s.t.id = k then { s with t := f s.t }
  else { s with teams := s.teams.map fun t => if t.live && t.id = k then f t else t }

/-- An update of one launch, wherever it stands. -/
def updLaunch (k : Lid) (f : Launch → Launch) (s : State) : State :=
  if s.l.live && s.l.id = k then { s with l := f s.l }
  else { s with launches := s.launches.map fun l => if l.live && l.id = k then f l else l }

/-- An update of one partition, wherever it stands. -/
def updPart (n : Nat) (f : Part → Part) (s : State) : State :=
  if s.p.live && s.p.num = n then { s with p := f s.p }
  else { s with parts := s.parts.map fun p => if p.live && p.num = n then f p else p }

/-- An update of every group of a team. -/
def updTeamGroups (k : Tid) (f : Group → Group) (s : State) : State :=
  { s with g := if s.g.live && s.g.id.t = k then f s.g else s.g,
           groups := s.groups.map fun g => if g.live && g.id.t = k then f g else g }

/-- An answer leaves the module. -/
def reply (r : Reply) (s : State) : State := { s with dev := { s.dev with out := s.dev.out ++ [r] } }

/-- The next free-value counter, and the state that has used it. -/
def useTick (s : State) : Nat × State := (s.tick, { s with tick := s.tick + 1 })

/-- Cluster of a core: 16 cores each (R5); cores are numbered through the module. -/
def clusterOf (core : Nat) : Nat := core / 16
/-- Die of a core: 12 clusters each (R5). -/
def dieOf (core : Nat) : Nat := core / 192
/-- Half-die of a core: clusters 0 to 5 and 6 to 11 of its die (R325). -/
def halfOf (core : Nat) : Nat := core / 96

/-! ### Registers (R44 to R47) -/

/-- A scalar register; s63 reads zero (R45). -/
def getS (g : Group) (n : Nat) : W64 := if n % 64 = 63 then 0 else g.s[n % 64]!

/-- A scalar register written: s63 discards, s62 keeps 32 bits, s60 keeps 9 bits (R45, R47). -/
def setS (g : Group) (n : Nat) (x : W64) : Group :=
  if n % 64 = 63 then g
  else
    let x := if n % 64 = 62 then x &&& 0xFFFFFFFF else if n % 64 = 60 then x &&& 0x1FF else x
    { g with s := g.s.set! (n % 64) x }

/-- A predicate; p7 reads all true (R44). -/
def getP (g : Group) (n : Nat) : W32 := if n % 8 = 7 then 0xFFFFFFFF else g.p[n % 8]!

/-- A predicate written; p7 discards (R44). -/
def setP (g : Group) (n : Nat) (x : W32) : Group :=
  if n % 8 = 7 then g else { g with p := g.p.set! (n % 8) x }

/-- A condition register; k7 reads true (R44). -/
def getK (g : Group) (n : Nat) : Bool := if n % 8 = 7 then true else g.k[n % 8]!

/-- A condition register written; k7 discards (R44). -/
def setK (g : Group) (n : Nat) (x : Bool) : Group :=
  if n % 8 = 7 then g else { g with k := g.k.set! (n % 8) x }

/-- A loop counter (R44). -/
def getN (g : Group) (n : Nat) : W32 := g.n[n % 4]!

/-- A loop counter written (R44). -/
def setN (g : Group) (n : Nat) (x : W32) : Group := { g with n := g.n.set! (n % 4) x }

/-- A vector register (R21, R22: its value wherever it lives). -/
def getV (g : Group) (n : Nat) : VReg := g.v[n % 256]!

/-- A vector register written whole. -/
def setV (g : Group) (n : Nat) (x : VReg) : Group := { g with v := g.v.set! (n % 256) x }

/-- One lane of a vector register. -/
def getLane (g : Group) (n i : Nat) : W32 := (getV g n)[i % 32]!

/-- One lane of a vector register written. -/
def setLane (g : Group) (n i : Nat) (x : W32) : Group := setV g n ((getV g n).set! (i % 32) x)

/-- A container of an accumulator (R64). -/
def getA (g : Group) (n i : Nat) : W64 := (g.acc[n % 64]!)[i % 32]!

/-- A container of an accumulator written. -/
def setA (g : Group) (n i : Nat) (x : W64) : Group :=
  { g with acc := g.acc.set! (n % 64) ((g.acc[n % 64]!).set! (i % 32) x) }

/-- A map number's descriptor (R50); number 0 is never bound. -/
def getMap (g : Group) (n : Nat) : W64 := if n = 0 then 0 else if n < 15 then g.maps[n]! else 0

/-- A map number's descriptor written. -/
def setMap (g : Group) (n : Nat) (d : W64) : Group :=
  if n = 0 then g else if n < 15 then { g with maps := g.maps.set! n d } else g

/-- Flags ORed into s60 (R47). -/
def raise (f : Flags) (g : Group) : Group :=
  { g with s := g.s.set! 60 ((g.s[60]!) ||| f.setWidth 64) }

/-- The execution mask, bits 31:0 of s62 (R45). -/
def exm (g : Group) : W32 := (g.s[62]!).setWidth 32

/-! ### Memory of every space -/

/-- The memory at a home; scratchpads of absent owners are empty. -/
def homeMem (s : State) (h : Home) : Mem :=
  match h with
  | .phys => s.hbm
  | .bench t => (team? s t).elim [] Team.bench
  | .handler k => (group? s k).elim [] Group.harea
  | .loft l c => (launch? s l).elim [] fun x => ((x.loft.find? fun e => e.1 = c).map Prod.snd).getD []
  | .yard l d => (launch? s l).elim [] fun x => ((x.yard.find? fun e => e.1 = d).map Prod.snd).getD []
  | .taskLoft t => (team? s t).elim [] Team.tloft
  | .taskYard t => (team? s t).elim [] Team.tyard

/-- An update of one instance in a list of instances. -/
def updInst (i : Nat) (f : Mem → Mem) : List (Nat × Mem) → List (Nat × Mem)
  | [] => [(i, f [])]
  | (j, m) :: r => if i = j then (j, f m) :: r else (j, m) :: updInst i f r

/-- An update of the memory at a home. -/
def updHome (h : Home) (f : Mem → Mem) (s : State) : State :=
  match h with
  | .phys => { s with hbm := f s.hbm }
  | .bench t => updTeam t (fun x => { x with bench := f x.bench }) s
  | .handler k => updGroup k (fun x => { x with harea := f x.harea }) s
  | .loft l c => updLaunch l (fun x => { x with loft := updInst c f x.loft }) s
  | .yard l d => updLaunch l (fun x => { x with yard := updInst d f x.yard }) s
  | .taskLoft t => updTeam t (fun x => { x with tloft := f x.tloft }) s
  | .taskYard t => updTeam t (fun x => { x with tyard := f x.tyard }) s

/-- The task of a team in a replay launch (R29). -/
def taskOf (l : Launch) (k : Tid) : Option Task :=
  if l.replay && l.id = k.l then l.tasks.find? fun t => t.team = k.team else none

/-- An update of one task of a launch. -/
def updTask (team : Nat) (f : Task → Task) (l : Launch) : Launch :=
  { l with tasks := l.tasks.map fun t => if t.team = team then f t else t }

/-- The byte a task sees (R31): its own buffer where masked, else memory. -/
def viewByte (s : State) (k : Gid) (a : Loc) : Byte :=
  if a.home = .phys then
    match (launch? s k.t.l).bind fun l => taskOf l k.t with
    | some t =>
      match t.buf.find? fun b => b.addr = a.addr with
      | some b => b.data
      | none => memGet s.hbm a.addr
    | none => memGet s.hbm a.addr
  else memGet (homeMem s a.home) a.addr

/-- The bit of a path class in a path mask (R228). -/
def pathBit : Path → Nat
  | .lane => 0 | .copy => 1 | .stream => 2 | .bobbin => 3 | .image => 4 | .host => 5

/-- One byte written into a merge buffer (R318): a write on another class than the last one, without one XFENCE naming both
between them, marks the byte; the record then holds its class with an empty set. -/
def bufWrite (buf : List BufByte) (addr : Nat) (va : W64) (path : Path) (b : Byte) : List BufByte :=
  match buf.find? fun x => x.addr = addr with
  | none => buf ++ [{ addr := addr, data := b, path := path, xset := 0, va := va, low := va, bad := false }]
  | some _ => buf.map fun x =>
      if x.addr = addr then
        { x with data := b, path := path, xset := 0, va := va,
                 low := if va.toNat < x.low.toNat then va else x.low,
                 bad := x.bad || (x.path ≠ path && !x.xset.getLsbD (pathBit path)) }
      else x

/-- One byte written by a group on a path: into its task's merge buffer where the launch is in replay mode and the byte is
global (R31), else into memory. -/
def writeByte (k : Gid) (path : Path) (a : Loc) (va : W64) (b : Byte) (s : State) : State :=
  if a.home = .phys ∧ ((launch? s k.t.l).elim false fun l => l.replay) then
    updLaunch k.t.l (updTask k.t.team fun t => { t with buf := bufWrite t.buf a.addr va path b }) s
  else updHome a.home (fun m => memPut m a.addr b) s

/-- Whether a write record bears on a reader: global bytes of a replay launch are seen by their own task only (R124). -/
def recBears (s : State) (k : Gid) (a : Loc) (r : WriteRec) : Bool :=
  a.home ≠ .phys || r.op.k.t = k.t || !((launch? s r.op.k.t.l).elim false fun l => l.replay)

/-- Whether crossings put a record's write of a byte before an access on a path with a program-order number (R117, R120). -/
def crossedAt (cs : List Crossing) (path : Path) (seq : Nat) (a : Loc) (r : WriteRec) : Bool :=
  cs.any fun c => c.op = r.op && (c.onto.all fun q => q = path) && (c.at_.all fun bs => bs.contains a) && decide (c.from_ ≤ seq)

/-- One byte as a reader finds it: its value, the free-value counter after the choices, the writes it did not see, and the write
whose value it is, where a record holds it. -/
structure Seen where
  byte : Byte
  tick : Nat
  passed : List OpId
  took : Option WriteRec
  deriving DecidableEq, Repr

/-- The value of one byte (R117, R120): from the newest write back, a write that the reader need not see leaves the choice between
its value and the byte's value before it. -/
def staleWalk (skip sees : WriteRec → Bool) (a : Loc) : List WriteRec → Seen → Seen
  | [], x => x
  | r :: rs, x =>
    match r.old.find? fun o => o.1 = a with
    | none => staleWalk skip sees a rs x
    | some o =>
      if skip r then staleWalk skip sees a rs x
      else if sees r then { x with took := some r }
      else if Config.freeBit x.tick then { x with tick := x.tick + 1, took := some r }
      else staleWalk skip sees a rs { x with byte := o.2, tick := x.tick + 1, passed := r.op :: x.passed }

/-- A byte joined to the crossing at the head of a list, where that tells of the same read of the same write. -/
def joinRead (x : Crossing) (a : Loc) (cs : List Crossing) : List Crossing :=
  match cs with
  | [] => [{ x with at_ := some [a] }]
  | c :: r =>
    match c.at_ with
    | some as => if { c with at_ := none } = { x with at_ := none } then { c with at_ := some (a :: as) } :: r
                 else { x with at_ := some [a] } :: c :: r
    | none => { x with at_ := some [a] } :: c :: r

/-- Whether crossings put all of a record's writes, or that of a byte, before every later access on every path. -/
def everCrossed (cs : List Crossing) (seq : Nat) (a : Loc) (r : WriteRec) : Bool :=
  cs.any fun c => c.op = r.op && c.onto.isNone && (c.at_.all fun bs => bs.contains a) && decide (c.from_ ≤ seq)

/-- A group that has returned the value of a write: no later read of the byte on that path returns an older one, nor one that follows it
on another path (R117, R120). -/
def learnRead (k : Gid) (path : Path) (seq : Nat) (a : Loc) (took : Option WriteRec) (s : State) : State :=
  match took with
  | none => s
  | some r => updGroup k (fun g =>
      if everCrossed g.crossed (seq + 1) a r then g
      else { g with crossed := joinRead ⟨r.op, r.path, some path, none, seq + 1, some ⟨k, seq⟩⟩ a g.crossed }) s

/-- A group that has read the newest values of bytes, as an atomic read does (R113): its later reads return none that is older (R117). -/
def learnNewest (k : Gid) (path : Path) (seq : Nat) (as : List Loc) (s : State) : State :=
  as.foldl (fun s a => learnRead k path seq a
    (s.recs.find? fun r => recBears s k a r && r.old.any fun o => o.1 = a) s) s

/-- One byte read by an op of a group on a path. -/
def readByte (k : Gid) (path : Path) (seq : Nat) (a : Loc) (s : State) : Seen × State :=
  let b : Seen := ⟨viewByte s k a, s.tick, [], none⟩
  if s.recs.isEmpty then (b, s)
  else
    let cs := (group? s k).elim [] Group.crossed
    let x := staleWalk (fun r => !recBears s k a r) (fun r => r.path = path || crossedAt cs path seq a r) a s.recs b
    (x, learnRead k path seq a x.took { s with tick := x.tick })

/-- The n locations from one on. -/
def locsFrom (a : Loc) (n : Nat) : List Loc := (List.range n).map fun i => { a with addr := a.addr + i }

/-- Bytes read by an op of a group on a path, each as it was found. -/
def readSeen (k : Gid) (path : Path) (seq : Nat) : List Loc → State → List Seen × State
  | [], s => ([], s)
  | a :: as, s =>
    let (x, s) := readByte k path seq a s
    let (xs, s) := readSeen k path seq as s
    (x :: xs, s)

/-- Bytes read by an op of a group on a path. -/
def readBytes (k : Gid) (path : Path) (seq : Nat) (as : List Loc) (s : State) : List Byte × State :=
  let (xs, s) := readSeen k path seq as s
  (xs.map Seen.byte, s)

/-- Whether an agent that is no group must see a record's write of a byte: one on its own path, or one that it knows of; it executes no
XFENCE, so what it knows holds whatever path it was crossed onto (R122, R270). -/
def agentSees (path : Option Path) (cs : List Crossing) (a : Loc) (r : WriteRec) : Bool :=
  path = some r.path || cs.any fun c => c.op = r.op && c.at_.all fun bs => bs.contains a

/-- A physical byte as an agent that is no group finds it. Its choices use free values of their own for each byte. -/
def agentByte (s : State) (path : Option Path) (cs : List Crossing) (a : Loc) : Seen :=
  let b : Seen := ⟨memGet s.hbm a.addr, s.tick + (a.addr + 1) * 2 ^ 20, [], none⟩
  if s.recs.isEmpty then b
  else staleWalk (fun r => (launch? s r.op.k.t.l).elim false fun l => l.replay) (agentSees path cs a) a s.recs b

/-- What bytes that an agent has found bring to what follows: the writes whose values it has returned (R117), but for what it knew. -/
def seenReads (cs : List Crossing) (xs : List (Loc × Seen)) : List Crossing :=
  xs.foldl (fun l x => match x.2.took with
    | none => l
    | some r => if everCrossed cs 0 x.1 r then l else joinRead ⟨r.op, r.path, none, none, 0, none⟩ x.1 l) []

/-- What an agent's read of physical bytes brings to what follows it. -/
def agentReads (s : State) (path : Option Path) (cs : List Crossing) (as : List Loc) : List Crossing :=
  seenReads cs (as.map fun a => (a, agentByte s path cs a))

/-- Physical bytes as an agent finds them. -/
def agentBytes (s : State) (path : Option Path) (cs : List Crossing) (as : List Loc) : List Byte :=
  as.map fun a => (agentByte s path cs a).byte

/-- Bytes as they are, without the choice of another path (an atomic's read, R113; a signal's read, R233). -/
def peekBytes (k : Gid) (as : List Loc) (s : State) : List Byte := as.map (viewByte s k)

/-- Bytes leave the release sequences they are in; a release without bytes is gone. -/
def RelTag.without (as : List Loc) (r : RelTag) : Option RelTag :=
  let bs := r.bytes.filter fun b => !as.contains b
  if bs.isEmpty then none else some { r with bytes := bs }

/-- Whether a reader that did not see some writes of a byte reads there within a release's sequence (R115): it saw the release, and not
a plain write that ended the sequence. -/
def RelTag.holds (r : RelTag) (a : Loc) (passed : List OpId) : Bool :=
  r.bytes.contains a && !passed.contains r.op && r.ended.all fun e => e.1 ≠ a || passed.contains e.2

/-- A release after a plain write of bytes by an op, made before some other writes of each (R120): it ends the sequences of the releases that
it comes after, where none that it comes after has ended them. -/
def RelTag.endAt (op : OpId) (as : List (Loc × List OpId)) (r : RelTag) : RelTag :=
  { r with ended := ((as.filter fun x => r.bytes.contains x.1 && !x.2.contains r.op &&
      !(r.ended.any fun e => e.1 = x.1 && !x.2.contains e.2)).map fun x => (x.1, op)) ++ r.ended }

/-- A release without the bytes whose sequence was ended by a write that every reader sees by now. -/
def RelTag.past (passed : Loc × OpId → Bool) (r : RelTag) : Option RelTag := r.without ((r.ended.filter passed).map Prod.fst)

/-- Whether a launch is in replay mode. -/
def replays (s : State) (l : Lid) : Bool := (launch? s l).elim false fun l => l.replay

/-- Plain writes of these bytes by an op of a group end their release sequences (R115), for the readers that see them; the global
writes of a replay task concern its own team alone (R124). -/
def endRelsOf (op : OpId) (as : List (Loc × List OpId)) (s : State) : State :=
  if s.rels.isEmpty then s
  else { s with rels := s.rels.map fun r =>
      if replays s op.k.t.l && r.by_.all (fun b => b.t ≠ op.k.t) then r.endAt op (as.filter fun x => x.1.home ≠ .phys) else r.endAt op as }

/-- Bytes that an access found, or wrote, as they are. -/
def plainly (as : List Loc) : List (Loc × List OpId) := as.map fun a => (a, [])

/-- A plain write of n bytes from a location by an op, after all other writes of them. -/
def endRels (op : OpId) (a : Loc) (n : Nat) (s : State) : State := endRelsOf op (plainly (locsFrom a n)) s

/-- Plain writes of these bytes that every path sees at once end their release sequences (R115). -/
def dropRelsOf (as : List Loc) (s : State) : State :=
  if s.rels.isEmpty then s else { s with rels := s.rels.filterMap (RelTag.without as) }

/-- Bytes that every path sees as they now are: no record holds an older value of them. -/
def settle (as : List Loc) (s : State) : State :=
  if s.recs.isEmpty then s
  else { s with recs := s.recs.map fun r => { r with old := r.old.filter fun o => !as.contains o.1 }
                rels := s.rels.filterMap (RelTag.past fun e => as.contains e.1) }

/-- Bytes about to be written by a plain write that every path sees at once: it ends their release sequences (R115), and no path finds
an older value. -/
def settled (as : List Loc) (s : State) : State := settle as (dropRelsOf as s)

/-- The records, newest first, once a team has ended and all it wrote is performed at .dev (R125): its own are gone, and no older one
holds a value of a byte from before the team's writes. -/
def recsPast (t : Tid) (real : Loc → Bool) : List Loc → List WriteRec → List WriteRec
  | _, [] => []
  | seen, r :: rs =>
    if r.op.k.t = t then recsPast t real ((r.old.map Prod.fst).filter real ++ seen) rs
    else { r with old := r.old.filter fun o => !seen.contains o.1 } :: recsPast t real seen rs

/-- All writes of a team performed at .dev (R125); the global ones of a replay task stand in its merge buffer (R31). -/
def settleTeam (t : Tid) (s : State) : State :=
  { s with recs := recsPast t (fun a => a.home ≠ .phys || !replays s t.l) [] s.recs
           rels := s.rels.filterMap (RelTag.past fun e => e.2.k.t = t) }

/-- Bytes written from a location on, by an op of a group on a path, with the old bytes recorded for other paths (R120). -/
def writeBytesFrom (op : OpId) (path : Path) (va : W64) : Nat → Loc → List Byte → State → State
  | _, _, [], s => s
  | i, a, b :: bs, s =>
    writeBytesFrom op path va (i + 1) { a with addr := a.addr + 1 } bs
      (writeByte op.k path a (va + BitVec.ofNat 64 i) b s)

/-- The record of the old bytes of one write, merged into the op's newest record. -/
def addRec (op : OpId) (path : Path) (rmw : Bool) (old : List (Loc × Byte)) (s : State) : State :=
  match s.recs with
  | r :: rs => if r.op = op && r.path = path && r.rmw = rmw then { s with recs := { r with old := r.old ++ old } :: rs }
               else { s with recs := ⟨op, path, rmw, old⟩ :: s.recs }
  | [] => { s with recs := [⟨op, path, rmw, old⟩] }

/-! ### The place of a write in the coherence order (R113, R120) -/

/-- Whether a record holds an old value of a byte. -/
def WriteRec.has (r : WriteRec) (a : Loc) : Bool := r.old.any fun o => o.1 = a

/-- Whether a record's write of a byte stands in the memory that a group's write of it goes to: the merge buffer of a replay task holds the
global writes of its own team alone (R31). -/
def recMeets (s : State) (k : Gid) (a : Loc) (r : WriteRec) : Bool :=
  r.has a && (a.home ≠ .phys || r.op.k.t = k.t || (!replays s r.op.k.t.l && !replays s k.t.l))

/-- The newest writes of some bytes that a write comes before, newest first, and the free-value counter after the choices: from the newest
back, up to one that it must follow, each that it need not follow is passed or not by a free value (R120). -/
def passWalk (meets follows : WriteRec → Bool) : List WriteRec → Nat → List WriteRec × Nat
  | [], n => ([], n)
  | r :: rs, n =>
    if !meets r then passWalk meets follows rs n
    else if follows r then ([], n)
    else if Config.freeBit n then ([], n + 1)
    else
      let (p, n) := passWalk meets follows rs (n + 1)
      (r :: p, n)

/-- Whether a write of some bytes may come just before these others: at each byte the oldest of them is no read-modify-write (R113). -/
def fitsBefore (as : List Loc) (p : List WriteRec) : Bool :=
  as.all fun a => ((p.filter fun r => r.has a).getLast?).all fun r => !r.rmw

/-- The most of the passed writes, newest first, that a write of some bytes may come just before. -/
def mostBefore (as : List Loc) (p : List WriteRec) : List WriteRec :=
  (((List.range (p.length + 1)).reverse.map p.take).find? (fitsBefore as)).getD []

/-- What a writer must follow: the writes on its own path class, and those that a completion and an XFENCE, or a synchronisation that
brings both, put behind it (R113, R120), but not one whose value was only read. -/
def writeFollows (s : State) (know : List Crossing) (op : OpId) (path : Path) (as : List Loc) (r : WriteRec) : Bool :=
  let cs := ((group? s op.k).elim [] Group.crossed ++ know).filter fun c => c.at_.isNone
  r.path = path || as.any fun a => r.has a && crossedAt cs path op.seq a r

/-- The writes that one access comes before, newest first, and the free-value counter after the choices. -/
def passedBy (know : List Crossing) (op : OpId) (path : Path) (as : List Loc) (s : State) : List WriteRec × Nat :=
  let (p, n) := passWalk (fun r => as.any fun a => recMeets s op.k a r) (writeFollows s know op path as) s.recs s.tick
  (mostBefore as p, n)

/-- The ops of the writes of a byte that an access comes before. -/
def passedOps (p : List WriteRec) (a : Loc) : Loc × List OpId := (a, (p.filter fun r => r.has a).map WriteRec.op)

/-- The plain ones among them: each ends the release sequence of a release that comes before it (R115). -/
def passedPlain (p : List WriteRec) (as : List Loc) : List (Loc × OpId) :=
  as.flatMap fun a => (p.filter fun r => r.has a && !r.rmw).map fun r => (a, r.op)

/-- A byte just before the writes that an access comes before. -/
def byteBefore (s : State) (k : Gid) (p : List WriteRec) (a : Loc) : Byte :=
  (((p.filter fun r => r.has a).getLast?.bind fun r => r.old.find? fun o => o.1 = a).map Prod.snd).getD (viewByte s k a)

/-- A write's record put behind the m newest that meet it: the oldest of these at each byte now finds the byte that was written. -/
def sinkRec (meets : WriteRec → Bool) (new : WriteRec) (bs : List (Loc × Byte)) : Nat → List WriteRec → List WriteRec
  | 0, rs => new :: rs
  | _, [] => [new]
  | m + 1, r :: rs =>
    if meets r then
      let later := (rs.filter meets).take m
      { r with old := (bs.filter fun x => r.has x.1 && !later.any fun q => q.has x.1) ++ r.old } :: sinkRec meets new bs m rs
    else r :: sinkRec meets new bs (m + 1) rs

/-- A merge buffer after a write of a byte that comes before another of the same task: the data and the class stay, and the class of the write
counts for the conflict of R318. -/
def bufBehind (buf : List BufByte) (addr : Nat) (va : W64) (path : Path) : List BufByte :=
  buf.map fun x =>
    if x.addr = addr then
      { x with low := if va.toNat < x.low.toNat then va else x.low,
               bad := x.bad || (x.path ≠ path && !x.xset.getLsbD (pathBit path)) }
    else x

/-- A byte that a newer write hides already: only a merge buffer takes note of it. -/
def hideByte (k : Gid) (path : Path) (a : Loc) (va : W64) (s : State) : State :=
  if a.home = .phys ∧ replays s k.t.l then
    updLaunch k.t.l (updTask k.t.team fun t => { t with buf := bufBehind t.buf a.addr va path }) s
  else s

/-- The bytes of one access where it stands before other writes: those that none of them holds are written. -/
def writeHidden (op : OpId) (path : Path) (p : List WriteRec) : List ((Loc × W64) × Byte) → State → State
  | [], s => s
  | x :: xs, s =>
    writeHidden op path p xs
      (if p.any fun r => r.has x.1.1 then hideByte op.k path x.1.1 x.1.2 s else writeByte op.k path x.1.1 x.1.2 x.2 s)

/-- One contiguous access that writes, just before the writes that it passes (R113, R120). -/
def putAt (op : OpId) (path : Path) (rmw : Bool) (p : List WriteRec) (a : Loc) (va : W64) (bs : List Byte) (s : State) : State :=
  let as := locsFrom a bs.length
  let old := as.map fun x => (x, byteBefore s op.k p x)
  let p := p.filter fun r => as.any r.has
  if p.isEmpty then writeBytesFrom op path va 0 a bs (addRec op path rmw old s)
  else
    let vas := (List.range bs.length).map fun i => va + BitVec.ofNat 64 i
    writeHidden op path p ((as.zip vas).zip bs)
      { s with recs := sinkRec (fun r => as.any fun x => recMeets s op.k x r) ⟨op, path, rmw, old⟩ (as.zip bs) p.length s.recs }

/-- What each byte of a plain write comes before, and the free-value counter after the choices: each byte has its own (R120). -/
def passEach (know : List Crossing) (op : OpId) (path : Path) : List Loc → State → List (List WriteRec) × State
  | [], s => ([], s)
  | a :: as, s =>
    let (p, n) := passedBy know op path [a] s
    let (ps, s) := passEach know op path as { s with tick := n }
    (p :: ps, s)

/-- The bytes of a plain write put one by one. -/
def putEach (op : OpId) (path : Path) (va : W64) : Nat → List ((Loc × List WriteRec) × Byte) → State → State
  | _, [], s => s
  | i, x :: xs, s => putEach op path va (i + 1) xs (putAt op path false x.1.2 x.1.1 (va + BitVec.ofNat 64 i) [x.2] s)

/-- One contiguous plain write, each byte just before the writes that it passes; it ends the release sequences that it comes after (R115). -/
def putPlain (op : OpId) (path : Path) (ps : List (List WriteRec)) (a : Loc) (va : W64) (bs : List Byte) (s : State) : State :=
  let as := locsFrom a bs.length
  if ps.all List.isEmpty then putAt op path false [] a va bs (endRelsOf op (plainly as) s)
  else putEach op path va 0 ((as.zip ps).zip bs) (endRelsOf op ((as.zip ps).map fun x => passedOps x.2 x.1) s)

/-- One contiguous plain write by an op of a group, or of an agent with what it knows: each byte comes after all other writes of it, but for
those on other paths that R120 puts before or after it, unspecified. -/
def writeKnown (know : List Crossing) (op : OpId) (path : Path) (a : Loc) (va : W64) (bs : List Byte) (s : State) : State :=
  let (ps, s) := passEach know op path (locsFrom a bs.length) s
  putPlain op path ps a va bs s

/-- One contiguous plain write by an op of a group. -/
def writeAt (op : OpId) (path : Path) (a : Loc) (va : W64) (bs : List Byte) (s : State) : State := writeKnown [] op path a va bs s

/-- What a read-modify-write finds: the bytes before its write, the writes that it comes before, and the free-value counter after the
choices. Its bytes are read and written together, so that one place holds for all of them (R113). -/
structure RmwAt where
  bytes : List Byte
  passed : List WriteRec
  deriving DecidableEq, Repr

/-- The place of a read-modify-write of some bytes. -/
def rmwAt (know : List Crossing) (op : OpId) (path : Path) (as : List Loc) (s : State) : RmwAt × State :=
  let (p, n) := passedBy know op path as s
  (⟨as.map (byteBefore s op.k p), p⟩, { s with tick := n })

/-- What an agent that is no group knows, for its writes: it executes no XFENCE, so that it holds whatever path it was crossed onto. -/
def agentOrder (cs : List Crossing) : List Crossing := cs.map fun c => { c with onto := none, from_ := 0 }

/-- signal_add on a value (R107): the new value, and whether it clamped. -/
def signalNew (old d : W64) : W64 × Bool :=
  if old.toInt < 0 then (old, false)
  else if d.toInt < 0 then (d, false)
  else
    let v := old.toInt + d.toInt
    if 2 ^ 63 - 1 < v then (0x7FFFFFFFFFFFFFFF, true) else (BitVec.ofInt 64 v, false)

/-- Whether a replay task's group must not see a release at a location: on global memory only its own task's count (R124). -/
def relHidden (s : State) (k : Gid) (r : RelTag) : Bool :=
  (r.bytes.any fun b => b.home = .phys) && ((launch? s k.t.l).elim false fun l => l.replay) && r.by_.elim true (fun b => b.t ≠ k.t)

/-- Releases whose sequence an acquire of a group reads at some of these bytes (R115, R124), other than those of writes that it did
not see there. -/
def relsAt (s : State) (k : Gid) (as : List (Loc × List OpId)) : List RelTag :=
  s.rels.filter fun r => !relHidden s k r && as.any fun x => r.holds x.1 x.2

/-- Whether party b lies in the scope instance of a group (R112). -/
def inScope (sc : Scope) (a : Gid) (ca : Nat) (b : Gid) (cb : Nat) : Bool :=
  match sc with
  | .grp => a = b
  | .team => a.t = b.t
  | .clu => a.t.l.part = b.t.l.part && clusterOf ca = clusterOf cb
  | .die => a.t.l.part = b.t.l.part && dieOf ca = dieOf cb
  | .dev => a.t.l.part = b.t.l.part
  | .sys => a.t.l.part = b.t.l.part

/-- The included-inclusion test of R115. A release without a group is the host's (core 0) or a queue engine's (core 1). -/
def included (r : RelTag) (k : Gid) (core : Nat) (sc : Scope) : Bool :=
  match r.by_ with
  | some a => inScope r.scope a r.core k core && inScope sc k core a r.core
  | none => if r.core = 0 then sc = .sys else sc = .dev || sc = .sys

/-- Whether a group counts as exited for the rules that ask (R24): from the moment the slots of its EXIT word have executed. -/
def hasExited (g : Group) : Bool := g.exited || (g.pos = .seq && g.dec.any fun d => d.seq = .exit)

/-- The core a group runs on. -/
def coreOf (s : State) (k : Gid) : Nat := (team? s k.t).elim 0 Team.core

/-- Whether a release belongs to the contents a launch started with, which cause no mismatch (R116). -/
def beforeLaunch (s : State) (k : Gid) (r : RelTag) : Bool :=
  r.by_.elim true (fun b => b.t.l ≠ k.t.l) && (launch? s k.t.l).elim false fun l => r.at_ < l.begun

/-- Whether an acquire at a scope that found these releases is a scope mismatch (R116). -/
def missed (s : State) (k : Gid) (sc : Scope) (rs : List RelTag) : Bool :=
  rs.any fun r => !included r k (coreOf s k) sc && !beforeLaunch s k r

/-- What is learned holds from a program-order number on. -/
def learnAt (seq : Nat) (cs : List Crossing) : List Crossing := cs.map fun c => { c with from_ := seq }

/-- The acquire effect of a read with a program-order number that found these releases (R115, R116): what synchronises is learned; a
mismatch sets SCOPE_MISS. -/
def acquire (k : Gid) (sc : Scope) (seq : Nat) (rs : List RelTag) (s : State) : State :=
  let good := rs.filter fun r => included r k (coreOf s k) sc
  let miss := missed s k sc rs
  updGroup k (fun g =>
    let g := { g with crossed := (learnAt (seq + 1) (good.flatMap RelTag.know) ++ g.crossed).eraseDups,
                      observed := ((good.flatMap RelTag.seen).map (fun op => (⟨op, seq + 1⟩ : Observed)) ++ g.observed).eraseDups }
    if miss then raise flagSCOPE g else g) s

/-- The ops whose completion a group has observed before a program-order number (R120). -/
def seenBy (g : Group) (seq : Nat) : List OpId := (g.observed.filter fun o => o.from_ ≤ seq).map Observed.op

/-- What a release of a group brings to a party that is no group, which executes no XFENCE (R122): the group's lane-path writes before
it, and the writes of any path whose completion the group has observed before it. -/
def knowHost (s : State) (g : Group) (seq : Nat) : List Crossing :=
  (s.recs.filter fun r => (r.op.k = g.id && r.path = .lane && decide (r.op.seq ≤ seq)) || (seenBy g seq).contains r.op).map fun r =>
    ⟨r.op, r.path, some .host, none, 0, none⟩

/-- Whether a release carries a crossing: one onto the lane path or every path, one of a lane-path op or of an IMGST (R121). -/
def carried (c : Crossing) : Bool :=
  (c.onto.all fun q => q = .lane || q = .host) || (c.at_.isNone && (c.path = .lane || c.onto = some c.path))

/-- The deferred records that a group has made by lane-path ops up to a program-order number, as ops that come before what a release of it brings
(R114 item 3, R318). -/
def knowRecs (s : State) (g : Group) (seq : Nat) : List Crossing :=
  (((launch? s g.id.t.l).bind fun l => taskOf l g.id.t).elim [] fun t =>
    (t.recs.filter fun r => r.path = .lane && r.op.k = g.id && decide (r.op.seq ≤ seq)).map fun r =>
      (⟨r.op, .lane, some .lane, none, 0, none⟩ : Crossing)).eraseDups

/-- What a release of a group carries (R114 item 3, R120): what it has crossed onto the lane path, its lane-path ops crossed onto
others, its deferred records, and the IMGSTs it has issued (R121), all of it before the release in program order; and what it brings to the
host and the queue engines. -/
def knowOf (s : State) (g : Group) (seq : Nat) : List Crossing :=
  (g.crossed.filter fun c => decide (c.from_ ≤ seq) && carried c) ++ knowRecs s g seq ++ knowHost s g seq

/-- A release by an op's write of w bytes at a location (R115), with the plain writes of them that it comes before (R120). -/
def release (op : OpId) (sc : Scope) (a : Loc) (w : Nat) (ended : List (Loc × OpId)) (s : State) : State :=
  let know := (group? s op.k).elim [] fun g => knowOf s g op.seq
  { s with rels := { bytes := locsFrom a w, ended := ended, scope := sc, by_ := some op.k, op := op, core := coreOf s op.k, know := know, seen := [],
                     at_ := s.tick } :: s.rels }

/-- Whether what a group has acquired puts a record of another group before its op with a program-order number. -/
def redKnows (g : Group) (seq : Nat) (r : RedRec) : Bool :=
  r.path = .lane && g.crossed.any fun c => c.op = r.op && (c.onto.all fun q => q = .lane) && decide (c.from_ ≤ seq)

/-- The epoch of a group's next record: no lower than those of its own records, and above those of the records that come before it by what the
group has acquired. -/
def redEpoch (g : Group) (seq : Nat) (rs : List RedRec) : Nat :=
  rs.foldl (fun e r => if r.op.k = g.id then max e r.epoch else if redKnows g seq r then max e (r.epoch + 1) else e) 0

/-- The order of a task's records: by epoch, then by group number, then by program order (R318; DESIGN CHOICE, unsafe:
notes/assumptions/33.md). -/
def redLe (a b : RedRec) : Bool :=
  decide (a.epoch < b.epoch) || (a.epoch = b.epoch && (decide (a.op.k.num < b.op.k.num) || (a.op.k.num = b.op.k.num && decide (a.op.seq ≤ b.op.seq))))

/-- A group's next record in its place among its task's records. -/
def redAdd (g : Group) (r : RedRec) (rs : List RedRec) : List RedRec :=
  let r := { r with epoch := redEpoch g r.op.seq rs }
  rs.takeWhile (fun x => redLe x r) ++ r :: rs.dropWhile fun x => redLe x r

/-- A deferred reduction record of a group's task (R318). -/
def addRed (g : Group) (r : RedRec) (s : State) : State :=
  updLaunch g.id.t.l (updTask g.id.t.team fun t => { t with recs := redAdd g r t.recs }) s

/-- The record of a signal update by an op of a group (R107, R318). -/
def sigRec (g : Group) (path : Path) (addr : Nat) (va d : W64) : RedRec := ⟨addr, va, 8, 16, false, d, ⟨g.id, g.seqn⟩, path, 0⟩

/-- Whether it still matters that an op's completion is observed: some path may not see what it wrote, or a read of it counts (R117, R120). -/
def noted (s : State) (op : OpId) : Bool :=
  (s.recs.any fun r => r.op = op) || (allGroups s).any fun g => g.crossed.any fun c => c.by_ = some op

/-- A finished command's tag (R106); every op that finished on it before has finished too where it is found set (R120). -/
def commandTag (op : OpId) (tag : Option Nat) (s : State) : State :=
  match tag with
  | none => s
  | some n => updTeam op.k.t (fun t => { t with tags := t.tags.zipIdx.map fun e =>
      if e.2 = n then
        { pending := e.1.pending - 1, set := e.1.set || e.1.pending = 1, ops := op :: e.1.ops.filter (noted s) }
      else e.1 }) s

/-- A tag named at issue (R106). -/
def startTag (tag : Option Nat) (t : Team) : Team :=
  match tag with
  | none => t
  | some n => { t with tags := t.tags.zipIdx.map fun e =>
      if e.2 = n then { e.1 with pending := e.1.pending + 1, set := false } else e.1 }

/-- Whether one more op may name a tag (R106: a 64th pending op waits). -/
def tagRoom (tag : Option Nat) (t : Team) : Bool :=
  match tag with
  | none => true
  | some n => (t.tags.getD n ⟨0, false, []⟩).pending < 63

/-! ### Exceptions (R298 to R305) -/

/-- What a precise class records (R298, R301). -/
structure TrapI where
  cls : Nat
  field : Nat
  code : Nat
  lane : Nat
  faddr : W64
  fextra : W64
  deriving DecidableEq, Repr

/-- A class without information. -/
def TrapI.plain (cls : Nat) : TrapI := ⟨cls, 0, 0, 0, 0, 0⟩
/-- ILLEGAL_OP, class 4. -/
def trapIllegal : TrapI := .plain 4
/-- A class with a lane and a failing address (R298). -/
def TrapI.at_ (cls lane : Nat) (a : W64) : TrapI := ⟨cls, 0, 0, lane, a, 0⟩

/-- The completion-signal code of a class (R298). -/
def trapCode (cls : Nat) : W64 := BitVec.ofInt 64 (-64 - (cls : Int))

/-- A launch ends through a code: the first code stays (R107), every team is ended, nothing of it runs again (R298). -/
def endLaunch (k : Lid) (code : W64) (s : State) : State :=
  updLaunch k (fun l => if l.code_.isSome then l else { l with code_ := some code }) s

/-- The frame's bytes (R301). -/
def frameBytes (g : Group) (slotB : Bool) (word : W128) (i : TrapI) : List Byte :=
  ((List.range 8).flatMap fun j => leBytes 8 (getS g j).toNat) ++
  leBytes 8 (exm g).toNat ++ leBytes 8 (g.pc.toNat / 16 * 16 + (if slotB then 1 else 0)) ++
  leBytes 4 (getP g 0).toNat ++ leBytes 4 (getP g 1).toNat ++
  leBytes 1 i.cls ++ leBytes 1 i.field ++ leBytes 2 i.code ++ leBytes 1 i.lane ++ leBytes 3 0 ++
  leBytes 16 word.toNat ++ leBytes 8 i.faddr.toNat ++ leBytes 8 i.fextra.toNat ++ leBytes 128 0 ++
  ((List.range 4).flatMap fun j => (List.range 32).flatMap fun n => leBytes 4 (getLane g j n).toNat)

/-- Address of a handler that the image names for a class (R154, R156, R300). -/
def userHandler (l : Launch) (cls : Nat) : Option W64 :=
  let off := match cls with
    | 4 => l.kern.hIllegal
    | 5 => l.kern.hShape
    | 6 => l.kern.hRefine
    | _ => none
  off.map fun o => l.code + BitVec.ofNat 64 o

/-- Entering a handler: the frame is written to the handler area, the mode and the four registers change, the PC goes to the
user handler or to the partition's vector, and the group fetches there (R300). -/
def enterHandler (l : Launch) (vecbase : W64) (slotB : Bool) (word : W128) (i : TrapI) (g : Group) : Group :=
  let u := userHandler l i.cls
  let g := { g with harea := memPutBytes g.harea 0 (frameBytes g slotB word i), hmode := true, vec := u.isNone, cls := i.cls }
  let g := setS (setS (setS g 62 0xFFFFFFFF) 0 0x100000000) 1 (BitVec.ofNat 64 i.cls)
  { g with pc := u.getD vecbase, slotB := false, pos := .fetch, dec := none, wait := .none, park := none }

/-- The PC of the op in a slot: word address and slot bit (R126). -/
def opPc (g : Group) : W64 := (g.pc &&& 0xFFFFFFFFFFFFFFF0) + (if g.pos = .b then 1 else 0)

/-- The sequencer entry of a PC. -/
def ordEntry (t : Team) (pc : W64) : Option Nat := t.seqr.findIdx? fun e => e.pc = pc

/-- Rounds a group has completed on an entry. -/
def ordDone (t : Team) (e n : Nat) : Nat := ((t.seqr.getD e ⟨0, []⟩).done).getD n 0

/-- The round the group in focus would take at a PC. -/
def ordRound (s : State) (pc : W64) : Nat := (ordEntry s.t pc).elim 0 fun e => ordDone s.t e s.g.id.num

/-- ORD of an ATOM word (R217). -/
def memOrd (f : OpF) : Bool := f.imm.getLsbD 16

/-- The op in the slot of the group in focus. -/
def slotOp (g : Group) : Option (Op × OpF) :=
  match g.pos, g.dec with
  | .a, some d => d.a.op?
  | .b, some d => d.b.bind Instr.op?
  | _, _ => none

/-- The round that the op in the slot of the group in focus would take, if it is an ATOM.ord (R226, R308). -/
def slotRound (s : State) : Nat :=
  match slotOp s.g with
  | some (.atom, f) => if memOrd f then ordRound s (opPc s.g) else 0
  | _ => 0

/-- The bytes of a group's handler area that hold its frame (R301). -/
def frameLocs (k : Gid) : List Loc := locsFrom ⟨.handler k, 0⟩ 0x300

/-- Taking a precise class at a slot of the group in focus, its round kept for REPLAYQ (R308): in handler mode it is DOUBLE_FAULT and
ends the launch; else the frame is written before every later access to the handler area, on any path (R300). -/
def takeTrap (slotB : Bool) (word : W128) (i : TrapI) (s : State) : State :=
  if s.g.hmode then endLaunch s.l.id (trapCode 20) s
  else
    { settled (frameLocs s.g.id) s with g := enterHandler s.l s.p.regs.vecbase slotB word i { s.g with trapRound := slotRound s } }

/-- The return address form of a register value (R159): word address, slot bit; bits 3:1 ignored. -/
def fromReg (x : W64) : W64 × Bool := (x &&& 0xFFFFFFFFFFFFFFF0, x.getLsbD 0)

/-- A vector register from 128 bytes of a frame. -/
def frameVec (m : Mem) (at_ : Nat) : VReg := Vector.ofFn fun i => BitVec.ofNat 32 (memNat m (at_ + 4 * i.val) 4)

/-- Returning from an exception: what R305 restores from the frame. -/
def returnFromHandler (g : Group) : Group :=
  let f := g.harea
  let g := (List.range 8).foldl (fun g j => setS g j (BitVec.ofNat 64 (memNat f (8 * j) 8))) g
  let g := setS g 62 (BitVec.ofNat 64 (memNat f 0x40 4))
  let g := setP (setP g 0 (BitVec.ofNat 32 (memNat f 0x50 4))) 1 (BitVec.ofNat 32 (memNat f 0x54 4))
  let g := (List.range 4).foldl (fun g j => setV g j (frameVec f (0x100 + 128 * j))) g
  let (pc, b) := fromReg (BitVec.ofNat 64 (memNat f 0x48 8))
  { g with hmode := false, vec := false, cls := 0, pc := pc, slotB := b, pos := .fetch, dec := none }

/-! ### Results of an op's body -/

/-- How an op's body ends: with a result; issued and now blocking its group at the slot (R230); in a precise class; parked on a
translation fault (R296); or held at issue (R98, R100). -/
inductive Res (α : Type) where
  | ok (a : α)
  | block (t : State)
  | trap (i : TrapI)
  | park (p : Park)
  | hold

/-- Sequencing of bodies. -/
def Res.bind {α β : Type} (x : Res α) (f : α → Res β) : Res β :=
  match x with
  | .ok a => f a
  | .block t => .block t
  | .trap i => .trap i
  | .park p => .park p
  | .hold => .hold

/-- ILLEGAL_OP unless a condition holds. -/
def Res.require (b : Bool) : Res Unit := if b then .ok () else .trap trapIllegal

end Sys2Proof.Machine
end

