-- ==== Sys2Proof/Machine/Xlat.lean ====
section
/-!
DEFINITION. Translation (R292 to R295, R327) and the ordered checks on the addresses of an op (R97, R31, R302).
-/
namespace Sys2Proof.Machine

/-- What an access needs (R294). -/
structure Want where
  read : Bool
  write : Bool
  exec : Bool
  deriving DecidableEq, Repr

/-- How a translation ends: a physical address, or a fault with the level or the range entry that decided it and its REASON. -/
inductive XR where
  | ok (pa : Nat)
  | fault (level : Nat) (range : Option Nat) (reason : Nat)
  deriving DecidableEq, Repr

/-- What the tables hold for an address before the checks of an access: the entry that decides, with the physical address, key and
permissions it gives; or a fault of the walk. -/
inductive Entry where
  | leaf (level : Nat) (range : Option Nat) (pa key : Nat) (read write exec : Bool)
  | bad (level reason : Nat)
  deriving DecidableEq, Repr

/-- A well-formed global address: bits 63:56 all equal bit 55 (R97). -/
def wellFormed (va : W64) : Bool :=
  va.extractLsb' 56 8 = (if va.getLsbD 55 then (0xFF : BitVec 8) else 0)

/-- The grant that holds a physical address (R327). -/
def grantOf (p : Part) (pa : Nat) : Option Grant := p.grants.find? fun g => g.base ≤ pa && pa < g.base + g.size

/-- Whether a table entry of 8 bytes lies in memory of the partition: no partition reads another's memory (R328), and nothing lies
outside the grants that it may read (notes/assumptions/7.md). -/
def tableHeld (p : Part) (a : Nat) : Bool := (grantOf p a).isSome && (grantOf p (a + 7)).isSome

/-- Permissions, then key, then grants for an access of n bytes (R292, R294, R327): a grant is whole GiB, so its first and its last
byte decide. -/
def checkLeaf (p : Part) (w : Want) (n level : Nat) (range : Option Nat) (pa key : Nat) (r wr x : Bool) : XR :=
  if (w.read && !r) || (w.write && !wr) || (w.exec && !x) then .fault level range 1
  else if !p.keys.contains key then .fault level range 2
  else
    match grantOf p pa, grantOf p (pa + (n - 1)) with
    | some g, some h => if g.slot = key && h.slot = key then .ok pa else .fault level range 2
    | _, _ => .fault level range 1

/-- One entry of the range table as the walk sees it (R292). -/
structure RangeE where
  base : Nat
  limit : Nat
  offset : Nat
  ctl : Nat
  deriving DecidableEq, Repr

/-- Entry e of the range table. -/
def rangeEntry (m : Mem) (rtab e : Nat) : RangeE :=
  let a := rtab + 32 * e
  { base := memNat m a 8, limit := memNat m (a + 8) 8, offset := memNat m (a + 16) 8, ctl := memNat m (a + 24) 8 }

/-- A valid, well-formed entry that covers an address (R292: a malformed entry does not match). -/
def rangeMatches (e : RangeE) (va : Nat) : Bool :=
  e.ctl % 2 = 1 && bitsAt e.ctl 1 2 = 0 && bitsAt e.ctl 6 50 = 0 && bitsAt e.ctl 63 1 = 0 &&
  e.base % 4096 = 0 && e.limit % 4096 = 0 && e.base < e.limit && e.base ≤ va && va < e.limit

/-- Fields of a page-table entry (R293). -/
def pteBits (x : Nat) : Nat × Nat := (bitsAt x 12 32 * 4096, bitsAt x 56 7)

/-- A page-table entry that breaks a rule of R293 at its level; `first` is the first entry of its aligned group of 16.
CONTIG above L0, where it has no meaning, is such a breach (DESIGN CHOICE, unsafe: notes/assumptions/83.md). -/
def pteBad (level x first : Nat) (idx : Nat) : Bool :=
  let leaf := bitsAt x 2 1 = 1
  let contig := bitsAt x 6 1 = 1
  let pa := (pteBits x).1
  bitsAt x 63 1 ≠ 0 || bitsAt x 44 12 ≠ 0 || bitsAt x 7 5 ≠ 0 || bitsAt x 1 1 ≠ 0 ||
  (level = 0 && !leaf) || (level = 3 && leaf) || (contig && level ≠ 0) ||
  (leaf && level = 1 && pa % 2 ^ 21 ≠ 0) || (leaf && level = 2 && pa % 2 ^ 30 ≠ 0) ||
  (contig && level = 0 &&
    (bitsAt first 0 1 = 0 || bitsAt first 6 1 = 0 || bitsAt first 3 3 ≠ bitsAt x 3 3 || (pteBits first).2 ≠ (pteBits x).2 ||
     (pteBits first).1 % 2 ^ 16 ≠ 0 || pa ≠ (pteBits first).1 + (idx % 16) * 4096))

/-- The leaf that a page-table entry makes, its page of 2^shift bytes (R293). -/
def pteLeaf (level shift x va : Nat) : Entry :=
  .leaf level none ((pteBits x).1 + va % 2 ^ shift) (pteBits x).2 (bitsAt x 3 1 = 1) (bitsAt x 4 1 = 1) (bitsAt x 5 1 = 1)

/-- The page-table walk from a level down (R293); a table entry outside the partition's grants faults with REASON 1. -/
def walk (m : Mem) (p : Part) (va : Nat) : Nat → Nat → Entry
  | 0, table =>
    let idx := bitsAt va 12 9
    let a := table + 8 * idx
    if !tableHeld p a then .bad 0 1
    else
      let x := memNat m a 8
      if x % 2 = 0 then .bad 0 0
      else if pteBad 0 x (memNat m (table + 8 * (idx / 16 * 16)) 8) idx then .bad 0 3
      else pteLeaf 0 12 x va
  | l + 1, table =>
    let lv := l + 1
    let shift := 12 + 9 * lv
    let idx := if lv = 3 then bitsAt va 39 17 else bitsAt va shift 9
    let a := table + 8 * idx
    if !tableHeld p a then .bad lv 1
    else
      let x := memNat m a 8
      if x % 2 = 0 then .bad lv 0
      else if pteBad lv x 0 idx then .bad lv 3
      else if bitsAt x 2 1 = 1 then pteLeaf lv shift x va
      else walk m p va l (pteBits x).1

/-- What the tables give an address as they stand: the range table first, then the page tables (R292). RTAB and PTROOT are physical
addresses; a range entry outside the partition's grants does not match (notes/assumptions/7.md). -/
def lookup (m : Mem) (p : Part) (va : W64) : Entry :=
  let v := va.toNat
  let rt := p.regs.rtab.toNat
  match (List.range 64).find? fun e => tableHeld p (rt + 32 * e) && tableHeld p (rt + 32 * e + 24) && rangeMatches (rangeEntry m rt e) v with
  | some e =>
    let x := rangeEntry m rt e
    .leaf 0 (some e) ((v + x.offset) % 2 ^ 64) (bitsAt x.ctl 56 7) (bitsAt x.ctl 3 1 = 1) (bitsAt x.ctl 4 1 = 1) (bitsAt x.ctl 5 1 = 1)
  | none =>
    let root := p.regs.ptroot.toNat
    if root % 2 = 0 then .bad 3 0 else walk m p v 3 (bitsAt root 20 24 * 2 ^ 20)

/-- An access checked against what decides its translation. -/
def checkEntry (p : Part) (w : Want) (n : Nat) : Entry → XR
  | .leaf level range pa key r wr x => checkLeaf p w n level range pa key r wr x
  | .bad level reason => .fault level none reason

/-- A translation formed from the tables as they stand. -/
def freshXlat (m : Mem) (p : Part) (w : Want) (va : W64) (n : Nat) : XR := checkEntry p w n (lookup m p va)

/-- A cached translation as its entry would give it. -/
def Xlat.entry (x : Xlat) (va : W64) : Entry :=
  .leaf x.level x.range ((x.pa + va.toNat % 4096) % 2 ^ 64) x.key x.read x.write x.exec

/-- The translation of an access of n bytes within one page: a cached one may serve in place of the tables until TINV (R295). -/
def xlat (s : State) (p : Part) (w : Want) (va : W64) (n : Nat) : XR :=
  match p.tlb.find? fun x => x.vpn = va.toNat / 4096 with
  | some x => if Config.freeXlat s.tick va.toNat then checkEntry p w n (x.entry va) else freshXlat s.hbm p w va n
  | none => freshXlat s.hbm p w va n

/-- One access an op forms, before its checks: role 0 source, 1 destination, 2 signal (R97). -/
structure Req where
  lane : Nat
  role : Nat
  sub : Nat
  sp : Space
  addr : W64
  w : Nat
  rd : Bool
  wr : Bool
  data : BitVec 128
  exp : W64
  deriving DecidableEq, Repr

/-- Of two failing accesses, the one R97 reports: lowest lane, then source before destination before signal, then lowest
address, compared without a sign (DESIGN CHOICE, unsafe: notes/assumptions/78.md). -/
def reqFirst (a b : Req) : Bool :=
  a.lane < b.lane || (a.lane = b.lane && (a.role < b.role || (a.role = b.role && a.addr.toNat ≤ b.addr.toNat)))

/-- The access that a check reports among those it fails for. -/
def worst (bad : Req → Bool) (rs : List Req) : Option Req :=
  rs.foldl (fun acc r => if bad r then (match acc with
    | none => some r
    | some a => if reqFirst a r then some a else some r) else acc) none

/-- Base of the handler window in .b (R302). -/
def handlerBase : Nat := 0x100000000

/-- Bytes of an allocation (R94). -/
def allocOf (l : Launch) : Space → Nat
  | .b => l.kern.bench
  | .l => l.kern.loft
  | .y => l.kern.yard
  | .g => 0

/-- Check 4 of R97: every byte inside the allocation, or inside the handler area in handler mode (R302). -/
def inBounds (g : Group) (l : Launch) (r : Req) : Bool :=
  match r.sp with
  | .g => true
  | .b =>
    if g.hmode && handlerBase ≤ r.addr.toNat then r.addr.toNat + r.w ≤ handlerBase + 2048
    else r.addr.toNat + r.w ≤ l.kern.bench
  | sp => r.addr.toNat + r.w ≤ allocOf l sp

/-- Where a scratchpad access lands (R95, R36, R302). -/
def scratchLoc (g : Group) (t : Team) (l : Launch) (r : Req) : Loc :=
  match r.sp with
  | .b =>
    if g.hmode && handlerBase ≤ r.addr.toNat then ⟨.handler g.id, r.addr.toNat - handlerBase⟩
    else ⟨.bench t.id, r.addr.toNat⟩
  | .l => ⟨if l.replay then .taskLoft t.id else .loft l.id (clusterOf t.core), r.addr.toNat⟩
  | .y => ⟨if l.replay then .taskYard t.id else .yard l.id (dieOf t.core), r.addr.toNat⟩
  | .g => ⟨.phys, r.addr.toNat⟩

/-- Whether a launch's tasks declare regions (R29, R315). -/
def hasRegions (l : Launch) : Bool := l.tasks.any fun t => !t.reads.isEmpty || !t.writes.isEmpty

/-- The first byte of a global write outside all write regions of the task (R31). -/
def outsideRegion (l : Launch) (k : Tid) (r : Req) : Option Nat :=
  if r.sp = .g && r.wr && l.replay && hasRegions l then
    match taskOf l k with
    | none => none
    | some t => (List.range r.w).find? fun i =>
        !(t.writes.any fun e => e.1.toNat ≤ r.addr.toNat + i && r.addr.toNat + i < e.1.toNat + e.2.toNat)
  else none

/-- Global accesses with their translations. -/
def reqXlat (s : State) (r : Req) : XR :=
  if r.sp = .g then xlat s s.p ⟨r.rd, r.wr, false⟩ r.addr r.w else .ok 0

/-- The KIND code of FBDATA1 (R297). -/
def kindCode (r : Req) : Nat := if r.rd && r.wr then 2 else if r.wr then 1 else 0

/-- A parked record for a failing access (R296, R297). -/
def parkOf (path : Nat) (kind : Nat) (va : W64) (level : Nat) (range : Option Nat) (reason : Nat) : Park :=
  { va := va, path := path, kind := kind, level := if range.isSome then 0 else level, range := range, reason := reason,
    entry := none, failed := false }

/-- The resolved access. -/
def reqAcc (s : State) (r : Req) : Acc :=
  { lane := r.lane, sub := r.sub,
    loc := match reqXlat s r with
      | .ok pa => if r.sp = .g then ⟨.phys, pa⟩ else scratchLoc s.g s.t s.l r
      | _ => scratchLoc s.g s.t s.l r,
    va := r.addr, w := r.w, data := r.data, exp := r.exp }

/-- Whether a translation failed with a fault. -/
def xrFaults : XR → Bool
  | .fault .. => true
  | _ => false

/-- The record of an access whose translation failed. -/
def faultPark (path kind : Nat) (va : W64) : XR → Park
  | .fault level range reason => parkOf path kind va level range reason
  | .ok _ => parkOf path kind va 0 none 0

/-- Checks 2 and 3 of R97, with the alignment given per access. -/
def checkForm (al : Req → Nat) (rs : List Req) : Res Unit :=
  match worst (fun r => r.addr.toNat % al r ≠ 0) rs with
  | some r => .trap (.at_ 8 r.lane r.addr)
  | none =>
    match worst (fun r => r.sp = .g && !wellFormed r.addr) rs with
    | some r => .trap (.at_ 9 r.lane r.addr)
    | none => .ok ()

/-- The region test of R31, then checks 4 and 5 of R97; a translation fault parks (R296). -/
def checkReach (s : State) (path : Nat) (rs : List Req) : Res (List Acc) :=
  match worst (fun r => (outsideRegion s.l s.g.id.t r).isSome) rs with
  | some r => .trap (.at_ 16 r.lane (r.addr + BitVec.ofNat 64 ((outsideRegion s.l s.g.id.t r).getD 0)))
  | none =>
    match worst (fun r => !inBounds s.g s.l r) rs with
    | some r => .trap (.at_ 10 r.lane r.addr)
    | none =>
      match worst (fun r => xrFaults (reqXlat s r)) rs with
      | some r => .park (faultPark path (kindCode r) r.addr (reqXlat s r))
      | none => .ok (rs.map (reqAcc s))

/-- Checks 2 to 5 of R97 over every access of an op; the width is the alignment. -/
def checkReqs (s : State) (path : Nat) (rs : List Req) : Res (List Acc) :=
  (checkForm Req.w rs).bind fun _ => checkReach s path rs

/-- A run of n accesses of w bytes from an address on. -/
def reqRun (lane role : Nat) (sp : Space) (addr : W64) (w n : Nat) (rd wr : Bool) : List Req :=
  (List.range n).map fun i =>
    { lane := lane, role := role, sub := i, sp := sp, addr := addr + BitVec.ofNat 64 (w * i), w := w, rd := rd, wr := wr,
      data := 0, exp := 0 }

/-- The bytes of resolved accesses in order. -/
def accLocs (as : List Acc) : List Loc := as.flatMap fun a => locsFrom a.loc a.w

/-- A space code (R165, R199, R217). -/
def spaceOf (q : Nat) : Space :=
  match q % 4 with
  | 0 => .g | 1 => .b | 2 => .l | _ => .y

/-- A scope code below 6 (R217). -/
def scopeOf (n : Nat) : Scope :=
  match n with
  | 0 => .grp | 1 => .team | 2 => .clu | 3 => .die | 4 => .dev | _ => .sys

end Sys2Proof.Machine
end

