-- ==== Sys2Proof/Machine/Legal.lean ====
section
/-!
DEFINITION. What each op makes of its fields (R132 to R137, R165, R181, R187, R193, R199, R216, R230, R237, R304), as one table
`opSpec`, and the legality checks that the table decides (R139). Rules that read a field word, a memory word or a control word
stand with the op's meaning.
-/
namespace Sys2Proof.Machine

/-- The operand kind of DST (R133): the register kind, `R` read only, `RW` read and written; `Sp` adds a space in bits 7:6. -/
inductive DK where
  | none | vec | vecR | vecRW | scl | sclR | sclRW | sclSp | sclSpR | condPair | predPair | prd | cnd | lc
  | acc | accRW | accSp | accSpR | map | mapRW | mapSp | mapSpR | space | barId | ringBit
  deriving DecidableEq, Repr

/-- The operand kind of a source field (R133, R134). `sc imm arith`: a scalar, perhaps the immediate, perhaps with negate and
absolute value. `vec maps imm arith`: a vector register or a broadcast scalar, perhaps mapped, perhaps the immediate.
`vb imm`: the offset or data of a memory op. `raw` is a field with a layout of its own. -/
inductive FK where
  | none
  | sc (imm arith : Bool)
  | hash
  | vec (maps imm arith : Bool)
  | vreg
  | vregRW
  | bc
  | vb (imm : Bool)
  | prd | cnd | lc | acc | map | raw
  deriving DecidableEq, Repr

/-- Which types an op accepts (R137, R173, R179, R207). -/
inductive TyRule where
  | none | int | flt | flt3 | any | cvt | scvt | quant | dequant
  deriving DecidableEq, Repr

/-- What a long op's bits 31:0 hold (R132, R135): nothing; an untyped immediate; one type and an immediate; one type and fields
of the op's own; two types and fields of the op's own; a layout of the op's own. -/
inductive ImmK where
  | zero | imm | typed | typedOwn | typed2 | own
  deriving DecidableEq, Repr

/-- What OPT means in the short form (R131). -/
inductive OptK where
  | no | sat | own
  deriving DecidableEq, Repr

/-- The fields of one op. -/
structure OpSpec where
  dst : DK := .none
  a : FK := .none
  b : FK := .none
  c : FK := .none
  ty : TyRule := .none
  imm : ImmK := .zero
  opt : OptK := .no
  satL : Bool := false
  rnd : Bool := false
  deriving DecidableEq, Repr

/-- Class 0 (R163 to R177). -/
def spec0 (o : Op) : OpSpec :=
  match o with
  | .sli => { dst := .scl, a := .hash, imm := .imm }
  | .slih => { dst := .sclRW, a := .sc true false, imm := .imm }
  | .smov => { dst := .scl, a := .sc true true, imm := .imm }
  | .sadd | .ssub | .smul =>
    { dst := .scl, a := .sc true true, b := .sc true true, imm := .imm, opt := .sat, satL := true }
  | .smulhi | .sdiv | .srem | .smin | .smax =>
    { dst := .scl, a := .sc true true, b := .sc true true, imm := .imm, opt := .own }
  | .sand | .sor | .sxor | .sshl | .srot => { dst := .scl, a := .sc true false, b := .sc true false, imm := .imm }
  | .sshr => { dst := .scl, a := .sc true false, b := .sc true false, imm := .imm, opt := .own }
  | .scmp => { dst := .condPair, a := .sc true true, b := .sc true true, imm := .imm, opt := .own }
  | .ssel => { dst := .scl, a := .sc true false, b := .sc true false, c := .cnd, imm := .imm }
  | .sbfx => { dst := .scl, a := .sc false false, imm := .own }
  | .sbfi => { dst := .sclRW, a := .sc false false, imm := .own }
  | .spopc | .sclz | .sctz => { dst := .scl, a := .sc false false }
  | .sadda => { dst := .scl, a := .sc false true, b := .sc false true, imm := .own }
  | .sld => { dst := .sclSp, a := .sc true false, b := .sc true false, imm := .own }
  | .sst => { dst := .sclSpR, a := .sc true false, b := .sc true false, imm := .own }
  | .sfadd | .sfmul =>
    { dst := .scl, a := .sc true true, b := .sc true true, ty := .flt3, imm := .typed, opt := .sat, satL := true, rnd := true }
  | .sfma =>
    { dst := .scl, a := .sc true true, b := .sc true true, c := .sc true true, ty := .flt3, imm := .typed, satL := true,
      rnd := true }
  | .sfcmp => { dst := .condPair, a := .sc true true, b := .sc true true, ty := .flt3, imm := .typedOwn, opt := .own }
  | .scvt => { dst := .scl, a := .sc false true, ty := .scvt, imm := .typed2, satL := true, rnd := true }
  | .kand | .kor | .kxor => { dst := .cnd, a := .cnd, b := .cnd, opt := .own }
  | .nset => { dst := .lc, a := .sc true false, imm := .imm }
  | .nget => { dst := .scl, a := .lc }
  | .clkr => { dst := .scl }
  | .idr => { dst := .scl, imm := .own }
  | .trap => { a := .sc true false, imm := .imm }
  | _ => {}

/-- Class 1 (R181). -/
def spec1 (o : Op) : OpSpec :=
  match o with
  | .vmov => { dst := .vec, a := .vec true true true, ty := .int, imm := .typed }
  | .vli => { dst := .vec, a := .hash, imm := .imm }
  | .vlane => { dst := .vec, imm := .own }
  | .vadd | .vsub | .vmul =>
    { dst := .vec, a := .vec true true true, b := .vec true true true, ty := .int, imm := .typed, opt := .sat, satL := true }
  | .vmulhi | .vmin | .vmax | .vabsdiff =>
    { dst := .vec, a := .vec true true true, b := .vec true true true, ty := .int, imm := .typed }
  | .vmad =>
    { dst := .vec, a := .vec true true true, b := .vec true true true, c := .vec true true true, ty := .int, imm := .typed,
      satL := true }
  | .vand | .vor | .vxor =>
    { dst := .vec, a := .vec true true false, b := .vec true true false, ty := .int, imm := .typed }
  | .vshl | .vshr | .vrot =>
    { dst := .vec, a := .vec true true false, b := .vec false true false, ty := .int, imm := .typed }
  | .vbfx => { dst := .vec, a := .vec true false false, ty := .int, imm := .typedOwn }
  | .vbfi => { dst := .vecRW, a := .vec true false false, ty := .int, imm := .typedOwn }
  | .vpopc | .vclz => { dst := .vec, a := .vec true false false, ty := .int, imm := .typed }
  | .vcmp =>
    { dst := .predPair, a := .vec true true true, b := .vec true true true, ty := .int, imm := .typedOwn, opt := .own }
  | .vsel =>
    { dst := .vec, a := .vec true true true, b := .vec true true true, c := .prd, ty := .int, imm := .typed }
  | _ => {}

/-- Class 2 (R187). -/
def spec2 (o : Op) : OpSpec :=
  match o with
  | .vfadd | .vfsub | .vfmul =>
    { dst := .vec, a := .vec true true true, b := .vec true true true, ty := .flt, imm := .typed, opt := .sat, satL := true,
      rnd := true }
  | .vfma =>
    { dst := .vec, a := .vec true true true, b := .vec true true true, c := .vec true true true, ty := .flt, imm := .typed,
      satL := true, rnd := true }
  | .vfmin | .vfmax => { dst := .vec, a := .vec true true true, b := .vec true true true, ty := .flt, imm := .typed }
  | .vfcmp =>
    { dst := .predPair, a := .vec true true true, b := .vec true true true, ty := .flt, imm := .typedOwn, opt := .own }
  | .vfrnd => { dst := .vec, a := .vec true false true, ty := .flt, imm := .typed, rnd := true }
  | .vfclass => { dst := .vec, a := .vec true false true, ty := .flt, imm := .typed }
  | .vfscale =>
    { dst := .vec, a := .vec true true true, b := .vec false true false, ty := .flt, imm := .typed, opt := .sat, satL := true,
      rnd := true }
  | .vcvt | .vunpack => { dst := .vec, a := .vec true false true, ty := .cvt, imm := .typed2, satL := true, rnd := true }
  | .vpack => { dst := .vecRW, a := .vec true false true, ty := .cvt, imm := .typed2, satL := true, rnd := true }
  | .vexp2 | .vlog2 | .vrcp | .vrsq | .vsqrt | .vtanh | .vsin | .vcos =>
    { dst := .vec, a := .vec true true true, ty := .flt3, imm := .typed, opt := .sat, satL := true, rnd := true }
  | .vdiv =>
    { dst := .vec, a := .vec true true true, b := .vec true true true, ty := .flt3, imm := .typed, satL := true, rnd := true }
  | _ => {}

/-- Class 3 (R193). -/
def spec3 (o : Op) : OpSpec :=
  match o with
  | .vlred | .vlscan => { dst := .vec, a := .vec true false true, ty := .any, imm := .typedOwn, satL := true }
  | .vballot => { dst := .scl, a := .prd }
  | .vpermx => { dst := .vec, a := .vreg, b := .vreg }
  | .vextr => { dst := .scl, a := .vreg, b := .sc true false, imm := .imm }
  | .vinsr => { dst := .vec, a := .sc true false, b := .sc true false, imm := .imm }
  | .vrdx => { dst := .vec, a := .sc true false, imm := .imm }
  | .vwrx => { a := .sc true false, b := .vreg, imm := .imm }
  | .pand | .por | .pxor => { dst := .prd, a := .prd, b := .prd, opt := .own }
  | _ => {}

/-- Class 4 (R199). MAPGEN's source a is read by .diag only (R204) and is checked with the op. -/
def spec4 (o : Op) : OpSpec :=
  match o with
  | .mapld => { dst := .mapSp, a := .sc false false, b := .sc false false, imm := .own }
  | .mapst => { dst := .mapSpR, a := .sc false false, imm := .own }
  | .mapgen => { dst := .map, a := .vreg, imm := .own }
  | .mapset => { dst := .map, a := .sc false false }
  | .mapbind => { dst := .map, a := .map, b := .sc true false, imm := .imm }
  | .mapstr => { dst := .map, a := .sc false false, b := .sc false false, imm := .own }
  | .mapadv | .maprel => { dst := .mapRW }
  | .aclr => { dst := .acc }
  | .amac => { dst := .accRW, a := .vec true true true, ty := .any, imm := .typed }
  | .aadd => { dst := .acc, a := .acc, b := .acc }
  | .ain => { dst := .acc, a := .vec false true false, ty := .any, imm := .typed }
  | .aout => { dst := .vec, a := .acc, ty := .any, imm := .typedOwn, satL := true }
  | .ascale => { dst := .acc, a := .acc, b := .vec false true false, imm := .imm }
  | .asave => { dst := .accSpR, a := .sc false false, imm := .own }
  | .aload => { dst := .accSp, a := .sc false false, imm := .own }
  | .qscan => { dst := .vec, a := .vreg, ty := .quant, imm := .typed2 }
  | .qpack => { dst := .vecRW, a := .vreg, b := .vregRW, ty := .quant, imm := .typed2 }
  | .qunpack => { dst := .vec, a := .vreg, b := .vreg, ty := .dequant, imm := .typed2 }
  | _ => {}

/-- Class 5 (R216). The base of CPY and TMOV stands in DST. -/
def spec5 (o : Op) : OpSpec :=
  match o with
  | .vld => { dst := .vec, a := .bc, b := .vb true, imm := .own, opt := .own }
  | .vst => { dst := .vecR, a := .bc, b := .vb true, imm := .own, opt := .own }
  | .cpy => { dst := .sclSpR, a := .vb false, b := .sc false false, c := .vb false, imm := .own }
  | .tmov => { dst := .sclSpR, a := .sc false false, b := .sc false false, imm := .own }
  | .atom => { dst := .vecRW, a := .bc, b := .vb false, c := .vb false, imm := .own }
  | .ared => { a := .bc, b := .vb false, c := .vb false, imm := .own }
  | .fence | .xfence => { imm := .own }
  | .promote => { a := .sc true false, imm := .imm }
  | _ => {}

/-- Class 6 (R230, R237). -/
def spec6 (o : Op) : OpSpec :=
  match o with
  | .wait => { a := .raw, b := .raw }
  | .twany | .twall => { a := .sc true false, imm := .imm }
  | .tfirst => { dst := .scl, a := .sc true false, imm := .imm }
  | .sigadd => { dst := .space, a := .sc false false, b := .sc true false, c := .raw, imm := .imm }
  | .sigwait => { dst := .sclSp, a := .sc false false, b := .sc true false, c := .raw, imm := .imm }
  | .ringput | .ringputFree => { dst := .ringBit, a := .sc true false, imm := .imm }
  | .ringget => { dst := .scl, a := .sc true false, b := .sc true false, imm := .imm }
  | .ringexp => { a := .sc true false, b := .sc true false, imm := .imm }
  | .bar => { dst := .barId }
  | .roleq => { a := .sc true false, imm := .imm }
  | .bob => { a := .sc false false, imm := .own }
  | .bobq | .symq | .rftest => { dst := .scl, a := .sc true false, imm := .imm }
  | .rfbegin => { a := .sc false false }
  | .imgst => { a := .vreg, b := .vreg, imm := .own }
  | _ => {}

/-- Class 7 (R304). -/
def spec7 (o : Op) : OpSpec :=
  match o with
  | .srd => { dst := .scl, a := .sc true false, imm := .imm }
  | .swr => { a := .sc true false, b := .sc true false, imm := .imm }
  | .replayq => { dst := .scl, a := .sc true false, imm := .imm }
  | _ => {}

/-- The class of an op (R141). -/
def opClass (o : Op) : Nat := ((longOpcode o 0).getD 0x380) / 128

/-- Whether an op is a hint (R147). -/
def isHint (o : Op) : Bool := o = .nop || o = .yield

/-- The fields of an op. -/
def opSpec (o : Op) : OpSpec :=
  match opClass o with
  | 0 => spec0 o
  | 1 => spec1 o
  | 2 => spec2 o
  | 3 => spec3 o
  | 4 => spec4 o
  | 5 => spec5 o
  | 6 => spec6 o
  | _ => spec7 o

/-! ### Types -/

/-- The code of TYPE0: in the opcode of a short op, in bits 27:24 of a long one (R132, R141); f32 for a short scalar float op
(R172). -/
def ty0Code (f : OpF) : Nat := if f.form = .long then (f.imm.extractLsb' 24 4).toNat else f.sub.toNat % 16
/-- The code of TYPE1 (R132). -/
def ty1Code (f : OpF) : Nat := if f.form = .long then (f.imm.extractLsb' 28 4).toNat else 0
/-- TYPE0. -/
def ty0 (f : OpF) : Ty := tyOfCode (ty0Code f)
/-- TYPE1. -/
def ty1 (f : OpF) : Ty := tyOfCode (ty1Code f)
/-- IMM24 of a typed long op (R132). -/
def imm24 (f : OpF) : Nat := (f.imm.extractLsb' 0 24).toNat

/-- f32, f16 or bf16. -/
def Ty.isF3 : Ty → Bool
  | .f32 | .f16 | .bf16 => true
  | _ => false

/-- A type other than the picot and the 4-bit types (R173). -/
def Ty.scalar (t : Ty) : Bool := !t.isPicot && t ≠ .i4 && t ≠ .n4

/-- Whether an op accepts its types (R173, R179, R207, R212). -/
def tyOk (r : TyRule) (f : OpF) : Bool :=
  match r with
  | .none => true
  | .int => (ty0 f).isInt
  | .flt => (ty0 f).isFloat
  | .flt3 => (ty0 f).isF3
  | .any => !(ty0 f).isPicot
  | .cvt => !(ty0 f).isPicot && !(ty1 f).isPicot
  | .scvt => (ty0 f).scalar && (ty1 f).scalar && ty0 f ≠ ty1 f && !((ty0 f).isInt && (ty1 f).isInt && (ty0 f).bits = 32 && (ty1 f).bits = 32)
  | .quant => (ty0 f).isPicot && (ty1 f).isF3
  | .dequant => (ty0 f).isF3 && (ty1 f).isPicot

/-! ### Immediates (R134, R135) -/

/-- The immediate code in a source field, whatever its negate and absolute-value bits. -/
def isImm (x : Src) : Bool := x.map = 15 && x.reg = 0xC0

/-- A kind that takes the immediate code. -/
def FK.takesImm : FK → Bool
  | .sc i _ => i
  | .hash => true
  | .vec _ i _ => i
  | .vb i => i
  | _ => false

/-- A kind whose immediate is a vector one. -/
def FK.isVec : FK → Bool
  | .vec .. => true
  | .vb _ => true
  | _ => false

/-- Whether the word offers an immediate: not in a paired word, and not where a long op uses bits 31:0 otherwise (R134). -/
def immAvail (sp : OpSpec) (f : OpF) : Bool :=
  match f.form with
  | .short => false
  | .literal => true
  | .long => sp.imm = .imm || sp.imm = .typed

/-- The three source fields with their kinds. -/
def srcs (sp : OpSpec) (f : OpF) : List (FK × Src) := [(sp.a, f.a), (sp.b, f.b), (sp.c, f.c)]

/-- Whether some field presents the immediate. -/
def usesImm (sp : OpSpec) (f : OpF) : Bool := (srcs sp f).any fun x => x.1.takesImm && isImm x.2

/-- Bits 31:0 of a long op where they carry an immediate or nothing (R132, R163), and the placement rules of R135. A scalar float op takes
an immediate with a 16-bit type only (R165, R172). -/
def immOk (sp : OpSpec) (f : OpF) : Bool :=
  match f.form with
  | .short => true
  | .literal => !((srcs sp f).any fun x => x.1.isVec && x.1.takesImm && isImm x.2) || f.lit.toNat < 2 ^ 32
  | .long =>
    match sp.imm with
    | .zero => f.imm = 0
    | .imm => usesImm sp f || f.imm = 0
    | .typed => ty1Code f = 0 &&
        (if usesImm sp f then
          match (ty0 f).bits with
          | 32 => !((srcs sp f).any fun x => !x.1.isVec && isImm x.2)
          | 16 => imm24 f < 2 ^ 16
          | 8 => imm24 f < 2 ^ 8
          | _ => imm24 f < 2 ^ 4
         else imm24 f = 0)
    | .typedOwn => ty1Code f = 0
    | .typed2 => true
    | .own => true

/-! ### Register fields -/

/-- The width code of a memory op: the selector bits of a short VLD or VST, bits 31:29 of a long one (R146, R217). -/
def memW (f : OpF) : Nat := if f.form = .long then (f.imm.extractLsb' 29 3).toNat else f.sub.toNat / 4
/-- The space code of a memory op (R146, R217). -/
def memQ (f : OpF) : Nat := if f.form = .long then (f.imm.extractLsb' 27 2).toNat else f.sub.toNat % 4

/-- Registers spanned by an element of a memory width (R219). -/
def spanW (w : Nat) : Nat := if w = 3 then 2 else if w = 4 then 4 else 1

/-- Registers spanned by DST (R207, R211, R219, R223). -/
def dstCount (o : Op) (f : OpF) : Nat :=
  match o with
  | .vld | .vst | .atom => spanW (memW f)
  | .amac | .ain => (ty0 f).count
  | .asave | .aload => (f.imm.extractLsb' 26 6).toNat + 1
  | _ => 1

/-- Registers spanned by source a (R207, R250). -/
def aCount (o : Op) (f : OpF) : Nat :=
  match o with
  | .aout => (ty0 f).count
  | .imgst => if (f.imm.extractLsb' 29 3).toNat = 3 then 2 else 1
  | _ => 1

/-- Registers spanned by source c (R223): .b64 data in a vector register. -/
def cCount (o : Op) (f : OpF) : Nat :=
  match o with
  | .atom | .ared => spanW (memW f)
  | _ => 1

/-- A vector register field that spans n registers (R21, R219). -/
def vecOk (l : Launch) (n r : Nat) : Bool := r % n = 0 && r + n ≤ l.kern.regs

/-- An accumulator field that spans n accumulators (R65, R199, R207). -/
def accOk (l : Launch) (n r : Nat) : Bool := r < 64 && r + n ≤ l.kern.accs

/-- A map-number operand (R49, R133). -/
def mapOk (l : Launch) (r : Nat) : Bool := 0 < r && r < 15 && r ≤ l.kern.maps

/-- Whether DST names what its kind allows (R133). -/
def dstOk (l : Launch) (n : Nat) (k : DK) (d : BitVec 8) : Bool :=
  let r := d.toNat
  match k with
  | .none => r = 0
  | .vec | .vecR | .vecRW => vecOk l n r
  | .scl | .sclR | .sclRW => r < 64
  | .sclSp | .sclSpR => true
  | .condPair | .predPair => true
  | .prd | .cnd => r < 8
  | .lc => r < 4
  | .acc | .accRW => accOk l n r
  | .accSp | .accSpR => accOk l n (r % 64)
  | .map | .mapRW => mapOk l r
  | .mapSp | .mapSpR => r / 16 % 4 = 0 && mapOk l (r % 16)
  | .space => r % 64 = 0
  | .barId => r < 8
  | .ringBit => r < 2

/-- No map number and no sign bits. -/
def plain (x : Src) : Bool := x.map = 0 && !x.neg && !x.abs

/-- A broadcast scalar (R134). -/
def isBc (x : Src) : Bool := x.map = 15 && x.reg.toNat < 64

/-- Whether a source field names what its kind allows (R133, R134); the rules of R59 for a map number come with delivery. -/
def srcOk (l : Launch) (avail : Bool) (n : Nat) (k : FK) (x : Src) : Bool :=
  let r := x.reg.toNat
  match k with
  | .none => x = Src.none
  | .sc imm arith =>
    (arith || (!x.neg && !x.abs)) && ((x.map = 0 && r < 64) || (imm && avail && isImm x))
  | .hash => avail && isImm x && !x.neg && !x.abs
  | .vec maps imm arith =>
    (arith || (!x.neg && !x.abs)) &&
      ((x.map = 0 && vecOk l n r) || isBc x || (imm && avail && isImm x) ||
        (maps && 0 < x.map.toNat && x.map.toNat < 15 && vecOk l n r))
  | .vreg | .vregRW => plain x && vecOk l n r
  | .bc => isBc x && !x.neg && !x.abs
  | .vb imm => !x.neg && !x.abs && ((x.map = 0 && vecOk l n r) || isBc x || (imm && avail && isImm x))
  | .prd | .cnd => plain x && r < 8
  | .lc => plain x && r < 4
  | .acc => plain x && accOk l n r
  | .map => plain x && mapOk l r
  | .raw => true

/-- OPT, SAT, RND and bit 35 (R131, R132). -/
def optOk (sp : OpSpec) (f : OpF) : Bool :=
  match f.form with
  | .long => !f.rsv && (sp.satL || !f.sat) && (sp.rnd || f.rnd = 0)
  | _ => sp.opt ≠ .no || !f.opt

/-- MAPGEN reads source a for .diag only, and the field is zero otherwise (R204). -/
def spec (o : Op) (f : OpF) : OpSpec :=
  if o = .mapgen && (f.imm.extractLsb' 0 4).toNat ≠ 5 then { opSpec o with a := .none } else opSpec o

/-- The checks of R132 to R137 on an op that would execute: ILLEGAL_OP where this is false. -/
def legal (l : Launch) (o : Op) (f : OpF) : Bool :=
  let sp := spec o f
  let av := immAvail sp f
  tyOk sp.ty f && optOk sp f && immOk sp f && dstOk l (dstCount o f) sp.dst f.dst &&
    srcOk l av (aCount o f) sp.a f.a && srcOk l av 1 sp.b f.b && srcOk l av (cCount o f) sp.c f.c

/-! ### Guards (R136) -/

/-- Whether an op's guard names a condition register. -/
def guardK (o : Op) : Bool := opClass o = 0 || opClass o = 7

/-- Active lanes under a guard predicate (R11, R136). -/
def activeMask (g : Group) (guard : BitVec 4) : W32 :=
  let p := getP g (guard.extractLsb' 0 3).toNat
  exm g &&& (if guard.getLsbD 3 then ~~~p else p)

/-- The value of a guard condition after negation. -/
def guardCond (g : Group) (guard : BitVec 4) : Bool :=
  getK g (guard.extractLsb' 0 3).toNat != guard.getLsbD 3

/-- Whether a guard lets an op of a class with that kind of guard execute. -/
def guardHolds (isK : Bool) (g : Group) (guard : BitVec 4) : Bool :=
  if isK then guardCond g guard else activeMask g guard ≠ 0

/-- Whether an op would execute (R136). -/
def would (o : Op) (f : OpF) (g : Group) : Bool := guardHolds (guardK o) g f.guard

end Sys2Proof.Machine
end

