-- ==== Sys2Proof/Machine/Pair.lean ====
section
/-!
DEFINITION. Which registers an op reads and writes by its encoding (R46, R138), the pairing rules of R138, and the wait of an op
for an unretired load of a register it names (R100).
-/
namespace Sys2Proof.Machine

/-- A register of any kind; `vall` is every vector register at once (R197). -/
inductive Rg where
  | v (n : Nat)
  | s (n : Nat)
  | p (n : Nat)
  | k (n : Nat)
  | n (n : Nat)
  | a (n : Nat)
  | m (n : Nat)
  | vall
  deriving DecidableEq, Repr

/-- n registers of a kind from one on. -/
def rgRun (mk : Nat → Rg) (r n : Nat) : List Rg := (List.range n).map fun i => mk (r + i)

/-- Registers a source field reads. -/
def srcReads (n : Nat) (k : FK) (x : Src) : List Rg :=
  let r := x.reg.toNat
  match k with
  | .none | .hash | .raw => []
  | .sc _ _ => if x.map = 15 then [] else [.s (r % 64)]
  | .bc => if x.map = 15 then (if r < 64 then [.s r] else []) else rgRun .v r n
  | .vec .. | .vb _ =>
    if x.map = 15 then (if r < 64 then [.s r] else [])
    else rgRun .v r n ++ (if x.map = 0 then [] else [.m x.map.toNat])
  | .vreg | .vregRW => rgRun .v r n
  | .prd => [.p (r % 8)]
  | .cnd => [.k (r % 8)]
  | .lc => [.n (r % 4)]
  | .acc => rgRun .a (r % 64) n
  | .map => [.m (r % 16)]

/-- Registers DST names, as (read, written). -/
def dstRegs (n : Nat) (k : DK) (d : BitVec 8) : List Rg × List Rg :=
  let r := d.toNat
  let v := rgRun .v r n
  let a := rgRun .a (r % 64) n
  match k with
  | .none | .space | .barId | .ringBit => ([], [])
  | .vec => ([], v)
  | .vecR => (v, [])
  | .vecRW => (v, v)
  | .scl | .sclSp => ([], [.s (r % 64)])
  | .sclR | .sclSpR => ([.s (r % 64)], [])
  | .sclRW => ([.s (r % 64)], [.s (r % 64)])
  | .condPair => ([], [.k (r % 8), .k (r / 8 % 8)])
  | .predPair => ([], [.p (r % 8), .p (r / 8 % 8)])
  | .prd => ([], [.p (r % 8)])
  | .cnd => ([], [.k (r % 8)])
  | .lc => ([], [.n (r % 4)])
  | .acc | .accSp => ([], a)
  | .accRW => (a, a)
  | .accSpR => (a, [])
  | .map | .mapSp => ([], [.m (r % 16)])
  | .mapSpR => ([.m (r % 16)], [])
  | .mapRW => ([.m (r % 16)], [.m (r % 16)])

/-- Registers named in bits 31:0 of a long op (R221, R237, R250). -/
def immRegs (o : Op) (f : OpF) : List Rg :=
  match o with
  | .cpy | .tmov | .bob => if f.imm.getLsbD 21 then [.s (f.imm.extractLsb' 22 6).toNat] else []
  | .imgst =>
    rgRun .s (f.imm.extractLsb' 0 6).toNat 4 ++ (if f.imm.getLsbD 20 then [.s (f.imm.extractLsb' 21 6).toNat] else [])
  | _ => []

/-- Implicit reads (R46): the guard's condition register, or exm and the guard predicate. -/
def guardReads (o : Op) (f : OpF) : List Rg :=
  let r := (f.guard.extractLsb' 0 3).toNat
  if guardK o then [.k r] else [.s 62, .p r]

/-- Every register an op reads, without repeats; a hint reads nothing (R147). -/
def opReads (o : Op) (f : OpF) : List Rg :=
  if isHint o then []
  else
    let sp := spec o f
    (guardReads o f ++ (dstRegs (dstCount o f) sp.dst f.dst).1 ++ srcReads (aCount o f) sp.a f.a ++ srcReads 1 sp.b f.b ++
      srcReads (cCount o f) sp.c f.c ++ immRegs o f ++ (if o = Op.vrdx then [Rg.vall] else [])).eraseDups

/-- What RTE restores from the frame (R305). -/
def rteWrites : List Rg := rgRun .s 0 8 ++ [.s 62, .p 0, .p 1] ++ rgRun .v 0 4

/-- Every register an op writes. -/
def opWrites (o : Op) (f : OpF) : List Rg :=
  if isHint o then []
  else
    let sp := spec o f
    (dstRegs (dstCount o f) sp.dst f.dst).2 ++ (if sp.b = .vregRW then [.v f.b.reg.toNat] else []) ++
      (if o = Op.vwrx then [Rg.vall] else []) ++ (if o = Op.rte then rteWrites else [])

/-- Writes that rules 5 and 6 count: not those to p7, k7 and s63. -/
def countedWrites (o : Op) (f : OpF) : List Rg :=
  (opWrites o f).filter fun r => r ≠ .p 7 && r ≠ .k 7 && r ≠ .s 63

/-- Whether a register is a vector register. -/
def Rg.isV : Rg → Bool
  | .v _ => true
  | .vall => true
  | _ => false

/-- Whether two sets of registers meet. -/
def rgMeet (x y : List Rg) : Bool :=
  x.any fun r => y.contains r || (r = .vall && y.any Rg.isV) || (r.isV && y.contains .vall)

/-- Memory ops (R138, rule 1). -/
def isMemOp (o : Op) : Bool :=
  opClass o = 5 || o = .sld || o = .sst || o = .mapld || o = .mapst || o = .asave || o = .aload

/-- Special-function ops (R138, rule 2; R192). -/
def isSfu (o : Op) : Bool := specialRows.contains o || o = .vdiv

/-- Mapped source fields of an op (R138, rule 3); WAIT's limit fields name no map (R230). -/
def mappedFields (o : Op) (f : OpF) : Nat :=
  if isHint o || o = .wait then 0
  else ([f.a, f.b, f.c].filter fun x => 0 < x.map.toNat && x.map.toNat < 15).length

/-- Reads of one vector bank (R138, rule 4). -/
def bankReads (b : Nat) (rs : List Rg) : Nat :=
  (rs.filter fun r => match r with
    | .v n => n % 4 = b
    | _ => false).length

/-- Whether an op names the register it moves by number (R197). -/
def byNumber (o : Op) : Bool := o = .vrdx || o = .vwrx

/-- Whether an op reads or writes a vector register. -/
def touchesVec (x : Op × OpF) : Bool := (opReads x.1 x.2 ++ opWrites x.1 x.2).any Rg.isV

/-- The rules of R138 for two ops, with R197's for VRDX and VWRX beside an op that names a vector register. -/
def pairOk (a b : Op × OpF) : Bool :=
  let ra := opReads a.1 a.2
  let rb := opReads b.1 b.2
  let wa := countedWrites a.1 a.2
  let wb := countedWrites b.1 b.2
  let both := fun (q : Op → Bool) => q a.1 && q b.1
  !(both isMemOp) && !(both isSfu) && !(both fun o => opClass o = 6) && !(both fun o => opClass o = 7 && !isHint o) &&
    decide (mappedFields a.1 a.2 + mappedFields b.1 b.2 ≤ 2) &&
    ((List.range 4).all fun k => bankReads k ra + bankReads k rb ≤ 3) &&
    !(rgMeet ra wb) && !(rgMeet rb wa) && !(rgMeet wa wb) &&
    !(byNumber a.1 && touchesVec b) && !(byNumber b.1 && touchesVec a)

/-- ILLEGAL_PAIR (R138): an unassigned opcode never breaks a rule (R356). -/
def pairIllegal (d : WordD) : Bool :=
  match d.b with
  | none => false
  | some j =>
    match slotOp d.a, slotOp j with
    | some x, some y => !(pairOk x y)
    | _, _ => false
where
  /-- The op of a slot; RINGPUT.free counts as RINGPUT does. -/
  slotOp (i : Instr) : Option (Op × OpF) := i.op?

/-! ### Waiting for unretired loads (R100) -/

/-- Registers that unretired loads of a group will write. -/
def pendingRegs (g : Group) : List Rg :=
  g.lane.flatMap fun o => match o.dst with
    | .vec d n => rgRun .v d n
    | .scl d => [.s d]
    | _ => []

/-- The number that a VRDX or VWRX names at run time (R197). -/
def rdxNumber (f : OpF) (g : Group) : List Rg :=
  if isImm f.a then [.v (f.lit.toNat + f.imm.toNat)] else [.v (getS g f.a.reg.toNat).toNat]

/-- Registers an op names at run time: the signal registers of a completion word (R221, R250), with s60, where the signal's update may
set SAT (R107), and the register of VRDX or VWRX. -/
def runRegs (o : Op) (f : OpF) (g : Group) : List Rg :=
  match o with
  | .vrdx | .vwrx => rdxNumber f g
  | .cpy | .tmov | .bob => sigRegs (f.imm.getLsbD 21) (f.imm.extractLsb' 22 6).toNat
  | .imgst => sigRegs (f.imm.getLsbD 20) (f.imm.extractLsb' 21 6).toNat
  | _ => []
where
  /-- The signal registers of the completion word in a register. -/
  sigRegs (en : Bool) (creg : Nat) : List Rg :=
    let w := getS g creg
    if en && w.getLsbD 61 then [.s (w.extractLsb' 34 6).toNat, .s ((w.extractLsb' 34 6).toNat + 1), .s 60] else []

/-- Whether an op waits because an unretired load will write exm, which decides whether it executes. -/
def waitsExm (o : Op) (g : Group) : Bool := !isHint o && !guardK o && (pendingRegs g).contains (.s 62)

/-- Whether an op may raise a flag, and so write s60 (R47): float, saturating, dividing, accumulator and quantising ops, RFTEST, every op
with a mapped source, the returning float add (R224), RINGGET (OVERRUN, R235), SIGADD (SAT, R107), and the acquires SIGWAIT, ATOM and FENCE
(SCOPE_MISS, R116), the latter two by bit 17 of their memory word. -/
def mayRaise (o : Op) (f : OpF) : Bool :=
  opClass o = 2 || decide (0 < mappedFields o f) || ((o = .atom || o = .fence) && f.imm.getLsbD 17) ||
    (o = .atom && f.imm.extractLsb' 23 4 = 1) ||
    [Op.sadd, .ssub, .smul, .sdiv, .srem, .sfadd, .sfmul, .sfma, .sfcmp, .scvt, .vadd, .vsub, .vmul, .vmad, .vlred, .vlscan, .mapgen,
      .amac, .aadd, .ain, .aout, .ascale, .qscan, .qpack, .qunpack, .ringget, .sigadd, .sigwait, .rftest].contains o

/-- Whether an op that executes reads or writes a register that an unretired load will write; an op that may raise a flag writes
s60. -/
def waitsRegs (o : Op) (f : OpF) (g : Group) : Bool :=
  !g.lane.isEmpty && (
    let named := ((opReads o f ++ opWrites o f ++ runRegs o f g).filter fun r => r ≠ .vall) ++
      (if mayRaise o f then [.s 60] else [])
    rgMeet (pendingRegs g) named)

/-- Registers a sequencing field reads or writes (R130, R159). -/
def seqRegs (i : Instr) : List Rg :=
  match i with
  | .ret => [.s 61]
  | .call _ => [.s 61]
  | .jumpx r => [.s r.toNat]
  | .callx r => [.s 61, .s r.toNat]
  | _ => []

/-- Whether a sequencing field waits for an unretired load. -/
def waitsSeq (i : Instr) (g : Group) : Bool := rgMeet (pendingRegs g) (seqRegs i)

/-- Registers the frame of a handler saves or RTE restores (R301, R305). -/
def frameRegs : List Rg := rgRun .s 0 8 ++ rgRun .v 0 4 ++ [.s 62]

/-- Whether the frame waits for an unretired load (R300, R356). -/
def waitsFrame (g : Group) : Bool := rgMeet (pendingRegs g) frameRegs

end Sys2Proof.Machine
end

