-- ==== Sys2Proof/Machine/Operands.lean ====
section
/-!
DEFINITION. The operands an op receives: scalars and immediates (R134, R135), vector registers and broadcasts, map descriptors
(R50 to R52), and mapped sources with their checks, stream uses and integrity (R53 to R63).
-/
namespace Sys2Proof.Machine

/-! ### Sub-vectors (R56) -/

/-- Sub-vector k of a lane. -/
def subOf (t : Ty) (x : W32) (k : Nat) : Nat := x.toNat / 2 ^ (t.step * k) % 2 ^ t.bits

/-- A lane from its sub-vectors; the upper half of a 4-bit sub-vector is zero (R178). -/
def joinSubs (t : Ty) : List Nat → Nat
  | [] => 0
  | x :: xs => x % 2 ^ t.bits + 2 ^ t.step * joinSubs t xs

/-- A lane computed sub-vector by sub-vector. -/
def mapSubs (t : Ty) (f : Nat → Nat) : W32 := BitVec.ofNat 32 (joinSubs t ((List.range t.count).map f))

/-- Whether a lane is in a mask. -/
def lane (m : W32) (i : Nat) : Bool := m.getLsbD i

/-! ### Immediates and scalars -/

/-- A scalar immediate: the literal from bit 49, or IMM from bit 31 (R135). -/
def immS (f : OpF) : W64 := if f.form = .literal then f.lit.signExtend 64 else f.imm.signExtend 64

/-- A 16-bit or 8-bit pattern in every sub-vector. -/
def repeatSub (t : Ty) (x : Nat) : W32 := mapSubs t fun _ => x

/-- A typed long immediate (R135). -/
def immTyped (t : Ty) (f : OpF) : W32 :=
  match t with
  | .i32 => BitVec.signExtend 32 (f.imm.extractLsb' 0 24)
  | .f32 => BitVec.ofNat 32 (imm24 f * 256)
  | .n32 => BitVec.ofNat 32 (imm24 f)
  | t => repeatSub t (imm24 f)

/-- A vector immediate (R135). -/
def immV (o : Op) (f : OpF) : W32 :=
  match f.form with
  | .long => if (spec o f).imm = .typed then immTyped (ty0 f) f else f.imm
  | _ => f.lit.setWidth 32

/-- VFSCALE's immediate count (R189). -/
def immCount (f : OpF) : W32 :=
  match f.form with
  | .long => if (ty0 f).bits = 32 then BitVec.signExtend 32 (f.imm.extractLsb' 0 24) else repeatSub (ty0 f) (imm24 f)
  | _ => f.lit.setWidth 32

/-- A scalar source before its sign bits. -/
def rawS (g : Group) (f : OpF) (x : Src) : W64 := if isImm x then immS f else getS g x.reg.toNat

/-- An integer scalar source: negate, then absolute value, modulo 2^64 (R133, R163). The magnitude is that of the signed reading also
under .n (DESIGN CHOICE, unsafe: notes/assumptions/68.md). -/
def intS (g : Group) (f : OpF) (x : Src) : W64 :=
  let v := rawS g f x
  let v := if x.neg then -v else v
  if x.abs && v.msb then -v else v

/-- A scalar float source: the low bits of its register, or the immediate, with its sign bits (R79, R172). -/
def fltS (g : Group) (f : OpF) (t : Ty) (x : Src) : Nat :=
  let v := if isImm x && f.form = .long then (immTyped t f).toNat else (rawS g f x).toNat
  signMod t x.neg x.abs (v % 2 ^ t.bits)

/-! ### Map descriptors (R50 to R52) -/

/-- KIND. -/
def mdKind (d : W64) : Nat := (d.extractLsb' 62 2).toNat
/-- SLOT. -/
def mdSlot (d : W64) : Nat := (d.extractLsb' 48 8).toNat
/-- FMT. -/
def mdFmt (d : W64) : Nat := (d.extractLsb' 44 4).toNat
/-- R. -/
def mdRows (d : W64) : Nat := (d.extractLsb' 35 5).toNat + 1
/-- C. -/
def mdCols (d : W64) : Nat := (d.extractLsb' 30 5).toNat + 1
/-- KINDWORD. -/
def mdWord (d : W64) : Nat := (d.extractLsb' 0 30).toNat
/-- b of a stream map (R202). -/
def mdB (d : W64) : Nat := (d.extractLsb' 0 26).toNat
/-- u of a stream map (R202). -/
def mdU (d : W64) : Nat := (d.extractLsb' 26 4).toNat

/-- A descriptor from its fields. -/
def mkDesc (kind slot fmt rows cols word : Nat) : W64 :=
  BitVec.ofNat 64 (kind * 2 ^ 62 + slot * 2 ^ 48 + fmt * 2 ^ 44 + (rows - 1) * 2 ^ 35 + (cols - 1) * 2 ^ 30 + word)

/-- A stream descriptor at another position. -/
def setPos (d : W64) (b u : Nat) : W64 := mkDesc 3 (mdSlot d) (mdFmt d) (mdRows d) (mdCols d) (b + u * 2 ^ 26)

/-- Whether a map format is of the integer class (R51). -/
def fmtInt (fmt : Nat) : Bool := 8 ≤ fmt && fmt ≤ 10
/-- Whether a map format is a picot format (R51). -/
def fmtPicot (fmt : Nat) : Bool := 4 ≤ fmt && fmt ≤ 6
/-- Magnitude bits of a picot map format. -/
def fmtMag (fmt : Nat) : Nat := if fmt = 4 then 2 else if fmt = 5 then 4 else 7

/-- Element type of a plain map format (R51). -/
def fmtTy (fmt : Nat) : Ty :=
  match fmt with
  | 0 => .f16 | 1 => .bf16 | 2 => .e4m3 | 3 => .e5m2 | 7 => .f32 | 8 => .i8 | 9 => .n8 | _ => .i4

/-- Bytes of one row in the image form (R200). -/
def rowBytes (fmt : Nat) : Nat :=
  match fmt with
  | 7 => 128 | 0 => 64 | 1 => 64 | 10 => 16 | 4 => 16 | 5 => 24 | 6 => 36 | _ => 32

/-- Bytes of an image (R200). -/
def imageSize (fmt rows : Nat) : Nat := rowBytes fmt * rows

/-- Slots one buffer of a format takes (R51, R52). -/
def slotsOf (fmt : Nat) : Nat := if fmt = 7 then 2 else 1

/-- Slots a descriptor occupies, first and count (R52). -/
def mdSlots (d : W64) : Nat × Nat :=
  match mdKind d with
  | 1 => (mdSlot d, slotsOf (mdFmt d))
  | 3 => (mdSlot d, 2 * slotsOf (mdFmt d))
  | _ => (0, 0)

/-- First byte of the slot store that a resident or stream map reads now (R200, R205). -/
def mdBase (d : W64) : Nat :=
  if mdKind d = 3 then 2048 * (mdSlot d + slotsOf (mdFmt d) * (mdB d % 2)) else 2048 * mdSlot d

/-- Whether a generated element is one (R204); `gen` and `param` as KINDWORD holds them. -/
def genOne (gen param rows cols i j : Nat) : Bool :=
  match gen with
  | 0 => i < rows && j = i
  | 1 => j + i + 1 = cols
  | 2 => (j : Int) = i + sextNat 6 param
  | 3 => true
  | _ => let c := param % 32 + 1; i = (j % c) * (cols / c) + j / c

/-- One of a type. -/
def oneOf (t : Ty) : Nat := if t.isInt then 1 else (fRound t.fmt 0 false (.fin false 1 0)).1

/-- Bytes that a row of a picot map takes in its first plane (R200). -/
def picotPlane (fmt : Nat) : Nat := if fmt = 6 then 32 else if fmt = 5 then 16 else 8

/-- The image byte that stands at byte n of a slot (R200). A slot holds a picot map row by row, each row with its headers and its bits
of each plane, so that the rows of a view stand where they stood (R202). R200 gives the arrangement in memory and none in a slot (DESIGN
CHOICE, unsafe: notes/assumptions/81.md). -/
def imageByte (fmt rows n : Nat) : Nat :=
  if fmtPicot fmt then
    let row := n / rowBytes fmt
    let o := n % rowBytes fmt
    let p := picotPlane fmt
    if o < 4 then 4 * row + o else if o < 4 + p then 4 * rows + p * row + (o - 4) else (4 + p) * rows + 4 * row + (o - 4 - p)
  else n

/-- The byte of a slot at which byte n of an image stands. -/
def slotByte (fmt rows n : Nat) : Nat :=
  if fmtPicot fmt then
    let p := picotPlane fmt
    let b := rowBytes fmt
    if n < 4 * rows then n / 4 * b + n % 4
    else if n < (4 + p) * rows then (n - 4 * rows) / p * b + 4 + (n - 4 * rows) % p
    else (n - (4 + p) * rows) / 4 * b + 4 + p + (n - (4 + p) * rows) % 4
  else n

/-- An image as a slot holds it (notes/assumptions/81.md). -/
def slotImage (fmt : Nat) (bs : List Byte) : List Byte :=
  (List.range bs.length).map fun n => bs.getD (imageByte fmt (bs.length / rowBytes fmt) n) 0

/-- A w-bit field, bit n·w of a plane that begins at a byte (R72). -/
def planeBits (m : Mem) (base w n : Nat) : Nat := (memGet m (base + n * w / 8)).toNat / 2 ^ (n * w % 8) % 2 ^ w

/-- Element code j of a row of a picot map whose planes begin at a byte (R72): one plane, or the upper bits and bit 0. -/
def picotCode (m : Mem) (base fmt j : Nat) : Nat :=
  match fmt with
  | 6 => planeBits m base 8 j
  | 5 => 2 * planeBits m base 4 j + planeBits m (base + 16) 1 j
  | _ => 2 * planeBits m base 2 j + planeBits m (base + 8) 1 j

/-- Value of a picot element code under its block header (R71). -/
def picotElem (mag header quad code : Nat) : XV :=
  picotValue (code / 2 ^ mag % 2 = 1) (code % 2 ^ mag) (header % 256) (header / 256 / 4 ^ quad % 4) mag

/-- The bits of element (i, j) of a plain image (R200). -/
def plainElem (m : Mem) (base fmt i j : Nat) : Nat :=
  let t := fmtTy fmt
  if t.bits = 4 then planeBits m (base + 16 * i) 4 j
  else memNat m (base + rowBytes fmt * i + t.bits / 8 * j) (t.bits / 8)

/-- Element (i, j) of a bound map as a value, and whether its encoding is a signalling NaN. -/
def mapElem (m : Mem) (d : W64) (i j : Nat) : XV × Bool :=
  let fmt := mdFmt d
  if mdKind d = 2 then
    (elemValue (fmtTy fmt) (if genOne (mdWord d % 16) (mdWord d / 16 % 64) (mdRows d) (mdCols d) i j then oneOf (fmtTy fmt) else 0), false)
  else if fmtPicot fmt then
    let base := mdBase d + rowBytes fmt * i
    let h := memNat m (base + 2 * (j / 16)) 2
    (picotElem (fmtMag fmt) h (j % 16 / 4) (picotCode m (base + 4) fmt j), false)
  else
    let x := plainElem m (mdBase d) fmt i j
    (elemValue (fmtTy fmt) x, !(fmtTy fmt).isInt && fIsSNaN (fmtTy fmt).fmt x)

/-! ### Slots of the team -/

/-- Slots that stream maps of a group hold, with the map number. -/
def streamSlots (g : Group) : List (Nat × Nat × Nat) :=
  g.streams.map fun x => (x.1, mdSlots (getMap g x.1))

/-- Whether two runs of slots meet. -/
def runsMeet (a b : Nat × Nat) : Bool := a.1 < b.1 + b.2 && b.1 < a.1 + a.2

/-- Whether a run of slots meets a stream of the team, other than one held by map number `own` of group g (R203). -/
def hitsStream (s : State) (g : Group) (own : Nat) (run : Nat × Nat) : Bool :=
  (g :: (teamGroups s g.id.t).filter fun h => h.id ≠ g.id).any fun h =>
    (streamSlots h).any fun x => runsMeet x.2 run && !(h.id = g.id && x.1 = own)

/-- Whether a run of slots meets a resident binding of the team (R203). -/
def hitsResident (s : State) (g : Group) (own : Nat) (run : Nat × Nat) : Bool :=
  (g :: (teamGroups s g.id.t).filter fun h => h.id ≠ g.id).any fun h =>
    (List.range 15).any fun n => let d := getMap h n
      mdKind d = 1 && runsMeet (mdSlots d) run && !(h.id = g.id && n = own)

/-- The slot rules of R52 for a resident or stream descriptor. -/
def slotsOk (l : Launch) (d : W64) : Bool :=
  let n := slotsOf (mdFmt d)
  let al := if mdKind d = 3 then 2 * n else n
  mdSlot d % al = 0 && mdSlot d + (mdSlots d).2 ≤ l.kern.slots

/-- Unfinished map loads of a group that write a run of bytes of the slot store (R60). -/
def mapPending (g : Group) (first size : Nat) : Bool :=
  g.mapops.any fun o => !o.done && (o.kind = .load || o.kind = .gen || o.kind = .diag) && o.first < first + size && first < o.first + o.size

/-- The slot bytes at which the element (i, j) of a map stands, with the header of its block (R71, R72, R200). -/
def elemBytes (d : W64) (i j : Nat) : List Nat :=
  let fmt := mdFmt d
  let base := mdBase d + rowBytes fmt * i
  if mdKind d = 2 then []
  else if fmtPicot fmt then
    let code := match fmt with
      | 6 => [base + 4 + j]
      | 5 => [base + 4 + j / 2, base + 20 + j / 8]
      | _ => [base + 4 + j / 4, base + 12 + j / 8]
    [base + 2 * (j / 16), base + 2 * (j / 16) + 1] ++ code
  else if (fmtTy fmt).bits = 4 then [mdBase d + 16 * i + j / 2]
  else (List.range ((fmtTy fmt).bits / 8)).map fun n => base + (fmtTy fmt).bits / 8 * j + n

/-- Another group's unfinished map load as a reader of the slot store meets it (R60): the run of slot bytes that it fills, those of them
whose values it has, and the store with these values. -/
structure Coming where
  first : Nat
  size : Nat
  known : List Nat
  mem : Mem
  deriving DecidableEq, Repr

/-- The slot bytes whose values an unfinished load has: those that it has read so far, or all that a diagonal holds. -/
def comingBytes (o : MapOp) : List (Nat × Byte) :=
  match o.image with
  | some bs => (slotImage o.fmt bs).zipIdx.map fun x => (o.first + x.2, x.1)
  | none => o.got.map fun e => (o.first + slotByte o.fmt (o.size / rowBytes o.fmt) e.1, e.2)

/-- The unfinished map loads of the other groups of the team in focus that have some of their values (R60). -/
def altSlots (s : State) : List Coming :=
  (teamGroups s s.g.id.t).filter (fun h => h.id ≠ s.g.id) |>.flatMap fun h =>
    h.mapops.filter (fun o => !o.done && (o.kind = .load || o.kind = .diag) && !(comingBytes o).isEmpty) |>.map fun o =>
      let bs := comingBytes o
      ⟨o.first, o.size, bs.map Prod.fst, bs.foldl (fun m x => memPut m x.1 x.2) s.t.slots⟩

/-- Whether an unfinished load fills some of these bytes and has the values of all that it fills of them. -/
def Coming.has (c : Coming) (bs : List Nat) : Bool :=
  let ms := bs.filter fun b => c.first ≤ b && b < c.first + c.size
  !ms.isEmpty && ms.all c.known.contains

/-- The slot store as a reader finds some bytes of it: as it stands, or with the values of another group's unfinished load that has them, by a
choice for each load (R60); a value that no load has yet is none that a reader can find. -/
def seenStore (s : State) (alt : List Coming) (bs : List Nat) (n : Nat) : Mem :=
  ((alt.zipIdx.find? fun c => c.1.has bs && Config.freeBit (s.tick + n + 2 ^ 20 * c.2)).map fun c => c.1.mem).getD s.t.slots

/-- A map element as a mapped source sees it: from the slots, or from another group's unfinished load, each element of the slot store by a
choice of its own (R60). -/
def seenElem (s : State) (alt : List Coming) (d : W64) (i j : Nat) : XV × Bool :=
  mapElem (if alt.isEmpty then s.t.slots else seenStore s alt (elemBytes d i j) (mdBase d / 2 + 32 * i + j)) d i j

/-! ### Mapped sources (R53 to R63) -/

/-- The mapped source fields of an op: field number and source. -/
def mappedSrcs (sp : OpSpec) (f : OpF) : List (Nat × Src) :=
  [(0, sp.a, f.a), (1, sp.b, f.b), (2, sp.c, f.c)].filterMap fun x =>
    match x.2.1 with
    | .vec true _ _ => if 0 < x.2.2.map.toNat && x.2.2.map.toNat < 15 then some (x.1, x.2.2) else none
    | _ => none

/-- Check 1 of R59 for one source. -/
def mapUsable (g : Group) (l : Launch) (t : Ty) (x : Src) : Bool :=
  let d := getMap g x.map.toNat
  x.map.toNat ≤ l.kern.maps && mdKind d ≠ 0 && fmtInt (mdFmt d) = t.isInt

/-- The lowest active lane at or above R (R55). -/
def shapeLane (act : W32) (d : W64) : Option Nat := (List.range 32).find? fun i => lane act i && mdRows d ≤ i

/-- MAP_SHAPE, class 5, on a source field (R55, R301). -/
def trapShape (field ln : Nat) : TrapI := ⟨5, field, 0, ln, 0, 0⟩
/-- MAP_INTEGRITY, class 7 (R63). -/
def trapIntegrity : TrapI := .plain 7

/-- The first source that fails the shape check. -/
def shapeFail (g : Group) (act : W32) : List (Nat × Src) → Option TrapI
  | [] => none
  | x :: xs =>
    match shapeLane act (getMap g x.2.map.toNat) with
    | some i => some (trapShape x.1 i)
    | none => shapeFail g act xs

/-- Whether a mapped source must wait: its stream block has not arrived, or an earlier map load of the group to the slots it reads
is unfinished (R59, R60). -/
def mapStalls (g : Group) (x : Src) : Bool :=
  let n := x.map.toNat
  let d := getMap g n
  let pending := mapPending g (mdBase d) (imageSize (mdFmt d) (mdRows d))
  match mdKind d with
  | 3 => pending || ((g.streams.find? fun e => e.1 = n).elim false fun e => !e.2.here)
  | 1 => pending
  | _ => false

/-- The checks of R58 and R59, then the residue check of R63. -/
def mapChecks (s : State) (act : W32) (t : Ty) (xs : List (Nat × Src)) : Res Unit :=
  if xs.isEmpty then .ok ()
  else if 2 < xs.length || !(xs.all fun x => mapUsable s.g s.l t x.2) then .trap trapIllegal
  else
    match shapeFail s.g act xs with
    | some i => .trap i
    | none =>
      if xs.any fun x => mapStalls s.g x.2 then .hold
      else if 2 ≤ s.g.residue then .trap trapIntegrity
      else .ok ()

/-- Column values of a source register under a map, +0 in inactive lanes (R54). -/
def xinCol (t : Ty) (act : W32) (v : VReg) (k j : Nat) : XV × Bool :=
  if lane act j then
    let x := subOf t (v[j % 32]!) k
    (elemValue t x, !t.isInt && fIsSNaN t.fmt x)
  else (.fin false 0 0, false)

/-- The exact integer row sum (R85). -/
def intRow (row xin : List (XV × Bool)) : Int :=
  (row.zip xin).foldl (fun a p => a + xInt 0 p.1.1 * xInt 0 p.2.1) 0

/-- A row of a map as a source sees it. -/
def seenRow (s : State) (alt : List Coming) (d : W64) (i : Nat) : List (XV × Bool) :=
  (List.range (mdCols d)).map (seenElem s alt d i)

/-- The columns of a source register that a map reads. -/
def xinRow (t : Ty) (act : W32) (d : W64) (v : VReg) (k : Nat) : List (XV × Bool) :=
  (List.range (mdCols d)).map (xinCol t act v k)

/-- One delivered element: the row sum rounded or saturated into the operand format (R54, R86). -/
def deliverElem (s : State) (alt : List Coming) (t : Ty) (act : W32) (d : W64) (v : VReg) (i k : Nat) : Nat × Flags :=
  if t.isInt then intFinish t.bits t.signed true (intRow (seenRow s alt d i) (xinRow t act d v k))
  else
    let r := orderFreeRow (seenRow s alt d i) (xinRow t act d v k)
    let (x, f) := fRound t.fmt 0 false r.1.value
    (x, r.2 ||| f)

/-- A vector operand before its sign bits, with the flags of its delivery: a mapped register computes its active lanes only. Delivered
4-bit elements have zero upper nibbles (DESIGN CHOICE, unsafe: notes/assumptions/69.md). -/
def rawV (s : State) (alt : List Coming) (imm : W32) (t : Ty) (act : W32) (x : Src) : VReg × Flags :=
  if isImm x then (Vector.replicate 32 imm, 0)
  else if x.map = 15 then (Vector.replicate 32 ((getS s.g x.reg.toNat).setWidth 32), 0)
  else
    let v := getV s.g x.reg.toNat
    if x.map = 0 then (v, 0)
    else
      let d := getMap s.g x.map.toNat
      let out := (List.range 32).map fun i =>
        if lane act i then (List.range t.count).map fun k => deliverElem s alt t act d v i k else []
      (Vector.ofFn fun i => BitVec.ofNat 32 (joinSubs t ((out.getD i.val []).map Prod.fst)),
       out.foldl (fun f es => es.foldl (fun f e => f ||| e.2) f) 0)

/-- A vector operand as an op receives it (R54, R133, R134); the sign bits leave zero upper nibbles beside 4-bit elements (DESIGN CHOICE,
unsafe: notes/assumptions/69.md). -/
def srcV (s : State) (alt : List Coming) (imm : W32) (t : Ty) (act : W32) (x : Src) : VReg × Flags :=
  let (v, f) := rawV s alt imm t act x
  if x.neg || x.abs then (v.map fun w => mapSubs t fun k => signMod t x.neg x.abs (subOf t w k), f) else (v, f)

/-! ### Stream uses (R61) -/

/-- A stream moved on to its next block, and the fetch of the one after it begun; at B the map number becomes unbound. -/
def streamAdvance (n : Nat) (g : Group) : Group :=
  let d := getMap g n
  match g.streams.find? fun e => e.1 = n with
  | none => g
  | some e =>
    let b := mdB d + 1
    if (e.2.word.extractLsb' 0 26).toNat ≤ b then
      { setMap g n 0 with streams := g.streams.filter fun x => x.1 ≠ n }
    else
      let u := (e.2.fields.extractLsb' 22 3).toNat + 1
      let next := fun (x : Stream) =>
        { x with here := x.ahead, ahead := false, seqHere := x.seqAhead, seqAhead := g.seqn, gotHere := x.gotAhead, gotAhead := [] }
      { setMap g n (setPos d b u) with streams := g.streams.map (fun x => if x.1 = n then (n, next x.2) else x), seqn := g.seqn + 1 }

/-- A group has observed the fetch of the block that a map number reads, since it executes an op that uses it (R120). -/
def streamSeen (n : Nat) (g : Group) : Group :=
  match g.streams.find? fun e => e.1 = n with
  | none => g
  | some e =>
    let op : OpId := ⟨g.id, e.2.seqHere⟩
    if g.observed.any fun o => o.op = op then g else { g with observed := ⟨op, g.seqn⟩ :: g.observed }

/-- One use of a map number: a stream counts it, and advances after its last use. -/
def streamUse (n : Nat) (g : Group) : Group :=
  let d := getMap g n
  if mdKind d = 3 then
    let g := streamSeen n g
    if mdU d ≤ 1 then streamAdvance n g else setMap g n (setPos d (mdB d) (mdU d - 1))
  else g

/-- What an op with these mapped sources leaves in its group: one use a map number, and CHECK_RERUN after a rerun (R61, R63). -/
def afterMaps (xs : List (Nat × Src)) (g : Group) : Group :=
  if xs.isEmpty then g
  else
    let g := (xs.map fun x => x.2.map.toNat).eraseDups.foldl (fun g n => streamUse n g) g
    if g.residue = 0 then g else raise flagRERUN { g with residue := 0 }

end Sys2Proof.Machine
end

