-- ==== Sys2Proof/Machine/Run.lean ====
section
/-!
DEFINITION. How an op runs in its slot (R136, R139, R140): wait, guard, legality, body, and what follows each ending of the body.
Every meaning of an op is one call of `runS` or `runG`.
-/
namespace Sys2Proof.Machine

/-- The next slot of the word, or its sequencing field (R140). -/
def nextPos (g : Group) : Pos :=
  match g.pos with
  | .a => if (g.dec.bind WordD.b).isSome then .b else .seq
  | _ => .seq

/-- The group past its slot. -/
def nextSlot (g : Group) : Group := { g with pos := nextPos g, wait := .none }

/-- The op held at its slot. -/
def holdAt (s : State) : State := { s with g := { s.g with wait := .hold } }

/-- The group parked on a translation fault, in the state before the op (R296). -/
def parkAt (p : Park) (s : State) : State := { s with g := { s.g with park := some p } }

/-- A precise class raised at the slot: the frame waits for the loads of the registers it saves; MAP_INTEGRITY leaves CHECK_RERUN
(R48, R63, R300). -/
def trapAt (i : TrapI) (s : State) : State :=
  if waitsFrame s.g && !s.g.hmode then holdAt s
  else
    let s := if i.cls = 7 then { s with g := raise flagRERUN { s.g with residue := 0 } } else s
    takeTrap (s.g.pos = .b) s.g.word i s

/-- What follows each ending of a body. -/
def finish (s : State) (r : Res State) : Out :=
  match r with
  | .ok t => .next { t with g := nextSlot t.g }
  | .block t => .next t
  | .trap i => .next (trapAt i s)
  | .park p => .next (parkAt p s)
  | .hold => .next (holdAt s)

/-- Whether an op issues now: no unretired load decides or feeds it, it would execute, and its fields are legal. -/
def issues (o : Op) (f : OpF) (s : State) : Bool :=
  !waitsExm o s.g && would o f s.g && !waitsRegs o f s.g && legal s.l o f

/-- An op with what it does when it does not execute (R99, R139). -/
def runWith (o : Op) (f : OpF) (off body : State → Res State) (s : State) : Out :=
  if waitsExm o s.g then .next (holdAt s)
  else if would o f s.g then
    if waitsRegs o f s.g then .next (holdAt s)
    else if legal s.l o f then finish s (body s)
    else finish s (.trap trapIllegal)
  else finish s (off s)

/-- An op that has no effect when it does not execute. -/
def runS (o : Op) (f : OpF) (body : State → Res State) (s : State) : Out := runWith o f .ok body s

/-- A body over the group alone. -/
def onG (body : Group → Res Group) (s : State) : Res State := (body s.g).bind fun g => .ok { s with g := g }

/-- An op that touches its group alone. -/
def runG (o : Op) (f : OpF) (body : Group → Res Group) (s : State) : Out := runS o f (onG body) s

/-- An op that touches its group alone and cannot trap past its legality. -/
def runP (o : Op) (f : OpF) (body : Group → Group) (s : State) : Out := runG o f (fun g => .ok (body g)) s

end Sys2Proof.Machine
end

