-- ==== Sys2Proof/Machine/LaneQ.lean ====
section
/-!
DEFINITION. Lane-path ops between issue and retirement: counters and empty ops (R98, R99), the order in which their accesses are
performed (R113 to R116), what each performs (R219, R224, R225, R233), and retirement. An access is performed at any time between
issue and retirement; performing one first performs every earlier access that is locally ordered before it. What must go first and
cannot yet (an acquire that is to be a scope mismatch, R116) leaves it to be performed later.
-/
namespace Sys2Proof.Machine

/-! ### Memory errors (R299, R350) -/

/-- The 32-byte line of a byte. -/
def lineOf (a : Loc) : Home × Nat := (a.home, a.addr / 32)

/-- Whether a byte read lies in a line with an uncorrectable error. -/
def poisoned (s : State) (as : List Loc) : Bool := as.any fun a => s.dev.poison.contains (lineOf a)

/-- Whether a partition's data stands in a line: by its grants in HBM, by its owner in a scratchpad. -/
def linePart (p : Part) (l : Home × Nat) : Bool :=
  match l.1 with
  | .phys => (grantOf p (l.2 * 32)).isSome
  | .bench t => t.l.part = p.num
  | .handler k => k.t.l.part = p.num
  | .loft l _ => l.part = p.num
  | .yard l _ => l.part = p.num
  | .taskLoft t => t.l.part = p.num
  | .taskYard t => t.l.part = p.num

/-- A corrected error counted in a partition, saturating (R307). -/
def addEcc (p : Part) : Part :=
  if p.regs.ecccnt ≠ 0xFFFFFFFFFFFFFFFF then { p with regs := { p.regs with ecccnt := p.regs.ecccnt + 1 } } else p

/-- A corrected error in a register file, the map store, the accumulator store or another memory that holds a group's data (R350). -/
def correctedTurn (k : Gid) (s : State) : State :=
  if (group? s k).isSome then updPart k.t.l.part addEcc s else s

/-- A corrected error counted in every partition whose data the line held, saturating (R307, R350). -/
def countEcc (line : Home × Nat) (s : State) : State :=
  let up := fun (p : Part) => if p.live && linePart p line then addEcc p else p
  { s with p := up s.p, parts := s.parts.map up, dev := { s.dev with corrected := s.dev.corrected.filter fun l => l ≠ line } }

/-- Corrected errors of the lines that a read takes (R299). -/
def eccLines (read : Home × Nat → Bool) (s : State) : State := (s.dev.corrected.filter read).foldl (fun s l => countEcc l s) s

/-- Corrected errors met by a read (R299). -/
def eccRead (as : List Loc) (s : State) : State :=
  if s.dev.corrected.isEmpty then s else eccLines (fun l => as.any fun a => lineOf a = l) s

/-- MEMORY_ERROR ends the launch (R299). -/
def memError (k : Gid) (s : State) : State := endLaunch k.t.l (trapCode 19) s

/-! ### Signal updates of commands (R107) -/

/-- SAT of a command's signal update: ORed at once between two words of the issuing group, else when its word is over (R107). -/
def raiseSat (k : Gid) (s : State) : State :=
  updGroup k (fun g => if g.pos = .fetch then raise flagSAT g else { g with satDue := true }) s

/-- A signal update by a finished command on its path: signal_add, a release at .dev of the command's bytes, SAT in the issuing
group when it clamps (R107, R115, R222). A global signal of a replay task was recorded at issue and is not updated here (R107); the
commands of an aborted bundle update none (R272); an uncorrectable error in the signal ends the launch (R299). -/
def commandSignal (op : OpId) (path : Path) (sig : Option SigRef) (s : State) : State :=
  match sig with
  | none => s
  | some r =>
    let ls := locsFrom r.loc 8
    if (launch? s op.k.t.l).elim false fun l => l.muted || (l.replay && r.loc.home = .phys) then s
    else if poisoned s ls then memError op.k s
    else
      let s := eccRead ls s
      let (x, s) := rmwAt [] op path ls s
      let (new, clamp) := signalNew (BitVec.ofNat 64 (leNat x.bytes)) r.delta
      let s := putAt op path true x.passed r.loc r.va (leBytes 8 new.toNat) s
      let s := { s with rels := { bytes := ls, ended := passedPlain x.passed ls, scope := .dev, by_ := some op.k, op := op, core := coreOf s op.k, know := [],
                                  seen := [op], at_ := s.tick } :: s.rels }
      if clamp then raiseSat op.k s else s

/-- Whether a finished command finds an uncorrectable error in the signal that it is to update itself. -/
def signalBad (k : Gid) (sig : Option SigRef) (s : State) : Bool :=
  sig.any fun r => !((launch? s k.t.l).elim false fun l => l.muted || (l.replay && r.loc.home = .phys)) && poisoned s (locsFrom r.loc 8)

/-- A finished command's tag and signal (R106, R107); where it finds an uncorrectable error in its signal it updates neither, and the
launch ends (R299). -/
def commandEnd (op : OpId) (path : Path) (tag : Option Nat) (sig : Option SigRef) (s : State) : State :=
  if signalBad op.k sig s then memError op.k s else commandSignal op path sig (commandTag op tag s)

/-! ### The queue -/

/-- Unretired ops of a counter. -/
def ctrCount (g : Group) (c : Ctr) : Nat := (g.lane.filter fun o => o.ctr = c).length

/-- Whether one more op of a counter may issue: a 64th waits (R98). -/
def ctrRoom (g : Group) (c : Ctr) : Bool := ctrCount g c < 63

/-- Kinds that read memory (R227). -/
def LaneKind.reads : LaneKind → Bool
  | .load _ | .atom _ _ | .ared _ _ | .sigadd => true
  | _ => false

/-- Kinds that write memory (R227). -/
def LaneKind.writes : LaneKind → Bool
  | .store | .atom _ _ | .ared _ _ | .sigadd => true
  | _ => false

/-- The number of a scope (R217). -/
def scopeNum : Scope → Nat
  | .grp => 0 | .team => 1 | .clu => 2 | .die => 3 | .dev => 4 | .sys => 5

/-- The wider of two optional scopes. -/
def wider (a b : Option Scope) : Option Scope :=
  match a, b with
  | none, b => b
  | a, none => a
  | some x, some y => if scopeNum x < scopeNum y then some y else some x

/-- A new op at the end of the queue; the nearest write after a FENCE.rel takes its release (R227), a deferred ARED or SIGADD of a replay
task too (DESIGN CHOICE, unsafe: notes/assumptions/87.md). -/
def enqueue (o : LaneOp) (g : Group) : Group :=
  let w := o.kind.writes
  { g with
    lane := g.lane ++ [{ o with seq := g.seqn, rel := if w then wider o.rel g.relNext else o.rel }],
    seqn := g.seqn + 1,
    relNext := if w then none else g.relNext }

/-- An op of a kind before it is queued. -/
def laneOp (c : Ctr) (kind : LaneKind) (w : Nat) (accs : List Acc) (dst : LDst) : LaneOp :=
  { seq := 0, ctr := c, kind := kind, w := w, accs := accs, dst := dst, acq := [], bound := false, rel := none, done := false, parts := [],
    res := [], flags := 0, tags := [] }

/-- An op that touches nothing (R99). -/
def emptyOp (c : Ctr) : LaneOp := { laneOp c .empty 0 [] .none with done := true }

/-- A counted op that does not execute: an empty op, once its counter has room (R98, R99). -/
def offLane (c : Ctr) (s : State) : Res State :=
  if ctrRoom s.g c then .ok { s with g := enqueue (emptyOp c) s.g } else .hold

/-- An update of one queued op of a group. -/
def updLane (k : Gid) (seq : Nat) (f : LaneOp → LaneOp) (s : State) : State :=
  updGroup k (fun g => { g with lane := g.lane.map fun o => if o.seq = seq then f o else o }) s

/-! ### Order (R113, R114) -/

/-- Whether two resolved accesses share a byte. -/
def accMeet (a b : Acc) : Bool := a.loc.home = b.loc.home && a.loc.addr < b.loc.addr + b.w && b.loc.addr < a.loc.addr + a.w

/-- The nearest earlier lane-path op that reads, while it stands in the queue. A deferred ARED or SIGADD counts as one, though it touches
no memory (DESIGN CHOICE, unsafe: notes/assumptions/87.md). -/
def lastReader (g : Group) : Option LaneOp :=
  (g.lane.reverse.find? fun o => o.kind.reads).bind fun o => if g.lastSeq ≤ o.seq then some o else none

/-- Whether a read orders what follows it (R114 item 2): an acquire, and the newest read, since a FENCE.acq to come can make it one
(R115); not one that is to be overtaken (R116, notes/assumptions/72.md). -/
def LaneOp.leads (g : Group) (o : LaneOp) : Bool :=
  !o.bound && (!o.acq.isEmpty || (!g.exited && (lastReader g).any fun r => r.seq = o.seq))

/-- Whether all of p, earlier in program order, is locally ordered before q whatever they touch (R114 items 2 to 4). -/
def laneBefore (g : Group) (p q : LaneOp) : Bool :=
  q.rel.isSome || p.leads g || g.fences.any fun m => p.seq < m && m ≤ q.seq

/-- The accesses of an op that go with its i-th: an atomic's lanes below it (R225), a store's lanes below it that share a byte (R219). -/
def withLower (o : LaneOp) (i : Nat) : List Nat :=
  (List.range i).filter fun j => match o.kind with
    | .load _ => false
    | .store => (o.accs[j]?).any fun a => (o.accs[i]?).any fun b => accMeet a b
    | _ => true

/-- What must be performed of an op: some of its accesses, or all of it with its end. -/
structure Need where
  o : LaneOp
  is : List Nat
  whole : Bool
  deriving DecidableEq, Repr

/-- An op needed whole. -/
def Need.all (o : LaneOp) : Need := ⟨o, List.range o.accs.length, true⟩

/-- Some accesses of an op needed, with those that go with them. -/
def Need.some_ (o : LaneOp) (is : List Nat) : Need := ⟨o, (is.flatMap fun i => withLower o i ++ [i]).eraseDups, false⟩

/-- The accesses needed. -/
def Need.accs (n : Need) : List Acc := n.is.filterMap fun i => n.o.accs[i]?

/-- What must be performed of p, earlier in program order, before what is needed of later ops: all of it, or the accesses that share a
byte with theirs (R113). -/
def needOf (g : Group) (ns : List Need) (p : LaneOp) : Option Need :=
  if ns.any fun n => laneBefore g p n.o then some (.all p)
  else
    let later := ns.flatMap Need.accs
    match (List.range p.accs.length).filter fun i => (p.accs[i]?).any fun a => later.any fun b => accMeet a b with
    | [] => none
    | is => some (.some_ p is)

/-- What must be performed before what is needed of an op, found from the newest earlier op back; in program order. -/
def laneClosure (g : Group) : List LaneOp → List Need → List Need
  | [], ns => ns
  | p :: ps, ns => laneClosure g ps ((needOf g ns p).toList ++ ns)

/-! ### Performing -/

/-- The new value of an atomic operation and its flags (R224): operation, signedness, width in bytes, old value, data, expected
value. -/
def atomNew (aop : Nat) (sgn : Bool) (w : Nat) (o d e : Nat) : Nat × Flags :=
  let m := 2 ^ (8 * w)
  let d := d % m
  let x := intRead (8 * w) sgn o
  let y := intRead (8 * w) sgn d
  match aop with
  | 0 => ((o + d) % m, 0)
  | 1 => fAdd fmtF32 0 false o d
  | 2 => (if x ≤ y then o else d, 0)
  | 3 => (if x ≤ y then d else o, 0)
  | 4 => (Nat.land o d, 0)
  | 5 => (Nat.lor o d, 0)
  | 6 => (Nat.xor o d, 0)
  | 7 => (d, 0)
  | _ => (if o = e % m then d else o, 0)

/-- What a load delivers for one access: sign- or zero-extended (R171, R219). -/
def loadVal (sgn : Bool) (w : Nat) (bs : List Byte) : BitVec 128 :=
  if sgn then BitVec.ofInt 128 (sextNat (8 * w) (leNat bs)) else BitVec.ofNat 128 (leNat bs)

/-- The release of a write at its scope (R115); global writes of replay tasks synchronise within the task (R124). -/
def releaseAt (op : OpId) (rel : Option Scope) (a : Loc) (w : Nat) (ended : List (Loc × OpId)) (s : State) : State :=
  match rel with
  | none => s
  | some sc => release op sc a w ended s

/-- What performing one access brings: the value it returns, its flags, and the releases it found. -/
structure Done where
  got : Option (BitVec 128)
  flags : Flags
  tags : List RelTag
  deriving DecidableEq, Repr

/-- One access of a load. -/
def performRead (op : OpId) (sgn : Bool) (a : Acc) (s : State) : Done × State :=
  let ls := locsFrom a.loc a.w
  let (xs, s) := readSeen op.k .lane op.seq ls s
  (⟨some (loadVal sgn a.w (xs.map Seen.byte)), 0, relsAt s op.k (ls.zip (xs.map Seen.passed))⟩, s)

/-- One access of a store. -/
def performWrite (op : OpId) (rel : Option Scope) (a : Acc) (s : State) : State :=
  let ls := locsFrom a.loc a.w
  let (ps, s) := passEach [] op .lane ls s
  releaseAt op rel a.loc a.w ((ls.zip ps).flatMap fun x => passedPlain x.2 [x.1]) (putPlain op .lane ps a.loc a.va (leBytes a.w a.data.toNat) s)

/-- One read-modify-write: `new` gives the new value and the flags from the old (R224, R225). -/
def performRmw (op : OpId) (rel : Option Scope) (new : Nat → Nat × Flags) (a : Acc) (s : State) : Done × State :=
  let ls := locsFrom a.loc a.w
  let (x, s) := rmwAt [] op .lane ls s
  let o := leNat x.bytes
  let (n, f) := new o
  (⟨some (BitVec.ofNat 128 o), f, relsAt s op.k (ls.map (passedOps x.passed))⟩,
   releaseAt op rel a.loc a.w (passedPlain x.passed ls) (putAt op .lane true x.passed a.loc a.va (leBytes a.w n) s))

/-- One access of an op, its line free of uncorrectable errors. -/
def performOn (op : OpId) (o : LaneOp) (a : Acc) (s : State) : Done × State :=
  match o.kind with
  | .empty => (⟨none, 0, []⟩, s)
  | .load sgn => performRead op sgn a s
  | .store => (⟨none, 0, []⟩, performWrite op o.rel a s)
  | .atom aop sgn => performRmw op o.rel (fun x => atomNew aop sgn a.w x a.data.toNat a.exp.toNat) a s
  | .ared aop sgn =>
    let (d, s) := performRmw op o.rel (fun x => atomNew aop sgn a.w x a.data.toNat a.exp.toNat) a s
    (⟨none, 0, d.tags⟩, s)
  | .sigadd =>
    let (d, s) := performRmw op o.rel (fun x =>
      let y := signalNew (BitVec.ofNat 64 x) (a.data.setWidth 64)
      (y.1.toNat, flagIf y.2 flagSAT)) a s
    (⟨none, d.flags, d.tags⟩, s)

/-- An op after one access: what it returned is kept for retirement. -/
def noteDone (i : Nat) (a : Acc) (d : Done) (o : LaneOp) : LaneOp :=
  { o with parts := i :: o.parts, res := o.res ++ (d.got.toList.map fun v => ⟨a.lane, a.sub, v⟩), flags := d.flags ||| o.flags,
           tags := o.tags ++ d.tags.filter fun t => !o.tags.contains t }

/-- The op of a group with a program-order number. -/
def laneOp? (s : State) (k : Gid) (seq : Nat) : Option LaneOp := (group? s k).bind fun g => g.lane.find? fun o => o.seq = seq

/-- The i-th access of an op performed, where it is still to come (R119, R220); an uncorrectable error in what it reads ends the
launch. -/
def performAcc (k : Gid) (seq i : Nat) (s : State) : State :=
  match laneOp? s k seq with
  | none => s
  | some o =>
    match o.accs[i]? with
    | none => s
    | some a =>
      if o.done || o.parts.contains i then s
      else
        let ls := locsFrom a.loc a.w
        if o.kind.reads && poisoned s ls then memError k (updLane k seq (noteDone i a ⟨none, 0, []⟩) s)
        else
          let s := if o.kind.reads then eccRead ls s else s
          let (d, s) := performOn ⟨k, seq⟩ o a s
          updLane k seq (noteDone i a d) s

/-- An op whose accesses are all performed: it is done, and its acquires take effect (R115, R116). -/
def performEnd (k : Gid) (seq : Nat) (s : State) : State :=
  match laneOp? s k seq with
  | none => s
  | some o =>
    if o.done then s
    else o.acq.foldl (fun s sc => acquire k sc seq o.tags s) (updLane k seq (fun o => { o with done := true }) s)

/-- Whether every acquire of a performed op was a scope mismatch (R116). -/
def allMissed (k : Gid) (seq : Nat) (s : State) : Bool :=
  (laneOp? s k seq).any fun o => o.acq.all fun sc => missed s k sc o.tags

/-- One op performed whole: the accesses still to come in ascending lane order, then its end. An acquire that is to be a scope mismatch
is performed only where it is one (R116). -/
def performOne (k : Gid) (o : LaneOp) (s : State) : State :=
  let t := performEnd k o.seq ((List.range o.accs.length).foldl (fun s i => performAcc k o.seq i s) s)
  if o.bound && !o.done && !allMissed k o.seq t then s else t

/-- Whether an op of a group is still to be performed. -/
def undone (k : Gid) (seq : Nat) (s : State) : Bool := (laneOp? s k seq).any fun o => !o.done

/-- What is needed performed in order, up to an op that cannot go yet. -/
def performList (k : Gid) : List Need → State → State
  | [], s => s
  | n :: ns, s =>
    if n.whole then
      let t := performOne k n.o s
      if undone k n.o.seq t then t else performList k ns t
    else performList k ns (n.is.foldl (fun s i => performAcc k n.o.seq i s) s)

/-- What must be performed of the earlier ops of a group before something of its op with a number. -/
def opsBefore (g : Group) (n : Need) : List Need :=
  (laneClosure g ((g.lane.filter fun p => p.seq < n.o.seq).reverse) [n]).dropLast

/-- Whether all that was needed whole has been performed. -/
def allDone (k : Gid) (ns : List Need) (s : State) : Bool := ns.all fun n => !n.whole || !undone k n.o.seq s

/-- One op of a group performed with every earlier access that is ordered before it. -/
def performTo (k : Gid) (seq : Nat) (s : State) : State :=
  match group? s k with
  | none => s
  | some g =>
    match g.lane.find? fun o => o.seq = seq with
    | none => s
    | some o => performList k (opsBefore g (.all o) ++ [.all o]) s

/-- One access of an op performed apart from the others (R119, R220), after every earlier access that is ordered before it. -/
def performPart (k : Gid) (seq i : Nat) (s : State) : State :=
  match group? s k with
  | none => s
  | some g =>
    match g.lane.find? fun o => o.seq = seq with
    | none => s
    | some o => performList k (opsBefore g (.some_ o [i]) ++ [.some_ o [i]]) s

/-- Every op of a group that is older than a number performed, in order; none where one of them cannot go yet. -/
def performOlder (k : Gid) (seq : Nat) (s : State) : Option State :=
  match group? s k with
  | none => some s
  | some g =>
    let ns := (g.lane.filter fun p => p.seq < seq).map Need.all
    let t := performList k ns s
    if allDone k ns t then some t else none

/-- Every op of a group performed; none where one of them cannot go yet. -/
def performAll (k : Gid) (s : State) : Option State := performOlder k ((group? s k).elim 0 Group.seqn) s

/-- The acquires of a group older than a number, and its newest read, performed, since later accesses on every path follow them (R114 item 2); none where one of
them cannot go yet. -/
def performAcquires (k : Gid) (seq : Nat) (s : State) : Option State :=
  match group? s k with
  | none => some s
  | some g =>
    let os := g.lane.filter fun p => p.seq < seq && p.leads g
    let t := os.foldl (fun s p => performTo k p.seq s) s
    if os.any fun p => undone k p.seq t then none else some t

/-- What follows the acquires of a group older than a number; nothing where one of them cannot go yet. -/
def afterAcquires (k : Gid) (seq : Nat) (next : State → State) (s : State) : State := (performAcquires k seq s).elim s next

/-- A read still to be performed is to be overtaken: the accesses after it do not follow it. Where it is an acquire, or a FENCE.acq makes
it one, it is to be a scope mismatch, and is performed where it finds that (R116; DESIGN CHOICE, safe: notes/assumptions/72.md). -/
def missTurn (k : Gid) (seq : Nat) (s : State) : State :=
  updLane k seq (fun o => if o.kind.reads && !o.done then { o with bound := true } else o) s

/-! ### Retirement -/

/-- Registers written by a retiring op (R98, R219, R225, R211). -/
def deliver (o : LaneOp) (g : Group) : Group :=
  match o.dst with
  | .none => g
  | .vec d n => o.res.foldl (fun g r => (List.range (min n 2)).foldl (fun g j =>
      setLane g (d + 2 * r.sub + j) r.lane (r.val.extractLsb' (32 * j) 32)) g) g
  | .scl d => o.res.foldl (fun g r => setS g d (r.val.setWidth 64)) g
  | .acc d => o.res.foldl (fun g r => setA g (d + r.sub) r.lane (r.val.setWidth 64)) g

/-- A group after one of its ops has retired; `still` tells the retired ops that it still matters to observe. A group has observed its
ASAVE and ALOAD once they are done, since no WAIT is needed for them (R211; DEDUCED, unsafe: notes/assumptions/73.md). -/
def retireOp (still : Nat → Bool) (o : LaneOp) (g : Group) : Group :=
  let g := raise o.flags (deliver o g)
  let newest := o.kind.reads && g.lastSeq ≤ o.seq
  let seen := o.ctr = .acc && still o.seq
  { g with lane := g.lane.filter fun p => p.seq ≠ o.seq,
           retired := ((o.ctr, o.seq) :: g.retired).filter fun x => x.1 ≠ .acc && still x.2,
           observed := if seen then ⟨⟨g.id, o.seq⟩, g.seqn⟩ :: g.observed else g.observed,
           lastRead := if newest then o.tags else g.lastRead,
           lastSeq := if newest then o.seq else g.lastSeq,
           lastBound := if newest then o.bound else g.lastBound }

/-- Held ops of a team try again. -/
def wake (t : Tid) (s : State) : State :=
  updTeamGroups t (fun g => if g.wait = .hold then { g with wait := .none, since := s.tick } else g) s

/-- The oldest op of a counter retires (R98); nothing when there is none. -/
def retireHead (k : Gid) (c : Ctr) (s : State) : State :=
  match (group? s k).bind fun g => g.lane.find? fun o => o.ctr = c with
  | none => s
  | some o =>
    let s := performTo k o.seq s
    match (group? s k).bind fun g => g.lane.find? fun p => p.seq = o.seq with
    | none => s
    | some o => if o.done then wake k.t (updGroup k (retireOp (fun q => noted s ⟨k, q⟩) o) s) else s

/-- LOAD_RETIRE (R98). -/
def execLoadRetire (k : Gid) (s : State) : Out := .next (retireHead k .ld s)

/-- STORE_RETIRE (R98). -/
def execStoreRetire (k : Gid) (s : State) : Out := .next (retireHead k .st s)

/-- The held-back group goes on once no ASAVE or ALOAD is left (R211). -/
def accWake (g : Group) : Group :=
  if g.wait = .acc && !(g.lane.any fun o => o.ctr = .acc) then { g with wait := .none } else g

/-- ACCUMULATOR_TRANSFER_COMPLETE (R211). -/
def execAccumulatorTransferComplete (k : Gid) (s : State) : Out := .next (updGroup k accWake (retireHead k .acc s))

/-- DEFERRED_ISSUE (R98, R100): a held op tries its issue again. -/
def execDeferredIssue (k : Gid) (s : State) : Out :=
  .next (updGroup k (fun g => if g.wait = .hold then { g with wait := .none, since := s.tick } else g) s)

end Sys2Proof.Machine
end

