-- ==== Sys2Proof/Machine/MemOps.lean ====
section
/-!
DEFINITION. Lane-path memory ops (R171, R211, R216 to R229): addresses, loads and stores, atomics and their rounds (R226, R323),
fences, XFENCE and PROMOTE; and the space that merge buffers take in the spill pool (R317).
-/
namespace Sys2Proof.Machine

/-! ### Addresses (R218) -/

/-- The signed offset of a lane: a vector register, a broadcast scalar or a constant, bits 31:0 sign-extended. -/
def laneOffset (g : Group) (f : OpF) (x : Src) (i : Nat) : W64 :=
  let w : W32 := if isImm x then f.lit.setWidth 32
    else if x.map = 15 then (getS g x.reg.toNat).setWidth 32 else getLane g x.reg.toNat i
  w.signExtend 64

/-- DISP of a long VLD or VST (R217). -/
def memDisp (f : OpF) : W64 :=
  if f.form = .long then BitVec.signExtend 64 (f.imm.extractLsb' 0 16) else 0

/-- The address of a lane of VLD, VST, ATOM and ARED; the atomics have no DISP, and their bits 15:0 are zero. -/
def memAddr (g : Group) (f : OpF) (i : Nat) : W64 :=
  getS g f.a.reg.toNat + laneOffset g f f.b i + memDisp f

/-- Bytes of a width code. -/
def widthBytes (w : Nat) : Nat := 2 ^ w

/-- Active lanes in ascending order. -/
def lanesOf (m : W32) : List Nat := (List.range 32).filter fun i => lane m i

/-- The accesses of a vector memory op, one a lane. -/
def memReqs (g : Group) (f : OpF) (rd wr : Bool) (data : Nat → BitVec 128) (exp : Nat → W64) : List Req :=
  (lanesOf (activeMask g f.guard)).map fun i =>
    { lane := i, role := 0, sub := 0, sp := spaceOf (memQ f), addr := memAddr g f i, w := widthBytes (memW f), rd := rd, wr := wr,
      data := data i, exp := exp i }

/-- n consecutive registers of a lane, the low register lowest (R219). -/
def regCat (g : Group) (r n i : Nat) : Nat :=
  (List.range n).foldl (fun a j => a + (getLane g (r + j) i).toNat * 2 ^ (32 * j)) 0

/-! ### The memory word (R217) -/

/-- AOP. -/
def memAop (f : OpF) : Nat := (f.imm.extractLsb' 23 4).toNat
/-- SGN, or the short form's .i. -/
def memSgn (f : OpF) : Bool := if f.form = .long then f.imm.getLsbD 22 else f.opt
/-- SCOPE. -/
def memScope (f : OpF) : Nat := (f.imm.extractLsb' 19 3).toNat
/-- ORDER bit 0: acquire. -/
def memAcq (f : OpF) : Bool := f.imm.getLsbD 17
/-- ORDER bit 1: release. -/
def memRel (f : OpF) : Bool := f.imm.getLsbD 18

/-- VLD and VST: unused fields zero, the widths, and .i for narrow loads only (R216, R217); SGN of a long VLD is limited to them as .i is
(DESIGN CHOICE, unsafe: notes/assumptions/102.md). -/
def plainOk (load : Bool) (f : OpF) : Bool :=
  decide (memW f ≤ 4) && (f.form ≠ .long || f.imm.extractLsb' 16 6 = 0 && f.imm.extractLsb' 23 4 = 0) &&
    (!memSgn f || (load && decide (memW f ≤ 1)))

/-- ATOM and ARED (R217, R223, R224). -/
def atomicOk (ret : Bool) (f : OpF) : Bool :=
  (memW f = 2 || memW f = 3) && f.imm.extractLsb' 0 16 = 0 && decide (memScope f ≤ 5) && decide (memAop f < 9) &&
    (memAop f ≠ 1 || memW f = 2) && (!memSgn f || memAop f = 2 || memAop f = 3) &&
    (ret || (decide (memAop f ≤ 6) && !memAcq f && !memOrd f))

/-- FENCE (R227). -/
def fenceOk (f : OpF) : Bool :=
  f.imm.extractLsb' 22 10 = 0 && f.imm.extractLsb' 0 17 = 0 && decide (memScope f ≤ 5) &&
    (memAcq f || memRel f || memScope f = 0)

/-! ### Merge buffers in the spill pool (R317) -/

/-- The 64-byte lines of global memory that accesses cover. -/
def linesOf (as : List Acc) : List Nat :=
  (as.flatMap fun a => if a.loc.home = .phys then [a.loc.addr / 64, (a.loc.addr + a.w - 1) / 64] else []).eraseDups

/-- Lines of a task's buffer. -/
def bufLines (t : Task) : List Nat := (t.buf.map fun b => b.addr / 64).eraseDups

/-- Global bytes that issued ops of a group have still to write on the paths that reserve at issue (R317). -/
def pendingWrites (g : Group) : List Acc :=
  (g.copies.filter fun c => !c.done).flatMap (fun c => c.pairs.map Prod.snd) ++
  (g.mapops.filter fun o => o.kind = .store && !o.done).flatMap MapOp.accs ++ g.imgs.flatMap ImgOp.writes ++
  g.bobs.flatMap fun b => b.moves.map fun m => ⟨0, 0, m.dst, m.dva, max 1 (m.w / 8), 0, 0⟩

/-- The lines of the pool that a task holds: those of its buffer, and those that issued ops of its team have reserved. -/
def heldLines (s : State) (k : Lid) (t : Task) : List Nat :=
  (bufLines t ++ linesOf ((teamGroups s ⟨k, t.team⟩).flatMap pendingWrites)).eraseDups

/-- Bytes of the pool that the unapplied merge buffers of a launch take. -/
def mergeBytes (s : State) (l : Launch) : Nat :=
  if l.replay then l.tasks.foldl (fun a t => a + 192 * (heldLines s l.id t).length + 32 * t.recs.length) 0 else 0

/-- Bytes of the backing store of a team that does not fit its physical registers (R21). -/
def backingBytes (k : Kernel) (regs : Nat) : Nat := if k.groups * k.regs ≤ regs then 0 else k.groups * k.regs * 128

/-- Bytes of a partition's pool in use: backing stores, contexts and merge buffers (R287, R310, R317). -/
def poolUsed (s : State) (p : Nat) : Nat :=
  ((allTeams s).filter fun t => t.id.l.part = p).foldl
    (fun a t => a + backingBytes ((launch? s t.id.l).elim Kernel.idle Launch.kern) t.regs) 0 +
  ((part? s p).elim [] Part.saved).foldl (fun a x => a + x.record.length) 0 +
  ((allLaunches s).filter fun l => l.id.part = p).foldl (fun a l => a + mergeBytes s l) 0

/-- Bytes of the pool that the global bytes and the records of an op of the group in focus need beyond what its task holds (R317). -/
def poolNeed (s : State) (ws : List Acc) (recs : Nat) : Nat :=
  match taskOf s.l s.g.id.t with
  | none => 0
  | some t => 192 * ((linesOf ws).filter fun x => !(heldLines s s.l.id t).contains x).length + 32 * recs

/-- Where a span of the pool first touches each of its pages below the pool's end, from the base up. -/
def poolPages (used top : Nat) : List Nat :=
  (List.range (if used < top then (top - 1) / 4096 + 1 - used / 4096 else 0)).map fun i => max used ((used / 4096 + i) * 4096)

/-- Space for what an op of the group in focus adds (R317); the pool is filled from its base up (notes/assumptions/14.md). A reservation
on a page that does not translate parks the op with the fault of its translation (R297), else one past the pool with REASON 0: the
lowest failing address is reported. -/
def reserve (s : State) (path : Nat) (ws : List Acc) (recs : Nat) : Res Unit :=
  let need := poolNeed s ws recs
  if need = 0 then .ok ()
  else
    let used := poolUsed s s.p.num
    let base := s.p.regs.spillbase
    let at_ := fun (n : Nat) => base + BitVec.ofNat 64 n
    let size := s.p.regs.spillsize.toNat
    match (poolPages used (min (used + need) size)).find? fun n => xrFaults (xlat s s.p ⟨true, true, false⟩ (at_ n) 1) with
    | some n => .park (faultPark path 1 (at_ n) (xlat s s.p ⟨true, true, false⟩ (at_ n) 1))
    | none => if size < used + need then .park (parkOf path 1 (at_ (max used size)) 0 none 0) else .ok ()

/-! ### Issue -/

/-- Waits at issue for room in a counter (R98). -/
def needRoom (c : Ctr) (s : State) : Res Unit := if ctrRoom s.g c then .ok () else .hold

/-- An op put into the lane queue of the group in focus. -/
def issueLane (o : LaneOp) (s : State) : Res State := .ok { s with g := enqueue o s.g }

/-- A 16-byte access as two of 8 bytes (R119, R219). -/
def halves (a : Acc) : List Acc :=
  if a.w = 16 then
    [{ a with w := 8, data := (a.data.extractLsb' 0 64).setWidth 128 },
     { a with sub := 1, loc := { a.loc with addr := a.loc.addr + 8 }, va := a.va + 8, w := 8,
              data := (a.data.extractLsb' 64 64).setWidth 128 }]
  else [a]

/-- A load or store put into the queue with its accesses. A store of a replay task that needs new lines of the pool reserves them and is
performed as it issues, since a fault of the reservation is one of the issuing op (R296, R317; notes/assumptions/14.md). -/
def issueWith (o : LaneOp) (s : State) : Res State :=
  if !o.kind.writes || poolNeed s o.accs 0 = 0 then issueLane o s
  else
    (reserve s 0 o.accs 0).bind fun _ => (issueLane o s).bind fun t =>
      let u := performTo s.g.id s.g.seqn t
      if undone s.g.id s.g.seqn u then .hold else .ok u

/-- A load, store or atomic after its legality: room, the checks of R97, pool space, and the queue. -/
def issueMem (o : LaneOp) (rs : List Req) (s : State) : Res State :=
  (needRoom o.ctr s).bind fun _ => (checkReqs s 0 rs).bind fun accs => issueWith { o with accs := accs.flatMap halves } s

/-! ### VLD and VST (R219, R220) -/

/-- No data and no expected value. -/
def noData (_ : Nat) : BitVec 128 := 0
/-- No expected value. -/
def noExp (_ : Nat) : W64 := 0

/-- VLD past its legality. -/
def vldBody (f : OpF) (s : State) : Res State :=
  (Res.require (plainOk true f)).bind fun _ =>
    issueMem (laneOp .ld (.load (memSgn f)) (widthBytes (memW f)) [] (.vec f.dst.toNat (spanW (memW f))))
      (memReqs s.g f true false noData noExp) s

/-- VLD. A sign-extending load of a narrow element extends to the register's 32 bits. -/
def execVld (f : OpF) (s : State) : Out := runWith .vld f (offLane .ld) (vldBody f) s

/-- Data that a VST reads when it issues. -/
def vstData (g : Group) (f : OpF) (i : Nat) : BitVec 128 :=
  BitVec.ofNat 128 (regCat g f.dst.toNat (spanW (memW f)) i % 2 ^ (8 * widthBytes (memW f)))

/-- VST past its legality. -/
def vstBody (f : OpF) (s : State) : Res State :=
  (Res.require (plainOk false f)).bind fun _ =>
    issueMem (laneOp .st .store (widthBytes (memW f)) [] .none) (memReqs s.g f false true (vstData s.g f) noExp) s

/-- VST. -/
def execVst (f : OpF) (s : State) : Out := runWith .vst f (offLane .st) (vstBody f) s

/-! ### SLD and SST (R171) -/

/-- The width code of SLD and SST: .b64 in a short form. -/
def scalarW (f : OpF) : Nat := if f.form = .long then (f.imm.extractLsb' 0 2).toNat else 3
/-- SIGN of a long SLD. -/
def scalarSgn (f : OpF) : Bool := f.form = .long && f.imm.getLsbD 2
/-- Bits 31:3 zero, and no SIGN with .b64 or on a store. -/
def scalarOk (load : Bool) (f : OpF) : Bool :=
  (f.form ≠ .long || f.imm.extractLsb' 3 29 = 0) && (!scalarSgn f || (load && scalarW f ≠ 3))

/-- The access of SLD or SST. -/
def scalarReq (g : Group) (f : OpF) (rd wr : Bool) (data : BitVec 128) : Req :=
  { lane := 0, role := 0, sub := 0, sp := spaceOf (f.dst.toNat / 64), addr := intS g f f.a + intS g f f.b,
    w := widthBytes (scalarW f), rd := rd, wr := wr, data := data, exp := 0 }

/-- SLD past its legality. -/
def sldBody (f : OpF) (s : State) : Res State :=
  (Res.require (scalarOk true f)).bind fun _ =>
    issueMem (laneOp .ld (.load (scalarSgn f)) (widthBytes (scalarW f)) [] (.scl (f.dst.toNat % 64)))
      [scalarReq s.g f true false 0] s

/-- SLD. -/
def execSld (f : OpF) (s : State) : Out := runWith .sld f (offLane .ld) (sldBody f) s

/-- SST past its legality. -/
def sstBody (f : OpF) (s : State) : Res State :=
  (Res.require (scalarOk false f)).bind fun _ =>
    issueMem (laneOp .st .store (widthBytes (scalarW f)) [] .none)
      [scalarReq s.g f false true (((getS s.g (f.dst.toNat % 64)).setWidth (8 * widthBytes (scalarW f))).setWidth 128)] s

/-- SST. -/
def execSst (f : OpF) (s : State) : Out := runWith .sst f (offLane .st) (sstBody f) s

/-! ### ASAVE and ALOAD (R211) -/

/-- Number of accumulators moved. -/
def accCount (f : OpF) : Nat := (f.imm.extractLsb' 26 6).toNat + 1

/-- The containers of the active lanes. -/
def accReqs (g : Group) (f : OpF) (wr : Bool) : List Req :=
  let base := getS g f.a.reg.toNat + BitVec.signExtend 64 (f.imm.extractLsb' 0 26)
  (lanesOf (activeMask g f.guard)).flatMap fun i => (List.range (accCount f)).map fun j =>
    { lane := i, role := 0, sub := j, sp := spaceOf (f.dst.toNat / 64), addr := base + BitVec.ofNat 64 (256 * j + 8 * i), w := 8,
      rd := !wr, wr := wr, data := if wr then (getA g (f.dst.toNat % 64 + j) i).setWidth 128 else 0, exp := 0 }

/-- An op of no counter, which holds back the group's next word until it is done. -/
def issueAcc (o : LaneOp) (rs : List Req) (s : State) : Res State :=
  (checkReqs s 0 rs).bind fun accs => issueWith { o with accs := accs } s

/-- ASAVE. -/
def execAsave (f : OpF) (s : State) : Out :=
  runS .asave f (fun s => issueAcc (laneOp .acc .store 8 [] .none) (accReqs s.g f true) s) s

/-- ALOAD. -/
def execAload (f : OpF) (s : State) : Out :=
  runS .aload f (fun s => issueAcc (laneOp .acc (.load false) 8 [] (.acc (f.dst.toNat % 64))) (accReqs s.g f false) s) s

/-! ### Rounds (R35, R226, R323) -/

/-- ORDER_VIOLATION with its round (R298, R323). -/
def trapOrder (round : Nat) : TrapI := ⟨15, 0, 0, 0, 0, BitVec.ofNat 64 round⟩

/-- The two situations of R323, and a returning atomic that replay mode does not allow (R35). -/
def ordAllowed (s : State) (f : OpF) : Bool :=
  let pc := opPc s.g
  (!s.l.replay || (memOrd f && decide (memScope f ≤ 1))) &&
    (!memOrd f || (((ordEntry s.t pc).isSome || decide (s.t.seqr.length < 14)) && ordRound s pc + 1 ≠ 2 ^ 32))

/-- The entry of the op, taken where it is new. -/
def ordTake (s : State) : Nat × State :=
  let pc := opPc s.g
  match ordEntry s.t pc with
  | some e => (e, s)
  | none => (s.t.seqr.length, { s with t := { s.t with seqr := s.t.seqr ++ [⟨pc, List.replicate s.l.kern.groups 0⟩] } })

/-- A round taken: the group waits for its turn. -/
def ordWait (o : LaneOp) (s : State) : Res State :=
  let r := ordRound s (opPc s.g)
  let (e, s) := ordTake s
  .block { s with g := { s.g with wait := .ord e r o } }

/-- Whether every lower-numbered group has completed n + 1 rounds or has exited (R323); an absent group has exited. -/
def ordTurn (s : State) (t : Team) (num e r : Nat) : Bool :=
  (List.range num).all fun n => (group? s ⟨t.id, n⟩).elim true fun h => hasExited h || decide (r < ordDone t e n)

/-- A round counted for a group. -/
def ordCount (e n : Nat) (t : Team) : Team :=
  { t with seqr := t.seqr.zipIdx.map fun x =>
      if x.2 = e then { x.1 with done := x.1.done.zipIdx.map fun d => if d.2 = n then d.1 + 1 else d.1 } else x.1 }

/-! ### ATOM and ARED (R223 to R226) -/

/-- Data of a lane: a register pair or register, or the whole broadcast scalar. -/
def atomData (g : Group) (f : OpF) (i : Nat) : BitVec 128 :=
  if f.c.map = 15 then (getS g f.c.reg.toNat).setWidth 128 else BitVec.ofNat 128 (regCat g f.c.reg.toNat (spanW (memW f)) i)

/-- The expected value of a .cas. -/
def atomExp (g : Group) (f : OpF) (i : Nat) : W64 := BitVec.ofNat 64 (regCat g f.dst.toNat (spanW (memW f)) i)

/-- The op that an ATOM queues. -/
def atomOp (f : OpF) : LaneOp :=
  { laneOp .ld (.atom (memAop f) (memSgn f)) (widthBytes (memW f)) [] (.vec f.dst.toNat (spanW (memW f))) with
    acq := if memAcq f then [scopeOf (memScope f)] else []
    rel := if memRel f then some (scopeOf (memScope f)) else none }

/-- An ATOM with its checks made: queued, or waiting for its turn. -/
def atomIssue (f : OpF) (accs : List Acc) (s : State) : Res State :=
  let o := { atomOp f with accs := accs }
  if memOrd f then ordWait o s else issueLane o s

/-- ATOM past its legality: ORDER_VIOLATION comes before check 2 of R97. -/
def atomBody (f : OpF) (s : State) : Res State :=
  (Res.require (atomicOk true f)).bind fun _ =>
    if ordAllowed s f then
      (needRoom .ld s).bind fun _ =>
        (checkReqs s 0 (memReqs s.g f true true (atomData s.g f) (atomExp s.g f))).bind fun accs => atomIssue f accs s
    else .trap (trapOrder (ordRound s (opPc s.g)))

/-- ATOM that does not execute: an empty op, which still takes its round (R226), with the check of R323 as an executing one (DESIGN CHOICE,
unsafe: notes/assumptions/103.md). -/
def atomOff (f : OpF) (s : State) : Res State :=
  if memOrd f then
    (needRoom .ld s).bind fun _ =>
      if (ordEntry s.t (opPc s.g)).isNone && decide (14 ≤ s.t.seqr.length) || ordRound s (opPc s.g) + 1 = 2 ^ 32 then
        .trap (trapOrder (ordRound s (opPc s.g)))
      else ordWait (emptyOp .ld) s
  else offLane .ld s

/-- ATOM. -/
def execAtom (f : OpF) (s : State) : Out := runWith .atom f (atomOff f) (atomBody f) s

/-- The records a deferred ARED makes, one a lane in ascending order (R318). -/
def aredRecs (op : OpId) (f : OpF) (accs : List Acc) : List RedRec :=
  accs.map fun a => ⟨a.loc.addr, a.va, a.w, memAop f, memSgn f, (a.data.setWidth (8 * a.w)).setWidth 64, op, .lane, 0⟩

/-- The op that an ARED queues. -/
def aredOp (f : OpF) : LaneOp :=
  { laneOp .st (.ared (memAop f) (memSgn f)) (widthBytes (memW f)) [] .none with
    rel := if memRel f then some (scopeOf (memScope f)) else none }

/-- Whether an update of the group in focus in a space is left to the seam (R34, R107). -/
def deferred (s : State) (sp : Space) : Bool := s.l.replay && sp = .g

/-- ARED past its legality: on global memory of a replay launch it is deferred to the seam (R34, R226). -/
def aredBody (f : OpF) (s : State) : Res State :=
  (Res.require (atomicOk false f)).bind fun _ => (needRoom .st s).bind fun _ =>
    (checkReqs s 0 (memReqs s.g f true true (atomData s.g f) noExp)).bind fun accs =>
      if deferred s (spaceOf (memQ f)) then
        (reserve s 0 [] accs.length).bind fun _ =>
          issueLane { aredOp f with done := true } ((aredRecs ⟨s.g.id, s.g.seqn⟩ f accs).foldl (fun s r => addRed s.g r s) s)
      else issueLane { aredOp f with accs := accs } s

/-- ARED. -/
def execAred (f : OpF) (s : State) : Out := runWith .ared f (offLane .st) (aredBody f) s

/-- The .ord atomic of the group in focus performed in its round, where what goes before it can go; it reserves its lines of the pool
then (R317), and a fault of the reservation parks the group at its slot. -/
def ordPerform (e : Nat) (o : LaneOp) (s : State) : State :=
  match reserve s 0 (if o.kind.writes then o.accs else []) 0 with
  | .park p => parkAt p { s with g := { s.g with wait := .none } }
  | _ =>
    let t := performTo s.g.id s.g.seqn { s with g := nextSlot (enqueue o s.g), t := ordCount e s.g.id.num s.t }
    if undone s.g.id s.g.seqn t then s else t

/-- ATOM_ORD_ROUND (R226, R323): a group whose turn has come performs its op and completes its round. -/
def execAtomOrdRound (k : Gid) (s : State) : Out :=
  let s := focus k s
  if s.g.live && s.g.id = k then
    match s.g.wait with
    | .ord e r o => if ordTurn s s.t k.num e r then .next (ordPerform e o s) else .next s
    | _ => .next s
  else .next s

/-- Whether a barrier id completes: every group of the team has arrived or has exited (R235). -/
def barReady (s : State) (t : Team) (id : Nat) (groups : Nat) : Bool :=
  (List.range groups).all fun n =>
    ((t.bars.getD id ⟨0, [], []⟩).arrived).contains n || (group? s ⟨t.id, n⟩).elim true hasExited

/-- Whether a group waits where only another group's progress can free it (R35). -/
def ordStuck (s : State) (t : Team) (groups : Nat) (g : Group) : Bool :=
  match g.wait with
  | .ord e r _ => !ordTurn s t g.id.num e r
  | .bar id _ => !barReady s t id groups
  | _ => false

/-- The group that the deadlock rule names (R35). -/
def ordVictim (s : State) (t : Team) (groups : Nat) : Option Gid :=
  let gs := (teamGroups s t.id).filter fun g => !hasExited g
  if gs.isEmpty || !(gs.all (ordStuck s t groups)) then none
  else (gs.find? fun g => match g.wait with
    | .ord _ _ _ => true
    | _ => false).map Group.id

/-- ORD_DEADLOCK (R35): the lowest-numbered group in an .ord round raises ORDER_VIOLATION. -/
def execOrdDeadlock (t : Tid) (s : State) : Out :=
  let s := focusLaunch t.l (focusTeam t s)
  match ordVictim s s.t s.l.kern.groups with
  | none => .next s
  | some k =>
    let s := focus k s
    match s.g.wait with
    | .ord _ r _ => .next (trapAt (trapOrder r) s)
    | _ => .next s

/-! ### FENCE, XFENCE and PROMOTE (R227 to R229) -/

/-- The acquire effect of a read already performed with a number and the releases it found; none for one that later accesses may have
overtaken and that is no scope mismatch (R114 item 2, R116; notes/assumptions/72.md). -/
def lateAcquire (sc : Scope) (seq : Nat) (bound : Bool) (rs : List RelTag) (s : State) : Option State :=
  if bound && !missed s s.g.id sc rs then none else some (acquire s.g.id sc seq rs s)

/-- FENCE.acq: the nearest earlier read becomes an acquire at its scope, beside those it is already; one already performed acquires now. -/
def fenceAcq (sc : Scope) (s : State) : Option State :=
  match lastReader s.g with
  | some o =>
    if o.done then lateAcquire sc o.seq o.bound o.tags s
    else some { s with g := { s.g with lane := s.g.lane.map fun p => if p.seq = o.seq then { p with acq := sc :: p.acq } else p } }
  | none => lateAcquire sc s.g.lastSeq s.g.lastBound s.g.lastRead s

/-- FENCE's mark in program order, and the release it leaves to the next write. -/
def fenceMark (f : OpF) (g : Group) : Group :=
  { g with fences := g.seqn :: g.fences.filter (fun m => g.lane.any fun o => o.seq < m)
           relNext := if memRel f then wider g.relNext (some (scopeOf (memScope f))) else g.relNext }

/-- FENCE past its legality. -/
def fenceBody (f : OpF) (s : State) : Res State :=
  match (if memAcq f then fenceAcq (scopeOf (memScope f)) s else some s) with
  | some s => .ok { s with g := fenceMark f s.g }
  | none => .hold

/-- FENCE. -/
def execFence (f : OpF) (s : State) : Out := runS .fence f (fun s => (Res.require (fenceOk f)).bind fun _ => fenceBody f s) s

/-- The path class of a mask bit (R228). -/
def pathOf (n : Nat) : Path :=
  match n with
  | 0 => .lane | 1 => .copy | 2 => .stream | 3 => .bobbin | 4 => .image | _ => .host

/-- A crossing from a class onto each other class of a mask, for what follows a program-order number. -/
def crossTo (mask : W32) (seq : Nat) (p : Path) (c : Crossing) : List Crossing :=
  ((List.range 6).filter fun n => mask.getLsbD n && n ≠ pathBit p).map fun n =>
    { c with onto := some (pathOf n), from_ := seq, by_ := none }

/-- Completions the group has observed cross from each named class onto each other named class (R120, R228), for what follows in
program order: of the writes, and of the reads, whose values no later read goes back behind (R117). -/
def crossings (mask : W32) (s : State) : List Crossing :=
  let seen := seenBy s.g s.g.seqn
  ((s.recs.filter fun r => mask.getLsbD (pathBit r.path) && seen.contains r.op).flatMap fun r =>
    crossTo mask s.g.seqn r.path ⟨r.op, r.path, none, none, 0, none⟩) ++
  (((allGroups s).flatMap Group.crossed).filter fun c => c.by_.any seen.contains && c.onto.any fun q => mask.getLsbD (pathBit q)).flatMap
    fun c => crossTo mask s.g.seqn (c.onto.getD .lane) c

/-- The classes an XFENCE names, kept with each masked byte whose last path it names (R318). -/
def bufFence (mask : W32) (b : BufByte) : BufByte :=
  if mask.getLsbD (pathBit b.path) then { b with xset := b.xset ||| mask.extractLsb' 0 6 } else b

/-- XFENCE's effect. -/
def xfenceDo (mask : W32) (s : State) : State :=
  let g := { s.g with crossed := (crossings mask s ++ s.g.crossed).eraseDups }
  let l := if s.l.replay then updTask s.g.id.t.team (fun t => { t with buf := t.buf.map (bufFence mask) }) s.l else s.l
  { s with g := g, l := l }

/-- Two or more classes, and no other bit (R228). -/
def xfenceOk (mask : W32) : Bool :=
  mask.extractLsb' 6 26 = 0 && decide (2 ≤ ((List.range 6).filter fun n => mask.getLsbD n).length)

/-- XFENCE. -/
def execXfence (f : OpF) (s : State) : Out :=
  runS .xfence f (fun s => (Res.require (xfenceOk f.imm)).bind fun _ => .ok (xfenceDo f.imm s)) s

/-- Teams in a launch (R13). -/
def teamCount (l : Launch) : Nat := l.gx * l.gy * l.gz

/-- PROMOTE past its legality (R123, R229): the group waits for the promotion of another resident team. -/
def promoteBody (f : OpF) (s : State) : Res State :=
  let t := intS s.g f f.a
  (Res.require (decide (t.toNat < teamCount s.l))).bind fun _ =>
    if s.l.replay || t.toNat = s.g.id.t.team || (team? s ⟨s.l.id, t.toNat⟩).isNone then .ok s
    else .block { s with g := { s.g with wait := .promote t } }

/-- PROMOTE. -/
def execPromote (f : OpF) (s : State) : Out := runS .promote f (promoteBody f) s

/-- A scope that promotion widens. -/
def narrow (sc : Scope) : Bool := sc = .grp || sc = .team

/-- A release scope after promotion. -/
def promoted (sc : Option Scope) : Option Scope := if sc.any narrow then some .dev else sc

/-- The scope at which a group's .ord atomic that waits for its round will release, with a FENCE.rel before it (R227). -/
def waitRel (g : Group) : Option Scope :=
  match g.wait with
  | .ord _ _ o => if o.kind.writes then wider o.rel g.relNext else none
  | _ => none

/-- A group's .ord atomic that waits for its round keeps its promotion (R123). -/
def promoteWait (g : Group) : Group :=
  match g.wait with
  | .ord e r o => { g with wait := .ord e r { o with rel := promoted (waitRel g) } }
  | _ => g

/-- The accesses that an issued release of a group at .grp or .team orders, performed: all before its last such op, and that op; all of
the group's where its .ord atomic waits. None where one of them cannot go yet. -/
def promoteGroup (g : Group) (s : State) : Option State :=
  let os := g.lane.filter fun o => o.rel.any narrow
  let t := os.foldl (fun s o => performTo g.id o.seq s) s
  if os.any fun o => undone g.id o.seq t then none
  else if (waitRel g).any narrow then performAll g.id t else some t

/-- A release of a team at .grp or .team after its promotion, wherever a read of it is kept (R123). -/
def promoteTag (t : Tid) (r : RelTag) : RelTag :=
  if narrow r.scope && r.by_.any (fun b => b.t = t) then { r with scope := .dev } else r

/-- What a group's reads have found of a team's releases, promoted. -/
def promoteReads (t : Tid) (g : Group) : Group :=
  { g with lane := g.lane.map fun o => { o with tags := o.tags.map (promoteTag t) }, lastRead := g.lastRead.map (promoteTag t) }

/-- What the reads of a partition's saved groups have found of a team's releases, promoted. -/
def promoteSaved (t : Tid) (p : Part) : Part :=
  { p with saved := p.saved.map fun x => { x with groups := x.groups.map (promoteReads t) } }

/-- Releases of a team at .grp and .team performed and made .dev (R123). -/
def promoteTeam (t : Tid) (s : State) : Option State :=
  ((teamGroups s t).foldl (fun s g => s.bind (promoteGroup g)) (some s)).map fun s =>
    let s := updTeamGroups t promoteWait s
    { s with g := promoteReads t s.g, groups := s.groups.map (promoteReads t), p := promoteSaved t s.p,
             parts := s.parts.map (promoteSaved t), rels := s.rels.map (promoteTag t) }

/-- PROMOTE_COMPLETE (R123): the promotion point, and the waiting group goes on. -/
def execPromoteComplete (k : Gid) (s : State) : Out :=
  let s := focus k s
  if s.g.live && s.g.id = k then
    match s.g.wait with
    | .promote t =>
      match promoteTeam ⟨k.t.l, t.toNat⟩ s with
      | some s => .next { s with g := nextSlot s.g }
      | none => .next s
    | _ => .next s
  else .next s

end Sys2Proof.Machine
end

