-- ==== Sys2Proof/Machine/Scalar.lean ====
section
/-!
DEFINITION. Meanings of the scalar ops (R163 to R177) but for SLD and SST, which stand with the memory ops.
-/
namespace Sys2Proof.Machine

/-- SLI (R166). -/
def execSli (f : OpF) (s : State) : Out := runP .sli f (fun g => setS g f.dst.toNat (immS f)) s

/-- SLIH (R166). -/
def execSlih (f : OpF) (s : State) : Out :=
  runP .slih f (fun g =>
    setS g f.dst.toNat ((intS g f f.a).extractLsb' 0 32 ++ (getS g f.dst.toNat).extractLsb' 0 32)) s

/-- SMOV (R166). -/
def execSmov (f : OpF) (s : State) : Out := runP .smov f (fun g => setS g f.dst.toNat (intS g f f.a)) s

/-- Whether the saturate option stands in the word (R131, R132). -/
def satOpt (f : OpF) : Bool := if f.form = .long then f.sat else f.opt

/-- A result of SADD, SSUB or SMUL (R167). -/
def arithS (f : OpF) (v : Int) (g : Group) : Group :=
  if satOpt f then
    let r := intSat 64 true v
    raise r.2 (setS g f.dst.toNat (BitVec.ofInt 64 r.1))
  else setS g f.dst.toNat (BitVec.ofInt 64 v)

/-- SADD (R167). -/
def execSadd (f : OpF) (s : State) : Out :=
  runP .sadd f (fun g => arithS f ((intS g f f.a).toInt + (intS g f f.b).toInt) g) s

/-- SSUB (R167). -/
def execSsub (f : OpF) (s : State) : Out :=
  runP .ssub f (fun g => arithS f ((intS g f f.a).toInt - (intS g f f.b).toInt) g) s

/-- SMUL (R167). -/
def execSmul (f : OpF) (s : State) : Out :=
  runP .smul f (fun g => arithS f ((intS g f f.a).toInt * (intS g f f.b).toInt) g) s

/-- An operand as i64, or as n64 with .n (R164). -/
def intN (f : OpF) (x : W64) : Int := if f.opt then x.toNat else x.toInt

/-- SMULHI (R167). -/
def execSmulhi (f : OpF) (s : State) : Out :=
  runP .smulhi f (fun g =>
    setS g f.dst.toNat (BitVec.ofInt 64 ((intN f (intS g f f.a) * intN f (intS g f f.b)).fdiv (2 ^ 64)))) s

/-- SDIV: by zero gives 0 and DZ (R167). -/
def execSdiv (f : OpF) (s : State) : Out :=
  runP .sdiv f (fun g =>
    let a := intN f (intS g f f.a)
    let b := intN f (intS g f f.b)
    if b = 0 then raise flagDZ (setS g f.dst.toNat 0) else setS g f.dst.toNat (BitVec.ofInt 64 (a.tdiv b))) s

/-- SREM: by zero gives a and DZ (R167). -/
def execSrem (f : OpF) (s : State) : Out :=
  runP .srem f (fun g =>
    let a := intN f (intS g f f.a)
    let b := intN f (intS g f f.b)
    if b = 0 then raise flagDZ (setS g f.dst.toNat (intS g f f.a))
    else setS g f.dst.toNat (BitVec.ofInt 64 (a - b * a.tdiv b))) s

/-- SMIN (R167). -/
def execSmin (f : OpF) (s : State) : Out :=
  runP .smin f (fun g =>
    let a := intS g f f.a
    let b := intS g f f.b
    setS g f.dst.toNat (if intN f a ≤ intN f b then a else b)) s

/-- SMAX (R167). -/
def execSmax (f : OpF) (s : State) : Out :=
  runP .smax f (fun g =>
    let a := intS g f f.a
    let b := intS g f f.b
    setS g f.dst.toNat (if intN f a ≤ intN f b then b else a)) s

/-- SAND (R167). -/
def execSand (f : OpF) (s : State) : Out := runP .sand f (fun g => setS g f.dst.toNat (intS g f f.a &&& intS g f f.b)) s

/-- SOR (R167). -/
def execSor (f : OpF) (s : State) : Out := runP .sor f (fun g => setS g f.dst.toNat (intS g f f.a ||| intS g f f.b)) s

/-- SXOR (R167). -/
def execSxor (f : OpF) (s : State) : Out := runP .sxor f (fun g => setS g f.dst.toNat (intS g f f.a ^^^ intS g f f.b)) s

/-- A shift or rotate count: b AND 63 (R167). -/
def cntS (g : Group) (f : OpF) : Nat := (intS g f f.b).toNat % 64

/-- SSHL (R167). -/
def execSshl (f : OpF) (s : State) : Out := runP .sshl f (fun g => setS g f.dst.toNat (intS g f f.a <<< cntS g f)) s

/-- SSHR: logical, or arithmetic with .i (R167). -/
def execSshr (f : OpF) (s : State) : Out :=
  runP .sshr f (fun g =>
    let a := intS g f f.a
    setS g f.dst.toNat (if f.opt then a.sshiftRight (cntS g f) else a >>> cntS g f)) s

/-- SROT: right (R167). -/
def execSrot (f : OpF) (s : State) : Out :=
  runP .srot f (fun g => setS g f.dst.toNat ((intS g f f.a).rotateRight (cntS g f))) s

/-- The two destinations of a condition pair: kd2 is written second (R168). -/
def setPair (f : OpF) (x y : Bool) (g : Group) : Group :=
  setK (setK g (f.dst.toNat % 8) x) (f.dst.toNat / 8 % 8) y

/-- The relation of SCMP (R168). -/
def relS (f : OpF) (a b : W64) : Bool :=
  match f.dst.toNat / 64, f.opt with
  | 0, false => a = b
  | 1, false => a ≠ b
  | 2, false => a.slt b
  | _, false => a.sle b
  | 0, true => a &&& b = 0
  | 1, true => a &&& b ≠ 0
  | 2, true => a.ult b
  | _, true => a.ule b

/-- SCMP: with a false guard both destinations become false (R168). -/
def execScmp (f : OpF) (s : State) : Out :=
  runWith .scmp f (onG fun g => .ok (setPair f false false g))
    (onG fun g => let c := relS f (intS g f f.a) (intS g f f.b); .ok (setPair f c (!c) g)) s

/-- The type of a scalar float op (R172): short forms are f32. -/
def sfTy (f : OpF) : Ty := if f.form = .long then ty0 f else .f32

/-- SFCMP (R169). -/
def execSfcmp (f : OpF) (s : State) : Out :=
  runWith .sfcmp f (onG fun g => .ok (setPair f false false g))
    (onG fun g =>
      let t := sfTy f
      let sig := if f.form = .long then imm24 f % 2 = 1 else f.opt
      let c := fCompare t.fmt (f.dst.toNat / 64) sig (fltS g f t f.a) (fltS g f t f.b)
      (Res.require (f.form ≠ .long || imm24 f < 2)).bind fun _ => .ok (raise c.2 (setPair f c.1 (!c.1) g))) s

/-- SSEL (R170). -/
def execSsel (f : OpF) (s : State) : Out :=
  runP .ssel f (fun g => setS g f.dst.toNat (if getK g f.c.reg.toNat then intS g f f.a else intS g f f.b)) s

/-- pos of a scalar field word (R170). -/
def fwPos (f : OpF) : Nat := (f.imm.extractLsb' 0 6).toNat
/-- len of a scalar field word. -/
def fwLen (f : OpF) : Nat := (f.imm.extractLsb' 6 6).toNat + 1
/-- Whether a scalar field word is legal. -/
def fwOk (f : OpF) (sign : Bool) : Bool :=
  f.imm.extractLsb' 13 19 = (0 : BitVec 19) && decide (fwPos f + fwLen f ≤ 64) && (sign || !f.imm.getLsbD 12)

/-- SBFX (R170). -/
def execSbfx (f : OpF) (s : State) : Out :=
  runG .sbfx f (fun g =>
    (Res.require (fwOk f true)).bind fun _ =>
      let x := (intS g f f.a).toNat / 2 ^ fwPos f % 2 ^ fwLen f
      .ok (setS g f.dst.toNat (BitVec.ofInt 64 (if f.imm.getLsbD 12 then sextNat (fwLen f) x else x)))) s

/-- SBFI (R170). -/
def execSbfi (f : OpF) (s : State) : Out :=
  runG .sbfi f (fun g =>
    (Res.require (fwOk f false)).bind fun _ =>
      let mask := BitVec.ofNat 64 ((2 ^ fwLen f - 1) * 2 ^ fwPos f)
      .ok (setS g f.dst.toNat ((getS g f.dst.toNat &&& ~~~mask) ||| ((intS g f f.a <<< fwPos f) &&& mask)))) s

/-- Number of 1 bits among the lowest n. -/
def popCount (x : Nat) : Nat → Nat
  | 0 => 0
  | n + 1 => x % 2 + popCount (x / 2) n

/-- Leading 0 bits of an n-bit number. -/
def leadZeros (x n : Nat) : Nat := if x = 0 then n else n - 1 - Nat.log2 x

/-- Trailing 0 bits among the lowest n. -/
def trailZeros (x : Nat) : Nat → Nat
  | 0 => 0
  | n + 1 => if x % 2 = 1 then 0 else 1 + trailZeros (x / 2) n

/-- SPOPC (R170). -/
def execSpopc (f : OpF) (s : State) : Out :=
  runP .spopc f (fun g => setS g f.dst.toNat (BitVec.ofNat 64 (popCount (intS g f f.a).toNat 64))) s

/-- SCLZ (R170). -/
def execSclz (f : OpF) (s : State) : Out :=
  runP .sclz f (fun g => setS g f.dst.toNat (BitVec.ofNat 64 (leadZeros (intS g f f.a).toNat 64))) s

/-- SCTZ (R170). -/
def execSctz (f : OpF) (s : State) : Out :=
  runP .sctz f (fun g => setS g f.dst.toNat (BitVec.ofNat 64 (trailZeros (intS g f f.a).toNat 64))) s

/-- SADDA (R170). -/
def execSadda (f : OpF) (s : State) : Out :=
  runG .sadda f (fun g =>
    (Res.require (f.imm.toNat < 8)).bind fun _ =>
      .ok (setS g f.dst.toNat (intS g f f.a + (intS g f f.b <<< f.imm.toNat)))) s

/-- A scalar result, zero-extended, with its flags (R172): the destination first, then the flags ORed into s60, also where s60 is the
destination (DESIGN CHOICE, unsafe: notes/assumptions/70.md). -/
def setF (f : OpF) (r : Nat × Flags) (g : Group) : Group := raise r.2 (setS g f.dst.toNat (BitVec.ofNat 64 r.1))

/-- SFADD (R172). -/
def execSfadd (f : OpF) (s : State) : Out :=
  runP .sfadd f (fun g => let t := sfTy f
    setF f (fAdd t.fmt f.rnd.toNat (satOpt f) (fltS g f t f.a) (fltS g f t f.b)) g) s

/-- SFMUL (R172). -/
def execSfmul (f : OpF) (s : State) : Out :=
  runP .sfmul f (fun g => let t := sfTy f
    setF f (fMul t.fmt f.rnd.toNat (satOpt f) (fltS g f t f.a) (fltS g f t f.b)) g) s

/-- SFMA (R172). -/
def execSfma (f : OpF) (s : State) : Out :=
  runP .sfma f (fun g => let t := sfTy f
    setF f (fFma t.fmt f.rnd.toNat (satOpt f) (fltS g f t f.a) (fltS g f t f.b) (fltS g f t f.c)) g) s

/-- Width of a SCVT operand: WIDE makes a 32-bit integer the whole register (R173). -/
def cvtBits (wide : Bool) (t : Ty) : Nat := if wide && t.isInt && t.bits = 32 then 64 else t.bits

/-- The source of SCVT after its sign bits: an integer acts modulo 2^64 (R133, R163). -/
def cvtSrc (g : Group) (f : OpF) (t : Ty) : Nat :=
  if t.isInt then (intS g f f.a).toNat else fltS g f t f.a

/-- SCVT's conversion (R173): a float, or an integer extended by its signedness. -/
def cvtS (wide : Bool) (s d : Ty) (mode : Nat) (sat : Bool) (x : Nat) : Nat × Flags :=
  let sb := cvtBits wide s
  let db := cvtBits wide d
  let ext := fun (r : Nat × Flags) => (intWrap 64 (intRead db d.signed r.1), r.2)
  match s.isInt, d.isInt with
  | false, false => cvtFF s.fmt d.fmt mode sat x
  | false, true => ext (cvtFI s.fmt db d.signed mode x)
  | true, false => cvtIF sb s.signed d.fmt mode sat x
  | true, true => ext (intFinish db d.signed sat (intRead sb s.signed x))

/-- SCVT (R173). A rounding mode beside two integer types is accepted and has no effect (DESIGN CHOICE, unsafe:
notes/assumptions/71.md). -/
def execScvt (f : OpF) (s : State) : Out :=
  runG .scvt f (fun g =>
    let wide := imm24 f % 2 = 1
    let has := ((ty0 f).isInt && (ty0 f).bits = 32) || ((ty1 f).isInt && (ty1 f).bits = 32)
    (Res.require (imm24 f < 2 && (has || !wide))).bind fun _ =>
      .ok (setF f (cvtS wide (ty1 f) (ty0 f) f.rnd.toNat f.sat (cvtSrc g f (ty1 f))) g)) s

/-- KAND (R174). -/
def execKand (f : OpF) (s : State) : Out :=
  runP .kand f (fun g => setK g f.dst.toNat (getK g f.a.reg.toNat && (getK g f.b.reg.toNat != f.opt))) s

/-- KOR (R174). -/
def execKor (f : OpF) (s : State) : Out :=
  runP .kor f (fun g => setK g f.dst.toNat (getK g f.a.reg.toNat || (getK g f.b.reg.toNat != f.opt))) s

/-- KXOR (R174). -/
def execKxor (f : OpF) (s : State) : Out :=
  runP .kxor f (fun g => setK g f.dst.toNat (getK g f.a.reg.toNat != (getK g f.b.reg.toNat != f.opt))) s

/-- NSET (R175). -/
def execNset (f : OpF) (s : State) : Out :=
  runP .nset f (fun g => setN g f.dst.toNat ((intS g f f.a).extractLsb' 0 32)) s

/-- NGET (R175). -/
def execNget (f : OpF) (s : State) : Out :=
  runP .nget f (fun g => setS g f.dst.toNat ((getN g f.a.reg.toNat).setWidth 64)) s

/-- CLKR (R26, R176). -/
def execClkr (f : OpF) (s : State) : Out := runP .clkr f (fun g => setS g f.dst.toNat g.clkr) s

/-- Team coordinates of a linear index (R13). -/
def coordOf (l : Launch) (t : Nat) : Nat × Nat × Nat := (t % l.gx, t / l.gx % l.gy, t / l.gx / l.gy)

/-- Index of a group within its role class (R17). -/
def roleIndex (l : Launch) (g : Group) : Nat :=
  g.id.num - ((l.kern.roles.take g.role).map Prod.fst).sum

/-- Task ID, or the linear team index outside replay mode (R27). -/
def taskId (l : Launch) (k : Tid) : W64 := (taskOf l k).elim (BitVec.ofNat 64 k.team) Task.id

/-- The identifier a selector of IDR names (R27). -/
def identifier (l : Launch) (g : Group) (sel : Nat) : W64 :=
  let c := coordOf l g.id.t.team
  match sel with
  | 0 => BitVec.ofNat 64 g.id.num
  | 1 => BitVec.ofNat 64 l.kern.groups
  | 2 => BitVec.ofNat 64 c.1
  | 3 => BitVec.ofNat 64 c.2.1
  | 4 => BitVec.ofNat 64 c.2.2
  | 5 => BitVec.ofNat 64 l.gx
  | 6 => BitVec.ofNat 64 l.gy
  | 7 => BitVec.ofNat 64 l.gz
  | 8 => BitVec.ofNat 64 g.role
  | 9 => BitVec.ofNat 64 (roleIndex l g)
  | 10 => taskId l g.id.t
  | _ => BitVec.ofNat 64 (l.replay.toNat + 2 * (!l.kern.gens.isEmpty).toNat + 4 * l.cohort.toNat)

/-- IDR (R27, R176). -/
def execIdr (f : OpF) (s : State) : Out :=
  runG .idr f (fun g =>
    (Res.require (f.imm.toNat < 12)).bind fun _ => .ok (setS g f.dst.toNat (identifier s.l g f.imm.toNat))) s

/-- TRAP: class 13 with its code (R177). An immediate code is compared as its 64-bit pattern, so a negative one is above 0xFFFF
(DESIGN CHOICE, unsafe: notes/assumptions/79.md). -/
def execTrap (f : OpF) (s : State) : Out :=
  runG .trap f (fun g =>
    (Res.require (!(isImm f.a) || decide ((immS f).toNat < 2 ^ 16))).bind fun _ =>
      .trap ⟨13, 0, (intS g f f.a).toNat % 2 ^ 16, 0, 0, 0⟩) s

/-- BKPT: class 14 (R177). -/
def execBkpt (f : OpF) (s : State) : Out := runG .bkpt f (fun _ => .trap (.plain 14)) s

end Sys2Proof.Machine
end

