-- ==== Sys2Proof/Machine/VecInt.lean ====
section
/-!
DEFINITION. The shared shape of the vector ops (R178) and the meanings of class 1 (R181 to R186).
-/
namespace Sys2Proof.Machine

/-- A vector source where the field carries one. -/
def optV (s : State) (alt : List Coming) (imm : W32) (t : Ty) (act : W32) (k : FK) (x : Src) : VReg × Flags :=
  match k with
  | .vec .. | .vreg | .vregRW => srcV s alt imm t act x
  | _ => (Vector.replicate 32 0, 0)

/-- What a vector op receives: active lanes and three operands. -/
structure VIn where
  act : W32
  a : VReg
  b : VReg
  c : VReg

/-- A vector op over one type: map checks, delivery with its flags, body, stream uses (R178, R59). -/
def vecBody (o : Op) (f : OpF) (t : Ty) (body : VIn → Group → Res Group) (s : State) : Res State :=
  let act := activeMask s.g f.guard
  let sp := spec o f
  let xs := mappedSrcs sp f
  (mapChecks s act t xs).bind fun _ =>
    let alt := if xs.isEmpty then [] else altSlots s
    let imm := immV o f
    let a := optV s alt imm t act sp.a f.a
    let b := optV s alt (if o = .vfscale then immCount f else imm) t act sp.b f.b
    let c := optV s alt imm t act sp.c f.c
    (body ⟨act, a.1, b.1, c.1⟩ (raise (a.2 ||| b.2 ||| c.2) s.g)).bind fun g => .ok { s with g := afterMaps xs g }

/-- A vector op whose field word must be legal; it does nothing when no lane is active. -/
def runVecIf (ok : Bool) (o : Op) (f : OpF) (t : Ty) (body : VIn → Group → Res Group) (s : State) : Out :=
  runS o f (fun s => if ok then vecBody o f t body s else .trap trapIllegal) s

/-- A vector op without a field word. -/
def runVec (o : Op) (f : OpF) (t : Ty) (body : VIn → Group → Res Group) (s : State) : Out := runVecIf true o f t body s

/-- Results of active lanes, sub-vector by sub-vector. -/
def laneResults (t : Ty) (act : W32) (fn : Nat → Nat → Nat × Flags) : List (List (Nat × Flags)) :=
  (List.range 32).map fun i => if lane act i then (List.range t.count).map (fn i) else []

/-- The flags of a set of results. -/
def resultFlags (rs : List (List (Nat × Flags))) : Flags := rs.foldl (fun f es => es.foldl (fun f e => f ||| e.2) f) 0

/-- A register written in its active lanes (R14, R178). -/
def setLanes (t : Ty) (d : Nat) (act : W32) (rs : List (List (Nat × Flags))) (g : Group) : Group :=
  let old := getV g d
  raise (resultFlags rs) (setV g d (Vector.ofFn fun i =>
    if lane act i.val then BitVec.ofNat 32 (joinSubs t ((rs.getD i.val []).map Prod.fst)) else old[i.val]))

/-- Each sub-vector of each active lane computed from the three operands. -/
def mapV (t : Ty) (d : Nat) (fn : Nat → Nat → Nat → Nat × Flags) (v : VIn) (g : Group) : Group :=
  setLanes t d v.act
    (laneResults t v.act fun i k => fn (subOf t (v.a[i % 32]!) k) (subOf t (v.b[i % 32]!) k) (subOf t (v.c[i % 32]!) k)) g

/-- An op that computes each sub-vector of each active lane from its three operands. -/
def vecMap (o : Op) (f : OpF) (t : Ty) (fn : Nat → Nat → Nat → Nat × Flags) (s : State) : Out :=
  runVec o f t (fun v g => .ok (mapV t f.dst.toNat fn v g)) s

/-- A class 1 op on integers: the exact result, wrapped or saturated (R183). -/
def vecInt (o : Op) (f : OpF) (fn : Int → Int → Int → Int) (s : State) : Out :=
  let t := ty0 f
  vecMap o f t (fun x y z =>
    intFinish t.bits t.signed (satOpt f) (fn (intRead t.bits t.signed x) (intRead t.bits t.signed y) (intRead t.bits t.signed z))) s

/-- A class 1 op on bit patterns (R184). -/
def vecBits (o : Op) (f : OpF) (fn : Nat → Nat → Nat) (s : State) : Out :=
  vecMap o f (ty0 f) (fun x y _ => (fn x y % 2 ^ (ty0 f).bits, 0)) s

/-- VMOV (R182). -/
def execVmov (f : OpF) (s : State) : Out := vecMap .vmov f (ty0 f) (fun x _ _ => (x, 0)) s

/-- VLI (R182). -/
def execVli (f : OpF) (s : State) : Out :=
  runVec .vli f .n32 (fun v g => .ok (setLanes .n32 f.dst.toNat v.act (laneResults .n32 v.act fun _ _ => (f.imm.toNat, 0)) g)) s

/-- VLANE (R182). -/
def execVlane (f : OpF) (s : State) : Out :=
  let base := (f.imm.extractLsb' 0 16).toInt
  let st := (f.imm.extractLsb' 16 16).toInt
  runVec .vlane f .n32 (fun v g =>
    .ok (setLanes .n32 f.dst.toNat v.act (laneResults .n32 v.act fun i _ => (intWrap 32 (base + i * st), 0)) g)) s

/-- VADD (R183). -/
def execVadd (f : OpF) (s : State) : Out := vecInt .vadd f (fun x y _ => x + y) s
/-- VSUB (R183). -/
def execVsub (f : OpF) (s : State) : Out := vecInt .vsub f (fun x y _ => x - y) s
/-- VMUL (R183). -/
def execVmul (f : OpF) (s : State) : Out := vecInt .vmul f (fun x y _ => x * y) s
/-- VMULHI (R183). -/
def execVmulhi (f : OpF) (s : State) : Out := vecInt .vmulhi f (fun x y _ => (x * y).fdiv (2 ^ (ty0 f).bits : Nat)) s
/-- VMAD: exact, one wrap or saturation (R183). -/
def execVmad (f : OpF) (s : State) : Out := vecInt .vmad f (fun x y z => x * y + z) s
/-- VMIN (R183). -/
def execVmin (f : OpF) (s : State) : Out := vecInt .vmin f (fun x y _ => min x y) s
/-- VMAX (R183). -/
def execVmax (f : OpF) (s : State) : Out := vecInt .vmax f (fun x y _ => max x y) s
/-- VABSDIFF (R183). -/
def execVabsdiff (f : OpF) (s : State) : Out := vecInt .vabsdiff f (fun x y _ => (x - y).natAbs) s

/-- VAND (R184). -/
def execVand (f : OpF) (s : State) : Out := vecBits .vand f (fun x y => Nat.land x y) s
/-- VOR (R184). -/
def execVor (f : OpF) (s : State) : Out := vecBits .vor f (fun x y => Nat.lor x y) s
/-- VXOR (R184). -/
def execVxor (f : OpF) (s : State) : Out := vecBits .vxor f (fun x y => Nat.xor x y) s
/-- VSHL: the count is b AND (w − 1) (R184). -/
def execVshl (f : OpF) (s : State) : Out := vecBits .vshl f (fun x y => x * 2 ^ (y % (ty0 f).bits)) s
/-- VSHR: arithmetic for i types, logical for n types (R184). -/
def execVshr (f : OpF) (s : State) : Out :=
  let t := ty0 f
  vecBits .vshr f (fun x y => intWrap t.bits ((intRead t.bits t.signed x).fdiv (2 ^ (y % t.bits) : Nat))) s
/-- VROT: right (R184). -/
def execVrot (f : OpF) (s : State) : Out :=
  let w := (ty0 f).bits
  vecBits .vrot f (fun x y => x / 2 ^ (y % w) + x * 2 ^ (w - y % w)) s

/-- pos of a vector field word (R184). -/
def vfPos (f : OpF) : Nat := imm24 f % 32
/-- len of a vector field word (R184). -/
def vfLen (f : OpF) : Nat := imm24 f / 32 % 32 + 1
/-- Whether a vector field word is legal (R184). -/
def vfOk (f : OpF) : Bool := imm24 f < 1024 && vfPos f + vfLen f ≤ (ty0 f).bits

/-- VBFX (R184). -/
def execVbfx (f : OpF) (s : State) : Out :=
  let t := ty0 f
  runVecIf (vfOk f) .vbfx f t (fun v g => .ok (mapV t f.dst.toNat (fun x _ _ =>
    let y := x / 2 ^ vfPos f % 2 ^ vfLen f
    (if t.signed then intWrap t.bits (sextNat (vfLen f) y) else y, 0)) v g)) s

/-- VBFI: bits outside the field keep the destination's (R184). -/
def execVbfi (f : OpF) (s : State) : Out :=
  let t := ty0 f
  runVecIf (vfOk f) .vbfi f t (fun v g =>
    let mask := (2 ^ vfLen f - 1) * 2 ^ vfPos f
    .ok (mapV t f.dst.toNat (fun x old _ => (old - Nat.land old mask + Nat.land (x * 2 ^ vfPos f) mask, 0))
      { v with b := getV g f.dst.toNat } g)) s

/-- VPOPC (R184). -/
def execVpopc (f : OpF) (s : State) : Out := vecBits .vpopc f (fun x _ => popCount x (ty0 f).bits) s
/-- VCLZ (R184). -/
def execVclz (f : OpF) (s : State) : Out := vecBits .vclz f (fun x _ => leadZeros x (ty0 f).bits) s

/-! ### Predicate pairs (R185) -/

/-- Two predicates written, the second last (R185). -/
def setPredPair (f : OpF) (x y : W32) (g : Group) : Group := setP (setP g (f.dst.toNat % 8) x) (f.dst.toNat / 8 % 8) y

/-- The variant bit of a compare (R185). -/
def cmpV (f : OpF) : Bool := if f.form = .long then imm24 f / 8 % 2 = 1 else f.opt
/-- The sub-vector selector of a compare (R185). -/
def cmpSub (f : OpF) : Nat := if f.form = .long then imm24 f % 8 else 0
/-- Whether a compare word is legal (R185). -/
def cmpOk (f : OpF) : Bool :=
  (f.form ≠ .long || imm24 f < 16) && cmpSub f ≠ 2 && cmpSub f ≠ 3 && (cmpSub f < 4 || cmpSub f - 4 < (ty0 f).count)

/-- The lane condition from the sub-vectors' conditions (R185). -/
def cmpLane (sub : Nat) (ts : List Bool) : Bool :=
  match sub with
  | 0 => ts.all id
  | 1 => ts.any id
  | _ => ts.getD (sub - 4) false

/-- A lane mask from a list of conditions. -/
def maskOf (cs : List Bool) : W32 := BitVec.ofNat 32 (cs.zipIdx.foldl (fun a c => if c.1 then a + 2 ^ c.2 else a) 0)

/-- A compare: both predicates written in full; with no active lane both become zero, unchecked (R139, R185, R190). -/
def vecCmp (o : Op) (f : OpF) (rel : Nat → Nat → Bool × Flags) (s : State) : Out :=
  let t := ty0 f
  runWith o f (onG fun g => .ok (setPredPair f 0 0 g))
    (fun s => if !cmpOk f then .trap trapIllegal else vecBody o f t (fun v g =>
        let rs := (List.range 32).map fun i =>
          if lane v.act i then (List.range t.count).map fun k => rel (subOf t (v.a[i % 32]!) k) (subOf t (v.b[i % 32]!) k)
          else []
        let m := maskOf (rs.map fun r => !r.isEmpty && cmpLane (cmpSub f) (r.map Prod.fst))
        let fl := rs.foldl (fun a r => r.foldl (fun a x => a ||| x.2) a) (0 : Flags)
        .ok (raise fl (setPredPair f m (v.act &&& ~~~m) g))) s) s

/-- The relation of VCMP (R185). -/
def relV (rel : Nat) (v : Bool) (t : Ty) (x y : Nat) : Bool :=
  let a := intRead t.bits t.signed x
  let b := intRead t.bits t.signed y
  match rel, v with
  | 0, false => a = b
  | 1, false => a ≠ b
  | 2, false => a < b
  | _, false => a ≤ b
  | 0, true => Nat.land x y = 0
  | 1, true => Nat.land x y ≠ 0
  | 2, true => b < a
  | _, true => b ≤ a

/-- VCMP (R185). -/
def execVcmp (f : OpF) (s : State) : Out := vecCmp .vcmp f (fun x y => (relV (f.dst.toNat / 64) (cmpV f) (ty0 f) x y, 0)) s

/-- VSEL: all 32 bits of the selected source, whatever the type (R186). -/
def execVsel (f : OpF) (s : State) : Out :=
  runVec .vsel f (ty0 f) (fun v g =>
    let p := getP g f.c.reg.toNat
    .ok (setLanes .n32 f.dst.toNat v.act (laneResults .n32 v.act fun i _ =>
      ((if lane p i then v.a[i % 32]! else v.b[i % 32]!).toNat, 0)) g)) s

end Sys2Proof.Machine
end

