-- ==== Sys2Proof/Machine/AccOps.lean ====
section
/-!
DEFINITION. Accumulator ops (R207 to R210) and quantisation ops (R212 to R215).
-/
namespace Sys2Proof.Machine

/-! ### Accumulators -/

/-- A group changed for each active lane in ascending order, and within a lane for each sub-vector. -/
def overLanes (act : W32) (n : Nat) (step : Nat → Nat → Group → Group) (g : Group) : Group :=
  (lanesOf act).foldl (fun g i => (List.range n).foldl (fun g k => step i k g) g) g

/-- A container written with the flags of its computation. -/
def putAcc (n i : Nat) (r : W64 × Flags) (g : Group) : Group := raise r.2 (setA g n i r.1)

/-- ACLR (R209). -/
def execAclr (f : OpF) (s : State) : Out :=
  runP .aclr f (fun g => overLanes (activeMask g f.guard) 1 (fun i _ g => setA g f.dst.toNat i 0) g) s

/-- AADD (R209). -/
def execAadd (f : OpF) (s : State) : Out :=
  runP .aadd f (fun g => overLanes (activeMask g f.guard) 1
    (fun i _ g => putAcc f.dst.toNat i (accAdd (getA g f.a.reg.toNat i) (getA g f.b.reg.toNat i)) g) g) s

/-- ASCALE (R209). -/
def execAscale (f : OpF) (s : State) : Out :=
  runVec .ascale f .i32 (fun v g => .ok (overLanes v.act 1
    (fun i _ g => putAcc f.dst.toNat i (accScale (getA g f.a.reg.toNat i) (v.b[i % 32]!).toInt) g) g)) s

/-- The value of a sub-vector and whether it is a signalling NaN. -/
def subValue (t : Ty) (v : VReg) (i k : Nat) : XV × Bool :=
  let x := subOf t (v[i % 32]!) k
  (elemValue t x, !t.isInt && fIsSNaN t.fmt x)

/-- AIN (R210): exact; a signalling NaN raises NV. -/
def execAin (f : OpF) (s : State) : Out :=
  let t := ty0 f
  runVec .ain f t (fun v g => .ok (overLanes v.act t.count
    (fun i k g =>
      let x := subValue t v.a i k
      putAcc (f.dst.toNat + k) i (accBits (accFromValue x.1).1, flagIf x.2 flagNV) g) g)) s

/-- Negation and absolute value on an exact row sum (R208). -/
def RowSum.signed (neg abs : Bool) : RowSum → RowSum
  | .nan => .nan
  | .inf n => .inf ((n != neg) && !abs)
  | .pair s e =>
    let s := if neg then -s else s
    .pair (if abs then (s.natAbs : Int) else s) e

/-- The container of a row sum, normalised before the add as R208's pseudocode has it; R86 and R88 add acc_from_sum's container as it
stands (DESIGN CHOICE: notes/assumptions/66.md). -/
def rowAcc : RowSum → CV
  | .nan => .nan
  | .inf n => .inf n
  | .pair s e => (accNormalise s (e + 2047)).1

/-- Negation and absolute value on an exact value (R208). -/
def xSigned (neg abs : Bool) (x : XV) : XV :=
  let x := if neg then xNeg x else x
  if abs then xAbs x else x

/-- An exact integer as a value. -/
def xOfInt (n : Int) : XV := .fin (n < 0) n.natAbs 0

/-- The container AMAC adds for one sub-vector of one lane, with the flags of its row (R208); the value of an unmapped source is
given. Whether an unmapped signalling NaN raises NV is left to the implementation, since R69 and R208 disagree (DESIGN CHOICE, safe:
notes/assumptions/67.md). -/
def amacTerm (s : State) (alt : List Coming) (t : Ty) (act : W32) (x : Src) (raw : VReg) (i k : Nat) : CV × Flags :=
  if 0 < x.map.toNat && x.map.toNat < 15 then
    let d := getMap s.g x.map.toNat
    let v := getV s.g x.reg.toNat
    if t.isInt then
      let n := intRow (seenRow s alt d i) (xinRow t act d v k)
      ((accFromValue (xSigned x.neg x.abs (xOfInt n))).1, 0)
    else
      let r := orderFreeRow (seenRow s alt d i) (xinRow t act d v k)
      (rowAcc (r.1.signed x.neg x.abs), r.2)
  else
    let y := subValue t raw i k
    ((accFromValue (xSigned x.neg x.abs y.1)).1, flagIf (y.2 && Config.amacNaN) flagNV)

/-- AMAC past its legality (R208). -/
def amacBody (f : OpF) (s : State) : Res State :=
  let t := ty0 f
  let act := activeMask s.g f.guard
  let xs := mappedSrcs (spec .amac f) f
  (mapChecks s act t xs).bind fun _ =>
    let alt := if xs.isEmpty then [] else altSlots s
    let raw := if xs.isEmpty then (rawV s [] (immV .amac f) t act f.a).1 else getV s.g f.a.reg.toNat
    let g := overLanes act t.count (fun i k g =>
      let (c, fl) := amacTerm s alt t act f.a raw i k
      let r := accAdd (getA g (f.dst.toNat + k) i) (accBits c)
      putAcc (f.dst.toNat + k) i (r.1, r.2 ||| fl) g) s.g
    .ok { s with g := afterMaps xs g }

/-- AMAC. -/
def execAmac (f : OpF) (s : State) : Out := runS .amac f (amacBody f) s

/-- AOUT (R210): IMM24 bit 0 is .clr, the others zero. -/
def execAout (f : OpF) (s : State) : Out :=
  let t := ty0 f
  runG .aout f (fun g => (Res.require (decide (imm24 f < 2))).bind fun _ =>
    let act := activeMask g f.guard
    let rs := laneResults t act fun i k => accToElem t f.sat (accRead (getA g (f.a.reg.toNat + k) i))
    let g := setLanes t f.dst.toNat act rs g
    .ok (if imm24 f = 1 then overLanes act t.count (fun i k g => setA g (f.a.reg.toNat + k) i 0) g else g)) s

/-! ### Quantisation (R212 to R215) -/

/-- sel. -/
def qSel (f : OpF) : Nat := imm24 f % 4
/-- .amax. -/
def qAmax (f : OpF) : Bool := (f.imm.getLsbD 2)

/-- The byte select in range and no other bit of IMM24 (R212). -/
def qOk (fl : Ty) (amax : Bool) (f : OpF) : Bool :=
  decide (imm24 f < (if amax then 8 else 4)) && decide (qSel f + fl.count ≤ 4)

/-- The 16 values of a block with their signs; an inactive lane enters as +0. -/
def qBlock (fl : Ty) (act : W32) (v : VReg) (k q : Nat) : List (XV × Bool) :=
  (List.range 16).map fun j =>
    let i := 16 * q + j
    if lane act i then
      let x := subOf fl (v[i % 32]!) k
      (elemValue fl x, fSign fl.fmt x)
    else (.fin false 0 0, false)

/-- Header lanes written (R212): bits 31:16 of lanes 0 to 7 and lanes 8 to 31 become zero; an untouched header stays. -/
def putHeaders (hs : List (Nat × Nat)) (old : VReg) : VReg :=
  Vector.ofFn fun i =>
    if 8 ≤ i.val then 0
    else match hs.find? fun h => h.1 = i.val with
      | some h => BitVec.ofNat 32 h.2
      | none => (old[i.val]) &&& 0xFFFF

/-- Every block an op touches: sub-vector and half. -/
def qBlocks (fl : Ty) : List (Nat × Nat) := (List.range fl.count).flatMap fun k => [(k, 0), (k, 1)]

/-- amax as f32 (R213). A block with both an infinity and a NaN gives the NaN (DESIGN CHOICE, unsafe: notes/assumptions/80.md). -/
def qMax (xs : List XV) : Nat :=
  if xs.any fun x => x = .nan then fCanon fmtF32
  else if xs.any fun x => !xIsFin x then fInf fmtF32 false
  else (fRound fmtF32 0 false (blockMax xs)).1

/-- QSCAN (R213): TYPE0 is the picot type, TYPE1 the float type. -/
def execQscan (f : OpF) (s : State) : Out :=
  let fl := ty1 f
  runG .qscan f (fun g => (Res.require (qOk fl true f)).bind fun _ =>
    let act := activeMask g f.guard
    let v := getV g f.a.reg.toNat
    let d := f.dst.toNat
    let old := getV g d
    if qAmax f then
      .ok (setV g d ((qBlocks fl).foldl (fun r b =>
        r.set! (2 * (qSel f + b.1) + b.2) (BitVec.ofNat 32 (qMax ((qBlock fl act v b.1 b.2).map Prod.fst)))) old))
    else
      .ok (setV g d (putHeaders ((qBlocks fl).map fun b =>
        (2 * (qSel f + b.1) + b.2, (qpackBlock (ty0 f).mag (qBlock fl act v b.1 b.2)).1)) old))) s

/-- A byte of a lane replaced. -/
def putByte (w : W32) (b x : Nat) : W32 :=
  (w &&& ~~~((0xFF : W32) <<< (8 * b))) ||| (BitVec.ofNat 32 (x % 256) <<< (8 * b))

/-- NV of an op that reads the active lanes of a register as a float type: one of them holds a signalling NaN (R69). -/
def nanFlag (fl : Ty) (act : W32) (v : VReg) : Flags :=
  flagIf ((lanesOf act).any fun i => (List.range fl.count).any fun k => (subValue fl v i k).2) flagNV

/-- QPACK (R214), with NV for a signalling NaN in an active lane (R69), of which R93 does not speak (DEDUCED, unsafe:
notes/assumptions/77.md). -/
def execQpack (f : OpF) (s : State) : Out :=
  let fl := ty1 f
  runG .qpack f (fun g =>
    (Res.require (qOk fl false f && f.b.reg ≠ f.dst && f.b.reg ≠ f.a.reg)).bind fun _ =>
      let act := activeMask g f.guard
      let v := getV g f.a.reg.toNat
      let d := f.dst.toNat
      let h := f.b.reg.toNat
      let bs := (qBlocks fl).map fun b => (b, qpackBlock (ty0 f).mag (qBlock fl act v b.1 b.2))
      let hs := putHeaders (bs.map fun b => (2 * (qSel f + b.1.1) + b.1.2, b.2.1)) (getV g h)
      let fls := bs.foldl (fun a b => a ||| b.2.2.2) (nanFlag fl act v)
      let g := bs.foldl (fun g b => (List.range 16).foldl (fun g j =>
        let i := 16 * b.1.2 + j
        if lane act i then setLane g d i (putByte (getLane g d i) (qSel f + b.1.1) (b.2.2.1.getD j 0)) else g) g) g
      .ok (raise fls (setV g h hs))) s

/-- One decoded element (R215): element byte, header lane, and the quad of its lane. -/
def qElem (fl : Ty) (mag header quad byte : Nat) : Nat × Flags :=
  if header % 256 = 255 then (fCanon fl.fmt, 0)
  else fRound fl.fmt 0 false (picotElem mag header quad (byte % 2 ^ (mag + 1)))

/-- QUNPACK (R215): TYPE0 is the float type, TYPE1 the picot type. -/
def execQunpack (f : OpF) (s : State) : Out :=
  let fl := ty0 f
  runG .qunpack f (fun g => (Res.require (qOk fl false f)).bind fun _ =>
    let act := activeMask g f.guard
    let src := getV g f.a.reg.toNat
    let hd := getV g f.b.reg.toNat
    let rs := laneResults fl act fun i k =>
      let b := qSel f + k
      qElem fl (ty1 f).mag ((hd[(2 * b + i / 16) % 32]!).toNat % 65536) (i % 16 / 4)
        ((src[i % 32]!).toNat / 2 ^ (8 * b) % 256)
    .ok (setLanes fl f.dst.toNat act rs g)) s

end Sys2Proof.Machine
end

