-- ==== Sys2Proof/Machine/Copy.lean ====
section
/-!
DEFINITION. Copies and tile moves (R101 to R105, R221, R222), completion words, and the counting of their bytes against a ring
slot (R110). A copy reads its source when it first makes progress, a tile move some of it before, after the acquires and the overlapping copies before
it.
-/
namespace Sys2Proof.Machine

/-! ### Completion words (R221) -/

/-- What a completion word asks for; the signal as its space, address and delta. -/
structure Comp where
  tag : Option Nat
  ring : Option (Nat × Nat)
  sig : Option (Space × W64 × W64)
  deriving DecidableEq, Repr

/-- No completion word. -/
def Comp.none : Comp := ⟨Option.none, Option.none, Option.none⟩

/-- Whether a ring and slot are declared (R108). -/
def ringDeclared (l : Launch) (r j : Nat) : Bool := (l.kern.rings[r]?).any fun d => decide (j < d.slots)

/-- The rules of R221 on a completion word; `rings` is false for BOB and IMGST (R237, R250). -/
def compOk (l : Launch) (rings : Bool) (w : W64) : Bool :=
  w.extractLsb' 54 7 = 0 && w.extractLsb' 0 32 = 0 &&
    (!w.getLsbD 63 || decide ((w.extractLsb' 48 6).toNat < l.kern.tags)) &&
    (!w.getLsbD 62 || (rings && ringDeclared l (w.extractLsb' 44 4).toNat (w.extractLsb' 40 4).toNat)) &&
    (!w.getLsbD 61 || decide ((w.extractLsb' 34 6).toNat ≤ 59))

/-- The fields of a completion word, with the signal's address and delta read at issue. -/
def compOf (g : Group) (w : W64) : Comp :=
  { tag := if w.getLsbD 63 then some (w.extractLsb' 48 6).toNat else Option.none
    ring := if w.getLsbD 62 then some ((w.extractLsb' 44 4).toNat, (w.extractLsb' 40 4).toNat) else Option.none
    sig := if w.getLsbD 61 then
      let r := (w.extractLsb' 34 6).toNat
      some (spaceOf (w.extractLsb' 32 2).toNat, getS g r, getS g (r + 1)) else Option.none }

/-- The completion word of an op that may carry one. -/
def compRead (s : State) (rings en : Bool) (creg : Nat) : Res Comp :=
  if en then (Res.require (compOk s.l rings (getS s.g creg))).bind fun _ => .ok (compOf s.g (getS s.g creg))
  else (Res.require (creg = 0)).bind fun _ => .ok Comp.none

/-- The access of a signal, checked with the op's own addresses; it stands with lane 0, so that R97 reports it after that lane's
source and destination and before the other lanes' (notes/assumptions/59.md). -/
def compReqs (c : Comp) : List Req :=
  match c.sig with
  | none => []
  | some (sp, a, _) => [{ lane := 0, role := 2, sub := 0, sp := sp, addr := a, w := 8, rd := true, wr := true, data := 0, exp := 0 }]

/-- The resolved signal. -/
def compSig (c : Comp) (as : List Acc) : Option SigRef :=
  match c.sig, as with
  | some (_, _, d), a :: _ => some ⟨a.loc, a.va, d⟩
  | _, _ => none

/-- Records a command adds at issue: a global signal of a replay task (R107, R318). -/
def compRecs (s : State) (c : Comp) : Nat := if c.sig.any fun x => deferred s x.1 then 1 else 0

/-- A command's tag, and the record of a deferred signal, at issue (R106, R318). -/
def compStart (c : Comp) (sig : Option SigRef) (s : State) : State :=
  let s := { s with t := startTag c.tag s.t }
  match sig with
  | none => s
  | some r => if compRecs s c = 1 then addRed s.g (sigRec s.g .copy r.loc.addr r.va r.delta) s else s

/-! ### CPY and TMOV -/

/-- SIZE of a CPY in bytes. -/
def copySize (f : OpF) : Nat := 4 * 2 ^ (f.imm.extractLsb' 30 2).toNat
/-- The source space. -/
def copySq (f : OpF) : Space := spaceOf (f.imm.extractLsb' 28 2).toNat
/-- The destination space. -/
def copyDq (f : OpF) : Space := spaceOf (f.dst.toNat / 64)
/-- CREG. -/
def copyCreg (f : OpF) : Nat := (f.imm.extractLsb' 22 6).toNat
/-- CWEN. -/
def copyCwen (f : OpF) : Bool := f.imm.getLsbD 21

/-- The copy word (R221). -/
def copyOk (tile : Bool) (f : OpF) : Bool :=
  f.imm.extractLsb' 0 21 = 0 && (if tile then f.imm.extractLsb' 30 2 = 0 else f.imm.extractLsb' 30 2 ≠ 3)

/-- Requests of one operand of a CPY, one a lane. -/
def cpyReqs (g : Group) (f : OpF) (role : Nat) (sp : Space) (base : W64) (off : Src) : List Req :=
  (lanesOf (activeMask g f.guard)).map fun i =>
    { lane := i, role := role, sub := 0, sp := sp, addr := base + laneOffset g f off i, w := copySize f, rd := role = 0,
      wr := role = 1, data := 0, exp := 0 }

/-- Source and destination requests of a CPY. -/
def cpyPair (g : Group) (f : OpF) : List Req × List Req :=
  (cpyReqs g f 0 (copySq f) (getS g f.b.reg.toNat) f.c, cpyReqs g f 1 (copyDq f) (getS g (f.dst.toNat % 64)) f.a)

/-- Rows, row bytes, source and destination strides of a shape word (R103). -/
def tileRows (w : W64) : Nat := (w.extractLsb' 48 16).toNat + 1
/-- Bytes of a row. -/
def tileRowBytes (w : W64) : Nat := 16 * ((w.extractLsb' 36 12).toNat + 1)
/-- Source stride. -/
def tileSrc (w : W64) : Nat := 16 * (w.extractLsb' 18 18).toNat
/-- Destination stride. -/
def tileDst (w : W64) : Nat := 16 * (w.extractLsb' 0 18).toNat

/-- Requests of one side of a tile in units of 16 bytes. -/
def tileReqs (role : Nat) (sp : Space) (base : W64) (rows row stride : Nat) : List Req :=
  (List.range rows).flatMap fun k =>
    reqRun 0 role sp (base + BitVec.ofNat 64 (k * stride)) 16 (row / 16) (role = 0) (role = 1)

/-- Source and destination requests of a TMOV. -/
def tmovPair (g : Group) (f : OpF) : List Req × List Req :=
  let w := getS g f.b.reg.toNat
  (tileReqs 0 (copySq f) (getS g f.a.reg.toNat) (tileRows w) (tileRowBytes w) (tileSrc w),
   tileReqs 1 (copyDq f) (getS g (f.dst.toNat % 64)) (tileRows w) (tileRowBytes w) (tileDst w))

/-- COPY_OVERLAP (R104). The spans are unbounded unsigned numbers, so that one past the last address meets no byte near 0 (DESIGN CHOICE,
unsafe: notes/assumptions/101.md). -/
def tileOverlap (g : Group) (f : OpF) : Bool :=
  let w := getS g f.b.reg.toNat
  let src := (getS g f.a.reg.toNat).toNat
  let dst := (getS g (f.dst.toNat % 64)).toNat
  let last := fun (a stride : Nat) => a + (tileRows w - 1) * stride + tileRowBytes w - 1
  (decide (1 < tileRows w) && decide (tileDst w < tileRowBytes w)) ||
    (copySq f = copyDq f && decide (src ≤ last dst (tileDst w)) && decide (dst ≤ last src (tileSrc w)))

/-- Room in CP and on the tag (R98, R106). -/
def copyRoom (s : State) (c : Comp) : Bool := decide (s.g.copies.length < 63) && tagRoom c.tag s.t

/-- A copy with its checks made joins the queue. -/
def copyIssue (tile : Bool) (n : Nat) (c : Comp) (accs : List Acc) (s : State) : State :=
  let src := accs.take n
  let dst := (accs.drop n).take n
  let sig := compSig c (accs.drop (2 * n))
  let op : CopyOp :=
    { seq := s.g.seqn, tile := tile, pairs := src.zip dst, got := [], buf := none, written := 0, tag := c.tag, ring := c.ring, sig := sig,
      done := false }
  let s := compStart c sig s
  { s with g := { s.g with copies := s.g.copies ++ [op], seqn := s.g.seqn + 1 } }

/-- CPY and TMOV past their legality (R222). -/
def copyBody (tile : Bool) (f : OpF) (s : State) : Res State :=
  (Res.require (copyOk tile f)).bind fun _ => (compRead s true (copyCwen f) (copyCreg f)).bind fun c =>
    if copyRoom s c then
      let rs := if tile then tmovPair s.g f else cpyPair s.g f
      (checkReqs s 1 (rs.1 ++ rs.2 ++ compReqs c)).bind fun accs =>
        if tile && tileOverlap s.g f then .trap (.plain 11)
        else (reserve s 1 ((accs.drop rs.1.length).take rs.1.length) (compRecs s c)).bind fun _ =>
          .ok (copyIssue tile rs.1.length c accs s)
    else .hold

/-- A copy that does not execute: an empty op in CP (R99). -/
def offCopy (s : State) : Res State :=
  if s.g.copies.length < 63 then
    let o : CopyOp :=
      { seq := s.g.seqn, tile := false, pairs := [], got := [], buf := none, written := 0, tag := none, ring := none, sig := none, done := true }
    .ok { s with g := { s.g with copies := (s.g.copies ++ [o]).dropWhile CopyOp.done, seqn := s.g.seqn + 1 } }
  else .hold

/-- CPY. -/
def execCpy (f : OpF) (s : State) : Out := runWith .cpy f offCopy (copyBody false f) s
/-- TMOV. -/
def execTmov (f : OpF) (s : State) : Out := runWith .tmov f offCopy (copyBody true f) s

/-! ### Progress on the copy path -/

/-- Counting bytes against a slot (R110). A fill by them is no release (R115): the RINGGET that observes it learns of no earlier one. -/
def ringCount (op : OpId) (b : Nat) (x : RingSlot) : RingSlot :=
  let x := { x with ops := op :: x.ops.filter fun o => o ≠ op }
  if b < x.remain then { x with remain := x.remain - b }
  else
    let flip := decide (0 < x.remain)
    { x with ovr := x.ovr || decide (x.remain < b), remain := 0, phase := x.phase != flip, full := x.full || flip,
             know := if flip then [] else x.know }

/-- An update of one ring slot of a team. -/
def updSlot (r j : Nat) (f : RingSlot → RingSlot) (t : Team) : Team :=
  { t with rings := t.rings.zipIdx.map fun x =>
      if x.2 = r then x.1.zipIdx.map fun y => if y.2 = j then f y.1 else y.1 else x.1 }

/-- An update of one copy of a group. -/
def updCopy (k : Gid) (seq : Nat) (f : CopyOp → CopyOp) (s : State) : State :=
  updGroup k (fun g => { g with copies := g.copies.map fun o => if o.seq = seq then f o else o }) s

/-- A copy that has finished leaves the queue once the copies before it have (R98). -/
def copyPop (k : Gid) (seq : Nat) (s : State) : State :=
  wake k.t (updGroup k (fun g => { g with
    copies := (g.copies.map fun o => if o.seq = seq then { o with done := true } else o).dropWhile CopyOp.done }) s)

/-- The bytes of some accesses that are still to be moved, by their numbers, with their places. -/
def restOf (as : List Acc) (got : List (Nat × Byte)) : List (Nat × Loc) :=
  let ls := (accLocs as).zipIdx.map fun x => (x.2, x.1)
  if got.isEmpty then ls else ls.filter fun x => !(got.any fun e => e.1 = x.1)

/-- All n bytes from the bytes moved. -/
def wholeImage (n : Nat) (got : List (Nat × Byte)) : List Byte :=
  (List.range n).map fun i => ((got.find? fun e => e.1 = i).map Prod.snd).getD 0

/-- The n bytes that a transfer has read: as they came where they came at once. -/
def readImage (n : Nat) (first : Bool) (got : List (Nat × Byte)) : List Byte := if first then got.map Prod.snd else wholeImage n got

/-- The source bytes of a copy that are still to be read. -/
def copyUnread (o : CopyOp) : List (Nat × Loc) := if o.buf.isSome then [] else restOf (o.pairs.map Prod.fst) o.got

/-- Source bytes read, all that are left or some of a tile move (R119), once the acquires before the copy are performed: all of them before
any write (R102, R222). An uncorrectable error ends the launch. -/
def copyRead (k : Gid) (o : CopyOp) (is : Option (List Nat)) (s : State) : State :=
  if o.buf.isSome then s
  else afterAcquires k o.seq (fun s =>
    let xs := (copyUnread o).filter fun x => is.all fun is => is.contains x.1
    let src := xs.map Prod.snd
    if poisoned s src then memError k (copyPop k o.seq s)
    else
      let s := eccRead src s
      let (bs, s) := readBytes k .copy o.seq src s
      let got := (xs.map Prod.fst).zip bs ++ o.got
      updCopy k o.seq (fun o =>
        if is.isSome then { o with got := got }
        else { o with got := [], buf := some (readImage (accLocs (o.pairs.map Prod.fst)).length o.got.isEmpty got) }) s) s

/-- Destination bytes in order, with their virtual addresses. -/
def copyDsts (o : CopyOp) : List (Loc × W64) :=
  o.pairs.flatMap fun p => (List.range p.2.w).map fun i =>
    ({ p.2.loc with addr := p.2.loc.addr + i }, p.2.va + BitVec.ofNat 64 i)

/-- Destination bytes written; a byte that a tile also reads keeps its old value or takes the copied one (R104), and is written either way
for the release sequences of R115. -/
def copyWrite (op : OpId) (tile : Bool) (src : List Loc) : List ((Loc × W64) × Byte) → State → State
  | [], s => s
  | x :: xs, s =>
    if tile && src.contains x.1.1 then
      let (n, s) := useTick s
      copyWrite op tile src xs (if Config.freeBit n then writeAt op .copy x.1.1 x.1.2 [x.2] s else endRels op x.1.1 1 s)
    else copyWrite op tile src xs (writeAt op .copy x.1.1 x.1.2 [x.2] s)

/-- The next n bytes of a copy written and counted, lane after lane and row after row (notes/assumptions/57.md); a byte that several
lanes write counts once for each (notes/assumptions/58.md). -/
def copyStep (k : Gid) (seq n : Nat) (s : State) : State :=
  match (group? s k).bind fun g => g.copies.find? fun o => o.seq = seq with
  | none => s
  | some o =>
    if o.done then s
    else
      let s := copyRead k o none s
      match (group? s k).bind fun g => g.copies.find? fun o => o.seq = seq with
      | none => s
      | some o =>
        if o.done || o.buf.isNone then s
        else
          let xs := (((copyDsts o).zip (o.buf.getD [])).drop o.written).take n
          let s := copyWrite ⟨k, seq⟩ o.tile (accLocs (o.pairs.map Prod.fst)) xs s
          let s := updCopy k seq (fun o => { o with written := o.written + xs.length }) s
          match o.ring with
          | none => s
          | some (r, j) => if xs.isEmpty then s else updTeam k.t (updSlot r j (ringCount ⟨k, seq⟩ xs.length)) s

/-- A copy ended: its last bytes, its tag, its signal, and the retirement of the copies that have finished in order. -/
def copyEnd (k : Gid) (seq : Nat) (s : State) : State :=
  match (group? s k).bind fun g => g.copies.find? fun o => o.seq = seq with
  | none => s
  | some o =>
    if o.done then s
    else
      let s := copyStep k seq ((copyDsts o).length - o.written) s
      match (group? s k).bind fun g => g.copies.find? fun o => o.seq = seq with
      | none => s
      | some o =>
        if o.done || o.buf.isNone then s else copyPop k seq (commandEnd ⟨k, seq⟩ .copy o.tag o.sig s)

/-- The bytes of a signal that a copy will update itself: a global one of a replay task is left to the seam (R107). -/
def copySig (replay : Bool) (o : CopyOp) : List Loc :=
  match o.sig with
  | none => []
  | some r => if replay && r.loc.home = .phys then [] else locsFrom r.loc 8

/-- The destination bytes of a copy that are still to be written. -/
def copyLeft (o : CopyOp) : List Loc := ((copyDsts o).drop o.written).map fun x => x.1

/-- How far a copy goes on: it reads some of its source bytes, writes n bytes, or goes to its end with its signal. -/
inductive CopyMove where
  | read (is : List Nat)
  | write (n : Nat)
  | finish
  deriving DecidableEq, Repr

/-- The bytes that a copy touches when it goes on. -/
def copyTouch (replay : Bool) (o : CopyOp) (m : CopyMove) : List Loc :=
  match m with
  | .read is => ((copyUnread o).filter fun x => is.contains x.1).map Prod.snd
  | .write n => (copyUnread o).map Prod.snd ++ (copyLeft o).take n
  | .finish => (copyUnread o).map Prod.snd ++ copyLeft o ++ copySig replay o

/-- How far an earlier copy must go before some bytes are touched (R113): not at all, by its reads of them (all of them, of a CPY), by the bytes up to
its last write among them, or to its end where its signal is one of them. -/
def copyNeed (replay : Bool) (t : List Loc) (o : CopyOp) : Option CopyMove :=
  if (copySig replay o).any t.contains then some .finish
  else
    let n := (copyLeft o).zipIdx.foldl (fun m e => if t.contains e.1 then e.2 + 1 else m) 0
    if n ≠ 0 then some (.write n)
    else
      match (copyUnread o).filter fun x => t.contains x.2 with
      | [] => none
      | xs => some (if o.tile then .read (xs.map Prod.fst) else .write 0)

/-- How far the earlier copies of a group must go, found from the newest back, in issue order. -/
def copyClosure (replay : Bool) : List CopyOp → List Loc → List (Nat × CopyMove) → List (Nat × CopyMove)
  | [], _, acc => acc
  | o :: os, t, acc =>
    match copyNeed replay t o with
    | none => copyClosure replay os t acc
    | some m => copyClosure replay os (copyTouch replay o m ++ t) ((o.seq, m) :: acc)

/-- Some source bytes of a tile move read by themselves. -/
def copySome (k : Gid) (seq : Nat) (is : List Nat) (s : State) : State :=
  match (group? s k).bind fun g => g.copies.find? fun o => o.seq = seq with
  | none => s
  | some o => if o.done then s else copyRead k o (some is) s

/-- A copy gone on. -/
def copyGo (k : Gid) (x : Nat × CopyMove) (s : State) : State :=
  match x.2 with
  | .read is => copySome k x.1 is s
  | .write n => copyStep k x.1 n s
  | .finish => copyEnd k x.1 s

/-- What must go before the i-th unretired copy of a group goes on, and the copy's number. -/
def copyPlan (replay : Bool) (g : Group) (i : Nat) (m : CopyMove) : List (Nat × CopyMove) :=
  match g.copies[i]? with
  | none => []
  | some o =>
    if o.done then []
    else copyClosure replay ((g.copies.take i).filter fun p => !p.done).reverse (copyTouch replay o m) [(o.seq, m)]

/-- The i-th unretired copy of a group goes on, after what the earlier ones it meets must do first (R113). -/
def copyAfter (k : Gid) (i : Nat) (m : CopyMove) (s : State) : State :=
  match group? s k with
  | none => s
  | some g =>
    (copyPlan ((launch? s k.t.l).elim false fun l => l.replay) g i m).foldl (fun s x => copyGo k x s) s

/-- n source bytes of the i-th unretired copy of a group from the o-th on, read by themselves where it is a tile move: the reads of a CPY are made at one
time (R102), those of a tile move each for itself (R119). -/
def copyPart (k : Gid) (i o n : Nat) (s : State) : State :=
  if ((group? s k).bind fun g => g.copies[i]?).any CopyOp.tile then copyAfter k i (.read ((List.range n).map fun j => o + j)) s else s

/-- COPY_COMPLETE (R222): the i-th unretired copy of a group writes its last byte. -/
def execCopyComplete (k : Gid) (i : Nat) (s : State) : Out := .next (copyAfter k i .finish s)

/-- RING_BYTE_COUNT (R110): the i-th unretired copy of a group writes n more bytes, counted as they are written. -/
def execRingByteCount (k : Gid) (i n : Nat) (s : State) : Out := .next (copyAfter k i (.write n) s)

end Sys2Proof.Machine
end

