-- ==== Sys2Proof/Machine/MapOps.lean ====
section
/-!
DEFINITION. Map ops (R200 to R206): loading, storing, binding, generating and streaming maps, and the events that end their
transfers.
-/
namespace Sys2Proof.Machine

/-! ### Checks on descriptors (R50 to R52, R202 to R204) -/

/-- Reserved bits zero and a format of R51. -/
def descOk (d : W64) : Bool := d.extractLsb' 56 6 = 0 && d.extractLsb' 40 4 = 0 && decide (mdFmt d ≤ 10)

/-- The slot rules of R52 and R203 for a resident or stream descriptor bound to a map number of the group in focus. -/
def slotsFree (s : State) (n : Nat) (d : W64) : Bool := slotsOk s.l d && !hitsStream s s.g n (mdSlots d)

/-- A resident descriptor: KINDWORD zero. -/
def residentOk (s : State) (n : Nat) (d : W64) : Bool :=
  descOk d && mdKind d = 1 && mdWord d = 0 && slotsFree s n d

/-- The limits of R204 on a generator: code, parameter, shape, format. -/
def genOk (gen param rows cols fmt : Nat) : Bool :=
  decide (gen ≤ 4) && decide (fmt ≤ 10) && !fmtPicot fmt &&
    (match gen with
     | 2 => true
     | 4 => decide (param < 32) && rows = cols && cols % (param % 32 + 1) = 0
     | _ => param = 0)

/-- A generated descriptor: no slot, KINDWORD bits 29:10 zero. -/
def generatedOk (d : W64) : Bool :=
  descOk d && mdKind d = 2 && mdSlot d = 0 && decide (mdWord d < 1024) &&
    genOk (mdWord d % 16) (mdWord d / 16) (mdRows d) (mdCols d) (mdFmt d)

/-- A value that MAPSET accepts (R202). -/
def mapsetOk (s : State) (n : Nat) (d : W64) : Bool :=
  match mdKind d with
  | 0 => d = 0
  | 1 => residentOk s n d
  | 2 => generatedOk d
  | _ => false

/-! ### Binding (R203) -/

/-- A map number released: a stream's fetches are discarded and its slots returned (R206). -/
def mapRelease (n : Nat) (g : Group) : Group :=
  { setMap g n 0 with streams := g.streams.filter fun e => e.1 ≠ n }

/-- A map number bound, an old stream released first. -/
def mapBind (n : Nat) (d : W64) (g : Group) : Group := setMap (mapRelease n g) n d

/-- The map number in DST. -/
def dstMap (f : OpF) : Nat := f.dst.toNat % 16

/-- MAPSET (R202). -/
def execMapset (f : OpF) (s : State) : Out :=
  runS .mapset f (fun s =>
    let d := getS s.g f.a.reg.toNat
    (Res.require (mapsetOk s (dstMap f) d)).bind fun _ => .ok { s with g := mapBind (dstMap f) d s.g }) s

/-- The view that MAPBIND forms (R202). -/
def viewDesc (d : W64) (shape : Nat) : W64 :=
  mkDesc (mdKind d) (mdSlot d) (mdFmt d) (shape % 32 + 1) (shape / 32 % 32 + 1) (mdWord d)

/-- MAPBIND (R202). -/
def execMapbind (f : OpF) (s : State) : Out :=
  runS .mapbind f (fun s =>
    let d := getMap s.g f.a.reg.toNat
    let x := (intS s.g f f.b).toNat
    (Res.require (mdKind d = 1 && decide (x < 1024) && decide (x % 32 + 1 ≤ mdRows d) && decide (x / 32 % 32 + 1 ≤ mdCols d) &&
        slotsFree s (dstMap f) (viewDesc d x))).bind fun _ =>
      .ok { s with g := mapBind (dstMap f) (viewDesc d x) s.g }) s

/-- MAPADV (R206). -/
def execMapadv (f : OpF) (s : State) : Out :=
  runG .mapadv f (fun g =>
    (Res.require (mdKind (getMap g (dstMap f)) = 3)).bind fun _ => .ok (streamAdvance (dstMap f) g)) s

/-- MAPREL (R206). -/
def execMaprel (f : OpF) (s : State) : Out := runP .maprel f (mapRelease (dstMap f)) s

/-! ### Images (R200) -/

/-- The requests of an image, in units of 64 bytes and a shorter last one; the base is checked for a multiple of 64. -/
def imageReqs (sp : Space) (base : W64) (size : Nat) (rd : Bool) : List Req :=
  (List.range ((size + 63) / 64)).map fun i =>
    { lane := 0, role := if rd then 0 else 1, sub := i, sp := sp, addr := base + BitVec.ofNat 64 (64 * i), w := min 64 (size - 64 * i),
      rd := rd, wr := !rd, data := 0, exp := 0 }

/-- The checks of R97 with access width 64. -/
def checkImage (s : State) (rs : List Req) : Res (List Acc) := (checkForm (fun _ => 64) rs).bind fun _ => checkReach s 2 rs

/-- The base address of MAPLD and MAPST. -/
def imageBase (g : Group) (f : OpF) : W64 :=
  getS g f.a.reg.toNat + (if f.form = .long then f.imm.signExtend 64 else 0)

/-- Bytes of one element pattern; two 4-bit elements make a byte. -/
def rowImage (fmt : Nat) (elem : Nat → Nat) : List Byte :=
  if (fmtTy fmt).bits = 4 then
    (List.range 16).map fun j => BitVec.ofNat 8 (elem (2 * j) % 16 + elem (2 * j + 1) % 16 * 16)
  else (List.range 32).flatMap fun j => leBytes ((fmtTy fmt).bits / 8) (elem j)

/-- The image of a generated map: columns at or above C are +0. -/
def genImage (d : W64) : List Byte :=
  (List.range (mdRows d)).flatMap fun i => rowImage (mdFmt d) fun j =>
    if j < mdCols d && genOne (mdWord d % 16) (mdWord d / 16 % 64) (mdRows d) (mdCols d) i j then oneOf (fmtTy (mdFmt d)) else 0

/-- Bytes of the slots as a MAPST of the group in focus sees them: each as it stands, or as another group's unfinished load that has read it
brings it (R60). -/
def seenSlots (s : State) (first n : Nat) : List Byte :=
  match altSlots s with
  | [] => memBytes s.t.slots first n
  | alt => (List.range n).map fun i => memGet (seenStore s alt [first + i] i) (first + i)

/-- The image of a resident or generated map; a resident one from its rows as the slot holds them. -/
def mapImage (s : State) (d : W64) : List Byte :=
  if mdKind d = 2 then genImage d
  else
    let n := imageSize (mdFmt d) (mdRows d)
    let bs := seenSlots s (mdBase d) n
    (List.range n).map fun i => bs.getD (slotByte (mdFmt d) (mdRows d) i) 0

/-! ### MAPLD, MAPST and MAPGEN (R201, R204) -/

/-- Waits at issue for room in MP (R98). -/
def needMp (s : State) : Res Unit := if s.g.mapops.length < 63 then .ok () else .hold

/-- An op put into MP. -/
def issueMap (o : MapOp) (g : Group) : Group :=
  { g with mapops := (g.mapops ++ [{ o with seq := g.seqn }]).dropWhile MapOp.done, seqn := g.seqn + 1 }

/-- An empty op of MP (R99). -/
def emptyMap : MapOp :=
  { seq := 0, kind := .empty, fmt := 0, first := 0, size := 0, accs := [], image := none, got := [], rival := [], done := true }

/-- A map transfer that does not execute. -/
def offMap (s : State) : Res State := (needMp s).bind fun _ => .ok { s with g := issueMap emptyMap s.g }

/-- The load that MAPLD starts: the slot bytes it fills and the memory it reads. -/
def mapldOp (d : W64) (accs : List Acc) : MapOp :=
  { emptyMap with kind := .load, fmt := mdFmt d, first := mdBase d, size := imageSize (mdFmt d) (mdRows d), accs := accs, done := false }

/-- MAPLD past its legality. -/
def mapldBody (f : OpF) (s : State) : Res State :=
  let d := getS s.g f.b.reg.toNat
  let n := dstMap f
  (Res.require (residentOk s n d)).bind fun _ => (needMp s).bind fun _ =>
    (checkImage s (imageReqs (spaceOf (f.dst.toNat / 64)) (imageBase s.g f) (imageSize (mdFmt d) (mdRows d)) true)).bind fun accs =>
      .ok { s with g := issueMap (mapldOp d accs) (mapBind n d s.g) }

/-- MAPLD. -/
def execMapld (f : OpF) (s : State) : Out := runWith .mapld f offMap (mapldBody f) s

/-- MAPST past its legality: it reads its slot after every earlier op of the group that writes it (R60). -/
def mapstBody (f : OpF) (s : State) : Res State :=
  let d := getMap s.g (dstMap f)
  let n := imageSize (mdFmt d) (mdRows d)
  (Res.require (mdKind d = 1 || mdKind d = 2)).bind fun _ => (needMp s).bind fun _ =>
    (checkImage s (imageReqs (spaceOf (f.dst.toNat / 64)) (imageBase s.g f) n false)).bind fun accs =>
      if mdKind d = 1 && mapPending s.g (mdBase d) n then .hold
      else (reserve s 2 accs 0).bind fun _ =>
        let o := { emptyMap with kind := .store, fmt := mdFmt d, accs := accs, image := some (mapImage s d), done := false }
        .ok { s with g := issueMap o s.g }

/-- MAPST. -/
def execMapst (f : OpF) (s : State) : Out := runWith .mapst f offMap (mapstBody f) s

/-- Fields of a generator word (R204). -/
def gwGen (f : OpF) : Nat := (f.imm.extractLsb' 0 4).toNat
/-- PARAM. -/
def gwParam (f : OpF) : Nat := (f.imm.extractLsb' 4 6).toNat
/-- FMT. -/
def gwFmt (f : OpF) : Nat := (f.imm.extractLsb' 10 4).toNat
/-- R. -/
def gwRows (f : OpF) : Nat := (f.imm.extractLsb' 14 5).toNat + 1
/-- C. -/
def gwCols (f : OpF) : Nat := (f.imm.extractLsb' 19 5).toNat + 1
/-- SLOT. -/
def gwSlot (f : OpF) : Nat := (f.imm.extractLsb' 24 8).toNat

/-- The descriptor MAPGEN binds: generated, or resident for .diag. -/
def genDesc (f : OpF) : W64 :=
  if gwGen f = 5 then mkDesc 1 (gwSlot f) (gwFmt f) (gwRows f) (gwCols f) 0
  else mkDesc 2 0 (gwFmt f) (gwRows f) (gwCols f) (gwGen f + 16 * gwParam f)

/-- The rules of R204 on the generator word. -/
def mapgenOk (s : State) (f : OpF) : Bool :=
  if gwGen f = 5 then
    gwParam f = 0 && decide (gwFmt f ≤ 10) && !fmtPicot (gwFmt f) && slotsFree s (dstMap f) (genDesc f)
  else gwSlot f = 0 && genOk (gwGen f) (gwParam f) (gwRows f) (gwCols f) (gwFmt f)

/-- A diagonal element converted from lane i of source a; an inactive lane gives +0 (R204). -/
def diagElem (g : Group) (f : OpF) (i : Nat) : Nat × Flags :=
  let t := fmtTy (gwFmt f)
  if lane (activeMask g f.guard) i then
    let x := (getLane g f.a.reg.toNat i).toNat
    if t.isInt then intFinish t.bits t.signed true (intRead 32 true x) else cvtElem .f32 t 0 false x
  else (0, 0)

/-- Rows with a diagonal element. -/
def diagRows (f : OpF) : List Nat := (List.range (gwRows f)).filter fun i => i < gwCols f

/-- The image a .diag writes. -/
def diagImage (g : Group) (f : OpF) : List Byte :=
  (List.range (gwRows f)).flatMap fun i => rowImage (gwFmt f) fun j =>
    if j = i && i < gwCols f then (diagElem g f i).1 else 0

/-- The op MAPGEN counts in MP: a generated binding is done at once. -/
def mapgenOp (g : Group) (f : OpF) : MapOp :=
  if gwGen f = 5 then
    { emptyMap with kind := .diag, fmt := gwFmt f, first := mdBase (genDesc f), size := imageSize (gwFmt f) (gwRows f),
                    image := some (diagImage g f), done := false }
  else { emptyMap with kind := .gen }

/-- MAPGEN past its legality. -/
def mapgenBody (f : OpF) (s : State) : Res State :=
  (Res.require (mapgenOk s f)).bind fun _ => (needMp s).bind fun _ =>
    let fl := if gwGen f = 5 then (diagRows f).foldl (fun a i => a ||| (diagElem s.g f i).2) 0 else 0
    .ok { s with g := raise fl (issueMap (mapgenOp s.g f) (mapBind (dstMap f) (genDesc f) s.g)) }

/-- MAPGEN. -/
def execMapgen (f : OpF) (s : State) : Out := runWith .mapgen f offMap (mapgenBody f) s

/-! ### MAPSTR (R205) -/

/-- FMT of the stream fields. -/
def sfFmt (f : OpF) : Nat := (f.imm.extractLsb' 0 4).toNat
/-- R. -/
def sfRows (f : OpF) : Nat := (f.imm.extractLsb' 4 5).toNat + 1
/-- C. -/
def sfCols (f : OpF) : Nat := (f.imm.extractLsb' 9 5).toNat + 1
/-- SLOT. -/
def sfSlot (f : OpF) : Nat := (f.imm.extractLsb' 14 8).toNat
/-- U. -/
def sfReuse (f : OpF) : Nat := (f.imm.extractLsb' 22 3).toNat + 1

/-- The descriptor of a new stream: b = 0, u = U. -/
def streamDesc (f : OpF) : W64 := mkDesc 3 (sfSlot f) (sfFmt f) (sfRows f) (sfCols f) (sfReuse f * 2 ^ 26)

/-- Block count of a stream word. -/
def swCount (w : W64) : Nat := (w.extractLsb' 0 26).toNat
/-- Block stride of a stream word in bytes. -/
def swStride (w : W64) : Nat := 64 * (w.extractLsb' 26 38).toNat

/-- Fields and slots (R52, R203, R205): no slot that another stream holds or that any map number binds as resident. -/
def mapstrOk (s : State) (f : OpF) : Bool :=
  f.imm.extractLsb' 25 7 = 0 && decide (sfFmt f ≤ 10) && decide (1 ≤ swCount (getS s.g f.b.reg.toNat)) &&
    slotsFree s (dstMap f) (streamDesc f) && !hitsResident s s.g 0 (mdSlots (streamDesc f))

/-- Every block of a stream. -/
def streamReqs (base w : W64) (size : Nat) : List Req :=
  (List.range (swCount w)).flatMap fun t => imageReqs .g (base + BitVec.ofNat 64 (t * swStride w)) size true

/-- MAPSTR past its legality: the fetches of the first two blocks begin, each an op of its own in program order. -/
def mapstrBody (f : OpF) (s : State) : Res State :=
  let base := getS s.g f.a.reg.toNat
  let w := getS s.g f.b.reg.toNat
  (Res.require (mapstrOk s f)).bind fun _ =>
    (checkImage s (streamReqs base w (imageSize (sfFmt f) (sfRows f)))).bind fun accs =>
      let g := mapBind (dstMap f) (streamDesc f) s.g
      .ok { s with g := { g with
        streams := g.streams ++ [(dstMap f, { base := base, word := w, fields := f.imm, units := accs, here := false, ahead := false,
                                              seqHere := s.g.seqn, seqAhead := s.g.seqn + 1, gotHere := [], gotAhead := [] })]
        seqn := s.g.seqn + 2 } }

/-- MAPSTR. -/
def execMapstr (f : OpF) (s : State) : Out := runS .mapstr f (mapstrBody f) s

/-! ### The stream path -/

/-- First byte of the slot store of block t's buffer (R205). -/
def streamBase (d : W64) (t : Nat) : Nat := 2048 * (mdSlot d + slotsOf (mdFmt d) * (t % 2))

/-- A map's image brought into slots. -/
def fillSlots (first fmt : Nat) (bs : List Byte) (t : Team) : Team := { t with slots := memPutBytes t.slots first (slotImage fmt bs) }

/-- A block fetch in flight: its map number and block, the number at which it began, the slot bytes it fills, the memory it reads, and
the bytes it has read. -/
structure Fetch where
  map : Nat
  blk : Nat
  seq : Nat
  first : Nat
  size : Nat
  accs : List Acc
  got : List (Nat × Byte)
  deriving DecidableEq, Repr

/-- The units of a block. -/
def blockUnits (d : W64) (st : Stream) (blk : Nat) : List Acc :=
  let n := (imageSize (mdFmt d) (mdRows d) + 63) / 64
  (st.units.drop (blk * n)).take n

/-- A block that is being fetched: the present one or the next, not yet in (R61). -/
def fetching (g : Group) (m blk : Nat) : Option Fetch :=
  let d := getMap g m
  match g.streams.find? fun e => e.1 = m with
  | none => none
  | some e =>
    let x := fun (seq : Nat) (got : List (Nat × Byte)) =>
      some (⟨m, blk, seq, streamBase d blk, imageSize (mdFmt d) (mdRows d), blockUnits d e.2 blk, got⟩ : Fetch)
    if swCount e.2.word ≤ blk then none
    else if blk = mdB d && !e.2.here then x e.2.seqHere e.2.gotHere
    else if blk = mdB d + 1 && !e.2.ahead then x e.2.seqAhead e.2.gotAhead
    else none

/-- The fetches in flight of a group. -/
def fetches (g : Group) : List Fetch :=
  g.streams.flatMap fun e =>
    let b := mdB (getMap g e.1)
    (fetching g e.1 b).toList ++ (fetching g e.1 (b + 1)).toList

/-- Some bytes of an image read on the stream path, joined to those read before; none where one of them has an uncorrectable error. -/
def streamRead (k : Gid) (seq : Nat) (xs : List (Nat × Loc)) (got : List (Nat × Byte)) (s : State) : Option (List (Nat × Byte) × State) :=
  let ls := xs.map Prod.snd
  if poisoned s ls then none
  else
    let (bs, s) := readBytes k .stream seq ls (eccRead ls s)
    some ((xs.map Prod.fst).zip bs ++ got, s)

/-- A stream with a block's bytes so far, or with the whole block in its buffer. -/
def fetched (d : W64) (m blk : Nat) (got : Option (List (Nat × Byte))) (e : Nat × Stream) : Nat × Stream :=
  if e.1 ≠ m then e
  else match got with
    | some xs => (m, if blk = mdB d then { e.2 with gotHere := xs } else { e.2 with gotAhead := xs })
    | none => (m, if blk = mdB d then { e.2 with here := true, gotHere := [] } else { e.2 with ahead := true, gotAhead := [] })

/-- A fetch that reads its last bytes: the block is in its buffer (R61); an uncorrectable error ends the launch. -/
def fetchDo (k : Gid) (m blk : Nat) (s : State) : State :=
  match (group? s k).bind fun g => (fetching g m blk).map fun x => (g, x) with
  | none => s
  | some (g, x) =>
    match streamRead k x.seq (restOf x.accs x.got) x.got s with
    | none => memError k s
    | some (got, s) =>
      let d := getMap g m
      updTeam k.t (fillSlots x.first (mdFmt d) (readImage x.size x.got.isEmpty got))
        (updGroup k (fun g => { g with streams := g.streams.map (fetched d m blk none) }) s)

/-- Some bytes of a fetch read by themselves (R119). -/
def fetchSome (k : Gid) (m blk : Nat) (is : List Nat) (s : State) : State :=
  match (group? s k).bind fun g => fetching g m blk with
  | none => s
  | some x =>
    match streamRead k x.seq ((restOf x.accs x.got).filter fun e => is.contains e.1) x.got s with
    | none => memError k s
    | some (got, s) => updGroup k (fun g => { g with streams := g.streams.map (fetched (getMap g m) m blk (some got)) }) s

/-- An update of one map transfer of a group. -/
def updMapop (k : Gid) (seq : Nat) (f : MapOp → MapOp) (s : State) : State :=
  updGroup k (fun g => { g with mapops := g.mapops.map fun o => if o.seq = seq then f o else o }) s

/-- The image of a store written unit by unit. -/
def storeImage (op : OpId) : List Acc → List Byte → State → State
  | [], _, s => s
  | a :: as, bs, s =>
    storeImage op as (bs.drop a.w) (writeAt op .stream a.loc a.va (bs.take a.w) s)

/-- Some bytes of the image of a store written, each by itself. -/
def storeSome (op : OpId) (o : MapOp) (is : List Nat) (s : State) : State :=
  is.foldl (fun s i =>
    match o.accs[i / 64]?, (o.image.getD [])[i]? with
    | some a, some b =>
      let l : Loc := { a.loc with addr := a.loc.addr + i % 64 }
      writeAt op .stream l (a.va + BitVec.ofNat 64 (i % 64)) [b] s
    | _, _ => s) s

/-- The bytes of the slot store that a map transfer fills. -/
def slotRun (o : MapOp) : List Nat := (List.range o.size).map fun i => o.first + i

/-- Other groups' unfinished loads of a team that fill some of the same bytes find that a load has filled them (R201). -/
def markRivals (k : Gid) (o : MapOp) (s : State) : State :=
  updTeamGroups k.t (fun g =>
    if g.id = k then g
    else { g with mapops := g.mapops.map fun x =>
      if !x.done && x.first < o.first + o.size && o.first < x.first + x.size then
        { x with rival := ((slotRun o).filter fun i => x.first ≤ i && i < x.first + x.size) ++ x.rival } else x }) s

/-- A map's image brought into its slots byte by byte: a byte that another group's load has filled meanwhile keeps that value or takes
the image's (R201). -/
def fillApart (first fmt rows : Nat) (rival : List Nat) (k : Tid) : List (Nat × Byte) → State → State
  | [], s => s
  | x :: xs, s =>
    let a := first + slotByte fmt rows x.1
    let (n, s) := useTick s
    fillApart first fmt rows rival k xs
      (if rival.contains a && Config.freeBit n then s else updTeam k (fun t => { t with slots := memPut t.slots a x.2 }) s)

/-- A transfer's image brought into its slots. -/
def fillFrom (k : Gid) (o : MapOp) (bs : List Byte) (s : State) : State :=
  markRivals k o (
    if o.rival.isEmpty then updTeam k.t (fillSlots o.first o.fmt bs) s
    else fillApart o.first o.fmt (bs.length / rowBytes o.fmt) o.rival k.t (bs.zipIdx.map fun x => (x.2, x.1)) s)

/-- One map transfer done, by what is left of it (R201, R204); an uncorrectable error delivers nothing and ends the launch. -/
def mapDo (k : Gid) (seq : Nat) (s : State) : State :=
  match (group? s k).bind fun g => g.mapops.find? fun o => o.seq = seq with
  | none => s
  | some o =>
    if o.done then s
    else
      let fin := updMapop k seq (fun o => { o with done := true })
      match o.kind with
      | .load =>
        match streamRead k seq (restOf o.accs o.got) o.got s with
        | none => memError k (fin s)
        | some (got, s) => fillFrom k o (readImage o.size o.got.isEmpty got) (fin s)
      | .store =>
        fin (if o.got.isEmpty then storeImage ⟨k, seq⟩ o.accs (o.image.getD []) s
             else storeSome ⟨k, seq⟩ o ((restOf o.accs o.got).map Prod.fst) s)
      | .diag => fillFrom k o (o.image.getD []) (fin s)
      | _ => fin s

/-- Some bytes of a map transfer moved by themselves: a load reads them, a store writes them (R119). -/
def mapSome (k : Gid) (seq : Nat) (is : List Nat) (s : State) : State :=
  match (group? s k).bind fun g => g.mapops.find? fun o => o.seq = seq with
  | none => s
  | some o =>
    let xs := (restOf o.accs o.got).filter fun e => is.contains e.1
    if o.done then s
    else
      match o.kind with
      | .load =>
        match streamRead k seq xs o.got s with
        | none => memError k (updMapop k seq (fun o => { o with done := true }) s)
        | some (got, s) => updMapop k seq (fun o => { o with got := got }) s
      | .store =>
        updMapop k seq (fun o => { o with got := (xs.map fun e => (e.1, 0)) ++ o.got }) (storeSome ⟨k, seq⟩ o (xs.map Prod.fst) s)
      | _ => s

/-- What is under way on the stream path of a group: a transfer by its number, or a block fetch. -/
inductive Moving where
  | xfer (o : MapOp)
  | fetch (x : Fetch)
  deriving DecidableEq, Repr

/-- Its memory, slot bytes, and place in program order. -/
def Moving.foot : Moving → List Acc × Nat × Nat × Nat
  | .xfer o => (o.accs, o.first, o.size, o.seq)
  | .fetch x => (x.accs, x.first, x.size, x.seq)

/-- The bytes that it has still to move. -/
def Moving.rest : Moving → List (Nat × Loc)
  | .xfer o => restOf o.accs o.got
  | .fetch x => restOf x.accs x.got

/-- Whether two of them touch a common byte of the slot store (R60). -/
def slotsMeet (p q : Moving) : Bool :=
  let a := p.foot
  let b := q.foot
  decide (a.2.1 < b.2.1 + b.2.2.1) && decide (b.2.1 < a.2.1 + a.2.2.1)

/-- Whether two of them touch a common byte of memory (R113). -/
def memMeet (p q : Moving) : Bool := p.foot.1.any fun x => q.foot.1.any fun y => accMeet x y

/-- Insertion in program order. -/
def insMoving (p : Moving) : List Moving → List Moving
  | [] => [p]
  | q :: qs => if p.foot.2.2.2 < q.foot.2.2.2 then p :: q :: qs else q :: insMoving p qs

/-- What is under way on the stream path of a group, in program order. -/
def movings (g : Group) : List Moving :=
  ((g.mapops.filter fun o => !o.done).map Moving.xfer ++ (fetches g).map Moving.fetch).foldl (fun l p => insMoving p l) []

/-- What must be moved of one of them: all that is left, or some bytes. -/
structure MoveNeed where
  m : Moving
  is : Option (List Nat)
  deriving DecidableEq, Repr

/-- The memory that this touches. -/
def MoveNeed.locs (n : MoveNeed) : List Loc :=
  (n.m.rest.filter fun x => n.is.all fun is => is.contains x.1).map Prod.snd

/-- What must be moved of an earlier one before what is needed of later ones: all of it where they fill a common slot byte (R60), else the
bytes that it shares with them in memory (R113). -/
def moveNeed (ns : List MoveNeed) (p : Moving) : Option MoveNeed :=
  if ns.any fun n => n.is.isNone && slotsMeet p n.m then some ⟨p, none⟩
  else
    let ls := (ns.filter fun n => memMeet p n.m).flatMap MoveNeed.locs
    if ls.isEmpty then none
    else
      match p.rest.filter fun x => ls.contains x.2 with
      | [] => none
      | xs => some ⟨p, some (xs.map Prod.fst)⟩

/-- What must be moved first, found from the newest earlier one back; in program order. -/
def movingClosure : List Moving → List MoveNeed → List MoveNeed
  | [], ns => ns
  | p :: ps, ns => movingClosure ps ((moveNeed ns p).toList ++ ns)

/-- What is needed moved, after the acquires before it (R114 item 2). -/
def movingDo (k : Gid) (n : MoveNeed) (s : State) : State :=
  match n.m, n.is with
  | .xfer o, none => afterAcquires k o.seq (mapDo k o.seq) s
  | .xfer o, some is => afterAcquires k o.seq (mapSome k o.seq is) s
  | .fetch x, none => afterAcquires k x.seq (fetchDo k x.map x.blk) s
  | .fetch x, some is => afterAcquires k x.seq (fetchSome k x.map x.blk is) s

/-- What is needed of one of them moved, after what must go before it. -/
def movingTo (k : Gid) (n : MoveNeed) (s : State) : State :=
  match group? s k with
  | none => s
  | some g =>
    (movingClosure ((movings g).filter fun q => q.foot.2.2.2 < n.m.foot.2.2.2).reverse [n]).foldl (fun s q => movingDo k q s) s

/-- n bytes of a block fetch from an image byte on, read by themselves (R119). -/
def fetchPart (k : Gid) (m blk o n : Nat) (s : State) : State :=
  match (group? s k).bind fun g => fetching g m blk with
  | none => s
  | some x => movingTo k ⟨.fetch x, some ((List.range n).map fun i => o + i)⟩ s

/-- n bytes of the i-th unretired map transfer of a group from an image byte on, moved by themselves (R119). -/
def mapPart (k : Gid) (i o n : Nat) (s : State) : State :=
  match (group? s k).bind fun g => g.mapops[i]? with
  | none => s
  | some x => if x.done then s else movingTo k ⟨.xfer x, some ((List.range n).map fun i => o + i)⟩ s

/-- STREAM_BLOCK_ARRIVAL (R61): block blk of a stream is in its buffer. -/
def execStreamBlockArrival (k : Gid) (m blk : Nat) (s : State) : Out :=
  match (group? s k).bind fun g => fetching g m blk with
  | none => .next s
  | some x => .next (wake k.t (movingTo k ⟨.fetch x, none⟩ s))

/-- The finished map transfers of a group retire; `still` tells the retired ops that it still matters to observe. -/
def mapRetire (still : Nat → Bool) (g : Group) : Group :=
  { g with mapops := g.mapops.dropWhile MapOp.done
           retired := (((g.mapops.takeWhile MapOp.done).map fun o => (Ctr.mp, o.seq)) ++ g.retired).filter fun x => still x.2 }

/-- MAP_TRANSFER_COMPLETE (R98): the i-th unretired transfer of a group finishes, after the acquires and what it meets before it;
finished transfers retire in order, and a WAIT may still have to observe them (R120). -/
def execMapTransferComplete (k : Gid) (i : Nat) (s : State) : Out :=
  match (group? s k).bind fun g => g.mapops[i]? with
  | none => .next s
  | some o =>
    let s := if o.done then s else movingTo k ⟨.xfer o, none⟩ s
    .next (wake k.t (updGroup k (mapRetire fun q => noted s ⟨k, q⟩) s))

end Sys2Proof.Machine
end

