-- ==== Sys2Proof/Machine/Seq.lean ====
section
/-!
DEFINITION. Fetching a word (R126, R139, R161) and the sequencing selectors (R159 to R162, R24, R247); the hints and the unassigned
opcodes (R147, R148).
-/
namespace Sys2Proof.Machine

/-- Whether an ASAVE or ALOAD of the group holds back its next word (R211). -/
def accBusy (g : Group) : Bool := g.lane.any fun o => o.ctr = .acc

/-- The 16 bytes of a word. -/
def wordAt (m : Mem) (pa : Nat) : W128 := BitVec.ofNat 128 (memNat m pa 16)

/-- What a fetch finds: a word at a physical address, or a fault. -/
def fetchXlat (s : State) : XR := xlat s s.p ⟨false, false, true⟩ s.g.pc 16

/-- The class of a word error (R127, R129). -/
def errClass : WordErr → Nat
  | .illegalWord => 1
  | .illegalSeq => 2

/-- Where a fetched word starts: slot A, slot B of a paired word, or the sequencing field (R140, R161). -/
def startPos (slotB : Bool) (d : WordD) : Pos := if slotB then (if d.b.isSome then .b else .seq) else .a

/-- The word checks in order: ILLEGAL_WORD, ILLEGAL_SEQ, ILLEGAL_PAIR (R139). -/
def checkWord (w : W128) : Except TrapI WordD :=
  match decodeWord w with
  | .error e => .error (.plain (errClass e))
  | .ok d => if pairIllegal d then .error (.plain 3) else .ok d

/-- The group with a word fetched and checked. -/
def gotWord (w : W128) (d : WordD) (g : Group) : Group :=
  { g with word := w, dec := some d, pos := startPos g.slotB d, wait := .none }

/-- A fetch that raises a class: the frame waits for the loads of the registers it saves (R300). -/
def fetchTrap (w : W128) (i : TrapI) (s : State) : State :=
  if waitsFrame s.g && !s.g.hmode then holdAt s else takeTrap s.g.slotB w i s

/-- A SAT that waited for the end of a word is ORed in (R107). -/
def satNow (g : Group) : Group := if g.satDue then raise flagSAT { g with satDue := false } else g

/-- The bytes of a word as locations. -/
def wordLocs (pa : Nat) : List Loc := locsFrom ⟨.phys, pa⟩ 16

/-- WORD_FETCH (R139, R161, R296): a PC of bad form traps without a fetch; a translation fault parks with PATH 7 and KIND 3. -/
def execWordFetch (s : State) : Out :=
  let s := { s with g := satNow s.g }
  if accBusy s.g then .next { s with g := { s.g with wait := .acc } }
  else if !wellFormed s.g.pc then .next (fetchTrap 0 (.at_ 9 0 s.g.pc) s)
  else
    match fetchXlat s with
    | .fault level range reason => .next (parkAt (parkOf 7 3 s.g.pc level range reason) s)
    | .ok pa =>
      if poisoned s (wordLocs pa) then .next (endLaunch s.l.id (trapCode 19) s)
      else
        let s := eccRead (wordLocs pa) s
        match checkWord (wordAt s.hbm pa) with
        | .error i => .next (fetchTrap (wordAt s.hbm pa) i s)
        | .ok d => .next { s with g := gotWord (wordAt s.hbm pa) d s.g }

/-- The word retires (R26): its PC has moved on, it is counted outside handler mode, and the group fetches next. -/
def retireWord (tick : Nat) (g : Group) : Group :=
  { g with clkr := if g.hmode then g.clkr else g.clkr + 1, pos := .fetch, wait := .none, since := tick }

/-- A sequencing field (R130): it waits for an unretired load of a register it uses. -/
def runSeq (i : Instr) (next : Group → Group) (s : State) : Out :=
  if waitsSeq i s.g then .next (holdAt s) else .next { s with g := retireWord s.tick (next s.g) }

/-- The PC at slot A of an address. -/
def goto (a : W64) (g : Group) : Group := { g with pc := a, slotB := false }

/-- The next word (R159). -/
def nextPc (g : Group) : W64 := g.pc + 16

/-- The branch target (R128). -/
def target (g : Group) (ofs : BitVec 12) : W64 := g.pc + ofs.signExtend 64 * 16

/-- The PC from a register value (R159). -/
def gotoReg (x : W64) (g : Group) : Group := { g with pc := (fromReg x).1, slotB := (fromReg x).2 }

/-- NEXT (R159). -/
def execNext (s : State) : Out := runSeq .next (fun g => goto (nextPc g) g) s
/-- JUMP (R159). -/
def execJump (ofs : BitVec 12) (s : State) : Out := runSeq (.jump ofs) (fun g => goto (target g ofs) g) s
/-- JUMPC (R159). -/
def execJumpc (neg : Bool) (k : BitVec 3) (ofs : BitVec 12) (s : State) : Out :=
  runSeq (.jumpc neg k ofs) (fun g => goto (if getK g k.toNat != neg then target g ofs else nextPc g) g) s
/-- CALL (R159). -/
def execCall (ofs : BitVec 12) (s : State) : Out :=
  runSeq (.call ofs) (fun g => goto (target g ofs) (setS g 61 (nextPc g))) s
/-- RETURN (R159). -/
def execRet (s : State) : Out := runSeq .ret (fun g => gotoReg (getS g 61) g) s
/-- LOOP (R159, R160). -/
def execLoop (n : BitVec 2) (ofs : BitVec 12) (s : State) : Out :=
  runSeq (.loop n ofs) (fun g =>
    let c := getN g n.toNat
    if 1 < c.toNat then goto (target g ofs) (setN g n.toNat (c - 1)) else goto (nextPc g) (setN g n.toNat 0)) s
/-- JUMPX (R159). -/
def execJumpx (r : BitVec 6) (s : State) : Out := runSeq (.jumpx r) (fun g => gotoReg (getS g r.toNat) g) s
/-- CALLX: the target is read before the link is written (R159). -/
def execCallx (r : BitVec 6) (s : State) : Out :=
  runSeq (.callx r) (fun g => gotoReg (getS g r.toNat) (setS g 61 (nextPc g))) s

/-- EXIT (R24): the group, which counts as exited since its slots have executed, issues no further word. -/
def execExit (s : State) : Out := runSeq .exit (fun g => { g with exited := true }) s

/-- A 4-byte field of the refinement descriptor (R245). -/
def rfField (rf : Refine) (at_ : Nat) : W32 := rf.desc.extractLsb' (8 * at_) 32

/-- Address of a region whose offset stands at a byte of the descriptor (R246). -/
def rfRegion (entry : W64) (rf : Refine) (at_ : Nat) : W64 := entry + (rfField rf at_).setWidth 64

/-- The factor region of the controller's tier. -/
def rfFactor (entry : W64) (rf : Refine) : W64 := rfRegion entry rf (4 * rf.tier)

/-- RFNEXT on the controller: next address and new state (R247). -/
def rfNext (entry : W64) (g : Group) : Group :=
  let rf := g.rf
  let enter := fun (a : W64) (st : RfState) => goto a { g with rf := { rf with st := st, dec := if rf.st = .test then .none else rf.dec } }
  match rf.st, rf.dec with
  | .idle, _ => goto (nextPc g) g
  | .start, _ => enter (rfFactor entry rf) .factor
  | .factor, _ => enter (rfRegion entry rf 12) .solve
  | .solve, _ => enter (rfRegion entry rf 16) .resid
  | .resid, _ => enter (rfRegion entry rf 20) .test
  | .test, .none => goto (rfRegion entry rf 20) g
  | .test, .continue => enter (rfRegion entry rf 12) .solve
  | .test, .escalate => enter (rfFactor entry rf) .factor
  | .test, .stop => enter (rfRegion entry rf 24) .idle

/-- RFNEXT: NEXT in handler mode (R162, R247, R249). -/
def execRfnext (s : State) : Out :=
  runSeq .rfnext (fun g => if g.hmode then goto (nextPc g) g else rfNext s.l.entry g) s

/-- NOP: no field is checked and nothing happens (R147). -/
def execNop (_ : OpF) (s : State) : Out := finish s (.ok s)
/-- YIELD: changes timing only (R147). -/
def execYield (_ : OpF) (s : State) : Out := finish s (.ok s)

/-- Whether the class of an opcode names a condition register in its guard (R136, R141). -/
def opcodeGuardK (opc : Nat) (form : Form) : Bool :=
  let c := if form = .long then opc / 128 else opc / 64
  c = 0 || c = 7

/-- An unassigned opcode: ILLEGAL_OP when it would execute (R148, R356). -/
def execUnassignedOpcode (opc : BitVec 10) (f : OpF) (s : State) : Out :=
  let k := opcodeGuardK opc.toNat f.form
  if !k && (pendingRegs s.g).contains (.s 62) then .next (holdAt s)
  else if guardHolds k s.g f.guard then finish s (.trap trapIllegal)
  else finish s (.ok s)

end Sys2Proof.Machine
end

