-- ==== Sys2Proof/Machine/Sync.lean ====
section
/-!
DEFINITION. The waiting ops of class 6 (R230 to R236): counters, tags, signals, stage rings, barriers and register quota, with the
events that end each wait.
-/
namespace Sys2Proof.Machine

/-- A waiting group that is where an event names it. -/
def resume (k : Gid) (act : State → State) (s : State) : Out :=
  let s := focus k s
  if s.g.live && s.g.id = k then .next (act s) else .next s

/-- Completions observed by the group in focus (R120), those that still matter. -/
def observe (s : State) (ops : List OpId) (g : Group) : Group :=
  let fresh := (ops.filter fun op => noted s op && !(g.observed.any fun o => o.op = op)).eraseDups
  { g with observed := fresh.map (fun op => ⟨op, g.seqn⟩) ++ g.observed.filter fun o => noted s o.op }

/-! ### WAIT (R231) -/

/-- The high limit of a limit field. -/
def limHi (x : Src) : Nat := ((encodeSrc x).extractLsb' 8 6).toNat
/-- The low limit of a limit field. -/
def limLo (x : Src) : Nat := ((encodeSrc x).extractLsb' 0 6).toNat
/-- Bits 7:6 of a limit field. -/
def limOk (x : Src) : Bool := (encodeSrc x).extractLsb' 6 2 = 0

/-- Whether the limits LD, ST, CP, MP hold. -/
def limitsHold (g : Group) (ld st cp mp : Nat) : Bool :=
  decide (ctrCount g .ld ≤ ld) && decide (ctrCount g .st ≤ st) && decide (g.copies.length ≤ cp) && decide (g.mapops.length ≤ mp)

/-- A group's own ops on a path that wrote or read what still matters (R117, R120). -/
def ownOps (s : State) (path : Path) : List OpId :=
  (s.recs.filter fun r => r.op.k = s.g.id && r.path = path).map WriteRec.op ++
    ((s.g.crossed.filter fun c => c.onto = some path).filterMap Crossing.by_).filter fun op => op.k = s.g.id

/-- What a WAIT that ends has observed: its group's retired ops of the counters it limits. -/
def waitSeen (s : State) (ld st cp mp : Nat) : List OpId :=
  ((s.g.retired.filter fun x => (x.1 = .ld && decide (ld < 63)) || (x.1 = .st && decide (st < 63)) || (x.1 = .mp && decide (mp < 63))).map
    fun x => ⟨s.g.id, x.2⟩) ++
  (if cp < 63 then (ownOps s .copy).filter fun op => !(s.g.copies.any fun o => o.seq = op.seq) else [])

/-- WAIT ends where its limits hold. -/
def waitTry (ld st cp mp : Nat) (s : State) : Option State :=
  if limitsHold s.g ld st cp mp then some { s with g := observe s (waitSeen s ld st cp mp) s.g } else none

/-- A blocking op: its effect at once where it can end, or its wait. -/
def tryOr (w : Wait) (attempt : State → Option State) (s : State) : Res State :=
  match attempt s with
  | some t => .ok t
  | none => .block { s with g := { s.g with wait := w } }

/-- WAIT. -/
def execWait (f : OpF) (s : State) : Out :=
  runS .wait f (fun s => (Res.require (limOk f.a && limOk f.b)).bind fun _ =>
    tryOr (.wait (limHi f.a) (limLo f.a) (limHi f.b) (limLo f.b)) (waitTry (limHi f.a) (limLo f.a) (limHi f.b) (limLo f.b)) s) s

/-- A waiting op ended by its event. -/
def ending (attempt : State → Option State) (s : State) : State :=
  match attempt s with
  | some t => { t with g := nextSlot t.g }
  | none => s

/-- WAIT_RESUME (R231). -/
def execWaitResume (k : Gid) (s : State) : Out :=
  resume k (fun s => match s.g.wait with
    | .wait a b c d => ending (waitTry a b c d) s
    | _ => s) s

/-! ### Tags (R232) -/

/-- Tags of a mask that are set. -/
def tagsSet (t : Team) (mask : W64) : List Nat :=
  (List.range 64).filter fun n => mask.getLsbD n && (t.tags[n]?).any Tag.set

/-- Whether a mask is legal: not zero, no tag at or above T. -/
def tagMaskOk (l : Launch) (mask : W64) : Bool := mask ≠ 0 && decide (mask.toNat < 2 ^ l.kern.tags)

/-- The ops that finished on the set tags of a mask. -/
def tagOps (t : Team) (mask : W64) : List OpId := (tagsSet t mask).flatMap fun n => (t.tags.getD n ⟨0, false, []⟩).ops

/-- TWANY and TWALL end. -/
def tagTry (all : Bool) (mask : W64) (s : State) : Option State :=
  let hit := tagsSet s.t mask
  if (if all then (List.range 64).all fun n => !mask.getLsbD n || hit.contains n else !hit.isEmpty) then
    some { s with g := observe s (tagOps s.t mask) s.g }
  else none

/-- Whether a lower-numbered group of the team waits in a TFIRST that takes a tag (R232: the lowest-numbered group takes it). -/
def tfirstRival (s : State) (n : Nat) : Bool :=
  (teamGroups s s.g.id.t).any fun h => decide (h.id.num < s.g.id.num) &&
    match h.wait with
    | .tfirst _ m => (tagsSet s.t m).head? = some n
    | _ => false

/-- TFIRST ends: the lowest set tag of the mask is taken. -/
def tfirstTry (d : Nat) (mask : W64) (s : State) : Option State :=
  match tagsSet s.t mask with
  | [] => none
  | n :: _ =>
    if tfirstRival s n then none
    else some { s with
      g := setS (observe s (s.t.tags.getD n ⟨0, false, []⟩).ops s.g) d (BitVec.ofNat 64 n)
      t := { s.t with tags := s.t.tags.zipIdx.map fun e => if e.2 = n then { e.1 with set := false } else e.1 } }

/-- TWANY. -/
def execTwany (f : OpF) (s : State) : Out :=
  runS .twany f (fun s => (Res.require (tagMaskOk s.l (intS s.g f f.a))).bind fun _ =>
    tryOr (.tags false (intS s.g f f.a)) (tagTry false (intS s.g f f.a)) s) s

/-- TWALL. -/
def execTwall (f : OpF) (s : State) : Out :=
  runS .twall f (fun s => (Res.require (tagMaskOk s.l (intS s.g f f.a))).bind fun _ =>
    tryOr (.tags true (intS s.g f f.a)) (tagTry true (intS s.g f f.a)) s) s

/-- TFIRST. -/
def execTfirst (f : OpF) (s : State) : Out :=
  runS .tfirst f (fun s => (Res.require (tagMaskOk s.l (intS s.g f f.a))).bind fun _ =>
    tryOr (.tfirst f.dst.toNat (intS s.g f f.a)) (tfirstTry f.dst.toNat (intS s.g f f.a)) s) s

/-- TAG_WAIT_RESUME (R232). -/
def execTagWaitResume (k : Gid) (s : State) : Out :=
  resume k (fun s => match s.g.wait with
    | .tags all m => ending (tagTry all m) s
    | .tfirst d m => ending (tfirstTry d m) s
    | _ => s) s

/-! ### Signals (R107, R233) -/

/-- A scope control field (R230). -/
def scopeField (x : Src) : Nat := (encodeSrc x).toNat

/-- The access of a signal op. -/
def sigReq (g : Group) (f : OpF) (wr : Bool) (data : W64) : Req :=
  { lane := 0, role := 0, sub := 0, sp := spaceOf (f.dst.toNat / 64), addr := getS g f.a.reg.toNat, w := 8, rd := true, wr := wr,
    data := data.setWidth 128, exp := 0 }

/-- SIGADD past its legality (R233): deferred on global memory of a replay launch (R107, R318). -/
def sigaddBody (f : OpF) (s : State) : Res State :=
  (Res.require (decide (scopeField f.c ≤ 5))).bind fun _ => (needRoom .st s).bind fun _ =>
    let d := intS s.g f f.b
    let o := { laneOp .st .sigadd 8 [] .none with rel := some (scopeOf (scopeField f.c)) }
    (checkReqs s 0 [sigReq s.g f true d]).bind fun accs =>
      if deferred s (spaceOf (f.dst.toNat / 64)) then
        (reserve s 0 [] 1).bind fun _ =>
          issueLane { o with done := true } (accs.foldl (fun s a => addRed s.g (sigRec s.g .lane a.loc.addr a.va d) s) s)
      else issueLane { o with accs := accs } s

/-- SIGADD. -/
def execSigadd (f : OpF) (s : State) : Out := runWith .sigadd f (offLane .st) (sigaddBody f) s

/-- Earlier accesses that are ordered before some made at once, performed; none where one of them cannot go yet. -/
def performFor (accs : List Acc) (s : State) : Option State :=
  let ns := opsBefore s.g (.all { laneOp .acc (.load false) 0 accs .none with seq := s.g.seqn })
  let t := performList s.g.id ns s
  if allDone s.g.id ns t then some t else none

/-- One read of SIGWAIT, which ends it on a value at or above the target or below zero. -/
def sigwaitTry (d : Nat) (a : Acc) (target : W64) (sc : Scope) (s : State) : Option State :=
  let ls := locsFrom a.loc 8
  match performFor [a] s with
  | none => none
  | some s =>
    let x := BitVec.ofNat 64 (leNat (peekBytes s.g.id ls s))
    if x.toInt < 0 ∨ target.toInt ≤ x.toInt then
      let tags := relsAt s s.g.id (plainly ls)
      let n := s.g.seqn
      let s := { s with g := { setS s.g d x with lastRead := tags, lastSeq := n, lastBound := false, seqn := n + 1 } }
      some (acquire s.g.id sc n tags (learnNewest s.g.id .lane n ls s))
    else none

/-- Whether a signal's line holds an uncorrectable error. -/
def sigPoisoned (a : Acc) (s : State) : Bool := poisoned s (locsFrom a.loc 8)

/-- SIGWAIT past its legality. -/
def sigwaitBody (f : OpF) (s : State) : Res State :=
  (Res.require (decide (scopeField f.c ≤ 5))).bind fun _ =>
    (checkReqs s 0 [sigReq s.g f false 0]).bind fun accs =>
      match accs with
      | [] => .ok s
      | a :: _ =>
        if sigPoisoned a s then .ok (memError s.g.id s)
        else
          let d := f.dst.toNat % 64
          let t := intS s.g f f.b
          let sc := scopeOf (scopeField f.c)
          tryOr (.sigwait d a t sc) (sigwaitTry d a t sc) (eccRead (locsFrom a.loc 8) s)

/-- SIGWAIT. -/
def execSigwait (f : OpF) (s : State) : Out := runS .sigwait f (sigwaitBody f) s

/-- SIGWAIT_END (R233). -/
def execSigwaitEnd (k : Gid) (s : State) : Out :=
  resume k (fun s => match s.g.wait with
    | .sigwait d a t sc =>
      if sigPoisoned a s then memError k s else ending (sigwaitTry d a t sc) (eccRead (locsFrom a.loc 8) s)
    | _ => s) s

/-! ### Stage rings (R108 to R110, R234) -/

/-- Ring and slot of a selector. -/
def selRing (x : W64) : Nat := (x.extractLsb' 4 4).toNat
/-- Slot of a selector. -/
def selSlot (x : W64) : Nat := (x.extractLsb' 0 4).toNat
/-- A selector with no upper bit, of a declared ring and slot. -/
def selOk (l : Launch) (x : W64) : Bool := x.extractLsb' 8 56 = 0 && ringDeclared l (selRing x) (selSlot x)

/-- An empty slot (R109). -/
def RingSlot.start : RingSlot := ⟨false, false, false, 0, [], []⟩

/-- A ring slot of a team. -/
def slotAt (t : Team) (r j : Nat) : RingSlot := (t.rings.getD r []).getD j .start

/-- What a release at .team brings to an acquire, for all that follows in program order. -/
def learn (know : List Crossing) (g : Group) : Group := { g with crossed := (learnAt g.seqn know ++ g.crossed).eraseDups }

/-- Expect (R110). -/
def ringexpTry (r j n : Nat) (s : State) : Option State :=
  let x := slotAt s.t r j
  if x.full then none
  else
    let m := x.remain + n
    some { s with
      g := learn x.know s.g
      t := updSlot r j (fun x => { x with remain := min m (2 ^ 24 - 1), ovr := x.ovr || decide (2 ^ 24 - 1 < m) }) s.t }

/-- Fill (R110): a release at .team. -/
def ringputTry (r j : Nat) (s : State) : Option State :=
  let x := slotAt s.t r j
  if x.full || x.remain ≠ 0 then none
  else
    (performAll s.g.id s).map fun s =>
      let g := learn x.know s.g
      { s with g := g, t := updSlot r j (fun x => { x with phase := !x.phase, full := true, know := knowOf s g g.seqn }) s.t }

/-- Wait (R110): an acquire at .team; OVR is returned, raised and cleared. -/
def ringgetTry (d r j q : Nat) (s : State) : Option State :=
  let x := slotAt s.t r j
  if x.full && x.phase = (q = 1) then
    let g := observe s x.ops (learn x.know (setS s.g d (if x.ovr then 1 else 0)))
    some { s with
      g := if x.ovr then raise flagOVERRUN g else g
      t := updSlot r j (fun x => { x with ovr := false }) s.t }
  else none

/-- Release (R110): it releases what is before the RINGPUT.free of a program-order number (R114 item 3, R115); none where an access
before it cannot go yet. -/
def ringFree (r j seq : Nat) (s : State) : Option State :=
  (performOlder s.g.id seq s).map fun s =>
    { s with t := updSlot r j (fun x => if x.full then { x with full := false, ops := [], know := knowOf s s.g seq } else x) s.t }

/-- RINGEXP. -/
def execRingexp (f : OpF) (s : State) : Out :=
  runS .ringexp f (fun s =>
    let x := intS s.g f f.a
    let n := (intS s.g f f.b).toNat
    (Res.require (selOk s.l x && decide (1 ≤ n) && decide (n < 2 ^ 24))).bind fun _ =>
      tryOr (.ringexp (selRing x) (selSlot x) n) (ringexpTry (selRing x) (selSlot x) n) s) s

/-- RINGPUT: DST bit 0 clear. -/
def execRingput (f : OpF) (s : State) : Out :=
  runS .ringput f (fun s =>
    let x := intS s.g f f.a
    (Res.require (selOk s.l x)).bind fun _ =>
      tryOr (.ringput (selRing x) (selSlot x)) (ringputTry (selRing x) (selSlot x)) s) s

/-- RINGPUT.free: it takes effect once every earlier LD-counted op of its group has retired (R115); the group goes on. -/
def execRingputFree (f : OpF) (s : State) : Out :=
  runS .ringputFree f (fun s =>
    let x := intS s.g f f.a
    (Res.require (selOk s.l x)).bind fun _ =>
      match (if ctrCount s.g .ld = 0 ∧ s.g.frees = [] then ringFree (selRing x) (selSlot x) s.g.seqn s else none) with
      | some s => .ok s
      | none => .ok { s with g := { s.g with frees := s.g.frees ++ [⟨s.g.seqn, selRing x, selSlot x⟩], seqn := s.g.seqn + 1 } }) s

/-- RINGGET. -/
def execRingget (f : OpF) (s : State) : Out :=
  runS .ringget f (fun s =>
    let x := intS s.g f f.a
    let q := (intS s.g f f.b).toNat
    let d := f.dst.toNat
    (Res.require (selOk s.l x && decide (q ≤ 1))).bind fun _ =>
      tryOr (.ringget d (selRing x) (selSlot x) q) (ringgetTry d (selRing x) (selSlot x) q) s) s

/-- RINGGET_END (R110). -/
def execRinggetEnd (k : Gid) (s : State) : Out :=
  resume k (fun s => match s.g.wait with
    | .ringget d r j q => ending (ringgetTry d r j q) s
    | _ => s) s

/-- RINGEXP_RESUME (R110). -/
def execRingexpResume (k : Gid) (s : State) : Out :=
  resume k (fun s => match s.g.wait with
    | .ringexp r j n => ending (ringexpTry r j n) s
    | _ => s) s

/-- RINGPUT_RESUME (R110). -/
def execRingputResume (k : Gid) (s : State) : Out :=
  resume k (fun s => match s.g.wait with
    | .ringput r j => ending (ringputTry r j) s
    | _ => s) s

/-- Whether the oldest pending release of a group may take effect. -/
def freeReady (g : Group) : Bool :=
  match g.frees with
  | [] => false
  | x :: _ => !(g.lane.any fun o => o.ctr = .ld && o.seq < x.seq)

/-- The oldest pending release of the group in focus takes effect. -/
def freeDo (s : State) : State :=
  match s.g.frees with
  | [] => s
  | x :: xs => if freeReady s.g then (ringFree x.ring x.slot x.seq { s with g := { s.g with frees := xs } }).getD s else s

/-- RINGPUT_FREE_EFFECT (R115). -/
def execRingputFreeEffect (k : Gid) (s : State) : Out :=
  let s := focus k s
  if s.g.live && s.g.id = k then .next (freeDo s) else .next s

/-! ### Barriers (R235) -/

/-- Arrival: a release at .team of the group's lane-path accesses; none where one of them cannot go yet. -/
def barArrive (id : Nat) (s : State) : Option State :=
  (performAll s.g.id s).map fun s =>
    let t := { s.t with bars := s.t.bars.zipIdx.map fun e =>
      if e.2 = id then { e.1 with arrived := s.g.id.num :: e.1.arrived, know := knowOf s s.g s.g.seqn ++ e.1.know } else e.1 }
    { s with t := t, g := { s.g with wait := .bar id (t.bars.getD id ⟨0, [], []⟩).gen } }

/-- BAR: the group arrives and waits to depart. -/
def execBar (f : OpF) (s : State) : Out :=
  runS .bar f (fun s => match barArrive f.dst.toNat s with
    | some t => .block t
    | none => .hold) s

/-- A group that waits at a generation of a barrier departs. -/
def barGo (id : Nat) (b : Bar) (g : Group) : Group :=
  if g.wait = .bar id b.gen then nextSlot (learn b.know g) else g

/-- BAR_DEPART (R235): the generation completes and all waiting groups depart. -/
def execBarDepart (t : Tid) (id : Nat) (s : State) : Out :=
  let s := focusLaunch t.l (focusTeam t s)
  if s.t.live && s.t.id = t && barReady s s.t id s.l.kern.groups &&
      ((teamGroups s t).any fun g => match g.wait with
        | .bar i _ => i = id
        | _ => false) then
    let b := s.t.bars.getD id ⟨0, [], []⟩
    let s := { s with t := { s.t with bars := s.t.bars.zipIdx.map fun e =>
      if e.2 = id then { gen := e.1.gen + 1, arrived := [], know := [] } else e.1 } }
    .next (updTeamGroups t (barGo id b) s)
  else .next s

/-! ### Register quota (R21, R22, R236) -/

/-- The first form of R312 that holds a register exactly. -/
def formOf (v : VReg) : Nat :=
  let xs := (List.range 32).map fun i => v[i]!
  let a := v[0]!
  let d := v[1]! - a
  if xs.all fun x => x = a then 0
  else if (List.range 32).all fun i => v[i]! = a + BitVec.ofNat 32 i * d then 1
  else if xs.all fun x => x.toNat < 2 ^ 8 then 2
  else if xs.all fun x => x = (x.extractLsb' 0 8).signExtend 32 then 3
  else if xs.all fun x => x.toNat < 2 ^ 16 then 4
  else if xs.all fun x => x = (x.extractLsb' 0 16).signExtend 32 then 5
  else 6

/-- A register moved to the backing store, with its tag. -/
def spillOut (j : Nat) (g : Group) : Group := { g with forms := (j, formOf (getV g j)) :: g.forms.filter fun e => e.1 ≠ j }
/-- A register moved from the backing store. -/
def spillIn (j : Nat) (g : Group) : Group := { g with forms := g.forms.filter fun e => e.1 ≠ j }

/-- A group's bound changed: registers that cross it move, every value kept. -/
def setBound (b : Nat) (g : Group) : Group :=
  let g := (List.range (g.bound - b)).foldl (fun g i => spillOut (b + i) g) g
  let g := (List.range (b - g.bound)).foldl (fun g i => spillIn (g.bound + i) g) g
  { g with bound := b }

/-- REGISTER_SPILL (R22): a register moves to or from the backing store; no value changes. -/
def execRegisterSpill (k : Gid) (j : Nat) (s : State) : Out :=
  .next (updGroup k (fun g => if g.forms.any fun e => e.1 = j then spillIn j g else spillOut j g) s)

/-- Sum of the bounds of the lower-numbered groups. -/
def boundsBelow (gs : List Group) (n : Nat) : Nat := (gs.filter fun g => g.id.num < n).foldl (fun a g => a + g.bound) 0

/-- The bases of R21 for every group of a team. -/
def rebase (t : Team) (s : State) : State :=
  let gs := teamGroups s t.id
  updTeamGroups t.id (fun g => { g with base := t.block + boundsBelow gs g.id.num }) s

/-- The checks of R236 on donor, receiver and registers moved. -/
def roleqOk (s : State) (d r k : Nat) : Bool :=
  match group? s ⟨s.g.id.t, d⟩, group? s ⟨s.g.id.t, r⟩ with
  | some x, some y =>
    d ≠ r && !hasExited y && decide (y.bound + k ≤ s.l.kern.regs) && decide (k + (if hasExited x then 0 else 16) ≤ x.bound)
  | _, _ => false

/-- Whether no group between donor and receiver has an unretired load. An ATOM.ord that still waits for its round does not count as one
(DESIGN CHOICE, unsafe: notes/assumptions/92.md). -/
def roleqFree (s : State) (d r : Nat) : Bool :=
  (teamGroups s s.g.id.t).all fun g => g.id.num < min d r || max d r < g.id.num || ctrCount g .ld = 0

/-- Bounds moved and bases recomputed. -/
def roleqMove (d r k : Nat) (s : State) : State :=
  let s := updGroup ⟨s.g.id.t, d⟩ (fun g => setBound (g.bound - k) g) s
  let s := updGroup ⟨s.g.id.t, r⟩ (fun g => setBound (g.bound + k) g) s
  rebase s.t s

/-- ROLEQ: the checks, then the move once the loads have retired. -/
def execRoleq (f : OpF) (s : State) : Out :=
  runS .roleq f (fun s =>
    let q := intS s.g f f.a
    let d := (q.extractLsb' 0 5).toNat
    let r := (q.extractLsb' 5 5).toNat
    let n := (q.extractLsb' 10 4).toNat + 1
    (Res.require (q.extractLsb' 14 50 = 0 && roleqOk s d r (16 * n))).bind fun _ =>
      tryOr (.roleq d r n) (fun s => if roleqFree s d r then some (roleqMove d r (16 * n) s) else none) s) s

/-- ROLEQ_MOVE (R236): checked again when its turn comes. -/
def execRoleqMove (k : Gid) (s : State) : Out :=
  let s := focus k s
  if s.g.live && s.g.id = k then
    match s.g.wait with
    | .roleq d r n =>
      if !roleqFree s d r then .next s
      else if roleqOk s d r (16 * n) then
        let s := roleqMove d r (16 * n) s
        .next { s with g := nextSlot s.g }
      else .next (trapAt trapIllegal s)
    | _ => .next s
  else .next s

end Sys2Proof.Machine
end

