-- ==== Sys2Proof/Machine/Engine.lean ====
section
/-!
DEFINITION. The engines beside the group (R237 to R253): bobbin commands, the refinement controller, symmetric stores, and the
events that end their commands.
-/
namespace Sys2Proof.Machine

/-- COMMAND_INVALID with its field and lane (R237). -/
def trapCommand (field ln : Nat) : TrapI := ⟨12, field, 0, ln, 0, 0⟩

/-- A read of an engine's block on the lane path. -/
def laneRead (accs : List Acc) (s : State) : List Byte × State :=
  let n := s.g.seqn
  let ls := accLocs accs
  let (xs, s) := readSeen s.g.id .lane n ls s
  let tags := relsAt s s.g.id (ls.zip (xs.map Seen.passed))
  (xs.map Seen.byte, { s with g := { s.g with lastRead := tags, lastSeq := n, lastBound := false, seqn := n + 1 } })

/-- What follows such a read, made after the group's earlier accesses that are ordered before it (R114); an uncorrectable error in the
block ends the launch (R299). -/
def laneThen (accs : List Acc) (next : List Byte → State → Res State) (s : State) : Res State :=
  if poisoned s (accLocs accs) then .ok (memError s.g.id s)
  else
    match performFor accs (eccRead (accLocs accs) s) with
    | none => .hold
    | some s =>
      let (b, s) := laneRead accs s
      next b s

/-- The first field of a list whose rule is broken. -/
def firstBad (xs : List (Nat × Bool)) : Option Nat := (xs.find? fun x => x.2).map Prod.fst

/-! ### BOB: the command block (R238 to R241) -/

/-- An n-byte number of a block. -/
def blkNat (b : List Byte) (at_ n : Nat) : Nat := leNat ((b.drop at_).take n)
/-- A signed 8-byte number of a block. -/
def blkInt (b : List Byte) (at_ : Nat) : Int := sextNat 64 (blkNat b at_ 8)

/-- r. -/
def bobRank (b : List Byte) : Nat := bitsAt (blkNat b 0 8) 32 3 + 1
/-- REV. -/
def bobRev (b : List Byte) (d : Nat) : Bool := bitsAt (blkNat b 0 8) (24 + d) 1 = 1
/-- π(d). -/
def bobPerm (b : List Byte) (d : Nat) : Nat := bitsAt (blkNat b 0 8) (3 * d) 3
/-- PICOT. -/
def bobPicot (b : List Byte) : Nat := bitsAt (blkNat b 8 8) 3 2
/-- ESIZE. -/
def bobEsize (b : List Byte) : Nat := bitsAt (blkNat b 8 8) 0 3
/-- SQ. -/
def bobSq (b : List Byte) : Space := spaceOf (bitsAt (blkNat b 8 8) 5 2)
/-- DQ. -/
def bobDq (b : List Byte) : Space := spaceOf (bitsAt (blkNat b 8 8) 7 2)
/-- e_k. -/
def bobExt (b : List Byte) (k : Nat) : Nat := blkNat b (64 + 4 * k) 4
/-- SSTR_k. -/
def bobSstr (b : List Byte) (k : Nat) : Int := blkInt b (96 + 8 * k)
/-- DSTR_d. -/
def bobDstr (b : List Byte) (d : Nat) : Int := blkInt b (160 + 8 * d)

/-- DMW breaks a rule. -/
def dmwBad (b : List Byte) : Bool :=
  let w := blkNat b 0 8
  let r := bobRank b
  let ds := List.range r
  bitsAt w 35 29 ≠ 0 || bitsAt w 24 8 / 2 ^ r ≠ 0 || bitsAt w 0 24 / 2 ^ (3 * r) ≠ 0 ||
    !(ds.all fun k => ds.any fun d => bobPerm b d = k) || (bobPicot b ≠ 0 && (bobPerm b 0 ≠ 0 || bobRev b 0))

/-- CTL breaks a rule. -/
def ctlBad (b : List Byte) : Bool := bitsAt (blkNat b 8 8) 9 55 ≠ 0 || (bobPicot b ≠ 0 && bobEsize b ≠ 0)

/-- A base field that the command does not use is not zero. -/
def baseBad (b : List Byte) (at_ : Nat) : Bool :=
  let used := match at_ with
    | 24 => 2 ≤ bobPicot b
    | 48 => 2 ≤ bobPicot b
    | 32 => bobPicot b ≠ 0
    | 56 => bobPicot b ≠ 0
    | _ => true
  !used && blkNat b at_ 8 ≠ 0

/-- Element count. -/
def bobCount (b : List Byte) : Nat := (List.range (bobRank b)).foldl (fun n k => n * bobExt b k) 1

/-- An extent breaks a rule; the count's limit stands at the first extent. -/
def extBad (b : List Byte) (k : Nat) : Bool :=
  ((decide (k < bobRank b)) != (bobExt b k ≠ 0)) || (k = 0 && (decide (2 ^ 40 < bobCount b) || (bobPicot b ≠ 0 && bobExt b 0 ≠ 16)))

/-- The rule SSTR0 = DSTR0 = 1 of a picot command is broken (R241): it ties the two strides, so that it counts at both (R237). -/
def unitBad (b : List Byte) : Bool := bobPicot b ≠ 0 && (bobSstr b 0 ≠ 1 || bobDstr b 0 ≠ 1)

/-- A stride breaks a rule; that other strides of a picot command are multiples of 16 is taken as a rule of each stride by itself
(DEDUCED, unsafe: notes/assumptions/88.md). -/
def strideBad (b : List Byte) (x : Int) (k : Nat) : Bool :=
  decide (2 ^ 40 < x.natAbs) || (bobRank b ≤ k && x ≠ 0) ||
    (if k = 0 then unitBad b else bobPicot b ≠ 0 && x % 16 ≠ 0)

/-- The lowest invalid field of a command block (R237, R242 check 3). -/
def bobBad (b : List Byte) : Option Nat :=
  firstBad ([(0, dmwBad b), (8, ctlBad b)] ++ ([24, 32, 48, 56].map fun a => (a, baseBad b a)) ++
    ((List.range 8).map fun k => (64 + 4 * k, extBad b k)) ++
    ((List.range 8).map fun k => (96 + 8 * k, strideBad b (bobSstr b k) k)) ++
    ((List.range 8).map fun k => (160 + 8 * k, strideBad b (bobDstr b k) k)) ++ [(224, decide (blkNat b 224 32 ≠ 0))])

/-- One array a command moves: offsets of its source and destination base fields, and its element width in bits. -/
structure BobArray where
  sfield : Nat
  dfield : Nat
  w : Nat
  deriving DecidableEq, Repr

/-- The element arrays of a command (R240, R241), without headers. -/
def bobArrays (b : List Byte) : List BobArray :=
  match bobPicot b with
  | 0 => [⟨16, 40, 2 ^ bobEsize b⟩]
  | 1 => [⟨16, 40, 8⟩]
  | 2 => [⟨16, 40, 4⟩, ⟨24, 48, 1⟩]
  | _ => [⟨16, 40, 2⟩, ⟨24, 48, 1⟩]

/-- Every logical coordinate, dimension 0 fastest. -/
def coords : List Nat → List (List Nat)
  | [] => [[]]
  | e :: es => (coords es).flatMap fun c => (List.range e).map fun x => x :: c

/-- Source index of a coordinate (R240). -/
def bobSi (b : List Byte) (c : List Nat) : Int :=
  (List.range (bobRank b)).foldl (fun a k => a + (c.getD k 0 : Int) * bobSstr b k) 0

/-- Destination index of a coordinate (R240). -/
def bobDi (b : List Byte) (c : List Nat) : Int :=
  (List.range (bobRank b)).foldl (fun a d =>
    let p := bobPerm b d
    let x : Int := if bobRev b d then (bobExt b p : Int) - 1 - c.getD p 0 else c.getD p 0
    a + x * bobDstr b d) 0

/-- One element's place: byte address, first bit in that byte, bytes touched. -/
def elemPlace (base : W64) (i : Int) (w : Nat) : W64 × Nat × Nat :=
  (base + BitVec.ofInt 64 ((i * w) / 8), ((i * w) % 8).toNat, max 1 (w / 8))

/-- One move before translation: source and destination places, width in bits, and the source base field. -/
structure BobElem where
  src : W64 × Nat × Nat
  dst : W64 × Nat × Nat
  w : Nat
  field : Nat
  deriving DecidableEq, Repr

/-- Every element and header a command moves. -/
def bobElems (b : List Byte) : List BobElem :=
  let base := fun (a : Nat) => BitVec.ofNat 64 (blkNat b a 8)
  (coords ((List.range (bobRank b)).map (bobExt b))).flatMap fun c =>
    let si := bobSi b c
    let di := bobDi b c
    ((bobArrays b).map fun a => ⟨elemPlace (base a.sfield) si a.w, elemPlace (base a.dfield) di a.w, a.w, a.sfield⟩) ++
    (if bobPicot b ≠ 0 && c.getD 0 0 = 0 then [⟨elemPlace (base 32) (si / 16) 16, elemPlace (base 56) (di / 16) 16, 16, 32⟩] else [])

/-- The accesses of one side of a command. -/
def bobReqs (b : List Byte) (role : Nat) (es : List BobElem) : List Req :=
  es.map fun e =>
    let p := if role = 0 then e.src else e.dst
    { lane := 0, role := role, sub := 0, sp := if role = 0 then bobSq b else bobDq b, addr := p.1, w := p.2.2, rd := role = 0,
      wr := role = 1, data := 0, exp := 0 }

/-- The bases, checked for alignment with the elements (R242). -/
def bobBases (b : List Byte) : List Req :=
  let arrays := bobArrays b ++ (if bobPicot b ≠ 0 then [⟨32, 56, 16⟩] else [])
  arrays.flatMap fun a => [(0, a.sfield, bobSq b), (1, a.dfield, bobDq b)].map fun x =>
    { lane := 0, role := x.1, sub := 0, sp := x.2.2, addr := BitVec.ofNat 64 (blkNat b x.2.1 8), w := max 1 (a.w / 8), rd := false,
      wr := false, data := 0, exp := 0 }

/-- Lowest and highest byte of places. -/
def spanOf (ps : List (W64 × Nat × Nat)) : Option (Nat × Nat) :=
  ps.foldl (fun acc p =>
    let lo := p.1.toNat
    let hi := lo + p.2.2 - 1
    match acc with
    | none => some (lo, hi)
    | some x => some (min x.1 lo, max x.2 hi)) none

/-- The source array whose span meets a destination array's, in one space (R242 check 5). -/
def bobSpan (b : List Byte) (es : List BobElem) : Option Nat :=
  if bobSq b ≠ bobDq b then none
  else
    let dsts := [16, 24, 32].filterMap fun a => spanOf ((es.filter fun e => e.field = a).map BobElem.dst)
    [16, 24, 32].find? fun a =>
      match spanOf ((es.filter fun e => e.field = a).map BobElem.src) with
      | none => false
      | some x => dsts.any fun y => x.1 ≤ y.2 && y.1 ≤ x.2

/-- Moves with their resolved accesses. -/
def bobMoves (es : List BobElem) (src dst : List Acc) : List BitMove :=
  ((es.zip src).zip dst).map fun x =>
    { src := x.1.2.loc, sbit := x.1.1.src.2.1, dst := x.2.loc, dva := x.2.va, dbit := x.1.1.dst.2.1, w := x.1.1.w, val := none }

/-- Checks 3 to 5 of R242 on a block that has been read, in a state; `sig` are the signal's accesses. -/
def bobCheck (s : State) (b : List Byte) (sig : List Req) : Res (List BitMove × List Acc × List Acc) :=
  match bobBad b with
  | some x => .trap (trapCommand x 0)
  | none =>
    let es := bobElems b
    let rs := bobReqs b 0 es ++ bobReqs b 1 es
    (checkForm Req.w (rs ++ bobBases b ++ sig)).bind fun _ => (checkReach s 3 (rs ++ sig)).bind fun accs =>
      match bobSpan b es with
      | some x => .trap (trapCommand x 0)
      | none =>
        let src := accs.take es.length
        let dst := (accs.drop es.length).take es.length
        .ok (bobMoves es src dst, dst, accs.drop (2 * es.length))

/-- The completion control of BOB (R237). -/
def bobOk (f : OpF) : Bool := f.imm.extractLsb' 0 21 = 0 && f.imm.extractLsb' 28 4 = 0

/-- Bytes a list of moves has still to read. -/
def moveSrcs (ms : List BitMove) : List Loc := ms.flatMap fun m => if m.val.isSome then [] else locsFrom m.src (max 1 (m.w / 8))

/-- Bytes that a list of moves both reads and writes: physical bytes that two virtual spans share (R242). A destination byte in a gap
of the source array, which no move reads, takes the moved value (DESIGN CHOICE, unsafe: notes/assumptions/82.md). -/
def movesShared (ms : List BitMove) : List Loc :=
  let dst := ms.flatMap fun m => locsFrom m.dst (max 1 (m.w / 8))
  (moveSrcs ms).filter dst.contains

/-- The shared bytes that keep their old value, chosen byte by byte (R242). -/
def movesKeep : List Loc → State → List Loc × State
  | [], s => ([], s)
  | a :: as, s =>
    let (n, s) := useTick s
    let (r, s) := movesKeep as s
    (if Config.freeBit n then a :: r else r, s)

/-- A command queued on the bobbin engine. -/
def bobIssue (c : Comp) (moves : List BitMove) (sig : List Acc) (s : State) : State :=
  let r := compSig c sig
  let s := compStart c r s
  let shared := (movesShared moves).eraseDups
  let (keep, s) := movesKeep shared s
  { s with g := { s.g with bobs := s.g.bobs ++ [⟨s.g.seqn, moves, !shared.isEmpty, keep, c.tag, r⟩], seqn := s.g.seqn + 1 } }

/-- BOB past its legality (R242). -/
def bobBody (f : OpF) (s : State) : Res State :=
  (Res.require (bobOk f)).bind fun _ => (compRead s false (copyCwen f) (copyCreg f)).bind fun c =>
    let blk := imageReqs .b (getS s.g f.a.reg.toNat) 256 true
    (checkForm (fun _ => 64) blk).bind fun _ => (checkReach s 0 blk).bind fun ba =>
      laneThen ba (fun b s =>
        (bobCheck s b (compReqs c)).bind fun r =>
          if s.g.bobs.length < 8 && tagRoom c.tag s.t then
            (reserve s 3 r.2.1 (compRecs s c)).bind fun _ => .ok (bobIssue c r.1 r.2.2 s)
          else .hold) s

/-- BOB. -/
def execBob (f : OpF) (s : State) : Out := runS .bob f (bobBody f) s

/-! ### The bobbin path (R240, R243) -/

/-- The bytes that a command's moves read: of a group on the bobbin path, or of a packet with what it knows. -/
abbrev ReadFn := List Loc → State → List Byte × State

/-- The bits a move reads, or has read. -/
def moveVal (rd : ReadFn) (m : BitMove) (s : State) : Nat × State :=
  match m.val with
  | some x => (x, s)
  | none =>
    let (bs, s) := rd (locsFrom m.src (max 1 (m.w / 8))) s
    (if m.w < 8 then leNat bs / 2 ^ m.sbit % 2 ^ m.w else leNat bs, s)

/-- The values of moves, all read before any is written. -/
def moveVals (rd : ReadFn) : List BitMove → State → List (BitMove × Nat) × State
  | [], s => ([], s)
  | m :: ms, s =>
    let (x, s) := moveVal rd m s
    let (xs, s) := moveVals rd ms s
    ((m, x) :: xs, s)

/-- The bytes a move writes over the present ones. -/
def moveBytes (k : Gid) (m : BitMove) (x : Nat) (s : State) : List Byte :=
  if m.w < 8 then
    let old := (viewByte s k m.dst).toNat
    [BitVec.ofNat 8 (old - old / 2 ^ m.dbit % 2 ^ m.w * 2 ^ m.dbit + x * 2 ^ m.dbit)]
  else leBytes (m.w / 8) x

/-- Bytes written, but for those that keep their old value (R242); `know` is what a packet's command knows. -/
def moveWrite (know : List Crossing) (op : OpId) (keep : List Loc) (va : W64) : Loc → List Byte → State → State
  | _, [], s => s
  | a, b :: bs, s =>
    moveWrite know op keep (va + 1) { a with addr := a.addr + 1 } bs
      (if keep.contains a then s else writeKnown know op .bobbin a va [b] s)

/-- Elements written; of several with one destination, any one may stay (R242). -/
def movesWrite (know : List Crossing) (op : OpId) (keep : List Loc) : List (Loc × Nat) → List (BitMove × Nat) → State → State
  | _, [], s => s
  | seen, x :: xs, s =>
    let key := (x.1.dst, x.1.dbit)
    let go := fun s => moveWrite know op keep x.1.dva x.1.dst (moveBytes op.k x.1 x.2 s) s
    if seen.contains key then
      let (n, s) := useTick s
      movesWrite know op keep seen xs (if Config.freeBit n then go s else s)
    else movesWrite know op keep (key :: seen) xs (go s)

/-- Moves of a command made for an op. -/
def movesDo (know : List Crossing) (op : OpId) (rd : ReadFn) (keep : List Loc) (ms : List BitMove) (s : State) : State :=
  let (xs, s) := moveVals rd ms (eccRead (moveSrcs ms) s)
  movesWrite know op keep [] xs s

/-- How a group's command reads. -/
def bobRead (op : OpId) : ReadFn := readBytes op.k .bobbin op.seq

/-- The oldest command of a group finishes (R243). -/
def bobFinish (k : Gid) (s : State) : State :=
  match (group? s k).bind fun g => g.bobs.head? with
  | none => s
  | some c => afterAcquires k c.seq (fun s =>
    let op : OpId := ⟨k, c.seq⟩
    let pop := updGroup k (fun g => { g with bobs := g.bobs.tail })
    if poisoned s (moveSrcs c.moves) then memError k (pop s)
    else wake k.t (pop (commandEnd op .bobbin c.tag c.sig (movesDo [] op (bobRead op) c.keep c.moves s)))) s

/-- Removal of the i-th element. -/
def dropAt {α : Type} (xs : List α) (i : Nat) : List α := xs.take i ++ xs.drop (i + 1)

/-- n bytes of a move from its byte o on. -/
def movePart (m : BitMove) (o n : Nat) : BitMove :=
  { m with src := { m.src with addr := m.src.addr + o }, dst := { m.dst with addr := m.dst.addr + o }, dva := m.dva + BitVec.ofNat 64 o,
           w := 8 * n, val := m.val.map fun x => x / 2 ^ (8 * o) % 2 ^ (8 * n) }

/-- Whether two moves write a common byte. -/
def movesMeet (p q : BitMove) : Bool :=
  p.dst.home = q.dst.home && p.dst.addr < q.dst.addr + max 1 (q.w / 8) && q.dst.addr < p.dst.addr + max 1 (p.w / 8)

/-- A list of moves cut at n bytes of its j-th from byte o on: what stands before them, they, and what stands behind (R119). A move of
a byte or less is not cut, nor one that shares its destination with another, since the element holds the value of one of them (R242). -/
def cutMoves (ms : List BitMove) (j o n : Nat) : Option (List BitMove × BitMove × List BitMove) :=
  match ms[j]? with
  | none => none
  | some m =>
    let b := m.w / 8
    let k := min n (b - o)
    if b ≤ 1 || (dropAt ms j).any (movesMeet m) then some (ms.take j, m, ms.drop (j + 1))
    else if k = 0 then none
    else some (ms.take j ++ (if o = 0 then [] else [movePart m 0 o]), movePart m o k,
               (if o + k = b then [] else [movePart m (o + k) (b - o - k)]) ++ ms.drop (j + 1))

/-- Some bytes of a move made, or only read; the moves that are left. -/
def moveSome (know : List Crossing) (op : OpId) (rd : ReadFn) (keep : List Loc) (only : Bool)
    (x : List BitMove × BitMove × List BitMove) (s : State) : List BitMove × State :=
  if only then
    let (v, s) := moveVal rd x.2.1 (eccRead (moveSrcs [x.2.1]) s)
    (x.1 ++ { x.2.1 with val := some v } :: x.2.2, s)
  else (x.1 ++ x.2.2, movesDo know op rd keep [x.2.1] s)

/-- n bytes, from its byte o on, of the j-th move of a group's oldest command made or read by themselves: a command's accesses have no
order (R119, R243). A command whose sources and destinations share bytes makes all its moves at once. -/
def bobPart (k : Gid) (j o n : Nat) (only : Bool) (s : State) : State :=
  match (group? s k).bind fun g => g.bobs.head? with
  | none => s
  | some c =>
    match cutMoves c.moves j o n with
    | none => s
    | some x =>
      if c.alias_ then s
      else afterAcquires k c.seq (fun s =>
        let op : OpId := ⟨k, c.seq⟩
        if poisoned s (moveSrcs [x.2.1]) then memError k (updGroup k (fun g => { g with bobs := g.bobs.tail }) s)
        else
          let (ms, s) := moveSome [] op (bobRead op) c.keep only x s
          updGroup k (fun g => { g with bobs := { c with moves := ms } :: g.bobs.tail }) s) s

/-- Commands of a path that the group's count tells to have finished (R244, R253). -/
def engineSeen (s : State) (path : Path) (left : List Nat) : List OpId :=
  (ownOps s path).filter fun op => !left.contains op.seq

/-- BOBQ ends. -/
def bobqTry (d : Nat) (lim : W64) (s : State) : Option State :=
  let n := s.g.bobs.length
  if n ≤ lim.toNat then
    some { s with g := setS (observe s (engineSeen s .bobbin (s.g.bobs.map BobCmd.seq)) s.g) d (BitVec.ofNat 64 n) }
  else none

/-- BOBQ (R244). -/
def execBobq (f : OpF) (s : State) : Out :=
  runS .bobq f (fun s => tryOr (.bobq f.dst.toNat (intS s.g f f.a)) (bobqTry f.dst.toNat (intS s.g f f.a)) s) s

/-- BOBQ_RESUME (R244). -/
def execBobqResume (k : Gid) (s : State) : Out :=
  resume k (fun s => match s.g.wait with
    | .bobq d lim => ending (bobqTry d lim) s
    | _ => s) s

/-! ### The refinement controller (R245 to R249) -/

/-- An absent region. -/
def rfAbsent : W32 := 0xFFFFFFFF

/-- CTL of the descriptor. -/
def rfCtl (rf : Refine) : W32 := rfField rf 28
/-- A float field as an exact value. -/
def rfVal (rf : Refine) (at_ : Nat) : XV := fDecode fmtF32 (rfField rf at_).toNat

/-- A region offset breaks a rule; `must` says that the region must be present. -/
def rfOffBad (rf : Refine) (at_ : Nat) (must : Bool) : Bool :=
  let x := rfField rf at_
  if x = rfAbsent then must else x.toNat % 16 ≠ 0

/-- The lowest invalid field of a refinement descriptor (R245, R246). -/
def rfBad (rf : Refine) : Option Nat :=
  let c := rfCtl rf
  let tier := (c.extractLsb' 0 2).toNat
  let tol := rfVal rf 32
  let rho := rfVal rf 36
  let gam := rfVal rf 40
  let one : XV := .fin false 1 0
  let zero : XV := .fin false 0 0
  let lim := (rfField rf 44).toNat
  firstBad (((List.range 3).map fun t => (4 * t, rfOffBad rf (4 * t) (t = tier))) ++
    ([12, 16, 20, 24].map fun a => (a, rfOffBad rf a true)) ++
    [(28, c.extractLsb' 20 12 ≠ 0 || c.extractLsb' 2 6 ≠ 0 || tier = 3 || c.extractLsb' 14 2 = 2),
     (32, !(xLe zero tol && xIsFin tol)), (36, !(xLt zero rho && xLe rho one)), (40, !(xLe one gam)),
     (44, !(decide (1 ≤ lim) && decide (lim ≤ 65535))), (48, rf.desc.extractLsb' 384 128 ≠ 0)])

/-- RFBEGIN past its legality (R246). -/
def rfbeginBody (f : OpF) (s : State) : Res State :=
  (Res.require (s.g.rf.st = .idle && !s.g.hmode)).bind fun _ =>
    let rq := [{ lane := 0, role := 0, sub := 0, sp := Space.b, addr := getS s.g f.a.reg.toNat, w := 64, rd := true, wr := false,
                 data := 0, exp := 0 : Req }]
    (checkReqs s 0 rq).bind fun accs =>
      laneThen accs (fun bs s =>
        let rf : Refine := { Refine.idle with st := .start, desc := BitVec.ofNat 512 (leNat bs) }
        match rfBad rf with
        | some x => .trap (trapCommand x 0)
        | none => .ok { s with g := { s.g with rf := { rf with tier := ((rfCtl rf).extractLsb' 0 2).toNat } } }) s

/-- RFBEGIN. -/
def execRfbegin (f : OpF) (s : State) : Out := runS .rfbegin f (rfbeginBody f) s

/-- |x| of an f32 pattern. -/
def absF32 (x : W32) : W32 := x &&& 0x7FFFFFFF

/-- The norm n of round k is past its limits (R248): codes 1 converged, 2 stagnated, 3 diverged, 4 exhausted, 0 none. The comparison of
the stagnation test with a norm of the history that is a NaN is false (DESIGN CHOICE, unsafe: notes/assumptions/89.md). -/
def rfExit (rf : Refine) (n : W32) (k : Nat) : Nat :=
  let v := fDecode fmtF32 n.toNat
  let win := ((rfCtl rf).extractLsb' 16 4).toNat
  let gam := rfVal rf 40
  let times := fun (a b : XV) => (xMul a b).1
  if v = .nan || v = .inf false then 3
  else if xLe v (rfVal rf 32) then 1
  else if decide (2 ≤ k) && gam ≠ .inf false && xLt (times gam (fDecode fmtF32 rf.nmin.toNat)) v then 3
  else if win ≠ 0 && decide (win < k) &&
      xLt (times (rfVal rf 36) (fDecode fmtF32 (rf.hist[(k - win) % 16]!).toNat)) v then 2
  else if k = (rfField rf 44).toNat then 4
  else 0

/-- The descriptor's action for an exit: 0 END, 1 ESCALATE, 2 CONTINUE, 3 TRAP. -/
def rfAct (rf : Refine) (exit : Nat) : Nat :=
  let c := rfCtl rf
  match exit with
  | 1 => (c.extractLsb' 8 2).toNat
  | 2 => (c.extractLsb' 10 2).toNat
  | 3 => (c.extractLsb' 12 2).toNat
  | 4 => (c.extractLsb' 14 2).toNat
  | _ => 2

/-- Exit and action of a test (R248). -/
def rfDecide (rf : Refine) (n : W32) : Nat × Nat :=
  let k := rf.k + 1
  let e := rfExit rf n k
  let a := rfAct rf e
  if a = 2 && k = (rfField rf 44).toNat then (4, rfAct rf 4) else (e, a)

/-- The exit word (R248). -/
def rfWord (rf : Refine) (x : W32) (exit : Nat) : W64 :=
  BitVec.ofNat 64 (x.toNat * 2 ^ 32 + (rf.k + 1) * 2 ^ 16 + rf.tier * 2 ^ 8 + exit)

/-- The cause of REFINE, where the action traps. -/
def rfCause (rf : Refine) (act : Nat) : Option Nat :=
  if act = 3 then some 1
  else if act = 1 && rf.tier = 2 then some 2
  else if act = 1 && rfField rf (4 * (rf.tier + 1)) = rfAbsent then some 3
  else none

/-- The controller after a test that does not trap. -/
def rfAfter (rf : Refine) (n : W32) (act : Nat) : Refine :=
  let fin := xIsFin (fDecode fmtF32 n.toNat)
  let low := xLt (fDecode fmtF32 n.toNat) (fDecode fmtF32 rf.nmin.toNat)
  let rf := { rf with k := rf.k + 1, hist := rf.hist.set! ((rf.k + 1) % 16) n, nmin := if fin && low then n else rf.nmin }
  match act with
  | 0 => { rf with dec := .stop }
  | 1 => { rf with tier := rf.tier + 1, k := 0, hist := Refine.idle.hist, nmin := Refine.idle.nmin, dec := .escalate }
  | _ => { rf with dec := .continue }

/-- RFTEST (R248). A signalling NaN norm raises NV as R69 has it, though R248 names no flag; where the test traps, none (DEDUCED, unsafe:
notes/assumptions/77.md). -/
def execRftest (f : OpF) (s : State) : Out :=
  runG .rftest f (fun g =>
    (Res.require (g.rf.st = .test && g.rf.dec = .none && !g.hmode)).bind fun _ =>
      let x : W32 := (intS g f f.a).setWidth 32
      let n := absF32 x
      let (exit, act) := rfDecide g.rf n
      match rfCause g.rf act with
      | some c => .trap ⟨6, 0, c, 0, 0, rfWord g.rf x exit⟩
      | none => .ok (raise (flagIf (fIsSNaN fmtF32 x.toNat) flagNV) (setS { g with rf := rfAfter g.rf n act } f.dst.toNat (rfWord g.rf x exit)))) s

/-- RFEND (R249): without effect in IDLE. -/
def execRfend (f : OpF) (s : State) : Out := runP .rfend f (fun g => if g.rf.st = .idle then g else { g with rf := Refine.idle }) s

/-! ### Symmetric stores (R250 to R253) -/

/-- W of the image word. -/
def imgW (f : OpF) : Nat := (f.imm.extractLsb' 29 3).toNat
/-- Bytes of an element. -/
def imgBytes (f : OpF) : Nat := 2 ^ imgW f
/-- Descriptor scalar j. -/
def imgS (g : Group) (f : OpF) (j : Nat) : W64 := getS g ((f.imm.extractLsb' 0 6).toNat + j)
/-- NX, NY, NZ. -/
def imgExt (g : Group) (f : OpF) : List Nat :=
  (List.range 3).map fun d => ((imgS g f 3).extractLsb' (16 * d) 16).toNat
/-- Z. -/
def imgZ (g : Group) (f : OpF) : Nat := ((imgS g f 2).extractLsb' 32 16).toNat

/-- The image word (R250). -/
def imgOk (f : OpF) : Bool :=
  decide (1 ≤ imgW f) && decide (imgW f ≤ 3) && f.imm.extractLsb' 6 13 = 0 && decide ((f.imm.extractLsb' 0 6).toNat ≤ 60)

/-- Team grid size of a dimension. -/
def gridSize (l : Launch) (d : Nat) : Nat := if d = 0 then l.gx else if d = 1 then l.gy else l.gz

/-- s_e of a cyclic shift (R251). -/
def cycShift (l : Launch) (ext : List Nat) (d s : Nat) : Nat := s * ext.getD d 0 / gridSize l d

/-- The requirement of a generator on the extents (R251). -/
def genReq (l : Launch) (ext : List Nat) : Gen → Bool
  | .trans a b _ => ext.getD a 0 = ext.getD b 0
  | .refl _ _ => true
  | .cyc d _ _ => ext.getD d 0 % gridSize l d = 0

/-- The order of a generator (R251). -/
def genOrder (l : Launch) (ext : List Nat) : Gen → Nat
  | .trans .. => 2
  | .refl .. => 2
  | .cyc d s _ => ext.getD d 0 / Nat.gcd (ext.getD d 0) (cycShift l ext d s)

/-- The image of a coordinate under a generator (R251). -/
def genMap (l : Launch) (ext : List Nat) (c : List Nat) : Gen → List Nat
  | .trans a b _ => (c.set a (c.getD b 0)).set b (c.getD a 0)
  | .refl d _ => c.set d (ext.getD d 0 - 1 - c.getD d 0)
  | .cyc d s _ => c.set d ((c.getD d 0 + cycShift l ext d s) % ext.getD d 0)

/-- The domain condition of a generator (R251). -/
def genDomain (l : Launch) (ext : List Nat) (c : List Nat) : Gen → Bool
  | .trans a b _ => c.getD b 0 ≤ c.getD a 0
  | .refl d _ => 2 * c.getD d 0 ≤ ext.getD d 0 - 1
  | .cyc d s _ => c.getD d 0 < Nat.gcd (ext.getD d 0) (cycShift l ext d s)

/-- Whether a generator is declared `anti`. -/
def genAnti : Gen → Bool
  | .trans _ _ x => x
  | .refl _ x => x
  | .cyc _ _ x => x

/-- A generator applied n times. -/
def genPow (l : Launch) (ext : List Nat) (x : Gen) : Nat → List Nat → List Nat
  | 0, c => c
  | n + 1, c => genMap l ext (genPow l ext x n c) x

/-- Orders o1 and o2. -/
def orders (l : Launch) (ext : List Nat) : Nat × Nat :=
  match l.kern.gens with
  | [] => (1, 1)
  | [x] => (genOrder l ext x, 1)
  | x :: y :: _ => (genOrder l ext x, genOrder l ext y)

/-- image_e of a coordinate (R251). -/
def imageOf (l : Launch) (ext : List Nat) (e : Nat) (c : List Nat) : List Nat :=
  let o1 := (orders l ext).1
  match l.kern.gens with
  | [] => c
  | [x] => genPow l ext x e c
  | x :: y :: _ => genPow l ext x (e % o1) (genPow l ext y (e / o1) c)

/-- Whether group element e has a negative sign (R251). -/
def imageNeg (l : Launch) (ext : List Nat) (e : Nat) : Bool :=
  let o1 := (orders l ext).1
  match l.kern.gens with
  | [] => false
  | [x] => genAnti x && e % 2 = 1
  | x :: y :: _ => (genAnti x && e % o1 % 2 = 1) != (genAnti y && e / o1 % 2 = 1)

/-- The coordinate of a lane. -/
def imgCoord (g : Group) (f : OpF) (i : Nat) : List Nat :=
  let w := getLane g f.b.reg.toNat i
  [(w.extractLsb' 0 16).toNat, (w.extractLsb' 16 16).toNat, imgZ g f]

/-- The lowest active lane outside NX or NY. -/
def imgLaneBad (g : Group) (f : OpF) : Option Nat :=
  let ext := imgExt g f
  (lanesOf (activeMask g f.guard)).find? fun i =>
    let c := imgCoord g f i
    decide (ext.getD 0 0 ≤ c.getD 0 0) || decide (ext.getD 1 0 ≤ c.getD 1 0)

/-- COMMAND_INVALID of IMGST: field and lane (R237, R252). Where scalar 3 breaks both another rule and the rule of the lanes, LANE is 0
(DESIGN CHOICE, unsafe: notes/assumptions/90.md). -/
def imgBad (g : Group) (l : Launch) (f : OpF) : Option (Nat × Nat) :=
  let ext := imgExt g f
  let o := orders l ext
  let three := (imgS g f 3).extractLsb' 48 16 ≠ 0 || ext.any (fun n => n = 0) || !(l.kern.gens.all (genReq l ext)) ||
    decide (64 < o.1 * o.2)
  if (imgS g f 2).extractLsb' 48 16 ≠ 0 || decide (ext.getD 2 0 ≤ imgZ g f) then some (2, 0)
  else if three then some (3, 0)
  else (imgLaneBad g f).map fun i => (3, i)

/-- The target address of a coordinate (R250). -/
def imgTarget (g : Group) (f : OpF) (c : List Nat) : W64 :=
  let st := fun (x : BitVec 32) (n : Nat) => BitVec.ofInt 64 (x.toInt * n)
  imgS g f 0 + st ((imgS g f 1).extractLsb' 0 32) (c.getD 0 0) + st ((imgS g f 1).extractLsb' 32 32) (c.getD 1 0) +
    st ((imgS g f 2).extractLsb' 0 32) (c.getD 2 0)

/-- An element negated by NEGI (R250). -/
def imgNeg (f : OpF) (x : Nat) : Nat :=
  let m := 2 ^ (8 * imgBytes f)
  if f.imm.getLsbD 19 then (m - x) % m else (x + m / 2) % m

/-- The data of a lane. -/
def imgData (g : Group) (f : OpF) (i : Nat) : Nat :=
  regCat g f.a.reg.toNat (if imgW f = 3 then 2 else 1) i % 2 ^ (8 * imgBytes f)

/-- The writes of IMGST in the order of its loop (R252); `sub` is the group element. -/
def imgReqs (g : Group) (l : Launch) (f : OpF) : List Req :=
  let ext := imgExt g f
  let o := orders l ext
  (List.range (o.1 * o.2)).flatMap fun e => (lanesOf (activeMask g f.guard)).filterMap fun i =>
    let c := imgCoord g f i
    let t := imageOf l ext e c
    if (l.kern.gens.all (genDomain l ext c)) &&
        (e = 0 || (t ≠ c && ((List.range e).all fun h => h = 0 || t ≠ imageOf l ext h c))) then
      let x := imgData g f i
      some { lane := i, role := 1, sub := e, sp := spaceOf (f.imm.extractLsb' 27 2).toNat, addr := imgTarget g f t, w := imgBytes f,
             rd := false, wr := true, data := BitVec.ofNat 128 (if imageNeg l ext e then imgNeg f x else x), exp := 0 }
    else none

/-- The IMGSTs of other groups of the team that happen before one of a group with a program-order number (R121). -/
def imgAfter (g : Group) (seq : Nat) : List OpId :=
  ((g.crossed.filter fun c => c.path = .image && c.onto = some .image && c.at_.isNone && c.op.k ≠ g.id && c.op.k.t = g.id.t &&
    decide (c.from_ ≤ seq)).map Crossing.op).eraseDups

/-- A store queued on the image unit; what follows it in program order carries it (R121). -/
def imgIssue (c : Comp) (writes sig : List Acc) (s : State) : State :=
  let r := compSig c sig
  let s := compStart c r s
  let n := s.g.seqn
  { s with g := { s.g with
      imgs := s.g.imgs ++ [⟨n, writes, c.tag, r⟩]
      crossed := ⟨⟨s.g.id, n⟩, .image, some .image, none, n + 1, none⟩ :: s.g.crossed
      seqn := n + 1 } }

/-- IMGST past its legality (R252). -/
def imgstBody (f : OpF) (s : State) : Res State :=
  (Res.require (imgOk f)).bind fun _ =>
    (compRead s false (f.imm.getLsbD 20) (f.imm.extractLsb' 21 6).toNat).bind fun c =>
      match imgBad s.g s.l f with
      | some x => .trap (trapCommand x.1 x.2)
      | none =>
        let rs := imgReqs s.g s.l f
        (checkReqs s 4 (rs ++ compReqs c)).bind fun accs =>
          if s.g.imgs.length < 8 && tagRoom c.tag s.t then
            (reserve s 4 (accs.take rs.length) (compRecs s c)).bind fun _ =>
              .ok (imgIssue c (accs.take rs.length) (accs.drop rs.length) s)
          else .hold

/-- IMGST. -/
def execImgst (f : OpF) (s : State) : Out := runS .imgst f (imgstBody f) s

/-- One write of an image store. -/
def imgWrite (op : OpId) (a : Acc) (s : State) : State :=
  writeAt op .image a.loc a.va (leBytes a.w a.data.toNat) s

/-- An image store under way. -/
def imgOf (s : State) (op : OpId) : Option ImgOp := (group? s op.k).bind fun g => g.imgs.find? fun o => o.seq = op.seq

/-- The oldest image store of a group, all its writes made, updates its tag and its signal (R107) and is finished. -/
def imgPop (k : Gid) (s : State) : State :=
  match (group? s k).bind fun g => g.imgs.head? with
  | none => s
  | some o => wake k.t (updGroup k (fun g => { g with imgs := g.imgs.tail }) (commandEnd ⟨k, o.seq⟩ .image o.tag o.sig s))

/-- The bytes of a signal that an image store will update itself: a global one of a replay task is left to the seam (R107). -/
def imgSig (replay : Bool) (o : ImgOp) : List Loc :=
  o.sig.elim [] fun r => if replay && r.loc.home = .phys then [] else locsFrom r.loc 8

/-- The group's earlier image stores finished, up to the last whose signal shares a byte with some writes of a later one (R113). -/
def imgBefore (op : OpId) (ws : List Acc) (s : State) : State :=
  let os := ((group? s op.k).elim [] Group.imgs).filter fun o => o.seq < op.seq
  let n := os.zipIdx.foldl (fun m x => if (imgSig (replays s op.k.t.l) x.1).any (accLocs ws).contains then x.2 + 1 else m) 0
  (List.range n).foldl (fun s _ => imgPop op.k s) s

/-- The first n writes that an image store still has to make, made in the order of its loop. -/
def imgWrites (op : OpId) (n : Nat) (s : State) : State :=
  match imgOf s op with
  | none => s
  | some o =>
    let s := imgBefore op (o.writes.take n) s
    let s := (o.writes.take n).foldl (fun s a => imgWrite op a s) s
    updGroup op.k (fun g => { g with imgs := g.imgs.map fun x => if x.seq = op.seq then { x with writes := o.writes.drop n } else x }) s

/-- The primaries an image store still has to make. -/
def imgPrimaries (o : ImgOp) : Nat := (o.writes.takeWhile fun a => a.sub = 0).length

/-- An image store brought to its first n remaining writes, or to all (R121, R252, R253): after the whole of the group's earlier ones
and the acquires before it and, before any image, after the primaries of the team's stores that happen before it; as far as all these
can go. `fuel` bounds the depth. -/
def imgReach : Nat → OpId → Option Nat → State → State
  | 0, _, _, s => s
  | fuel + 1, op, n, s =>
    if (imgOf s op).isNone then s
    else
      let earlier := ((group? s op.k).elim [] Group.imgs).filter fun p => p.seq < op.seq
      afterAcquires op.k op.seq (fun s =>
        match imgOf s op with
        | none => s
        | some o =>
          let prim := imgPrimaries o
          let s := imgWrites op (min prim (n.getD prim)) s
          if n.any fun m => m ≤ prim then s
          else
            let ps := (group? s op.k).elim [] fun g => imgAfter g op.seq
            let s := ps.foldl (fun s p => imgReach fuel p ((imgOf s p).map imgPrimaries) s) s
            if ps.any fun p => (imgOf s p).any fun o => imgPrimaries o ≠ 0 then s
            else imgWrites op ((n.getD o.writes.length) - prim) s)
        (earlier.foldl (fun s p => imgReach fuel ⟨op.k, p.seq⟩ none s) s)

/-- How deep one store can wait for others: at most the unfinished stores of a team, eight a group (R252). -/
def imgDepth : Nat := 257

/-- The oldest image store of a group finishes, where all its writes can be made. -/
def imgFinish (k : Gid) (s : State) : State :=
  match (group? s k).bind fun g => g.imgs.head? with
  | none => s
  | some o =>
    let s := imgReach imgDepth ⟨k, o.seq⟩ none s
    if (imgOf s ⟨k, o.seq⟩).any fun o => o.writes.isEmpty then imgPop k s else s

/-- n bytes of a write from its byte o on. -/
def accPart (a : Acc) (o n : Nat) : Acc :=
  { a with loc := { a.loc with addr := a.loc.addr + o }, va := a.va + BitVec.ofNat 64 o, w := n, data := a.data >>> (8 * o) }

/-- Writes with one byte of the first brought to their front (R119). -/
def byteFirst (i : Nat) : List Acc → List Acc
  | [] => []
  | a :: as =>
    if i < a.w then (accPart a i 1 :: [accPart a 0 i, accPart a (i + 1) (a.w - i - 1)].filter fun x => x.w ≠ 0) ++ as else a :: as

/-- The next write of a group's oldest unfinished image store, or one byte of it, made by itself. -/
def imgPart (k : Gid) (byte : Option Nat) (s : State) : State :=
  match (group? s k).bind fun g => g.imgs.find? fun o => !o.writes.isEmpty with
  | none => s
  | some o =>
    let cut := fun (x : ImgOp) => if x.seq = o.seq then { x with writes := byte.elim x.writes fun i => byteFirst i x.writes } else x
    imgReach imgDepth ⟨k, o.seq⟩ (some 1) (updGroup k (fun g => { g with imgs := g.imgs.map cut }) s)

/-- IMGST_COMPLETE (R252). -/
def execImgstComplete (k : Gid) (s : State) : Out := .next (imgFinish k s)

/-- SYMQ ends. -/
def symqTry (d : Nat) (lim : W64) (s : State) : Option State :=
  let n := s.g.imgs.length
  if n ≤ lim.toNat then
    some { s with g := setS (observe s (engineSeen s .image (s.g.imgs.map ImgOp.seq)) s.g) d (BitVec.ofNat 64 n) }
  else none

/-- SYMQ (R253). -/
def execSymq (f : OpF) (s : State) : Out :=
  runS .symq f (fun s => tryOr (.symq f.dst.toNat (intS s.g f f.a)) (symqTry f.dst.toNat (intS s.g f f.a)) s) s

/-- SYMQ_RESUME (R253). -/
def execSymqResume (k : Gid) (s : State) : Out :=
  resume k (fun s => match s.g.wait with
    | .symq d lim => ending (symqTry d lim) s
    | _ => s) s

end Sys2Proof.Machine
end

