-- ==== Sys2Proof/Machine/Regs.lean ====
section
/-!
DEFINITION. The system registers of a partition: which exist, which levels reach them, what a firmware write may store (R307), the
fault buffer behind FBSEL (R296, R297), and translation invalidation (R295).
-/
namespace Sys2Proof.Machine

/-- The register numbers of R307. -/
def regListed (n : Nat) : Bool :=
  [0x000, 0x001, 0x002, 0x010, 0x011, 0x020, 0x021, 0x022, 0x023, 0x024, 0x030, 0x031, 0x032, 0x033, 0x034, 0x040, 0x041, 0x042,
   0x043, 0x044, 0x045, 0x050].contains n

/-- Whether a handler level reads a register: HSTATE at both levels, RTIME and VECBASE from the vector (R307). -/
def levelReads (vec : Bool) (n : Nat) : Bool := n = 0x001 || (vec && (n = 0x000 || n = 0x010))

/-- Whether a handler level writes a register: LAUNCHEND from the vector (R307). -/
def levelWrites (vec : Bool) (n : Nat) : Bool := vec && n = 0x002

/-- RTIME (R307). -/
def rtime (now : Nat) (p : Part) : W64 := BitVec.ofNat 64 (p.rtime0.elim 0 fun t => now - t)

/-- HSTATE (R307). -/
def hstate (g : Group) : W64 := BitVec.ofNat 64 (g.hmode.toNat + 2 * g.vec.toNat + 256 * (g.cls % 256))

/-- What a handler reads from a register it may read. -/
def handlerRead (s : State) (n : Nat) : W64 :=
  match n with
  | 0x000 => rtime s.now s.p
  | 0x001 => hstate s.g
  | _ => s.p.regs.vecbase

/-! ### The fault buffer -/

/-- The cores of a partition, in ascending number: 96 for each of its half-dies (R325). -/
def partCores (p : Part) : List Nat :=
  ((List.range 16).filter p.halves.contains).flatMap fun h => (List.range 96).map fun i => 96 * h + i

/-- The core FBSEL names. -/
def fbCore (p : Part) : Option Nat := (partCores p)[(p.regs.fbsel.extractLsb' 0 11).toNat]?

/-- The record of an entry of the core that FBSEL names. -/
def fbEntry (p : Part) (e : Nat) : Option FbEntry :=
  (fbCore p).bind fun c => p.fb.find? fun x => x.core = c && x.entry = e

/-- FBDATA1 of a record (R297). -/
def fbData1 (r : Park) : W64 :=
  BitVec.ofNat 64 (2 ^ 63 + (r.range.getD 0) * 2 ^ 16 + r.path * 2 ^ 8 + r.kind * 2 ^ 6 +
    (if r.range.isSome then 0 else r.level) * 2 ^ 4 + (if r.range.isSome then 4 else 0) + r.reason)

/-- The number of a launch handle (R290). -/
def handleOf (l : Lid) : W64 := BitVec.ofNat 64 l.handle

/-- FBDATA0 to FBDATA3 (R297); zero where the entry holds no record. -/
def fbData (p : Part) (j : Nat) : W64 :=
  match fbEntry p (p.regs.fbsel.extractLsb' 12 4).toNat with
  | none => 0
  | some x =>
    match j with
    | 0 => x.rec_.va
    | 1 => fbData1 x.rec_
    | 2 => handleOf x.k.t.l
    | _ => BitVec.ofNat 64 (x.slot % 64)

/-- What firmware reads from a register (R307). -/
def fwRead (s : State) (p : Part) (n : Nat) : W64 :=
  let r := p.regs
  match n with
  | 0x000 => rtime s.now p
  | 0x010 => r.vecbase
  | 0x011 => r.pdeadline
  | 0x020 => r.rtab
  | 0x021 => r.ptroot
  | 0x023 => r.spillbase
  | 0x024 => r.spillsize
  | 0x030 => r.qtab
  | 0x031 => r.evring
  | 0x032 => r.evwr
  | 0x033 => r.evrd
  | 0x034 => r.lotseed
  | 0x040 => r.fbsel
  | 0x041 => fbData p 0
  | 0x042 => fbData p 1
  | 0x043 => fbData p 2
  | 0x044 => fbData p 3
  | 0x050 => r.ecccnt
  | _ => 0

/-- The registers firmware reads (R307), in ascending number. -/
def fwReadable : List Nat :=
  [0x000, 0x010, 0x011, 0x020, 0x021, 0x023, 0x024, 0x030, 0x031, 0x032, 0x033, 0x034, 0x040, 0x041, 0x042, 0x043, 0x044, 0x050]

/-- The registers firmware writes (R307). -/
def fwWritable (n : Nat) : Bool :=
  [0x010, 0x011, 0x020, 0x021, 0x022, 0x023, 0x024, 0x030, 0x031, 0x033, 0x034, 0x040, 0x045, 0x050].contains n

/-! ### Firmware writes -/

/-- A base of an event ring and the log2 of its slots (R274). -/
def evringOk (v : W64) : Bool := decide (2 ≤ v.toNat % 64) && decide (v.toNat % 64 ≤ 20)

/-- Whether a value keeps the bits of a register that must be zero, and its range (R307). -/
def fwValueOk (n : Nat) (v : W64) : Bool :=
  match n with
  | 0x010 => v.toNat % 16 = 0
  | 0x011 => decide (1 ≤ v.toNat) && decide (v.toNat < 2 ^ 32)
  | 0x020 => v.toNat % 64 = 0
  | 0x021 => v &&& 0xFFFFF000000FFFFE = 0
  | 0x023 => v.toNat % 65536 = 0
  | 0x024 => v.toNat % 65536 = 0
  | 0x030 => v.toNat % 64 = 0
  | 0x031 => evringOk v
  | 0x040 => v &&& 0xFFFFFFFFFFFF0800 = 0
  | _ => true

/-- A plain register stored. -/
def fwStore (n : Nat) (v : W64) (r : SysRegs) : SysRegs :=
  match n with
  | 0x010 => { r with vecbase := v }
  | 0x011 => { r with pdeadline := v }
  | 0x020 => { r with rtab := v }
  | 0x021 => { r with ptroot := v }
  | 0x023 => { r with spillbase := v }
  | 0x024 => { r with spillsize := v }
  | 0x030 => { r with qtab := v }
  | 0x031 => { r with evring := v }
  | 0x033 => { r with evrd := v }
  | 0x034 => { r with lotseed := v }
  | 0x040 => { r with fbsel := v }
  | 0x050 => { r with ecccnt := r.ecccnt &&& ~~~v }
  | _ => r

/-- TINV: every cached translation, or those of one virtual page (R295). -/
def tinvDo (v : W64) (p : Part) : Part :=
  if v.getLsbD 63 then { p with tlb := [] }
  else { p with tlb := p.tlb.filter fun x => x.vpn % 2 ^ 44 ≠ (v.extractLsb' 12 44).toNat }

/-- A firmware write of any register but FBRES; a value that breaks a rule of the register leaves it unchanged. -/
def fwWrite (n : Nat) (v : W64) (p : Part) : Part :=
  if n = 0x022 then tinvDo v p
  else if fwValueOk n v then { p with regs := fwStore n v p.regs } else p

/-- Owner software writes its partition's registers in CONFIG_LOCKED and in RUN, through a session of its own (R330). -/
def ownerWrites (p : Part) : Bool := (p.tdisp = .locked || p.tdisp = .run) && p.sessions.any Session.fin

/-- A write that owner software makes in its partition. -/
def ownerWrite (n : Nat) (act : State → State) (s : State) : State :=
  let s := focusPart n s
  if s.p.live && s.p.num = n && ownerWrites s.p then act s else s

/-- A partition write as an update of the partition. -/
def onPart (f : Part → Part) (s : State) : State := { s with p := f s.p }

/-! ### Fault records -/

/-- The lowest free entry of a core's 16: R296 names none (DESIGN CHOICE, unsafe: notes/assumptions/86.md). -/
def fbFree (p : Part) (core : Nat) : Option Nat :=
  (List.range 16).find? fun e => !(p.fb.any fun x => x.core = core && x.entry = e)

/-- FAULT_RECORD_WRITE (R296): the record of a parked group takes the lowest free entry of its core. -/
def recordWrite (s : State) : State :=
  match s.g.park with
  | none => s
  | some r =>
    if r.entry.isSome || r.failed then s
    else
      match fbFree s.p s.t.core with
      | none => s
      | some e =>
        { s with g := { s.g with park := some { r with entry := some e } },
                 p := { s.p with fb := s.p.fb ++ [⟨s.t.core, e, s.g.id, s.g.slot, { r with entry := some e }⟩] } }

/-- An entry freed. -/
def fbDrop (x : FbEntry) (p : Part) : Part := { p with fb := p.fb.filter fun y => y ≠ x }

/-- The failed access raises TRANSLATION at its op, or at the target of a fetch (R296); a frame waits for its loads. -/
def failNow (s : State) : State :=
  match s.g.park with
  | none => s
  | some r =>
    if !r.failed then s
    else if waitsFrame s.g && !s.g.hmode then s
    else
      let fetch := s.g.pos = .fetch
      takeTrap (if fetch then s.g.slotB else s.g.pos = .b) (if fetch then 0 else s.g.word) ⟨18, 0, r.reason, 0, r.va, 0⟩ s

/-- A resolution written to FBRES for the entry in bits 3:0 of the core that FBSEL names (R297). -/
def fbResolve (action : Nat) (act : FbEntry → State → State) (v : W64) (s : State) : State :=
  if (v.extractLsb' 4 2).toNat = action then
    match fbEntry s.p (v.toNat % 16) with
    | none => s
    | some x => act x { s with p := fbDrop x s.p }
  else s

/-- RETRY: the group replays its op from check 1 of R97. -/
def fbRetry (x : FbEntry) (s : State) : State :=
  updGroup x.k (fun g => { g with park := none, wait := .none, since := s.tick }) s

/-- FAIL: the group's op is to raise TRANSLATION. -/
def fbFail (x : FbEntry) (s : State) : State :=
  let s := focus x.k (updGroup x.k (fun g => { g with park := g.park.map fun r => { r with failed := true, entry := none } }) s)
  if s.g.live && s.g.id = x.k then failNow s else s

end Sys2Proof.Machine
end

