-- ==== Sys2Proof/Machine/Virt.lean ====
section
/-!
DEFINITION. Accesses of the agents that are no group: queue engines, distributors, the seam's report and the host. They use the
tables of the partition in focus (R328). Also the event ring (R274, R281) and completion signals of packets (R271, R360).
-/
namespace Sys2Proof.Machine

/-- A run of n virtual bytes cut at 4 KiB pages. -/
def pageRuns (va : W64) (n : Nat) : List (W64 × Nat) :=
  let off := va.toNat % 4096
  (List.range ((off + n + 4095) / 4096)).map fun i =>
    if i = 0 then (va, min n (4096 - off)) else (va - BitVec.ofNat 64 off + BitVec.ofNat 64 (4096 * i), min 4096 (off + n - 4096 * i))

/-- The physical address of n virtual bytes within one page, where they are well formed and translate. -/
def virtByte (s : State) (w : Want) (va : W64) (n : Nat) : Option Nat :=
  if wellFormed va then
    match xlat s s.p w va n with
    | .ok pa => some pa
    | _ => none
  else none

/-- The lowest page of a run that fails, with its bytes. -/
def virtBad (s : State) (w : Want) (va : W64) (n : Nat) : Option (W64 × Nat) :=
  (pageRuns va n).find? fun r => (virtByte s w r.1 r.2).isNone

/-- A run of virtual bytes with its physical runs: virtual address, physical address, length. -/
def virtRuns (s : State) (w : Want) (va : W64) (n : Nat) : List (W64 × Nat × Nat) :=
  (pageRuns va n).map fun r => (r.1, (virtByte s w r.1 r.2).getD 0, r.2)

/-- n virtual bytes read. -/
def virtRead (s : State) (va : W64) (n : Nat) : Option (List Byte) :=
  let w : Want := ⟨true, false, false⟩
  if (virtBad s w va n).isSome then none else some ((virtRuns s w va n).flatMap fun r => memBytes s.hbm r.2.1 r.2.2)

/-- An n-byte number read. -/
def virtNat (s : State) (va : W64) (n : Nat) : Option Nat := (virtRead s va n).map leNat

/-- Bytes spread over physical runs. -/
def putRuns : List (W64 × Nat × Nat) → List Byte → Mem → Mem
  | [], _, m => m
  | r :: rs, bs, m => putRuns rs (bs.drop r.2.2) (memPutBytes m r.2.1 (bs.take r.2.2))

/-- The bytes of physical runs. -/
def runLocs (rs : List (W64 × Nat × Nat)) : List Loc := rs.flatMap fun r => locsFrom ⟨.phys, r.2.1⟩ r.2.2

/-! ### The parties of a partition that are no group (R111, R112) -/

/-- A party that is no group: 0 the packets, 1 the host, 2 the queue engines, 3 the seams. Its handle has member 7, which no launch has (R290). -/
def agentGid (p n : Nat) : Gid := ⟨⟨⟨p, 896⟩, 0⟩, n⟩

/-- A number for one more access of a party of the partition in focus. -/
def agentOp (n : Nat) (s : State) : OpId × State :=
  (⟨agentGid s.p.num n, s.p.seqn⟩, { s with p := { s.p with seqn := s.p.seqn + 1 } })

/-- Virtual bytes written by a queue engine, a seam's report or a save, on no path class that R111 names: every path sees them at once
(notes/assumptions/4.md). Nothing where any of them does not translate. -/
def virtWrite (va : W64) (bs : List Byte) (s : State) : Option State :=
  let w : Want := ⟨false, true, false⟩
  if (virtBad s w va bs.length).isSome then none
  else
    let rs := virtRuns s w va bs.length
    let s := settled (runLocs rs) s
    some { s with hbm := putRuns rs bs s.hbm }

/-- Runs written by a party on a path with what it knows, the old bytes recorded for the other paths (R120). -/
def runsWrite (know : List Crossing) (op : OpId) (path : Path) : List (W64 × Nat × Nat) → List Byte → State → State
  | [], _, s => s
  | r :: rs, bs, s => runsWrite know op path rs (bs.drop r.2.2) (writeKnown know op path ⟨.phys, r.2.1⟩ r.1 (bs.take r.2.2) s)

/-- Runs written by a read-modify-write of a party, just before the writes that it passes (R113). -/
def runsRmw (op : OpId) (path : Path) (p : List WriteRec) : List (W64 × Nat × Nat) → List Byte → State → State
  | [], _, s => s
  | r :: rs, bs, s => runsRmw op path p rs (bs.drop r.2.2) (putAt op path true p ⟨.phys, r.2.1⟩ r.1 (bs.take r.2.2) s)

/-- Completed writes of ops, as the host and the queue engines know them. -/
def opsKnow (s : State) (ops : List OpId) : List Crossing :=
  (s.recs.filter fun r => ops.contains r.op).map fun r => ⟨r.op, r.path, some .host, none, 0, none⟩

/-- The host's earlier writes that other paths may not see yet: a remote atomic releases them all, since each of them was performed and
acknowledged before it (R122). -/
def hostOps (s : State) : List OpId := ((s.recs.filter fun r => r.op.k = agentGid s.p.num 1).map WriteRec.op).eraseDups

/-- What comes before a packet's start or its work's end comes before what follows on every path (R270). -/
def everyPath (s : State) (cs : List Crossing) : List Crossing :=
  ((cs.filter fun c => s.recs.any fun r => r.op = c.op).map fun c => { c with onto := none, from_ := 0 }).eraseDups

/-- The releases that an acquire at .sys by a party synchronises with at some bytes (R112, R115): a replay task's are hidden (R124);
with the host only those at .sys, with the queue engines those at .dev too. -/
def agentRels (s : State) (host : Bool) (as : List (Loc × List OpId)) : List RelTag :=
  s.rels.filter fun r =>
    (r.scope = .sys || (!host && r.scope = .dev)) && !(r.by_.any fun k => (launch? s k.t.l).elim false fun l => l.replay) &&
      as.any fun x => r.holds x.1 x.2

/-- What such an acquire brings. -/
def agentKnow (s : State) (host : Bool) (as : List (Loc × List OpId)) : List Crossing :=
  (agentRels s host as).flatMap fun r => r.know ++ opsKnow s r.seen

/-- A release at .sys by a party, the host (core 0) or a queue engine (core 1), of bytes that it has just written (R122, R270). -/
def sysRelease (core : Nat) (op : OpId) (know : List Crossing) (seen : List OpId) (as : List Loc) (ended : List (Loc × OpId)) (s : State) : State :=
  { s with rels := { bytes := as, ended := ended, scope := .sys, by_ := none, op := op, core := core, know := know, seen := seen, at_ := s.tick } :: s.rels }

/-- signal_add of a queue engine at a physical address (R107), a release at .sys of what it knows: on the path of a packet's work (R111),
else seen by every path at once (notes/assumptions/4.md). -/
def signalAt (path : Option Path) (know : List Crossing) (va : W64) (pa : Nat) (d : W64) (s : State) : State :=
  let as := locsFrom ⟨.phys, pa⟩ 8
  let (op, s) := agentOp 2 (eccRead as s)
  let add := fun (o : Nat) => leBytes 8 (signalNew (BitVec.ofNat 64 o) d).1.toNat
  match path with
  | some p =>
    let (x, s) := rmwAt (agentOrder know) op p as s
    sysRelease 1 op know [] as (passedPlain x.passed as) (putAt op p true x.passed ⟨.phys, pa⟩ va (add (leNat x.bytes)) s)
  | none => sysRelease 1 op know [] as [] { settle as s with hbm := memPutBytes s.hbm pa (add (memNat s.hbm pa 8)) }

/-! ### Queues -/

/-- A queue of the partition in focus. -/
def queue? (s : State) (q : Nat) : Option Queue := s.p.queues.find? fun x => x.num = q

/-- An update of a queue of the partition in focus. -/
def updQueue (q : Nat) (f : Queue → Queue) (s : State) : State :=
  { s with p := { s.p with queues := s.p.queues.map fun x => if x.num = q then f x else x } }

/-! ### The event ring (R274, R281) -/

/-- Slots of the ring; none while EVRING names no ring. -/
def evSlots (p : Part) : Nat :=
  let n := p.regs.evring.toNat % 64
  if decide (2 ≤ n) && decide (n ≤ 20) then 2 ^ n else 0

/-- EVWR − EVRD. -/
def evUsed (p : Part) : Nat := (p.regs.evwr - p.regs.evrd).toNat

/-- Whether a record may be written that is not the last free slot's. -/
def evRoom (p : Part) : Bool := evUsed p + 1 < evSlots p

/-- A record's bytes (R274). -/
def evBytes (code q : Nat) (pkt value data : W64) : List Byte :=
  leBytes 2 code ++ leBytes 2 q ++ leBytes 4 0 ++ leBytes 8 pkt.toNat ++ leBytes 8 value.toNat ++ leBytes 8 data.toNat

/-- A record written in the next slot, then EVWR incremented as a release at .sys. -/
def evPut (code q : Nat) (pkt value data : W64) (s : State) : State :=
  let base := s.p.regs.evring - BitVec.ofNat 64 (s.p.regs.evring.toNat % 64)
  let a := base + BitVec.ofNat 64 (32 * (s.p.regs.evwr.toNat % max 1 (evSlots s.p)))
  let s := (virtWrite a (evBytes code q pkt value data) s).getD s
  { s with p := { s.p with regs := { s.p.regs with evwr := s.p.regs.evwr + 1 } } }

/-- A queue brought to a state. In ERROR nothing of it starts again and its barriers end (R278, R279); in HALT_EVENT_FULL it keeps the
ERRCODE that it had (DESIGN CHOICE, unsafe: notes/assumptions/97.md). -/
def enterState (st : QState) (err : W64) (q : Queue) : Queue :=
  match st with
  | .error => { q with state := .error, err := err, bars := [], won := false, head := none }
  | st => { q with state := st, err := if st = .haltEventFull then q.err else err }

/-- A system event of a queue, which leads it to a state (R281). A further event of a queue that already holds one waits behind it and
writes no record, also where exactly one slot is free (DESIGN CHOICE, unsafe: notes/assumptions/106.md). -/
def sysEvent (q code : Nat) (pkt value data : W64) (dest : QState) (err : W64) (s : State) : State :=
  match queue? s q with
  | none => s
  | some x =>
    let keep := fun (s : State) => updQueue q (fun x =>
      enterState .haltEventFull 0 { x with held := x.held ++ [⟨code, pkt, value, data, dest, err⟩] }) s
    if !x.held.isEmpty then keep s
    else if evRoom s.p then updQueue q (enterState dest err) (evPut code q pkt value data s)
    else if evUsed s.p + 1 = evSlots s.p then keep (evPut 0x8003 q pkt 0 0 s)
    else keep s

/-- The state a queue is in or is led to by the events it holds. -/
def destState (x : Queue) : QState × W64 :=
  match x.held.getLast? with
  | some h => (h.then_, h.err)
  | none => (x.state, x.err)

/-- A system event that leaves its queue where it is. -/
def sysNote (q code : Nat) (pkt value data : W64) (s : State) : State :=
  match queue? s q with
  | none => s
  | some x => sysEvent q code pkt value data (destState x).1 (destState x).2 s

/-- PACKET_FAILED (R274). -/
def packetFailed (q : Nat) (pkt value data : W64) (s : State) : State := sysNote q 0x8002 pkt value data s

/-- One queue's held events posted as space allows. -/
def postHeld (q : Nat) : List HeldEvent → State → State
  | [], s => s
  | h :: hs, s =>
    if evRoom s.p then
      let s := evPut h.code q h.pkt h.value h.data s
      let s := updQueue q (fun x => { x with held := hs }) s
      if hs.isEmpty then updQueue q (enterState h.then_ h.err) s else postHeld q hs s
    else s

/-- The halted queues post in ascending number (R281). -/
def postAll (s : State) : State :=
  (List.range 128).foldl (fun s q => match queue? s q with
    | none => s
    | some x => postHeld q x.held s) s

/-! ### Completion signals (R271, R360) -/

/-- SIGNAL_FAULT. -/
def signalFault : W64 := BitVec.ofInt 64 (-36)

/-- MEMORY_ERROR's code (R298, R299). -/
def errMemory : W64 := trapCode 19

/-- A signal update of a packet: dropped, and reported, where its address no longer translates (R360) or its line holds an
uncorrectable error (R299). -/
def packetSignal (path : Option Path) (know : List Crossing) (q : Nat) (pkt addr d : W64) (s : State) : State :=
  match virtByte s ⟨true, true, false⟩ addr 8 with
  | some pa =>
    if poisoned s (locsFrom ⟨.phys, pa⟩ 8) then packetFailed q pkt errMemory 0 s else signalAt path know addr pa d s
  | none => packetFailed q pkt signalFault addr s

/-- A completion signal updated with its delta, or with a code: a release of what the packet's work knows (R270, R271). -/
def csigDone (path : Option Path) (know : List Crossing) (q : Nat) (pkt : W64) (csig : Option (W64 × W64)) (code : Option W64) (s : State) :
    State :=
  match csig with
  | none => s
  | some (a, d) => packetSignal path know q pkt a (code.getD d) s

/-- The first signal address of a packet that fails the check of R360: its CSIG, then its other signals in field order, since R360 does
not say which of several is reported (DESIGN CHOICE, unsafe: notes/assumptions/93.md). -/
def badSignal (s : State) (csig : Option (W64 × W64)) (waits : List W64) (adds : List W64) : Option W64 :=
  let rw := (csig.toList.map Prod.fst) ++ adds
  match rw.find? fun a => (virtByte s ⟨true, true, false⟩ a 8).isNone with
  | some a => some a
  | none => waits.find? fun a => (virtByte s ⟨true, false, false⟩ a 8).isNone

end Sys2Proof.Machine
end

