-- ==== Sys2Proof/Machine/HostPath.lean ====
section
/-!
DEFINITION. The host path (R122, R330, R348): RMA reads and writes and the three remote atomics.
-/
namespace Sys2Proof.Machine

/-- The REASON of a run within one page that fails to translate; none for a malformed address. -/
def virtReason (s : State) (w : Want) (va : W64) (n : Nat) : Option Nat :=
  if wellFormed va then
    match xlat s s.p w va n with
    | .fault _ _ r => some r
    | .ok _ => none
  else none

/-- A refused access: performed in no part, answered with a negative acknowledgement (R330, R348). -/
def refuse (r : Option Nat) (s : State) : State := reply (.nack r) s

/-- An access of n bytes protected by a partition's secure domain (R348). -/
def hostAccess (dom : Option Nat) (w : Want) (va : W64) (n : Nat) (act : State → State) (s : State) : State :=
  match dom with
  | none => refuse none s
  | some d =>
    let s := focusPart d s
    if s.p.live && s.p.num = d && s.p.secDomain.isSome && s.p.tdisp = .run then
      match virtBad s w va n with
      | some r => refuse (virtReason s w r.1 r.2) s
      | none => act s
    else refuse none s

/-- A host write of physical runs on the host path (R111, R122): it ends the release sequences of its bytes, and other paths may still
see the bytes before it (R120). -/
def hostWrite (rs : List (W64 × Nat × Nat)) (bs : List Byte) (s : State) : State :=
  let (op, s) := agentOp 1 s
  runsWrite (agentOrder s.p.hostKnow) op .host rs bs s

/-- RMA_WRITE (R348). -/
def execRmaWrite (dom : Option Nat) (va : BitVec 64) (data : List (BitVec 8)) (s : State) : Out :=
  let w : Want := ⟨false, true, false⟩
  .next (hostAccess dom w va data.length (fun s => reply .ack (hostWrite (virtRuns s w va data.length) data s)) s)

/-- What the host learns from bytes it has found: the releases at .sys that it read, and the writes whose values it has returned (R117,
R122). -/
def hostLearn (as : List Loc) (xs : List Seen) (s : State) : State :=
  let took := (seenReads s.p.hostKnow (as.zip xs)).map fun c => { c with onto := some .host }
  let know := agentKnow s true (as.zip (xs.map Seen.passed))
  { s with p := { s.p with hostKnow := (know ++ took ++ s.p.hostKnow).eraseDups } }

/-- Bytes read on the host path. -/
def hostRead (as : List Loc) (s : State) : List Byte × State :=
  let xs := as.map (agentByte s (some .host) s.p.hostKnow)
  (xs.map Seen.byte, hostLearn as xs (eccRead as s))

/-- RMA_READ (R348): an uncorrectable error delivers no byte (R299), and is answered by a negative acknowledgement (DESIGN CHOICE, unsafe:
notes/assumptions/99.md). -/
def execRmaRead (dom : Option Nat) (va : BitVec 64) (n : Nat) (s : State) : Out :=
  .next (hostAccess dom ⟨true, false, false⟩ va n (fun s =>
    let ls := runLocs (virtRuns s ⟨true, false, false⟩ va n)
    if poisoned s ls then refuse none s
    else
      let (bs, s) := hostRead ls s
      reply (.data bs) s) s)

/-- A remote atomic on 64 bits: it reads the write just before its own (R113) and returns it; the update is a release at .sys (R122). -/
def hostAtomic (dom : Option Nat) (va : W64) (new : W64 → W64) (s : State) : State :=
  hostAccess dom ⟨true, true, false⟩ va 8 (fun s =>
    let rs := virtRuns s ⟨true, true, false⟩ va 8
    let ls := runLocs rs
    if poisoned s ls then refuse none s
    else
      let (x, s) := rmwAt (agentOrder s.p.hostKnow) ⟨agentGid s.p.num 1, s.p.seqn⟩ .host ls (eccRead ls s)
      let old := BitVec.ofNat 64 (leNat x.bytes)
      let s := hostLearn ls (ls.zipWith (fun a b => ⟨b, 0, (passedOps x.passed a).2, none⟩) x.bytes) s
      let (op, s) := agentOp 1 s
      let s := runsRmw op .host x.passed rs (leBytes 8 (new old).toNat) s
      reply (.data (leBytes 8 old.toNat)) (sysRelease 0 op s.p.hostKnow (hostOps s) ls (passedPlain x.passed ls) s)) s

/-- ATOMIC_ADD (R348). -/
def execAtomicAdd (dom : Option Nat) (va d : BitVec 64) (s : State) : Out := .next (hostAtomic dom va (fun o => o + d) s)

/-- SWAP (R348). -/
def execSwap (dom : Option Nat) (va d : BitVec 64) (s : State) : Out := .next (hostAtomic dom va (fun _ => d) s)

/-- COMPARE_AND_SWAP (R348). -/
def execCompareAndSwap (dom : Option Nat) (va e d : BitVec 64) (s : State) : Out :=
  .next (hostAtomic dom va (fun o => if o = e then d else o) s)

end Sys2Proof.Machine
end

