-- ==== Sys2Proof/Machine/Special.lean ====
section
/-!
DEFINITION. The special functions (R81, R192). Where the exact result is a binary fraction it is returned exactly; otherwise
the function is computed in fixed point with 640 fraction bits and a sticky bit below them, and rounded once
(notes/assumptions/6.md says why that precision decides every rounding of f32, f16 and bf16).
-/
namespace Sys2Proof.Machine

/-- Fraction bits of the fixed-point evaluation. -/
def fxBits : Nat := 640

/-- 1 in fixed point. -/
def fxOne : Nat := 2 ^ fxBits

/-- floor of the square root, digit by digit from bit `i`. -/
def isqrtFrom (n : Nat) : Nat → Nat → Nat
  | 0, r => if (r + 1) * (r + 1) ≤ n then r + 1 else r
  | i + 1, r =>
    let c := r + 2 ^ (i + 1)
    isqrtFrom n i (if c * c ≤ n then c else r)

/-- floor of the square root. -/
def isqrt (n : Nat) : Nat := isqrtFrom n (Nat.log2 n / 2 + 1) 0

/-- Σ y^k / k! from the term at k on, in fixed point. -/
def expLoop (y : Nat) : Nat → Nat → Nat → Nat → Nat
  | 0, _, _, sum => sum
  | fuel + 1, k, term, sum =>
    let t := term * y / fxOne / (k + 1)
    expLoop y fuel (k + 1) t (sum + t)

/-- e^y for 0 ≤ y < 1 in fixed point. -/
def fxExp (y : Nat) : Nat := expLoop y 170 0 fxOne fxOne

/-- The odd series Σ z^(2k+1)/(2k+1) in fixed point, with z² in fixed point; alternating signs when `alt`. -/
def oddLoop (z2 : Nat) (alt : Bool) : Nat → Nat → Nat → Int → Int
  | 0, _, _, sum => sum
  | fuel + 1, k, pow, sum =>
    let t : Int := (pow / (2 * k + 1) : Nat)
    oddLoop z2 alt fuel (k + 1) (pow * z2 / fxOne) (if alt && k % 2 = 1 then sum - t else sum + t)

/-- artanh of z, 0 ≤ z ≤ 1/3, in fixed point. -/
def fxArtanh (z : Nat) : Nat := (oddLoop (z * z / fxOne) false 230 0 z 0).toNat

/-- arctan of 1/n in fixed point. -/
def fxAtanInv (n : Nat) : Nat := (oddLoop (fxOne / (n * n)) true 160 0 (fxOne / n) 0).toNat

/-- ln 2 in fixed point. -/
def fxLn2 : Nat := 2 * fxArtanh (fxOne / 3)

/-- π/2 in fixed point (Machin's formula). -/
def fxHalfPi : Nat := 8 * fxAtanInv 5 - 2 * fxAtanInv 239

/-- Σ of the sine (first power 1) or cosine (first power 0) series in fixed point. -/
def trigLoop (y2 : Nat) : Nat → Nat → Nat → Bool → Int → Int
  | 0, _, _, _, sum => sum
  | fuel + 1, k, term, neg, sum =>
    let t := term * y2 / fxOne / ((k + 1) * (k + 2))
    trigLoop y2 fuel (k + 2) t (!neg) (if neg then sum + (t : Int) else sum - (t : Int))

/-- sin y for 0 ≤ y ≤ π/2 in fixed point. -/
def fxSin (y : Nat) : Int := trigLoop (y * y / fxOne) 110 1 y false y

/-- cos y for 0 ≤ y ≤ π/2 in fixed point. -/
def fxCos (y : Nat) : Int := trigLoop (y * y / fxOne) 110 0 fxOne false fxOne

/-- A fixed-point approximation of an irrational value, with the sticky bit set below it. -/
def fxSticky (neg : Bool) (v : Nat) (shift : Int) : XV := .fin neg (2 * v + 1) (shift - fxBits - 1)

/-- m · 2^e in fixed point. -/
def fxOf (m : Nat) (e : Int) : Nat :=
  if 0 ≤ e + fxBits then m * 2 ^ (e + fxBits).toNat else m / 2 ^ (-(e + fxBits)).toNat

/-- A quotient with a sticky bit, exact when it is a binary fraction. -/
def xDiv (neg : Bool) (m : Nat) (e : Int) (n : Nat) (f : Int) : XV :=
  let k := Nat.log2 n + 128
  let q := m * 2 ^ k / n
  let r := m * 2 ^ k % n
  .fin neg (2 * q + (if r = 0 then 0 else 1)) (e - f - k - 1)

/-- A special function's value before rounding, with the flags of R81. -/
abbrev SpecialR := XV × Flags

/-- 2^x (R81). -/
def spExp2 (x : XV) : SpecialR :=
  match x with
  | .nan => (.nan, 0)
  | .inf neg => (if neg then .fin false 0 0 else .inf false, 0)
  | .fin neg m e =>
    if m = 0 then (.fin false 1 0, 0)
    else if 12 ≤ e + (Nat.log2 m : Int) then (.fin false 1 (if neg then -4096 else 4096), 0)
    else
      let v := fxOf m e
      let (n, r) : Int × Nat :=
        if neg then (if v % fxOne = 0 then (-((v / fxOne : Nat) : Int), 0) else (-((v / fxOne : Nat) : Int) - 1, fxOne - v % fxOne))
        else (((v / fxOne : Nat) : Int), v % fxOne)
      if r = 0 then (.fin false 1 n, 0)
      else (fxSticky false (fxExp (r * fxLn2 / fxOne)) n, 0)

/-- log2 x (R81). -/
def spLog2 (x : XV) : SpecialR :=
  match x with
  | .nan => (.nan, 0)
  | .inf neg => if neg then (.nan, flagNV) else (.inf false, 0)
  | .fin neg m e =>
    if m = 0 then (.inf true, flagDZ)
    else if neg then (.nan, flagNV)
    else
      let l := Nat.log2 m
      let k : Int := e + l
      if m = 2 ^ l then (.fin (k < 0) k.natAbs 0, 0)
      else
        let z := (m - 2 ^ l) * fxOne / (m + 2 ^ l)
        let f := 2 * fxArtanh z * fxOne / fxLn2
        let v : Int := k * (fxOne : Int) + f
        (fxSticky (v < 0) v.natAbs 0, 0)

/-- 1/x (R81). -/
def spRcp (x : XV) : SpecialR :=
  match x with
  | .nan => (.nan, 0)
  | .inf neg => (.fin neg 0 0, 0)
  | .fin neg m e => if m = 0 then (.inf neg, flagDZ) else (xDiv neg 1 0 m e, 0)

/-- 1/√x (R81). -/
def spRsq (x : XV) : SpecialR :=
  match x with
  | .nan => (.nan, 0)
  | .inf neg => if neg then (.nan, flagNV) else (.fin false 0 0, 0)
  | .fin neg m e =>
    if m = 0 then (.inf neg, flagDZ)
    else if neg then (.nan, flagNV)
    else
      let (m, e) : Nat × Int := if e % 2 = 0 then (m, e) else (2 * m, e - 1)
      let k := Nat.log2 m + 300
      let q := 2 ^ (2 * k) / m
      let s := isqrt q
      let exact := s * s = q ∧ 2 ^ (2 * k) % m = 0
      (.fin false (2 * s + (if exact then 0 else 1)) (-(e / 2) - k - 1), 0)

/-- √x (R81). -/
def spSqrt (x : XV) : SpecialR :=
  match x with
  | .nan => (.nan, 0)
  | .inf neg => if neg then (.nan, flagNV) else (.inf false, 0)
  | .fin neg m e =>
    if m = 0 then (.fin neg 0 0, 0)
    else if neg then (.nan, flagNV)
    else
      let (m, e) : Nat × Int := if e % 2 = 0 then (m, e) else (2 * m, e - 1)
      let n := m * 2 ^ 256
      let s := isqrt n
      (.fin false (2 * s + (if s * s = n then 0 else 1)) (e / 2 - 128 - 1), 0)

/-- x / y (R81). -/
def spDiv (x y : XV) : SpecialR :=
  match x, y with
  | .nan, _ => (.nan, 0)
  | _, .nan => (.nan, 0)
  | .inf _, .inf _ => (.nan, flagNV)
  | .inf s, .fin r _ _ => (.inf (s != r), 0)
  | .fin s _ _, .inf r => (.fin (s != r) 0 0, 0)
  | .fin s m e, .fin r n f =>
    if n = 0 then (if m = 0 then (.nan, flagNV) else (.inf (s != r), flagDZ))
    else if m = 0 then (.fin (s != r) 0 0, 0)
    else (xDiv (s != r) m e n f, 0)

/-- tanh x (R81), as (e^2x − 1)/(e^2x + 1). -/
def spTanh (x : XV) : SpecialR :=
  match x with
  | .nan => (.nan, 0)
  | .inf neg => (.fin neg 1 0, 0)
  | .fin neg m e =>
    if m = 0 then (.fin neg 0 0, 0)
    else if 8 ≤ e + (Nat.log2 m : Int) then (.fin neg (2 ^ 128 - 1) (-128), 0)
    else
      let y := fxOf (2 * m) e
      let k := y / fxLn2
      let ex := fxExp (y - k * fxLn2) * 2 ^ k
      (fxSticky neg ((ex - fxOne) * fxOne / (ex + fxOne)) 0, 0)

/-- The quadrant of |x| and the distance into it, in fixed point (R81: exact π). -/
def trigReduce (m : Nat) (e : Int) : Nat × Nat :=
  let v := fxOf m e
  (v / fxHalfPi % 4, v % fxHalfPi)

/-- sin x (R81). -/
def spSin (x : XV) : SpecialR :=
  match x with
  | .nan => (.nan, 0)
  | .inf _ => (.nan, flagNV)
  | .fin neg m e =>
    if m = 0 then (.fin neg 0 0, 0)
    else
      let (q, r) := trigReduce m e
      let v := if q % 2 = 0 then fxSin r else fxCos r
      (fxSticky (neg != (2 ≤ q)) v.natAbs 0, 0)

/-- cos x (R81). -/
def spCos (x : XV) : SpecialR :=
  match x with
  | .nan => (.nan, 0)
  | .inf _ => (.nan, flagNV)
  | .fin _ m e =>
    if m = 0 then (.fin false 1 0, 0)
    else
      let (q, r) := trigReduce m e
      let v := if q % 2 = 0 then fxCos r else fxSin r
      (fxSticky (q = 1 || q = 2) v.natAbs 0, 0)

/-- A unary special function on one encoding: NaN by R78, then one rounding (R192). -/
def spUnary (f : XV → SpecialR) (t : FFmt) (mode : Nat) (sat : Bool) (x : Nat) : Nat × Flags :=
  match nanSelect t [x] with
  | some r => r
  | none => fFinish t mode sat (f (fDecode t x))

/-- VDIV on encodings (R192). -/
def spBinary (t : FFmt) (mode : Nat) (sat : Bool) (x y : Nat) : Nat × Flags :=
  match nanSelect t [x, y] with
  | some r => r
  | none => fFinish t mode sat (spDiv (fDecode t x) (fDecode t y))

end Sys2Proof.Machine
end

