-- ==== Sys2Proof/Machine/VecFloat.lean ====
section
/-!
DEFINITION. Meanings of class 2 (R187 to R192): float arithmetic, conversions and special functions.
-/
namespace Sys2Proof.Machine

/-- The rounding mode of an op: short forms round to nearest (R74). -/
def modeOf (f : OpF) : Nat := if f.form = .long then f.rnd.toNat else 0

/-- A float op on its sub-vectors. -/
def vecFlt (o : Op) (f : OpF) (fn : FFmt → Nat → Nat → Nat → Nat × Flags) (s : State) : Out :=
  vecMap o f (ty0 f) (fn (ty0 f).fmt) s

/-- VFADD (R188). -/
def execVfadd (f : OpF) (s : State) : Out := vecFlt .vfadd f (fun t x y _ => fAdd t (modeOf f) (satOpt f) x y) s
/-- VFSUB (R188). -/
def execVfsub (f : OpF) (s : State) : Out := vecFlt .vfsub f (fun t x y _ => fSub t (modeOf f) (satOpt f) x y) s
/-- VFMUL (R188). -/
def execVfmul (f : OpF) (s : State) : Out := vecFlt .vfmul f (fun t x y _ => fMul t (modeOf f) (satOpt f) x y) s
/-- VFMA (R188). -/
def execVfma (f : OpF) (s : State) : Out := vecFlt .vfma f (fun t x y z => fFma t (modeOf f) (satOpt f) x y z) s
/-- VFMIN (R189). -/
def execVfmin (f : OpF) (s : State) : Out := vecFlt .vfmin f (fun t x y _ => fMinMax t false x y) s
/-- VFMAX (R189). -/
def execVfmax (f : OpF) (s : State) : Out := vecFlt .vfmax f (fun t x y _ => fMinMax t true x y) s
/-- VFRND (R189). -/
def execVfrnd (f : OpF) (s : State) : Out := vecFlt .vfrnd f (fun t x _ _ => fRndInt t (modeOf f) x) s
/-- VFCLASS (R189). -/
def execVfclass (f : OpF) (s : State) : Out := vecFlt .vfclass f (fun t x _ _ => (fClass t x, 0)) s
/-- VFSCALE: the count is the w bits of source b, signed (R189). -/
def execVfscale (f : OpF) (s : State) : Out :=
  vecFlt .vfscale f (fun t x y _ => fScale t (modeOf f) (satOpt f) x (sextNat (ty0 f).bits y)) s
/-- VFCMP (R190). -/
def execVfcmp (f : OpF) (s : State) : Out :=
  vecCmp .vfcmp f (fun x y => fCompare (ty0 f).fmt (f.dst.toNat / 64) (cmpV f) x y) s

/-! ### Conversions (R191) -/

/-- The selector k of a conversion. -/
def cvtK (f : OpF) : Nat := imm24 f % 4

/-- Two integer types take no rounding mode (R191). -/
def cvtRnd (f : OpF) : Bool := f.rnd = 0 || !((ty0 f).isInt && (ty1 f).isInt)

/-- Conversion of one element (R82). -/
def cvtOf (f : OpF) (x : Nat) : Nat × Flags := cvtElem (ty1 f) (ty0 f) f.rnd.toNat f.sat x

/-- VCVT (R191). -/
def execVcvt (f : OpF) (s : State) : Out :=
  let d := ty0 f
  let t := ty1 f
  runVecIf (d.count = t.count && d ≠ t && imm24 f = 0 && cvtRnd f) .vcvt f t (fun v g =>
    .ok (setLanes d f.dst.toNat v.act (laneResults d v.act fun i j => cvtOf f (subOf t (v.a[i % 32]!) j)) g)) s

/-- VUNPACK (R191). -/
def execVunpack (f : OpF) (s : State) : Out :=
  let d := ty0 f
  let t := ty1 f
  runVecIf (d.count < t.count && decide (imm24 f < t.count / d.count) && cvtRnd f) .vunpack f t (fun v g =>
    .ok (setLanes d f.dst.toNat v.act
      (laneResults d v.act fun i j => cvtOf f (subOf t (v.a[i % 32]!) (cvtK f * d.count + j))) g)) s

/-- The whole step of a lane that holds sub-vector j, nibble and all. -/
def stepOf (t : Ty) (x : W32) (j : Nat) : Nat := x.toNat / 2 ^ (t.step * j) % 2 ^ t.step

/-- VPACK: the other sub-vectors of vd keep their bits (R191). -/
def execVpack (f : OpF) (s : State) : Out :=
  let d := ty0 f
  let t := ty1 f
  runVecIf (t.count < d.count && decide (imm24 f < d.count / t.count) && cvtRnd f) .vpack f t (fun v g =>
    let old := getV g f.dst.toNat
    let rs := laneResults t v.act fun i j => cvtOf f (subOf t (v.a[i % 32]!) j)
    let word := fun (i : Nat) => (List.range d.count).foldl (fun acc j =>
      let k := cvtK f * t.count
      let x := if k ≤ j && j < k + t.count then (((rs.getD i []).getD (j - k) (0, 0)).1) else stepOf d (old[i % 32]!) j
      acc + x * 2 ^ (d.step * j)) 0
    .ok (raise (resultFlags rs) (setV g f.dst.toNat (Vector.ofFn fun i =>
      if lane v.act i.val then BitVec.ofNat 32 (word i.val) else old[i.val])))) s

/-! ### Special functions (R192) -/

/-- A special function of one operand. -/
def vecSp (o : Op) (f : OpF) (fn : XV → SpecialR) (s : State) : Out :=
  vecFlt o f (fun t x _ _ => spUnary fn t (modeOf f) (satOpt f) x) s

/-- VEXP2 (R81, R192). -/
def execVexp2 (f : OpF) (s : State) : Out := vecSp .vexp2 f spExp2 s
/-- VLOG2 (R81, R192). -/
def execVlog2 (f : OpF) (s : State) : Out := vecSp .vlog2 f spLog2 s
/-- VRCP (R81, R192). -/
def execVrcp (f : OpF) (s : State) : Out := vecSp .vrcp f spRcp s
/-- VRSQ (R81, R192). -/
def execVrsq (f : OpF) (s : State) : Out := vecSp .vrsq f spRsq s
/-- VSQRT (R81, R192). -/
def execVsqrt (f : OpF) (s : State) : Out := vecSp .vsqrt f spSqrt s
/-- VDIV (R81, R192). -/
def execVdiv (f : OpF) (s : State) : Out := vecFlt .vdiv f (fun t x y _ => spBinary t (modeOf f) (satOpt f) x y) s
/-- VTANH (R81, R192). -/
def execVtanh (f : OpF) (s : State) : Out := vecSp .vtanh f spTanh s
/-- VSIN (R81, R192). -/
def execVsin (f : OpF) (s : State) : Out := vecSp .vsin f spSin s
/-- VCOS (R81, R192). -/
def execVcos (f : OpF) (s : State) : Out := vecSp .vcos f spCos s

end Sys2Proof.Machine
end

