-- ==== Sys2Proof/Machine/Lane.lean ====
section
/-!
DEFINITION. Meanings of class 3 (R193 to R198): lane reductions and scans, ballots, permutations, indexed registers, predicates.
-/
namespace Sys2Proof.Machine

/-- The operation of VLRED and VLSCAN (R194). -/
def treeOpOf (f : OpF) : Nat := imm24 f % 8

/-- Whether the operation word is legal (R193, R194). -/
def treeOk (f : OpF) (scan : Bool) : Bool :=
  (imm24 f < (if scan then 16 else 8)) && (treeOpOf f < (if (ty0 f).isInt then 6 else 3)) &&
    (!f.sat || ((ty0 f).isInt && treeOpOf f = 0))

/-- combine on integers (R194). -/
def combineI (t : Ty) (sat : Bool) (op x y : Nat) : Nat × Flags :=
  let a := intRead t.bits t.signed x
  let b := intRead t.bits t.signed y
  match op with
  | 0 => intFinish t.bits t.signed sat (a + b)
  | 1 => (if a ≤ b then x else y, 0)
  | 2 => (if a ≤ b then y else x, 0)
  | 3 => (Nat.land x y, 0)
  | 4 => (Nat.lor x y, 0)
  | _ => (Nat.xor x y, 0)

/-- combine on floats (R91, R194). -/
def combineF (t : FFmt) (op x y : Nat) : Nat × Flags :=
  match op with
  | 0 => fAdd t 0 false x y
  | 1 => fMinMax t false x y
  | _ => fMinMax t true x y

/-- combine of an op (R194). -/
def combineOf (f : OpF) (x y : Nat) : Nat × Flags :=
  if (ty0 f).isInt then combineI (ty0 f) f.sat (treeOpOf f) x y else combineF (ty0 f).fmt (treeOpOf f) x y

/-- The identity of an operation (R194). -/
def treeIdentity (t : Ty) (op : Nat) : Nat :=
  if t.isInt then
    match op with
    | 1 => intWrap t.bits (intRange t.bits t.signed).2
    | 2 => intWrap t.bits (intRange t.bits t.signed).1
    | 3 => 2 ^ t.bits - 1
    | _ => 0
  else
    match op with
    | 0 => 0
    | 1 => fInf t.fmt false
    | _ => fInf t.fmt true

/-- The leaves of sub-vector k: present in active lanes (R194). -/
def treeLeaves (t : Ty) (v : VIn) (k : Nat) : List Node :=
  (List.range 32).map fun i => if lane v.act i then some (subOf t (v.a[i % 32]!) k, 0) else none

/-- VLRED (R194). -/
def execVlred (f : OpF) (s : State) : Out :=
  let t := ty0 f
  runVecIf (treeOk f false) .vlred f t (fun v g =>
    let roots := (List.range t.count).map fun k => (treeReduce (combineOf f) (treeLeaves t v k)).getD (0, 0)
    .ok (setLanes t f.dst.toNat v.act (laneResults t v.act fun _ k => roots.getD k (0, 0)) g)) s

/-- VLSCAN: inclusive, or exclusive with .ex (R194). -/
def execVlscan (f : OpF) (s : State) : Out :=
  let t := ty0 f
  let ex := imm24 f / 8 % 2 = 1
  runVecIf (treeOk f true) .vlscan f t (fun v g =>
    .ok (setLanes t f.dst.toNat v.act (laneResults t v.act fun i k =>
      let r := if ex then (if i = 0 then none else treeScan (combineOf f) (treeLeaves t v k) (i - 1))
               else treeScan (combineOf f) (treeLeaves t v k) i
      r.getD (treeIdentity t (treeOpOf f), 0)) g)) s

/-- VBALLOT with no active lane writes zero, once no unretired load will write its destination (R100, R195). -/
def ballotOff (f : OpF) (s : State) : Res State :=
  if (pendingRegs s.g).contains (.s (f.dst.toNat % 64)) then .hold else .ok { s with g := setS s.g f.dst.toNat 0 }

/-- VBALLOT: zero when no lane is active (R195). -/
def execVballot (f : OpF) (s : State) : Out :=
  runWith .vballot f (ballotOff f)
    (onG fun g => .ok (setS g f.dst.toNat ((getP g f.a.reg.toNat &&& activeMask g f.guard).setWidth 64))) s

/-- VPERMX: every lane of a is read before any is written (R196). -/
def execVpermx (f : OpF) (s : State) : Out :=
  runVec .vpermx f .n32 (fun v g =>
    .ok (setLanes .n32 f.dst.toNat v.act (laneResults .n32 v.act fun i _ =>
      ((v.a[(v.b[i % 32]!).toNat % 32]!).toNat, 0)) g)) s

/-- VEXTR (R196). -/
def execVextr (f : OpF) (s : State) : Out :=
  runP .vextr f (fun g =>
    setS g f.dst.toNat ((getLane g f.a.reg.toNat ((rawS g f f.b).toNat % 32)).setWidth 64)) s

/-- VINSR: nothing when the lane is inactive (R196). -/
def execVinsr (f : OpF) (s : State) : Out :=
  runP .vinsr f (fun g =>
    let j := (rawS g f f.b).toNat % 32
    if lane (activeMask g f.guard) j then setLane g f.dst.toNat j ((rawS g f f.a).setWidth 32) else g) s

/-- Byte of the frame where v0 to v3 are saved (R301). -/
def frameV (n : Nat) : Nat := 0x100 + 128 * n

/-- reg(n) of R197: the frame's copy of v0 to v3 in handler mode. -/
def regX (g : Group) (n : Nat) : VReg := if g.hmode && n < 4 then frameVec g.harea (frameV n) else getV g n

/-- The bytes of a vector register, lane 0 lowest (R301). -/
def vecBytes (v : VReg) : List Byte := (List.range 32).flatMap fun i => leBytes 4 (v[i % 32]!).toNat

/-- reg(n) of R197 written. -/
def setRegX (g : Group) (n : Nat) (v : VReg) : Group :=
  if g.hmode && n < 4 then { g with harea := memPutBytes g.harea (frameV n) (vecBytes v) } else setV g n v

/-- A vector with its active lanes replaced. -/
def blend (act : W32) (new old : VReg) : VReg := Vector.ofFn fun i => if lane act i.val then new[i.val] else old[i.val]

/-- The bytes of the frame that VRDX reads: none outside handler mode or above v3. -/
def vrdxReads (g : Group) (n : Nat) : List Loc := if g.hmode && n < 4 then locsFrom ⟨.handler g.id, frameV n⟩ 128 else []

/-- VRDX past its legality (R197); an uncorrectable error in the frame ends the launch and delivers nothing (R299). It reads the frame, and
VWRX writes it, at once, whatever the handler's earlier accesses to those bytes have still to do (DESIGN CHOICE, unsafe:
notes/assumptions/91.md). -/
def vrdxBody (f : OpF) (s : State) : Res State :=
  let n := (rawS s.g f f.a).toNat
  (Res.require (n < s.l.kern.regs)).bind fun _ =>
    if poisoned s (vrdxReads s.g n) then .ok (memError s.g.id s)
    else
      let s := eccRead (vrdxReads s.g n) s
      .ok { s with g := setV s.g f.dst.toNat (blend (activeMask s.g f.guard) (regX s.g n) (getV s.g f.dst.toNat)) }

/-- VRDX (R197). -/
def execVrdx (f : OpF) (s : State) : Out := runS .vrdx f (vrdxBody f) s

/-- VWRX (R197). -/
def execVwrx (f : OpF) (s : State) : Out :=
  runG .vwrx f (fun g =>
    let n := (rawS g f f.a).toNat
    (Res.require (n < s.l.kern.regs)).bind fun _ =>
      .ok (setRegX g n (blend (activeMask g f.guard) (getV g f.b.reg.toNat) (regX g n)))) s

/-- Source b of a predicate op, inverted with OPT (R198). -/
def predB (g : Group) (f : OpF) : W32 := getP g f.b.reg.toNat ^^^ (if f.opt then 0xFFFFFFFF else 0)

/-- PAND (R198). -/
def execPand (f : OpF) (s : State) : Out :=
  runP .pand f (fun g => setP g f.dst.toNat (getP g f.a.reg.toNat &&& predB g f)) s
/-- POR (R198). -/
def execPor (f : OpF) (s : State) : Out :=
  runP .por f (fun g => setP g f.dst.toNat (getP g f.a.reg.toNat ||| predB g f)) s
/-- PXOR (R198). -/
def execPxor (f : OpF) (s : State) : Out :=
  runP .pxor f (fun g => setP g f.dst.toNat (getP g f.a.reg.toNat ^^^ predB g f)) s

end Sys2Proof.Machine
end

