-- ==== Sys2Proof/Machine/Packet.lean ====
section
/-!
DEFINITION. The packet format (R265 to R268): TLVs, the six rules in order, and the packets they give.
-/
namespace Sys2Proof.Machine

/-- MALFORMED_PACKET (R280). -/
def errMalformed : W64 := BitVec.ofInt 64 (-33)
/-- UNKNOWN_MANDATORY (R280). -/
def errUnknown : W64 := BitVec.ofInt 64 (-32)
/-- PACKET_ABORTED (R280). -/
def errAborted : W64 := BitVec.ofInt 64 (-34)

/-- A TLV: the unit that holds header and inline word, and its body of 8-byte units (R265). -/
structure Tlv where
  head : Nat
  body : List Nat
  deriving DecidableEq, Repr

/-- TYPE. -/
def tlvType (u : Nat) : Nat := bitsAt u 20 12
/-- MAND. -/
def tlvMand (u : Nat) : Bool := bitsAt u 19 1 = 1
/-- LEN. -/
def tlvLen (u : Nat) : Nat := bitsAt u 0 16
/-- The inline word. -/
def tlvInline (u : Nat) : Nat := bitsAt u 32 32
/-- LEN at least 1 and the reserved bits zero. -/
def tlvHeadOk (u : Nat) : Bool := decide (1 ≤ tlvLen u) && bitsAt u 16 3 = 0

/-- Field TLVs that fill a body exactly (R266 item 4). A header with a reserved bit set (R265) fails here, before an unknown field of item 5
(DESIGN CHOICE, unsafe: notes/assumptions/104.md). -/
def fieldsOf : Nat → List Nat → Option (List Tlv)
  | _, [] => some []
  | 0, _ => none
  | fuel + 1, u :: us =>
    if tlvHeadOk u && decide (tlvLen u ≤ us.length + 1) then
      (fieldsOf fuel (us.drop (tlvLen u - 1))).map fun r => ⟨u, us.take (tlvLen u - 1)⟩ :: r
    else none

/-- The fields of a packet type: type, least and greatest number (R267). -/
def fieldRules (type : Nat) : List (Nat × Nat × Nat) :=
  match type with
  | 2 => [(2, 1, 4), (1, 0, 1)]
  | 3 => [(12, 1, 1)]
  | 4 => [(8, 1, 1), (1, 0, 1)]
  | 5 => [(9, 1, 1), (1, 0, 1)]
  | 6 => [(3, 1, 1), (4, 1, 1), (5, 0, 1), (6, 0, 1), (7, 0, 1), (1, 0, 1)]
  | 7 => [(10, 1, 4), (1, 0, 1)]
  | 8 => [(11, 1, 1)]
  | _ => []

/-- Whether a packet type is known. -/
def typeKnown (t : Nat) : Bool := decide (1 ≤ t) && decide (t ≤ 8)

/-- Unit i of a field's body. -/
def unit (f : Tlv) (i : Nat) : Nat := f.body.getD i 0

/-- A parse: the packet's fields, a packet to skip, or an error code. -/
inductive Parse where
  | ok (head : Nat) (fields : List Tlv)
  | skip
  | bad (code : W64)
  deriving DecidableEq, Repr

/-- The fields of a type in their order. -/
def fieldsAt (t : Nat) (fs : List Tlv) : List Tlv := fs.filter fun f => tlvType f.head = t

/-- Whether a member is one LAUNCH, COPY or BOB packet without a CSIG. -/
def memberOk (x : Parse) : Bool :=
  match x with
  | .ok u fs => (tlvType u = 4 || tlvType u = 5 || tlvType u = 6) && (fieldsAt 1 fs).isEmpty
  | _ => false

/-- LEN in units and the inline word and body limits of a field (R268); `sub` parses the packet inside a SUBPKT. -/
def fieldOk (sub : List Nat → Parse) (f : Tlv) : Bool :=
  let len := tlvLen f.head
  let inl := tlvInline f.head
  match tlvType f.head with
  | 1 => len = 2 && decide (1 ≤ inl) && decide (inl < 2 ^ 31) && unit f 0 % 8 = 0
  | 2 => len = 3 && inl = 0 && unit f 0 % 8 = 0
  | 3 => len = 2 && unit f 0 % 4096 = 0
  | 4 =>
    let x := bitsAt (unit f 0) 0 32
    let y := bitsAt (unit f 0) 32 32
    let z := bitsAt (unit f 1) 0 32
    let ok := fun (n : Nat) => decide (1 ≤ n) && decide (n ≤ 1048576)
    len = 3 && inl = 0 && bitsAt (unit f 1) 32 32 = 0 && ok x && ok y && ok z && decide (x * y * z < 2 ^ 32)
  | 5 => len = 2 && inl = 0
  | 6 => len = 1 && decide (inl < 4)
  | 7 => len = 2 && inl = 0 && unit f 0 % 64 = 0
  | 8 => len = 4 && inl = 0 && decide (1 ≤ unit f 2) && decide (unit f 2 ≤ 2 ^ 40)
  | 9 => len = 2 && unit f 0 % 64 = 0
  | 10 => inl = 0 && memberOk (sub f.body)
  | 11 => len = 2 && decide (1 ≤ inl) && decide (inl ≤ 0x7FFF)
  | 12 => len = 3 && inl = 0 && unit f 0 % 8 = 0
  | _ => true

/-- The inline words R267 allows. -/
def inlineOk (u : Nat) : Bool := if tlvType u = 2 then decide (tlvInline u < 2) else tlvInline u = 0

/-- Rules 2 to 6 of R266 on the units of one packet whose header meets rule 1. A SUBPKT whose inner packet has an unknown mandatory type
or field counts under rule 5, ahead of the outer packet's rule 6 (DESIGN CHOICE, unsafe: notes/assumptions/98.md). -/
def parseUnits (sub : List Nat → Parse) (us : List Nat) : Parse :=
  match us with
  | [] => .bad errMalformed
  | u :: body =>
    let t := tlvType u
    if !typeKnown t then (if tlvMand u then .bad errUnknown else .skip)
    else if !inlineOk u then .bad errMalformed
    else
      match fieldsOf body.length body with
      | none => .bad errMalformed
      | some fs =>
        let listed := fun (f : Tlv) => (fieldRules t).any fun r => r.1 = tlvType f.head
        if fs.any fun f => (!listed f && tlvMand f.head) || (listed f && tlvType f.head = 10 && sub f.body = .bad errUnknown) then .bad errUnknown
        else
          let fs := fs.filter listed
          let counts := (fieldRules t).all fun r =>
            decide (r.2.1 ≤ (fieldsAt r.1 fs).length) && decide ((fieldsAt r.1 fs).length ≤ r.2.2)
          if counts && fs.all (fieldOk sub) then .ok u fs else .bad errMalformed

/-- No packet stands inside a member of a bundle. -/
def noSub (_ : List Nat) : Parse := .bad errMalformed

/-- A member parsed (R268): one packet that fills the body. -/
def parseMember (us : List Nat) : Parse :=
  match us with
  | [] => .bad errMalformed
  | u :: _ => if tlvHeadOk u && tlvLen u = us.length then parseUnits noSub us else .bad errMalformed

/-- Unit i of the only field of a type. -/
def unitOf (t i : Nat) (fs : List Tlv) : W64 := BitVec.ofNat 64 (((fieldsAt t fs).head?.map fun f => unit f i).getD 0)

/-- The inline word of the only field of a type. -/
def inlineOf (t : Nat) (fs : List Tlv) : Nat := ((fieldsAt t fs).head?.map fun f => tlvInline f.head).getD 0

/-- CSIG: address and delta. -/
def csigOf (fs : List Tlv) : Option (W64 × W64) :=
  (fieldsAt 1 fs).head?.map fun f => (BitVec.ofNat 64 (unit f 0), BitVec.ofNat 64 (tlvInline f.head))

/-- The work of a LAUNCH, COPY or BOB packet. -/
def workOf (u : Nat) (fs : List Tlv) : Work :=
  match tlvType u with
  | 4 => .copy (unitOf 8 0 fs) (unitOf 8 1 fs) (unitOf 8 2 fs).toNat
  | 5 => .bob (inlineOf 9 fs) (unitOf 9 0 fs)
  | _ =>
    .launch (unitOf 3 0 fs) (inlineOf 3 fs) ((unitOf 4 0 fs).toNat % 2 ^ 32) ((unitOf 4 0 fs).toNat / 2 ^ 32)
      ((unitOf 4 1 fs).toNat % 2 ^ 32) (unitOf 5 0 fs) (inlineOf 6 fs)
      ((fieldsAt 7 fs).head?.map fun f => BitVec.ofNat 64 (unit f 0))

/-- The member of a SUBPKT. -/
def memberOf (f : Tlv) : List Work :=
  match parseMember f.body with
  | .ok u fs => [workOf u fs]
  | _ => []

/-- A parsed packet. -/
def packetOf (u : Nat) (fs : List Tlv) : Packet :=
  match tlvType u with
  | 1 => .nop
  | 2 => .barrier (tlvInline u % 2 = 1) ((fieldsAt 2 fs).map fun f => (BitVec.ofNat 64 (unit f 0), BitVec.ofNat 64 (unit f 1))) (csigOf fs)
  | 3 => .signal (unitOf 12 0 fs) (unitOf 12 1 fs)
  | 7 => .bundle ((fieldsAt 10 fs).flatMap memberOf) (csigOf fs)
  | 8 => .event (inlineOf 11 fs) (unitOf 11 0 fs)
  | _ => .work (workOf u fs) (csigOf fs)

/-! ### The ring (R262, R266 item 1) -/

/-- LOGSIZE. -/
def qLog (q : Queue) : Nat := q.ctl.toNat % 32
/-- Place of a counter in the ring. -/
def qOff (q : Queue) (c : W64) : Nat := c.toNat % 2 ^ qLog q

/-- n bytes of a packet's ring read: a byte not released by the time WRITE covers it may be old or new (R262); an uncorrectable error
delivers none (R299). -/
def packetBytes (s : State) (q : Queue) (va : W64) (n : Nat) : Except W64 (List Loc × List Byte) :=
  let w : Want := ⟨true, false, false⟩
  if (virtBad s w va n).isSome then .error errMalformed
  else
    let ls := runLocs (virtRuns s w va n)
    if poisoned s ls then .error errMemory else .ok (ls, agentBytes s none q.know ls)

/-- The units of the packet at READ with the bytes read, where its header meets item 1 and its bytes can be read; else an error code. -/
def packetUnits (s : State) (q : Queue) : Except W64 (List Loc × List Nat) :=
  let at_ := q.base + BitVec.ofNat 64 (qOff q q.read)
  match packetBytes s q at_ 8 with
  | .error c => .error c
  | .ok (_, hd) =>
    let u := leNat hd
    let n := 8 * tlvLen u
    if tlvHeadOk u && q.read.toNat % 8 = 0 && decide (qOff q q.read + n ≤ 2 ^ qLog q) && decide (n ≤ (q.write - q.read).toNat) then
      match packetBytes s q at_ n with
      | .error c => .error c
      | .ok (ls, bs) => .ok (ls, (List.range (tlvLen u)).map fun i => leNat ((bs.drop (8 * i)).take 8))
    else .error errMalformed

/-- The bytes that the read of the packet at READ touches. -/
def packetReads (s : State) (q : Queue) : List Loc :=
  match packetUnits s q with
  | .ok (ls, _) => ls
  | .error _ => []

/-- A packet read and parsed: with its length in bytes, or an error code. -/
def readPacket (s : State) (q : Queue) : Except W64 (Packet × Nat) :=
  match packetUnits s q with
  | .error c => .error c
  | .ok (_, us) =>
    match parseUnits parseMember us with
    | .ok u fs => .ok (packetOf u fs, 8 * us.length)
    | .skip => .ok (.nop, 8 * us.length)
    | .bad c => .error c

end Sys2Proof.Machine
end

