-- ==== Sys2Proof/Machine/Place.lean ====
section
/-!
DEFINITION. Distribution and placement (R284 to R288, R96, R25, R16, R21), the end of groups and teams (R24), and the bobbin
commands that finish on an engine (R243).
-/
namespace Sys2Proof.Machine

/-! ### Distributors and chunks (R284 to R286) -/

/-- The dies that hold a half-die of a partition, ascending; distributor d is that of the d-th. -/
def distDies (p : Part) : List Nat := (List.range 8).filter fun d => p.halves.contains (2 * d) || p.halves.contains (2 * d + 1)

/-- The fundamental-domain condition of a generator on a team coordinate (R38). -/
def teamDomain (l : Launch) (c : List Nat) : Gen → Bool
  | .trans a b _ => decide (c.getD b 0 ≤ c.getD a 0)
  | .refl d _ => decide (2 * c.getD d 0 + 1 ≤ gridSize l d)
  | .cyc d s _ => decide (c.getD d 0 < Nat.gcd (gridSize l d) s)

/-- Whether a linear index lies in the fundamental domain (R38, R39). -/
def inDomain (l : Launch) (i : Nat) : Bool :=
  let c := coordOf l i
  l.kern.gens.all (teamDomain l [c.1, c.2.1, c.2.2])

/-- Whether a team runs in the launch's present phase (R30). -/
def inPhase (l : Launch) (i : Nat) : Bool :=
  !l.replay || l.tasks.any fun t => t.team = i && t.phase = l.phase

/-- The teams of a chunk that are issued now, in ascending linear index. -/
def chunkTeams (l : Launch) (c : Nat) : List Nat :=
  ((List.range 64).map fun i => 64 * c + i).filter fun i => decide (i < teamCount l) && inDomain l i && inPhase l i

/-- Every linear index of the fundamental domain. -/
def domainTeams (l : Launch) : List Nat := (List.range (teamCount l)).filter (inDomain l)

/-- Number of chunks of a launch. -/
def chunkCount (l : Launch) : Nat := (teamCount l + 63) / 64

/-- Those of some chunks that have a team to issue now, ascending. -/
def chunksNow (l : Launch) (own : List Nat) : List Nat :=
  (List.range (chunkCount l)).filter fun c => own.contains c && !(chunkTeams l c).isEmpty

/-- The distributors of a launch at its start: chunk c belongs to distributor c mod D. -/
def freshDists (dies : Nat) (l : Launch) : List Dist :=
  (List.range dies).map fun d =>
    let own := (List.range (chunkCount l)).filter fun c => c % dies = d
    { own := own, chunks := chunksNow l own, now := [], stopped := false, passed := 0, blocks := false }

/-- The distributors of a launch at the start of a phase: each offers the chunks that it owns by now (R285). -/
def phaseDists (l : Launch) : List Dist :=
  l.dists.map fun x => { x with chunks := chunksNow l x.own, now := [], passed := 0, blocks := false }

/-- A distributor's next team. -/
def nextTeam (l : Launch) (d : Nat) : Option Nat :=
  (l.dists[d]?).bind fun x => (x.now ++ (x.chunks.head?.elim [] (chunkTeams l))).head?

/-- A distributor that has offered its next team: the team's chunk no longer counts as remaining (R284). -/
def offered (l : Launch) (x : Dist) : Dist :=
  match x.now with
  | [] => { x with chunks := x.chunks.tail, now := x.chunks.head?.elim [] (chunkTeams l) }
  | _ => x

/-- A distributor past its next team. -/
def tookTeam (l : Launch) (x : Dist) : Dist :=
  { offered l x with now := (offered l x).now.tail, passed := 0, blocks := false }

/-- Whether every team of the present phase has been issued. -/
def allIssued (l : Launch) : Bool := l.dists.all fun d => d.chunks.isEmpty && d.now.isEmpty

/-- An update of one distributor of a launch. -/
def updDist (d : Nat) (f : Dist → Dist) (l : Launch) : Launch :=
  { l with dists := l.dists.zipIdx.map fun e => if e.2 = d then f e.1 else e.1 }

/-! ### Room on a core (R5, R23, R66, R106, R108, R287) -/

/-- The resident teams of a core. -/
def coreTeams (s : State) (core : Nat) : List Team := (allTeams s).filter fun t => t.core = core

/-- The kernel of a team's launch. -/
def kernOf (s : State) (t : Tid) : Kernel := (launch? s t.l).elim .idle Launch.kern

/-- The group slots in use on a core. -/
def slotsUsed (s : State) (core : Nat) : List Nat :=
  (coreTeams s core).flatMap fun t => ((teamGroups s t.id).filter fun g => !g.freed).map Group.slot

/-- The lowest free group slots of a core. -/
def slotsFor (s : State) (core n : Nat) : List Nat :=
  ((List.range 64).filter fun i => !(slotsUsed s core).contains i).take n

/-- The sum of a resource over the teams of a core. -/
def coreSum (s : State) (core : Nat) (f : Kernel → Nat) : Nat :=
  (coreTeams s core).foldl (fun a t => a + f (kernOf s t.id)) 0

/-- Bench bytes of a team with its handler areas (R41). -/
def benchOf (k : Kernel) : Nat := k.bench + 2048 * k.groups

/-- Whether a core can grant everything but the register block. -/
def grantsFit (s : State) (core : Nat) (k : Kernel) : Bool :=
  decide ((slotsUsed s core).length + k.groups ≤ 64) &&
  decide (coreSum s core Kernel.slots + k.slots ≤ 256) &&
  decide (coreSum s core (fun x => x.groups * x.accs) + k.groups * k.accs ≤ 2048) &&
  decide (coreSum s core benchOf + benchOf k ≤ 512 * 1024) &&
  decide (coreSum s core (fun x => x.rings.length) + k.rings.length ≤ 64) &&
  decide (coreSum s core Kernel.tags + k.tags ≤ 64)

/-- Register blocks of a core in ascending order. -/
def insBlock (b : Nat × Nat) : List (Nat × Nat) → List (Nat × Nat)
  | [] => [b]
  | c :: r => if b.1 ≤ c.1 then b :: c :: r else c :: insBlock b r

/-- The gaps between sorted blocks, from a register on, up to 2048. -/
def gapsFrom : Nat → List (Nat × Nat) → List (Nat × Nat)
  | lo, [] => if lo < 2048 then [(lo, 2048 - lo)] else []
  | lo, b :: r => (if lo < b.1 then [(lo, b.1 - lo)] else []) ++ gapsFrom (max lo (b.1 + b.2)) r

/-- The free register blocks of a core: start and length. -/
def freeBlocks (s : State) (core : Nat) : List (Nat × Nat) :=
  gapsFrom 0 ((coreTeams s core).foldl (fun l t => insBlock (t.block, t.regs) l) [])

/-- The largest block, the lowest of equals. -/
def largest (bs : List (Nat × Nat)) : Option (Nat × Nat) :=
  bs.foldl (fun acc b => match acc with
    | none => some b
    | some a => if a.2 < b.2 then some b else some a) none

/-- A full block on a core. -/
def fullBlock (s : State) (core : Nat) (k : Kernel) : Option (Nat × Nat) :=
  ((freeBlocks s core).find? fun b => decide (k.groups * k.regs ≤ b.2)).map fun b => (b.1, k.groups * k.regs)

/-- The largest block of at least W on a core. -/
def partBlock (s : State) (core : Nat) (k : Kernel) : Option (Nat × Nat) :=
  (largest (freeBlocks s core)).bind fun b => if k.window ≤ b.2 then some b else none

/-- Loft bytes reserved in a cluster (R96, R36). -/
def loftUsed (s : State) (p cluster : Nat) : Nat :=
  ((allLaunches s).filter fun l => l.id.part = p && !l.replay && l.reserved).foldl (fun a l => a + l.kern.loft) 0 +
  ((allTeams s).filter fun t => t.id.l.part = p && clusterOf t.core = cluster && ((launch? s t.id.l).any Launch.replay)).foldl
    (fun a t => a + (kernOf s t.id).loft) 0

/-- Yard bytes reserved in a die (R96, R36). -/
def yardUsed (s : State) (p die : Nat) : Nat :=
  ((allLaunches s).filter fun l => l.id.part = p && !l.replay && l.reserved).foldl (fun a l => a + l.kern.yard) 0 +
  ((allTeams s).filter fun t => t.id.l.part = p && dieOf t.core = die && ((launch? s t.id.l).any Launch.replay)).foldl
    (fun a t => a + (kernOf s t.id).yard) 0

/-- Loft bytes of a cluster (R5). -/
def loftCap : Nat := 4 * 1024 * 1024
/-- Yard bytes a partition holds on a die: 32 MiB for each half-die (R325). -/
def yardCap (p : Part) (die : Nat) : Nat :=
  ((if p.halves.contains (2 * die) then 1 else 0) + (if p.halves.contains (2 * die + 1) then 1 else 0)) * (32 * 1024 * 1024)

/-- The clusters of a partition, module-wide. -/
def partClusters (p : Part) : List Nat := ((List.range 16).filter p.halves.contains).flatMap fun h => (List.range 6).map fun i => 6 * h + i

/-- Private loft and yard of a replay task fit where its core lies (R96). -/
def privateFits (s : State) (l : Launch) (core : Nat) : Bool :=
  !l.replay ||
    ((l.kern.loft = 0 || decide (loftUsed s s.p.num (clusterOf core) + l.kern.loft ≤ loftCap)) &&
     (l.kern.yard = 0 || decide (yardUsed s s.p.num (dieOf core) + l.kern.yard ≤ yardCap s.p (dieOf core))))

/-- The backing store of a team fits the pool (R287). -/
def backingFits (s : State) (k : Kernel) (regs : Nat) : Bool :=
  backingBytes k regs = 0 || decide (poolUsed s s.p.num + backingBytes k regs ≤ s.p.regs.spillsize.toNat)

/-- Whether a core can grant everything but the block and the backing store. -/
def coreFits (s : State) (l : Launch) (core : Nat) : Bool := grantsFit s core l.kern && privateFits s l core

/-- The block a team of a launch takes on a core among candidate cores: a full block where any candidate has one (R287). -/
def blockFor (s : State) (l : Launch) (cores : List Nat) (core : Nat) : Option (Nat × Nat) :=
  if !cores.contains core || !coreFits s l core then none
  else
    match fullBlock s core l.kern with
    | some b => some b
    | none =>
      if cores.any fun c => coreFits s l c && (fullBlock s c l.kern).isSome then none
      else (partBlock s core l.kern).bind fun b => if backingFits s l.kern b.2 then some b else none

/-- The cores on which distributor d of a partition places teams. -/
def distCores (p : Part) (d : Nat) : List Nat :=
  match (distDies p)[d]? with
  | none => []
  | some die => (partCores p).filter fun c => dieOf c = die

/-! ### Placing a team (R16, R17, R21, R23) -/

/-- Role class and priority of a group number (R17). -/
def roleOf : List (Nat × Nat) → Nat → Nat × Nat
  | [], _ => (0, 0)
  | (n, prio) :: r, i => if i < n then (0, prio) else let x := roleOf r (i - n); (x.1 + 1, x.2)

/-- Bound of group n of a team with P physical registers (R21). -/
def firstBound (k : Kernel) (regs n : Nat) : Nat :=
  let b := 16 * (regs / (16 * k.groups))
  if k.regs ≤ b then k.regs else if n < (regs - k.groups * b) / 16 then b + 16 else b

/-- A group as it starts (R16): all that happens before its launch's start is before it on every path (R125, R270). -/
def newGroup (l : Launch) (t : Tid) (block regs slot tick n : Nat) : Group :=
  let r := roleOf l.kern.roles n
  { Group.idle with
    id := ⟨t, n⟩, live := true, slot := slot, role := r.1, prio := r.2, bound := firstBound l.kern regs n,
    base := block + ((List.range n).map (firstBound l.kern regs)).sum,
    s := ((Vector.replicate 64 0).set! 0 l.args).set! 62 0xFFFFFFFF, pc := l.entry, since := tick, crossed := l.know }

/-- A team as it starts: bench, slots and private scratchpads zero-filled. -/
def newTeam (l : Launch) (t : Tid) (core block regs : Nat) : Team :=
  { Team.idle with
    id := t, live := true, core := core, block := block, regs := regs,
    rings := l.kern.rings.map fun r => List.replicate r.slots .start,
    tags := List.replicate l.kern.tags ⟨0, false, []⟩, bars := List.replicate 8 ⟨0, [], []⟩ }

/-- A team placed on a core, the launch in focus. -/
def placeTeam (i core : Nat) (b : Nat × Nat) (s : State) : State :=
  let t : Tid := ⟨s.l.id, i⟩
  let slots := slotsFor s core s.l.kern.groups
  let gs := (List.range s.l.kern.groups).map fun n => newGroup s.l t b.1 b.2 (slots.getD n 0) s.tick n
  { s with teams := s.teams ++ [newTeam s.l t core b.1 b.2], groups := s.groups ++ gs }

/-- Whether a launch offers teams now (R288, R291, R298). -/
def offers (l : Launch) : Bool := l.live && l.reserved && !l.held && l.code_.isNone

/-- The launches of a partition that started before one. -/
def earlier (s : State) (l : Launch) : List Launch :=
  (allLaunches s).filter fun x => x.id.part = l.id.part && x.order < l.order

/-- Whether a launch waits for a reservation (R96). -/
def waitsReserve (l : Launch) : Bool := l.live && l.code_.isNone && !l.replay && !l.reserved && (l.kern.loft ≠ 0 || l.kern.yard ≠ 0)

/-- Whether a launch needs loft or yard space, and an earlier one that waits for its own holds it back (R96). -/
def heldBack (s : State) (l : Launch) : Bool := (l.kern.loft ≠ 0 || l.kern.yard ≠ 0) && (earlier s l).any waitsReserve

/-- A block of exactly the floor window on a core. -/
def floorBlock (s : State) (l : Launch) (core : Nat) : Option (Nat × Nat) :=
  if coreFits s l core && backingFits s l.kern l.kern.window then
    ((freeBlocks s core).find? fun b => decide (l.kern.window ≤ b.2)).map fun b => (b.1, l.kern.window)
  else none

/-- The cores of a die that a partition holds. -/
def dieCores (p : Part) (die : Nat) : List Nat := (partCores p).filter fun c => dieOf c = die

/-- Teams that a core can hold at once at their floor window with all their other grants (R25). -/
def coreHolds (k : Kernel) : Nat :=
  let lim := fun (cap use : Nat) (n : Nat) => if use = 0 then n else min n (cap / use)
  lim 2048 k.window (lim 64 k.groups (lim 256 k.slots (lim 2048 (k.groups * k.accs) (lim (512 * 1024) (benchOf k)
    (lim 64 k.rings.length (lim 64 k.tags 64))))))

/-- Whether the die of every distributor can hold the teams that it owns, as if no other launch were resident. -/
def ownersHold (p : Part) (l : Launch) : Bool :=
  l.dists.zipIdx.all fun x => decide ((x.1.own.flatMap (chunkTeams l)).length ≤ (distCores p x.2).length * coreHolds l.kern)

/-- The cores that a cohort's team may stand on: those of its distributor's die (R287) where the dies can hold what their distributors
own; where they cannot, those of the whole partition, since it is what must hold the cohort (R25; DESIGN CHOICE, unsafe:
notes/assumptions/60.md). -/
def cohortCores (p : Part) (l : Launch) (team : Nat) : List Nat :=
  if ownersHold p l then
    l.dists.zipIdx.flatMap fun x => if x.1.own.contains (team / 64) then distCores p x.2 else []
  else partCores p

/-- The block that a cohort's team takes on a core: as R287 has it, or its floor window. -/
def cohortBlock (floor : Bool) (s : State) (core : Nat) : Option (Nat × Nat) :=
  if !(partCores s.p).contains core then none
  else if floor then floorBlock s s.l core else blockFor s s.l (dieCores s.p (dieOf core)) core

/-- Every team of a cohort placed on its core, in ascending linear index; none where one does not fit (R25). -/
def placeAll (floor : Bool) : List (Nat × Nat) → State → Option State
  | [], s => some s
  | (i, c) :: xs, s =>
    match cohortBlock floor s c with
    | none => none
    | some b => placeAll floor xs (placeTeam i c b s)

/-- A cohort placed with the blocks of R287, or with every team at its floor window where those do not all fit (R25). -/
def placeCohort (xs : List (Nat × Nat)) (s : State) : Option State :=
  match placeAll false xs s with
  | some t => some t
  | none => placeAll true xs s

/-- The cores that a cohort's teams take, one by one, each the first that has a block; since its teams all need the same, none fits
elsewhere where one finds none here. -/
def cohortPick (floor : Bool) : List Nat → State → List Nat
  | [], _ => []
  | i :: is, s =>
    match (cohortCores s.p s.l i).find? fun c => (cohortBlock floor s c).isSome with
    | none => []
    | some c => c :: cohortPick floor is (placeTeam i c ((cohortBlock floor s c).getD (0, 0)) s)

/-- Whether all teams of a cohort could be placed together now (R25). -/
def cohortRoom (l : Launch) (s : State) : Bool :=
  let s := focusLaunch l.id (focusPart l.id.part s)
  [false, true].any fun floor => (cohortPick floor (domainTeams l) s).length = (domainTeams l).length

/-- Whether distributor d could place the next team of a launch now; a cohort's only with all the others (R25). -/
def placeable (s : State) (d : Nat) (l : Launch) : Bool :=
  offers l && !heldBack s l && (nextTeam l d).isSome &&
    if l.cohort then cohortRoom l s else (distCores s.p d).any fun c => (blockFor s l (distCores s.p d) c).isSome

/-- Whether distributor d has a team of a launch to offer. -/
def waitsHere (d : Nat) (l : Launch) : Bool := offers l && (nextTeam l d).isSome

/-- A waiting launch of distributor d offered once more and passed over; its team blocks the die after 4096 times (R288). -/
def passOver (d : Nat) (l : Launch) : Launch :=
  updDist d (fun x => { offered l x with passed := x.passed + 1, blocks := x.blocks || decide (4096 ≤ x.passed + 1) }) l

/-- The number that a die's distributor has in a launch's partition. -/
def distOn (s : State) (die : Nat) (l : Launch) : Option Nat :=
  (part? s l.id.part).bind fun p => (distDies p).findIdx? fun x => x = die

/-- Whether a launch started before another: in one partition by its order, else by the time of its start. -/
def startedBefore (x l : Launch) : Bool :=
  x.id ≠ l.id && if x.id.part = l.id.part then decide (x.order < l.order) else decide (x.begun < l.begun)

/-- The launches of every partition that started before one and that wait for a die's distributor to place a team (R288). -/
def waitsBefore (s : State) (die : Nat) (l : Launch) : List Launch :=
  (allLaunches s).filter fun x => startedBefore x l && (distOn s die x).any fun d => waitsHere d x

/-- The launches of which a team blocks every later placement on a die. -/
def blocking (s : State) (die : Nat) : List Launch :=
  (allLaunches s).filter fun x => (distOn s die x).any fun d => waitsHere d x && (x.dists[d]?).any Dist.blocks

/-- The launch whose team blocks every later placement on a die: the first started of several (R288). -/
def blocker (s : State) (die : Nat) : Option Lid :=
  ((blocking s die).find? fun x => (blocking s die).all fun y => y.id = x.id || startedBefore x y).map Launch.id

/-- Whether a team of another launch keeps a launch off a die (R288). Of two cohorts that block different dies the one that started first
goes before the other's team, since each needs all its dies at once (DESIGN CHOICE, unsafe: notes/assumptions/60.md). -/
def keptOff (s : State) (die : Nat) (l : Launch) : Bool :=
  (blocker s die).any fun b => b ≠ l.id &&
    !(l.cohort && l.dists.any Dist.blocks && (launch? s b).any fun x => x.cohort && startedBefore l x)

/-- Whether no block keeps a launch off a die; of a cohort, off any die of its partition (R25). -/
def unblocked (s : State) (die : Nat) (l : Launch) : Bool :=
  !keptOff s die l && (!l.cohort || ((part? s l.id.part).elim [] distDies).all fun x => !keptOff s x l)

/-- Whether the next team of a launch could be placed on a die now. -/
def placeableOn (s : State) (die : Nat) (l : Launch) : Bool :=
  unblocked s die l && (distOn s die l).any fun d => placeable (focusPart l.id.part s) d l

/-- Whether a launch is the one to be offered a die now: its team blocks the die, or no block keeps it off and no launch that started
earlier could be placed there (R288). -/
def turnOn (s : State) (die : Nat) (l : Launch) : Bool :=
  blocker s die = some l.id || (!keptOff s die l && !(waitsBefore s die l).any (placeableOn s die))

/-- The die of distributor d of the partition in focus. -/
def dieOfDist (s : State) (d : Nat) : Nat := (distDies s.p).getD d 8

/-- The earlier launches that wait on a die when a team of the launch in focus is placed there: they were passed over once more. -/
def passedOver (die : Nat) (s : State) : State :=
  (waitsBefore s die s.l).foldl (fun s x => (distOn s die x).elim s fun e => updLaunch x.id (passOver e) s) s

/-- The bookkeeping of one placement by distributor d. -/
def placed (d : Nat) (s : State) : State :=
  let s := passedOver (dieOfDist s d) s
  { s with l := updDist d (tookTeam s.l) s.l }

/-- TEAM_PLACE (R287, R288): the next team of a launch offered; it is placed on a core that can take it, where it is its launch's turn. -/
def execTeamPlace (l : Lid) (dist core : Nat) (s : State) : Out :=
  let s := focusLaunch l (focusPart l.part s)
  let die := dieOfDist s dist
  if s.l.live && s.l.id = l && s.p.live && s.p.num = l.part && s.p.tdisp = .run && offers s.l && !s.l.cohort &&
      turnOn s die s.l then
    match nextTeam s.l dist, (if heldBack s s.l then none else blockFor s s.l (distCores s.p dist) core) with
    | some i, some b => .next (placed dist (placeTeam i core b s))
    | _, _ => .next { s with l := if placeable s dist s.l then s.l else updDist dist (offered s.l) s.l }
  else .next s

/-- COHORT_PLACEMENT (R25): all teams in one step; `cores` names a core for each team of the domain. It takes its turn on every die of
its partition as R288 states, and each placement passes over the earlier launches that wait on its die. -/
def execCohortPlacement (l : Lid) (cores : List Nat) (s : State) : Out :=
  let s := focusLaunch l (focusPart l.part s)
  let ts := domainTeams s.l
  if s.l.live && s.l.id = l && s.p.live && s.p.num = l.part && s.p.tdisp = .run && s.l.cohort && !s.l.placedAll && s.l.reserved &&
      !s.l.held && s.l.code_.isNone && cores.length = ts.length && ((ts.zip cores).all fun x => (cohortCores s.p s.l x.1).contains x.2) &&
      (distDies s.p).all (fun x => turnOn s x s.l) then
    match placeCohort (ts.zip cores) s with
    | none => .next s
    | some s =>
      let s := cores.foldl (fun s c => passedOver (dieOf c) s) s
      .next { s with l := { s.l with
        placedAll := true, dists := s.l.dists.map fun d => { d with chunks := [], now := [], passed := 0, blocks := false } } }
  else .next s

/-- LOFT_YARD_RESERVE (R96): every instance at once, in the order of starting. -/
def execLoftYardReserve (l : Lid) (s : State) : Out :=
  let s := focusLaunch l (focusPart l.part s)
  if s.l.live && s.l.id = l && s.p.live && s.p.num = l.part && waitsReserve s.l && !heldBack s s.l &&
      ((partClusters s.p).all fun c => decide (loftUsed s s.p.num c + s.l.kern.loft ≤ loftCap)) &&
      ((distDies s.p).all fun d => decide (yardUsed s s.p.num d + s.l.kern.yard ≤ yardCap s.p d)) then
    .next { s with l := { s.l with reserved := true } }
  else .next s

/-- The chunks a victim grants: the floor(r/2) highest-numbered of r ≥ 2; they are its own no longer. -/
def stealFrom (x : Dist) : Option (List Nat × Dist) :=
  let r := x.chunks.length
  let got := x.chunks.drop (r - r / 2)
  if 2 ≤ r then some (got, { x with chunks := x.chunks.take (r - r / 2), own := x.own.filter fun c => !got.contains c }) else none

/-- The first distributor in ring order that grants chunks. -/
def stealVictim (ds : List Dist) (thief : Nat) : Option Nat :=
  ((List.range (ds.length - 1)).map fun i => (thief + 1 + i) % ds.length).find? fun v => (ds[v]?).any fun x => (stealFrom x).isSome

/-- DISTRIBUTOR_STEAL (R285). -/
def execDistributorSteal (l : Lid) (thief : Nat) (s : State) : Out :=
  let s := focusLaunch l s
  if s.l.live && s.l.id = l && ((s.l.dists[thief]?).any fun x => x.chunks.isEmpty && !x.stopped) && !allIssued s.l then
    match stealVictim s.l.dists thief with
    | none => .next { s with l := updDist thief (fun x => { x with stopped := true }) s.l }
    | some v =>
      match (s.l.dists[v]?).bind stealFrom with
      | none => .next s
      | some (got, rest) => .next { s with l := updDist thief (fun x => { x with chunks := got, own := x.own ++ got }) (updDist v (fun _ => rest) s.l) }
  else .next s

/-- PLACEMENT_STARVATION (R288): a team passed over 4096 times blocks every later placement on its die; `passOver` has seen to it
already when the count was reached. -/
def execPlacementStarvation (l : Lid) (dist : Nat) (s : State) : Out :=
  let s := focusLaunch l (focusPart l.part s)
  if s.l.live && s.l.id = l && s.p.live && s.p.num = l.part && waitsHere dist s.l &&
      ((s.l.dists[dist]?).any fun x => decide (4096 ≤ x.passed)) then
    .next { s with l := updDist dist (fun x => { x with blocks := true }) s.l }
  else .next s

/-! ### The end of groups and teams (R24, R298) -/

/-- Whether all a group issued is complete (R24). -/
def drained (g : Group) : Bool :=
  g.lane.isEmpty && g.copies.isEmpty && g.mapops.isEmpty && g.bobs.isEmpty && g.imgs.isEmpty && g.frees.isEmpty

/-- Whether a group's slot may be freed: it has exited, or its launch has ended. -/
def mayFree (s : State) (g : Group) : Bool :=
  !g.freed && drained g && (g.exited || ((launch? s g.id.t.l).any fun l => l.code_.isSome))

/-- What a group of an ended team brings to its launch's end (R125): all that happens before its accesses, on every path. -/
def groupKnow (s : State) (g : Group) : List Crossing :=
  let own : List Crossing := g.crossed.map fun c => { c with onto := none, from_ := 0 }
  let seen := s.recs.filter fun r => g.observed.any fun o => o.op = r.op
  let all := own ++ seen.map fun r => ⟨r.op, r.path, none, none, 0, none⟩
  (all.filter fun c => c.op.k.t ≠ g.id.t && s.recs.any fun r => r.op = c.op).eraseDups

/-- A team's record gone: what it owned is released and lost, its task has ended, and all its accesses are performed at .dev and happen
before the launch's end with what they follow (R125). -/
def endTeam (t : Tid) (s : State) : State :=
  let know := (teamGroups s t).flatMap (groupKnow s)
  let s := updLaunch t.l (fun l =>
    { updTask t.team (fun k => { k with ended := true }) l with ended := t.team :: l.ended, endKnow := (know ++ l.endKnow).eraseDups }) s
  let s := updPart t.l.part (fun p => { p with fb := p.fb.filter fun e => e.k.t ≠ t }) s
  settleTeam t { s with
    g := if s.g.id.t = t then { s.g with live := false } else s.g
    groups := s.groups.filter fun g => g.id.t ≠ t
    t := if s.t.id = t then { s.t with live := false } else s.t
    teams := s.teams.filter fun x => x.id ≠ t }

/-- A group's slot freed; the team ends with its last group. -/
def freeSlot (k : Gid) (s : State) : State :=
  let s := updGroup k (fun g => { g with freed := true, exited := true, wait := .none, park := none }) s
  if (teamGroups s k.t).all Group.freed then endTeam k.t s else s

/-- GROUP_SLOT_FREE (R24). -/
def execGroupSlotFree (k : Gid) (s : State) : Out :=
  match group? s k with
  | none => .next s
  | some g => if mayFree s g then .next (freeSlot k s) else .next s

end Sys2Proof.Machine
end

