-- ==== Sys2Proof/Machine/Image.lean ====
section
/-!
DEFINITION. What a LAUNCH reads and checks when it starts: the Dvoronaco image and its kernel descriptor (R155 to R158, R41, R42,
R108), then the dispatch checks (R25, R38, R29, R315) and the phases (R30).
-/
namespace Sys2Proof.Machine

/-- An n-byte number of a byte string. -/
def nat_ (b : List Byte) (at_ n : Nat) : Nat := leNat ((b.drop at_).take n)

/-! ### The header (R155) -/

/-- Whether two byte ranges, start and length, share a byte. -/
def meetR (a b : Nat × Nat) : Bool := a.1 < b.1 + b.2 && b.1 < a.1 + a.2

/-- Whether ranges are pairwise apart. -/
def apart : List (Nat × Nat) → Bool
  | [] => true
  | a :: r => (r.all fun b => !meetR a b) && apart r

/-- IMGSIZE. -/
def imgSize (h : List Byte) : Nat := nat_ h 8 8
/-- KTAB. -/
def imgKtab (h : List Byte) : Nat := nat_ h 16 8
/-- CODE. -/
def imgCode (h : List Byte) : Nat := nat_ h 48 8

/-- The tables and the code of an image. -/
def imgParts (h : List Byte) : List (Nat × Nat) :=
  [(imgKtab h, 128 * nat_ h 6 2), (imgCode h, nat_ h 56 8), (nat_ h 32 8, 32 * nat_ h 40 4)]

/-- The parts that must stand apart: the tables and the code, with the first byte of the string table, whose length the header does not
give. -/
def imgApart (h : List Byte) : List (Nat × Nat) := (nat_ h 24 8, 1) :: (imgParts h).filter fun r => r.2 ≠ 0

/-- The header meets R155 as far as the engine reads the image, and the kernel index is in range (R158 check 2). -/
def headerOk (h : List Byte) (idx : Nat) : Bool :=
  h.take 4 = [0x44, 0x56, 0x52, 0x4E] && nat_ h 4 2 = 1 && decide (1 ≤ nat_ h 6 2) && decide (nat_ h 6 2 ≤ 4096) &&
  imgSize h % 16 = 0 && imgKtab h % 64 = 0 && nat_ h 32 8 % 32 = 0 && (nat_ h 40 4 ≠ 0 || nat_ h 32 8 = 0) && nat_ h 44 4 = 0 &&
  imgCode h % 16 = 0 && nat_ h 56 8 % 16 = 0 && decide (16 ≤ nat_ h 56 8) && decide (nat_ h 24 8 < imgSize h) &&
  ((imgParts h).all fun r => decide (r.1 + r.2 ≤ imgSize h)) && apart (imgApart h) &&
  decide (idx < nat_ h 6 2)

/-! ### The kernel descriptor (R156, R157) -/

/-- A generator word (R157); none where it breaks a rule. -/
def genWord (x : Nat) : Option Gen :=
  let kind := bitsAt x 0 2
  let a := bitsAt x 2 2
  let b := bitsAt x 4 2
  let anti := bitsAt x 7 1 = 1
  let shift := bitsAt x 8 32
  if bitsAt x 40 24 ≠ 0 ∨ bitsAt x 6 1 ≠ 0 ∨ a = 3 ∨ b = 3 then none
  else
    match kind with
    | 1 => if shift = 0 ∧ a < b then some (.trans a b anti) else none
    | 2 => if shift = 0 ∧ b = 0 then some (.refl a anti) else none
    | 3 => if b = 0 then some (.cyc a shift anti) else none
    | _ => none

/-- The generators of a descriptor; none where they are malformed. -/
def gensOf (d : List Byte) : Option (List Gen) :=
  let x := nat_ d 72 8
  let y := nat_ d 80 8
  if x = 0 then (if y = 0 then some [] else none)
  else
    match genWord x with
    | none => none
    | some g => if y = 0 then some [g] else (genWord y).map fun h => [g, h]

/-- Role classes: count and priority. -/
def rolesOf (d : List Byte) : List (Nat × Nat) :=
  ((List.range 4).map fun c => (nat_ d (68 + c) 1 % 64, nat_ d (68 + c) 1 / 64)).takeWhile fun r => r.1 ≠ 0

/-- Present classes stand without a gap, absent ones are zero, and counts sum to G. -/
def rolesOk (d : List Byte) : Bool :=
  let n := (rolesOf d).length
  ((List.range 4).all fun c => decide (c < n) || nat_ d (68 + c) 1 = 0) && ((rolesOf d).map Prod.fst).sum = nat_ d 44 2

/-- A handler offset: absent, or a word of the kernel's code. -/
def handlerAt (d : List Byte) (at_ : Nat) : Option Nat := if nat_ d at_ 8 = 2 ^ 64 - 1 then none else some (nat_ d at_ 8)

/-- Whether a handler offset meets R158. -/
def handlerOk (d : List Byte) (at_ : Nat) : Bool :=
  (handlerAt d at_).all fun o => o % 16 = 0 && decide (nat_ d 8 8 ≤ o) && decide (o < nat_ d 8 8 + nat_ d 16 8)

/-- A ring entry (R157). -/
def ringOf (x : Nat) : RingDecl := { offset := bitsAt x 0 32, slots := bitsAt x 32 8, size := 64 * bitsAt x 40 24 }

/-- CLASS. -/
def className (d : List Byte) : List Byte := (d.drop 24).take 16
/-- "ZM9", zero-padded. -/
def zm9Name : List Byte := [0x5A, 0x4D, 0x39] ++ List.replicate 13 0
/-- FLOOR. -/
def kFloor (d : List Byte) : Bool := nat_ d 40 4 % 2 = 1
/-- Whether the descriptor names a class. -/
def hasClass (d : List Byte) : Bool := nat_ d 24 16 ≠ 0

/-- The kernel name: 1 to 63 characters and a zero byte. -/
def nameOk (bs : List Byte) : Bool :=
  let n := (bs.takeWhile fun b => b ≠ 0).length
  decide (1 ≤ n) && decide (n ≤ 63) && decide (n < bs.length)

/-- A size rounded up to its granule (R94). -/
def roundUp (n granule : Nat) : Nat := (n + granule - 1) / granule * granule

/-- The kernel a descriptor and its rings declare; the allocations are the rounded sizes. -/
def kernelOf (d : List Byte) (rings : List RingDecl) (gens : List Gen) : Kernel :=
  { groups := nat_ d 44 2, window := nat_ d 46 2, regs := nat_ d 48 2, slots := nat_ d 50 2, maps := nat_ d 52 1, accs := nat_ d 53 1,
    tags := nat_ d 54 1, bench := roundUp (nat_ d 56 4) 1024, loft := roundUp (nat_ d 60 4) 65536,
    yard := roundUp (nat_ d 64 4) 65536, roles := rolesOf d, rings := rings, gens := gens, replay := nat_ d 40 4 / 2 % 2 = 1,
    hIllegal := handlerAt d 96, hRefine := handlerAt d 104, hShape := handlerAt d 112 }

/-- Check 3 of R158: multiples, lower bounds and the fields that are no resource (notes/assumptions/24.md). -/
def descOk3 (h d : List Byte) : Bool :=
  let g := nat_ d 44 2
  let w := nat_ d 46 2
  let v := nat_ d 48 2
  nat_ d 8 8 % 16 = 0 && nat_ d 16 8 % 16 = 0 && decide (16 ≤ nat_ d 16 8) && decide (nat_ d 8 8 + nat_ d 16 8 ≤ nat_ h 56 8) &&
  decide (nat_ d 40 4 < 4) && decide (1 ≤ g) && decide (16 ≤ v) && v % 16 = 0 && w % 16 = 0 && decide (16 * g ≤ w) &&
  decide (w ≤ g * v) && rolesOk d && (gensOf d).isSome && nat_ d 88 8 % 8 = 0 && (nat_ d 55 1 ≠ 0 || nat_ d 88 8 = 0) &&
  decide (nat_ d 88 8 + 8 * nat_ d 55 1 ≤ imgSize h) && handlerOk d 96 && handlerOk d 104 && handlerOk d 112 && nat_ d 120 8 = 0 &&
  !(kFloor d && hasClass d)

/-- The columns of R41: V, M, S, A, window, G, bench, rings, tags. -/
def limitsOf (floor : Bool) : List Nat :=
  if floor then [64, 8, 16, 16, 128, 8, 64 * 1024, 4, 16] else [256, 14, 256, 64, 2048, 32, 448 * 1024, 16, 64]

/-- Whether a kernel stays within a column. -/
def withinLimits (floor : Bool) (k : Kernel) : Bool :=
  ([k.regs, k.maps, k.slots, k.accs, k.groups * k.accs, k.groups, k.bench, k.rings.length, k.tags].zip (limitsOf floor)).all
    fun x => decide (x.1 ≤ x.2)

/-- Check 4 of R158. -/
def classOk (p : Part) (d : List Byte) (k : Kernel) : Bool :=
  (!hasClass d || className d = zm9Name) && withinLimits (!hasClass d) k && decide (k.loft ≤ loftCap) &&
    (distDies p).all fun x => decide (k.yard ≤ yardCap p x)

/-- The fields of ring entries meet R157 (R158 check 3). -/
def ringFieldsOk (k : Kernel) : Bool := k.rings.all fun r => decide (2 ≤ r.slots) && decide (r.slots ≤ 16) && decide (64 ≤ r.size)

/-- Check 5 of R158: the rings lie inside the bench allocation and apart from one another (R108). -/
def ringsOk (k : Kernel) : Bool :=
  (k.rings.all fun r => decide (r.offset + r.slots * r.size ≤ k.bench)) && apart (k.rings.map fun r => (r.offset, r.slots * r.size))

/-- A loaded kernel with the addresses of its code and its entry word. -/
structure Loaded where
  kern : Kernel
  code : W64
  entry : W64
  deriving DecidableEq, Repr

/-- Load-failure codes (R43). -/
def errImage : W64 := BitVec.ofInt 64 (-22)
/-- CLASS_UNSUPPORTED. -/
def errClass_ : W64 := BitVec.ofInt 64 (-17)
/-- RING_INVALID. -/
def errRing : W64 := BitVec.ofInt 64 (-21)
/-- REPLAY_COHORT. -/
def errCohort : W64 := BitVec.ofInt 64 (-20)
/-- SYMMETRY_INVALID. -/
def errSym : W64 := BitVec.ofInt 64 (-19)
/-- TASK_TABLE_INVALID. -/
def errTasks : W64 := BitVec.ofInt 64 (-18)
/-- COHORT_UNPLACEABLE. -/
def errPlace : W64 := BitVec.ofInt 64 (-16)
/-- ENGINE_FAULT (R280). -/
def errEngine : W64 := BitVec.ofInt 64 (-35)

/-- The bytes of a kernel name as far as they may reach: to 64 bytes or the end of the image. -/
def nameBytes (s : State) (image : W64) (h d : List Byte) : Option (List Byte) :=
  let o := nat_ h 24 8 + nat_ d 0 8
  let n := min 64 (imgSize h - o)
  (List.range n).foldl (fun acc i => match acc with
    | none => none
    | some bs => if bs.getLast? = some 0 then some bs else (virtRead s (image + BitVec.ofNat 64 (o + i)) 1).map fun b => bs ++ b) (some [])

/-- The physical bytes of n virtual bytes, where all of them translate. -/
def virtLocs (s : State) (va : W64) (n : Nat) : List Loc :=
  let w : Want := ⟨true, false, false⟩
  if (virtBad s w va n).isSome then [] else runLocs (virtRuns s w va n)

/-- The bytes that the image checks read (R158): the header, then the descriptor, then the kernel's name and its rings. -/
def imageReads (s : State) (image : W64) (idx : Nat) : List Loc :=
  let at_ := fun (n : Nat) => image + BitVec.ofNat 64 n
  virtLocs s image 64 ++
    match virtRead s image 64 with
    | none => []
    | some h =>
      if !headerOk h idx then []
      else
        let da := at_ (imgKtab h + 128 * idx)
        virtLocs s da 128 ++
          match virtRead s da 128 with
          | none => []
          | some d =>
            if descOk3 h d then
              virtLocs s (at_ (nat_ h 24 8 + nat_ d 0 8)) (((nameBytes s image h d).getD []).length) ++
                virtLocs s (at_ (nat_ d 88 8)) (8 * nat_ d 55 1)
            else []

/-- The image checks of R158 on a kernel of an image. -/
def loadImage (s : State) (image : W64) (idx : Nat) : Except W64 Loaded :=
  match virtRead s image 64 with
  | none => .error errImage
  | some h =>
    if !headerOk h idx then .error errImage
    else
      match virtRead s (image + BitVec.ofNat 64 (imgKtab h + 128 * idx)) 128 with
      | none => .error errImage
      | some d =>
        if !descOk3 h d then .error errImage
        else
          match nameBytes s image h d, virtRead s (image + BitVec.ofNat 64 (nat_ d 88 8)) (8 * nat_ d 55 1), gensOf d with
          | some nm, some rb, some gens =>
            let k := kernelOf d ((List.range (nat_ d 55 1)).map fun r => ringOf (nat_ rb (8 * r) 8)) gens
            if !nameOk nm || !ringFieldsOk k then .error errImage
            else if !classOk s.p d k then .error errClass_
            else if !ringsOk k then .error errRing
            else .ok { kern := k, code := image + BitVec.ofNat 64 (imgCode h), entry := image + BitVec.ofNat 64 (imgCode h + nat_ d 8 8) }
          | _, _, _ => .error errImage

/-! ### Dispatch (R272) -/

/-- Dimensions of a generator. -/
def genDims : Gen → List Nat
  | .trans a b _ => [a, b]
  | .refl d _ => [d]
  | .cyc d _ _ => [d]

/-- The rules of R38 on a generator against the grid. -/
def genGridOk (l : Launch) : Gen → Bool
  | .trans a b _ => gridSize l a = gridSize l b
  | .refl _ _ => true
  | .cyc d s _ => decide (1 ≤ s) && decide (s ≤ gridSize l d - 1)

/-- SYMMETRY_INVALID does not hold. -/
def symOk (l : Launch) : Bool :=
  l.kern.gens.all (genGridOk l) &&
    match l.kern.gens with
    | [x, y] => (genDims x).all fun d => !(genDims y).contains d
    | _ => true

/-- Region k of a table entry. -/
def regionAt (e : List Byte) (at_ k : Nat) : W64 × W64 :=
  (BitVec.ofNat 64 (nat_ e (at_ + 16 * k) 8), BitVec.ofNat 64 (nat_ e (at_ + 16 * k + 8) 8))

/-- A used region meets R315. -/
def regionOk (r : W64 × W64) : Bool :=
  let last := r.1.toNat + r.2.toNat - 1
  wellFormed r.1 && decide (1 ≤ r.2.toNat) && decide (r.2.toNat ≤ 2 ^ 40) && decide (last < 2 ^ 64) &&
    wellFormed (BitVec.ofNat 64 last) && ((BitVec.ofNat 64 last).getLsbD 55 = r.1.getLsbD 55)

/-- An entry of the task table meets R315. -/
def entryOk (regions : Bool) (e : List Byte) : Bool :=
  let rc := nat_ e 8 1
  let wc := nat_ e 9 1
  decide (rc ≤ 4) && decide (wc ≤ 4) && nat_ e 10 6 = 0 && (if regions then decide (1 ≤ rc + wc) else rc + wc = 0) &&
  nat_ e (16 + 16 * rc) (64 - 16 * rc) = 0 && nat_ e (80 + 16 * wc) (64 - 16 * wc) = 0 &&
  ((List.range rc).all fun k => regionOk (regionAt e 16 k)) && ((List.range wc).all fun k => regionOk (regionAt e 80 k))

/-- The task of an entry. -/
def taskOfEntry (team : Nat) (e : List Byte) : Task :=
  { team := team, id := BitVec.ofNat 64 (nat_ e 0 8), phase := 0, reads := (List.range (nat_ e 8 1)).map (regionAt e 16),
    writes := (List.range (nat_ e 9 1)).map (regionAt e 80), buf := [], recs := [], ended := false }

/-- A task without a table (R29, R39). -/
def defaultTask (team : Nat) : Task :=
  { team := team, id := BitVec.ofNat 64 team, phase := 0, reads := [], writes := [], buf := [], recs := [], ended := false }

/-- The tasks of the teams that run, from the entries of a table. -/
def entryTasks (s : State) (table : W64) (regions : Bool) : List Nat → Option (List Task)
  | [] => some []
  | t :: ts =>
    match virtRead s (table + BitVec.ofNat 64 (64 + 144 * t)) 144 with
    | none => none
    | some e => if entryOk regions e then (entryTasks s table regions ts).map fun r => taskOfEntry t e :: r else none

/-- Whether task IDs are pairwise distinct. -/
def idsApart : List Task → Bool
  | [] => true
  | t :: ts => (ts.all fun u => u.id ≠ t.id) && idsApart ts

/-- The bytes of a task table that are read (R315): its header, and the entries of the teams that run. -/
def tableReads (s : State) (l : Launch) (table : W64) : List Loc :=
  virtLocs s table 64 ++
    if (virtNat s table 8).any fun n => n = teamCount l then
      (domainTeams l).flatMap fun t => virtLocs s (table + BitVec.ofNat 64 (64 + 144 * t)) 144
    else []

/-- The task table of a replay launch (R315); none where it breaks a rule. -/
def tableTasks (s : State) (l : Launch) (table : W64) : Option (List Task) :=
  match virtRead s table 64 with
  | none => none
  | some h =>
    let entries := nat_ h 0 8
    let flags := nat_ h 8 4
    let written := (virtBad s ⟨true, true, false⟩ (table + 16) 32).isNone
    if flags < 2 ∧ nat_ h 12 4 = 0 ∧ nat_ h 48 16 = 0 ∧ written then
      if entries = 0 then (if flags = 0 then some ((domainTeams l).map defaultTask) else none)
      else if entries = teamCount l then
        (entryTasks s table (flags = 1) (domainTeams l)).bind fun ts => if idsApart ts then some ts else none
      else none
    else none

/-- Tasks in ascending ID. -/
def insTask (t : Task) : List Task → List Task
  | [] => [t]
  | u :: us => if t.id.toNat < u.id.toNat then t :: u :: us else u :: insTask t us

/-- Tasks sorted by ID. -/
def sortTasks (ts : List Task) : List Task := ts.foldl (fun acc t => insTask t acc) []

/-- Whether two regions share a virtual byte (R316). -/
def regionsMeet (a b : W64 × W64) : Bool := meetR (a.1.toNat, a.2.toNat) (b.1.toNat, b.2.toNat)

/-- Whether any region of one list meets any of another. -/
def anyMeet (a b : List (W64 × W64)) : Bool := a.any fun x => b.any fun y => regionsMeet x y

/-- The phase of a task after the tasks of lower ID (R30). -/
def phaseOf (before : List Task) (t : Task) : Nat :=
  before.foldl (fun n u => if anyMeet u.writes t.reads || anyMeet u.writes t.writes then max n (u.phase + 1) else n) 0

/-- Phases assigned in ascending task ID. -/
def assignPhases (ts : List Task) : List Task :=
  (sortTasks ts).foldl (fun done t => done ++ [{ t with phase := phaseOf done t }]) []

/-- COHORT_UNPLACEABLE does not hold: the cores of the partition can hold every domain team at once, as if no other launch were resident
(R25, R286); the launch's loft and yard instances fit by check 4 of R158. -/
def cohortFits (p : Part) (l : Launch) : Bool := decide ((domainTeams l).length ≤ (partCores p).length * coreHolds l.kern)

/-- A launch before its dispatch checks. -/
def launchOf (s : State) (q : Queue) (pkt : W64) (mem : Nat) (bundle : Option Nat) (csig : Option (W64 × W64)) (x : Loaded)
    (gx gy gz : Nat) (args : W64) (mode : Nat) (table : Option W64) : Launch :=
  let replay := mode % 2 = 1 || x.kern.replay
  { Launch.idle with
    id := ⟨s.p.num, pkt.toNat / 8 % 2 ^ 54 * 1024 + mem * 128 + q.num⟩, live := true, order := s.p.starts, kern := x.kern, code := x.code,
    entry := x.entry, replay := replay, cohort := mode / 2 % 2 = 1, gx := gx, gy := gy, gz := gz, args := args, queue := q.num,
    pkt := pkt, csig := csig, bundle := bundle, table := table, reserved := replay || (x.kern.loft = 0 && x.kern.yard = 0),
    begun := s.tick + 1, know := everyPath s q.know }

/-- The dispatch checks in the order of R272, and the launch with its tasks and chunks. -/
def dispatchCheck (s : State) (l : Launch) : Except W64 Launch :=
  if l.replay && l.cohort then .error errCohort
  else if !symOk l then .error errSym
  else
    let tasks := if !l.replay then (if l.table.isSome then none else some [])
      else match l.table with
        | none => some ((domainTeams l).map defaultTask)
        | some t => tableTasks s l t
    match tasks with
    | none => .error errTasks
    | some ts =>
      let l := { l with tasks := assignPhases ts }
      if l.cohort && !cohortFits s.p l then .error errPlace
      else .ok { l with dists := freshDists (distDies s.p).length l }

end Sys2Proof.Machine
end

