-- ==== Sys2Proof/Machine/Seam.lean ====
section
/-!
DEFINITION. The seam of a replay launch (R32, R33, R320 to R322): both passes and the report of a conflict.
-/
namespace Sys2Proof.Machine

/-- The tasks of the launch's present phase, in ascending task ID. -/
def phaseTasks (l : Launch) : List Task := sortTasks (l.tasks.filter fun t => t.phase = l.phase)

/-- The highest phase. -/
def lastPhase (l : Launch) : Nat := l.tasks.foldl (fun n t => max n t.phase) 0

/-- Bytes a record targets: physical address beside the virtual one. -/
def recBytes (r : RedRec) : List (Nat × W64) := (List.range r.w).map fun i => (r.addr + i, r.va + BitVec.ofNat 64 i)

/-- Whether a task has reduced a byte. -/
def reduces (t : Task) (addr : Nat) : Bool := t.recs.any fun r => r.addr ≤ addr && addr < r.addr + r.w

/-- Whether a task has masked a byte. -/
def masks (t : Task) (addr : Nat) : Bool := t.buf.any fun b => b.addr = addr

/-- The bytes with a conflict of R33. -/
def conflicts (ts : List Task) : List Nat :=
  (ts.flatMap fun t => (t.buf.filter fun b =>
    b.bad || (ts.any fun u => reduces u b.addr) || decide (1 < (ts.filter fun u => masks u b.addr).length)).map BufByte.addr).eraseDups

/-- The lower of an optional address and another. -/
def lowerVa (acc : Option W64) (x : W64) : Option W64 :=
  match acc with
  | none => some x
  | some a => if x.toNat < a.toNat then some x else some a

/-- CADDR: the lowest virtual address by which any task reached a conflicting byte (R321). -/
def conflictVa (ts : List Task) (bad : List Nat) : W64 :=
  let vas := ts.flatMap fun t =>
    ((t.buf.filter fun b => bad.contains b.addr).map BufByte.low) ++
    ((t.recs.flatMap recBytes).filter fun x => bad.contains x.1).map Prod.snd
  (vas.foldl lowerVa none).getD 0

/-- CTASK0 and CTASK1 (R321). -/
def conflictTasks (ts : List Task) (bad : List Nat) : W64 × W64 :=
  match (ts.filter fun t => bad.any fun a => masks t a || reduces t a).map Task.id with
  | [] => (0, 0)
  | [a] => (a, a)
  | a :: b :: _ => (a, b)

/-- MERGE_CONFLICT's code. -/
def mergeCode : W64 := trapCode 21

/-- The report: table header, PACKET_FAILED, MERGE_REPORT (R321). -/
def report (ts : List Task) (bad : List Nat) (s : State) : State :=
  let va := conflictVa ts bad
  let c := conflictTasks ts bad
  let bytes := leBytes 8 va.toNat ++ leBytes 8 c.1.toNat ++ leBytes 8 c.2.toNat ++ leBytes 8 s.l.phase
  let s := match s.l.table with
    | none => s
    | some t => (virtWrite (t + 16) bytes s).getD s
  sysNote s.l.queue 0x8005 s.l.pkt c.1 c.2 (packetFailed s.l.queue s.l.pkt mergeCode va s)

/-- A task's masked bytes written on the copy path of the seam (R320), which follows what the launch knows. -/
def applyBuf (know : List Crossing) (op : OpId) : List BufByte → State → State
  | [], s => s
  | b :: bs, s => applyBuf know op bs (writeKnown know op .copy ⟨.phys, b.addr⟩ b.va [b.data] s)

/-- One record applied as its ordinary op, on the copy path of the seam (R320). -/
def applyRec (know : List Crossing) (op : OpId) (r : RedRec) (s : State) : State :=
  let (x, s) := rmwAt know op .copy (locsFrom ⟨.phys, r.addr⟩ r.w) s
  let old := leNat x.bytes
  let new := if r.aop = 16 then (signalNew (BitVec.ofNat 64 old) r.data).1.toNat else (atomNew r.aop r.sgn r.w old r.data.toNat 0).1
  putAt op .copy true x.passed ⟨.phys, r.addr⟩ r.va (leBytes r.w new) s

/-- Pass 2. -/
def applyAll (know : List Crossing) (op : OpId) (ts : List Task) (s : State) : State :=
  ts.foldl (fun s t => t.recs.foldl (fun s r => applyRec know op r s) (applyBuf know op t.buf s)) s

/-- The launch past a seam whose writes are an op's: applied buffers are released, the next phase's chunks are offered by their present
owners (R285), and what the seam wrote and all its ended tasks follow happens before every later access, on every path (R124). -/
def nextPhase (op : OpId) (l : Launch) : Launch :=
  let k := l.phase
  let l := { l with
    phase := k + 1
    tasks := l.tasks.map fun (t : Task) => if t.phase = k then { t with buf := [], recs := [] } else t
    know := ⟨op, .copy, none, none, 0, none⟩ :: (l.know ++ l.endKnow), endKnow := [] }
  { l with dists := phaseDists l }

/-- Whether the seam of the present phase is due (R320). -/
def seamDue (l : Launch) : Bool :=
  l.live && l.replay && l.code_.isNone && decide (l.phase ≤ lastPhase l) && (phaseTasks l).all Task.ended

/-- Destination bytes that a phase's records read. -/
def recReads (ts : List Task) : List Loc := ts.flatMap fun t => t.recs.flatMap fun r => locsFrom ⟨.phys, r.addr⟩ r.w

/-- The bytes of the pool before a launch's merge buffers: backing stores, contexts, and the buffers of launches that started earlier
(notes/assumptions/14.md). -/
def mergeStart (s : State) (l : Launch) : Nat :=
  poolUsed s l.id.part - ((allLaunches s).filter fun x => x.id.part = l.id.part && !decide (x.order < l.order)).foldl
    (fun a x => a + mergeBytes s x) 0

/-- The lines of the pool that hold the buffer lines and the records of the launch in focus, each by its first byte (R317). -/
def poolReads (s : State) : List Loc :=
  (List.range ((mergeBytes s s.l + 31) / 32)).filterMap fun i =>
    (virtByte s ⟨true, false, false⟩ (s.p.regs.spillbase + BitVec.ofNat 64 (mergeStart s s.l + 32 * i)) 32).map fun pa => ⟨.phys, pa⟩

/-- What pass 1 of a seam reads (R320). -/
def seamReads (ts : List Task) (s : State) : List Loc := poolReads s ++ recReads ts

/-- The seam on the launch in focus. -/
def seamDo (s : State) : State :=
  let ts := phaseTasks s.l
  if poisoned s (seamReads ts s) then endLaunch s.l.id (trapCode 19) s
  else
    let s := eccRead (seamReads ts s) s
    let bad := conflicts ts
    if bad.isEmpty then
      let (op, s) := agentOp 3 s
      let s := applyAll (agentOrder (s.l.know ++ s.l.endKnow)) op ts s
      { s with l := nextPhase op s.l }
    else
      let s := endLaunch s.l.id mergeCode (report ts bad s)
      { s with l := { s.l with reported := true } }

/-- SEAM (R320). -/
def execSeam (l : Lid) (s : State) : Out :=
  let s := focusLaunch l (focusPart l.part s)
  if s.l.live && s.l.id = l && s.p.live && s.p.num = l.part && s.p.tdisp = .run && seamDue s.l then .next (seamDo s) else .next s

end Sys2Proof.Machine
end

