-- ==== Sys2Proof/Machine/Queue.lean ====
section
/-!
DEFINITION. The queue engines (R261 to R291, R360): control words, the step with its parse, arbitration and eight passes, the start
and the retirement of packets, the sweep of a queue in ERROR, and the events of queues, copies and bundles.
-/
namespace Sys2Proof.Machine

/-! ### Queue state -/

/-- ENABLE. -/
def qEnable (q : Queue) : Bool := q.ctl.getLsbD 16
/-- PREEMPT. -/
def qPreempt (q : Queue) : Bool := q.ctl.getLsbD 17
/-- TICKETS. -/
def qTickets (q : Queue) : Nat := (q.ctl.extractLsb' 24 8).toNat
/-- Whether a queue may read and start packets. -/
def qRuns (q : Queue) : Bool := q.state = .active && qEnable q && !qPreempt q
/-- Whether a started barrier holds the later packets (R270). -/
def qHeld (q : Queue) : Bool := q.bars.any Barrier.hold
/-- Whether the head packet may start. -/
def qMay (q : Queue) : Bool := qRuns q && !qHeld q

/-- The queue numbers of a partition in ascending order. -/
def queueNums (p : Part) : List Nat := (List.range 128).filter fun n => p.queues.any fun q => q.num = n

/-- The status word (R264). -/
def qStatus (q : Queue) : W64 :=
  let st := match q.state with
    | .disabled => 0 | .active => 1 | .error => 2 | .haltEventFull => 3 | .preempted => 4
  BitVec.ofNat 64 ((q.err.toNat % 2 ^ 32) * 2 ^ 32 + q.passed * 2 ^ 16 + st)

/-- The 64 bytes of a queue record (R262). -/
def qRecord (q : Queue) : List Byte :=
  leBytes 8 q.base.toNat ++ leBytes 8 q.write.toNat ++ leBytes 8 q.read.toNat ++ leBytes 8 q.ctl.toNat ++ leBytes 8 (qStatus q).toNat ++
    leBytes 24 0

/-- READ advances past the head packet. -/
def advance (q : Nat) (len : Nat) (s : State) : State :=
  updQueue q (fun x => { x with read := x.read + BitVec.ofNat 64 len, head := none, won := false }) s

/-! ### The sweep of a queue in ERROR (R279) -/

/-- The first CSIG among the fields of a body, found from header to header; no other field is parsed (R279). One that breaks the limits
of R268 counts as absent (DESIGN CHOICE, unsafe: notes/assumptions/94.md), and one whose body the packet does not hold is none. -/
def firstCsig : Nat → List Nat → Option (W64 × W64)
  | 0, _ => none
  | _ + 1, [] => none
  | fuel + 1, u :: us =>
    let f : Tlv := ⟨u, us.take (tlvLen u - 1)⟩
    if tlvType u = 1 then
      (if fieldOk noSub f && decide (tlvLen u ≤ us.length + 1) then some (BitVec.ofNat 64 (unit f 0), BitVec.ofNat 64 (tlvInline u)) else none)
    else if tlvLen u = 0 then none
    else firstCsig fuel (us.drop (tlvLen u - 1))

/-- The top-level CSIG of an aborted packet, where its type has one. -/
def abortCsig (us : List Nat) : Option (W64 × W64) :=
  match us with
  | [] => none
  | u :: body => if (fieldRules (tlvType u)).any fun r => r.1 = 1 then firstCsig body.length body else none

/-- Packets of a queue in ERROR aborted one after another, until one whose header fails item 1 of R266. -/
def sweep (q : Nat) : Nat → State → State
  | 0, s => s
  | fuel + 1, s =>
    match queue? s q with
    | none => s
    | some x =>
      if x.state ≠ .error || x.sweepStop || x.read = x.write then s
      else
        match packetUnits s x with
        | .error _ => updQueue q (fun y => { y with sweepStop := true }) s
        | .ok (ls, us) =>
          sweep q fuel (csigDone none (everyPath s x.know) q x.read (abortCsig us) (some errAborted) (advance q (8 * us.length) (eccRead ls s)))

/-- A lane's sweep. -/
def sweepLane (q : Nat) (s : State) : State :=
  match queue? s q with
  | none => s
  | some x => sweep q ((x.write - x.read).toNat / 8) s

/-- The launches of a queue that have not retired. -/
def queueLaunches (s : State) (q : Nat) : List Launch := (allLaunches s).filter fun l => l.id.part = s.p.num && l.queue = q

/-- The launches of a queue go on. -/
def freeLaunches (q : Nat) (s : State) : State :=
  (queueLaunches s q).foldl (fun s l => updLaunch l.id (fun l => { l with held := false }) s) s

/-- The events that a queue still holds lead it to another state (R264, R281). -/
def heldTo (st : QState) (x : Queue) : Queue := { x with held := x.held.map fun h => { h with then_ := st, err := 0 } }

/-- A queue that is ACTIVE again; RESUME clears itself (R263, R264). -/
def resumed (x : Queue) : Queue :=
  heldTo .active { x with state := .active, err := 0, head := none, won := false, sweepStop := false, ctl := x.ctl &&& 0xFFFFFFFFFFFBFFFF }

/-- A lane's sweep, and the RESUME that its CTL holds: a queue leaves ERROR once every packet written by then is aborted, or its sweep
has stopped (R279). Where the sweep halts it for want of room in the event ring, RESUME stays set until it is back in ERROR (DESIGN CHOICE,
unsafe: notes/assumptions/100.md). -/
def sweepStep (q : Nat) (s : State) : State :=
  let s := sweepLane q s
  match queue? s q with
  | none => s
  | some x =>
    if x.ctl.getLsbD 18 && (x.state = .error || x.state = .preempted) then freeLaunches q (updQueue q resumed s) else s

/-! ### Control (R263, R264, R291) -/

/-- Whether a control word keeps the rules of R263. -/
def ctlOk (v : W64) : Bool :=
  v &&& 0xFFFFFFFF00F8FFE0 = 0 && decide (12 ≤ v.toNat % 32) && decide (v.toNat % 32 ≤ 30) &&
    (!v.getLsbD 16 || v.extractLsb' 24 8 ≠ 0)

/-- A save asked of a team (R309). -/
def askSave (now : Nat) (t : Team) : Team := if t.save.isSome then t else { t with save := some ⟨now, false⟩ }

/-- The launches of a queue held and the saves of their resident teams requested. -/
def holdLaunches (q : Nat) (s : State) : State :=
  (queueLaunches s q).foldl (fun s l =>
    (launchTeams s l.id).foldl (fun s t => updTeam t.id (askSave s.now) s) (updLaunch l.id (fun l => { l with held := true }) s)) s

/-- A DISABLED queue that is ACTIVE; the events that it holds leave it so (R264, R281). -/
def enabled (x : Queue) : Queue := heldTo .active { x with state := .active, err := 0, head := none, won := false }

/-- ENABLE := 1: a DISABLED queue is ACTIVE, and one that waits for room in the event ring before it is DISABLED is then ACTIVE (R264,
R281). -/
def enabling (x : Queue) : Queue :=
  if x.state = .disabled then enabled x
  else if x.state = .haltEventFull && (destState x).1 = .disabled then heldTo .active x
  else x

/-- Whether a queue is ACTIVE, or goes back to ACTIVE once the event ring has room. -/
def qGoes (x : Queue) : Bool := x.state = .active || (x.state = .haltEventFull && (destState x).1 = .active)

/-- The parts of a control write on a queue that depend on its state: ENABLE, then RESUME, then PREEMPT, each on the state that the one
before leaves (R264). A queue that waits for room in the event ring before it goes back to ACTIVE is pre-empted as an ACTIVE one (R291;
DEDUCED, unsafe: notes/assumptions/74.md); a PREEMPT that finds a queue in ERROR, or on its way there, clears itself and pre-empts nothing
(DESIGN CHOICE, unsafe: notes/assumptions/74.md). -/
def ctlEffect (v : W64) (x : Queue) (s : State) : State :=
  let q := x.num
  let s := if v.getLsbD 16 then updQueue q enabling s else s
  let s := if v.getLsbD 18 then sweepStep q s else s
  if v.getLsbD 17 && (queue? s q).any qGoes then holdLaunches q s
  else updQueue q (fun y => { y with ctl := y.ctl &&& 0xFFFFFFFFFFFDFFFF }) s

/-- What a write of CTL leaves of PREEMPT and RESUME: RESUME only in ERROR and PREEMPTED; both stay where an earlier write of them has
still to complete, but for a PREEMPT of a queue that has come into ERROR. -/
def ctlKept (v : W64) (x : Queue) : W64 :=
  (if x.state = .error || x.state = .preempted then v else v &&& 0xFFFFFFFFFFFBFFFF) ||| (x.ctl &&& 0x40000) |||
    (if x.state = .error then 0 else x.ctl &&& 0x20000)

/-- A write of CTL: BAD_CONTROL leaves it; ENABLE is ignored outside RUN (R263, R330). -/
def ctlWrite (q : Nat) (v : W64) (s : State) : State :=
  match queue? s q with
  | none => s
  | some x =>
    if !ctlOk v then sysNote q 0x8004 x.read 0 0 s
    else
      let v := ctlKept (if s.p.tdisp = .run then v else (v &&& 0xFFFFFFFFFFFEFFFF) ||| (x.ctl &&& 0x10000)) x
      ctlEffect v x (updQueue q (fun y => { y with ctl := v }) s)

/-! ### The records in memory (R261, R262) -/

/-- Address of the record of a queue: QTAB and the queue's rank in its partition. -/
def recordAt (s : State) (q : Nat) : W64 := s.p.regs.qtab + BitVec.ofNat 64 (64 * ((queueNums s.p).takeWhile fun n => n ≠ q).length)

/-- The record brought to memory where the table translates and differs. -/
def storeRecord (q : Nat) (s : State) : State :=
  match queue? s q with
  | none => s
  | some x =>
    if virtRead s (recordAt s q) 64 = some (qRecord x) then s else (virtWrite (recordAt s q) (qRecord x) s).getD s

/-- What the engine comes to know by reading WRITE, the bytes `as` (R122, R262): the releases it reads there, and the host's writes up to
the newest of these bytes, which its delivery follows. -/
def writeKnow (s : State) (as : List Loc) : List Crossing :=
  let own := s.recs.filter fun r => r.op.k = agentGid s.p.num 1
  let newest := (own.find? fun r => r.old.any fun o => as.contains o.1).map fun r => r.op.seq
  agentKnow s false (plainly as) ++
    (own.filter fun r => newest.any fun n => r.op.seq ≤ n).map fun r => ⟨r.op, r.path, some .host, none, 0, none⟩

/-- A queue that has come to know more before the start of its next packet. -/
def queueLearn (s : State) (cs : List Crossing) (x : Queue) : Queue := { x with know := everyPath s (cs ++ x.know) }

/-- What software has written into the record since, where the table translates: BASE and WRITE, READ in ERROR and PREEMPTED, and CTL. -/
def loadRecord (q : Nat) (s : State) : State :=
  match queue? s q with
  | none => s
  | some x =>
    let ls := virtLocs s (recordAt s q) 32
    match (if poisoned s ls then none else virtRead s (recordAt s q) 32) with
    | none => s
    | some b =>
      let s := eccRead ls s
      let rw := x.state = .error || x.state = .preempted
      let w := BitVec.ofNat 64 (nat_ b 8 8)
      let new := if w = x.write then [] else writeKnow s (virtLocs s (recordAt s q + 8) 8)
      let s := updQueue q (fun y =>
        { (queueLearn s new y) with
                 base := BitVec.ofNat 64 (nat_ b 0 8), write := w,
                 read := if rw then BitVec.ofNat 64 (nat_ b 16 8) else y.read }) s
      if BitVec.ofNat 64 (nat_ b 24 8) = x.ctl then s else ctlWrite q (BitVec.ofNat 64 (nat_ b 24 8)) s

/-! ### Starting work (R272, R275, R276) -/

/-- Work that has passed its start checks. -/
inductive Started where
  | launch (l : Launch)
  | copy (pairs : List (Acc × Acc))
  | bob (cluster : Nat) (moves : List BitMove)

/-- A plain access of n bytes. -/
def plainAcc (va : W64) (pa n : Nat) : Acc := { lane := 0, sub := 0, loc := ⟨.phys, pa⟩, va := va, w := n, data := 0, exp := 0 }

/-- The bytes that a run of a copy's source and one of its destination have in common, given where each run begins in the copy. -/
def runsCommon (a b : Nat × W64 × Nat × Nat) : Option (Acc × Acc) :=
  let lo := max a.1 b.1
  let n := min (a.1 + a.2.2.2) (b.1 + b.2.2.2) - lo
  if n = 0 then none
  else
    let cut := fun (r : Nat × W64 × Nat × Nat) => plainAcc (r.2.1 + BitVec.ofNat 64 (lo - r.1)) (r.2.2.1 + (lo - r.1)) n
    some (cut a, cut b)

/-- The runs of n virtual bytes, each with where it begins among them. -/
def runsFrom (s : State) (w : Want) (va : W64) (n : Nat) : List (Nat × W64 × Nat × Nat) :=
  (virtRuns s w va n).map fun r => ((r.1 - va).toNat, r)

/-- The pieces of a copy of n bytes that lie within one page on both sides, each where the page's translation puts it. -/
def copyPieces (s : State) (src dst : W64) (n : Nat) : List (Acc × Acc) :=
  let ds := runsFrom s ⟨false, true, false⟩ dst n
  (runsFrom s ⟨true, false, false⟩ src n).flatMap fun a => ((ds.drop ((dst.toNat % 4096 + a.1) / 4096)).take 2).filterMap (runsCommon a)

/-- Whether n bytes from each of two addresses share one, past the top of the address space too. -/
def copiesMeet (a b : W64) (n : Nat) : Bool := decide ((a - b).toNat < n) || decide ((b - a).toNat < n)

/-- The start checks of COPY (R275). -/
def checkCopy (s : State) (src dst : W64) (n : Nat) : Except W64 Started :=
  if (virtBad s ⟨true, false, false⟩ src n).isSome || (virtBad s ⟨false, true, false⟩ dst n).isSome || copiesMeet src dst n then .error errEngine
  else .ok (.copy (copyPieces s src dst n))

/-- The place of an element translated for a packet. -/
def placeAcc (s : State) (w : Want) (p : W64 × Nat × Nat) : Acc := plainAcc p.1 ((virtByte s w p.1 p.2.2).getD 0) p.2.2

/-- The start checks of BOB (R276). -/
def checkBob (s : State) (cluster : Nat) (blk : W64) : Except W64 Started :=
  let n := (partClusters s.p).length
  match virtRead s blk 256 with
  | none => .error errEngine
  | some b =>
    let rd : Want := ⟨true, false, false⟩
    let wr : Want := ⟨false, true, false⟩
    if (bobBad b).isSome || bobSq b ≠ .g || bobDq b ≠ .g || (cluster ≠ 0xFFFFFFFF && decide (n ≤ cluster)) then .error errEngine
    else
      let es := bobElems b
      let formed := match checkForm Req.w (bobReqs b 0 es ++ bobReqs b 1 es ++ bobBases b) with
        | .ok _ => true
        | _ => false
      if formed && (es.all fun e => (virtByte s rd e.src.1 e.src.2.2).isSome && (virtByte s wr e.dst.1 e.dst.2.2).isSome) && (bobSpan b es).isNone then
        let src := es.map fun e => placeAcc s rd e.src
        let dst := es.map fun e => placeAcc s wr e.dst
        .ok (.bob (if cluster = 0xFFFFFFFF then Config.freeNat s.tick % max 1 n else cluster) (bobMoves es src dst))
      else .error errEngine

/-- The checks of one packet's or member's work. -/
def checkWork (s : State) (q : Queue) (pkt : W64) (mem : Nat) (bundle : Option Nat) (csig : Option (W64 × W64)) (w : Work) :
    Except W64 Started :=
  match w with
  | .copy src dst n => checkCopy s src dst n
  | .bob c blk => checkBob s c blk
  | .launch image idx gx gy gz args mode table =>
    match loadImage s image idx with
    | .error e => .error e
    | .ok x =>
      match dispatchCheck s (launchOf s q pkt mem bundle csig x gx gy gz args mode table) with
      | .error e => .error e
      | .ok l => .ok (.launch l)

/-- The bytes that the start checks of a packet's work read: a launch's image and task table, a bobbin command's block. -/
def workReads (s : State) (q : Queue) (pkt : W64) (mem : Nat) (w : Work) : List Loc :=
  match w with
  | .copy .. => []
  | .bob _ blk => virtLocs s blk 256
  | .launch image idx gx gy gz args mode table =>
    imageReads s image idx ++
      match loadImage s image idx with
      | .error _ => []
      | .ok x =>
        let l := launchOf s q pkt mem none none x gx gy gz args mode table
        if l.replay && !l.cohort && symOk l then table.elim [] (tableReads s l) else []

/-- The start checks of work; an uncorrectable error in what they read fails it (R299). -/
def startCheck (s : State) (q : Queue) (pkt : W64) (mem : Nat) (bundle : Option Nat) (csig : Option (W64 × W64)) (w : Work) :
    Except W64 Started :=
  if poisoned s (workReads s q pkt mem w) then .error errMemory else checkWork s q pkt mem bundle csig w

/-- Checked work started, after what happens before it (R270). -/
def startWork (q : Nat) (pkt : W64) (bundle : Option Nat) (mem : Nat) (csig : Option (W64 × W64)) (x : Started) (s : State) : State :=
  let know := (queue? s q).elim [] fun x => everyPath s x.know
  match x with
  | .launch l =>
    { s with launches := s.launches ++ [{ l with order := s.p.starts }], p := { s.p with starts := s.p.starts + 1 }, tick := s.tick + 1 }
  | .copy pairs =>
    let (op, s) := agentOp 0 s
    { s with p := { s.p with copies := s.p.copies ++ [⟨op.seq, know, [], q, pkt, bundle, mem, pairs.map fun x => ⟨x.1, x.2, none⟩, csig⟩] } }
  | .bob c ms =>
    let (op, s) := agentOp 0 s
    let shared := (movesShared ms).eraseDups
    let (keep, s) := movesKeep shared s
    { s with p := { s.p with bobs := s.p.bobs ++ [⟨op.seq, know, [], q, pkt, bundle, mem, c, ms, !shared.isEmpty, keep, csig⟩] } }

/-! ### Retirement (R271, R272, R289) -/

/-- A bundle that no member is left of retires: its failure is posted, unless a seam has reported it (R321). -/
def bundleRetire (b : Bundle) (s : State) : State :=
  let s := { s with p := { s.p with bundles := s.p.bundles.filter fun x => x.id ≠ b.id } }
  let s := csigDone none (everyPath s b.know) b.queue b.pkt b.csig (b.failed.map Prod.snd) s
  match b.failed with
  | none => s
  | some (_, c) => if b.reported then s else packetFailed b.queue b.pkt c 0 s

/-- A bundle after one of its members has failed with a code: while it has not aborted the lowest failed member stands (R272). -/
def bundleFail (mem : Nat) (code : W64) (reported : Bool) (b : Bundle) : Bundle :=
  if b.aborted || b.failed.any fun f => f.1 ≤ mem then b else { b with failed := some (mem, code), reported := reported }

/-- A member of a bundle has ended, and what its work releases joins the bundle's. -/
def memberEnd (id mem : Nat) (know : List Crossing) (code : Option W64) (reported : Bool) (s : State) : State :=
  match s.p.bundles.find? fun b => b.id = id with
  | none => s
  | some b =>
    let b := match code with
      | none => b
      | some c => bundleFail mem c reported b
    let b := { b with left := b.left - 1, know := know ++ b.know }
    if b.left = 0 then bundleRetire b s
    else { s with p := { s.p with bundles := s.p.bundles.map fun x => if x.id = id then b else x } }

/-- A packet or member retires with success or a code; its signal is updated on the path of its work and releases what that knows. -/
def workRetire (path : Option Path) (know : List Crossing) (q : Nat) (pkt : W64) (bundle : Option Nat) (mem : Nat)
    (csig : Option (W64 × W64)) (code : Option W64) (reported : Bool) (s : State) : State :=
  match bundle with
  | some b => memberEnd b mem know code reported s
  | none =>
    let s := csigDone path (everyPath s know) q pkt csig code s
    match code with
    | none => s
    | some c => if reported then s else packetFailed q pkt c 0 s

/-- Whether the records of a seam's report still wait for room in the event ring: they are written before the completion signal (R321). -/
def reportWaits (s : State) (l : Launch) : Bool :=
  l.reported && (queue? s l.queue).any fun x => x.held.any fun h => h.pkt = l.pkt && (h.code = 0x8002 || h.code = 0x8005)

/-- Whether a launch has ended: no team is resident or saved, and it failed or all its teams and its final seam are done (R289). -/
def launchDone (s : State) (l : Launch) : Bool :=
  (launchTeams s l.id).isEmpty && !reportWaits s l &&
    (l.code_.isSome || (!(s.p.saved.any fun x => x.team.id.l = l.id) && allIssued l && (!l.cohort || l.placedAll) &&
      (!l.replay || decide (lastPhase l < l.phase))))

/-- Member number in a launch handle (R290). -/
def memberOfHandle (l : Lid) : Nat := l.handle / 128 % 8

/-- A launch retires. -/
def launchRetire (l : Launch) (s : State) : State :=
  let s := { s with
    l := if s.l.id = l.id then { s.l with live := false } else s.l
    launches := s.launches.filter fun x => x.id ≠ l.id
    p := { s.p with saved := s.p.saved.filter fun x => x.team.id.l ≠ l.id } }
  workRetire none (l.know ++ l.endKnow) l.queue l.pkt l.bundle (memberOfHandle l.id) l.csig l.code_ l.reported s

/-- The ended launches of an engine's queues retire, in the order they started. -/
def retireAll (lanes : List Nat) (s : State) : State :=
  ((allLaunches s).filter fun l => l.id.part = s.p.num && lanes.contains l.queue && launchDone s l).foldl (fun s l => launchRetire l s) s

/-! ### Arbitration (R282, R283) -/

/-- One draw's generator step. -/
def lotNext (x : W64) : W64 :=
  let x := x ^^^ (x <<< 13)
  let x := x ^^^ (x >>> 7)
  x ^^^ (x <<< 17)

/-- The intake a packet needs: 0 launch, 1 copy, 2 bobbin. -/
def intakeOf : Packet → Option Nat
  | .work (.launch ..) _ => some 0
  | .work (.copy ..) _ => some 1
  | .work (.bob ..) _ => some 2
  | .bundle .. => some 0
  | _ => none

/-- Places of an intake that a work takes. -/
def workPlaces (i : Nat) : Work → Nat
  | .launch .. => if i = 0 then 1 else 0
  | .copy .. => if i = 1 then 1 else 0
  | .bob .. => if i = 2 then 1 else 0

/-- Places of an intake that a packet takes. -/
def packetPlaces (i : Nat) : Packet → Nat
  | .work w _ => workPlaces i w
  | .bundle ms _ => (ms.map (workPlaces i)).sum
  | _ => 0

/-- Room of an intake (R273). -/
def intakeRoom (i : Nat) : Nat := if i = 1 then 8 else 16

/-- Places taken, with those of winners that wait to start: one held for another engine counts its place already (DESIGN CHOICE, unsafe:
notes/assumptions/105.md). -/
def intakeUsed (s : State) (i : Nat) : Nat :=
  (if i = 0 then ((allLaunches s).filter fun l => l.id.part = s.p.num).length else if i = 1 then s.p.copies.length else s.p.bobs.length) +
  ((s.p.queues.filter Queue.won).map fun q => q.head.elim 0 fun h => packetPlaces i h.1).sum

/-- Whether a packet's places are free in every intake. -/
def roomFor (s : State) (k : Packet) : Bool :=
  (List.range 3).all fun i => packetPlaces i k = 0 || decide (intakeUsed s i + packetPlaces i k ≤ intakeRoom i)

/-- Whether a queue's head waits for an intake. -/
def waitsIntake (i : Nat) (q : Queue) : Bool := q.head.any fun h => intakeOf h.1 = some i

/-- Whether a queue is eligible in an intake's draw (R282). -/
def eligible (s : State) (i : Nat) (q : Queue) : Bool :=
  qMay q && waitsIntake i q && !q.won && q.head.any fun h => roomFor s h.1

/-- The queue whose ticket range holds a number. -/
def ticketHolder : List Queue → Nat → Option Queue
  | [], _ => none
  | q :: qs, n => if n < qTickets q then some q else ticketHolder qs (n - qTickets q)

/-- The winner of a draw and the generator after it. -/
def drawWinner (es : List Queue) (lot : W64) : Option Queue × W64 :=
  let x := lotNext lot
  match es.find? fun q => q.passed = 64 with
  | some q => (some q, x)
  | none => (ticketHolder es (x.toNat % max 1 ((es.map qTickets).sum)), x)

/-- One intake's draw. -/
def draw (i : Nat) (s : State) : State :=
  let qs := (queueNums s.p).filterMap (queue? s)
  let es := qs.filter (eligible s i)
  if es.isEmpty then s
  else
    let (w, lot) := drawWinner es s.p.lot
    let win := fun (q : Queue) => w.any fun x => x.num = q.num
    { s with p := { s.p with
      lot := lot
      queues := s.p.queues.map fun q =>
        if win q then { q with won := true, passed := 0 }
        else if es.any fun e => e.num = q.num then { q with passed := min 64 (q.passed + 1) }
        else if waitsIntake i q then { q with passed := 0 } else q } }

/-! ### Passes (R269 to R278) -/

/-- A packet whose signal address fails the check of R360. -/
def signalFailed (q : Nat) (pkt a : W64) (len : Nat) (s : State) : State := packetFailed q pkt signalFault a (advance q len s)

/-- What one read of a barrier's signal finds: its bytes and its value; a value of the codes of R360 and R299 where it cannot be read. -/
def waitRead (s : State) (a : W64) : List Loc × W64 :=
  match virtByte s ⟨true, false, false⟩ a 8 with
  | none => ([], signalFault)
  | some pa =>
    let as := locsFrom ⟨.phys, pa⟩ 8
    if poisoned s as then ([], errMemory) else (as, BitVec.ofNat 64 (memNat s.hbm pa 8))

/-- The outcome of a barrier's reads: wait, satisfied, or the first negative value with its address (R278, R360). -/
def barRead (s : State) : List (W64 × W64) → Except (W64 × W64) Bool
  | [] => .ok true
  | (a, t) :: r =>
    let x := (waitRead s a).2
    if x.toInt < 0 then .error (x, a)
    else
      match barRead s r with
      | .error e => .error e
      | .ok b => .ok (b && decide (t.toInt ≤ x.toInt))

/-- The bytes that a barrier's reads touch. -/
def barLocs (s : State) (ws : List (W64 × W64)) : List Loc := ws.flatMap fun w => (waitRead s w.1).1

/-- A satisfied barrier (R270, R278): its reads are acquires at .sys, its signal releases what is before it, and with the barrier bit what
it acquired is before every later packet. -/
def barEnd (q : Nat) (b : Barrier) (s : State) : State :=
  let got := agentKnow s false (plainly (barLocs s b.waits))
  let know := everyPath s (got ++ (queue? s q).elim [] Queue.know)
  let s := updQueue q (fun x => { x with bars := x.bars.erase b, know := if b.hold then know else x.know }) s
  csigDone none know q b.pkt b.csig none s

/-- The started barriers of a queue evaluated in order. One that fails while a pre-emption is under way moves its queue to ERROR, with the
launches still held and PREEMPT set until RESUME (DESIGN CHOICE, unsafe: notes/assumptions/96.md). -/
def evalBars (q : Nat) : List Barrier → State → State
  | [], s => s
  | b :: bs, s =>
    let s := eccRead (barLocs s b.waits) s
    match barRead s b.waits with
    | .error (v, a) =>
      let s := csigDone none ((queue? s q).elim [] fun x => everyPath s x.know) q b.pkt b.csig (some v) s
      sysEvent q 0x8001 b.pkt v a .error v (updQueue q (fun x => { x with bars := x.bars.erase b }) s)
    | .ok true => evalBars q bs (barEnd q b s)
    | .ok false => evalBars q bs s

/-- The BARRIER pass of a lane. -/
def passBarrier (q : Nat) (s : State) : State :=
  let s := match queue? s q with
    | none => s
    | some x => evalBars q x.bars s
  match queue? s q with
  | none => s
  | some x =>
    match qMay x, x.head with
    | true, some (.barrier hold ws csig, len) =>
      match badSignal s csig (ws.map Prod.fst) [] with
      | some a => signalFailed q x.read a len s
      | none =>
        let b : Barrier := ⟨hold, ws, csig, x.read⟩
        evalBars q [b] (updQueue q (fun y => { y with bars := y.bars ++ [b] }) (advance q len s))
    | _, _ => s

/-- The SIGNAL pass of a lane (R277). -/
def passSignal (q : Nat) (s : State) : State :=
  match queue? s q with
  | none => s
  | some x =>
    match qMay x, x.head with
    | true, some (.signal a d, len) =>
      match badSignal s none [] [a] with
      | some b => signalFailed q x.read b len s
      | none => packetSignal none (everyPath s x.know) q x.read a d (advance q len s)
    | _, _ => s

/-- A packet of work started on winning its intake, or failed at its checks (R272, R275, R276). -/
def passWork (i : Nat) (q : Nat) (s : State) : State :=
  match queue? s q with
  | none => s
  | some x =>
    match x.won && qMay x && waitsIntake i x, x.head with
    | true, some (.work w csig, len) =>
      match badSignal s csig [] [] with
      | some a => signalFailed q x.read a len s
      | none =>
        let got := startCheck s x x.read 0 none csig w
        let s := eccRead (workReads s x x.read 0 w) s
        match got with
        | .error c => packetFailed q x.read c 0 (csigDone none (everyPath s x.know) q x.read csig (some c) (advance q len s))
        | .ok st => startWork q x.read none 0 csig st (advance q len s)
    | _, _ => s

/-- The members of a bundle checked in order. -/
def checkMembers (s : State) (q : Queue) (pkt : W64) (id : Nat) : Nat → List Work → Except W64 (List Started)
  | _, [] => .ok []
  | mem, w :: ws =>
    match startCheck s q pkt mem (some id) none w with
    | .error c => .error c
    | .ok st =>
      match checkMembers s q pkt id (mem + 1) ws with
      | .error c => .error c
      | .ok r => .ok (st :: r)

/-- Number of a bundle: its packet and queue. -/
def bundleId (q : Nat) (pkt : W64) : Nat := pkt.toNat / 8 % 2 ^ 54 * 1024 + q

/-- The BUNDLE pass of a lane (R272). -/
def passBundle (q : Nat) (s : State) : State :=
  match queue? s q with
  | none => s
  | some x =>
    match x.won && qMay x, x.head with
    | true, some (.bundle ms csig, len) =>
      match badSignal s csig [] [] with
      | some a => signalFailed q x.read a len s
      | none =>
        let id := bundleId q x.read
        let got := checkMembers s x x.read id 1 ms
        let s := eccRead (ms.zipIdx.flatMap fun m => workReads s x x.read (m.2 + 1) m.1) s
        match got with
        | .error c => packetFailed q x.read c 0 (csigDone none (everyPath s x.know) q x.read csig (some c) (advance q len s))
        | .ok sts =>
          let b : Bundle := { id := id, queue := q, pkt := x.read, csig := csig, members := ms.length, left := ms.length, failed := none,
                              aborted := false, reported := false, know := x.know }
          let s := advance q len s
          sts.zipIdx.foldl (fun s st => startWork q x.read (some id) (st.2 + 1) none st.1 s) { s with p := { s.p with bundles := s.p.bundles ++ [b] } }
    | _, _ => s

/-- The EVENT pass of a lane (R274): it waits for room in the ring. -/
def passEvent (q : Nat) (s : State) : State :=
  match queue? s q with
  | none => s
  | some x =>
    match qMay x && evRoom s.p, x.head with
    | true, some (.event code data, len) => evPut code q x.read 0 data (advance q len s)
    | _, _ => s

/-- The NOP pass of a lane. -/
def passNop (q : Nat) (s : State) : State :=
  match queue? s q with
  | none => s
  | some x =>
    match qMay x, x.head with
    | true, some (.nop, len) => advance q len s
    | _, _ => s

/-- One pass over the lanes in ascending order. -/
def pass (lanes : List Nat) (act : Nat → State → State) (s : State) : State := lanes.foldl (fun s q => act q s) s

/-! ### Parsing and the sweep -/

/-- A lane reads and parses one packet; a format error puts its queue into ERROR (R266, R269). -/
def parseLane (q : Nat) (s : State) : State :=
  match queue? s q with
  | none => s
  | some x =>
    if qRuns x && x.head.isNone && x.read ≠ x.write then
      let s := eccRead (packetReads s x) s
      match readPacket s x with
      | .ok h => updQueue q (fun y => { y with head := some h }) s
      | .error c => sysEvent q 0x8001 x.read c 0 .error c s
    else s

/-- The lanes of an engine in the partition in focus (R261). -/
def lanesOf_ (p : Part) (e : Nat) : List Nat := (queueNums p).filter fun n => n / 32 = e

/-- One step of an engine for the partition in focus (R269). -/
def engineStep (e : Nat) (s : State) : State :=
  let lanes := lanesOf_ s.p e
  let s := pass lanes loadRecord s
  let s := pass lanes sweepStep (retireAll lanes s)
  let s := pass lanes parseLane s
  let s := draw 2 (draw 1 (draw 0 s))
  let s := pass lanes passSignal (pass lanes passBarrier s)
  let s := pass lanes (passWork 0) (pass lanes (passWork 2) (pass lanes (passWork 1) s))
  let s := pass lanes passNop (pass lanes passEvent (pass lanes passBundle s))
  pass lanes storeRecord s

/-- QUEUE_ENGINE_STEP (R269). -/
def execQueueEngineStep (p : Nat) (e : Fin 4) (s : State) : Out :=
  let s := focusPart p s
  if s.p.live && s.p.num = p && s.p.tdisp = .run then .next (engineStep e.val s) else .next s

/-! ### Writes of the queue records (R262 to R264) -/

/-- A write of a queue's record in a partition. -/
def onQueue (p q : Nat) (act : State → State) (s : State) : State :=
  let s := focusPart p s
  if s.p.live && s.p.num = p && s.p.tdisp ≠ .error && (queue? s q).isSome then storeRecord q (act (loadRecord q s)) else s

/-- What system software releases with a doorbell (R122, R262): every write of the host before it, and what the host has acquired. -/
def doorbellKnow (s : State) : List Crossing := opsKnow s (hostOps s) ++ s.p.hostKnow

/-- QUEUE_DOORBELL (R262): WRITE written, a release at .sys. -/
def execQueueDoorbell (p q : Nat) (v : BitVec 64) (s : State) : Out :=
  .next (onQueue p q (fun s => updQueue q (fun x => { queueLearn s (doorbellKnow s) x with write := v }) s) s)

/-- QUEUE_ENABLE (R263): CTL written with ENABLE 1. -/
def execQueueEnable (p q : Nat) (v : BitVec 64) (s : State) : Out :=
  .next (onQueue p q (fun s => if v.getLsbD 16 then ctlWrite q v s else s) s)

/-- QUEUE_DISABLE (R263): CTL written with ENABLE 0. -/
def execQueueDisable (p q : Nat) (v : BitVec 64) (s : State) : Out :=
  .next (onQueue p q (fun s => if v.getLsbD 16 then s else ctlWrite q v s) s)

/-- QUEUE_PREEMPT (R291): CTL written with PREEMPT 1. -/
def execQueuePreempt (p q : Nat) (v : BitVec 64) (s : State) : Out :=
  .next (onQueue p q (fun s => if v.getLsbD 17 then ctlWrite q v s else s) s)

/-- QUEUE_RESUME (R263): CTL written with RESUME 1. -/
def execQueueResume (p q : Nat) (v : BitVec 64) (s : State) : Out :=
  .next (onQueue p q (fun s => if v.getLsbD 18 then ctlWrite q v s else s) s)

/-- Whether no started packet of a queue is unretired. -/
def noneStarted (s : State) (q : Queue) : Bool :=
  (queueLaunches s q.num).isEmpty && !(s.p.copies.any fun c => c.queue = q.num) && !(s.p.bobs.any fun c => c.queue = q.num) &&
    !(s.p.bundles.any fun b => b.queue = q.num) && q.bars.isEmpty

/-- A queue DISABLED; events it holds are still posted, and a RESUME still to complete is gone. -/
def disable (x : Queue) : Queue :=
  heldTo .disabled { x with state := .disabled, err := 0, head := none, won := false, sweepStop := false, ctl := x.ctl &&& 0xFFFFFFFFFFFBFFFF }

/-- A queue PREEMPTED; events it holds are still posted and leave it so (R264, R281, R291). -/
def preempted (x : Queue) : Queue :=
  heldTo .preempted { x with state := .preempted, ctl := x.ctl &&& 0xFFFFFFFFFFFDFFFF, head := none, won := false }

/-- QUEUE_DISABLED (R264). -/
def execQueueDisabled (p q : Nat) (s : State) : Out :=
  .next (onQueue p q (fun s => match queue? s q with
    | none => s
    | some x => if !qEnable x && x.state ≠ .disabled && noneStarted s x then updQueue q disable s else s) s)

/-- Whether the pre-emption of a queue is complete: no team of its launches is resident and no seam of theirs is due (R322), its copies
and bobbin commands are done. -/
def preemptDone (s : State) (q : Nat) : Bool :=
  (queueLaunches s q).all (fun l => (launchTeams s l.id).isEmpty && !seamDue l) && !(s.p.copies.any fun c => c.queue = q) &&
    !(s.p.bobs.any fun c => c.queue = q)

/-- QUEUE_PREEMPTED (R291). -/
def execQueuePreempted (p q : Nat) (s : State) : Out :=
  .next (onQueue p q (fun s => match queue? s q with
    | none => s
    | some x =>
      if x.state = .active && qPreempt x && preemptDone s q then
        updQueue q preempted s
      else s) s)

/-- EVRD written: the halted queues post (R281). -/
def execEvrdWrite (p : Nat) (v : BitVec 64) (s : State) : Out := .next (ownerWrite p (fun s => postAll (onPart (fwWrite 0x033 v) s)) s)

/-! ### Bundles, copies and bobbin commands that end -/

/-- A bundle with the lowest-numbered of its members that have failed while running. -/
def failedMember (s : State) (b : Bundle) : Bundle :=
  let ls := (allLaunches s).filter fun l => l.id.part = s.p.num && l.bundle = some b.id && l.code_.isSome
  ls.foldl (fun b l => bundleFail (memberOfHandle l.id) (l.code_.getD 0) l.reported b) b

/-- A bundle aborted: its member launches end, and their commands update no signal (R272). R272 names no code for a member that had not
failed: it takes PACKET_ABORTED (DESIGN CHOICE, unsafe: notes/assumptions/85.md), and one with a code of its own keeps it. -/
def abortBundle (b : Bundle) (s : State) : State :=
  let s := { s with p := { s.p with bundles := s.p.bundles.map fun x => if x.id = b.id then { b with aborted := true } else x } }
  ((allLaunches s).filter fun l => l.id.part = s.p.num && l.bundle = some b.id).foldl (fun s l =>
    updLaunch l.id (fun l => { l with muted := true }) (endLaunch l.id errAborted s)) s

/-- BUNDLE_ABORT (R272). -/
def execBundleAbort (p b : Nat) (s : State) : Out :=
  let s := focusPart p s
  if s.p.live && s.p.num = p && s.p.tdisp = .run then
    match s.p.bundles.find? fun x => x.id = b with
    | none => .next s
    | some x =>
      let b := failedMember s x
      if x.aborted || b.failed.isNone then .next s else .next (abortBundle b s)
  else .next s

/-! ### The hub copy engine (R275) -/

/-- The part of n bytes from an offset of a piece of a copy. -/
def piecePart (x : HubPiece) (o n : Nat) : HubPiece := ⟨accPart x.src o n, accPart x.dst o n, x.val.map fun bs => (bs.drop o).take n⟩

/-- An update of the i-th COPY packet of the partition in focus. -/
def updHub (i : Nat) (f : HubCopy → HubCopy) (s : State) : State := { s with p := { s.p with copies := s.p.copies.modify i f } }

/-- The bytes of a piece of the i-th COPY packet: read now on the copy path, as the packet's start knows them, or before. -/
def hubRead (i : Nat) (c : HubCopy) (x : HubPiece) (s : State) : List Byte × State :=
  match x.val with
  | some bs => (bs, s)
  | none =>
    let src := locsFrom x.src.loc x.src.w
    (agentBytes s (some .copy) c.know src,
     updHub i (fun y => { y with reads := agentReads s (some .copy) c.know src ++ y.reads }) (eccRead src s))

/-- One piece of the i-th COPY packet moved on the copy path, the old bytes recorded for the other paths (R120). -/
def hubMove (p i : Nat) (c : HubCopy) (x : HubPiece) (s : State) : State :=
  let (bs, s) := hubRead i c x s
  let op : OpId := ⟨agentGid p 0, c.seq⟩
  writeKnown (agentOrder c.know) op .copy x.dst.loc x.dst.va bs s

/-- What a COPY packet's end releases: all before its start, what its reads have returned, and its own bytes (R117, R270). -/
def hubKnow (p : Nat) (c : HubCopy) : List Crossing := ⟨⟨agentGid p 0, c.seq⟩, .copy, none, none, 0, none⟩ :: (c.reads ++ c.know)

/-- The i-th COPY packet retires. -/
def hubEnd (p i : Nat) (code : Option W64) (s : State) : State :=
  match s.p.copies[i]? with
  | none => s
  | some c =>
    workRetire (some .copy) (hubKnow p c) c.queue c.pkt c.bundle c.mem c.csig code false
      { s with p := { s.p with copies := dropAt s.p.copies i } }

/-- The i-th COPY packet of a running partition. -/
def hubAt (s : State) (p i : Nat) : Option HubCopy := if s.p.live && s.p.num = p && s.p.tdisp = .run then s.p.copies[i]? else none

/-- The bytes that some pieces of a COPY packet have still to read. -/
def hubSrcs (xs : List HubPiece) : List Loc := accLocs ((xs.filter fun x => x.val.isNone).map HubPiece.src)

/-- HUB_COPY_COMPLETE (R275): the last bytes of the i-th copy, and then its CSIG. -/
def execHubCopyComplete (p i : Nat) (s : State) : Out :=
  let s := focusPart p s
  match hubAt s p i with
  | none => .next s
  | some c =>
    if poisoned s (hubSrcs c.pieces) then .next (hubEnd p i (some errMemory) s)
    else .next (hubEnd p i none (c.pieces.foldl (fun s x => hubMove p i c x s) s))

/-- n bytes at an offset of the j-th piece of the i-th copy moved, or only read, by themselves: its bytes have no order (R119, R275). -/
def hubPart (p i j o n : Nat) (only : Bool) (s : State) : State :=
  let s := focusPart p s
  match hubAt s p i with
  | none => s
  | some c =>
    match c.pieces[j]? with
    | none => s
    | some x =>
      let n := min n (x.src.w - o)
      if n = 0 then s
      else
        let m := piecePart x o n
        if poisoned s (hubSrcs [m]) then hubEnd p i (some errMemory) s
        else
          let put := fun (ys : List HubPiece) => updHub i fun y => { y with
            pieces := c.pieces.take j ++ (piecePart x 0 o :: ys ++ [piecePart x (o + n) (x.src.w - (o + n))]).filter (fun y => y.src.w ≠ 0) ++
              c.pieces.drop (j + 1) }
          if only then
            let (bs, s) := hubRead i c m s
            put [{ m with val := some bs }] s
          else put [] (hubMove p i c m s)

/-! ### Bobbin commands of packets (R243, R276) -/

/-- The op under which a BOB packet moves bytes. -/
def bobOp (p : Nat) (c : BobPkt) : OpId := ⟨agentGid p 0, c.seq⟩

/-- An update of the i-th BOB packet of the partition in focus. -/
def updPkt (i : Nat) (f : BobPkt → BobPkt) (s : State) : State := { s with p := { s.p with bobs := s.p.bobs.modify i f } }

/-- How the i-th BOB packet's command reads: on the bobbin path, after what is before its start. -/
def pktRead (i : Nat) (c : BobPkt) : ReadFn := fun as s =>
  (agentBytes s (some .bobbin) c.know as, updPkt i (fun y => { y with reads := agentReads s (some .bobbin) c.know as ++ y.reads }) s)

/-- What a BOB packet's end releases: all before its start, what its reads have returned, and its own bytes (R117, R270). -/
def pktKnow (p : Nat) (c : BobPkt) : List Crossing := ⟨bobOp p c, .bobbin, none, none, 0, none⟩ :: (c.reads ++ c.know)

/-- The i-th BOB packet retires. -/
def pktEnd (p i : Nat) (code : Option W64) (s : State) : State :=
  match s.p.bobs[i]? with
  | none => s
  | some c =>
    workRetire (some .bobbin) (pktKnow p c) c.queue c.pkt c.bundle c.mem c.csig code false
      { s with p := { s.p with bobs := dropAt s.p.bobs i } }

/-- The i-th BOB packet of a running partition. -/
def pktAt (s : State) (p i : Nat) : Option BobPkt := if s.p.live && s.p.num = p && s.p.tdisp = .run then s.p.bobs[i]? else none

/-- The i-th BOB packet of a partition finishes: its last moves, and then its CSIG. -/
def bobPacketFinish (p i : Nat) (s : State) : State :=
  let s := focusPart p s
  match pktAt s p i with
  | none => s
  | some c =>
    if poisoned s (moveSrcs c.moves) then pktEnd p i (some errMemory) s
    else pktEnd p i none (movesDo (agentOrder c.know) (bobOp p c) (pktRead i c) c.keep c.moves s)

/-- Some bytes of a move of the i-th BOB packet made or read by themselves, as those of a BOB command (R119, R243). -/
def bobPacketPart (p i j o n : Nat) (only : Bool) (s : State) : State :=
  let s := focusPart p s
  match pktAt s p i with
  | none => s
  | some c =>
    match cutMoves c.moves j o n with
    | none => s
    | some x =>
      if c.alias_ then s
      else if poisoned s (moveSrcs [x.2.1]) then pktEnd p i (some errMemory) s
      else
        let (ms, s) := moveSome (agentOrder c.know) (bobOp p c) (pktRead i c) c.keep only x s
        updPkt i (fun y => { y with moves := ms }) s

/-- A parity error at a bobbin network port or in a buffer of the hub copy engine meets the i-th packet there (R350): it retires with
MEMORY_ERROR and moves nothing more (R299). -/
def packetParity (bob : Bool) (p i : Nat) (s : State) : State :=
  let s := focusPart p s
  if bob then (pktAt s p i).elim s fun _ => pktEnd p i (some errMemory) s
  else (hubAt s p i).elim s fun _ => hubEnd p i (some errMemory) s

/-- BOB_COMMAND_COMPLETE (R243, R276). -/
def execBobCommandComplete (r : BobRef) (s : State) : Out :=
  match r with
  | .op k => .next (bobFinish k s)
  | .packet p i => .next (bobPacketFinish p i s)

end Sys2Proof.Machine
end

