-- ==== Sys2Proof/Machine/Save.lean ====
section
/-!
DEFINITION. The saved context (R309 to R314): the record's layout, the save of a team, the pre-emption deadline, and the restore.
-/
namespace Sys2Proof.Machine

/-! ### The record (R310 to R312) -/

/-- Bytes followed by zeros up to a length. -/
def padTo (n : Nat) (bs : List Byte) : List Byte := bs.take n ++ List.replicate (n - bs.length) 0

/-- The header section. -/
def recHeader (k : Kernel) (t : Team) : List Byte :=
  padTo 64 (([k.groups, k.regs, k.window, t.regs, k.slots, k.accs, k.tags, k.rings.length, k.bench].flatMap (leBytes 4)) ++
    leBytes 8 t.id.l.handle)

/-- The bounds section. -/
def recBounds (gs : List Group) : List Byte := padTo 64 (gs.flatMap fun g => leBytes 2 g.bound)

/-- The tags section: bit 7 of byte t is SET of tag t. -/
def recTags (t : Team) : List Byte := padTo 64 (t.tags.map fun x => if x.set then 0x80 else 0)

/-- A ring's section. -/
def recRing (r : List RingSlot) : List Byte :=
  padTo 64 (r.flatMap fun x => leBytes 4 (x.phase.toNat + 2 * x.full.toNat + 4 * x.ovr.toNat + 256 * x.remain))

/-- The barriers section. -/
def recBars (t : Team) : List Byte :=
  padTo 64 (t.bars.flatMap fun b => leBytes 4 b.gen ++ leBytes 4 ((b.arrived.map fun n => 2 ^ n).sum))

/-- The sequencer section (R323). -/
def recSeq (t : Team) : List Byte :=
  padTo 2048 (t.seqr.flatMap fun e => padTo 144 (leBytes 8 e.pc.toNat ++ leBytes 8 0 ++ e.done.flatMap (leBytes 4)))

/-- The accumulators of a group. -/
def recAccs (k : Kernel) (g : Group) : List Byte :=
  (List.range k.accs).flatMap fun j => (List.range 32).flatMap fun i => leBytes 8 (getA g j i).toNat

/-- A stream of a group record: base, stream word, MAPSTR bits 31:0, b and u. -/
def recStream (g : Group) (m : Nat) : List Byte :=
  match g.streams.find? fun e => e.1 = m with
  | none => List.replicate 32 0
  | some e =>
    padTo 32 (leBytes 8 e.2.base.toNat ++ leBytes 8 e.2.word.toNat ++ leBytes 4 e.2.fields.toNat ++ leBytes 4 (mdB (getMap g m)) ++
      leBytes 4 (mdU (getMap g m)))

/-- PC of a group record: the next slot to execute (R126). For a group that waits at a BAR it is the BAR's own slot (DESIGN CHOICE,
unsafe: notes/assumptions/84.md). -/
def recPc (g : Group) : Nat :=
  g.pc.toNat / 16 * 16 + (if g.pos = .fetch then g.slotB.toNat else if g.pos = .a then 0 else 1)

/-- GSTATE. -/
def recState (g : Group) : Nat :=
  let bar := match g.wait with
    | .bar id _ => 8 + 16 * id
    | _ => 0
  g.hmode.toNat + 2 * g.vec.toNat + 4 * g.park.isSome.toNat + bar + 128 * g.exited.toNat

/-- RFSTATE (R311). -/
def recRf (rf : Refine) : Nat :=
  let st := match rf.st with
    | .idle => 0 | .start => 1 | .factor => 2 | .solve => 3 | .resid => 4 | .test => 5
  let dec := match rf.dec with
    | .none => 0 | .continue => 1 | .escalate => 2 | .stop => 3
  st + 16 * rf.tier + 64 * dec + 65536 * rf.k

/-- Whether a form of R312 holds a register exactly. -/
def formFits (v : VReg) (f : Nat) : Bool :=
  let xs := (List.range 32).map fun i => v[i % 32]!
  match f with
  | 0 => xs.all fun x => x = v[0]!
  | 1 => (List.range 32).all fun i => v[i % 32]! = v[0]! + BitVec.ofNat 32 i * (v[1]! - v[0]!)
  | 2 => xs.all fun x => decide (x.toNat < 2 ^ 8)
  | 3 => xs.all fun x => x = (x.extractLsb' 0 8).signExtend 32
  | 4 => xs.all fun x => decide (x.toNat < 2 ^ 16)
  | 5 => xs.all fun x => x = (x.extractLsb' 0 16).signExtend 32
  | _ => true

/-- The format tag of a register (R312): the one it has in the backing store while it still holds the value, else the first form
that does. -/
def recTag (g : Group) (j : Nat) : Nat :=
  match g.forms.find? fun e => e.1 = j with
  | none => formOf (getV g j)
  | some e => if formFits (getV g j) e.2 then e.2 else formOf (getV g j)

/-- The tags of a group record, two a byte. -/
def recForms (k : Kernel) (g : Group) : List Byte :=
  let tag := fun (j : Nat) => if j < k.regs then recTag g j else 0
  (List.range 128).flatMap fun i => leBytes 1 (tag (2 * i) + 16 * tag (2 * i + 1))

/-- A group record (R311). -/
def recGroup (k : Kernel) (g : Group) : List Byte :=
  padTo 2048 (
    ((List.range 64).flatMap fun j => leBytes 8 (getS g j).toNat) ++ ((List.range 8).flatMap fun j => leBytes 4 (getP g j).toNat) ++
    leBytes 8 (((List.range 8).map fun j => if getK g j then 2 ^ j else 0).sum) ++ ((List.range 4).flatMap fun j => leBytes 4 (getN g j).toNat) ++
    leBytes 8 (recPc g) ++ leBytes 8 g.clkr.toNat ++ leBytes 8 (recState g) ++
    ((List.range 14).flatMap fun j => leBytes 8 (getMap g (j + 1)).toNat) ++ ((List.range 14).flatMap fun j => recStream g (j + 1)) ++
    leBytes 64 g.rf.desc.toNat ++ leBytes 8 (recRf g.rf) ++ leBytes 4 g.rf.nmin.toNat ++
    ((List.range 16).flatMap fun j => leBytes 4 (g.rf.hist[j % 16]!).toNat) ++ leBytes 20 0 ++ recForms k g)

/-- The bytes of a register in a form (R312), in its 128-byte slot. -/
def regForm (v : VReg) (f : Nat) : List Byte :=
  let lanes := fun (n : Nat) => (List.range 32).flatMap fun i => leBytes n (v[i % 32]!).toNat
  padTo 128 (match f with
    | 0 => leBytes 4 (v[0]!).toNat
    | 1 => leBytes 4 (v[0]!).toNat ++ leBytes 4 (v[1]! - v[0]!).toNat
    | 2 => lanes 1
    | 3 => lanes 1
    | 4 => lanes 2
    | 5 => lanes 2
    | _ => lanes 4)

/-- The backing store of a group: V slots of 128 bytes. -/
def recRegs (k : Kernel) (g : Group) : List Byte := (List.range k.regs).flatMap fun j => regForm (getV g j) (recTag g j)

/-- A whole context: team record, group records, and the registers. -/
def recAll (k : Kernel) (t : Team) (gs : List Group) : List Byte :=
  recHeader k t ++ recBounds gs ++ recTags t ++ t.rings.flatMap recRing ++ recBars t ++ recSeq t ++
    memBytes t.slots 0 (2048 * k.slots) ++ gs.flatMap (recAccs k) ++ memBytes t.bench 0 k.bench ++
    gs.flatMap (fun g => memBytes g.harea 0 2048) ++ gs.flatMap (recGroup k) ++ gs.flatMap (recRegs k)

/-- The bytes of every instance of a size, in ascending number. -/
def recInsts (n : Nat) (ids : List Nat) (xs : List (Nat × Mem)) : List Byte :=
  ids.flatMap fun i => memBytes (((xs.find? fun e => e.1 = i).map Prod.snd).getD []) 0 n

/-- Loft and yard instances saved with a team (R309): a replay task's own, or all of the launch's with its last resident team. They follow
the team's record in the pool (notes/assumptions/61.md). -/
def recScratch (s : State) (t : Team) : List Byte :=
  let k := s.l.kern
  if s.l.replay then memBytes t.tloft 0 k.loft ++ memBytes t.tyard 0 k.yard
  else if (launchTeams s s.l.id).all fun x => x.id = t.id then
    recInsts k.loft (partClusters s.p) s.l.loft ++ recInsts k.yard (distDies s.p) s.l.yard
  else []

/-! ### The save (R309, R314) -/

/-- Whether a waiting op is withdrawn and reissued on restore. -/
def withdrawn : Wait → Bool
  | .wait .. | .tags .. | .tfirst .. | .sigwait .. | .ringget .. | .ringexp .. | .ringput .. | .ord .. => true
  | _ => false

/-- Whether a group stands still for a save: at a word's start, in an op that is withdrawn, at a barrier, parked, or exited; a
group in handler mode only once the deadline has passed. -/
def still (expired : Bool) (g : Group) : Bool :=
  g.exited ||
    ((!g.hmode || expired) &&
      (match g.park with
       | some p => !p.failed
       | none =>
         match g.wait with
         | .bar .. => true
         | .none => g.pos = .fetch
         | w => withdrawn w))

/-- Whether a team's save can be made now. -/
def saveReady (s : State) (t : Team) : Bool :=
  match t.save with
  | none => false
  | some r => (teamGroups s t.id).all fun g => still r.expired g && drained g

/-- Buffers of a stream whose block has not arrived hold zeros in the record (R310). -/
def dropPartial (g : Group) (m : Mem) : Mem :=
  g.streams.foldl (fun m e =>
    let d := getMap g e.1
    let n := 2048 * slotsOf (mdFmt d)
    let m := if e.2.here then m else memClear m (streamBase d (mdB d)) n
    if e.2.ahead then m else memClear m (streamBase d (mdB d + 1)) n) m

/-- A stream as it goes on after a restore: a block that had not arrived whole is fetched again (R310). -/
def asleepStream (e : Nat × Stream) : Nat × Stream :=
  (e.1, { e.2 with gotHere := if e.2.here then e.2.gotHere else [], gotAhead := if e.2.ahead then e.2.gotAhead else [] })

/-- A group as it goes on after a restore: a withdrawn or parked op reissues; a group at a barrier stays arrived. -/
def asleep (g : Group) : Group :=
  let g := { g with streams := g.streams.map asleepStream }
  match g.wait, g.park with
  | .bar .., none => g
  | _, _ =>
    { g with slotB := if g.pos = .fetch then g.slotB else g.pos ≠ .a, pos := .fetch, dec := none, wait := .none, park := none }

/-- Whether n bytes from an offset of the pool are free of other records. -/
def poolFree (p : Part) (at_ n : Nat) : Bool := p.saved.all fun x => at_ + n ≤ x.at_ || x.at_ + x.record.length ≤ at_

/-- The lowest free place in the pool: its start, or just past a record, at a multiple of 64. -/
def poolPlace (p : Part) (n : Nat) : Option Nat :=
  let at_ := (0 :: p.saved.map fun x => (x.at_ + x.record.length + 63) / 64 * 64).foldl (fun acc a =>
    if poolFree p a n then (match acc with
      | none => some a
      | some b => some (min a b)) else acc) none
  at_.bind fun a => if a + n ≤ p.regs.spillsize.toNat then some a else none

/-- Whether a save of the team reads a line: its bench, its groups' handler areas, and the loft and yard instances saved with it. -/
def saveLine (s : State) (t : Team) (l : Home × Nat) : Bool :=
  let k := s.l.kern
  let last := (launchTeams s s.l.id).all fun x => x.id = t.id
  match l.1 with
  | .phys => false
  | .bench x => x = t.id && decide (32 * l.2 < k.bench)
  | .handler x => x.t = t.id
  | .loft x _ => !s.l.replay && x = s.l.id && last && decide (32 * l.2 < k.loft)
  | .yard x _ => !s.l.replay && x = s.l.id && last && decide (32 * l.2 < k.yard)
  | .taskLoft x => s.l.replay && x = t.id && decide (32 * l.2 < k.loft)
  | .taskYard x => s.l.replay && x = t.id && decide (32 * l.2 < k.yard)

/-- The team in focus saved: records written and sealed, grants released, fault-buffer entries freed. An uncorrectable error in what
it reads ends the launch, and nothing is written (R299). Without room in the pool, or a translation of it, the team stays resident and
held (DESIGN CHOICE, unsafe: notes/assumptions/107.md). -/
def saveTeam (s : State) : State :=
  if s.dev.poison.any (saveLine s s.t) then endLaunch s.l.id errMemory s
  else
  let s := eccLines (saveLine s s.t) s
  let gs := teamGroups s s.t.id
  let t := { s.t with slots := gs.foldl (fun m g => dropPartial g m) s.t.slots, save := none }
  let bytes := recAll s.l.kern t gs ++ recScratch s t
  match poolPlace s.p bytes.length, s.p.sealKey with
  | some a, some key =>
    match virtWrite (s.p.regs.spillbase + BitVec.ofNat 64 a) bytes s with
    | none => s
    | some s =>
      let x : Saved := { at_ := a, team := t, groups := gs.map asleep, record := bytes, digest := Config.sealDigest key bytes }
      { s with
        p := { s.p with saved := s.p.saved ++ [x], fb := s.p.fb.filter fun e => e.k.t ≠ t.id }
        g := if s.g.id.t = t.id then { s.g with live := false } else s.g
        groups := s.groups.filter fun g => g.id.t ≠ t.id
        t := { s.t with live := false } }
  | _, _ => s

/-- The focus of a resident team with its launch and partition. -/
def focusAll (t : Tid) (s : State) : State := focusTeam t (focusLaunch t.l (focusPart t.l.part s))

/-- Whether a team of a running launch is in focus. -/
def teamHere (t : Tid) (s : State) : Bool :=
  s.t.live && s.t.id = t && s.l.live && s.l.id = t.l && s.p.live && s.p.num = t.l.part && s.p.tdisp = .run

/-- TEAM_SAVE (R309). -/
def execTeamSave (t : Tid) (s : State) : Out :=
  let s := focusAll t s
  if teamHere t s && s.l.code_.isNone && saveReady s s.t then .next (saveTeam s) else .next s

/-- PDEADLINE_EXPIRY (R309, R314). -/
def execPdeadlineExpiry (t : Tid) (s : State) : Out :=
  let s := focusAll t s
  match s.t.save with
  | none => .next s
  | some r =>
    if teamHere t s && decide (r.at_ + s.p.regs.pdeadline.toNat ≤ s.now) then
      .next { s with t := { s.t with save := some { r with expired := true } } }
    else .next s

/-- FIRMWARE_SAVE_REQUEST (R309). -/
def execFirmwareSaveRequest (t : Tid) (s : State) : Out :=
  let s := focusAll t s
  if teamHere t s && s.t.save.isNone then .next { s with t := { s.t with save := some ⟨s.now, false⟩ } } else .next s

/-! ### The restore (R313) -/

/-- A block of exactly the saved number of registers on a core. -/
def restoreBlock (s : State) (core n : Nat) : Option Nat := ((freeBlocks s core).find? fun b => decide (n ≤ b.2)).map Prod.fst

/-- Whether a core can take a saved team: its grants, and its instances where they were (R309). -/
def restoreCore (s : State) (x : Saved) (core : Nat) : Bool :=
  (partCores s.p).contains core && grantsFit s core s.l.kern && privateFits s s.l core && backingFits s s.l.kern x.team.regs &&
    (s.l.replay || ((s.l.kern.loft = 0 || clusterOf core = clusterOf x.team.core) && (s.l.kern.yard = 0 || dieOf core = dieOf x.team.core)))

/-- A restored team on a core, each group in a free slot. -/
def wakeTeam (x : Saved) (core block : Nat) (s : State) : State :=
  let t := { x.team with core := core, block := block }
  let slots := slotsFor s core s.l.kern.groups
  let gs := x.groups.zipIdx.map fun e => { e.1 with slot := slots.getD e.2 0, since := s.tick }
  rebase t { s with
    p := { s.p with saved := s.p.saved.filter fun y => y.team.id ≠ t.id }
    teams := s.teams ++ [t]
    groups := s.groups ++ gs }

/-- Whether the record in the pool is the one that was sealed (R313); one whose pages do not translate is not (DESIGN CHOICE, unsafe:
notes/assumptions/108.md). -/
def sealHolds (s : State) (x : Saved) : Bool :=
  match virtRead s (s.p.regs.spillbase + BitVec.ofNat 64 x.at_) x.record.length, s.p.sealKey with
  | some bs, some key => bs = x.record && Config.sealDigest key bs = x.digest
  | _, _ => false

/-- The bytes of a record in the pool. -/
def savedLocs (s : State) (x : Saved) : List Loc := virtLocs s (s.p.regs.spillbase + BitVec.ofNat 64 x.at_) x.record.length

/-- RESTORE (R313): an uncorrectable error in the record ends the launch (R299); a digest that does not match ends the launch with
RESTORE_INVALID. A team that blocks a die does not keep a restore off it, and a restore is no offer to the teams that wait (R288; DESIGN
CHOICE, unsafe: notes/assumptions/95.md). -/
def execRestore (t : Tid) (core : Nat) (s : State) : Out :=
  let s := focusLaunch t.l (focusPart t.l.part s)
  if s.l.live && s.l.id = t.l && s.p.live && s.p.num = t.l.part && s.p.tdisp = .run && !s.l.held && s.l.code_.isNone then
    match s.p.saved.find? fun x => x.team.id = t with
    | none => .next s
    | some x =>
      if poisoned s (savedLocs s x) then .next (endLaunch s.l.id errMemory s)
      else
        let s := eccRead (savedLocs s x) s
        if !sealHolds s x then .next (endLaunch s.l.id (trapCode 22) s)
        else if restoreCore s x core then
          match restoreBlock s core x.team.regs with
          | none => .next s
          | some b => .next (wakeTeam x core b s)
        else .next s
  else .next s

end Sys2Proof.Machine
end

