-- ==== Sys2Proof/Machine/Mgmt.lean ====
section
/-!
DEFINITION. Partitions and management (R325 to R335, R341, R342): halting and scrubbing a partition, the management commands, the
management status word, and the interface states of TDISP.
-/
namespace Sys2Proof.Machine

/-! ### Halting and scrubbing (R331) -/

/-- A partition halted: nothing of it runs, drains or completes any more (R331). -/
def haltPart (n : Nat) (s : State) : State :=
  { s with
    g := if s.g.id.t.l.part = n then { s.g with live := false } else s.g
    groups := s.groups.filter fun g => g.id.t.l.part ≠ n
    t := if s.t.id.l.part = n then { s.t with live := false } else s.t
    teams := s.teams.filter fun t => t.id.l.part ≠ n
    l := if s.l.id.part = n then { s.l with live := false } else s.l
    launches := s.launches.filter fun l => l.id.part ≠ n
    recs := s.recs.filter fun r => r.op.k.t.l.part ≠ n
    rels := s.rels.filter fun r => r.op.k.t.l.part ≠ n }

/-- What a halted partition keeps of its engines: nothing. -/
def stopEngines (p : Part) : Part :=
  { p with copies := [], bobs := [], bundles := [], fb := [], saved := [] }

/-- A status byte answered. -/
def status (code : Nat) (s : State) : State := reply (.status code) s

/-- INVALID_INTERFACE_STATE. -/
def wrongState (s : State) : State := reply (.tdispError .invalidInterfaceState) s

/-- An answer given n times. -/
def times (f : State → State) : Nat → State → State
  | 0, s => s
  | n + 1, s => times f n (f s)

/-- A partition in focus moved to ERROR (R329, R331). -/
def toError (s : State) : State :=
  let s := haltPart s.p.num s
  { s with p := { stopEngines s.p with tdisp := .error, lockWait := 0 } }

/-- The LOCK requests that wait for a scrub, refused: the lock never comes (notes/assumptions/75.md). -/
def refuseWaiting (s : State) : State := times wrongState s.p.lockWait s

/-- A partition whose scrub begins: halted as in ERROR until it ends; `release` says that it ends in release (R331). -/
def startScrub (release : Bool) (s : State) : State :=
  let s := toError (refuseWaiting s)
  { s with p := { s.p with scrub := some release } }

/-- A queue after a scrub: DISABLED, READ, WRITE and STATUS cleared, its lane state zero. -/
def freshQueue (q : Queue) : Queue :=
  { q with write := 0, read := 0, ctl := 0, base := 0, state := .disabled, err := 0, passed := 0, head := none, bars := [], won := false,
           held := [], sweepStop := false, know := [] }

/-- A fresh key drawn for a slot (R331, R341). -/
def drawKey (slot : Nat) (d : Module) : Module :=
  { d with keyGen := (slot, d.draws + 1) :: d.keyGen.filter fun e => e.1 ≠ slot, draws := d.draws + 1 }

/-- Lines written with fresh ECC hold no error any more. -/
def cleanLines (clean : Home × Nat → Bool) (d : Module) : Module :=
  { d with poison := d.poison.filter fun l => !clean l, corrected := d.corrected.filter fun l => !clean l }

/-- The scrub of R331 on the partition in focus: keys, memory with its ECC, on-chip memories, registers, sessions and the seal. -/
def scrubPart (s : State) : State :=
  let p := s.p
  { s with
    dev := cleanLines (linePart p) { p.keys.foldl (fun d k => drawKey k d) s.dev with
      transcripts := s.dev.transcripts.filter fun e => e.1 ≠ p.num }
    hbm := p.grants.foldl (fun m g => memClear m g.base g.size) s.hbm
    p := { stopEngines p with
      tdisp := .unlocked, queues := p.queues.map freshQueue, regs := .reset, rtime0 := none, lot := 1, tlb := [],
      sessions := [], sealKey := none, nonce := none, secDomain := none, scrub := none, hostKnow := [],
      lockWait := p.lockWait } }

/-- The partition in focus released (R331). -/
def releasePart (s : State) : State := { s with p := { s.p with live := false } }

/-- PARTITION_SCRUB_COMPLETE (R331). -/
def execPartitionScrubComplete (p : Nat) (s : State) : Out :=
  let s := focusPart p s
  if s.p.live && s.p.num = p then
    match s.p.scrub with
    | none => .next s
    | some release => if release then .next (releasePart (scrubPart s)) else .next (scrubPart s)
  else .next s

/-- GRANT_SCRUB_COMPLETE (R342): the i-th grant is zero. -/
def execGrantScrubComplete (p i : Nat) (s : State) : Out :=
  let s := focusPart p s
  match (if s.p.live && s.p.num = p then s.p.grants[i]? else none) with
  | none => .next s
  | some g =>
    if g.scrubbing then
      .next { s with
        hbm := memClear s.hbm g.base g.size
        dev := cleanLines (fun l => l.1 = .phys && decide (g.base ≤ l.2 * 32) && decide (l.2 * 32 < g.base + g.size)) s.dev
        p := { s.p with grants := s.p.grants.zipIdx.map fun e => if e.2 = i then { e.1 with scrubbing := false } else e.1 } }
    else .next s

/-! ### Conversations (R345) -/

/-- An algorithm set as bytes. -/
def offerBytes (o : AlgOffer) : List Byte :=
  let algs := fun (xs : List ExtAlg) =>
    leBytes 1 xs.length ++ xs.flatMap fun x => leBytes 1 x.registry.toNat ++ leBytes 1 x.reserved.toNat ++ leBytes 2 x.algorithm.toNat
  leBytes 4 o.baseAsym ++ algs o.extAsym ++ leBytes 4 o.baseHash ++ algs o.extHash ++
    leBytes 2 o.dheBase ++ algs o.dhe ++ leBytes 2 o.reqAsymBase ++ algs o.reqAsym ++
    leBytes 1 (o.aeadAes256Gcm.toNat + 2 * o.keySchedule.toNat + 4 * o.rawMeasurement.toNat)

/-- The number of an interface state in reports and answers. -/
def tdispNum : Tdisp → Nat
  | .unlocked => 0 | .locked => 1 | .run => 2 | .error => 3

/-- A TDISP request as bytes. -/
def tdispBytes : TdispReq → List Byte
  | .lock => leBytes 1 0
  | .start n => leBytes 1 1 ++ leBytes 32 n.toNat
  | .stop => leBytes 1 2
  | .state => leBytes 1 3
  | .report n => leBytes 1 4 ++ leBytes 32 n.toNat

/-- An answer as bytes of a transcript. -/
def replyBytes : Reply → List Byte
  | .status c => leBytes 1 c
  | .word w => leBytes 8 w.toNat
  | .spdm _ b => b
  | .spdmError e => leBytes 1 (match e with
    | .unsupportedRequest => 0 | .sessionLimitExceeded => 1 | .negotiationFail => 2 | .invalidSession => 3)
  | .tdispError e => leBytes 1 (match e with
    | .invalidInterfaceState => 0 | .invalidRequest => 1)
  | .tdispOk => []
  | .tdispState st => leBytes 1 (tdispNum st)
  | .nonce n => leBytes 32 n.toNat
  | .algorithms o => offerBytes o
  | .session id b => leBytes 4 id ++ b
  | .signed b sig => b ++ sig
  | .ack => []
  | .data b => b
  | .nack r => r.elim [] (leBytes 1)

/-- The transcript of an identity. -/
def transcript (s : State) (tgt : Nat) : List SpdmMsg := (s.dev.transcripts.find? fun e => e.1 = tgt).elim [] Prod.snd

/-- An update of an identity's transcript. -/
def updTranscript (tgt : Nat) (f : List SpdmMsg → List SpdmMsg) (s : State) : State :=
  { s with dev := { s.dev with
      transcripts := (tgt, f (transcript s tgt)) :: s.dev.transcripts.filter fun e => e.1 ≠ tgt } }

/-- The answer to a management command, which is no message of a conversation (R333). -/
def Reply.isStatus : Reply → Bool
  | .status _ => true
  | _ => false

/-- The answers that left after the first n, added to an identity's transcript. -/
def heard (tgt code n : Nat) (s : State) : State :=
  match (s.dev.out.drop n).filter fun r => !r.isStatus with
  | [] => s
  | rs => updTranscript tgt (fun m => m ++ rs.map fun r => ⟨true, code, replyBytes r⟩) s

/-- A request with its answers in the identity's transcript, which begins anew at GET_VERSION (notes/assumptions/63.md). -/
def converse (tgt code : Nat) (body : List Byte) (act : State → State) (s : State) : State :=
  let n := s.dev.out.length
  heard tgt code n (act (updTranscript tgt (fun m => (if code = 0x84 then [] else m) ++ [⟨false, code, body⟩]) s))

/-! ### Management commands (R332, R333) -/

/-- The device-level session of a command. -/
def devSession (s : State) (ses : Option Nat) : Option Session := ses.bind fun n => s.dev.sessions.find? fun x => x.id = n && x.fin

/-- Whether a session may command: mutually authenticated with the owner's key, and no provisioning session (R332). -/
def ownerSession (s : State) (x : Session) : Bool := !x.prov && s.dev.ownerHash.isSome && x.digest = s.dev.ownerHash

/-- A command on the partition in focus: in CONFIG_LOCKED or RUN it is refused and moves the partition to ERROR (R333). Behind a
LOCK that waits for a scrub it waits in its turn: the owner's request is executed first (R333, notes/assumptions/75.md). -/
def onState (act : State → State) (s : State) : Option State :=
  if 0 < s.p.lockWait then none
  else
    match s.p.tdisp with
    | .unlocked => some (act s)
    | .locked => some (status 1 (toError s))
    | .run => some (status 1 (toError s))
    | .error => some (status 1 s)

/-- A command that needs an existing partition in CONFIG_UNLOCKED (R333). Of two failing conditions the number of the partition is judged
first, then its existence and state, then the other arguments, then the resources (DESIGN CHOICE, unsafe: notes/assumptions/43.md). -/
def onUnlocked (n : Nat) (act : State → State) (s : State) : Option State :=
  let s := focusPart n s
  if decide (15 < n) then some (status 3 s)
  else if s.p.live && s.p.num = n then onState act s
  else some (status 1 s)

/-- PART_CREATE's effect. -/
def createPart (n : Nat) (s : State) : State :=
  { s with parts := s.parts ++ [{ Part.idle with num := n, live := true }] }

/-- PART_CREATE when its turn comes. -/
def partCreate (p : Nat) (s : State) : Option State :=
  let s := focusPart p s
  if decide (15 < p) then some (status 3 s)
  else if s.p.live && s.p.num = p then onState (status 1) s
  else some (status 0 (createPart p s))

/-- Whether a resource belongs to some partition. -/
def taken (s : State) (f : Part → Bool) : Bool := (allParts s).any f

/-- PART_ADD_HALF when its turn comes. -/
def partAddHalf (p h : Nat) : State → Option State :=
  onUnlocked p fun s =>
    if decide (15 < h) then status 3 s
    else if taken s fun x => x.halves.contains h then status 2 s
    else status 0 { s with p := { s.p with halves := h :: s.p.halves } }

/-- A queue that joins a partition: DISABLED, its record at reset (R262 to R264). -/
def newQueue (n : Nat) : Queue :=
  { num := n, base := 0, write := 0, read := 0, ctl := 0, state := .disabled, err := 0, passed := 0, head := none, bars := [],
    won := false, held := [], sweepStop := false, know := [] }

/-- PART_ADD_QUEUE when its turn comes. -/
def partAddQueue (p q : Nat) : State → Option State :=
  onUnlocked p fun s =>
    if decide (127 < q) then status 3 s
    else if taken s fun x => x.queues.any fun y => y.num = q then status 2 s
    else status 0 { s with p := { s.p with queues := s.p.queues ++ [newQueue q] } }

/-- The free key slots, ascending: 1 to 127 (R334). -/
def freeKeys (s : State) : List Nat := ((List.range 128).filter fun k => k ≠ 0 && !taken s fun x => x.keys.contains k)

/-- PART_ADD_KEYS when its turn comes: the n lowest free slots, each with a fresh key (R341). -/
def partAddKeys (p n : Nat) : State → Option State :=
  onUnlocked p fun s =>
    let ks := (freeKeys s).take n
    if decide (ks.length < n) then status 2 s
    else status 0 { s with p := { s.p with keys := s.p.keys ++ ks }, dev := ks.foldl (fun d k => drawKey k d) s.dev }

/-- The end of HBM: physical addresses from here upward hold nothing (R327). -/
def physEnd : Nat := 0xC000000000

/-- A granule of 1 GiB. -/
def gib : Nat := 2 ^ 30

/-- PART_ADD_MEM when its turn comes (R327, R342): the grant's scrub starts. A slot that the partition does not hold, be it 0 or above 127, is
a resource that is unavailable (DESIGN CHOICE, unsafe: notes/assumptions/43.md). -/
def partAddMem (p base size slot : Nat) : State → Option State :=
  onUnlocked p fun s =>
    if base % gib ≠ 0 || size % gib ≠ 0 || size = 0 || decide (physEnd < base + size) then status 3 s
    else if taken s (fun x => x.grants.any fun g => meetR (g.base, g.size) (base, size)) || !s.p.keys.contains slot ||
        decide (64 ≤ s.p.grants.length) then status 2 s
    else status 0 { s with p := { s.p with grants := s.p.grants ++ [⟨base, size, slot, true⟩] } }

/-- PART_SET_REG when its turn comes: a firmware write. -/
def partSetReg (p num : Nat) (v : BitVec 64) : State → Option State :=
  onUnlocked p fun s => if fwWritable num && fwValueOk num v then status 0 (onPart (fwWrite num v) s) else status 3 s

/-- PART_DESTROY when its turn comes (R331): the scrub starts; release follows it. Status 0 is answered as the scrub begins (DESIGN CHOICE,
unsafe: notes/assumptions/109.md). -/
def partDestroy (p : Nat) (s : State) : State :=
  let s := focusPart p s
  if decide (15 < p) then status 3 s
  else if s.p.live && s.p.num = p then status 0 (startScrub true s)
  else status 1 s

/-- PARTMASK. -/
def partMask (s : State) : Nat := ((List.range 16).map fun n => if (part? s n).isSome then 2 ^ n else 0).sum

/-- The management status word (R335). -/
def statusWord (s : State) : W64 :=
  BitVec.ofNat 64 (partMask s * 2 ^ 32 + (s.dev.fault % 256) * 2 ^ 24 + (s.dev.stage % 16) * 2 ^ 16 + 2 * s.dev.throttle.toNat + s.dev.ready.toNat)

/-- MGMT_STATUS when its turn comes. -/
def mgmtStatus (s : State) : State := reply (.word (statusWord s)) s

/-- SET_OWNERHASH when its turn comes (R332): written once; then every provisioning session ends. -/
def setOwnerhash (h : BitVec 512) (s : State) : State :=
  if s.dev.ownerHash.isSome then status 1 s
  else status 0 { s with dev := { s.dev with ownerHash := some h, sessions := s.dev.sessions.filter fun x => !x.prov } }

/-- A management command executed; none where it has to wait behind a LOCK. -/
def doCommand (i : Instr) (s : State) : Option State :=
  match i with
  | .partCreate _ p => partCreate p s
  | .partAddHalf _ p h => partAddHalf p h s
  | .partAddQueue _ p q => partAddQueue p q s
  | .partAddKeys _ p n => partAddKeys p n s
  | .partAddMem _ p base size slot => partAddMem p base size slot s
  | .partSetReg _ p num v => partSetReg p num v s
  | .partDestroy _ p => some (partDestroy p s)
  | .mgmtStatus => some (mgmtStatus s)
  | .setOwnerhash _ h => some (setOwnerhash h s)
  | _ => some s

/-- A received command executed: one from a session that may not give it is answered with status 1 (R332). -/
def doReceived (c : Received) (s : State) : Option State := if c.ok then doCommand c.cmd s else some (status 1 s)

/-- Commands executed in the order in which the endpoint received them, up to one that has to wait (R333). -/
def executeAll : List Received → State → State
  | [], s => { s with dev := { s.dev with waiting := [] } }
  | c :: cs, s =>
    match doReceived c s with
    | some t => executeAll cs t
    | none => { s with dev := { s.dev with waiting := c :: cs } }

/-- The commands that waited have their turn (R333). A module fault leaves them unanswered (R354). -/
def drainCommands (s : State) : State := if s.dev.ready then executeAll s.dev.waiting s else s

/-- A command received: executed at once where none waits before it and it need not wait itself, else in its turn (R333). -/
def receive (c : Received) (s : State) : State :=
  let wait := { s with dev := { s.dev with waiting := s.dev.waiting ++ [c] } }
  if s.dev.waiting.isEmpty then (doReceived c s).getD wait else wait

/-- A command of an owner's session: unanswered before READY (R354). -/
def command (ses : Option Nat) (i : Instr) (s : State) : State :=
  if !s.dev.ready then s else receive ⟨i, (devSession s ses).any (ownerSession s)⟩ s

/-- PART_CREATE (R333). -/
def execPartCreate (ses : Option Nat) (p : Nat) (s : State) : Out := .next (command ses (.partCreate ses p) s)

/-- PART_ADD_HALF (R333). -/
def execPartAddHalf (ses : Option Nat) (p h : Nat) (s : State) : Out := .next (command ses (.partAddHalf ses p h) s)

/-- PART_ADD_QUEUE (R333). -/
def execPartAddQueue (ses : Option Nat) (p q : Nat) (s : State) : Out := .next (command ses (.partAddQueue ses p q) s)

/-- PART_ADD_KEYS (R333). -/
def execPartAddKeys (ses : Option Nat) (p n : Nat) (s : State) : Out := .next (command ses (.partAddKeys ses p n) s)

/-- PART_ADD_MEM (R333). -/
def execPartAddMem (ses : Option Nat) (p base size slot : Nat) (s : State) : Out :=
  .next (command ses (.partAddMem ses p base size slot) s)

/-- PART_SET_REG (R333). -/
def execPartSetReg (ses : Option Nat) (p num : Nat) (v : BitVec 64) (s : State) : Out := .next (command ses (.partSetReg ses p num v) s)

/-- PART_DESTROY (R333). -/
def execPartDestroy (ses : Option Nat) (p : Nat) (s : State) : Out := .next (command ses (.partDestroy ses p) s)

/-- MGMT_STATUS without a session (R335): before READY it waits for nothing. -/
def askStatus (s : State) : State := if s.dev.ready then receive ⟨.mgmtStatus, true⟩ s else mgmtStatus s

/-- MGMT_STATUS (R335): always answered. -/
def execMgmtStatus (s : State) : Out := .next (askStatus s)

/-- SET_OWNERHASH (R332), from any device-level session. -/
def execSetOwnerhash (ses : Option Nat) (h : BitVec 512) (s : State) : Out :=
  .next (if !s.dev.ready then s else receive ⟨.setOwnerhash ses h, (devSession s ses).isSome⟩ s)

/-- An uncorrectable error in a key slot of a partition (R329, R350). -/
def keySlotError (p slot : Nat) (s : State) : State :=
  let s := focusPart p s
  if s.p.live && s.p.num = p && s.p.keys.contains slot && (s.p.tdisp = .locked || s.p.tdisp = .run) then toError s else s

/-! ### The interface (R329, R330) -/

/-- A TDISP request inside a completed session of its partition; any other is refused as InvalidSession. -/
def tdisp (n ses : Nat) (r : TdispReq) (act : State → State) (s : State) : State :=
  if !s.dev.ready then s
  else
    let s := focusPart n s
    if s.p.live && s.p.num = n then
      converse n 0xFE (leBytes 4 ses ++ tdispBytes r) (fun s =>
        if s.p.sessions.any fun x => x.id = ses && x.fin then act s else reply (.spdmError .invalidSession) s) s
    else s

/-- The lock takes effect once no scrub runs: a nonce is drawn and returned; the first lock derives the seal key (R329, R346). Of
several LOCK requests that wait the first locks, and each other one then finds CONFIG_LOCKED. -/
def lockDone (s : State) : State :=
  if 0 < s.p.lockWait && s.p.tdisp = .unlocked && s.p.scrub.isNone && !(s.p.grants.any Grant.scrubbing) then
    let n := Config.nonce s.dev.draws
    times wrongState (s.p.lockWait - 1) (reply (.nonce n) { s with
      p := { s.p with tdisp := .locked, lockWait := 0, nonce := some n, sealKey := some (s.p.sealKey.getD (s.dev.draws + 1)) }
      dev := { s.dev with draws := s.dev.draws + 2 } })
  else s

/-- LOCK_INTERFACE_REQUEST: it takes effect at once, or waits for the scrubs that are running (R329). -/
def tdispLock (s : State) : State :=
  if s.p.tdisp = .unlocked || s.p.scrub = some false then lockDone { s with p := { s.p with lockWait := s.p.lockWait + 1 } }
  else wrongState s

/-- START_INTERFACE_REQUEST: with the lock's nonce the partition runs; its generator is seeded (R282) and RTIME starts (R307). -/
def tdispStart (n : BitVec 256) (s : State) : State :=
  if s.p.tdisp ≠ .locked then wrongState s
  else if s.p.nonce = some n then
    let seed := s.p.regs.lotseed
    reply .tdispOk { s with p := { s.p with tdisp := .run, rtime0 := some s.now, lot := if seed = 0 then 1 else seed } }
  else reply (.tdispError .invalidRequest) s

/-- STOP_INTERFACE_REQUEST: the scrub toward CONFIG_UNLOCKED. It is answered as the scrub begins (DESIGN CHOICE, unsafe:
notes/assumptions/109.md), and a second STOP while it runs is a request in the wrong state (DESIGN CHOICE, unsafe: notes/assumptions/110.md). -/
def tdispStop (s : State) : State :=
  if s.p.tdisp = .unlocked then wrongState s
  else if s.p.scrub.isSome then wrongState s
  else reply .tdispOk (startScrub false s)

/-- GET_DEVICE_INTERFACE_STATE. -/
def tdispGetState (s : State) : State := reply (.tdispState s.p.tdisp) s

/-- The measurement registers and digests as bytes (R345). -/
def measureBytes (d : Module) : List Byte :=
  (d.digests.flatMap fun e => leBytes 1 e.1 ++ leBytes 64 e.2.toNat) ++ (List.range 16).flatMap fun j => leBytes 64 (d.m[j % 16]!).toNat

/-- The F-level registers of a report: those that firmware both reads and writes as a value (`F rw` in R307). A register that the
hardware moves by itself (RTIME, EVWR, FBDATA0 to FBDATA3, ECCCNT) is not among them, since reports in CONFIG_LOCKED and RUN differ
only in the state and the measurements (R345). DEDUCED, unsafe, notes/assumptions/76.md. -/
def reported : List Nat := [0x010, 0x011, 0x020, 0x021, 0x023, 0x024, 0x030, 0x031, 0x033, 0x034, 0x040]

/-- The report of R330: state, half-dies, queues, key slots, grants, F-level registers, measurements. -/
def reportBytes (s : State) : List Byte :=
  let p := s.p
  leBytes 1 (tdispNum p.tdisp) ++ (((List.range 16).filter p.halves.contains).flatMap (leBytes 1)) ++ ((queueNums p).flatMap (leBytes 1)) ++
    (((List.range 128).filter p.keys.contains).flatMap (leBytes 1)) ++
    (p.grants.flatMap fun g => leBytes 8 g.base ++ leBytes 8 g.size ++ leBytes 1 g.slot) ++
    (reported.flatMap fun n => leBytes 2 n ++ leBytes 8 (fwRead s p n).toNat) ++ measureBytes s.dev

/-- A body signed with the device identity key over the identity's transcript, which ends with the request, its nonce, and the body
(R345). -/
def signedReply (tgt code : Nat) (body : List Byte) (s : State) : State :=
  let m := transcript s tgt ++ [⟨true, code, body⟩]
  reply (.signed body (Config.signature (m.map fun x => (x.sent, x.code, x.body))).toList) s

/-- GET_DEVICE_INTERFACE_REPORT: in every state but ERROR (R330). -/
def tdispReport (s : State) : State := if s.p.tdisp = .error then wrongState s else signedReply s.p.num 0xFE (reportBytes s) s

/-- LOCK_INTERFACE_REQUEST (R329); the commands that wait behind an earlier one have their turn as soon as the partition is locked (R333). -/
def execLockInterfaceRequest (p ses : Nat) (s : State) : Out := .next (drainCommands (tdisp p ses .lock tdispLock s))

/-- LOCK_COMPLETION (R329): the lock first, then the commands that waited (R333). -/
def execLockCompletion (p : Nat) (s : State) : Out :=
  let s := focusPart p s
  if s.p.live && s.p.num = p then .next (drainCommands (heard p 0xFE s.dev.out.length (lockDone s))) else .next s

/-- START_INTERFACE_REQUEST (R329). -/
def execStartInterfaceRequest (p ses : Nat) (nonce : BitVec 256) (s : State) : Out := .next (tdisp p ses (.start nonce) (tdispStart nonce) s)

/-- STOP_INTERFACE_REQUEST (R329, R331). -/
def execStopInterfaceRequest (p ses : Nat) (s : State) : Out := .next (tdisp p ses .stop tdispStop s)

/-- GET_DEVICE_INTERFACE_STATE (R329). -/
def execGetDeviceInterfaceState (p ses : Nat) (s : State) : Out := .next (tdisp p ses .state tdispGetState s)

/-- GET_DEVICE_INTERFACE_REPORT (R330, R345). -/
def execGetDeviceInterfaceReport (p ses : Nat) (nonce : BitVec 256) (s : State) : Out := .next (tdisp p ses (.report nonce) tdispReport s)

/-- A TDISP request carried by VENDOR_DEFINED_REQUEST (R336). -/
def tdispCarried (p ses : Nat) (r : TdispReq) (s : State) : State :=
  match r with
  | .lock => drainCommands (tdisp p ses .lock tdispLock s)
  | .start n => tdisp p ses (.start n) (tdispStart n) s
  | .stop => tdisp p ses .stop tdispStop s
  | .state => tdisp p ses .state tdispGetState s
  | .report n => tdisp p ses (.report n) tdispReport s

end Sys2Proof.Machine
end

