-- ==== Sys2Proof/Machine/Keccak.lean ====
section
/-!
DEFINITION. SHAKE256 (R337, R344): the Keccak-f[1600] permutation on 25 lanes of 64 bits, and the sponge with a rate of 136 bytes.
-/
namespace Sys2Proof.Machine

/-- Round constants of Keccak-f[1600]. -/
def keccakRC : List W64 :=
  [0x0000000000000001, 0x0000000000008082, 0x800000000000808A, 0x8000000080008000, 0x000000000000808B, 0x0000000080000001,
   0x8000000080008081, 0x8000000000008009, 0x000000000000008A, 0x0000000000000088, 0x0000000080008009, 0x000000008000000A] ++
  [0x000000008000808B, 0x800000000000008B, 0x8000000000008089, 0x8000000000008003, 0x8000000000008002, 0x8000000000000080,
   0x000000000000800A, 0x800000008000000A, 0x8000000080008081, 0x8000000000008080, 0x0000000080000001, 0x8000000080008008]

/-- Rotation offsets, lane x + 5·y. -/
def keccakRot : List Nat :=
  [0, 1, 62, 28, 27, 36, 44, 6, 55, 20, 3, 10, 43, 25, 39, 41, 45, 15, 21, 8, 18, 2, 61, 56, 14]

/-- Lane x, y of a state. -/
def kLane (a : List W64) (x y : Nat) : W64 := a.getD (x % 5 + 5 * (y % 5)) 0

/-- One round: θ, ρ and π, χ, ι. -/
def keccakRound (a : List W64) (rc : W64) : List W64 :=
  let c := (List.range 5).map fun x => kLane a x 0 ^^^ kLane a x 1 ^^^ kLane a x 2 ^^^ kLane a x 3 ^^^ kLane a x 4
  let d := (List.range 5).map fun x => c.getD ((x + 4) % 5) 0 ^^^ (c.getD ((x + 1) % 5) 0).rotateLeft 1
  let b := (List.range 25).map fun i =>
    let x := i % 5
    let y := i / 5
    let u := (x + 3 * y) % 5
    (kLane a u x ^^^ d.getD u 0).rotateLeft (keccakRot.getD (u + 5 * x) 0)
  (List.range 25).map fun i =>
    let x := i % 5
    let y := i / 5
    kLane b x y ^^^ (~~~(kLane b (x + 1) y) &&& kLane b (x + 2) y) ^^^ (if i = 0 then rc else 0)

/-- The permutation. -/
def keccakF (a : List W64) : List W64 := keccakRC.foldl keccakRound a

/-- A block of 136 bytes absorbed. -/
def absorb (a : List W64) (block : List Byte) : List W64 :=
  keccakF (a.zipIdx.map fun e => if e.2 < 17 then e.1 ^^^ BitVec.ofNat 64 (leNat ((block.drop (8 * e.2)).take 8)) else e.1)

/-- Whole blocks of a padded message absorbed. -/
def absorbAll : Nat → List W64 → List Byte → List W64
  | 0, a, _ => a
  | n + 1, a, bs => absorbAll n (absorb a (bs.take 136)) (bs.drop 136)

/-- The padding of SHAKE: 1111, then 10*1. -/
def shakePad (n : Nat) : List Byte :=
  let k := 136 - n % 136
  if k = 1 then [0x9F] else (0x1F : Byte) :: (List.replicate (k - 2) 0 ++ [0x80])

/-- The first 64 bytes of SHAKE256, as the bytes of a 512-bit little-endian number. -/
def shake256 (msg : List Byte) : BitVec 512 :=
  let bs := msg ++ shakePad msg.length
  let a := absorbAll (bs.length / 136) (List.replicate 25 0) bs
  BitVec.ofNat 512 (leNat ((a.take 8).flatMap fun x => leBytes 8 x.toNat))

end Sys2Proof.Machine
end

