-- ==== Sys2Proof/Machine/Module.lean ====
section
/-!
DEFINITION. The module: bring-up (R354), measurement (R344), integrity and module faults (R350, R351), power (R352, R353).
-/
namespace Sys2Proof.Machine

/-! ### Integrity -/

/-- PATROL_SCRUB of a 32-byte line of HBM (R350): what it finds is counted; an uncorrectable error is reported on the next read. -/
def execPatrolScrub (line : Nat) (s : State) : Out :=
  let l : Home × Nat := (.phys, line)
  .next (if s.dev.corrected.contains l || s.dev.poison.contains l then countEcc l s else s)

/-- Failed retries of a link. -/
def retriesOf (d : Module) (link : Fin 8) : Nat := ((d.retries.find? fun e => e.1 = link).map Prod.snd).getD 0

/-- Failed retries of a link set. -/
def setRetries (link : Fin 8) (n : Nat) (d : Module) : Module := { d with retries := (link, n) :: d.retries.filter fun e => e.1 ≠ link }

/-- FLIT_RETRY (R350): one more failed retry, up to 16. -/
def execFlitRetry (link : Fin 8) (s : State) : Out := .next { s with dev := setRetries link (min 16 (retriesOf s.dev link + 1)) s.dev }

/-- Every partition in CONFIG_LOCKED or RUN moved to ERROR. -/
def errorAll (s : State) : State :=
  (List.range 16).foldl (fun s n =>
    let s := focusPart n s
    if s.p.live && s.p.num = n && (s.p.tdisp = .locked || s.p.tdisp = .run) then toError s else s) s

/-- A module fault (R351). -/
def moduleFault (code : Nat) (s : State) : State := errorAll { s with dev := { s.dev with fault := code, ready := false } }

/-- LINK_RETRAIN (R350, R351): after 16 failed retries; a failed retraining is a module fault. -/
def execLinkRetrain (link : Fin 8) (ok : Bool) (s : State) : Out :=
  if retriesOf s.dev link < 16 then .next s
  else if ok then .next { s with dev := { setRetries link 0 s.dev with retrains := s.dev.retrains + 1 } }
  else .next (moduleFault 1 s)

/-- RAIL_OUT_OF_RANGE (R352). -/
def execRailOutOfRange (_ : Nat) (s : State) : Out := .next (moduleFault 3 s)

/-- CRITICAL_TEMPERATURE (R351). -/
def execCriticalTemperature (s : State) : Out := .next (moduleFault 4 s)

/-- SELORE_MEMORY_ERROR (R351). -/
def execSeloreMemoryError (s : State) : Out := .next (moduleFault 5 s)

/-- THROTTLE (R353): the core clock one step of 50 MHz lower. -/
def execThrottle (s : State) : Out := .next { s with dev := { s.dev with clockMHz := s.dev.clockMHz - 50, throttle := true } }

/-- THROTTLE_RESTORE (R353). -/
def execThrottleRestore (s : State) : Out := .next { s with dev := { s.dev with clockMHz := 1000, throttle := false } }

/-! ### Measurement (R344) -/

/-- extend(j, image). -/
def extend (j : Nat) (image : List Byte) (d : Module) : Module :=
  let x := shake256 image
  { d with m := d.m.set! j (shake256 (leBytes 64 (d.m[j % 16]!).toNat ++ leBytes 64 x.toNat)), digests := d.digests ++ [(j, x)] }

/-! ### Bring-up (R354) -/

/-- The FAULT code of a stage that fails (R354). -/
def stageFault : StageResult → Nat
  | .ok => 0 | .rail => 3 | .temperature => 4 | .selore => 5 | .link => 6 | .other => 6

/-- A bring-up stage entered after the one before it: its effect, or its fault code, after which bring-up stops. -/
def stage (n : Nat) (r : StageResult) (act : State → State) (s : State) : State :=
  if s.dev.stage + 1 = n && !s.dev.ready && (s.dev.fault = 0 || s.dev.fault = 2) then
    let s := { s with dev := { s.dev with stage := n } }
    if r = .ok then act s else { s with dev := { s.dev with fault := stageFault r } }
  else s

/-- The module at stage 1: fuses, random draws and what has left the module stay; the fuse value of M4 is read now (R332). -/
def resetModule (d : Module) : Module :=
  { Module.reset with stage := 1, ownerHash := d.ownerHash, ownerHashM4 := d.ownerHash, draws := d.draws, out := d.out }

/-- MODULE_RESET (R354): every partition and all it held are gone; stage 1 begins. -/
def execModuleReset (r : StageResult) (s : State) : Out :=
  let d := resetModule s.dev
  .next { State.reset with
    hbm := s.hbm, agenda := s.agenda, now := s.now, tick := s.tick
    dev := if r = .ok then d else { d with fault := stageFault r } }

/-- MEASUREMENT (R344, R354): M0 to M2 with the images, M5 with each signature check. -/
def execMeasurement (r : StageResult) (s : State) : Out :=
  .next (stage 2 r (fun s =>
    let d := (List.range 3).foldl (fun d j => extend j (Config.firmware j) d) s.dev
    { s with dev := (List.range 3).foldl (fun d j => extend 5 [BitVec.ofNat 8 ((Config.signatureStatus j).toNat % 3)] d) d }) s)

/-- FIRMWARE_LOAD (R344, R354): firmware runs whatever its signature status. -/
def execFirmwareLoad (r : StageResult) (s : State) : Out := .next (stage 3 r (fun s => s) s)

/-- SELF_CALIBRATION (R344, R354): M3 and M4; ports that failed set FAULT 2 and are left out of service. -/
def execSelfCalibration (r : StageResult) (deadPorts : List (Fin 12)) (s : State) : Out :=
  .next (stage 4 r (fun s =>
    let d := extend 3 Config.calibration s.dev
    let d := extend 4 Config.repairMap (extend 4 (leBytes 64 (d.ownerHashM4.getD 0).toNat) d)
    { s with dev := { d with deadPorts := deadPorts, fault := if deadPorts.isEmpty then d.fault else 2 } }) s)

/-- MEMORY_INITIALISATION (R354): all memory zero, then stage 6 with READY. -/
def execMemoryInitialisation (r : StageResult) (s : State) : Out :=
  .next (stage 5 r (fun s =>
    { s with hbm := [], dev := { s.dev with stage := 6, ready := true, poison := [], corrected := [] } }) s)

end Sys2Proof.Machine
end

