-- ==== Sys2Proof/Machine/Spdm.lean ====
section
/-!
DEFINITION. The SPDM responder (R336 to R338, R343, R345, R347): identities, sessions and requests, and the binding header of the
management endpoint (R339). What the SPDM standard defines and the manual does not is a free value.
-/
namespace Sys2Proof.Machine

/-- The device level's target. -/
def devTarget : Nat := 0xFFFF

/-- Whether an identity exists: the device level, or a partition (R336). -/
def identity? (s : State) (tgt : Nat) : Bool := tgt = devTarget || (part? s tgt).isSome

/-- A request with its code and bytes to an identity that exists, once the endpoint answers (R339, R354). -/
def request (tgt code : Nat) (body : List Byte) (act : State → State) (s : State) : State :=
  if s.dev.ready && identity? s tgt then converse tgt code body act s else s

/-- A request whose payload only the SPDM standard defines. -/
def standardReply (code : Nat) (s : State) : State :=
  let (n, s) := useTick s
  reply (.spdm code (Config.spdmPayload code n)) s

/-- GET_VERSION (R336). -/
def execGetVersion (tgt : Nat) (s : State) : Out := .next (request tgt 0x84 [] (standardReply 0x84) s)

/-- GET_CAPABILITIES (R336). -/
def execGetCapabilities (tgt : Nat) (s : State) : Out := .next (request tgt 0xE1 [] (standardReply 0xE1) s)

/-- The one algorithm set of the device (R337, R338). -/
def deviceOffer : AlgOffer :=
  { baseAsym := 0, extAsym := [⟨4, 0, 0x4E01⟩], baseHash := 0, extHash := [⟨4, 0, 0x4E02⟩], dheBase := 0,
    dhe := [⟨4, 0, 0x4E03⟩], reqAsymBase := 0, reqAsym := [⟨4, 0, 0x4E01⟩], aeadAes256Gcm := true, keySchedule := true, rawMeasurement := true }

/-- The negotiation of an identity: anything but the device's set fails, and no session can follow (R337). -/
def negotiate (tgt : Nat) (o : AlgOffer) (s : State) : State :=
  let rest := s.dev.negotiated.filter fun t => t ≠ tgt
  if o = deviceOffer then reply (.algorithms deviceOffer) { s with dev := { s.dev with negotiated := tgt :: rest } }
  else reply (.spdmError .negotiationFail) { s with dev := { s.dev with negotiated := rest } }

/-- NEGOTIATE_ALGORITHMS (R338). -/
def execNegotiateAlgorithms (tgt : Nat) (o : AlgOffer) (s : State) : Out := .next (request tgt 0xE3 (offerBytes o) (negotiate tgt o) s)

/-- The certificate chain, which holds the 1952 bytes of the device identity key's public half (R338, R343). -/
def certificateChain : List Byte := Config.certificateParts.1 ++ Config.identityKey.toList ++ Config.certificateParts.2

/-- GET_DIGESTS (R336): the digest of the certificate chain. -/
def execGetDigests (tgt : Nat) (s : State) : Out :=
  .next (request tgt 0x81 [] (fun s => reply (.spdm 0x81 (leBytes 64 (shake256 certificateChain).toNat)) s) s)

/-- GET_CERTIFICATE (R343). -/
def execGetCertificate (tgt : Nat) (s : State) : Out := .next (request tgt 0x82 [] (reply (.spdm 0x82 certificateChain)) s)

/-- CHALLENGE (R345): signed over the transcript with the requester's nonce. -/
def execChallenge (tgt : Nat) (nonce : BitVec 256) (s : State) : Out :=
  .next (request tgt 0x83 (leBytes 32 nonce.toNat) (fun s =>
    let (n, s) := useTick s
    signedReply tgt 0x83 (Config.spdmPayload 0x83 n) s) s)

/-- GET_MEASUREMENTS (R345): the digests and M0 to M15, signed. -/
def execGetMeasurements (tgt : Nat) (nonce : BitVec 256) (s : State) : Out :=
  .next (request tgt 0xE0 (leBytes 32 nonce.toNat) (fun s => signedReply tgt 0xE0 (measureBytes s.dev) s) s)

/-! ### Sessions -/

/-- The sessions of an identity. -/
def sessionsOf (s : State) (tgt : Nat) : List Session :=
  if tgt = devTarget then s.dev.sessions else (part? s tgt).elim [] Part.sessions

/-- An update of the sessions of an identity. -/
def updSessions (tgt : Nat) (f : List Session → List Session) (s : State) : State :=
  if tgt = devTarget then { s with dev := { s.dev with sessions := f s.dev.sessions } }
  else updPart tgt (fun p => { p with sessions := f p.sessions }) s

/-- Sessions an identity allows at once (R336). -/
def sessionLimit (tgt : Nat) : Nat := if tgt = devTarget then 8 else 4

/-- Whether the requester may open a session: at the device level with the owner's key once OWNERHASH is written (R332). -/
def mayOpen (s : State) (tgt : Nat) (req : Option (BitVec 512)) : Bool :=
  tgt ≠ devTarget || s.dev.ownerHash.isNone || (req.isSome && req = s.dev.ownerHash)

/-- Bytes of an ML-KEM-1024 encapsulation key (R338). -/
def encapBytes : Nat := 1568

/-- KEY_EXCHANGE of an identity: a new session, provisioning while OWNERHASH is unwritten (R332, R336, R338). -/
def openSession (tgt : Nat) (req : Option (BitVec 512)) (ek : List (BitVec 8)) (s : State) : State :=
  if !s.dev.negotiated.contains tgt || ek.length ≠ encapBytes then reply (.spdmError .negotiationFail) s
  else if sessionLimit tgt ≤ (sessionsOf s tgt).length then reply (.spdmError .sessionLimitExceeded) s
  else if !mayOpen s tgt req then reply (.spdmError .invalidSession) s
  else
    let id := s.dev.nextSession
    let x : Session := { id := id, tgt := tgt, digest := req, prov := tgt = devTarget && s.dev.ownerHash.isNone, fin := false, epoch := 0 }
    let (n, s) := useTick s
    let s := updSessions tgt (fun l => l ++ [x]) { s with dev := { s.dev with nextSession := id + 1 } }
    reply (.session id (Config.exchangeData ek n).toList) s

/-- KEY_EXCHANGE (R338). -/
def execKeyExchange (tgt : Nat) (req : Option (BitVec 512)) (ek : List (BitVec 8)) (s : State) : Out :=
  .next (request tgt 0xE4 ((req.elim [] fun d => leBytes 64 d.toNat) ++ ek) (openSession tgt req ek) s)

/-- A request inside a session of an identity; any other is refused as InvalidSession. -/
def inSession (tgt ses : Nat) (ok : Session → Bool) (act : State → State) (s : State) : State :=
  if (sessionsOf s tgt).any fun x => x.id = ses && ok x then act s else reply (.spdmError .invalidSession) s

/-- An update of one session. -/
def updSession (tgt ses : Nat) (f : Session → Session) (s : State) : State :=
  updSessions tgt (fun l => l.map fun x => if x.id = ses then f x else x) s

/-- The keys of a partition's secure domain come from its most recent session (R347). -/
def exportKeys (tgt ses : Nat) (s : State) : State :=
  if tgt = devTarget then s else updPart tgt (fun p => { p with secDomain := some ses }) s

/-- FINISH (R336, R347): the session is complete. -/
def execFinish (tgt ses : Nat) (s : State) : Out :=
  .next (request tgt 0xE5 (leBytes 4 ses) (inSession tgt ses (fun x => !x.fin) fun s =>
    reply .ack (exportKeys tgt ses (updSession tgt ses (fun x => { x with fin := true }) s))) s)

/-- HEARTBEAT (R336). -/
def execHeartbeat (tgt ses : Nat) (s : State) : Out := .next (request tgt 0xE8 (leBytes 4 ses) (inSession tgt ses Session.fin (reply .ack)) s)

/-- KEY_UPDATE (R347): the session is rekeyed, and with the partition's most recent session its secure domain. -/
def execKeyUpdate (tgt ses : Nat) (s : State) : Out :=
  .next (request tgt 0xE9 (leBytes 4 ses) (inSession tgt ses Session.fin fun s =>
    reply .ack (updSession tgt ses (fun x => { x with epoch := x.epoch + 1 }) s)) s)

/-- END_SESSION (R336). -/
def execEndSession (tgt ses : Nat) (s : State) : Out :=
  .next (request tgt 0xEC (leBytes 4 ses) (inSession tgt ses (fun _ => true) fun s =>
    reply .ack (updSessions tgt (fun l => l.filter fun x => x.id ≠ ses) s)) s)

/-- VENDOR_DEFINED_REQUEST (R336): a TDISP request of a partition; inside a session of the device level, whose vendor-defined requests the
manual does not give, a payload of the standard (notes/assumptions/64.md). -/
def execVendorDefinedRequest (tgt ses : Nat) (r : TdispReq) (s : State) : Out :=
  if tgt = devTarget then
    .next (request tgt 0xFE (leBytes 4 ses ++ tdispBytes r) (inSession tgt ses Session.fin (standardReply 0xFE)) s)
  else .next (tdispCarried tgt ses r s)

/-- The request codes of R336. -/
def spdmCodes : List Nat := [0x84, 0xE1, 0xE3, 0x81, 0x82, 0x83, 0xE0, 0xE4, 0xE5, 0xE8, 0xE9, 0xEC, 0xFE]

/-- UNSUPPORTED_REQUEST (R336): any request code that is not listed. -/
def execUnsupportedRequest (tgt code : Nat) (s : State) : Out :=
  .next (if spdmCodes.contains code then s else request tgt code [] (reply (.spdmError .unsupportedRequest)) s)

/-! ### The endpoint (R339) -/

/-- A dropped message or packet, counted. -/
def countDrop (s : State) : State := { s with dev := { s.dev with dropped := s.dev.dropped + 1 } }

/-- Whether the binding header of a message is accepted. -/
def headerAccepted (s : State) (msg : List (BitVec 8)) : Bool :=
  let kind := nat_ msg 0 1
  let len := nat_ msg 4 4
  decide (8 ≤ msg.length) && decide (1 ≤ kind) && decide (kind ≤ 3) && nat_ msg 1 1 = 0 && identity? s (nat_ msg 2 2) &&
    decide (1 ≤ len) && decide (len ≤ 65536) && msg.length = len + 8

/-- SEND (R339): the endpoint has job 0 and takes reliable unordered delivery only. A management command outside a session is
MGMT_STATUS or is answered with status 1; an SPDM message that is delivered is the request that follows it. -/
def execSend (job : Nat) (rud : Bool) (ses : Option Nat) (msg : List (BitVec 8)) (s : State) : Out :=
  if job ≠ 0 || !rud || !headerAccepted s msg then .next (countDrop s)
  else if nat_ msg 0 1 = 3 && (devSession s ses).isNone then
    .next (if nat_ msg 8 1 = 8 then askStatus s else if s.dev.ready then receive ⟨.mgmtStatus, false⟩ s else s)
  else .next s

/-- OTHER_MODE_PACKET (R347): dropped and counted. -/
def execOtherModePacket (_ : Fin 12) (s : State) : Out := .next (countDrop s)

end Sys2Proof.Machine
end

