-- ==== Sys2Proof/Machine/System.lean ====
section
/-!
DEFINITION. The class 7 ops (R304 to R308) and the writes of system registers (R295 to R297, R307).
-/
namespace Sys2Proof.Machine

/-- PRIVILEGE, class 17. -/
def trapPrivilege : TrapI := .plain 17

/-- The level check of class 7: user level has access to none of them (R304). -/
def needHandler (s : State) (r : Res State) : Res State := if s.g.hmode then r else .trap trapPrivilege

/-- A register access that the level does not have: PRIVILEGE where the register exists, else ILLEGAL_OP (R306). -/
def regDenied (x : W64) : TrapI := if decide (x.toNat ≤ 0xFFF) && regListed x.toNat then trapPrivilege else trapIllegal

/-- SRD past its legality (R306). -/
def srdBody (f : OpF) (s : State) : Res State :=
  needHandler s
    (let x := intS s.g f f.a
     if decide (x.toNat ≤ 0xFFF) && levelReads s.g.vec x.toNat then .ok { s with g := setS s.g f.dst.toNat (handlerRead s x.toNat) }
     else .trap (regDenied x))

/-- SRD. -/
def execSrd (f : OpF) (s : State) : Out := runS .srd f (srdBody f) s

/-- A write of LAUNCHEND: a negative value ends the launch with that code, another is discarded (R307). -/
def launchEnd (l : Lid) (v : W64) (s : State) : State := if v.toInt < 0 then endLaunch l v s else s

/-- SWR past its legality (R306). -/
def swrBody (f : OpF) (s : State) : Res State :=
  needHandler s
    (let x := intS s.g f f.a
     if decide (x.toNat ≤ 0xFFF) && levelWrites s.g.vec x.toNat then .ok (launchEnd s.l.id (intS s.g f f.b) s)
     else .trap (regDenied x))

/-- SWR. -/
def execSwr (f : OpF) (s : State) : Out := runS .swr f (swrBody f) s

/-- The value of a REPLAYQ selector (R308); the round is that of the op that entered the handler. -/
def replayFact (s : State) (sel : Nat) : W64 :=
  let t := taskOf s.l s.g.id.t
  match sel with
  | 0 => BitVec.ofNat 64 (t.elim 0 fun t => 1 + (t.phase % 2 ^ 32) * 2 ^ 16)
  | 1 => taskId s.l s.g.id.t
  | 2 => BitVec.ofNat 64 s.g.trapRound
  | _ => BitVec.ofNat 64 (t.elim 0 fun t => t.recs.length)

/-- REPLAYQ past its legality. -/
def replayqBody (f : OpF) (s : State) : Res State :=
  needHandler s
    (let x := intS s.g f f.a
     if x.toNat ≤ 3 then .ok { s with g := setS s.g f.dst.toNat (replayFact s x.toNat) } else .trap trapIllegal)

/-- REPLAYQ. -/
def execReplayq (f : OpF) (s : State) : Out := runS .replayq f (replayqBody f) s

/-- The group's writes to its handler area performed (R305). -/
def performHandler (s : State) : State :=
  let k := s.g.id
  (s.g.lane.filter fun o => o.kind.writes && o.accs.any fun a => a.loc.home = .handler k).foldl (fun s o => performTo k o.seq s) s

/-- Whether a write of the group to its handler area is still to be performed. -/
def handlerBusy (s : State) : Bool :=
  s.g.lane.any fun o => o.kind.writes && !o.done && o.accs.any fun a => a.loc.home = .handler s.g.id

/-- The bytes of the frame that RTE reads (R301, R305). -/
def rteReads (k : Gid) : List Loc := locsFrom ⟨.handler k, 0⟩ 0x58 ++ locsFrom ⟨.handler k, 0x100⟩ 0x200

/-- RTE past its legality: it waits for unretired loads of the registers it restores, and the word does not retire (R100, R305). An
uncorrectable error in the frame ends the launch and restores nothing (R299). -/
def rteBody (s : State) : Res State :=
  needHandler s
    (if waitsFrame s.g then .hold
     else
       let s := performHandler s
       if handlerBusy s then .hold
       else if poisoned s (rteReads s.g.id) then .ok (memError s.g.id s)
       else
         let s := eccRead (rteReads s.g.id) s
         .block { s with g := { returnFromHandler s.g with wait := .none, since := s.tick } })

/-- RTE. -/
def execRte (f : OpF) (s : State) : Out := runS .rte f rteBody s

/-! ### Register writes by software -/

/-- LAUNCHEND written by the vector handler of a group (R307). -/
def execLaunchend (k : Gid) (v : BitVec 64) (s : State) : Out :=
  let s := focus k s
  if s.g.live && s.g.id = k && s.g.hmode && s.g.vec then .next (launchEnd k.t.l v s) else .next s

/-- ECCCNT written: bits written as one are cleared (R307). -/
def execEcccntClear (p : Nat) (v : BitVec 64) (s : State) : Out := .next (ownerWrite p (onPart (fwWrite 0x050 v)) s)

/-- The registers whose write does nothing else (R307). -/
def plainReg (n : Nat) : Bool := [0x010, 0x011, 0x020, 0x021, 0x023, 0x024, 0x030, 0x031, 0x034, 0x040].contains n

/-- REGISTER_WRITE (R307): a register with no behaviour of its own. -/
def execRegisterWrite (p num : Nat) (v : BitVec 64) (s : State) : Out :=
  .next (ownerWrite p (fun s => if plainReg num then onPart (fwWrite num v) s else s) s)

/-- TINV with bit 63 set (R295). -/
def execTinvAll (p : Nat) (v : BitVec 64) (s : State) : Out :=
  .next (ownerWrite p (fun s => if v.getLsbD 63 then onPart (tinvDo v) s else s) s)

/-- TINV with bit 63 clear (R295). -/
def execTinvPage (p : Nat) (v : BitVec 64) (s : State) : Out :=
  .next (ownerWrite p (fun s => if v.getLsbD 63 then s else onPart (tinvDo v) s) s)

/-- FAULT_RECORD_WRITE (R296). -/
def execFaultRecordWrite (k : Gid) (s : State) : Out :=
  let s := focus k s
  if s.g.live && s.g.id = k then .next (recordWrite s) else .next s

/-- FBRES with RETRY (R297). -/
def execFbresRetry (p : Nat) (v : BitVec 64) (s : State) : Out := .next (ownerWrite p (fbResolve 1 fbRetry v) s)

/-- FBRES with FAIL (R297). -/
def execFbresFail (p : Nat) (v : BitVec 64) (s : State) : Out := .next (ownerWrite p (fbResolve 2 fbFail v) s)

end Sys2Proof.Machine
end

