-- ==== Sys2Proof/Machine/Dispatch.lean ====
section
/-!
DEFINITION. The dispatcher: one arm per row of the table of operations and events.
-/
namespace Sys2Proof.Machine

/-- The meaning of one instruction or event. -/
def exec (i : Instr) (s : State) : Host.Outcome State Fault Refusal :=
  match i with
  | .wordFetch => Sys2Proof.Machine.execWordFetch s
  | .next => Sys2Proof.Machine.execNext s
  | .jump ofs => Sys2Proof.Machine.execJump ofs s
  | .jumpc neg k ofs => Sys2Proof.Machine.execJumpc neg k ofs s
  | .call ofs => Sys2Proof.Machine.execCall ofs s
  | .ret => Sys2Proof.Machine.execRet s
  | .loop n ofs => Sys2Proof.Machine.execLoop n ofs s
  | .jumpx r => Sys2Proof.Machine.execJumpx r s
  | .exit => Sys2Proof.Machine.execExit s
  | .rfnext => Sys2Proof.Machine.execRfnext s
  | .callx r => Sys2Proof.Machine.execCallx r s
  | .sli f => Sys2Proof.Machine.execSli f s
  | .slih f => Sys2Proof.Machine.execSlih f s
  | .smov f => Sys2Proof.Machine.execSmov f s
  | .sadd f => Sys2Proof.Machine.execSadd f s
  | .ssub f => Sys2Proof.Machine.execSsub f s
  | .smul f => Sys2Proof.Machine.execSmul f s
  | .smulhi f => Sys2Proof.Machine.execSmulhi f s
  | .sdiv f => Sys2Proof.Machine.execSdiv f s
  | .srem f => Sys2Proof.Machine.execSrem f s
  | .smin f => Sys2Proof.Machine.execSmin f s
  | .smax f => Sys2Proof.Machine.execSmax f s
  | .sand f => Sys2Proof.Machine.execSand f s
  | .sor f => Sys2Proof.Machine.execSor f s
  | .sxor f => Sys2Proof.Machine.execSxor f s
  | .sshl f => Sys2Proof.Machine.execSshl f s
  | .sshr f => Sys2Proof.Machine.execSshr f s
  | .srot f => Sys2Proof.Machine.execSrot f s
  | .scmp f => Sys2Proof.Machine.execScmp f s
  | .ssel f => Sys2Proof.Machine.execSsel f s
  | .sbfx f => Sys2Proof.Machine.execSbfx f s
  | .sbfi f => Sys2Proof.Machine.execSbfi f s
  | .spopc f => Sys2Proof.Machine.execSpopc f s
  | .sclz f => Sys2Proof.Machine.execSclz f s
  | .sctz f => Sys2Proof.Machine.execSctz f s
  | .sadda f => Sys2Proof.Machine.execSadda f s
  | .sld f => Sys2Proof.Machine.execSld f s
  | .sst f => Sys2Proof.Machine.execSst f s
  | .sfadd f => Sys2Proof.Machine.execSfadd f s
  | .sfmul f => Sys2Proof.Machine.execSfmul f s
  | .sfma f => Sys2Proof.Machine.execSfma f s
  | .sfcmp f => Sys2Proof.Machine.execSfcmp f s
  | .scvt f => Sys2Proof.Machine.execScvt f s
  | .kand f => Sys2Proof.Machine.execKand f s
  | .kor f => Sys2Proof.Machine.execKor f s
  | .kxor f => Sys2Proof.Machine.execKxor f s
  | .nset f => Sys2Proof.Machine.execNset f s
  | .nget f => Sys2Proof.Machine.execNget f s
  | .clkr f => Sys2Proof.Machine.execClkr f s
  | .idr f => Sys2Proof.Machine.execIdr f s
  | .trap f => Sys2Proof.Machine.execTrap f s
  | .bkpt f => Sys2Proof.Machine.execBkpt f s
  | .vmov f => Sys2Proof.Machine.execVmov f s
  | .vli f => Sys2Proof.Machine.execVli f s
  | .vlane f => Sys2Proof.Machine.execVlane f s
  | .vadd f => Sys2Proof.Machine.execVadd f s
  | .vsub f => Sys2Proof.Machine.execVsub f s
  | .vmul f => Sys2Proof.Machine.execVmul f s
  | .vmulhi f => Sys2Proof.Machine.execVmulhi f s
  | .vmad f => Sys2Proof.Machine.execVmad f s
  | .vmin f => Sys2Proof.Machine.execVmin f s
  | .vmax f => Sys2Proof.Machine.execVmax f s
  | .vabsdiff f => Sys2Proof.Machine.execVabsdiff f s
  | .vand f => Sys2Proof.Machine.execVand f s
  | .vor f => Sys2Proof.Machine.execVor f s
  | .vxor f => Sys2Proof.Machine.execVxor f s
  | .vshl f => Sys2Proof.Machine.execVshl f s
  | .vshr f => Sys2Proof.Machine.execVshr f s
  | .vrot f => Sys2Proof.Machine.execVrot f s
  | .vbfx f => Sys2Proof.Machine.execVbfx f s
  | .vbfi f => Sys2Proof.Machine.execVbfi f s
  | .vpopc f => Sys2Proof.Machine.execVpopc f s
  | .vclz f => Sys2Proof.Machine.execVclz f s
  | .vcmp f => Sys2Proof.Machine.execVcmp f s
  | .vsel f => Sys2Proof.Machine.execVsel f s
  | .vfadd f => Sys2Proof.Machine.execVfadd f s
  | .vfsub f => Sys2Proof.Machine.execVfsub f s
  | .vfmul f => Sys2Proof.Machine.execVfmul f s
  | .vfma f => Sys2Proof.Machine.execVfma f s
  | .vfmin f => Sys2Proof.Machine.execVfmin f s
  | .vfmax f => Sys2Proof.Machine.execVfmax f s
  | .vfcmp f => Sys2Proof.Machine.execVfcmp f s
  | .vfrnd f => Sys2Proof.Machine.execVfrnd f s
  | .vfclass f => Sys2Proof.Machine.execVfclass f s
  | .vfscale f => Sys2Proof.Machine.execVfscale f s
  | .vcvt f => Sys2Proof.Machine.execVcvt f s
  | .vpack f => Sys2Proof.Machine.execVpack f s
  | .vunpack f => Sys2Proof.Machine.execVunpack f s
  | .vexp2 f => Sys2Proof.Machine.execVexp2 f s
  | .vlog2 f => Sys2Proof.Machine.execVlog2 f s
  | .vrcp f => Sys2Proof.Machine.execVrcp f s
  | .vrsq f => Sys2Proof.Machine.execVrsq f s
  | .vsqrt f => Sys2Proof.Machine.execVsqrt f s
  | .vdiv f => Sys2Proof.Machine.execVdiv f s
  | .vtanh f => Sys2Proof.Machine.execVtanh f s
  | .vsin f => Sys2Proof.Machine.execVsin f s
  | .vcos f => Sys2Proof.Machine.execVcos f s
  | .vlred f => Sys2Proof.Machine.execVlred f s
  | .vlscan f => Sys2Proof.Machine.execVlscan f s
  | .vballot f => Sys2Proof.Machine.execVballot f s
  | .vpermx f => Sys2Proof.Machine.execVpermx f s
  | .vextr f => Sys2Proof.Machine.execVextr f s
  | .vinsr f => Sys2Proof.Machine.execVinsr f s
  | .vrdx f => Sys2Proof.Machine.execVrdx f s
  | .vwrx f => Sys2Proof.Machine.execVwrx f s
  | .pand f => Sys2Proof.Machine.execPand f s
  | .por f => Sys2Proof.Machine.execPor f s
  | .pxor f => Sys2Proof.Machine.execPxor f s
  | .mapld f => Sys2Proof.Machine.execMapld f s
  | .mapst f => Sys2Proof.Machine.execMapst f s
  | .mapgen f => Sys2Proof.Machine.execMapgen f s
  | .mapset f => Sys2Proof.Machine.execMapset f s
  | .mapbind f => Sys2Proof.Machine.execMapbind f s
  | .mapstr f => Sys2Proof.Machine.execMapstr f s
  | .mapadv f => Sys2Proof.Machine.execMapadv f s
  | .maprel f => Sys2Proof.Machine.execMaprel f s
  | .aclr f => Sys2Proof.Machine.execAclr f s
  | .amac f => Sys2Proof.Machine.execAmac f s
  | .aadd f => Sys2Proof.Machine.execAadd f s
  | .ain f => Sys2Proof.Machine.execAin f s
  | .aout f => Sys2Proof.Machine.execAout f s
  | .ascale f => Sys2Proof.Machine.execAscale f s
  | .asave f => Sys2Proof.Machine.execAsave f s
  | .aload f => Sys2Proof.Machine.execAload f s
  | .qscan f => Sys2Proof.Machine.execQscan f s
  | .qpack f => Sys2Proof.Machine.execQpack f s
  | .qunpack f => Sys2Proof.Machine.execQunpack f s
  | .vld f => Sys2Proof.Machine.execVld f s
  | .vst f => Sys2Proof.Machine.execVst f s
  | .cpy f => Sys2Proof.Machine.execCpy f s
  | .tmov f => Sys2Proof.Machine.execTmov f s
  | .atom f => Sys2Proof.Machine.execAtom f s
  | .ared f => Sys2Proof.Machine.execAred f s
  | .fence f => Sys2Proof.Machine.execFence f s
  | .xfence f => Sys2Proof.Machine.execXfence f s
  | .promote f => Sys2Proof.Machine.execPromote f s
  | .promoteComplete k => Sys2Proof.Machine.execPromoteComplete k s
  | .wait f => Sys2Proof.Machine.execWait f s
  | .twany f => Sys2Proof.Machine.execTwany f s
  | .twall f => Sys2Proof.Machine.execTwall f s
  | .tfirst f => Sys2Proof.Machine.execTfirst f s
  | .sigadd f => Sys2Proof.Machine.execSigadd f s
  | .sigwait f => Sys2Proof.Machine.execSigwait f s
  | .ringput f => Sys2Proof.Machine.execRingput f s
  | .ringputFree f => Sys2Proof.Machine.execRingputFree f s
  | .ringget f => Sys2Proof.Machine.execRingget f s
  | .ringexp f => Sys2Proof.Machine.execRingexp f s
  | .bar f => Sys2Proof.Machine.execBar f s
  | .roleq f => Sys2Proof.Machine.execRoleq f s
  | .bob f => Sys2Proof.Machine.execBob f s
  | .bobq f => Sys2Proof.Machine.execBobq f s
  | .rfbegin f => Sys2Proof.Machine.execRfbegin f s
  | .rftest f => Sys2Proof.Machine.execRftest f s
  | .rfend f => Sys2Proof.Machine.execRfend f s
  | .imgst f => Sys2Proof.Machine.execImgst f s
  | .symq f => Sys2Proof.Machine.execSymq f s
  | .rte f => Sys2Proof.Machine.execRte f s
  | .srd f => Sys2Proof.Machine.execSrd f s
  | .swr f => Sys2Proof.Machine.execSwr f s
  | .replayq f => Sys2Proof.Machine.execReplayq f s
  | .nop f => Sys2Proof.Machine.execNop f s
  | .yield f => Sys2Proof.Machine.execYield f s
  | .unassignedOpcode opc f => Sys2Proof.Machine.execUnassignedOpcode opc f s
  | .deferredIssue k => Sys2Proof.Machine.execDeferredIssue k s
  | .loadRetire k => Sys2Proof.Machine.execLoadRetire k s
  | .storeRetire k => Sys2Proof.Machine.execStoreRetire k s
  | .copyComplete k ix => Sys2Proof.Machine.execCopyComplete k ix s
  | .ringByteCount k ix n => Sys2Proof.Machine.execRingByteCount k ix n s
  | .mapTransferComplete k ix => Sys2Proof.Machine.execMapTransferComplete k ix s
  | .streamBlockArrival k m blk => Sys2Proof.Machine.execStreamBlockArrival k m blk s
  | .bobCommandComplete r => Sys2Proof.Machine.execBobCommandComplete r s
  | .imgstComplete k => Sys2Proof.Machine.execImgstComplete k s
  | .accumulatorTransferComplete k => Sys2Proof.Machine.execAccumulatorTransferComplete k s
  | .waitResume k => Sys2Proof.Machine.execWaitResume k s
  | .tagWaitResume k => Sys2Proof.Machine.execTagWaitResume k s
  | .sigwaitEnd k => Sys2Proof.Machine.execSigwaitEnd k s
  | .ringgetEnd k => Sys2Proof.Machine.execRinggetEnd k s
  | .ringexpResume k => Sys2Proof.Machine.execRingexpResume k s
  | .ringputResume k => Sys2Proof.Machine.execRingputResume k s
  | .ringputFreeEffect k => Sys2Proof.Machine.execRingputFreeEffect k s
  | .barDepart t id => Sys2Proof.Machine.execBarDepart t id s
  | .roleqMove k => Sys2Proof.Machine.execRoleqMove k s
  | .bobqResume k => Sys2Proof.Machine.execBobqResume k s
  | .symqResume k => Sys2Proof.Machine.execSymqResume k s
  | .atomOrdRound k => Sys2Proof.Machine.execAtomOrdRound k s
  | .ordDeadlock t => Sys2Proof.Machine.execOrdDeadlock t s
  | .registerSpill k j => Sys2Proof.Machine.execRegisterSpill k j s
  | .groupSlotFree k => Sys2Proof.Machine.execGroupSlotFree k s
  | .teamPlace l dist core => Sys2Proof.Machine.execTeamPlace l dist core s
  | .cohortPlacement l cores => Sys2Proof.Machine.execCohortPlacement l cores s
  | .loftYardReserve l => Sys2Proof.Machine.execLoftYardReserve l s
  | .distributorSteal l thief => Sys2Proof.Machine.execDistributorSteal l thief s
  | .placementStarvation l dist => Sys2Proof.Machine.execPlacementStarvation l dist s
  | .seam l => Sys2Proof.Machine.execSeam l s
  | .queueEngineStep p e => Sys2Proof.Machine.execQueueEngineStep p e s
  | .bundleAbort p b => Sys2Proof.Machine.execBundleAbort p b s
  | .hubCopyComplete p ix => Sys2Proof.Machine.execHubCopyComplete p ix s
  | .queueDoorbell p q v => Sys2Proof.Machine.execQueueDoorbell p q v s
  | .queueEnable p q v => Sys2Proof.Machine.execQueueEnable p q v s
  | .queueDisable p q v => Sys2Proof.Machine.execQueueDisable p q v s
  | .queueDisabled p q => Sys2Proof.Machine.execQueueDisabled p q s
  | .queuePreempt p q v => Sys2Proof.Machine.execQueuePreempt p q v s
  | .queuePreempted p q => Sys2Proof.Machine.execQueuePreempted p q s
  | .queueResume p q v => Sys2Proof.Machine.execQueueResume p q v s
  | .evrdWrite p v => Sys2Proof.Machine.execEvrdWrite p v s
  | .faultRecordWrite k => Sys2Proof.Machine.execFaultRecordWrite k s
  | .fbresRetry p v => Sys2Proof.Machine.execFbresRetry p v s
  | .fbresFail p v => Sys2Proof.Machine.execFbresFail p v s
  | .tinvAll p v => Sys2Proof.Machine.execTinvAll p v s
  | .tinvPage p v => Sys2Proof.Machine.execTinvPage p v s
  | .launchend k v => Sys2Proof.Machine.execLaunchend k v s
  | .ecccntClear p v => Sys2Proof.Machine.execEcccntClear p v s
  | .registerWrite p num v => Sys2Proof.Machine.execRegisterWrite p num v s
  | .teamSave t => Sys2Proof.Machine.execTeamSave t s
  | .pdeadlineExpiry t => Sys2Proof.Machine.execPdeadlineExpiry t s
  | .restore t core => Sys2Proof.Machine.execRestore t core s
  | .partCreate ses p => Sys2Proof.Machine.execPartCreate ses p s
  | .partAddHalf ses p h => Sys2Proof.Machine.execPartAddHalf ses p h s
  | .partAddQueue ses p q => Sys2Proof.Machine.execPartAddQueue ses p q s
  | .partAddKeys ses p n => Sys2Proof.Machine.execPartAddKeys ses p n s
  | .partAddMem ses p base size slot => Sys2Proof.Machine.execPartAddMem ses p base size slot s
  | .partSetReg ses p num v => Sys2Proof.Machine.execPartSetReg ses p num v s
  | .partDestroy ses p => Sys2Proof.Machine.execPartDestroy ses p s
  | .mgmtStatus => Sys2Proof.Machine.execMgmtStatus s
  | .setOwnerhash ses h => Sys2Proof.Machine.execSetOwnerhash ses h s
  | .grantScrubComplete p ix => Sys2Proof.Machine.execGrantScrubComplete p ix s
  | .partitionScrubComplete p => Sys2Proof.Machine.execPartitionScrubComplete p s
  | .lockInterfaceRequest p ses => Sys2Proof.Machine.execLockInterfaceRequest p ses s
  | .lockCompletion p => Sys2Proof.Machine.execLockCompletion p s
  | .startInterfaceRequest p ses nonce => Sys2Proof.Machine.execStartInterfaceRequest p ses nonce s
  | .stopInterfaceRequest p ses => Sys2Proof.Machine.execStopInterfaceRequest p ses s
  | .getDeviceInterfaceState p ses => Sys2Proof.Machine.execGetDeviceInterfaceState p ses s
  | .getDeviceInterfaceReport p ses nonce => Sys2Proof.Machine.execGetDeviceInterfaceReport p ses nonce s
  | .getVersion tgt => Sys2Proof.Machine.execGetVersion tgt s
  | .getCapabilities tgt => Sys2Proof.Machine.execGetCapabilities tgt s
  | .negotiateAlgorithms tgt o => Sys2Proof.Machine.execNegotiateAlgorithms tgt o s
  | .getDigests tgt => Sys2Proof.Machine.execGetDigests tgt s
  | .getCertificate tgt => Sys2Proof.Machine.execGetCertificate tgt s
  | .challenge tgt nonce => Sys2Proof.Machine.execChallenge tgt nonce s
  | .getMeasurements tgt nonce => Sys2Proof.Machine.execGetMeasurements tgt nonce s
  | .keyExchange tgt req ek => Sys2Proof.Machine.execKeyExchange tgt req ek s
  | .finish tgt ses => Sys2Proof.Machine.execFinish tgt ses s
  | .heartbeat tgt ses => Sys2Proof.Machine.execHeartbeat tgt ses s
  | .keyUpdate tgt ses => Sys2Proof.Machine.execKeyUpdate tgt ses s
  | .endSession tgt ses => Sys2Proof.Machine.execEndSession tgt ses s
  | .vendorDefinedRequest tgt ses r => Sys2Proof.Machine.execVendorDefinedRequest tgt ses r s
  | .unsupportedRequest tgt code => Sys2Proof.Machine.execUnsupportedRequest tgt code s
  | .rmaWrite dom va data => Sys2Proof.Machine.execRmaWrite dom va data s
  | .rmaRead dom va n => Sys2Proof.Machine.execRmaRead dom va n s
  | .atomicAdd dom va d => Sys2Proof.Machine.execAtomicAdd dom va d s
  | .swap dom va d => Sys2Proof.Machine.execSwap dom va d s
  | .compareAndSwap dom va e d => Sys2Proof.Machine.execCompareAndSwap dom va e d s
  | .send job rud ses msg => Sys2Proof.Machine.execSend job rud ses msg s
  | .patrolScrub line => Sys2Proof.Machine.execPatrolScrub line s
  | .linkRetrain link ok => Sys2Proof.Machine.execLinkRetrain link ok s
  | .railOutOfRange rail => Sys2Proof.Machine.execRailOutOfRange rail s
  | .criticalTemperature => Sys2Proof.Machine.execCriticalTemperature s
  | .throttle => Sys2Proof.Machine.execThrottle s
  | .throttleRestore => Sys2Proof.Machine.execThrottleRestore s
  | .moduleReset r => Sys2Proof.Machine.execModuleReset r s
  | .measurement r => Sys2Proof.Machine.execMeasurement r s
  | .firmwareLoad r => Sys2Proof.Machine.execFirmwareLoad r s
  | .selfCalibration r deadPorts => Sys2Proof.Machine.execSelfCalibration r deadPorts s
  | .memoryInitialisation r => Sys2Proof.Machine.execMemoryInitialisation r s
  | .seloreMemoryError => Sys2Proof.Machine.execSeloreMemoryError s
  | .firmwareSaveRequest t => Sys2Proof.Machine.execFirmwareSaveRequest t s
  | .otherModePacket port => Sys2Proof.Machine.execOtherModePacket port s
  | .flitRetry link => Sys2Proof.Machine.execFlitRetry link s

end Sys2Proof.Machine
end

