-- ==== Sys2Proof/Machine/Sched.lean ====
section
/-!
DEFINITION. Turns: what one entry of the agenda does, which groups may issue (R18, R20, R25, R309), and which turn is taken when the
agenda is empty (notes/assumptions/3.md).
-/
namespace Sys2Proof.Machine

/-! ### A group's turn -/

/-- Whether a save asks a group to stand still: at a word's start, outside handler mode or past the deadline, but not before a failed
fetch has trapped (R309, R314). -/
def saveHolds (t : Team) (g : Group) : Bool :=
  (t.save.any fun r => g.pos = .fetch && (!g.hmode || r.expired)) && !(g.park.any Park.failed)

/-- Whether a parked group waits for its resolution (R296). -/
def parked (g : Group) : Bool := g.park.any fun p => !p.failed

/-- Whether a group with its team, launch and partition may act: the partition runs, the launch has no code and a cohort is placed
whole (R25, R298, R329); the group has not exited, waits for nothing, and no save holds it. -/
def mayIssue (p : Part) (l : Launch) (t : Team) (g : Group) : Bool :=
  p.live && p.tdisp = .run && l.live && l.code_.isNone && (!l.cohort || l.placedAll) && t.live && g.live && !g.exited &&
    g.wait = .none && !parked g && !saveHolds t g

/-- Whether a ROLEQ of the team that waits for its move keeps a group from issuing: one from the donor to the receiver (R236). -/
def quotaHolds (s : State) (k : Gid) : Bool :=
  (teamGroups s k.t).any fun h => h.id ≠ k && match h.wait with
    | .roleq d r _ => decide (min d r ≤ k.num) && decide (k.num ≤ max d r)
    | _ => false

/-- The op or the sequencing field at a group's position. -/
def slotInstr (pos : Pos) (d : WordD) : Instr :=
  match pos with
  | .a => d.a
  | .b => d.b.getD d.seq
  | _ => d.seq

/-- The op at the group's position runs. -/
def runSlot (s : State) : Out :=
  match s.g.dec with
  | none => .next s
  | some d => exec (slotInstr s.g.pos d) s

/-- After a fetch the first op runs in the same turn, where the fetch brought a word. -/
def afterFetch (s : State) : Out :=
  if s.g.pos = .fetch || s.g.wait ≠ .none || s.g.park.isSome then .next s else runSlot s

/-- The group in focus acts: a failed access raises TRANSLATION, a new word is fetched and its first op runs, or the next op of its
word runs. -/
def groupAct (s : State) : Out :=
  if s.g.park.isSome then .next (failNow s)
  else if s.g.pos = .fetch then
    match exec .wordFetch s with
    | .next t => afterFetch t
    | .fault e => .fault e
    | .refused r => .refused r
  else runSlot s

/-- A group's turn. -/
def groupTurn (k : Gid) (s : State) : Out :=
  let s := focus k s
  if s.g.id = k && s.t.id = k.t && s.l.id = k.t.l && s.p.num = k.t.l.part && mayIssue s.p s.l s.t s.g && !quotaHolds s k then
    groupAct s
  else .next s

/-! ### Other turns -/

/-- Whether a row is an event, a command or a request: no part of an instruction word (R126 to R129). -/
def isEvent (i : Instr) : Bool :=
  i.op?.isNone && (encodeSeq i).isNone &&
    match i with
    | .wordFetch => false
    | .unassignedOpcode _ _ => false
    | _ => true

/-- A fresh translation of a page, where the tables give one that some access may use. -/
def pageXlat (s : State) (p : Part) (va : W64) : Option Xlat :=
  let e := lookup s.hbm p (BitVec.ofNat 64 (va.toNat / 4096 * 4096))
  match e with
  | .bad _ _ => none
  | .leaf level range pa key r w x =>
    if [⟨true, false, false⟩, ⟨false, true, false⟩, ⟨false, false, true⟩].all fun w => xrFaults (checkEntry p w 1 e) then none
    else some { vpn := va.toNat / 4096, pa := pa, level := level, range := range, read := r, write := w, exec := x, key := key }

/-- A translation enters a partition's cache (R295). -/
def cacheTurn (p : Nat) (va : W64) (s : State) : State :=
  let s := focusPart p s
  if s.p.live && s.p.num = p then
    match pageXlat s s.p va with
    | none => s
    | some x => { s with p := { s.p with tlb := x :: s.p.tlb.filter fun y => y.vpn ≠ x.vpn } }
  else s

/-- The bring-up stage that comes next, without a failure (R354). -/
def bringUpTurn (s : State) : Out :=
  if s.dev.ready then .next s
  else
    match s.dev.stage with
    | 0 => execModuleReset .ok s
    | 1 => execMeasurement .ok s
    | 2 => execFirmwareLoad .ok s
    | 3 => execSelfCalibration .ok [] s
    | 4 => execMemoryInitialisation .ok s
    | _ => .next s

/-- What one turn does. -/
def doTurn (t : Turn) (s : State) : Out :=
  match t with
  | .event i => if isEvent i then exec i s else .next s
  | .group k => groupTurn k s
  | .perform k seq => .next (performTo k seq s)
  | .performPart k seq i => .next (performPart k seq i s)
  | .miss k seq => .next (missTurn k seq s)
  | .copyPart k i o n => .next (copyPart k i o n s)
  | .mapPart k i o n => .next (mapPart k i o n s)
  | .fetchPart k m blk o n => .next (fetchPart k m blk o n s)
  | .bobPart (.op k) j o n only => .next (bobPart k j o n only s)
  | .bobPart (.packet p i) j o n only => .next (bobPacketPart p i j o n only s)
  | .imgPart k byte => .next (imgPart k byte s)
  | .hubPart p i j o n only => .next (hubPart p i j o n only s)
  | .time ns => .next { s with now := s.now + ns }
  | .cache p va => .next (cacheTurn p va s)
  | .residue k n => .next (updGroup k (fun g => { g with residue := n }) s)
  | .poison h line => .next { s with dev := { s.dev with poison := (h, line) :: s.dev.poison.filter fun x => x ≠ (h, line) } }
  | .correctable h line => .next { s with dev := { s.dev with corrected := (h, line) :: s.dev.corrected.filter fun x => x ≠ (h, line) } }
  | .parity k => .next (memError k s)
  | .packetParity bob p i => .next (packetParity bob p i s)
  | .corrected k => .next (correctedTurn k s)
  | .keyError p slot => .next (keySlotError p slot s)
  | .bringUp => bringUpTurn s

/-! ### The turn taken when the agenda is empty -/

/-- Whether a group of a state may act. -/
def canAct (s : State) (g : Group) : Bool :=
  match part? s g.id.t.l.part, launch? s g.id.t.l, team? s g.id.t with
  | some p, some l, some t => mayIssue p l t g && !quotaHolds s g.id
  | _, _, _ => false

/-- Whether group a precedes group b in the choice of a core (R18): handler mode, priority, longest wait, lower slot. -/
def precedes (a b : Group) : Bool :=
  if a.hmode ≠ b.hmode then a.hmode
  else if a.prio ≠ b.prio then decide (a.prio < b.prio)
  else if a.since ≠ b.since then decide (a.since < b.since)
  else decide (a.slot ≤ b.slot)

/-- The group that a core issues from: one already in its word, else the choice of R18. -/
def coreChoice (gs : List Group) : Option Group :=
  match gs.find? fun g => g.pos ≠ .fetch with
  | some g => some g
  | none => gs.foldl (fun acc g => match acc with
    | none => some g
    | some a => if precedes a g then some a else some g) none

/-- The cores with a resident team. -/
def busyCores (s : State) : List Nat := ((allTeams s).map Team.core).eraseDups

/-- The group turn of every core that has one. -/
def groupTurns (s : State) : List Turn :=
  (busyCores s).filterMap fun c =>
    (coreChoice ((allGroups s).filter fun g => coreOf s g.id = c && canAct s g)).map fun g => .group g.id

/-- The event that may end a group's wait. -/
def waitTurn (g : Group) : List Instr :=
  match g.wait with
  | .none => []
  | .hold => [.deferredIssue g.id]
  | .wait .. => [.waitResume g.id]
  | .tags .. => [.tagWaitResume g.id]
  | .tfirst .. => [.tagWaitResume g.id]
  | .sigwait .. => [.sigwaitEnd g.id]
  | .ringget .. => [.ringgetEnd g.id]
  | .ringexp .. => [.ringexpResume g.id]
  | .ringput .. => [.ringputResume g.id]
  | .bar id _ => [.barDepart g.id.t id]
  | .roleq .. => [.roleqMove g.id]
  | .bobq .. => [.bobqResume g.id]
  | .symq .. => [.symqResume g.id]
  | .ord .. => [.atomOrdRound g.id, .ordDeadlock g.id.t]
  | .acc => []
  | .promote _ => [.promoteComplete g.id]

/-- What a group has in flight. -/
def flightTurns (g : Group) : List Instr :=
  (if g.lane.isEmpty then [] else [.loadRetire g.id, .storeRetire g.id, .accumulatorTransferComplete g.id]) ++
  (if g.copies.isEmpty then [] else [.copyComplete g.id 0]) ++
  (if g.mapops.isEmpty then [] else [.mapTransferComplete g.id 0]) ++
  (g.streams.flatMap fun e =>
    let b := mdB (getMap g e.1)
    [.streamBlockArrival g.id e.1 b, .streamBlockArrival g.id e.1 (b + 1)]) ++
  (if g.bobs.isEmpty then [] else [.bobCommandComplete (.op g.id)]) ++
  (if g.imgs.isEmpty then [] else [.imgstComplete g.id]) ++
  (if g.frees.isEmpty then [] else [.ringputFreeEffect g.id]) ++
  (if g.park.isSome then [.faultRecordWrite g.id] else []) ++ [.groupSlotFree g.id]

/-- The placements of a launch. -/
def placeTurns (l : Launch) (s : State) : List Instr :=
  let s := focusLaunch l.id (focusPart l.id.part s)
  if l.code_.isSome || l.held then []
  else if l.cohort then
    if l.placedAll then []
    else
      [.cohortPlacement l.id (cohortPick false (domainTeams l) s), .cohortPlacement l.id (cohortPick true (domainTeams l) s)]
  else
    (List.range l.dists.length).flatMap fun d =>
      (if placeable s d s.l then
         ((distCores s.p d).find? fun c => (blockFor s s.l (distCores s.p d) c).isSome).toList.map fun c => .teamPlace l.id d c
       else []) ++ [.placementStarvation l.id d, .distributorSteal l.id d]

/-- The events of a launch. -/
def launchTurns (s : State) (l : Launch) : List Instr := .loftYardReserve l.id :: .seam l.id :: placeTurns l s

/-- The restores of a partition, each on the first core that takes the team. -/
def restoreTurns (p : Part) (s : State) : List Instr :=
  p.saved.flatMap fun x =>
    let s := focusLaunch x.team.id.l (focusPart p.num s)
    let c := (partCores p).find? fun c => restoreCore s x c && (restoreBlock s c x.team.regs).isSome
    if sealHolds s x then c.toList.map fun c => .restore x.team.id c else [.restore x.team.id 0]

/-- The events of a partition, its queue engines first. -/
def partTurns (s : State) (p : Part) : List Instr :=
  (([0, 1, 2, 3] : List (Fin 4)).filterMap fun e => if (lanesOf_ p e.val).isEmpty then none else some (.queueEngineStep p.num e)) ++
  (if p.copies.isEmpty then [] else [.hubCopyComplete p.num 0]) ++
  (if p.bobs.isEmpty then [] else [.bobCommandComplete (.packet p.num 0)]) ++
  (p.bundles.map fun b => .bundleAbort p.num b.id) ++
  (p.queues.flatMap fun q => [.queueDisabled p.num q.num, .queuePreempted p.num q.num]) ++
  restoreTurns p s ++
  (if 0 < p.lockWait || !s.dev.waiting.isEmpty then [.lockCompletion p.num] else []) ++
  ((List.range p.grants.length).map fun i => .grantScrubComplete p.num i) ++
  (if p.scrub.isSome then [.partitionScrubComplete p.num] else [])

/-- The events of a team whose save is requested (R309). -/
def saveTurns (t : Team) : List Instr := if t.save.isSome then [.teamSave t.id, .pdeadlineExpiry t.id] else []

/-- Every turn that might be taken now without anything from outside; real time can always pass. -/
def candidates (s : State) : List Turn :=
  let events := (allGroups s).flatMap (fun g => waitTurn g ++ flightTurns g) ++ (allTeams s).flatMap saveTurns ++
    (allLaunches s).flatMap (launchTurns s) ++ (allParts s).flatMap (partTurns s)
  (if s.dev.ready then [] else [.bringUp]) ++ groupTurns s ++ events.map Turn.event ++ [.time 1]

/-- The same members in any order. -/
def sameMembers {α : Type} [DecidableEq α] (xs ys : List α) : Bool := xs.all ys.contains && ys.all xs.contains

/-- Two states that differ at most in which group, team, launch and partition stand in focus, in the agenda and in the free-value
counter. -/
def unchanged (s t : State) : Bool :=
  sameMembers (allGroups s) (allGroups t) && sameMembers (allTeams s) (allTeams t) && sameMembers (allLaunches s) (allLaunches t) &&
    sameMembers (allParts s) (allParts t) && s.hbm = t.hbm && s.recs = t.recs && s.rels = t.rels && s.dev = t.dev && s.now = t.now

/-- Whether a turn would change anything. -/
def takes (s : State) (t : Turn) : Bool :=
  match doTurn t s with
  | .next u => !unchanged s u
  | _ => true

/-- How far one step moves the free-value counter, so that no step uses the counts of another. -/
def tickStride : Nat := 2 ^ 64

/-- The turn taken when the agenda is empty: the first that changes anything, the candidates taken in rotation. -/
def defaultTurn (s : State) : Turn :=
  let cs := candidates s
  let n := s.tick / tickStride % max 1 cs.length
  ((cs.drop n ++ cs.take n).find? (takes s)).getD (.time 1)

end Sys2Proof.Machine
end

