-- ==== Sys2Proof/Machine/Boot.lean ====
section
/-!
DEFINITION. The state that a loaded program stands in (notes/assumptions/2.md): bring-up done, one partition in RUN, one launch of one
team of one group, and the word at the group's PC. It stands for what SET_OWNERHASH, the PART commands, LOCK, START and a LAUNCH
packet do.
-/
namespace Sys2Proof.Machine

/-- Where the program of the loaded launch lies. -/
def bootPc : Nat := 0x10000

/-- The kernel of the loaded launch: every register, map, accumulator and tag, one ring of two slots. -/
def bootKernel : Kernel :=
  { Kernel.idle with
    groups := 1, window := 256, regs := 256, slots := 64, maps := 14, accs := 64, tags := 64, bench := 65536,
    roles := [(1, 0)], rings := [⟨0, 2, 1024⟩] }

/-- The launch of one team. -/
def bootLaunch : Launch :=
  { Launch.idle with
    id := ⟨0, 0⟩, live := true, kern := bootKernel, code := BitVec.ofNat 64 bootPc, entry := BitVec.ofNat 64 bootPc, gx := 1, gy := 1,
    gz := 1, reserved := true, placedAll := true, dists := [⟨[0], [], [], true, 0, false⟩] }

/-- The team. -/
def bootTeamId : Tid := ⟨⟨0, 0⟩, 0⟩
/-- The group. -/
def bootGroupId : Gid := ⟨bootTeamId, 0⟩

/-- The partition: the first half-die, key slot 1, a grant of 1 GiB, the range table at 0x1000. -/
def bootPart : Part :=
  { Part.idle with
    num := 0, live := true, tdisp := .run, halves := [0], keys := [1], grants := [⟨0, 2 ^ 30, 1, false⟩],
    regs := { SysRegs.reset with rtab := 0x1000 } }

/-- The range table's first entry: the grant, one to one, readable, writable, executable, key 1 (R292). -/
def bootTable : List Byte := leBytes 8 0 ++ leBytes 8 (2 ^ 30) ++ leBytes 8 0 ++ leBytes 8 (2 ^ 56 + 0x39)

/-- The loaded program's state around a memory. -/
def bootState (s : State) : State :=
  { s with
    g := newGroup bootLaunch bootTeamId 0 256 0 s.tick 0, t := newTeam bootLaunch bootTeamId 0 0 256, l := bootLaunch, p := bootPart,
    groups := [], teams := [], launches := [], parts := [],
    hbm := memPutBytes s.hbm 0x1000 bootTable, recs := [], rels := [],
    dev := { s.dev with stage := 6, ready := true }, agenda := [.group bootGroupId] }

/-- Whether the next step fetches a word for the group in focus, and where. -/
def fetchesAt (s : State) : Option Nat :=
  match s.agenda with
  | .group k :: _ =>
    if s.g.id = k && s.t.id = k.t && s.l.id = k.t.l && s.p.num = k.t.l.part && mayIssue s.p s.l s.t s.g && s.g.park.isNone &&
        !quotaHolds s k && s.g.pos = .fetch && !s.g.slotB && !accBusy s.g && wellFormed s.g.pc && s.p.tlb.isEmpty then
      match fetchXlat s with
      | .ok pa => if poisoned s (wordLocs pa) then none else some pa
      | _ => none
    else none
  | _ => none

/-- A word stored at a physical address. -/
def putWord (pa w : Nat) (s : State) : State := { s with hbm := memPutNat s.hbm pa 16 (w % 2 ^ 128) }

/-- The word placed where the next step fetches; where the next step fetches none, a program of that word is loaded. -/
def placeWord (s : State) (w : Nat) : State :=
  match fetchesAt s with
  | some pa => putWord pa w s
  | none => putWord bootPc w (bootState s)

end Sys2Proof.Machine
end

