-- ==== Sys2Proof/Machine/Step.lean ====
section
/-!
DEFINITION. One step: the next turn of the agenda, or the turn taken when it is empty.
-/
namespace Sys2Proof.Machine

/-- The machine's step. -/
def step (s : State) : Host.Outcome State Fault Refusal :=
  let s := { s with tick := s.tick + tickStride }
  match s.agenda with
  | [] => doTurn (defaultTurn s) s
  | t :: r => doTurn t { s with agenda := r }

/-- The state with one word, numbered as the opcode table numbers its bits, where `step` fetches next. -/
def State.withFetchWord (s : State) (nbits w : Nat) : State := placeWord s (w % 2 ^ nbits)

end Sys2Proof.Machine
end

