-- ==== Sys2Proof/Safety.lean ====
section
/-!
DEFINITION. What a safe run is, in the terms that claims use: runs of steps, the invariants that every step keeps, and the shapes in
which an op's result is stated.
-/
namespace Sys2Proof.Machine

/-- A run of steps from one state to another. -/
inductive Run : State → State → Prop where
  | refl (s : State) : Run s s
  | step {s t u : State} (h : Run s t) (e : Sys2Proof.Machine.step t = .next u) : Run s u

/-- The machine does not stop at its next step. -/
def goes (s : State) : Prop := ∃ t, Sys2Proof.Machine.step s = .next t

/-- The handler area of a group is in canonical form. -/
def groupMemWf (g : Group) : Bool := memWf g.harea

/-- The scratchpads and the slot store of a team are in canonical form. -/
def teamMemWf (t : Team) : Bool := memWf t.bench && memWf t.slots && memWf t.tloft && memWf t.tyard

/-- The loft and yard instances of a launch are in canonical form. -/
def launchMemWf (l : Launch) : Bool := (l.loft.all fun e => memWf e.2) && (l.yard.all fun e => memWf e.2)

/-- The memories that a partition's sealed contexts hold are in canonical form. -/
def partMemWf (p : Part) : Bool := p.saved.all fun x => teamMemWf x.team && x.groups.all groupMemWf

/-- Every memory that the machine holds is in its canonical form: addresses strictly rising, no cell equal to what an unlisted address
reads as. -/
def MemInv (s : State) : Prop :=
  memWf s.hbm = true ∧ (s.g :: s.groups).all groupMemWf = true ∧ (s.t :: s.teams).all teamMemWf = true ∧
    (s.l :: s.launches).all launchMemWf = true ∧ (s.p :: s.parts).all partMemWf = true

/-- READY stands in stage 6 only, and beside no fault but the one of ports out of service (R351, R354). -/
def ReadyInv (s : State) : Prop := s.dev.stage ≤ 6 ∧ (s.dev.ready = true → s.dev.stage = 6 ∧ (s.dev.fault = 0 ∨ s.dev.fault = 2))

/-- An op that has changed its group and nothing else: the group stands at its next slot (R140). -/
def goesOn (s : State) (g : Group) : Out := .next { s with g := nextSlot g }

/-- An op that has changed more than its group: the state, its group at its next slot. -/
def goesOnWith (s : State) : Out := .next { s with g := nextSlot s.g }

/-- A sequencing field that has ended its word: the group fetches next (R26, R130). -/
def wordEnds (s : State) (g : Group) : Out := .next { s with g := retireWord s.tick g }

/-- The active lanes of an op (R11, R136). -/
def lanesOn (f : OpF) (s : State) : W32 := activeMask s.g f.guard

/-- A vector op whose fields are legal, whose registers are in, and whose mapped sources pass the checks of R58, R59 and R63. -/
def vecReady (o : Op) (f : OpF) (t : Ty) (s : State) : Prop :=
  issues o f s = true ∧ mapChecks s (lanesOn f s) t (mappedSrcs (spec o f) f) = .ok ()

/-- The unfinished loads of other groups that an op may meet, where it has a mapped source (R60). -/
def seenAlt (o : Op) (f : OpF) (s : State) : List Coming := if (mappedSrcs (spec o f) f).isEmpty then [] else altSlots s

/-- One operand as it is delivered to a vector op, with the flags of its delivery (R54, R133). -/
def operandV (o : Op) (f : OpF) (t : Ty) (s : State) (imm : W32) (k : FK) (x : Src) : VReg × Flags :=
  optV s (seenAlt o f s) imm t (lanesOn f s) k x

/-- The first operand. -/
def operandA (o : Op) (f : OpF) (t : Ty) (s : State) : VReg × Flags := operandV o f t s (immV o f) (spec o f).a f.a
/-- The second operand; the immediate of VFSCALE is a count (R189). -/
def operandB (o : Op) (f : OpF) (t : Ty) (s : State) : VReg × Flags :=
  operandV o f t s (if o = .vfscale then immCount f else immV o f) (spec o f).b f.b
/-- The third operand. -/
def operandC (o : Op) (f : OpF) (t : Ty) (s : State) : VReg × Flags := operandV o f t s (immV o f) (spec o f).c f.c

/-- What a vector op receives. -/
def vecIn (o : Op) (f : OpF) (t : Ty) (s : State) : VIn :=
  ⟨lanesOn f s, (operandA o f t s).1, (operandB o f t s).1, (operandC o f t s).1⟩

/-- The flags that the delivery of its operands raises. -/
def vecFlags (o : Op) (f : OpF) (t : Ty) (s : State) : Flags :=
  (operandA o f t s).2 ||| (operandB o f t s).2 ||| (operandC o f t s).2

/-- A vector op that has ended: its body on the group with the flags of delivery raised, then one use of each of its stream maps (R61);
nothing else changes. -/
def vecEnds (o : Op) (f : OpF) (t : Ty) (s : State) (body : VIn → Group → Group) : Out :=
  goesOn s (afterMaps (mappedSrcs (spec o f) f) (body (vecIn o f t s) (raise (vecFlags o f t s) s.g)))

/-- A vector op that computes each sub-vector of each active lane of DST from its operands' sub-vectors, and leaves every other lane and
register (R14, R178). -/
def vecLanes (o : Op) (f : OpF) (t : Ty) (s : State) (fn : Nat → Nat → Nat → Nat × Flags) : Out :=
  vecEnds o f t s (mapV t f.dst.toNat fn)

/-- A vector op that computes each sub-vector of each active lane from the lane's number and the sub-vector's. -/
def vecEach (o : Op) (f : OpF) (d t : Ty) (s : State) (fn : VIn → Nat → Nat → Nat × Flags) : Out :=
  vecEnds o f t s fun v g => setLanes d f.dst.toNat v.act (laneResults d v.act (fn v)) g

/-- The group in focus, with its team, launch and partition. -/
def inFocus (s : State) : Prop :=
  s.g.live = true ∧ s.t.live = true ∧ s.t.id = s.g.id.t ∧ s.l.live = true ∧ s.l.id = s.g.id.t.l ∧ s.p.live = true ∧ s.p.num = s.g.id.t.l.part

/-- A partition in focus. -/
def partHere (n : Nat) (s : State) : Prop := s.p.live = true ∧ s.p.num = n

/-- A partition in focus that runs (R329). -/
def runsHere (n : Nat) (s : State) : Prop := partHere n s ∧ s.p.tdisp = .run

/-- A partition in focus whose owner software may write its registers: locked or running, with a session of its own open (R330). -/
def ownerHere (n : Nat) (s : State) : Prop :=
  partHere n s ∧ (s.p.tdisp = .locked ∨ s.p.tdisp = .run) ∧ ∃ x ∈ s.p.sessions, x.fin = true

/-- A launch in focus, with its partition running. -/
def launchHere (k : Lid) (s : State) : Prop := s.l.live = true ∧ s.l.id = k ∧ runsHere k.part s

/-- No line of memory with an error, and no write that another path may still see as it was. -/
def calm (s : State) : Prop := s.recs = [] ∧ s.dev.poison = [] ∧ s.dev.corrected = []

/-- The bytes a group sees at some locations (R31). -/
def bytesAt (s : State) (k : Gid) (ls : List Loc) : List Byte := ls.map (viewByte s k)

/-- Whether an address lies in the bytes that a list of accesses covers. -/
def covered (as : List Acc) (addr : Nat) : Prop := ∃ a ∈ as, a.loc.addr ≤ addr ∧ addr < a.loc.addr + a.w

end Sys2Proof.Machine
end

