-- ==== Sys2Proof/WellFormed.lean ====
section
/-!
DEFINITION. Well-formed instructions: the terms that some instruction word holds (R126 to R148). An op is well formed when the
fields that its form does not have are zero and its form has an opcode; whether its fields are legal is a matter of R139, not of
this. An event, a command or a request has no word, and every one of them is well formed.
-/
namespace Sys2Proof

/-- The fields that the form of an op does not have are zero (R131, R132). -/
def OpF.fits (f : OpF) : Bool :=
  match f.form with
  | .short => f.c = .none && !f.rsv && !f.sat && f.rnd = 0 && f.imm = 0 && f.lit = 0
  | .literal => f.c = .none && !f.rsv && !f.sat && f.rnd = 0 && f.imm = 0
  | .long => !f.opt && f.lit = 0

/-- DST bit 0 tells RINGPUT and RINGPUT.free apart (R230). -/
def ringBit (o : Op) (f : OpF) : Bool :=
  match o with
  | .ringput => !f.dst.getLsbD 0
  | .ringputFree => f.dst.getLsbD 0
  | _ => true

/-- Whether an opcode of a form is assigned (R141 to R148). -/
def assigned (form : Form) (opc : Nat) : Bool :=
  match form with
  | .long => (longOp opc).isSome
  | _ => (shortOp opc).isSome

/-- An unassigned opcode of a form, which fits the form's opcode field (R131, R132, R148). -/
def freeOpcode (opc : BitVec 10) (f : OpF) : Bool :=
  !assigned f.form opc.toNat && f.sub = 0 && (f.form = .long || decide (opc.toNat < 512))

/-- The opcode, the fields and the ring bit of an op. -/
def opWf (o : Op) (f : OpF) : Bool := f.fits && (opcodeOf o f).isSome && ringBit o f

/-- Whether an instruction is well formed. -/
def Instr.wf (i : Instr) : Bool :=
  match i.op? with
  | some (o, f) => opWf o f
  | none =>
    match i with
    | .unassignedOpcode opc f => f.fits && freeOpcode opc f
    | _ => true

end Sys2Proof
end

