-- ==== Sys2Proof/Certificates/Slice0/Obligations.lean ====
section
/-!
DEFINITION. The statements about the model, each a Prop. A result is stated as an equation on the whole next state, so that it also says
what the instruction leaves unchanged.
-/
open Sys2Proof Sys2Proof.Machine


/-- R164, R166, R167. SLI, SLIH and SMOV write their scalar, and SLI with a register raises ILLEGAL_OP; the logic ops, the shifts by b AND 63 and
the rotate to the right; each changes nothing else. -/
def Obligations.ScalarMovesAndLogic : Prop :=
  (∀ (f : OpF) (s : State),
    (issues .sli f s = true → exec (.sli f) s = goesOn s (setS s.g f.dst.toNat
      (if f.form = .literal then f.lit.signExtend 64 else f.imm.signExtend 64))) ∧
    (isImm f.a = false → waitsExm .sli s.g = false → would .sli f s.g = true → waitsRegs .sli f s.g = false →
      exec (.sli f) s = .next (trapAt trapIllegal s)) ∧
    (issues .slih f s = true → exec (.slih f) s =
      goesOn s (setS s.g f.dst.toNat ((intS s.g f f.a <<< 32) ||| (getS s.g f.dst.toNat &&& 0xFFFFFFFF)))) ∧
    (issues .smov f s = true → exec (.smov f) s = goesOn s (setS s.g f.dst.toNat (intS s.g f f.a)))) ∧
  (∀ (f : OpF) (s : State),
    let a := intS s.g f f.a
    let b := intS s.g f f.b
    let n := (b &&& 63).toNat
    let put := fun x => goesOn s (setS s.g f.dst.toNat x)
    (issues .sand f s = true → exec (.sand f) s = put (a &&& b)) ∧
    (issues .sor f s = true → exec (.sor f) s = put (a ||| b)) ∧
    (issues .sxor f s = true → exec (.sxor f) s = put (a ^^^ b)) ∧
    (issues .sshl f s = true → exec (.sshl f) s = put (a <<< n)) ∧
    (issues .sshr f s = true → exec (.sshr f) s = put (if f.opt then a.sshiftRight n else a >>> n)) ∧
    (issues .srot f s = true → exec (.srot f) s = put ((a >>> n) ||| (a <<< (64 - n)))))

/-- R164, R167. SADD, SSUB and SMUL wrap modulo 2^64; with the saturate option a result outside i64 is clamped to the nearer end and SAT is raised.
SMULHI, SDIV, SREM, SMIN and SMAX act on signed operands, and on unsigned ones with .n; division truncates toward zero; by zero SDIV gives 0 and SREM
gives a, with DZ. Rests on the model's choices in notes/assumptions/68.md and 70.md. -/
def Obligations.ScalarArithmetic : Prop :=
  (∀ (f : OpF) (s : State),
    let a := intS s.g f f.a
    let b := intS s.g f f.b
    let d := f.dst.toNat
    let clamped := fun (v : Int) =>
      if v < -2 ^ 63 then raise flagSAT (setS s.g d 0x8000000000000000)
      else if 2 ^ 63 - 1 < v then raise flagSAT (setS s.g d 0x7FFFFFFFFFFFFFFF)
      else raise 0 (setS s.g d (BitVec.ofInt 64 v))
    (issues .sadd f s = true → exec (.sadd f) s =
      goesOn s (if satOpt f then clamped (a.toInt + b.toInt) else setS s.g d (a + b))) ∧
    (issues .ssub f s = true → exec (.ssub f) s =
      goesOn s (if satOpt f then clamped (a.toInt - b.toInt) else setS s.g d (a - b))) ∧
    (issues .smul f s = true → exec (.smul f) s =
      goesOn s (if satOpt f then clamped (a.toInt * b.toInt) else setS s.g d (a * b)))) ∧
  (∀ (f : OpF) (s : State),
    let a := intS s.g f f.a
    let b := intS s.g f f.b
    let d := f.dst.toNat
    let le := if f.opt then a.ule b else a.sle b
    (issues .smin f s = true → exec (.smin f) s = goesOn s (setS s.g d (if le then a else b))) ∧
    (issues .smax f s = true → exec (.smax f) s = goesOn s (setS s.g d (if le then b else a))) ∧
    (issues .smulhi f s = true → exec (.smulhi f) s = goesOn s (setS s.g d
      (if f.opt then BitVec.ofNat 64 (a.toNat * b.toNat / 2 ^ 64) else BitVec.ofInt 64 (a.toInt * b.toInt / 2 ^ 64)))) ∧
    (issues .sdiv f s = true → exec (.sdiv f) s = goesOn s
      (if b = 0 then raise flagDZ (setS s.g d 0) else setS s.g d (if f.opt then a.udiv b else a.sdiv b))) ∧
    (issues .srem f s = true → exec (.srem f) s = goesOn s
      (if b = 0 then raise flagDZ (setS s.g d a) else setS s.g d (if f.opt then a.umod b else a.srem b))))

/-- R168, R174 to R176, R27, R13. SCMP writes its pair, the second destination last; it and SFCMP write false twice where the guard is false; the
condition ops, NSET and NGET; CLKR reads the group's word count (R26). IDR writes the identifier that its selector names, the team's coordinates being
those of its linear index. Rests on the model's choice in notes/assumptions/68.md. -/
def Obligations.ConditionsCountersIdentifiers : Prop :=
  (∀ (f : OpF) (s : State),
    let a := intS s.g f f.a
    let b := intS s.g f f.b
    let kd1 := f.dst.toNat % 8
    let kd2 := f.dst.toNat / 8 % 8
    let pair := fun c => goesOn s (setK (setK s.g kd1 c) kd2 (!c))
    let rel := f.dst.toNat / 64
    let ka := getK s.g f.a.reg.toNat
    let kb := xor (getK s.g f.b.reg.toNat) f.opt
    (issues .scmp f s = true → rel = 0 → exec (.scmp f) s = pair (if f.opt then a &&& b = 0 else a = b)) ∧
    (issues .scmp f s = true → rel = 1 → exec (.scmp f) s = pair (if f.opt then a &&& b ≠ 0 else a ≠ b)) ∧
    (issues .scmp f s = true → rel = 2 → exec (.scmp f) s = pair (if f.opt then a.toNat < b.toNat else a.toInt < b.toInt)) ∧
    (issues .scmp f s = true → rel = 3 → exec (.scmp f) s = pair (if f.opt then a.toNat ≤ b.toNat else a.toInt ≤ b.toInt)) ∧
    (waitsExm .scmp s.g = false → would .scmp f s.g = false → exec (.scmp f) s = goesOn s (setK (setK s.g kd1 false) kd2 false)) ∧
    (waitsExm .sfcmp s.g = false → would .sfcmp f s.g = false → exec (.sfcmp f) s = goesOn s (setK (setK s.g kd1 false) kd2 false)) ∧
    (issues .kand f s = true → exec (.kand f) s = goesOn s (setK s.g f.dst.toNat (ka && kb))) ∧
    (issues .kor f s = true → exec (.kor f) s = goesOn s (setK s.g f.dst.toNat (ka || kb))) ∧
    (issues .kxor f s = true → exec (.kxor f) s = goesOn s (setK s.g f.dst.toNat (xor ka kb))) ∧
    (issues .nset f s = true → exec (.nset f) s = goesOn s (setN s.g f.dst.toNat (a.setWidth 32))) ∧
    (issues .nget f s = true → exec (.nget f) s = goesOn s (setS s.g f.dst.toNat ((getN s.g f.a.reg.toNat).setWidth 64))) ∧
    (issues .clkr f s = true → exec (.clkr f) s = goesOn s (setS s.g f.dst.toNat s.g.clkr))) ∧
  (∀ (f : OpF) (s : State), issues .idr f s = true →
    let l := s.l
    let team := s.g.id.t.team
    let put := fun (x : Nat) => goesOn s (setS s.g f.dst.toNat (BitVec.ofNat 64 x))
    (f.imm = 0 → exec (.idr f) s = put s.g.id.num) ∧
    (f.imm = 1 → exec (.idr f) s = put l.kern.groups) ∧
    (f.imm = 2 → exec (.idr f) s = put (team % l.gx)) ∧
    (f.imm = 3 → exec (.idr f) s = put (team / l.gx % l.gy)) ∧
    (f.imm = 4 → exec (.idr f) s = put (team / (l.gx * l.gy))) ∧
    (f.imm = 5 → exec (.idr f) s = put l.gx) ∧
    (f.imm = 6 → exec (.idr f) s = put l.gy) ∧
    (f.imm = 7 → exec (.idr f) s = put l.gz) ∧
    (f.imm = 8 → exec (.idr f) s = put s.g.role) ∧
    (f.imm = 9 → exec (.idr f) s = put (s.g.id.num - ((l.kern.roles.take s.g.role).map Prod.fst).sum)) ∧
    (f.imm = 10 → l.replay = false → exec (.idr f) s = put team) ∧
    (∀ x, f.imm = 10 → l.replay = true → l.id = s.g.id.t.l → l.tasks.find? (fun t => t.team = team) = some x →
      exec (.idr f) s = goesOn s (setS s.g f.dst.toNat x.id)) ∧
    (f.imm = 11 → exec (.idr f) s = put ((if l.replay then 1 else 0) + (if l.kern.gens = [] then 0 else 2) + (if l.cohort then 4 else 0))) ∧
    (12 ≤ f.imm.toNat → exec (.idr f) s = .next (trapAt trapIllegal s)))

/-- R170. SSEL, and ILLEGAL_OP for it where its condition carries a negate bit; SBFX and SBFI with a legal field word, and ILLEGAL_OP with
any other; the counts; SADDA, and ILLEGAL_OP for it where bits above its scale are set. -/
def Obligations.ScalarBits : Prop := ∀ (f : OpF) (s : State),
  let a := intS s.g f f.a
  let b := intS s.g f f.b
  let put := fun x => goesOn s (setS s.g f.dst.toNat x)
  let pos := (f.imm &&& 63).toNat
  let len := (f.imm >>> 6 &&& 63).toNat + 1
  let field := fun (sign : Bool) => f.imm.toNat < 2 ^ 13 ∧ pos + len ≤ 64 ∧ (f.imm.getLsbD 12 = true → sign = true)
  (issues .ssel f s = true → exec (.ssel f) s = put (if getK s.g f.c.reg.toNat then a else b)) ∧
  (f.c.neg = true → waitsExm .ssel s.g = false → would .ssel f s.g = true → waitsRegs .ssel f s.g = false →
    exec (.ssel f) s = .next (trapAt trapIllegal s)) ∧
  (issues .sbfx f s = true → ¬ field true → exec (.sbfx f) s = .next (trapAt trapIllegal s)) ∧
  (issues .sbfi f s = true → ¬ field false → exec (.sbfi f) s = .next (trapAt trapIllegal s)) ∧
  (issues .sadda f s = true → 7 < f.imm.toNat → exec (.sadda f) s = .next (trapAt trapIllegal s)) ∧
  (issues .sbfx f s = true → field true → exec (.sbfx f) s =
    put (if f.imm.getLsbD 12 then (a <<< (64 - pos - len)).sshiftRight (64 - len) else (a <<< (64 - pos - len)) >>> (64 - len))) ∧
  (issues .sbfi f s = true → field false → ∃ x, exec (.sbfi f) s = put x ∧ ∀ j, j < 64 →
    x.getLsbD j = if pos ≤ j ∧ j < pos + len then a.getLsbD (j - pos) else (getS s.g f.dst.toNat).getLsbD j) ∧
  (issues .spopc f s = true → exec (.spopc f) s =
    put (BitVec.ofNat 64 ((List.range 64).countP fun j => a.getLsbD j))) ∧
  (issues .sclz f s = true → exec (.sclz f) s =
    put (BitVec.ofNat 64 (((List.range 64).reverse.takeWhile fun j => !a.getLsbD j).length))) ∧
  (issues .sctz f s = true → exec (.sctz f) s =
    put (BitVec.ofNat 64 (((List.range 64).takeWhile fun j => !a.getLsbD j).length))) ∧
  (issues .sadda f s = true → f.imm.toNat ≤ 7 → exec (.sadda f) s = put (a + (b <<< f.imm.toNat)))

/-- R172, R169, R173. The scalar float ops write one rounded result, zero-extended, and raise its flags; SFCMP writes its pair; SCVT converts between
its two types. Rests on the model's choices in notes/assumptions/70.md and 71.md. -/
def Obligations.ScalarFloats : Prop := ∀ (f : OpF) (s : State),
  let t := sfTy f
  let x := fltS s.g f t f.a
  let y := fltS s.g f t f.b
  let z := fltS s.g f t f.c
  let put := fun (r : Nat × Flags) => goesOn s (raise r.2 (setS s.g f.dst.toNat (BitVec.ofNat 64 r.1)))
  let cmp := fCompare t.fmt (f.dst.toNat / 64) (if f.form = .long then f.imm.getLsbD 0 else f.opt) x y
  let wide := f.imm.getLsbD 0
  let has32 := ((ty0 f).isInt && (ty0 f).bits = 32) || ((ty1 f).isInt && (ty1 f).bits = 32)
  (issues .sfadd f s = true → exec (.sfadd f) s = put (fAdd t.fmt f.rnd.toNat (satOpt f) x y)) ∧
  (issues .sfmul f s = true → exec (.sfmul f) s = put (fMul t.fmt f.rnd.toNat (satOpt f) x y)) ∧
  (issues .sfma f s = true → exec (.sfma f) s = put (fFma t.fmt f.rnd.toNat (satOpt f) x y z)) ∧
  (issues .sfcmp f s = true → (f.form = .long → imm24 f ≤ 1) → exec (.sfcmp f) s =
    goesOn s (raise cmp.2 (setK (setK s.g (f.dst.toNat % 8) cmp.1) (f.dst.toNat / 8 % 8) (!cmp.1)))) ∧
  (issues .scvt f s = true → imm24 f ≤ 1 → (wide = true → has32 = true) → exec (.scvt f) s =
    put (cvtS wide (ty1 f) (ty0 f) f.rnd.toNat f.sat (cvtSrc s.g f (ty1 f))))

/-- R182 to R184. The class 1 ops on integers: exact results that wrap, or clamp to the type's range and raise SAT; VMOV, VLI and VLANE. Rests on the
model's own reading in notes/assumptions/5.md, 23.md and 36.md. -/
def Obligations.VectorIntegers : Prop := ∀ (f : OpF) (s : State),
  let t := ty0 f
  let w := t.bits
  let val := fun (x : Nat) => if t.signed = true ∧ 2 ^ (w - 1) ≤ x then (x : Int) - 2 ^ w else x
  let lo : Int := if t.signed then -2 ^ (w - 1) else 0
  let hi : Int := if t.signed then 2 ^ (w - 1) - 1 else 2 ^ w - 1
  let fit := fun (v : Int) =>
    if satOpt f = true ∧ v < lo then ((lo % 2 ^ w).toNat, flagSAT)
    else if satOpt f = true ∧ hi < v then ((hi % 2 ^ w).toNat, flagSAT)
    else ((v % 2 ^ w).toNat, 0)
  let arith := fun (o : Op) (fn : Int → Int → Int → Int) => vecLanes o f t s fun x y z => fit (fn (val x) (val y) (val z))
  (vecReady .vmov f t s → exec (.vmov f) s = vecLanes .vmov f t s fun x _ _ => (x, 0)) ∧
  (vecReady .vli f .n32 s → exec (.vli f) s = vecEach .vli f .n32 .n32 s fun _ _ _ => (f.imm.toNat, 0)) ∧
  (vecReady .vlane f .n32 s → exec (.vlane f) s = vecEach .vlane f .n32 .n32 s fun _ i _ =>
    ((((f.imm.extractLsb' 0 16).toInt + i * (f.imm.extractLsb' 16 16).toInt) % 2 ^ 32).toNat, 0)) ∧
  (vecReady .vadd f t s → exec (.vadd f) s = arith .vadd fun x y _ => x + y) ∧
  (vecReady .vsub f t s → exec (.vsub f) s = arith .vsub fun x y _ => x - y) ∧
  (vecReady .vmul f t s → exec (.vmul f) s = arith .vmul fun x y _ => x * y) ∧
  (vecReady .vmulhi f t s → exec (.vmulhi f) s = arith .vmulhi fun x y _ => x * y / 2 ^ w) ∧
  (vecReady .vmad f t s → exec (.vmad f) s = arith .vmad fun x y z => x * y + z) ∧
  (vecReady .vmin f t s → exec (.vmin f) s = arith .vmin fun x y _ => if x ≤ y then x else y) ∧
  (vecReady .vmax f t s → exec (.vmax f) s = arith .vmax fun x y _ => if x ≤ y then y else x) ∧
  (vecReady .vabsdiff f t s → exec (.vabsdiff f) s = arith .vabsdiff fun x y _ => if x ≤ y then y - x else x - y)

/-- R184. The bit ops of class 1 on the patterns of the sub-vectors, and the field ops with a legal field word. Rests on the model's own reading in
notes/assumptions/5.md and 36.md. -/
def Obligations.VectorBits : Prop := ∀ (f : OpF) (s : State),
  let t := ty0 f
  let w := t.bits
  let bits := fun (o : Op) (fn : Nat → Nat → Nat) => vecLanes o f t s fun x y _ => (fn x y, 0)
  let pos := imm24 f % 32
  let len := imm24 f / 32 % 32 + 1
  let field := imm24 f < 2 ^ 10 ∧ pos + len ≤ w
  let get := fun (x : Nat) => x / 2 ^ pos % 2 ^ len
  (vecReady .vand f t s → exec (.vand f) s = bits .vand fun x y => x &&& y) ∧
  (vecReady .vor f t s → exec (.vor f) s = bits .vor fun x y => x ||| y) ∧
  (vecReady .vxor f t s → exec (.vxor f) s = bits .vxor fun x y => x ^^^ y) ∧
  (vecReady .vshl f t s → exec (.vshl f) s = bits .vshl fun x y => (x <<< (y % w)) % 2 ^ w) ∧
  (vecReady .vshr f t s → exec (.vshr f) s = bits .vshr fun x y =>
    let n := y % w
    if t.signed = true ∧ 2 ^ (w - 1) ≤ x then 2 ^ w - 1 - ((2 ^ w - 1 - x) >>> n) else x >>> n) ∧
  (vecReady .vrot f t s → exec (.vrot f) s = bits .vrot fun x y =>
    let n := y % w
    if n = 0 then x else x / 2 ^ n + x % 2 ^ n * 2 ^ (w - n)) ∧
  (vecReady .vbfx f t s → field → exec (.vbfx f) s = bits .vbfx fun x _ =>
    if t.signed = true ∧ 2 ^ (len - 1) ≤ get x then get x + 2 ^ w - 2 ^ len else get x) ∧
  (vecReady .vbfi f t s → field → exec (.vbfi f) s = vecEnds .vbfi f t s fun v g =>
    mapV t f.dst.toNat (fun x old _ => (old % 2 ^ pos + x % 2 ^ len * 2 ^ pos + old / 2 ^ (pos + len) * 2 ^ (pos + len), 0))
      { v with b := getV g f.dst.toNat } g) ∧
  (vecReady .vpopc f t s → exec (.vpopc f) s = bits .vpopc fun x _ => (List.range w).countP fun j => x.testBit j) ∧
  (vecReady .vclz f t s → exec (.vclz f) s = bits .vclz fun x _ => ((List.range w).reverse.takeWhile fun j => !x.testBit j).length)

/-- R178, R14, R47. What a vector op leaves of a register: every sub-vector of an active lane is the computed one, every other lane is unchanged, and
so is every other register; the flags raised are those of the active lanes. -/
def Obligations.LaneWrites : Prop := ∀ (t : Ty) (d : Nat) (fn : Nat → Nat → Nat → Nat × Flags) (v : VIn) (g : Group), d < 256 →
  let h := mapV t d fn v g
  let at_ := fun (i k : Nat) => fn (subOf t (v.a[i % 32]!) k) (subOf t (v.b[i % 32]!) k) (subOf t (v.c[i % 32]!) k)
  (∀ i k, i < 32 → k < t.count → v.act.getLsbD i = true → subOf t (getLane h d i) k = (at_ i k).1 % 2 ^ t.bits) ∧
  (∀ i, i < 32 → v.act.getLsbD i = false → getLane h d i = getLane g d i) ∧
  (∀ n, n < 256 → n ≠ d → getV h n = getV g n) ∧
  (∀ j, j < 9 → ((getS h 60).getLsbD j = true ↔
    (getS g 60).getLsbD j = true ∨ ∃ i k, i < 32 ∧ k < t.count ∧ v.act.getLsbD i = true ∧ (at_ i k).2.getLsbD j = true)) ∧
  (∀ n, n ≠ 60 → n < 64 → getS h n = getS g n) ∧
  ({ h with v := g.v, s := g.s } = g)

/-- R185, R186, R190, R198. The compares write both predicates in full and clear both where no lane is active; VSEL takes all 32 bits; the predicate
ops. Rests on the model's own reading in notes/assumptions/5.md, 16.md, 20.md and 36.md, and on its choice in notes/assumptions/69.md. -/
def Obligations.PredicatesAndSelects : Prop := ∀ (f : OpF) (s : State),
  let t := ty0 f
  let pd1 := f.dst.toNat % 8
  let pd2 := f.dst.toNat / 8 % 8
  let rel := f.dst.toNat / 64
  let sub := if f.form = .long then imm24 f % 8 else 0
  let var := if f.form = .long then f.imm.getLsbD 3 else f.opt
  let word := (f.form = .long → imm24 f < 16) ∧ (sub = 0 ∨ sub = 1 ∨ (4 ≤ sub ∧ sub - 4 < t.count))
  let meets := fun (cs : Nat → Bool) =>
    if sub = 0 then (List.range t.count).all cs else if sub = 1 then (List.range t.count).any cs else cs (sub - 4)
  let writes := fun (o : Op) (p : Nat → Nat → Bool × Flags) (r : Out) => ∃ m : W32,
    (∀ i, i < 32 → m.getLsbD i = ((lanesOn f s).getLsbD i && meets fun k =>
      (p (subOf t ((vecIn o f t s).a[i % 32]!) k) (subOf t ((vecIn o f t s).b[i % 32]!) k)).1)) ∧
    ∃ fl : Flags,
      (∀ j, j < 9 → (fl.getLsbD j = true ↔ ∃ i k, i < 32 ∧ k < t.count ∧ (lanesOn f s).getLsbD i = true ∧
        (p (subOf t ((vecIn o f t s).a[i % 32]!) k) (subOf t ((vecIn o f t s).b[i % 32]!) k)).2.getLsbD j = true)) ∧
      r = vecEnds o f t s fun v g => raise fl (setP (setP g pd1 m) pd2 (v.act &&& ~~~m))
  let val := fun (x : Nat) => if t.signed = true ∧ 2 ^ (t.bits - 1) ≤ x then (x : Int) - 2 ^ t.bits else x
  let int := fun (x y : Nat) => (if rel = 0 then (if var then x &&& y = 0 else x = y)
    else if rel = 1 then (if var then x &&& y ≠ 0 else x ≠ y)
    else if rel = 2 then (if var then val y < val x else val x < val y)
    else (if var then val y ≤ val x else val x ≤ val y) : Bool)
  let pb := if f.opt then ~~~(getP s.g f.b.reg.toNat) else getP s.g f.b.reg.toNat
  let pa := getP s.g f.a.reg.toNat
  (vecReady .vcmp f t s → word → writes .vcmp (fun x y => (int x y, 0)) (exec (.vcmp f) s)) ∧
  (vecReady .vfcmp f t s → word → writes .vfcmp (fCompare t.fmt rel var) (exec (.vfcmp f) s)) ∧
  (waitsExm .vcmp s.g = false → lanesOn f s = 0 → exec (.vcmp f) s = goesOn s (setP (setP s.g pd1 0) pd2 0)) ∧
  (waitsExm .vfcmp s.g = false → lanesOn f s = 0 → exec (.vfcmp f) s = goesOn s (setP (setP s.g pd1 0) pd2 0)) ∧
  (vecReady .vsel f t s → exec (.vsel f) s = vecEach .vsel f .n32 t s fun v i _ =>
    ((if (getP s.g f.c.reg.toNat).getLsbD i then v.a[i % 32]! else v.b[i % 32]!).toNat, 0)) ∧
  (issues .pand f s = true → exec (.pand f) s = goesOn s (setP s.g f.dst.toNat (pa &&& pb))) ∧
  (issues .por f s = true → exec (.por f) s = goesOn s (setP s.g f.dst.toNat (pa ||| pb))) ∧
  (issues .pxor f s = true → exec (.pxor f) s = goesOn s (setP s.g f.dst.toNat (pa ^^^ pb)))

/-- R188 to R191. The float ops of class 2: each sub-vector of an active lane is the op of R188, R189 or R82 on its operands' sub-vectors, under the
mode of a long op or to nearest in a short one (R74); VPACK writes the sub-vectors that it packs, whole steps of the register with zero above a 4-bit
value, keeps every other bit, and raises the flags of the active lanes' conversions. Rests on the model's own reading in notes/assumptions/5.md,
17.md, 20.md and 36.md. -/
def Obligations.VectorFloats : Prop := ∀ (f : OpF) (s : State),
  let t := ty0 f
  let u := ty1 f
  let mode := if f.form = .long then f.rnd.toNat else 0
  let sat := satOpt f
  let k := imm24 f
  let cvt := fun (x : Nat) => cvtElem u t f.rnd.toNat f.sat x
  let ints := t.isInt = true → u.isInt = true → f.rnd = 0
  (vecReady .vfadd f t s → exec (.vfadd f) s = vecLanes .vfadd f t s fun x y _ => fAdd t.fmt mode sat x y) ∧
  (vecReady .vfsub f t s → exec (.vfsub f) s = vecLanes .vfsub f t s fun x y _ => fSub t.fmt mode sat x y) ∧
  (vecReady .vfmul f t s → exec (.vfmul f) s = vecLanes .vfmul f t s fun x y _ => fMul t.fmt mode sat x y) ∧
  (vecReady .vfma f t s → exec (.vfma f) s = vecLanes .vfma f t s fun x y z => fFma t.fmt mode sat x y z) ∧
  (vecReady .vfmin f t s → exec (.vfmin f) s = vecLanes .vfmin f t s fun x y _ => fMinMax t.fmt false x y) ∧
  (vecReady .vfmax f t s → exec (.vfmax f) s = vecLanes .vfmax f t s fun x y _ => fMinMax t.fmt true x y) ∧
  (vecReady .vfrnd f t s → exec (.vfrnd f) s = vecLanes .vfrnd f t s fun x _ _ => fRndInt t.fmt mode x) ∧
  (vecReady .vfclass f t s → exec (.vfclass f) s = vecLanes .vfclass f t s fun x _ _ => (fClass t.fmt x, 0)) ∧
  (vecReady .vfscale f t s → exec (.vfscale f) s = vecLanes .vfscale f t s fun x y _ =>
    fScale t.fmt mode sat x (if 2 ^ (t.bits - 1) ≤ y then (y : Int) - 2 ^ t.bits else y)) ∧
  (vecReady .vcvt f u s → t.count = u.count → t ≠ u → k = 0 → ints → exec (.vcvt f) s =
    vecEach .vcvt f t u s fun v i j => cvt (subOf u (v.a[i % 32]!) j)) ∧
  (vecReady .vunpack f u s → t.count < u.count → k < u.count / t.count → ints → exec (.vunpack f) s =
    vecEach .vunpack f t u s fun v i j => cvt (subOf u (v.a[i % 32]!) (k * t.count + j))) ∧
  (vecReady .vpack f u s → u.count < t.count → k < t.count / u.count → ints → ∃ r : VReg, ∃ fl : Flags,
    exec (.vpack f) s = (vecEnds .vpack f u s fun _ g => raise fl (setV g f.dst.toNat r)) ∧
    (∀ j, j < 9 → (fl.getLsbD j = true ↔ ∃ i k, i < 32 ∧ k < u.count ∧ (lanesOn f s).getLsbD i = true ∧
      (cvt (subOf u ((vecIn .vpack f u s).a[i % 32]!) k)).2.getLsbD j = true)) ∧
    ∀ i, i < 32 →
      let x := r[i]!
      let old := getLane s.g f.dst.toNat i
      if (lanesOn f s).getLsbD i then
        ∀ b, b < 32 →
          let j := b / t.step
          if k * u.count ≤ j ∧ j < k * u.count + u.count then
            x.getLsbD b = (decide (b % t.step < t.bits) &&
              (cvt (subOf u ((vecIn .vpack f u s).a[i % 32]!) (j - k * u.count))).1.testBit (b % t.step))
          else x.getLsbD b = old.getLsbD b
      else x = old)

/-- R192. Each special function computes each sub-vector of each active lane by its function of R81. Rests on the model's own reading in
notes/assumptions/5.md, 6.md and 36.md. -/
def Obligations.SpecialFunctions : Prop := ∀ (f : OpF) (s : State),
  let t := ty0 f
  let mode := if f.form = .long then f.rnd.toNat else 0
  let one := fun (o : Op) (fn : XV → SpecialR) => vecLanes o f t s fun x _ _ => spUnary fn t.fmt mode (satOpt f) x
  (vecReady .vexp2 f t s → exec (.vexp2 f) s = one .vexp2 spExp2) ∧
  (vecReady .vlog2 f t s → exec (.vlog2 f) s = one .vlog2 spLog2) ∧
  (vecReady .vrcp f t s → exec (.vrcp f) s = one .vrcp spRcp) ∧
  (vecReady .vrsq f t s → exec (.vrsq f) s = one .vrsq spRsq) ∧
  (vecReady .vsqrt f t s → exec (.vsqrt f) s = one .vsqrt spSqrt) ∧
  (vecReady .vdiv f t s → exec (.vdiv f) s = vecLanes .vdiv f t s fun x y _ => spBinary t.fmt mode (satOpt f) x y) ∧
  (vecReady .vtanh f t s → exec (.vtanh f) s = one .vtanh spTanh) ∧
  (vecReady .vsin f t s → exec (.vsin f) s = one .vsin spSin) ∧
  (vecReady .vcos f t s → exec (.vcos f) s = one .vcos spCos)

/-- R81. The results that the table of the special functions fixes, in f32, f16 and bf16, under every mode, with and without saturation; VEXP2 of an
integer whose power is representable is that power, and VLOG2 of 2^k is k, both exactly. Rests on the model's own reading in
notes/assumptions/6.md. -/
def Obligations.SpecialValues : Prop := ∀ t ∈ [fmtF32, fmtF16, fmtBF16], ∀ (mode : Nat) (sat : Bool),
  let at_ := fun (fn : XV → SpecialR) (x : Nat) => spUnary fn t mode sat x
  let zero := fSignBit t
  let inf := fInf t
  let nan := (fCanon t, flagNV)
  let one := t.bias * 2 ^ t.fb
  let below := fun (x : Nat) => fIsNaN t x = false ∧ fSign t x = true ∧ x % 2 ^ (t.eb + t.fb) ≠ 0
  let is := fun (x : Nat) (v : ℚ) => x < 2 ^ (t.eb + t.fb + 1) ∧ ∃ n k q, fDecode t x = .fin n k q ∧ (if n then -1 else 1 : ℚ) * k * 2 ^ q = v
  (∀ x y (k : Int), is x k → is y (2 ^ k) → at_ spExp2 x = (y, 0)) ∧
  (∀ x y (k : Int), is x (2 ^ k) → is y k → y ≠ zero true → at_ spLog2 x = (y, 0)) ∧
  at_ spExp2 (inf true) = (0, 0) ∧ at_ spExp2 (inf false) = (inf false, 0) ∧
  (∀ neg, at_ spLog2 (zero neg) = (inf true, flagDZ)) ∧ at_ spLog2 (inf false) = (inf false, 0) ∧ (∀ x, below x → at_ spLog2 x = nan) ∧
  (∀ neg, at_ spRcp (zero neg) = (inf neg, flagDZ)) ∧ (∀ neg, at_ spRcp (inf neg) = (zero neg, 0)) ∧
  (∀ neg, at_ spRsq (zero neg) = (inf neg, flagDZ)) ∧ at_ spRsq (inf false) = (0, 0) ∧ (∀ x, below x → at_ spRsq x = nan) ∧
  (∀ neg, at_ spSqrt (zero neg) = (zero neg, 0)) ∧ at_ spSqrt (inf false) = (inf false, 0) ∧ (∀ x, below x → at_ spSqrt x = nan) ∧
  (∀ a b, spBinary t mode sat (zero a) (zero b) = nan) ∧ (∀ a b, spBinary t mode sat (inf a) (inf b) = nan) ∧
  (∀ x b, fIsNaN t x = false → fIsInf t x = false → x % 2 ^ (t.eb + t.fb) ≠ 0 →
    spBinary t mode sat x (zero b) = (inf (xor (fSign t x) b), flagDZ)) ∧
  (∀ neg, at_ spTanh (zero neg) = (zero neg, 0)) ∧ (∀ neg, at_ spTanh (inf neg) = (zero neg + one, 0)) ∧
  (∀ neg, at_ spSin (zero neg) = (zero neg, 0)) ∧ (∀ neg, at_ spSin (inf neg) = nan) ∧
  (∀ neg, at_ spCos (zero neg) = (one, 0)) ∧ (∀ neg, at_ spCos (inf neg) = nan)

/-- R68, R74, R75, R83. Rounding a finite value that does not overflow gives the encoding that the mode selects: the nearest of all finite encodings,
or the first toward zero, −∞ or +∞; NX is raised exactly where the result differs from the exact value. Every finite encoding, decoded and rounded
again, is itself, with no flag, under every mode. -/
def Obligations.FloatRounding : Prop :=
  (∀ t ∈ [fmtF32, fmtF16, fmtBF16, fmtE4M3, fmtE5M2], ∀ (mode : Nat) (neg : Bool) (m : Nat) (e : Int),
    let val := fun (n : Bool) (k : Nat) (q : Int) => (if n then -1 else 1 : ℚ) * k * 2 ^ q
    let v := val neg m e
    let r := fRound t mode false (.fin neg m e)
    mode < 4 → m ≠ 0 → r.2 &&& (flagOF ||| flagSAT) = 0 →
    r.1 < 2 ^ (t.eb + t.fb + 1) ∧ ∃ n k q, fDecode t r.1 = .fin n k q ∧
      (r.2 &&& flagNX ≠ 0 ↔ val n k q ≠ v) ∧
      ∀ y n' k' q', y < 2 ^ (t.eb + t.fb + 1) → fDecode t y = .fin n' k' q' →
        (mode = 0 → |val n k q - v| ≤ |val n' k' q' - v| ∧
          (|val n' k' q' - v| = |val n k q - v| → val n' k' q' ≠ val n k q → r.1 % 2 = 0)) ∧
        (mode = 1 → |val n k q| ≤ |v| ∧ (|val n' k' q'| ≤ |v| → |val n' k' q'| ≤ |val n k q|)) ∧
        (mode = 2 → val n k q ≤ v ∧ (val n' k' q' ≤ v → val n' k' q' ≤ val n k q)) ∧
        (mode = 3 → v ≤ val n k q ∧ (v ≤ val n' k' q' → val n k q ≤ val n' k' q'))) ∧
  (∀ t ∈ [fmtF32, fmtF16, fmtBF16, fmtE4M3, fmtE5M2], ∀ (mode x : Nat) (sat : Bool),
    x < 2 ^ (t.eb + t.fb + 1) → fIsNaN t x = false → fIsInf t x = false → fRound t mode sat (fDecode t x) = (x, 0))

/-- R194 to R197. Reductions and scans over the fixed tree, ballots, permutations and indexed registers; an uncorrectable error in a frame that VRDX
reads ends the launch (R299). Rests on the model's own reading in notes/assumptions/5.md, 36.md, 16.md (VBALLOT with no active lane) and 22.md (an
error in the handler area); that VRDX and VWRX take the frame as it stands, whatever accesses of the group are still to be performed, is the model's
choice (notes/assumptions/91.md). -/
def Obligations.LaneOps : Prop := ∀ (f : OpF) (s : State),
  let t := ty0 f
  let act := lanesOn f s
  let op := imm24 f % 8
  let word := (t.isInt = true → op < 6) ∧ (t.isInt = false → op < 3) ∧ (f.sat = true → t.isInt = true ∧ op = 0)
  let x := rawS s.g f f.a
  let y := rawS s.g f f.b
  let d := f.dst.toNat
  let n := x.toNat
  let inFrame := s.g.hmode = true ∧ n < 4
  let frame := if s.g.hmode = true ∧ n < 4 then locsFrom ⟨.handler s.g.id, 0x100 + 128 * n⟩ 128 else []
  let old := getV s.g d
  let reg := if s.g.hmode = true ∧ n < 4 then frameVec s.g.harea (0x100 + 128 * n) else getV s.g n
  let mix := fun (new old : VReg) => Vector.ofFn fun i : Fin 32 => if act.getLsbD i.val then new[i.val] else old[i.val]
  (vecReady .vlred f t s → imm24 f < 8 → word → exec (.vlred f) s = vecEach .vlred f t t s fun v _ k =>
    (treeReduce (combineOf f) (treeLeaves t v k)).getD (0, 0)) ∧
  (vecReady .vlscan f t s → imm24 f < 8 → word → exec (.vlscan f) s = vecEach .vlscan f t t s fun v i k =>
    (treeScan (combineOf f) (treeLeaves t v k) i).getD (0, 0)) ∧
  (vecReady .vlscan f t s → 8 ≤ imm24 f → imm24 f < 16 → word → exec (.vlscan f) s = vecEach .vlscan f t t s fun v i k =>
    if i = 0 then (treeIdentity t op, 0) else (treeScan (combineOf f) (treeLeaves t v k) (i - 1)).getD (treeIdentity t op, 0)) ∧
  (issues .vballot f s = true → exec (.vballot f) s = goesOn s (setS s.g d ((getP s.g f.a.reg.toNat &&& act).setWidth 64))) ∧
  (waitsExm .vballot s.g = false → act = 0 → Rg.s (d % 64) ∉ pendingRegs s.g → exec (.vballot f) s = goesOn s (setS s.g d 0)) ∧
  (waitsExm .vballot s.g = false → act = 0 → Rg.s (d % 64) ∈ pendingRegs s.g → exec (.vballot f) s = .next (holdAt s)) ∧
  (vecReady .vpermx f .n32 s → exec (.vpermx f) s = vecEach .vpermx f .n32 .n32 s fun v i _ =>
    ((v.a[(v.b[i % 32]!).toNat % 32]!).toNat, 0)) ∧
  (issues .vextr f s = true → exec (.vextr f) s = goesOn s (setS s.g d ((getLane s.g f.a.reg.toNat (y.toNat % 32)).setWidth 64))) ∧
  (issues .vinsr f s = true → exec (.vinsr f) s =
    goesOn s (if act.getLsbD (y.toNat % 32) then setLane s.g d (y.toNat % 32) (x.setWidth 32) else s.g)) ∧
  (issues .vrdx f s = true → n < s.l.kern.regs → poisoned s frame = false →
    exec (.vrdx f) s = goesOn (eccRead frame s) (setV s.g d (mix reg old))) ∧
  (issues .vrdx f s = true → n < s.l.kern.regs → poisoned s frame = true →
    exec (.vrdx f) s = goesOnWith (endLaunch s.g.id.t.l (BitVec.ofInt 64 (-83)) s)) ∧
  (issues .vwrx f s = true → n < s.l.kern.regs → ¬inFrame → exec (.vwrx f) s =
    goesOn s (setV s.g n (mix (getV s.g f.b.reg.toNat) reg))) ∧
  (issues .vwrx f s = true → n < s.l.kern.regs → inFrame → memWf s.g.harea = true → ∃ h, exec (.vwrx f) s = goesOn s { s.g with harea := h } ∧
    frameVec h (0x100 + 128 * n) = mix (getV s.g f.b.reg.toNat) reg ∧
    ∀ a, (a < 0x100 + 128 * n ∨ 0x180 + 128 * n ≤ a) → memGet h a = memGet s.g.harea a)

/-- R91, R194. For the integer operations the tree's shape does not show: a reduction without saturation is the fold over the present lanes in
ascending order, and an inclusive scan the fold over those up to the lane. -/
def Obligations.IntegerReductions : Prop := ∀ (t : Ty) (op : Nat) (xs : List Node), t.isInt = true → op < 6 → xs.length = 32 →
  (∀ x ∈ xs, ∀ v, x = some v → v.1 < 2 ^ t.bits) →
  let fold := fun (ys : List Node) => (ys.filterMap fun y => y.map Prod.fst).foldl
    (fun (a : Option Nat) x => some (a.elim x fun b => (combineI t false op b x).1)) none
  (treeReduce (combineI t false op) xs).map Prod.fst = fold xs ∧
  ∀ i, i < 32 → (treeScan (combineI t false op) xs i).map Prod.fst = fold (xs.take (i + 1))

/-- R84, R64, R87 to R89. The sum of a map row and its flags do not depend on the order of its columns. A container written is read back as it was; a
sum of containers that raises neither NX nor SAT is exact; a NaN makes the sum the NaN container, an infinity beside a finite container is the sum as
it stands, opposite infinities give NaN and NV, and scaling returns a special container as it stands. -/
def Obligations.ExactSums : Prop :=
  (∀ ps qs : List ((XV × Bool) × (XV × Bool)), ps.Perm qs →
    orderFreeRow (ps.map Prod.fst) (ps.map Prod.snd) = orderFreeRow (qs.map Prod.fst) (qs.map Prod.snd)) ∧
  ((∀ c : CV, (∀ s e q, c = .fin s e q → -2 ^ 47 ≤ s ∧ s < 2 ^ 47 ∧ e < 4096) → accRead (accBits c) = c) ∧
    ∀ (x y : W64) (s t : Int) (e f : Nat), accRead x = .fin s e false → accRead y = .fin t f false →
      let r := accAdd x y
      r.2 &&& (flagNX ||| flagSAT) = 0 →
      ∃ u g, accRead r.1 = .fin u g false ∧ u.natAbs < 2 ^ 47 ∧ (u : ℚ) * 2 ^ (g : Int) = s * 2 ^ (e : Int) + t * 2 ^ (f : Int)) ∧
  (∀ (x y : W64) (a b : Bool) (s k : Int) (e : Nat) (q : Bool),
    ((accRead x = .nan ∨ accRead y = .nan) → accAdd x y = (0x8000000000000000, 0)) ∧
    (accRead x = .inf a → accRead y = .fin s e q → accAdd x y = (x, 0) ∧ accAdd y x = (x, 0)) ∧
    (accRead x = .inf a → accRead y = .inf b → a ≠ b → accAdd x y = (0x8000000000000000, flagNV)) ∧
    ((accRead x = .nan ∨ accRead x = .inf a) → accScale x k = (x, 0)))

/-- R207 to R210. The accumulator ops act on the containers of the active lanes, in ascending order. Rests on the model's own reading in
notes/assumptions/5.md and 36.md, and on its choices in notes/assumptions/65.md, 66.md and 67.md. -/
def Obligations.Accumulators : Prop := ∀ (f : OpF) (s : State),
  let t := ty0 f
  let act := lanesOn f s
  let d := f.dst.toNat
  let a := f.a.reg.toNat
  let on := fun (n : Nat) (step : Nat → Nat → Group → Group) (g : Group) => overLanes act n step g
  let alt := seenAlt .amac f s
  let raw := if (mappedSrcs (spec .amac f) f).isEmpty then (rawV s [] (immV .amac f) t act f.a).1 else getV s.g a
  (issues .aclr f s = true → exec (.aclr f) s = goesOn s (on 1 (fun i _ g => setA g d i 0) s.g)) ∧
  (issues .aadd f s = true → exec (.aadd f) s = goesOn s (on 1 (fun i _ g =>
    let r := accAdd (getA g a i) (getA g f.b.reg.toNat i)
    raise r.2 (setA g d i r.1)) s.g)) ∧
  (vecReady .ascale f .i32 s → exec (.ascale f) s = vecEnds .ascale f .i32 s fun v g => on 1 (fun i _ g =>
    let r := accScale (getA g a i) (v.b[i % 32]!).toInt
    raise r.2 (setA g d i r.1)) g) ∧
  (vecReady .ain f t s → exec (.ain f) s = vecEnds .ain f t s fun v g => on t.count (fun i k g =>
    let x := subOf t (v.a[i % 32]!) k
    raise (if t.isInt = false ∧ fIsSNaN t.fmt x = true then flagNV else 0) (setA g (d + k) i (accBits (accFromValue (elemValue t x)).1))) g) ∧
  (vecReady .amac f t s → exec (.amac f) s = goesOn s (afterMaps (mappedSrcs (spec .amac f) f) (on t.count (fun i k g =>
    let m := amacTerm s alt t act f.a raw i k
    let r := accAdd (getA g (d + k) i) (accBits m.1)
    raise (r.2 ||| m.2) (setA g (d + k) i r.1)) s.g))) ∧
  (issues .aout f s = true → imm24 f ≤ 1 → exec (.aout f) s =
    let g := setLanes t d act (laneResults t act fun i k => accToElem t f.sat (accRead (getA s.g (a + k) i))) s.g
    goesOn s (if imm24 f = 1 then on t.count (fun i k g => setA g (a + k) i 0) g else g))

/-- R212 to R215, R69. The quantisation ops on the blocks of their byte select; QPACK raises NV where an active lane holds a signalling NaN. Rests on
the model's own reading in notes/assumptions/77.md. -/
def Obligations.Quantisation : Prop := ∀ (f : OpF) (s : State),
  let act := lanesOn f s
  let sel := imm24 f % 4
  let d := f.dst.toNat
  let src := getV s.g f.a.reg.toNat
  let fl := ty1 f
  let blocks := (List.range fl.count).flatMap fun k => [(k, 0), (k, 1)]
  let lane := fun (b : Nat × Nat) => 2 * (sel + b.1) + b.2
  let vals := fun (b : Nat × Nat) => qBlock fl act src b.1 b.2
  let packed := fun (b : Nat × Nat) => qpackBlock (ty0 f).mag (vals b)
  let nan := ((List.range 32).filter fun i => act.getLsbD i).any fun i => (List.range fl.count).any fun k => !fl.isInt && fIsSNaN fl.fmt (subOf fl (src[i]!) k)
  (issues .qscan f s = true → imm24 f < 4 → sel + fl.count ≤ 4 → exec (.qscan f) s =
    goesOn s (setV s.g d (putHeaders (blocks.map fun b => (lane b, (packed b).1)) (getV s.g d)))) ∧
  (issues .qscan f s = true → 4 ≤ imm24 f → imm24 f < 8 → sel + fl.count ≤ 4 → exec (.qscan f) s =
    goesOn s (setV s.g d (blocks.foldl (fun r b => r.set! (lane b) (BitVec.ofNat 32 (qMax ((vals b).map Prod.fst)))) (getV s.g d)))) ∧
  (issues .qpack f s = true → imm24 f < 4 → sel + fl.count ≤ 4 → f.b.reg ≠ f.dst → f.b.reg ≠ f.a.reg →
    ∃ g : Group, exec (.qpack f) s = goesOn s (raise ((blocks.map packed).foldl (fun a b => a ||| b.2.2) (if nan then flagNV else 0))
      (setV g f.b.reg.toNat (putHeaders (blocks.map fun b => (lane b, (packed b).1)) (getV s.g f.b.reg.toNat)))) ∧
      { g with v := s.g.v } = s.g ∧ (∀ n, n < 256 → n ≠ d → getV g n = getV s.g n) ∧
      ∀ i j, i < 32 → j < 32 → (getLane g d i).getLsbD j =
        if act.getLsbD i = true ∧ sel ≤ j / 8 ∧ j / 8 < sel + fl.count then
          (((packed (j / 8 - sel, i / 16)).2.1).getD (i % 16) 0).testBit (j % 8)
        else (getLane s.g d i).getLsbD j) ∧
  (issues .qunpack f s = true → imm24 f < 4 → sel + (ty0 f).count ≤ 4 → exec (.qunpack f) s =
    goesOn s (setLanes (ty0 f) d act (laneResults (ty0 f) act fun i k =>
      let b := sel + k
      qElem (ty0 f) (ty1 f).mag (((getV s.g f.b.reg.toNat)[2 * b + i / 16]!).toNat % 65536) (i % 16 / 4) ((src[i]!).toNat / 2 ^ (8 * b) % 256))
      s.g))

/-- R202 to R206. Binding, viewing, advancing and releasing a map number; a stream that the number held before is released first, and a stream moved
past its last block is unbound. Rests on the model's own reading in notes/assumptions/39.md. -/
def Obligations.MapBindings : Prop := ∀ (f : OpF) (s : State),
  let n := f.dst.toNat % 16
  let d := getS s.g f.a.reg.toNat
  let m := getMap s.g f.a.reg.toNat
  let x := (intS s.g f f.b).toNat
  let rows := x % 32 + 1
  let cols := x / 32 % 32 + 1
  let bind := fun (d : W64) => goesOn s (setMap { s.g with streams := s.g.streams.filter fun e => e.1 ≠ n } n d)
  let cur := getMap s.g n
  (issues .mapset f s = true → mapsetOk s n d = true → exec (.mapset f) s = bind d) ∧
  (issues .mapset f s = true → mapsetOk s n d = false → exec (.mapset f) s = .next (trapAt trapIllegal s)) ∧
  (issues .mapbind f s = true → mdKind m = 1 → x < 1024 → rows ≤ mdRows m → cols ≤ mdCols m → slotsFree s n (viewDesc m x) = true →
    exec (.mapbind f) s = bind (mkDesc 1 (mdSlot m) (mdFmt m) rows cols (mdWord m))) ∧
  (issues .maprel f s = true → exec (.maprel f) s = bind 0) ∧
  (issues .mapadv f s = true → mdKind cur ≠ 3 → exec (.mapadv f) s = .next (trapAt trapIllegal s)) ∧
  (∀ e, issues .mapadv f s = true → mdKind cur = 3 → s.g.streams.find? (fun e => e.1 = n) = some e → swCount e.2.word ≤ mdB cur + 1 →
    exec (.mapadv f) s = bind 0) ∧
  (∀ e, issues .mapadv f s = true → mdKind cur = 3 → s.g.streams.find? (fun e => e.1 = n) = some e → mdB cur + 1 < swCount e.2.word →
    exec (.mapadv f) s = goesOn s (setMap { s.g with seqn := s.g.seqn + 1, streams := s.g.streams.map fun x =>
      if x.1 = n then (n, { x.2 with
        here := x.2.ahead, ahead := false, seqHere := x.2.seqAhead, seqAhead := s.g.seqn, gotHere := x.2.gotAhead, gotAhead := [] }) else x } n
      (mkDesc 3 (mdSlot cur) (mdFmt cur) (mdRows cur) (mdCols cur) (mdB cur + 1 + ((e.2.fields.extractLsb' 22 3).toNat + 1) * 2 ^ 26))))

/-- R201, R204, R205, R98, R60. MAPLD, MAPST and MAPGEN bind or read their map and put one op into MP; MAPSTR binds its stream with no block in; with
room in MP, legal fields and accesses that pass R97. An element that a mapped source finds has its old value, or the value of another group's
unfinished load that has read all its bytes. Rests on the model's own reading in notes/assumptions/36.md and 39.md. -/
def Obligations.MapTransfers : Prop := ∀ (f : OpF) (s : State),
  let n := f.dst.toNat % 16
  let d := getS s.g f.b.reg.toNat
  let sp := spaceOf (f.dst.toNat / 64)
  let m := getMap s.g n
  let put := fun (o : MapOp) (g : Group) =>
    { g with mapops := (g.mapops ++ [{ o with seq := g.seqn }]).dropWhile MapOp.done, seqn := g.seqn + 1 }
  let room := s.g.mapops.length < 63
  let img := fun (d : W64) => imageSize (mdFmt d) (mdRows d)
  (∀ accs, issues .mapld f s = true → residentOk s n d = true → room → checkImage s (imageReqs sp (imageBase s.g f) (img d) true) = .ok accs →
    exec (.mapld f) s = goesOn s (put ⟨0, .load, mdFmt d, 2048 * mdSlot d, img d, accs, none, [], [], false⟩ (mapBind n d s.g))) ∧
  (∀ accs, issues .mapst f s = true → (mdKind m = 1 ∨ mdKind m = 2) → room →
    checkImage s (imageReqs sp (imageBase s.g f) (img m) false) = .ok accs →
    (mdKind m = 1 → mapPending s.g (mdBase m) (img m) = false) → reserve s 2 accs 0 = .ok () →
    exec (.mapst f) s = goesOn s (put ⟨0, .store, mdFmt m, 0, 0, accs, some (mapImage s m), [], [], false⟩ s.g)) ∧
  (issues .mapgen f s = true → mapgenOk s f = true → gwGen f ≠ 5 → room → exec (.mapgen f) s =
    goesOn s (put ⟨0, .gen, 0, 0, 0, [], none, [], [], true⟩
      (mapBind n (mkDesc 2 0 (gwFmt f) (gwRows f) (gwCols f) (gwGen f + 16 * gwParam f)) s.g))) ∧
  (issues .mapgen f s = true → mapgenOk s f = true → gwGen f = 5 → room → exec (.mapgen f) s =
    goesOn s (raise ((((List.range (gwRows f)).filter fun i => i < gwCols f)).foldl (fun a i => a ||| (diagElem s.g f i).2) 0)
      (put ⟨0, .diag, gwFmt f, 2048 * gwSlot f, imageSize (gwFmt f) (gwRows f), [], some (diagImage s.g f), [], [], false⟩
        (mapBind n (mkDesc 1 (gwSlot f) (gwFmt f) (gwRows f) (gwCols f) 0) s.g)))) ∧
  (∀ accs, issues .mapstr f s = true → mapstrOk s f = true →
    checkImage s (streamReqs (getS s.g f.a.reg.toNat) d (imageSize (sfFmt f) (sfRows f))) = .ok accs →
    exec (.mapstr f) s = goesOn s { mapBind n (mkDesc 3 (sfSlot f) (sfFmt f) (sfRows f) (sfCols f) (sfReuse f * 2 ^ 26)) s.g with
      streams := (s.g.streams.filter fun e => e.1 ≠ n) ++ [(n, ⟨getS s.g f.a.reg.toNat, d, f.imm, accs, false, false, s.g.seqn, s.g.seqn + 1, [], []⟩)]
      seqn := s.g.seqn + 2 }) ∧
  (∀ i j, let x := seenElem s (altSlots s) m i j
    x = mapElem s.t.slots m i j ∨ ∃ h ∈ teamGroups s s.g.id.t, ∃ o ∈ h.mapops, h.id ≠ s.g.id ∧ o.done = false ∧ (o.kind = .load ∨ o.kind = .diag) ∧
      x = mapElem ((comingBytes o).foldl (fun m y => memPut m y.1 y.2) s.t.slots) m i j ∧
      ∀ b ∈ elemBytes m i j, o.first ≤ b → b < o.first + o.size → b ∈ (comingBytes o).map Prod.fst)

/-- R219, R220, R119, R171, R211, R98. The loads and stores of registers: with room in the counter, a legal word and accesses that pass R97, one op
joins the group's queue; a store's data are read now, a load's registers stay until it retires, and no memory changes. A .b128 access is queued as two
of 8 bytes (R119). A store of a replay task that needs lines of the spill pool beyond those its task holds reserves them and is performed as it
issues, or parks on the fault of that reservation (R317). Where a check of R97 fails for any access, the op stops at the first check that does, at the
lowest failing lane and there the lowest address: MISALIGNED, ADDRESS_FORM, REPLAY_REGION at the first byte outside the regions (R31), and
SCRATCH_BOUNDS with LANE and FADDR, or parked with the record of the translation fault (R296, R297). Rests on the model's own reading in
notes/assumptions/14.md, and on its choice in notes/assumptions/78.md (the order of addresses). -/
def Obligations.MemoryIssue : Prop := ∀ (f : OpF) (s : State) (accs : List Acc),
  let wide := 2 ^ memW f
  let span := if memW f = 3 then 2 else if memW f = 4 then 4 else 1
  let low := fun (a : Acc) => { a with w := 8, data := (a.data.extractLsb' 0 64).setWidth 128 }
  let high := fun (a : Acc) => { a with
    sub := 1, loc := { a.loc with addr := a.loc.addr + 8 }, va := a.va + 8, w := 8, data := (a.data.extractLsb' 64 64).setWidth 128 }
  let apart := accs.flatMap fun a => if a.w = 16 then [low a, high a] else [a]
  let load := fun (c : Ctr) (as : List Acc) (sgn : Bool) (w : Nat) (dst : LDst) =>
    goesOn s (enqueue ⟨0, c, .load sgn, w, as, dst, [], false, none, false, [], [], 0, []⟩ s.g)
  let stores := fun (c : Ctr) (as : List Acc) (w : Nat) (r : Out) =>
    let g := enqueue ⟨0, c, .store, w, as, .none, [], false, none, false, [], [], 0, []⟩ s.g
    let u := performTo s.g.id s.g.seqn { s with g := g }
    (poolNeed s as 0 = 0 → r = goesOn s g) ∧
    (poolNeed s as 0 ≠ 0 → reserve s 0 as 0 = .ok () → undone s.g.id s.g.seqn u = false → r = goesOnWith u) ∧
    (poolNeed s as 0 ≠ 0 → reserve s 0 as 0 = .ok () → undone s.g.id s.g.seqn u = true → r = .next (holdAt s)) ∧
    (∀ p, reserve s 0 as 0 = .park p → r = .next { s with g := { s.g with park := some p } })
  let roomLd := ctrCount s.g .ld < 63
  let roomSt := ctrCount s.g .st < 63
  let d := f.dst.toNat
  let w := 2 ^ scalarW f
  let vstDatum := fun (i : Nat) => BitVec.ofNat 128 (regCat s.g d span i % 2 ^ (8 * wide))
  let sstDatum := ((getS s.g (d % 64)).setWidth (8 * w)).setWidth 128
  let forms : List (Op × Instr × Bool × List Req) := [
    (.vld, .vld f, plainOk true f && decide roomLd, memReqs s.g f true false noData noExp),
    (.vst, .vst f, plainOk false f && decide roomSt, memReqs s.g f false true vstDatum noExp),
    (.sld, .sld f, scalarOk true f && decide roomLd, [scalarReq s.g f true false 0]),
    (.sst, .sst f, scalarOk false f && decide roomSt, [scalarReq s.g f false true sstDatum]),
    (.asave, .asave f, true, accReqs s.g f true), (.aload, .aload f, true, accReqs s.g f false)]
  let first := fun (rs : List Req) (bad : Req → Prop) (r : Req) =>
    r ∈ rs ∧ bad r ∧ ∀ q ∈ rs, bad q → r.lane < q.lane ∨ (r.lane = q.lane ∧ r.addr.toNat ≤ q.addr.toNat)
  let odd := fun (r : Req) => r.addr.toNat % r.w ≠ 0
  let unformed := fun (r : Req) => r.sp = .g ∧ r.addr.toNat / 2 ^ 55 ≠ 0 ∧ r.addr.toNat / 2 ^ 55 ≠ 2 ^ 9 - 1
  let stray := fun (r : Req) (i : Nat) => r.sp = .g ∧ r.wr = true ∧ s.l.replay = true ∧ hasRegions s.l = true ∧ i < r.w ∧
    ∃ t, taskOf s.l s.g.id.t = some t ∧ ¬∃ e ∈ t.writes, e.1.toNat ≤ r.addr.toNat + i ∧ r.addr.toNat + i < e.1.toNat + e.2.toNat
  let window := fun (r : Req) => r.sp = .b ∧ s.g.hmode = true ∧ 2 ^ 32 ≤ r.addr.toNat
  let beyond := fun (r : Req) => r.sp ≠ .g ∧ (if window r then 2 ^ 32 + 2048 else allocOf s.l r.sp) < r.addr.toNat + r.w
  let faults := fun (r : Req) => r.sp = .g ∧ ∃ level range reason, xlat s s.p ⟨r.rd, r.wr, false⟩ r.addr r.w = .fault level range reason
  (∀ o i ok rs r, (o, i, ok, rs) ∈ forms → issues o f s = true → ok = true →
    let formed := ∀ q ∈ rs, ¬odd q ∧ ¬unformed q
    let inside := ∀ q ∈ rs, ¬∃ n, stray q n
    (first rs odd r → exec i s = .next (trapAt ⟨8, 0, 0, r.lane, r.addr, 0⟩ s)) ∧
    ((∀ q ∈ rs, ¬odd q) → first rs unformed r → exec i s = .next (trapAt ⟨9, 0, 0, r.lane, r.addr, 0⟩ s)) ∧
    (∀ n, formed → first rs (fun q => ∃ n, stray q n) r → stray r n → (∀ m, m < n → ¬stray r m) →
      exec i s = .next (trapAt ⟨16, 0, 0, r.lane, r.addr + BitVec.ofNat 64 n, 0⟩ s)) ∧
    (formed → inside → first rs beyond r → exec i s = .next (trapAt ⟨10, 0, 0, r.lane, r.addr, 0⟩ s)) ∧
    (∀ level range reason, formed → inside → (∀ q ∈ rs, ¬beyond q) → first rs faults r →
      xlat s s.p ⟨r.rd, r.wr, false⟩ r.addr r.w = .fault level range reason →
      let p : Park := { va := r.addr, path := 0, kind := if r.wr then 1 else 0, level := if range.isSome then 0 else level, range := range,
                        reason := reason, entry := none, failed := false }
      exec i s = .next { s with g := { s.g with park := some p } })) ∧
  (issues .vld f s = true → plainOk true f = true → roomLd → checkReqs s 0 (memReqs s.g f true false noData noExp) = .ok accs →
    exec (.vld f) s = load .ld apart (memSgn f) wide (.vec d span)) ∧
  (issues .vst f s = true → plainOk false f = true → roomSt →
    checkReqs s 0 (memReqs s.g f false true vstDatum noExp) = .ok accs → stores .st apart wide (exec (.vst f) s)) ∧
  (issues .sld f s = true → scalarOk true f = true → roomLd → checkReqs s 0 [scalarReq s.g f true false 0] = .ok accs →
    exec (.sld f) s = load .ld apart (scalarSgn f) w (.scl (d % 64))) ∧
  (issues .sst f s = true → scalarOk false f = true → roomSt →
    checkReqs s 0 [scalarReq s.g f false true sstDatum] = .ok accs → stores .st apart w (exec (.sst f) s)) ∧
  (issues .asave f s = true → checkReqs s 0 (accReqs s.g f true) = .ok accs → stores .acc accs 8 (exec (.asave f) s)) ∧
  (issues .aload f s = true → checkReqs s 0 (accReqs s.g f false) = .ok accs →
    exec (.aload f) s = load .acc accs false 8 (.acc (d % 64)))

/-- R223 to R226, R34, R35, R318, R323. ATOM and ARED outside a replay launch join the queue; an ATOM.ord takes its round and waits for its turn; in a
replay launch an ATOM without .ord, or at a scope wider than the team, raises ORDER_VIOLATION before any of its accesses is checked; an ARED on global
memory of a replay launch leaves one record a lane, in ascending order, and touches no memory; a task's records stand in an order that follows each
group's program order and what a group has acquired, and else the group numbers. Rests on the model's own reading in notes/assumptions/13.md and
14.md, and on its choice in notes/assumptions/33.md. -/
def Obligations.AtomicIssue : Prop := ∀ (f : OpF) (s : State) (accs : List Acc),
  let wide := 2 ^ memW f
  let scope := some (scopeOf (memScope f))
  let dst : LDst := .vec f.dst.toNat (if memW f = 3 then 2 else if memW f = 4 then 4 else 1)
  let atom : LaneOp := ⟨0, .ld, .atom (memAop f) (memSgn f), wide, accs, dst, if memAcq f then scope.toList else [], false,
    if memRel f then scope else none, false, [], [], 0, []⟩
  let ared : LaneOp := ⟨0, .st, .ared (memAop f) (memSgn f), wide, accs, .none, [], false, if memRel f then scope else none, false, [], [], 0, []⟩
  let reads := checkReqs s 0 (memReqs s.g f true true (atomData s.g f) (atomExp s.g f)) = .ok accs
  let merges := checkReqs s 0 (memReqs s.g f true true (atomData s.g f) noExp) = .ok accs
  let task := s.g.id.t.team
  (issues .atom f s = true → atomicOk true f = true → memOrd f = false → s.l.replay = false → ctrCount s.g .ld < 63 → reads →
    exec (.atom f) s = goesOn s (enqueue atom s.g)) ∧
  (issues .atom f s = true → atomicOk true f = true → s.l.replay = true → (memOrd f = false ∨ 1 < memScope f) →
    exec (.atom f) s = .next (trapAt ⟨15, 0, 0, 0, 0, BitVec.ofNat 64 (ordRound s (opPc s.g))⟩ s)) ∧
  (issues .atom f s = true → atomicOk true f = true → memOrd f = true → ordAllowed s f = true → ctrCount s.g .ld < 63 → reads →
    exec (.atom f) s =
      let t := (ordTake s).2
      .next { t with g := { s.g with wait := .ord (ordTake s).1 (ordRound s (opPc s.g)) atom } }) ∧
  (issues .ared f s = true → atomicOk false f = true → (s.l.replay = false ∨ spaceOf (memQ f) ≠ .g) → ctrCount s.g .st < 63 → merges →
    exec (.ared f) s = goesOn s (enqueue ared s.g)) ∧
  (issues .ared f s = true → atomicOk false f = true → s.l.replay = true → spaceOf (memQ f) = .g → ctrCount s.g .st < 63 → merges →
    reserve s 0 [] accs.length = .ok () → s.l.live = true → s.l.id = s.g.id.t.l →
    exec (.ared f) s = .next { s with
      g := nextSlot (enqueue { ared with accs := [], done := true } s.g)
      l := { s.l with tasks := s.l.tasks.map fun t =>
        if t.team = task then { t with recs := (aredRecs ⟨s.g.id, s.g.seqn⟩ f accs).foldl (fun rs r => redAdd s.g r rs) t.recs } else t } }) ∧
  (∀ r rs, rs.Pairwise (fun a b => redLe a b = true) →
    let e := redEpoch s.g r.op.seq rs
    (redAdd s.g r rs).Pairwise (fun a b => redLe a b = true) ∧ (redAdd s.g r rs).Perm ({ r with epoch := e } :: rs) ∧
    ∀ x ∈ rs, (x.op.k = s.g.id → x.epoch ≤ e) ∧ (x.op.k ≠ s.g.id → redKnows s.g r.op.seq x = true → x.epoch < e))

/-- R101 to R106, R221, R222. CPY and TMOV with a legal word, a legal completion word, room in CP and on the tag, and accesses that pass R97: one copy
joins the queue with its pairs of units, its tag pending once more; no byte is moved yet. Rests on the model's own reading in notes/assumptions/14.md,
and on its choices in notes/assumptions/33.md and 59.md. -/
def Obligations.CopyIssue : Prop := ∀ (f : OpF) (s : State) (c : Comp) (accs : List Acc),
  let issue := fun (tile : Bool) (rs : List Req × List Req) =>
    let n := rs.1.length
    let sig := compSig c (accs.drop (2 * n))
    let u := compStart c sig s
    Host.Outcome.next { u with g := nextSlot { u.g with
      copies := u.g.copies ++ [⟨u.g.seqn, tile, (accs.take n).zip ((accs.drop n).take n), [], none, 0, c.tag, c.ring, sig, false⟩]
      seqn := u.g.seqn + 1 } }
  let ready := fun (tile : Bool) (rs : List Req × List Req) =>
    copyOk tile f = true ∧ compRead s true (copyCwen f) (copyCreg f) = .ok c ∧ s.g.copies.length < 63 ∧ tagRoom c.tag s.t = true ∧
    checkReqs s 1 (rs.1 ++ rs.2 ++ compReqs c) = .ok accs ∧ reserve s 1 ((accs.drop rs.1.length).take rs.1.length) (compRecs s c) = .ok ()
  (issues .cpy f s = true → ready false (cpyPair s.g f) → exec (.cpy f) s = issue false (cpyPair s.g f)) ∧
  (issues .tmov f s = true → ready true (tmovPair s.g f) → tileOverlap s.g f = false → exec (.tmov f) s = issue true (tmovPair s.g f)) ∧
  (issues .tmov f s = true → ready true (tmovPair s.g f) → tileOverlap s.g f = true →
    exec (.tmov f) s = .next (trapAt ⟨11, 0, 0, 0, 0, 0⟩ s))

/-- R227 to R229, R123. FENCE, XFENCE and PROMOTE. A FENCE orders the lane path at its place; its release goes to the next write and its acquire to
the nearest earlier read: to one still in the queue, or at once to one that has been performed, where it holds if later accesses may have overtaken
that read and it finds no scope mismatch; an XFENCE crosses what the group has observed, writes and reads, from each named class to the others; a
PROMOTE of another resident team waits for the promotion point, after which no release of that team is left at .grp or .team. Rests on the model's own
reading in notes/assumptions/4.md and 11.md, and on its choice in notes/assumptions/72.md. -/
def Obligations.Fences : Prop := ∀ (f : OpF) (s : State),
  let sc := scopeOf (memScope f)
  let mark := fun (g : Group) => s.g.seqn :: g.fences.filter fun m => g.lane.any fun o => o.seq < m
  let mask := f.imm
  let named := (List.range 6).filter fun n => mask.getLsbD n
  let seen := (s.g.observed.filter fun o => o.from_ ≤ s.g.seqn).map Observed.op
  let carried := fun (p : Path) (c : Crossing) => (named.filter fun n => n ≠ pathBit p).map fun n =>
    { c with onto := some (pathOf n), from_ := s.g.seqn, by_ := none }
  let crossed := ((s.recs.filter fun r => mask.getLsbD (pathBit r.path) && seen.contains r.op).flatMap fun r =>
      carried r.path ⟨r.op, r.path, none, none, 0, none⟩) ++
    (((allGroups s).flatMap Group.crossed).filter fun c => c.by_.any seen.contains && c.onto.any fun p => mask.getLsbD (pathBit p)).flatMap
      fun c => carried (c.onto.getD .lane) c
  let t := (intS s.g f f.a).toNat
  (issues .fence f s = true → fenceOk f = true → memAcq f = false → exec (.fence f) s = goesOn s { s.g with
    fences := mark s.g, relNext := if memRel f then wider s.g.relNext (some sc) else s.g.relNext }) ∧
  (issues .fence f s = true → fenceOk f = true → memAcq f = true → s.g.lane = [] → s.g.live = true →
    let overtaken := s.g.lastBound = true ∧ missed s s.g.id sc s.g.lastRead = false
    let u := acquire s.g.id sc s.g.lastSeq s.g.lastRead s
    (¬overtaken → exec (.fence f) s = goesOn u { u.g with
      fences := mark s.g, relNext := if memRel f then wider s.g.relNext (some sc) else s.g.relNext }) ∧
    (overtaken → exec (.fence f) s = .next (holdAt s))) ∧
  (∀ o, issues .fence f s = true → fenceOk f = true → memAcq f = true → s.g.lane = [o] → o.kind.reads = true → o.done = false →
    s.g.lastSeq ≤ o.seq → exec (.fence f) s = goesOn s { s.g with
      lane := [{ o with acq := sc :: o.acq }]
      fences := mark s.g, relNext := if memRel f then wider s.g.relNext (some sc) else s.g.relNext }) ∧
  (issues .xfence f s = true → mask.toNat < 64 → 2 ≤ named.length → ∃ u, exec (.xfence f) s = goesOnWith u ∧
    (∀ c, c ∈ u.g.crossed ↔ c ∈ crossed ∨ c ∈ s.g.crossed) ∧
    { u with g := { u.g with crossed := s.g.crossed }, l := s.l } = s ∧
    (s.l.replay = false → u.l = s.l)) ∧
  (issues .promote f s = true → t < s.l.gx * s.l.gy * s.l.gz →
    (s.l.replay = true ∨ t = s.g.id.t.team ∨ team? s ⟨s.l.id, t⟩ = none) → exec (.promote f) s = goesOnWith s) ∧
  (issues .promote f s = true → t < s.l.gx * s.l.gy * s.l.gz → s.l.replay = false → t ≠ s.g.id.t.team → (team? s ⟨s.l.id, t⟩).isSome = true →
    exec (.promote f) s = .next { s with g := { s.g with wait := .promote (BitVec.ofNat 64 t) } }) ∧
  (∀ x : W64, s.g.live = true → s.g.wait = .promote x → s.t.live = true → s.t.id = s.g.id.t → s.l.live = true → s.l.id = s.g.id.t.l →
    s.p.live = true → s.p.num = s.g.id.t.l.part →
    (promoteTeam ⟨s.g.id.t.l, x.toNat⟩ s = none → exec (.promoteComplete s.g.id) s = .next s) ∧
    ∀ u, promoteTeam ⟨s.g.id.t.l, x.toNat⟩ s = some u → exec (.promoteComplete s.g.id) s = goesOnWith u ∧
      ∀ r ∈ u.rels, r.by_.any (fun b => b.t = ⟨s.g.id.t.l, x.toNat⟩) = true → r.scope ≠ .grp ∧ r.scope ≠ .team)

/-- R20, R230 to R232. WAIT, TWANY, TWALL and TFIRST end at once where their condition holds, and wait where it does not; TAG_WAIT_RESUME and
WAIT_RESUME end the wait once it holds. The group then observes the completions that its condition told it of (R120). Rests on the model's own reading
in notes/assumptions/19.md and 37.md. -/
def Obligations.Waits : Prop := ∀ (f : OpF) (s : State),
  let a := encodeSrc f.a
  let b := encodeSrc f.b
  let lim := fun (x : BitVec 14) (lo : Nat) => (x.extractLsb' lo 6).toNat
  let ok := a.extractLsb' 6 2 = 0 ∧ b.extractLsb' 6 2 = 0
  let holds := ctrCount s.g .ld ≤ lim a 8 ∧ ctrCount s.g .st ≤ lim a 0 ∧ s.g.copies.length ≤ lim b 8 ∧ s.g.mapops.length ≤ lim b 0
  let told := fun (ops : List OpId) =>
    ((ops.filter fun op => noted s op && !(s.g.observed.any fun o => o.op = op)).eraseDups.map fun op => (⟨op, s.g.seqn⟩ : Observed)) ++
      s.g.observed.filter fun o => noted s o.op
  let seen := fun (ops : List OpId) => goesOn s { s.g with observed := told ops }
  let waits := fun (w : Wait) => Host.Outcome.next { s with g := { s.g with wait := w } }
  let m := intS s.g f f.a
  let legal := m ≠ 0 ∧ m.toNat < 2 ^ s.l.kern.tags
  let set := fun (n : Nat) => ∃ t, s.t.tags[n]? = some t ∧ t.set = true
  let any := fun (m : W64) => ∃ n, n < 64 ∧ m.getLsbD n = true ∧ set n
  let all := fun (m : W64) => ∀ n, n < 64 → m.getLsbD n = true → set n
  let takes := fun (d : Nat) (m : W64) (r : Out) => ∀ n, m.getLsbD n = true → set n → (∀ j, j < n → m.getLsbD j = true → ¬set j) → n < 64 →
    tfirstRival s n = false → r = .next { s with
      g := nextSlot (setS { s.g with observed := told (s.t.tags.getD n ⟨0, false, []⟩).ops } d (BitVec.ofNat 64 n))
      t := { s.t with tags := s.t.tags.modify n fun t => { t with set := false } } }
  (issues .wait f s = true → ok → holds → exec (.wait f) s = seen (waitSeen s (lim a 8) (lim a 0) (lim b 8) (lim b 0))) ∧
  (issues .wait f s = true → ok → ¬holds → exec (.wait f) s = waits (.wait (lim a 8) (lim a 0) (lim b 8) (lim b 0))) ∧
  (∀ ld st cp mp, inFocus s → s.g.wait = .wait ld st cp mp → ctrCount s.g .ld ≤ ld → ctrCount s.g .st ≤ st → s.g.copies.length ≤ cp →
    s.g.mapops.length ≤ mp → exec (.waitResume s.g.id) s = seen (waitSeen s ld st cp mp)) ∧
  (issues .twany f s = true → legal → any m → exec (.twany f) s = seen (tagOps s.t m)) ∧
  (issues .twany f s = true → legal → ¬any m → exec (.twany f) s = waits (.tags false m)) ∧
  (issues .twall f s = true → legal → all m → exec (.twall f) s = seen (tagOps s.t m)) ∧
  (issues .twall f s = true → legal → ¬all m → exec (.twall f) s = waits (.tags true m)) ∧
  (issues .tfirst f s = true → legal → takes f.dst.toNat m (exec (.tfirst f) s)) ∧
  (issues .tfirst f s = true → legal → ¬any m → exec (.tfirst f) s = waits (.tfirst f.dst.toNat m)) ∧
  (∀ m, inFocus s → s.g.wait = .tags false m → any m → exec (.tagWaitResume s.g.id) s = seen (tagOps s.t m)) ∧
  (∀ m, inFocus s → s.g.wait = .tags true m → all m → exec (.tagWaitResume s.g.id) s = seen (tagOps s.t m)) ∧
  (∀ d m, inFocus s → s.g.wait = .tfirst d m → takes d m (exec (.tagWaitResume s.g.id) s))

/-- R107. signal_add leaves a value below zero, takes a delta below zero as an error code, and clamps a sum above 2^63 − 1. -/
def Obligations.SignalAdd : Prop := ∀ v d : W64,
  (v.toInt < 0 → signalNew v d = (v, false)) ∧
  (0 ≤ v.toInt → d.toInt < 0 → signalNew v d = (d, false)) ∧
  (0 ≤ v.toInt → 0 ≤ d.toInt → v.toInt + d.toInt ≤ 2 ^ 63 - 1 → signalNew v d = (v + d, false)) ∧
  (0 ≤ v.toInt → 0 ≤ d.toInt → 2 ^ 63 - 1 < v.toInt + d.toInt → signalNew v d = (0x7FFFFFFFFFFFFFFF, true))

/-- R233, R230, R34, R318. SIGADD joins ST as a release of its scope, and on global memory of a replay launch leaves one record for the seam and
touches no memory; SIGWAIT reads its signal, writes it and goes on where it is at or above the target or below zero, and waits otherwise; SIGWAIT_END
reads it again; no later read of the signal returns an older value (R117). Rests on the model's own reading in notes/assumptions/4.md and 13.md, and
on its choice in notes/assumptions/33.md. -/
def Obligations.Signals : Prop := ∀ (f : OpF) (s : State) (x : Acc),
  let sp := spaceOf (f.dst.toNat / 64)
  let scope := (encodeSrc f.c).toNat
  let sc := scopeOf scope
  let addr := getS s.g f.a.reg.toNat
  let delta := intS s.g f f.b
  let req := fun (wr : Bool) (data : W64) =>
    ({ lane := 0, role := 0, sub := 0, sp := sp, addr := addr, w := 8, rd := true, wr := wr, data := data.setWidth 128, exp := 0 } : Req)
  let read := fun (x : Acc) => BitVec.ofNat 64 (leNat ((locsFrom x.loc 8).map (viewByte s s.g.id)))
  let calm := s.g.lane = [] ∧ s.dev.poison = [] ∧ s.dev.corrected = [] ∧ group? s s.g.id = some s.g ∧ s.g.live = true
  let ends := fun (d : Nat) (x : Acc) (sc : Scope) =>
    let tags := relsAt s s.g.id (plainly (locsFrom x.loc 8))
    goesOnWith (acquire s.g.id sc s.g.seqn tags (learnNewest s.g.id .lane s.g.seqn (locsFrom x.loc 8)
      { s with g := { setS s.g d (read x) with lastRead := tags, lastSeq := s.g.seqn, lastBound := false, seqn := s.g.seqn + 1 } }))
  (issues .sigadd f s = true → scope ≤ 5 → ctrCount s.g .st < 63 → checkReqs s 0 [req true delta] = .ok [x] →
    (s.l.replay = false ∨ sp ≠ .g) →
    exec (.sigadd f) s = goesOn s (enqueue ⟨0, .st, .sigadd, 8, [x], .none, [], false, some sc, false, [], [], 0, []⟩ s.g)) ∧
  (issues .sigadd f s = true → scope ≤ 5 → ctrCount s.g .st < 63 → checkReqs s 0 [req true delta] = .ok [x] → s.l.replay = true → sp = .g →
    reserve s 0 [] 1 = .ok () → s.l.live = true → s.l.id = s.g.id.t.l →
    exec (.sigadd f) s = .next { s with
      g := nextSlot (enqueue ⟨0, .st, .sigadd, 8, [], .none, [], false, some sc, true, [], [], 0, []⟩ s.g)
      l := { s.l with tasks := s.l.tasks.map fun t =>
        if t.team = s.g.id.t.team then
          { t with recs := redAdd s.g ⟨x.loc.addr, x.va, 8, 16, false, delta, ⟨s.g.id, s.g.seqn⟩, .lane, 0⟩ t.recs } else t } }) ∧
  (issues .sigwait f s = true → scope ≤ 5 → checkReqs s 0 [req false 0] = .ok [x] → calm → (read x).toInt < 0 ∨ delta.toInt ≤ (read x).toInt →
    exec (.sigwait f) s = ends (f.dst.toNat % 64) x sc) ∧
  (issues .sigwait f s = true → scope ≤ 5 → checkReqs s 0 [req false 0] = .ok [x] → calm → 0 ≤ (read x).toInt →
    (read x).toInt < delta.toInt →
    exec (.sigwait f) s = .next { s with g := { s.g with wait := .sigwait (f.dst.toNat % 64) x delta sc } }) ∧
  (∀ d target sc, inFocus s → calm → s.g.wait = .sigwait d x target sc → (read x).toInt < 0 ∨ target.toInt ≤ (read x).toInt →
    exec (.sigwaitEnd s.g.id) s = ends d x sc)

/-- R109, R110, R234, R115, R235, R20, R24. The stage rings: expect adds to the remaining count and raises OVR past 2^24 − 1; fill flips the phase and
marks the slot full, and so do counted bytes that leave nothing to wait for, which are no release; wait returns and clears OVR; release empties a full
slot, and a pending one takes effect once the earlier loads have retired; each blocks while its condition fails, and its event ends the wait. BAR
arrives and waits; once every group of the team has arrived or exited, which it has from the moment the slots of its EXIT word have executed,
every group that waits departs. Rests on the model's own reading in
notes/assumptions/13.md. -/
def Obligations.RingsAndBarriers : Prop :=
  (∀ (f : OpF) (s : State) (r j : Nat),
    let x := intS s.g f f.a
    let n := (intS s.g f f.b).toNat
    let sel := x.toNat < 256 ∧ r = x.toNat / 16 ∧ j = x.toNat % 16 ∧ ringDeclared s.l r j = true
    let slot := slotAt s.t r j
    let idle := s.g.lane = [] ∧ group? s s.g.id = some s.g
    let waits := fun (w : Wait) => Host.Outcome.next { s with g := { s.g with wait := w } }
    let learnt := fun (g : Group) => { g with crossed := (learnAt g.seqn slot.know ++ g.crossed).eraseDups }
    let expects := fun (n : Nat) => Host.Outcome.next { s with
      g := nextSlot (learnt s.g)
      t := updSlot r j (fun x => { x with remain := min (x.remain + n) (2 ^ 24 - 1), ovr := x.ovr || decide (2 ^ 24 - 1 < slot.remain + n) }) s.t }
    let fills := Host.Outcome.next { s with
      g := nextSlot (learnt s.g)
      t := updSlot r j (fun x => { x with phase := !x.phase, full := true, know := knowOf s (learnt s.g) s.g.seqn }) s.t }
    let gets := fun (d : Nat) =>
      let g := learnt (setS s.g d (if slot.ovr then 1 else 0))
      let g := { g with observed :=
        ((slot.ops.filter fun op => noted s op && !(g.observed.any fun o => o.op = op)).eraseDups.map fun op => (⟨op, g.seqn⟩ : Observed)) ++
          g.observed.filter fun o => noted s o.op }
      Host.Outcome.next { s with
        g := nextSlot (if slot.ovr then raise flagOVERRUN g else g)
        t := updSlot r j (fun x => { x with ovr := false }) s.t }
    let freed := fun (q : Nat) => updSlot r j (fun x => if x.full then { x with full := false, ops := [], know := knowOf s s.g q } else x) s.t
    (issues .ringexp f s = true → sel → 1 ≤ n → n < 2 ^ 24 → slot.full = false →
      exec (.ringexp f) s = expects n) ∧
    (issues .ringexp f s = true → sel → 1 ≤ n → n < 2 ^ 24 → slot.full = true → exec (.ringexp f) s = waits (.ringexp r j n)) ∧
    (∀ n, inFocus s → s.g.wait = .ringexp r j n → slot.full = false → exec (.ringexpResume s.g.id) s = expects n) ∧
    (issues .ringput f s = true → sel → idle → slot.full = false → slot.remain = 0 → exec (.ringput f) s = fills) ∧
    (issues .ringput f s = true → sel → (slot.full = true ∨ slot.remain ≠ 0) → exec (.ringput f) s = waits (.ringput r j)) ∧
    (inFocus s → idle → s.g.wait = .ringput r j → slot.full = false → slot.remain = 0 → exec (.ringputResume s.g.id) s = fills) ∧
    (issues .ringget f s = true → sel → n ≤ 1 → slot.full = true → (slot.phase = true ↔ n = 1) → exec (.ringget f) s = gets f.dst.toNat) ∧
    (issues .ringget f s = true → sel → n ≤ 1 → (slot.full = false ∨ ¬(slot.phase = true ↔ n = 1)) →
      exec (.ringget f) s = waits (.ringget f.dst.toNat r j n)) ∧
    (∀ d q, inFocus s → s.g.wait = .ringget d r j q → slot.full = true → (slot.phase = true ↔ q = 1) →
      exec (.ringgetEnd s.g.id) s = gets d) ∧
    (issues .ringputFree f s = true → sel → idle → s.g.frees = [] → exec (.ringputFree f) s = .next { s with g := nextSlot s.g, t := freed s.g.seqn }) ∧
    (issues .ringputFree f s = true → sel → (ctrCount s.g .ld ≠ 0 ∨ s.g.frees ≠ []) → exec (.ringputFree f) s =
      goesOn s { s.g with frees := s.g.frees ++ [⟨s.g.seqn, r, j⟩], seqn := s.g.seqn + 1 }) ∧
    (∀ q, inFocus s → idle → s.g.frees = [⟨q, r, j⟩] → exec (.ringputFreeEffect s.g.id) s =
      .next { s with g := { s.g with frees := [] }, t := freed q })) ∧
  (∀ (f : OpF) (s : State) (id : Nat),
    let here := s.g.lane = [] ∧ group? s s.g.id = some s.g
    let bar := s.t.bars.getD id ⟨0, [], []⟩
    (issues .bar f s = true → here → f.dst.toNat = id → id < s.t.bars.length → exec (.bar f) s = .next { s with
      g := { s.g with wait := .bar id bar.gen }
      t := { s.t with bars := s.t.bars.set id ⟨bar.gen, s.g.id.num :: bar.arrived, knowOf s s.g s.g.seqn ++ bar.know⟩ } }) ∧
    (inFocus s → id < s.t.bars.length → s.g.wait = .bar id bar.gen → barReady s s.t id s.l.kern.groups = true → s.g.id.num < 32 →
      ∃ u, exec (.barDepart s.t.id id) s = .next u ∧
      u.t = { s.t with bars := s.t.bars.set id ⟨bar.gen + 1, [], []⟩ } ∧
      u.g = nextSlot { s.g with crossed := (learnAt s.g.seqn bar.know ++ s.g.crossed).eraseDups } ∧
      (∀ g ∈ s.groups, g.live = true → g.id.t = s.t.id → g.wait = .bar id bar.gen →
        nextSlot { g with crossed := (learnAt g.seqn bar.know ++ g.crossed).eraseDups } ∈ u.groups) ∧
      (∀ g ∈ s.groups, (g.id.t ≠ s.t.id ∨ g.wait ≠ .bar id bar.gen) → g ∈ u.groups) ∧
      { u with t := s.t, g := s.g, groups := s.groups } = s) ∧
    (inFocus s → barReady s s.t id s.l.kern.groups = false → exec (.barDepart s.t.id id) s = .next s) ∧
    (∀ G, barReady s s.t id G = true ↔ ∀ n, n < G → n ∈ bar.arrived ∨ ∀ h, group? s ⟨s.t.id, n⟩ = some h →
      h.exited = true ∨ (h.pos = .seq ∧ ∃ d, h.dec = some d ∧ d.seq = .exit))) ∧
  (∀ (op : OpId) (n : Nat) (x : RingSlot), let y := { x with ops := op :: x.ops.filter fun o => o ≠ op }
    ringCount op n x = if n < x.remain then { y with remain := x.remain - n }
      else if x.remain = 0 then { y with ovr := x.ovr || decide (0 < n) }
      else { y with remain := 0, ovr := x.ovr || decide (x.remain < n), phase := !x.phase, full := true, know := [] })

/-- R236, R21, R22, R24. ROLEQ moves 16 · n registers of bound from donor to receiver once the loads between them have retired, and no register
changes its value; its checks ask whether each of the two has exited, and bound the move; REGISTER_SPILL moves one register to or from the backing
store, and changes no value either. Rests on the model's own reading in notes/assumptions/38.md and 42.md. -/
def Obligations.RegisterQuota : Prop := ∀ (f : OpF) (s : State),
  let q := intS s.g f f.a
  let donor := (q.extractLsb' 0 5).toNat
  let recv := (q.extractLsb' 5 5).toNat
  let n := (q.extractLsb' 10 4).toNat + 1
  let legal := q.toNat < 2 ^ 14 ∧ roleqOk s donor recv (16 * n) = true
  let moved := fun (u : State) (d r n : Nat) =>
    (∀ k x, group? s k = some x → k.t = s.g.id.t → k ≠ s.g.id → ∃ y, group? u k = some y ∧
      y.bound = (if k.num = d then x.bound - 16 * n else if k.num = r then x.bound + 16 * n else x.bound) ∧
      y.base = u.t.block + boundsBelow (teamGroups u s.t.id) k.num ∧
      { y with bound := x.bound, base := x.base, forms := x.forms } = x) ∧
    u.g.bound = (if s.g.id.num = d then s.g.bound - 16 * n else if s.g.id.num = r then s.g.bound + 16 * n else s.g.bound) ∧
    { u.g with bound := s.g.bound, base := s.g.base, forms := s.g.forms } = nextSlot s.g ∧ { u with g := s.g, groups := s.groups } = s
  (issues .roleq f s = true → inFocus s → s.g.id.num < 32 → legal → roleqFree s donor recv = true →
    ∃ u, exec (.roleq f) s = .next u ∧ moved u donor recv n) ∧
  (issues .roleq f s = true → legal → roleqFree s donor recv = false →
    exec (.roleq f) s = .next { s with g := { s.g with wait := .roleq donor recv n } }) ∧
  (issues .roleq f s = true → ¬legal → exec (.roleq f) s = .next (trapAt trapIllegal s)) ∧
  (∀ d r k, let gone := fun (h : Group) => h.exited = true ∨ (h.pos = .seq ∧ ∃ d, h.dec = some d ∧ d.seq = .exit)
    roleqOk s d r k = true ↔ ∃ x y, group? s ⟨s.g.id.t, d⟩ = some x ∧ group? s ⟨s.g.id.t, r⟩ = some y ∧ d ≠ r ∧ ¬gone y ∧
      y.bound + k ≤ s.l.kern.regs ∧ if x.exited || (x.pos = .seq && x.dec.any fun d => d.seq = .exit) then k ≤ x.bound else k + 16 ≤ x.bound) ∧
  (∀ d r n, inFocus s → s.g.id.num < 32 → s.g.wait = .roleq d r n → roleqFree s d r = true → roleqOk s d r (16 * n) = true →
    ∃ u, exec (.roleqMove s.g.id) s = .next u ∧ moved u d r n) ∧
  (∀ j, s.g.live = true → ∃ fs, exec (.registerSpill s.g.id j) s = .next { s with g := { s.g with forms := fs } } ∧
    (∀ m, m ≠ j → ((∃ t, (m, t) ∈ fs) ↔ ∃ t, (m, t) ∈ s.g.forms)) ∧ ((∃ t, (j, t) ∈ fs) ↔ ¬∃ t, (j, t) ∈ s.g.forms))

/-- R237, R242 to R244, R250 to R253. BOB, whose block is read in four accesses of 64 bytes, and IMGST with legal words, no invalid field, accesses
that pass R97 and room, queue what they will write and change no memory, and of their launch nothing but the record of a deferred signal in their task
(R318); BOBQ and SYMQ return the count of unfinished commands once it is within its limit, and wait before that. Rests on the model's own reading in
notes/assumptions/14.md, 37.md, 40.md and 88.md, and on its choices in notes/assumptions/33.md, 59.md and 90.md. -/
def Obligations.EngineCommands : Prop :=
  let recorded := fun (g : Group) (recs : List RedRec) (l : Launch) =>
    ({ l with tasks := l.tasks.map fun t => if t.team = g.id.t.team then { t with recs := recs.foldl (fun rs r => redAdd g r rs) t.recs } else t } : Launch)
  let recOf := fun (g : Group) (x : SigRef) => (⟨x.loc.addr, x.va, 8, 16, false, x.delta, ⟨g.id, g.seqn⟩, .copy, 0⟩ : RedRec)
  (∀ (f : OpF) (s : State) (c : Comp) (ba : List Acc) (moves : List BitMove) (dst sig : List Acc),
    let blk := (List.range 4).map fun i => ({ lane := 0, role := 0, sub := i, sp := .b, addr := getS s.g f.a.reg.toNat + BitVec.ofNat 64 (64 * i), w := 64,
                                              rd := true, wr := false, data := 0, exp := 0 } : Req)
    let told := fun (ops : List OpId) =>
      ((ops.filter fun op => noted s op && !(s.g.observed.any fun o => o.op = op)).eraseDups.map fun op => (⟨op, s.g.seqn⟩ : Observed)) ++
        s.g.observed.filter fun o => noted s o.op
    let lim := (intS s.g f f.a).toNat
    let n := s.g.bobs.length
    let counts := fun (d : Nat) => goesOn s (setS { s.g with observed := told (engineSeen s .bobbin (s.g.bobs.map BobCmd.seq)) } d (BitVec.ofNat 64 n))
    (∀ w, let r := laneRead ba w
      let u := r.2
      issues .bob f s = true → bobOk f = true → compRead s false (copyCwen f) (copyCreg f) = .ok c → checkForm (fun _ => 64) blk = .ok () →
      checkReach s 0 blk = .ok ba → poisoned s (accLocs ba) = false → performFor ba (eccRead (accLocs ba) s) = some w →
      bobCheck u r.1 (compReqs c) = .ok (moves, dst, sig) →
      u.g.bobs.length < 8 → tagRoom c.tag u.t = true → reserve u 3 dst (compRecs u c) = .ok () → u.l.live = true → u.l.id = u.g.id.t.l →
      ∃ v keep, exec (.bob f) s = goesOnWith v ∧ (∀ a ∈ keep, a ∈ movesShared moves) ∧
        v.g.bobs = u.g.bobs ++ [⟨u.g.seqn, moves, !(movesShared moves).isEmpty, keep, c.tag, compSig c sig⟩] ∧ v.g.seqn = u.g.seqn + 1 ∧
        v.t = startTag c.tag u.t ∧ v.l = (if compRecs u c = 1 then recorded u.g ((compSig c sig).toList.map (recOf u.g)) u.l else u.l) ∧
        { v with g := { v.g with bobs := u.g.bobs, seqn := u.g.seqn }, t := u.t, l := u.l, tick := u.tick } = u) ∧
    (issues .bobq f s = true → n ≤ lim → exec (.bobq f) s = counts f.dst.toNat) ∧
    (issues .bobq f s = true → lim < n → exec (.bobq f) s = .next { s with g := { s.g with wait := .bobq f.dst.toNat (intS s.g f f.a) } }) ∧
    (∀ d m, inFocus s → s.g.wait = .bobq d m → n ≤ m.toNat → exec (.bobqResume s.g.id) s = counts d)) ∧
  (∀ (f : OpF) (s : State) (c : Comp) (accs : List Acc),
    let rs := imgReqs s.g s.l f
    let lim := (intS s.g f f.a).toNat
    let n := s.g.imgs.length
    let sig := compSig c (accs.drop rs.length)
    let told := fun (ops : List OpId) =>
      ((ops.filter fun op => noted s op && !(s.g.observed.any fun o => o.op = op)).eraseDups.map fun op => (⟨op, s.g.seqn⟩ : Observed)) ++
        s.g.observed.filter fun o => noted s o.op
    let counts := fun (d : Nat) => goesOn s (setS { s.g with observed := told (engineSeen s .image (s.g.imgs.map ImgOp.seq)) } d (BitVec.ofNat 64 n))
    (issues .imgst f s = true → imgOk f = true → compRead s false (f.imm.getLsbD 20) (f.imm.extractLsb' 21 6).toNat = .ok c →
      imgBad s.g s.l f = none → checkReqs s 4 (rs ++ compReqs c) = .ok accs → n < 8 → tagRoom c.tag s.t = true →
      reserve s 4 (accs.take rs.length) (compRecs s c) = .ok () → s.l.live = true → s.l.id = s.g.id.t.l →
      exec (.imgst f) s = goesOnWith { s with
        g := { s.g with
          imgs := s.g.imgs ++ [⟨s.g.seqn, accs.take rs.length, c.tag, sig⟩]
          crossed := ⟨⟨s.g.id, s.g.seqn⟩, .image, some .image, none, s.g.seqn + 1, none⟩ :: s.g.crossed
          seqn := s.g.seqn + 1 }
        t := startTag c.tag s.t
        l := if compRecs s c = 1 then recorded s.g (sig.toList.map (recOf s.g)) s.l else s.l }) ∧
    (∀ x, issues .imgst f s = true → imgOk f = true → compRead s false (f.imm.getLsbD 20) (f.imm.extractLsb' 21 6).toNat = .ok c →
      imgBad s.g s.l f = some x → exec (.imgst f) s = .next (trapAt ⟨12, x.1, 0, x.2, 0, 0⟩ s)) ∧
    (issues .symq f s = true → n ≤ lim → exec (.symq f) s = counts f.dst.toNat) ∧
    (issues .symq f s = true → lim < n → exec (.symq f) s = .next { s with g := { s.g with wait := .symq f.dst.toNat (intS s.g f f.a) } }) ∧
    (∀ d m, inFocus s → s.g.wait = .symq d m → n ≤ m.toNat → exec (.symqResume s.g.id) s = counts d))

/-- R245 to R249. RFBEGIN in IDLE loads its descriptor and starts. RFTEST takes the exit of a round from the norm, TOL, GAMMA · NMIN, RHO and the norm
WIN rounds ago, and LIMIT, each compared exactly; the descriptor's action for that exit continues, escalates or stops, and one that is to trap, or
cannot escalate, raises REFINE with its cause and has no other effect; else a signalling NaN raises NV. RFEND returns to IDLE and has no effect there;
RFNEXT goes to the region of the next step, and to the next word in IDLE and in handler mode. That a signalling NaN norm raises NV, though R248 names
no flag, is the model's reading of R69 (notes/assumptions/77.md); that a NaN in the history stagnates nothing is its choice (89.md). -/
def Obligations.Refinement : Prop := ∀ (f : OpF) (s : State) (accs : List Acc),
  let rq := [({ lane := 0, role := 0, sub := 0, sp := .b, addr := getS s.g f.a.reg.toNat, w := 64, rd := true, wr := false, data := 0,
                exp := 0 } : Req)]
  let rf := s.g.rf
  let x : W32 := (intS s.g f f.a).setWidth 32
  let norm := x &&& 0x7FFFFFFF
  let v := fDecode fmtF32 norm.toNat
  let word := fun (n : Nat) => (rf.desc.extractLsb' (8 * n) 32 : W32)
  let real := fun (n : Nat) => fDecode fmtF32 (word n).toNat
  let two := fun (n : Nat) => ((word 28).extractLsb' n 2).toNat
  let win := ((word 28).extractLsb' 16 4).toNat
  let limit := (word 44).toNat
  let k := rf.k + 1
  let exceeds := fun (c : XV) (m : W32) => xLt (xMul c (fDecode fmtF32 m.toNat)).1 v
  let exit := if v = .nan ∨ v = .inf false then 3
    else if xLe v (real 32) = true then 1
    else if 2 ≤ k ∧ real 40 ≠ .inf false ∧ exceeds (real 40) rf.nmin then 3
    else if win ≠ 0 ∧ win < k ∧ exceeds (real 36) (rf.hist[(k - win) % 16]!) then 2
    else if k = limit then 4 else 0
  let wants := if exit = 0 then 2 else two (6 + 2 * exit)
  let late := wants = 2 ∧ k = limit
  let code := if late then 4 else exit
  let act := if late then two 14 else wants
  let exitWord : W64 := BitVec.ofNat 64 (x.toNat * 2 ^ 32 + k * 2 ^ 16 + rf.tier * 2 ^ 8 + code)
  let cause : Option Nat := if act = 3 then some 1
    else if act = 1 ∧ rf.tier = 2 then some 2
    else if act = 1 ∧ word (4 * (rf.tier + 1)) = 0xFFFFFFFF then some 3 else none
  let counted : Refine := { rf with
    k := k, hist := rf.hist.set! (k % 16) norm
    nmin := if xIsFin v = true ∧ xLt v (fDecode fmtF32 rf.nmin.toNat) = true then norm else rf.nmin }
  let after : Refine := if act = 0 then { counted with dec := .stop }
    else if act = 1 then { counted with
      tier := rf.tier + 1, k := 0, hist := Vector.replicate 16 0, nmin := 0x7F800000, dec := .escalate }
    else { counted with dec := .continue }
  let off := fun (at_ : Nat) => s.l.entry + ((rf.desc.extractLsb' (8 * at_) 32).setWidth 64 : W64)
  let go := fun (a : W64) (st : RfState) (dec : RfDec) => wordEnds s { s.g with pc := a, slotB := false, rf := { rf with st := st, dec := dec } }
  let free := s.g.hmode = false ∧ waitsSeq .rfnext s.g = false
  (∀ w, let r := laneRead accs w
    let desc : BitVec 512 := BitVec.ofNat 512 (leNat r.1)
    let new : Refine := { Refine.idle with st := .start, desc := desc }
    issues .rfbegin f s = true → rf.st = .idle → s.g.hmode = false → checkReqs s 0 rq = .ok accs → poisoned s (accLocs accs) = false →
    performFor accs (eccRead (accLocs accs) s) = some w → rfBad new = none →
    exec (.rfbegin f) s = goesOn r.2 { r.2.g with rf := { new with tier := (desc.extractLsb' 224 2).toNat } }) ∧
  (issues .rfbegin f s = true → (rf.st ≠ .idle ∨ s.g.hmode = true) → exec (.rfbegin f) s = .next (trapAt trapIllegal s)) ∧
  (issues .rftest f s = true → rf.st = .test → rf.dec = .none → s.g.hmode = false → cause = none →
    exec (.rftest f) s = goesOn s (raise (if fIsSNaN fmtF32 x.toNat = true then flagNV else 0) (setS { s.g with rf := after } f.dst.toNat exitWord))) ∧
  (∀ c, issues .rftest f s = true → rf.st = .test → rf.dec = .none → s.g.hmode = false → cause = some c →
    exec (.rftest f) s = .next (trapAt ⟨6, 0, c, 0, 0, exitWord⟩ s)) ∧
  (issues .rfend f s = true → exec (.rfend f) s = goesOn s (if rf.st = .idle then s.g else { s.g with rf := Refine.idle })) ∧
  (waitsSeq .rfnext s.g = false → s.g.hmode = true ∨ rf.st = .idle → exec .rfnext s = wordEnds s { s.g with pc := s.g.pc + 16, slotB := false }) ∧
  (free → rf.st = .start → exec .rfnext s = go (off (4 * rf.tier)) .factor rf.dec) ∧
  (free → rf.st = .factor → exec .rfnext s = go (off 12) .solve rf.dec) ∧
  (free → rf.st = .solve → exec .rfnext s = go (off 16) .resid rf.dec) ∧
  (free → rf.st = .resid → exec .rfnext s = go (off 20) .test rf.dec) ∧
  (free → rf.st = .test → rf.dec = .none → exec .rfnext s = go (off 20) .test .none) ∧
  (free → rf.st = .test → rf.dec = .continue → exec .rfnext s = go (off 12) .solve .none) ∧
  (free → rf.st = .test → rf.dec = .escalate → exec .rfnext s = go (off (4 * rf.tier)) .factor .none) ∧
  (free → rf.st = .test → rf.dec = .stop → exec .rfnext s = go (off 24) .idle .none)

/-- R126 to R135, R141 to R148. The five words that the manual encodes in full decode to the instructions they stand for: the paired word with a
mapped operand and a branch, the long VFMA, and the literal VMIN, SCMP and SSUB with LOOP. That a whole word, asked for as one instruction, gives the
op of its slot A is the model's choice (notes/assumptions/2.md). -/
def Obligations.DecodedWords : Prop :=
  let r := fun (n : Nat) => (⟨BitVec.ofNat 8 n, 0, false, false⟩ : Src)
  let b := fun (n : Nat) => (⟨BitVec.ofNat 8 n, 15, false, false⟩ : Src)
  let short := fun (form : Form) (guard dst : Nat) (a b : Src) (lit sub : Nat) =>
    (⟨form, BitVec.ofNat 4 guard, BitVec.ofNat 8 dst, a, b, .none, false, false, false, 0, 0, BitVec.ofNat 50 lit, BitVec.ofNat 5 sub⟩ : OpF)
  decodeWord 0x2AFFD004018281900802_9121009E0480 = .ok ⟨.vfadd (short .short 3 5 ⟨3, 2, false, false⟩ (r 4) 0 0),
    some (.vld (short .short 9 8 (b 4) (r 9) 0 8)), .jumpc true 2 0xFFD⟩ ∧
  decodeWord 0x700004040C82804C02081806_02000000 =
    .ok ⟨.vfma ⟨.long, 2, 10, ⟨1, 3, false, false⟩, ⟨2, 0, true, false⟩, r 6, false, false, true, 2, 0x02000000, 0, 0⟩, none, .exit⟩ ∧
  decodeWord 0x00000803038181818_1E00000000186A0 = .ok ⟨.vmin (short .literal 7 3 (r 3) (b 0xC0) 100000 8), none, .next⟩ ∧
  decodeWord 0x000008008BC8828181_E0000000000014 = .ok ⟨.scmp (short .literal 7 0x91 (r 5) (b 0xC0) 20 0), none, .next⟩ ∧
  decodeWord 0x50FFF800238202018_1E0000000000003 = .ok ⟨.ssub (short .literal 7 4 (r 4) (b 0xC0) 3 0), none, .loop 0 0xFFF⟩ ∧
  decodeTableWord 128 0x50FFF800238202018_1E0000000000003 = some (.ssub (short .literal 7 4 (r 4) (b 0xC0) 3 0))

/-- R127 to R148. Decode of encode: every well-formed op, unassigned opcode and selector has a word, and that word decodes to it and to nothing else;
and every slot of a word that decodes is well formed. -/
def Obligations.EncodingRoundTrip : Prop :=
  (∀ i : Instr, i.wf = true → (i.op?.isSome = true ∨ ∃ opc f, i = .unassignedOpcode opc f) →
    ∃ w, encode i = some w ∧ ∃ b, decodeWord w = .ok ⟨i, b, .next⟩ ∧ (b = none ∨ ∃ f, b = some (.nop f))) ∧
  (∀ i q, encodeSeq i = some q → ∃ w, encode i = some w ∧ w.extractLsb' 108 20 = q ∧
    ∃ f g, decodeWord w = .ok ⟨.nop f, some (.nop g), i⟩) ∧
  (∀ w d, decodeWord w = .ok d → d.a.wf = true ∧ (∀ b, d.b = some b → b.wf = true) ∧ encodeSeq d.seq = some (w.extractLsb' 108 20))

/-- R126, R139, R140, R296. A step runs what stands decoded: a group that may issue and stands at a fetch runs the slot or the sequencing field that
the fetched word gives for its PC; one inside its word runs the slot where it stands; and an event of the agenda runs as itself. Around it the step
takes the turn off the agenda and moves the free-value counter. Rests on the model's own reading in notes/assumptions/55.md, and on its choices in
notes/assumptions/3.md and 25.md. -/
def Obligations.StepRunsDecoded : Prop := ∀ (s : State) (k : Gid) (r : List Turn),
  let u := { s with tick := s.tick + tickStride, agenda := r }
  let ready := inFocus s ∧ s.g.id = k ∧ mayIssue s.p s.l s.t s.g = true ∧ quotaHolds s k = false ∧ s.g.park = none
  (∀ d pa, s.agenda = .group k :: r → ready → s.g.pos = .fetch → accBusy s.g = false → wellFormed s.g.pc = true → fetchXlat u = .ok pa →
    poisoned s (locsFrom ⟨.phys, pa⟩ 16) = false → checkWord (wordAt s.hbm pa) = .ok d →
    let v := eccRead (locsFrom ⟨.phys, pa⟩ 16) { u with g := satNow s.g }
    step s = exec (slotInstr (startPos s.g.slotB d) d) { v with g := gotWord (wordAt s.hbm pa) d v.g }) ∧
  (∀ d, s.agenda = .group k :: r → ready → s.g.pos ≠ .fetch → s.g.dec = some d → step s = exec (slotInstr s.g.pos d) u) ∧
  (∀ i, s.agenda = .event i :: r → isEvent i = true → step s = exec i u)

/-- The model's own focus (notes/assumptions/25.md; R13, R326 name the groups, teams, launches and partitions). Which of them stands in focus shows in
nothing: bringing a group into focus changes no lookup by name and no other field, the one found stands in focus after it, and a group's turn and the
events of a group do the same from either state. -/
def Obligations.Focusing : Prop := ∀ (s : State) (k : Gid) (v : W64),
  let u := focus k s
  (∀ j, group? u j = group? s j) ∧ (∀ j, team? u j = team? s j) ∧ (∀ j, launch? u j = launch? s j) ∧ (∀ j, part? u j = part? s j) ∧
  (∀ x, group? s k = some x → u.g = x) ∧ (∀ x, team? s k.t = some x → u.t = x) ∧ (∀ x, launch? s k.t.l = some x → u.l = x) ∧
  (∀ x, part? s k.t.l.part = some x → u.p = x) ∧
  { u with g := s.g, groups := s.groups, t := s.t, teams := s.teams, l := s.l, launches := s.launches, p := s.p, parts := s.parts } = s ∧
  (∀ r, s.agenda = .group k :: r → step u = step s) ∧
  (∀ i ∈ [Instr.waitResume k, .tagWaitResume k, .sigwaitEnd k, .ringgetEnd k, .ringexpResume k, .ringputResume k, .ringputFreeEffect k,
    .roleqMove k, .bobqResume k, .symqResume k, .promoteComplete k, .atomOrdRound k, .faultRecordWrite k, .launchend k v],
    exec i u = exec i s)

/-- R13, R307, R326, R332, R344, R353, R354, and the invariants at reset. Right after reset no partition, launch, team or group exists, bring-up has
not begun, READY is 0, the fault code 0, every measurement register zero, the core clock at 1000 MHz with THROTTLE 0 (R353), the system registers have
the values of R307, and the memories are in canonical form. That every byte reads zero and that the fuses of OWNERHASH (R332) are unwritten is the
model's choice (notes/assumptions/1.md, Module.reset). -/
def Obligations.ResetState : Prop :=
  allGroups State.reset = [] ∧ allTeams State.reset = [] ∧ allLaunches State.reset = [] ∧ allParts State.reset = [] ∧
  State.reset.dev.stage = 0 ∧ State.reset.dev.ready = false ∧ State.reset.dev.fault = 0 ∧ State.reset.dev.throttle = false ∧
  State.reset.dev.clockMHz = 1000 ∧ (∀ j : Fin 16, State.reset.dev.m[j] = 0) ∧ State.reset.dev.ownerHash = none ∧
  (∀ n, n ≠ 0x011 → n ≠ 0x000 → fwRead State.reset State.reset.p n = 0) ∧ fwRead State.reset State.reset.p 0x011 = 100000 ∧
  (∀ a, memGet State.reset.hbm a = 0) ∧ MemInv State.reset ∧ ReadyInv State.reset

/-- R16, R342, R354 make an unwritten byte read zero. The canonical form of every memory, addresses rising and no zero byte listed, is an invariant of
the step. No rule of the manual speaks of that form: it is the model's own choice (notes/assumptions/1.md). -/
def Obligations.StepKeepsMemory : Prop := ∀ s t : State, MemInv s → step s = .next t → MemInv t

/-- R351, R354. READY stands in bring-up stage 6 only, beside no fault but the one of ports out of service: an invariant of the step. -/
def Obligations.StepKeepsReady : Prop := ∀ s t : State, ReadyInv s → step s = .next t → ReadyInv t

/-- R44, R45, R47. A register reads what was last written to it, and no other register changes; s63 reads zero and discards writes, bits 63:32 of s62
read zero, s60 keeps nine bits, p7 reads all ones, k7 true, and both discard writes. -/
def Obligations.WiredRegisters : Prop := ∀ g : Group,
  getS g 63 = 0 ∧ (∀ x, setS g 63 x = g) ∧ getP g 7 = 0xFFFFFFFF ∧ (∀ x, setP g 7 x = g) ∧ getK g 7 = true ∧ (∀ x, setK g 7 x = g) ∧
  (∀ n x, n < 63 → getS (setS g n x) n = if n = 62 then x &&& 0xFFFFFFFF else if n = 60 then x &&& 0x1FF else x) ∧
  (∀ m n x, m < 64 → n < 64 → m ≠ n → getS (setS g n x) m = getS g m) ∧
  (∀ n x, n < 7 → getP (setP g n x) n = x) ∧ (∀ m n x, m < 8 → n < 8 → m ≠ n → getP (setP g n x) m = getP g m) ∧
  (∀ n x, n < 7 → getK (setK g n x) n = x) ∧ (∀ m n x, m < 8 → n < 8 → m ≠ n → getK (setK g n x) m = getK g m) ∧
  (∀ n x, n < 4 → getN (setN g n x) n = x) ∧ (∀ m n x, m < 4 → n < 4 → m ≠ n → getN (setN g n x) m = getN g m) ∧
  (∀ n x, n < 256 → getV (setV g n x) n = x) ∧ (∀ m n x, m < 256 → n < 256 → m ≠ n → getV (setV g n x) m = getV g m) ∧
  (∀ n i x, n < 64 → i < 32 → getA (setA g n i x) n i = x) ∧
  (∀ n i m j x, n < 64 → i < 32 → m < 64 → j < 32 → (m ≠ n ∨ j ≠ i) → getA (setA g n i x) m j = getA g m j)

/-- R98, R99, R100, R136, R139. For every op but the hints: it is held while an unretired load will write exm (where exm decides) or a register that
the op names, or s60 where it may raise a flag; where it would not execute it has no effect, whatever its fields, and the group goes on; where it
would execute and its fields are not legal it raises ILLEGAL_OP. A counted op that would not execute is an empty op of its counter, once the counter
has room; with 63 unretired ops it is held. The compares (R168, R185) and VBALLOT write where they would not execute, as their own statements say.
Rests on the model's own reading in notes/assumptions/16.md. -/
def Obligations.SlotChecks : Prop :=
  (∀ (i : Instr) (o : Op) (f : OpF) (s : State), i.op? = some (o, f) → isHint o = false →
    (waitsExm o s.g = true → exec i s = .next { s with g := { s.g with wait := .hold } }) ∧
    (waitsExm o s.g = false → would o f s.g = true → waitsRegs o f s.g = true → exec i s = .next { s with g := { s.g with wait := .hold } }) ∧
    (waitsExm o s.g = false → would o f s.g = true → waitsRegs o f s.g = false → legal s.l o f = false →
      exec i s = .next (trapAt trapIllegal s)) ∧
    (waitsExm o s.g = false → would o f s.g = false →
      o ∉ [.scmp, .sfcmp, .sld, .sst, .vld, .vst, .atom, .ared, .sigadd, .cpy, .tmov, .mapld, .mapst, .mapgen,
        .vcmp, .vfcmp, .vballot] →
      exec i s = goesOn s s.g)) ∧
  (∀ (o : Op) (f : OpF) (i : Instr) (c : Ctr) (s : State),
    ((o, i, c) ∈ [(.vld, .vld f, .ld), (.sld, .sld f, .ld), (.vst, .vst f, .st), (.sst, .sst f, .st), (.ared, .ared f, .st),
      (.sigadd, .sigadd f, .st), (.atom, .atom f, .ld)]) → waitsExm o s.g = false → would o f s.g = false → (o = .atom → memOrd f = false) →
    (ctrCount s.g c < 63 → exec i s =
      goesOn s { s.g with lane := s.g.lane ++ [⟨s.g.seqn, c, .empty, 0, [], .none, [], false, none, true, [], [], 0, []⟩], seqn := s.g.seqn + 1 }) ∧
    (63 ≤ ctrCount s.g c → exec i s = .next { s with g := { s.g with wait := .hold } })) ∧
  (∀ (o : Op) (f : OpF) (i : Instr) (s : State), (o, i) ∈ [(.cpy, .cpy f), (.tmov, .tmov f)] → waitsExm o s.g = false → would o f s.g = false →
    (s.g.copies.length < 63 → exec i s = goesOn s { s.g with
      copies := (s.g.copies ++ [(⟨s.g.seqn, false, [], [], none, 0, none, none, none, true⟩ : CopyOp)]).dropWhile CopyOp.done, seqn := s.g.seqn + 1 }) ∧
    (63 ≤ s.g.copies.length → exec i s = .next { s with g := { s.g with wait := .hold } })) ∧
  (∀ (o : Op) (f : OpF) (i : Instr) (s : State), (o, i) ∈ [(.mapld, .mapld f), (.mapst, .mapst f), (.mapgen, .mapgen f)] →
    waitsExm o s.g = false → would o f s.g = false →
    (s.g.mapops.length < 63 → exec i s = goesOn s { s.g with
      mapops := (s.g.mapops ++ [(⟨s.g.seqn, .empty, 0, 0, 0, [], none, [], [], true⟩ : MapOp)]).dropWhile MapOp.done, seqn := s.g.seqn + 1 }) ∧
    (63 ≤ s.g.mapops.length → exec i s = .next { s with g := { s.g with wait := .hold } }))

/-- R177, R300, R301, R298, R154. Taking a precise class outside handler mode, as every instruction that raises one does: the frame holds s0 to s7,
exm, p0, p1, v0 to v3, the PC with its slot bit, the word, the class and its information; the group is in handler mode with every lane on, s0 at the
handler area, s1 the class, and at slot A of the handler that the image names for ILLEGAL_OP, MAP_SHAPE or REFINE, with VEC clear, or else of VECBASE,
with VEC set; every other register and byte stays, but for CHECK_RERUN of MAP_INTEGRITY, and no path finds an older value of the frame. In handler
mode the launch ends with DOUBLE_FAULT. A frame whose registers an unretired load will write waits. TRAP and BKPT take their classes. Rests on the
model's own reading in notes/assumptions/15.md and 32.md. -/
def Obligations.Exceptions : Prop := ∀ (f : OpF) (i : TrapI) (s : State),
  let code := (intS s.g f f.a).toNat % 2 ^ 16
  let rerun := fun (i : TrapI) => if i.cls = 7 then raise flagRERUN { s.g with residue := 0 } else s.g
  let taken := fun (r : Out) (i : TrapI) => ∃ u, r = .next u ∧ { u with g := s.g, recs := s.recs, rels := s.rels } = s ∧
    (∀ w ∈ u.recs, ∀ o ∈ w.old, o.1 ∉ locsFrom ⟨.handler s.g.id, 0⟩ 0x300) ∧
    let m := u.g.harea
    let g := rerun i
    let handler := (if i.cls = 4 then s.l.kern.hIllegal else if i.cls = 5 then s.l.kern.hShape else if i.cls = 6 then s.l.kern.hRefine
      else none).map fun o => s.l.code + BitVec.ofNat 64 o
    (∀ j, j < 8 → memNat m (8 * j) 8 = (getS s.g j).toNat) ∧ memNat m 0x40 8 = (exm s.g).toNat ∧
    memNat m 0x48 8 = s.g.pc.toNat / 16 * 16 + (if s.g.pos = .b then 1 else 0) ∧
    memNat m 0x50 4 = (getP s.g 0).toNat ∧ memNat m 0x54 4 = (getP s.g 1).toNat ∧ memNat m 0x58 1 = i.cls ∧ memNat m 0x59 1 = i.field ∧
    memNat m 0x5A 2 = i.code ∧ memNat m 0x5C 4 = i.lane ∧ memNat m 0x60 16 = s.g.word.toNat ∧ memNat m 0x70 8 = i.faddr.toNat ∧
    memNat m 0x78 8 = i.fextra.toNat ∧ (∀ a, 0x80 ≤ a → a < 0x100 → memGet m a = 0) ∧
    (∀ j i, j < 4 → i < 32 → memNat m (0x100 + 128 * j + 4 * i) 4 = (getLane s.g j i).toNat) ∧
    (∀ a, 0x300 ≤ a → memGet m a = memGet s.g.harea a) ∧
    u.g = { g with harea := m, hmode := true, vec := handler.isNone, cls := i.cls, pc := handler.getD s.p.regs.vecbase, slotB := false, pos := .fetch,
                   dec := none, wait := .none, park := none, trapRound := slotRound s,
                   s := ((g.s.set! 62 0xFFFFFFFF).set! 0 0x100000000).set! 1 (BitVec.ofNat 64 i.cls) }
  let user := s.g.hmode = false ∧ waitsFrame s.g = false ∧ memWf s.g.harea = true
  let legal := isImm f.a = false ∨ (immS f).toNat < 2 ^ 16
  let doubled := Host.Outcome.next (endLaunch s.l.id (BitVec.ofInt 64 (-84)) s)
  (user → i.cls < 2 ^ 8 → i.field < 2 ^ 8 → i.code < 2 ^ 16 → i.lane < 32 → taken (.next (trapAt i s)) i) ∧
  (s.g.hmode = false → waitsFrame s.g = true → trapAt i s = { s with g := { s.g with wait := .hold } }) ∧
  (s.g.hmode = true → trapAt i s = endLaunch s.l.id (BitVec.ofInt 64 (-84)) { s with g := rerun i }) ∧
  (issues .trap f s = true → legal → user → taken (exec (.trap f) s) ⟨13, 0, code, 0, 0, 0⟩) ∧
  (issues .bkpt f s = true → user → taken (exec (.bkpt f) s) ⟨14, 0, 0, 0, 0, 0⟩) ∧
  (issues .trap f s = true → legal → s.g.hmode = true → exec (.trap f) s = doubled) ∧
  (issues .bkpt f s = true → s.g.hmode = true → exec (.bkpt f) s = doubled)

/-- R304 to R308, R147, R148, R164. RTE restores its frame and returns to the saved PC, or ends the launch on an uncorrectable error there (R299); SRD
reads HSTATE, and from the vector RTIME and VECBASE; SWR of LAUNCHEND ends the launch on a negative value; REPLAYQ reads the replay facts; at user
level each raises PRIVILEGE. NOP and YIELD do nothing; an unassigned opcode raises ILLEGAL_OP where it would execute. Rests on the model's own reading
in notes/assumptions/41.md, and in 22.md for an error met by RTE. -/
def Obligations.SystemOps : Prop := ∀ (f : OpF) (s : State) (opc : BitVec 10),
  let m := s.g.harea
  let x := (intS s.g f f.a).toNat
  let put := fun (v : W64) => goesOn s (setS s.g f.dst.toNat v)
  let hm := s.g.hmode = true
  let privilege := Host.Outcome.next (trapAt (.plain 17) s)
  let v := intS s.g f f.b
  let k := opcodeGuardK opc.toNat f.form
  (issues .rte f s = true → hm → waitsFrame s.g = false → s.g.lane = [] → poisoned s (rteReads s.g.id) = true →
    exec (.rte f) s = goesOnWith (endLaunch s.g.id.t.l (BitVec.ofInt 64 (-83)) s)) ∧
  (issues .rte f s = true → hm → waitsFrame s.g = false → s.g.lane = [] → poisoned s (rteReads s.g.id) = false → s.dev.corrected = [] → ∃ u,
    exec (.rte f) s = .next u ∧ { u with g := s.g } = s ∧
    (∀ j, j < 8 → getS u.g j = BitVec.ofNat 64 (memNat m (8 * j) 8)) ∧ exm u.g = BitVec.ofNat 32 (memNat m 0x40 4) ∧
    getP u.g 0 = BitVec.ofNat 32 (memNat m 0x50 4) ∧ getP u.g 1 = BitVec.ofNat 32 (memNat m 0x54 4) ∧
    (∀ j i, j < 4 → i < 32 → getLane u.g j i = BitVec.ofNat 32 (memNat m (0x100 + 128 * j + 4 * i) 4)) ∧
    u.g.pc.toNat = memNat m 0x48 8 / 16 * 16 ∧ u.g.slotB = (memNat m 0x48 8 % 2 = 1) ∧ u.g.pos = .fetch ∧ u.g.hmode = false ∧ u.g.vec = false ∧
    (∀ j, 8 ≤ j → j < 62 → getS u.g j = getS s.g j) ∧ (∀ j, 2 ≤ j → j < 8 → getP u.g j = getP s.g j) ∧
    (∀ j, 4 ≤ j → j < 256 → getV u.g j = getV s.g j) ∧ u.g.harea = m ∧ u.g.clkr = s.g.clkr ∧ u.g.k = s.g.k ∧ u.g.n = s.g.n ∧
    u.g.acc = s.g.acc ∧ u.g.maps = s.g.maps) ∧
  (issues .srd f s = true → hm → x = 0x001 → exec (.srd f) s =
    put (BitVec.ofNat 64 (1 + (if s.g.vec then 2 else 0) + 256 * (s.g.cls % 256)))) ∧
  (issues .srd f s = true → hm → s.g.vec = true → x = 0x000 → exec (.srd f) s = put (rtime s.now s.p)) ∧
  (issues .srd f s = true → hm → s.g.vec = true → x = 0x010 → exec (.srd f) s = put s.p.regs.vecbase) ∧
  (issues .swr f s = true → hm → s.g.vec = true → x = 0x002 → v.toInt < 0 → exec (.swr f) s = goesOnWith (endLaunch s.l.id v s)) ∧
  (issues .swr f s = true → hm → s.g.vec = true → x = 0x002 → 0 ≤ v.toInt → exec (.swr f) s = goesOnWith s) ∧
  (issues .replayq f s = true → hm → x ≤ 3 → exec (.replayq f) s = put (replayFact s x)) ∧
  (∀ i ∈ [Instr.rte f, .srd f, .swr f, .replayq f], (∃ o, i.op? = some (o, f) ∧ issues o f s = true) → s.g.hmode = false → exec i s = privilege) ∧
  exec (.nop f) s = goesOnWith s ∧ exec (.yield f) s = goesOnWith s ∧
  (k = true ∨ Rg.s 62 ∉ pendingRegs s.g → exec (.unassignedOpcode opc f) s =
    if guardHolds k s.g f.guard then .next (trapAt trapIllegal s) else goesOnWith s)

/-- R126, R128, R130, R140, R159 to R162, R26, R24. Slot B, where the word has one, and then the sequencing field follow slot A. The sequencing
selectors: each sets the next PC from the values that the slots left, the word is counted outside handler mode, and the group fetches next; CALL and
CALLX write the link, the latter after its target is read; LOOP counts; EXIT marks the group exited. A sequencing field whose register an unretired
load will write waits. R139, R161, R296, R211. WORD_FETCH: a word that translates and passes the word checks stands decoded at slot A, or past it
where the PC names slot B; a malformed PC raises ADDRESS_FORM with no fetch; a fault parks with PATH 7 and KIND 3; a word that fails a check raises
its class; an uncorrectable error ends the launch; an ASAVE or ALOAD holds the fetch back; a SAT that a command raised within the last word enters s60
first (R107). Rests on the model's own reading in notes/assumptions/7.md, 22.md, 35.md and 55.md. -/
def Obligations.SequencingAndFetch : Prop :=
  (∀ (n : Nat) (g : Group),
    (g.hmode = false → retireWord n g = { g with clkr := g.clkr + 1, pos := .fetch, wait := .none, since := n }) ∧
    (g.hmode = true → retireWord n g = { g with pos := .fetch, wait := .none, since := n }) ∧
    (∀ d, g.pos = .a → g.dec = some d → d.b ≠ none → nextSlot g = { g with pos := .b, wait := .none }) ∧
    (∀ d, g.pos = .a → g.dec = some d → d.b = none → nextSlot g = { g with pos := .seq, wait := .none }) ∧
    (g.pos = .b → nextSlot g = { g with pos := .seq, wait := .none })) ∧
  (∀ (s : State) (ofs : BitVec 12) (r : BitVec 6) (k : BitVec 3) (n : BitVec 2) (neg : Bool),
    let go := fun (g : Group) (pc : W64) (b : Bool) => wordEnds s { g with pc := pc, slotB := b }
    let w := s.g.pc
    let target := w + ofs.signExtend 64 * 16
    let reg := fun (g : Group) (x : W64) => go g (x &&& 0xFFFFFFFFFFFFFFF0) (x.getLsbD 0)
    let link := setS s.g 61 (w + 16)
    let c := getN s.g n.toNat
    let on := fun (i : Instr) => waitsSeq i s.g = false
    exec .next s = go s.g (w + 16) false ∧
    exec (.jump ofs) s = go s.g target false ∧
    exec (.jumpc neg k ofs) s = go s.g (if xor (getK s.g k.toNat) neg then target else w + 16) false ∧
    (on (.call ofs) → exec (.call ofs) s = go link target false) ∧
    (on .ret → exec .ret s = reg s.g (getS s.g 61)) ∧
    (1 < c.toNat → exec (.loop n ofs) s = go (setN s.g n.toNat (c - 1)) target false) ∧
    (c.toNat ≤ 1 → exec (.loop n ofs) s = go (setN s.g n.toNat 0) (w + 16) false) ∧
    (on (.jumpx r) → exec (.jumpx r) s = reg s.g (getS s.g r.toNat)) ∧
    (on (.callx r) → exec (.callx r) s = reg link (getS s.g r.toNat)) ∧
    exec .exit s = wordEnds s { s.g with exited := true } ∧
    (∀ i ∈ [Instr.call ofs, .ret, .jumpx r, .callx r], ¬on i → exec i s = .next { s with g := { s.g with wait := .hold } })) ∧
  (∀ s : State,
    let pc := s.g.pc
    let ready := accBusy s.g = false ∧ wellFormed pc = true
    let now := { s with g := if s.g.satDue then raise flagSAT { s.g with satDue := false } else s.g }
    let raised := fun (c : Nat) (w : W128) (s : State) => Host.Outcome.next (takeTrap s.g.slotB w ⟨c, 0, 0, 0, 0, 0⟩ s)
    let slot := fun (d : WordD) => if s.g.slotB = false then Pos.a else if d.b = none then Pos.seq else Pos.b
    (∀ pa, ready → fetchXlat s = .ok pa → poisoned s (locsFrom ⟨.phys, pa⟩ 16) = false →
      let u := eccRead (locsFrom ⟨.phys, pa⟩ 16) now
      let w := BitVec.ofNat 128 (memNat s.hbm pa 16)
      (∀ d, decodeWord w = .ok d → pairIllegal d = false → exec .wordFetch s =
        .next { u with g := { u.g with word := w, dec := some d, pos := slot d, wait := .none } }) ∧
      (∀ d, decodeWord w = .ok d → pairIllegal d = true → waitsFrame s.g = false → exec .wordFetch s = raised 3 w u) ∧
      (decodeWord w = .error .illegalWord → waitsFrame s.g = false → exec .wordFetch s = raised 1 w u) ∧
      (decodeWord w = .error .illegalSeq → waitsFrame s.g = false → exec .wordFetch s = raised 2 w u)) ∧
    (∀ pa, ready → fetchXlat s = .ok pa → poisoned s (locsFrom ⟨.phys, pa⟩ 16) = true →
      exec .wordFetch s = .next (endLaunch s.l.id (BitVec.ofInt 64 (-83)) now)) ∧
    (∀ level range reason, ready → fetchXlat s = .fault level range reason → ∃ p : Park, exec .wordFetch s = .next { s with g := { now.g with park := some p } } ∧
      p.va = pc ∧ p.path = 7 ∧ p.kind = 3 ∧ p.reason = reason ∧ p.entry = none ∧ p.failed = false) ∧
    (accBusy s.g = false → wellFormed pc = false → waitsFrame s.g = false → exec .wordFetch s =
      .next (takeTrap s.g.slotB 0 ⟨9, 0, 0, 0, pc, 0⟩ now)) ∧
    (accBusy s.g = true → exec .wordFetch s = .next { s with g := { now.g with wait := .acc } }))

/-- R98, R99, R115 to R117, R171, R211, R219, R224, R225, R233, R31. The retirement of the only op in a group's queue, in memory without
errors and with no write pending on another path. A load delivers the bytes at its accesses, sign- or zero-extended, also to a replay
task, which sees its own buffer; a store replaces exactly the bytes its accesses cover, in lane order; the atomics and SIGADD replace
each value by its new one, in lane order, and an ATOM returns the old ones; a replay task's writes go to its merge buffer. An op with an
acquire learns from the releases its reads found, one with a release leaves a release of what the group knows at each access, and one
without leaves none. A plain store ends the release sequences of its bytes. Held ops of the team try again. DEFERRED_ISSUE releases a held op. Rests
on the model's own reading in notes/assumptions/4.md, 22.md and 73.md. -/
def Obligations.LaneRetirement : Prop := ∀ (s : State) (o : LaneOp) (sgn : Bool) (aop : Nat) (h : Home) (a : Acc),
  let k := s.g.id
  let fresh := inFocus s ∧ calm s ∧ s.g.lane = [o] ∧ o.res = [] ∧ o.flags = 0
  let alone := fresh ∧ o.done = false ∧ o.bound = false ∧ o.parts = [] ∧ o.tags = []
  let place := (∀ a ∈ o.accs, a.loc.home = h) ∧ (h = .phys ∧ s.l.replay = false ∨ h = .bench s.t.id)
  let bufd := (∀ a ∈ o.accs, a.loc.home = .phys) ∧ s.l.replay = true
  let got := o.accs.map fun a => (⟨a.lane, a.sub, loadVal sgn a.w (bytesAt s k (locsFrom a.loc a.w))⟩ : Got)
  let found := o.accs.foldl (fun ts a => ts ++ (relsAt s k (plainly (locsFrom a.loc a.w))).filter fun t => !ts.contains t) []
  let ended := fun (rs : List WriteRec) (res : List Got) (fl : Flags) (tags : List RelTag) =>
    let g := (o.acq.foldl (fun u sc => acquire k sc o.seq tags u) s).g
    let still := fun (q : Nat) => noted { s with g := g, recs := rs } ⟨k, q⟩
    let newest := o.kind.reads && decide (s.g.lastSeq ≤ o.seq)
    ({ raise fl (deliver { o with res := res } g) with
      lane := []
      retired := ((o.ctr, o.seq) :: g.retired).filter fun x => x.1 ≠ .acc && still x.2
      observed := if o.ctr = .acc && still o.seq then ⟨⟨k, o.seq⟩, g.seqn⟩ :: g.observed else g.observed
      lastRead := if newest then tags else s.g.lastRead
      lastSeq := if newest then o.seq else s.g.lastSeq
      lastBound := if newest then false else s.g.lastBound } : Group)
  let kept := (o.accs.foldl (fun u a => endRels ⟨k, o.seq⟩ a.loc a.w u) s).rels
  let published := fun (rels old : List RelTag) (apart : Prop) => match o.rel with
    | none => rels = old
    | some sc => (∀ r ∈ rels, r.op = ⟨k, o.seq⟩ ∨ r ∈ old) ∧ (apart → ∀ a ∈ o.accs, ∃ r ∈ rels, r.bytes = locsFrom a.loc a.w ∧ r.ended = [] ∧ r.scope = sc ∧
        r.by_ = some k ∧ r.op = ⟨k, o.seq⟩ ∧ r.core = s.t.core ∧ knowOf s s.g o.seq ⊆ r.know)
  let stored := o.accs.foldl (fun m a => memPutBytes m a.loc.addr (leBytes a.w a.data.toNat)) (homeMem s h)
  let storeEnds := fun (r : Out) (after : State → State) => ∃ rs rels, r = .next (after (wake k.t { updHome h (fun _ => stored) s with
      g := ended rs [] 0 [], recs := rs, rels := rels })) ∧
    published rels kept ((o.accs.Pairwise fun a b => accMeet a b = false) ∧ ∀ a ∈ o.accs, 0 < a.w)
  let rmw := fun (new : Acc → Nat → Nat × Flags) => o.accs.foldl (fun (x : Mem × List Got × Flags) a =>
    let old := memNat x.1 a.loc.addr a.w
    (memPutNat x.1 a.loc.addr a.w (new a old).1, x.2.1 ++ [⟨a.lane, a.sub, BitVec.ofNat 128 old⟩], (new a old).2 ||| x.2.2)) (homeMem s h, [], 0)
  let rmwEnds := fun (r : Out) (m : Mem) (res : List Got) (fl : Flags) => ∃ tags rs rels, r = .next (wake k.t { updHome h (fun _ => m) s with
      g := ended rs res fl tags, recs := rs, rels := rels }) ∧
    found ⊆ tags ∧ (o.rel = none → tags = found) ∧ published rels s.rels True
  let atom := rmw fun a x => atomNew aop sgn a.w x a.data.toNat a.exp.toNat
  let sig := rmw fun a x => ((signalNew (BitVec.ofNat 64 x) (a.data.setWidth 64)).1.toNat,
    flagIf (signalNew (BitVec.ofNat 64 x) (a.data.setWidth 64)).2 flagSAT)
  let buffer := fun (buf : List BufByte) (a : Acc) (bs : List Byte) =>
    bs.zipIdx.foldl (fun b y => bufWrite b (a.loc.addr + y.2) (a.va + BitVec.ofNat 64 y.2) .lane y.1) buf
  let buffered := fun (f : List BufByte → List BufByte) => updTask k.t.team (fun t => { t with buf := f t.buf }) s.l
  (alone → o.ctr = .ld → o.kind = .load sgn → exec (.loadRetire k) s = .next (wake k.t { s with g := ended [] got 0 found })) ∧
  (alone → o.ctr = .acc → o.kind = .load sgn → exec (.accumulatorTransferComplete k) s =
    .next (updGroup k accWake (wake k.t { s with g := ended [] got 0 found }))) ∧
  (alone → place → o.ctr = .st → o.kind = .store → storeEnds (exec (.storeRetire k) s) id) ∧
  (alone → place → o.ctr = .acc → o.kind = .store → storeEnds (exec (.accumulatorTransferComplete k) s) (updGroup k accWake)) ∧
  (∀ addr, ¬covered o.accs addr → memGet stored addr = memGet (homeMem s h) addr) ∧
  (alone → place → o.ctr = .ld → o.kind = .atom aop sgn → rmwEnds (exec (.loadRetire k) s) atom.1 atom.2.1 atom.2.2) ∧
  (alone → place → o.ctr = .st → o.kind = .ared aop sgn → rmwEnds (exec (.storeRetire k) s) atom.1 [] 0) ∧
  (alone → place → o.ctr = .st → o.kind = .sigadd → rmwEnds (exec (.storeRetire k) s) sig.1 [] sig.2.2) ∧
  (alone → bufd → o.ctr = .st → o.kind = .store → ∃ rs rels, exec (.storeRetire k) s = .next (wake k.t { s with
      g := ended rs [] 0 [], recs := rs, rels := rels
      l := buffered fun b => o.accs.foldl (fun b a => buffer b a (leBytes a.w a.data.toNat)) b })) ∧
  (alone → bufd → o.ctr = .ld → o.kind = .atom aop sgn → o.accs = [a] →
    let old := leNat (bytesAt s k (locsFrom a.loc a.w))
    let new := atomNew aop sgn a.w old a.data.toNat a.exp.toNat
    ∃ rs rels, exec (.loadRetire k) s = .next (wake k.t { s with
      g := ended rs [⟨a.lane, a.sub, BitVec.ofNat 128 old⟩] new.2 found, recs := rs, rels := rels
      l := buffered fun b => buffer b a (leBytes a.w new.1) })) ∧
  (fresh → o.done = true → o.kind = .empty → o.dst = .none →
    let u := { s with g := { s.g with
      lane := [], retired := ((o.ctr, o.seq) :: s.g.retired).filter fun x => x.1 ≠ .acc && noted s ⟨k, x.2⟩ } }
    (o.ctr = .ld → exec (.loadRetire k) s = .next (wake k.t u)) ∧ (o.ctr = .st → exec (.storeRetire k) s = .next (wake k.t u))) ∧
  (inFocus s → s.g.wait = .hold → exec (.deferredIssue k) s = .next { s with g := { s.g with wait := .none, since := s.tick } })

/-- R222, R102, R104, R106, R107, R110, R98, R201, R204, R61, R205, R242, R243, R252, R113, R31. What the paths outside the lane path do when they
finish, in memory without errors, with no write pending on another path and no read of the lane path that they have to follow; a replay task's bytes
go to its merge buffer. A copy writes its source bytes, all read before the first is written and some of a tile move read earlier, to its destination
in order, counts them into its ring slot, sets its tag when it is the last one pending, and then updates its signal, SAT being raised where it clamps;
of a tile, a byte that is also read may keep its old value; bytes counted one by one lower what remains; a map load fills the slot store, which other
groups' unfinished loads of the same slot bytes then find filled (R201), and a map store writes its image; a stream block fills its buffer; a bobbin
command makes its moves, of what it has read already with the value found then, and an image store its writes, each with its tag and signal like a
copy. Nothing else changes. Rests on the model's own reading in notes/assumptions/4.md, 22.md and 54.md, and on its choices in notes/assumptions/57.md
and 58.md. -/
def Obligations.Transfers : Prop := ∀ (s : State) (c : CopyOp) (o : MapOp) (b : BobCmd) (x : ImgOp),
  let k := s.g.id
  let free := inFocus s ∧ calm s ∧ ∀ p ∈ s.g.lane, p.leads s.g = false
  let spread := fun (a : Loc) (va : W64) (bs : List Byte) =>
    bs.zipIdx.map fun y => ((({ a with addr := a.addr + y.2 } : Loc), va + BitVec.ofNat 64 y.2), y.1)
  let put := fun (path : Path) (xs : List ((Loc × W64) × Byte)) (u : State) => xs.foldl (fun u y => writeByte k path y.1.1 y.1.2 y.2 u) u
  let tagged := fun (f : OpId → Bool) (tag : Option Nat) (q : Nat) (t : Team) => match tag with
    | none => t
    | some n => { t with tags := t.tags.modify n fun y =>
        { pending := y.pending - 1, set := y.set || decide (y.pending = 1), ops := ⟨k, q⟩ :: y.ops.filter f } }
  let still := fun (r : SigRef) => s.l.muted = true ∨ (s.l.replay = true ∧ r.loc.home = .phys)
  let clamped := fun (u : State) => { u with g := if u.g.pos = .fetch then raise flagSAT u.g else { u.g with satDue := true } }
  let signalled := fun (path : Path) (sig : Option SigRef) (u : State) => match sig with
    | none => u
    | some r =>
      let new := signalNew (BitVec.ofNat 64 (leNat (bytesAt u k (locsFrom r.loc 8)))) r.delta
      let v := put path (spread r.loc r.va (leBytes 8 new.1.toNat)) u
      if still r then u else if new.2 then clamped v else v
  let ends := fun (r : Out) (path : Path) (tag : Option Nat) (q : Nat) (sig : Option SigRef) (u : State) => ∃ rs ts n f,
    r = .next (wake k.t { signalled path sig { u with t := tagged f tag q u.t } with recs := rs, rels := ts, tick := n }) ∧
    (∀ op, op ≠ ⟨k, q⟩ → f op = noted s op) ∧
    ∀ y, sig = some y → ¬still y → ∃ w ∈ ts, w.bytes = locsFrom y.loc 8 ∧ w.ended = [] ∧ w.scope = .dev ∧ w.by_ = some k ∧ w.seen = [⟨k, q⟩]
  let srcs := accLocs (c.pairs.map Prod.fst)
  let vals := srcs.zipIdx.map fun x => ((c.got.find? fun e => e.1 = x.2).map Prod.snd).getD (viewByte s k x.1)
  let xs := (copyDsts c).zip vals
  let counted := fun (n : Nat) (t : Team) => match c.ring with
    | none => t
    | some (r, j) => if n = 0 then t else updSlot r j (ringCount ⟨k, c.seq⟩ n) t
  let copy := free ∧ s.g.copies = [c] ∧ c.done = false ∧ c.buf = none ∧ c.written = 0
  let first := fun (p : Moving) => ∀ q ∈ movings s.g, q.foot.2.2.2 < p.foot.2.2.2 → slotsMeet q p = false ∧ memMeet q p = false
  let mapd := free ∧ s.g.mapops = [o] ∧ o.done = false ∧ o.got = [] ∧ o.rival = [] ∧ first (.xfer o)
  let filled := fun (at_ fmt : Nat) (bs : List Byte) => ({ s.t with slots := memPutBytes s.t.slots at_ (slotImage fmt bs) } : Team)
  let mapEnds := fun (u : State) => Host.Outcome.next (wake k.t { u with g := { u.g with
    mapops := [], retired := ((.mp, o.seq) :: u.g.retired).filter fun y => noted u ⟨k, y.2⟩ } })
  let ms := (o.accs.flatMap fun a => (List.range a.w).map fun i => ((({ a.loc with addr := a.loc.addr + i } : Loc), a.va + BitVec.ofNat 64 i))).zip
    (o.image.getD [])
  let bits := fun (m : BitMove) => leNat (bytesAt s k (locsFrom m.src (max 1 (m.w / 8))))
  let value := fun (m : BitMove) => m.val.getD (if m.w < 8 then bits m / 2 ^ m.sbit % 2 ^ m.w else bits m)
  let moved := b.moves.foldl (fun u m => put .bobbin ((spread m.dst m.dva (moveBytes k m (value m) u)).filter fun y => !b.keep.contains y.1.1) u) s
  let imaged := put .image (x.writes.flatMap fun a => spread a.loc a.va (leBytes a.w a.data.toNat)) s
  (∀ path xs, inFocus s → s.l.replay = false → (∀ y ∈ xs, y.1.1.home = .phys) → put path xs s =
    { s with hbm := xs.foldl (fun m y => memPut m y.1.1.addr y.2) s.hbm }) ∧
  (copy → ∃ ys, (c.tile = false → ys = xs) ∧ ys.Sublist xs ∧ (∀ y ∈ xs, y.1.1 ∉ srcs → y ∈ ys) ∧
    let u := put .copy ys s
    ends (exec (.copyComplete k 0) s) .copy c.tag c.seq c.sig { u with t := counted xs.length u.t, g := { u.g with copies := [] } }) ∧
  (∀ n, copy → n ≤ xs.length → ∃ ys rs ts i, (c.tile = false → ys = xs.take n) ∧ ys.Sublist (xs.take n) ∧
    (∀ y ∈ xs.take n, y.1.1 ∉ srcs → y ∈ ys) ∧
    let u := put .copy ys s
    exec (.ringByteCount k 0 n) s = .next { u with
      t := counted n u.t, g := { u.g with copies := [{ c with got := [], buf := some vals, written := n }] }, recs := rs, rels := ts, tick := i }) ∧
  (mapd → o.kind = .load → exec (.mapTransferComplete k 0) s = mapEnds (markRivals k o { s with t := filled o.first o.fmt (bytesAt s k (accLocs o.accs)) })) ∧
  (mapd → o.kind = .diag → exec (.mapTransferComplete k 0) s = mapEnds (markRivals k o { s with t := filled o.first o.fmt (o.image.getD []) })) ∧
  (mapd → o.kind = .store → ∃ rs ts, exec (.mapTransferComplete k 0) s = mapEnds { put .stream ms s with recs := rs, rels := ts }) ∧
  (∀ m blk st, free → fetching s.g m blk = some st → st.got = [] → first (.fetch st) →
    let d := getMap s.g m
    st.first = 2048 * (mdSlot d + slotsOf (mdFmt d) * (blk % 2)) ∧ exec (.streamBlockArrival k m blk) s = .next (wake k.t { s with
      t := filled st.first (mdFmt d) (bytesAt s k (accLocs st.accs))
      g := { s.g with streams := s.g.streams.map fun e =>
        if e.1 = m then (m, if blk = mdB d then { e.2 with here := true, gotHere := [] } else { e.2 with ahead := true, gotAhead := [] }) else e } })) ∧
  (free → s.g.bobs = [b] → (b.moves.map fun m => (m.dst, m.dbit)).Nodup →
    ends (exec (.bobCommandComplete (.op k)) s) .bobbin b.tag b.seq b.sig { moved with g := { moved.g with bobs := [] } }) ∧
  (free → s.g.imgs = [x] → (∀ p ∈ imgAfter s.g x.seq, ∀ g, group? s p.k = some g → ∀ y ∈ g.imgs, y.seq ≠ p.seq) →
    ends (exec (.imgstComplete k) s) .image x.tag x.seq x.sig { imaged with g := { imaged.g with imgs := [] } })

/-- R35, R226, R323, R317. A group whose .ord turn has come performs its op, once what goes before it can go, and completes its round, by one and only
its own, or parks where its lines of the spill pool cannot be reserved; when every unexited group of a
team waits for another, the lowest-numbered one in a round raises ORDER_VIOLATION with its round. Rests on the model's own reading in
notes/assumptions/13.md and 14.md. -/
def Obligations.OrderedRounds : Prop := ∀ (s : State) (e r : Nat) (o : LaneOp),
  let k := s.g.id
  let waiting := inFocus s ∧ s.g.wait = .ord e r o
  let gone := fun (h : Group) => h.exited = true ∨ (h.pos = .seq ∧ ∃ d, h.dec = some d ∧ d.seq = .exit)
  let turn := ∀ n, n < k.num → ∀ h, group? s ⟨s.t.id, n⟩ = some h → gone h ∨ r < ordDone s.t e n
  let room := reserve s 0 (if o.kind.writes then o.accs else []) 0
  (∀ p, waiting → turn → room = .park p → exec (.atomOrdRound k) s = .next { s with g := { s.g with wait := .none, park := some p } }) ∧
  (waiting → turn → room = .ok () → ∃ t, let u := performTo k s.g.seqn { s with g := nextSlot (enqueue o s.g), t := t }
    exec (.atomOrdRound k) s = .next (if undone k s.g.seqn u then s else u) ∧
    (∀ y, s.t.seqr[e]? = some y → k.num < y.done.length → ordDone t e k.num = ordDone s.t e k.num + 1) ∧
    (∀ a n, (a ≠ e ∨ n ≠ k.num) → ordDone t a n = ordDone s.t a n) ∧ { t with seqr := s.t.seqr } = s.t) ∧
  (waiting → ¬turn → exec (.atomOrdRound k) s = .next s) ∧
  (waiting → ordVictim s s.t s.l.kern.groups = some k → waitsFrame s.g = false →
    exec (.ordDeadlock s.t.id) s = .next (takeTrap (s.g.pos = .b) s.g.word ⟨15, 0, 0, 0, 0, BitVec.ofNat 64 r⟩ s)) ∧
  (∀ v, ordVictim s s.t s.l.kern.groups = some v → ∃ g e r o, group? s v = some g ∧ ¬gone g ∧ g.wait = .ord e r o ∧
    ∀ n, n < v.num → ∀ h, group? s ⟨s.t.id, n⟩ = some h → gone h ∨ ∃ id gen, h.wait = .bar id gen)

/-- R24, R125, R298. A group's slot is freed once all it issued is complete and it has exited or its launch has ended; with the last group the team
ends: nothing of it is resident, its task has ended, every path finds what it wrote (R125), and no other team's groups change. Rests on the model's
own reading in notes/assumptions/34.md. -/
def Obligations.GroupEnd : Prop := ∀ (s : State) (k : Gid) (g : Group),
  let here := group? s k = some g
  let idle := g.lane = [] ∧ g.copies = [] ∧ g.mapops = [] ∧ g.bobs = [] ∧ g.imgs = [] ∧ g.frees = []
  let ended := g.exited = true ∨ ∃ l, launch? s k.t.l = some l ∧ l.code_ ≠ none
  let last := ∀ n h, n < 32 → n ≠ k.num → group? s ⟨k.t, n⟩ = some h → h.freed = true
  (here → idle → ended → g.freed = false → ∃ u, exec (.groupSlotFree k) s = .next u ∧
    (∀ j, j.t ≠ k.t → group? u j = group? s j) ∧
    (¬last → group? u k = some { g with freed := true, exited := true, wait := .none, park := none } ∧ team? u k.t = team? s k.t) ∧
    (last → team? u k.t = none ∧ (∀ n, group? u ⟨k.t, n⟩ = none) ∧ (∀ r ∈ u.recs, r.op.k.t ≠ k.t) ∧ (∀ t, t ≠ k.t → team? u t = team? s t) ∧
      ∀ l, launch? s k.t.l = some l → ∃ m, launch? u k.t.l = some m ∧ m.ended = k.t.team :: l.ended ∧
        ∀ x ∈ m.tasks, x.team = k.t.team → x.ended = true)) ∧
  (here → ¬(idle ∧ ended ∧ g.freed = false) → exec (.groupSlotFree k) s = .next s)

/-- R30, R32, R33, R124, R285, R320 to R322. The seam of a phase whose tasks have ended: without a conflict it applies every task's bytes and records
in ascending task ID, on the copy path, releases their buffers and opens the next phase, which follows what the seam wrote; there each distributor
offers the chunks that it owns by now, and one that has stopped stealing stays so; with a conflict it writes no memory but the report, and ends the
launch with MERGE_CONFLICT; an uncorrectable error ends it with MEMORY_ERROR and applies nothing. Rests on the model's own reading in
notes/assumptions/22.md, and on its choice in notes/assumptions/33.md. -/
def Obligations.Seams : Prop := ∀ (k : Lid) (s : State),
  let ts := phaseTasks s.l
  let due := launchHere k s ∧ seamDue s.l = true
  let clean := conflicts ts = []
  let op : OpId := ⟨agentGid s.p.num 3, s.p.seqn⟩
  let next := nextPhase op s.l
  (due → calm s → clean → launch? s op.k.t.l = none → ∃ rs rels, (∀ r ∈ rs, r.op = op ∧ r.path = .copy) ∧ exec (.seam k) s = .next { s with
    l := next
    p := { s.p with seqn := s.p.seqn + 1 }
    recs := rs
    rels := rels
    hbm := ts.foldl (fun m t =>
      t.recs.foldl (fun m r =>
        let old := memNat m r.addr r.w
        memPutNat m r.addr r.w (if r.aop = 16 then (signalNew (BitVec.ofNat 64 old) r.data).1.toNat
          else (atomNew r.aop r.sgn r.w old r.data.toNat 0).1))
        (t.buf.foldl (fun m b => memPut m b.addr b.data) m)) s.hbm }) ∧
  (due → calm s → ¬clean → ∃ u, exec (.seam k) s = .next u ∧ u.l = { s.l with code_ := some (BitVec.ofInt 64 (-85)), reported := true } ∧
    u = { endLaunch k (BitVec.ofInt 64 (-85)) (report ts (conflicts ts) s) with l := u.l }) ∧
  (due → poisoned s (seamReads ts s) = true → exec (.seam k) s = .next (endLaunch k (BitVec.ofInt 64 (-83)) s)) ∧
  (∀ a, a ∈ conflicts ts ↔ ∃ t ∈ ts, ∃ b ∈ t.buf, b.addr = a ∧
    (b.bad = true ∨ (∃ u ∈ ts, ∃ r ∈ u.recs, r.addr ≤ a ∧ a < r.addr + r.w) ∨ 1 < (ts.filter fun u => masks u a).length)) ∧
  (next.phase = s.l.phase + 1 ∧ ⟨op, .copy, none, none, 0, none⟩ ∈ next.know ∧ s.l.know ⊆ next.know ∧ s.l.endKnow ⊆ next.know ∧
    (∀ t ∈ next.tasks, t.phase = s.l.phase → t.buf = [] ∧ t.recs = []) ∧
    ∀ (i : Nat) (x : Dist), s.l.dists[i]? = some x → ∃ y : Dist, next.dists[i]? = some y ∧ y.own = x.own ∧ y.stopped = x.stopped ∧ y.now = [] ∧
      ∀ c, c ∈ y.chunks ↔ c ∈ x.own ∧ chunkTeams next c ≠ [])

/-- R16, R17, R21, R25, R96, R284 to R288. Placement: a team whose block and grants fit goes to its core with every group in its start state, where it
blocks the die, or no other team blocks it and no launch that started earlier could be placed there, blocks counted; its distributor moves on, and
each earlier launch that waits there counts one more pass, its team blocking every later placement on the die from the 4096th; a cohort is placed
whole, in the same turn as a team on every die of its partition, and passes over what waits there as its teams do; scratchpads are reserved in the
order of starting, and a launch that waits for its own holds back every later one that needs any; an idle distributor takes the highest-numbered half
of a victim's chunks, which are its own from then on, or stops. Rests on the model's own reading in notes/assumptions/18.md and 48.md, and on its
choice in notes/assumptions/60.md. -/
def Obligations.Placement : Prop := ∀ (k : Lid) (s : State) (d : Nat),
  let here := launchHere k s ∧ s.l.code_ = none ∧ s.l.held = false ∧ s.l.reserved = true
  let die := dieOfDist s d
  let kept := fun (die : Nat) (x : Launch) => ∃ b, blocker s die = some b ∧ b ≠ x.id ∧
    ¬(x.cohort = true ∧ x.dists.any Dist.blocks = true ∧ ∃ y, launch? s b = some y ∧ y.cohort = true ∧ startedBefore x y = true)
  let could := fun (die : Nat) (x : Launch) => ¬kept die x ∧ (x.cohort = true → ∀ p, part? s x.id.part = some p → ∀ y ∈ distDies p, ¬kept y x) ∧
    ∃ e, distOn s die x = some e ∧ placeable (focusPart x.id.part s) e x = true
  let turn := fun (die : Nat) => blocker s die = some k ∨ (¬kept die s.l ∧ ∀ x ∈ waitsBefore s die s.l, ¬could die x)
  (∀ i core b, here → s.l.cohort = false → turn die → heldBack s s.l = false →
    nextTeam s.l d = some i → blockFor s s.l (distCores s.p d) core = some b →
    ∃ u, exec (.teamPlace k d core) s = .next u ∧ u.teams = s.teams ++ [newTeam s.l ⟨k, i⟩ core b.1 b.2] ∧
      u.groups = s.groups ++ (List.range s.l.kern.groups).map (fun n =>
        newGroup s.l ⟨k, i⟩ b.1 b.2 ((slotsFor s core s.l.kern.groups).getD n 0) s.tick n) ∧
      u.l = updDist d (tookTeam s.l) s.l ∧ { u with teams := s.teams, groups := s.groups, l := s.l, launches := s.launches } = s ∧
      (((allLaunches s).map Launch.id).Nodup → ∀ x ∈ allLaunches s, x.id ≠ k → launch? u x.id = some
        (if waitsBefore s die s.l |>.contains x then (distOn s die x).elim x fun e => passOver e x else x))) ∧
  (∀ l e x, l.dists[e]? = some x → ((passOver e l).dists[e]?).any (fun y => y.passed = x.passed + 1 ∧ (4096 ≤ y.passed → y.blocks = true) ∧
    (x.blocks = true → y.blocks = true)) = true) ∧
  (∀ core, launchHere k s → ¬turn die → exec (.teamPlace k d core) s = .next s) ∧
  (∀ core, here → heldBack s s.l = true → ∃ l, exec (.teamPlace k d core) s = .next { s with l := l } ∧ (l = s.l ∨ l = updDist d (offered s.l) s.l)) ∧
  (∀ n t block regs slot, let g := newGroup s.l t block regs slot s.tick n
    getS g 0 = s.l.args ∧ exm g = 0xFFFFFFFF ∧ (∀ j, 0 < j → j < 62 → getS g j = 0) ∧ (∀ j, j < 7 → getP g j = 0 ∧ getK g j = false) ∧
    (∀ j, getN g j = 0) ∧ (∀ j i, getLane g j i = 0 ∧ getA g j i = 0) ∧ (∀ j, getMap g j = 0) ∧ g.pc = s.l.entry ∧ g.slotB = false ∧
    g.hmode = false ∧ g.exited = false ∧ g.clkr = 0 ∧ g.rf = Refine.idle ∧ g.crossed = s.l.know) ∧
  (∀ die b, blocker s die = some b → ∃ x ∈ blocking s die, x.id = b ∧ ∀ y ∈ blocking s die, y.id = b ∨ startedBefore x y = true) ∧
  (((allLaunches s).map Launch.id).Nodup → ∀ die, ∀ x ∈ allLaunches s, x.id ≠ s.l.id → launch? (passedOver die s) x.id = some
    (if waitsBefore s die s.l |>.contains x then (distOn s die x).elim x fun e => passOver e x else x)) ∧
  (∀ cores u, here → s.l.cohort = true → s.l.placedAll = false → (∀ x ∈ distDies s.p, turn x) →
    cores.length = (domainTeams s.l).length → (∀ x ∈ (domainTeams s.l).zip cores, x.2 ∈ cohortCores s.p s.l x.1) →
    placeCohort ((domainTeams s.l).zip cores) s = some u →
    let v := cores.foldl (fun v c => passedOver (dieOf c) v) u
    exec (.cohortPlacement k cores) s = .next { v with l := { u.l with
      placedAll := true, dists := u.l.dists.map fun x => { x with chunks := [], now := [], passed := 0, blocks := false } } } ∧
    { v with launches := u.launches } = u ∧ u.l = s.l ∧ u.teams.map (fun t => (t.id, t.core)) = s.teams.map (fun t => (t.id, t.core)) ++
      ((domainTeams s.l).zip cores).map fun x => (⟨k, x.1⟩, x.2)) ∧
  (launchHere k s → waitsReserve s.l = true → heldBack s s.l = false →
    (∀ c ∈ partClusters s.p, loftUsed s k.part c + s.l.kern.loft ≤ 4 * 2 ^ 20) →
    (∀ x ∈ distDies s.p, yardUsed s k.part x + s.l.kern.yard ≤ yardCap s.p x) →
    exec (.loftYardReserve k) s = .next { s with l := { s.l with reserved := true } }) ∧
  (launchHere k s → heldBack s s.l = true → exec (.loftYardReserve k) s = .next s) ∧
  (∀ x v y, launchHere k s → s.l.dists[d]? = some x → x.chunks = [] → x.stopped = false → allIssued s.l = false →
    (stealVictim s.l.dists d = none → exec (.distributorSteal k d) s = .next { s with l := updDist d (fun x => { x with stopped := true }) s.l }) ∧
    (stealVictim s.l.dists d = some v → s.l.dists[v]? = some y →
      let n := y.chunks.length - y.chunks.length / 2
      let l := updDist v (fun z => { z with chunks := y.chunks.take n, own := y.own.filter fun c => !(y.chunks.drop n).contains c }) s.l
      let m := updDist d (fun z => { z with chunks := y.chunks.drop n, own := x.own ++ y.chunks.drop n }) l
      2 ≤ y.chunks.length ∧ exec (.distributorSteal k d) s = .next { s with l := m })) ∧
  (∀ x, launchHere k s → waitsHere d s.l = true → s.l.dists[d]? = some x → 4096 ≤ x.passed →
    exec (.placementStarvation k d) s = .next { s with l := updDist d (fun x => { x with blocks := true }) s.l })

/-- R265, R266, R269, R271 to R275, R279 to R281, R360. One step of an engine of a running partition: the records are read, ended launches retire,
queues in ERROR are swept, each lane parses one packet, the three intakes draw, and the passes run in the order of R269: BARRIER, SIGNAL, COPY, BOB,
LAUNCH, BUNDLE, EVENT, NOP, before the records are written back. A partition that does not run takes no step. What the passes of an engine do with the
head packet of a queue that may start it: a NOP is skipped; a SIGNAL is added where it translates, a release of what the queue knows, and reported as
SIGNAL_FAULT where it does not; a BARRIER starts, and ends with its signal and what its reads acquired as soon as every value has reached its target,
or leads to ERROR with the first negative value; a BUNDLE that has won its intake starts all of its members where every one passes its checks, and
none of them else; an EVENT is written where the ring has room, and waits where it has not; a COPY, BOB or LAUNCH that has won its intake starts where
its checks pass, and else ends with its code on its signal; READ moves past the packet each time. A lane that reads a SIGNAL packet holds its address
and delta; a packet of an unknown type is skipped, or with MAND puts the queue into ERROR with UNKNOWN_MANDATORY, and one whose header breaks item 1
with MALFORMED_PACKET; the sweep of a queue in ERROR takes a packet that starts with its CSIG and adds PACKET_ABORTED there. A LAUNCH whose image
cannot be read, that is both replay and cohort, or whose generators do not fit its grid is refused with the code for it, and a COPY with a range that
fails its checks, or whose ranges share an address, with ENGINE_FAULT; one that passes copies its source to the same offsets of its destination. Rests
on the model's own reading in notes/assumptions/4.md, 7.md, 12.md and 45.md, and on its choices in notes/assumptions/93.md, 94.md and 96.md. -/
def Obligations.EnginesAndPackets : Prop :=
  (∀ (s : State) (n : Nat) (e : Fin 4),
    let lanes := (List.range 128).filter fun q => s.p.queues.any (fun x => x.num = q) && decide (q / 32 = e.val)
    let each := fun (act : Nat → State → State) (s : State) => lanes.foldl (fun s q => act q s) s
    (runsHere n s → exec (.queueEngineStep n e) s = .next (each storeRecord (each passNop (each passEvent (each passBundle (each (passWork 0)
      (each (passWork 2) (each (passWork 1) (each passSignal (each passBarrier (draw 2 (draw 1 (draw 0 (each parseLane (each sweepStep
        (retireAll lanes (each loadRecord s))))))))))))))))) ∧
    (partHere n s → s.p.tdisp ≠ .run → exec (.queueEngineStep n e) s = .next s)) ∧
  (∀ (s : State) (q len : Nat) (x : Queue),
    let set := fun (f : Queue → Queue) (u : State) =>
      ({ u with p := { u.p with queues := u.p.queues.map fun y => if y.num = q then f y else y } } : State)
    let past := set fun y => { y with read := y.read + BitVec.ofNat 64 len, head := none, won := false }
    let at_ := fun (k : Packet) => queue? s q = some x ∧ qMay x = true ∧ x.head = some (k, len)
    let rw : Want := ⟨true, true, false⟩
    let lost := fun (a : W64) => packetFailed q x.read (BitVec.ofInt 64 (-36)) a (past s)
    let before := everyPath s x.know
    (at_ .nop → passNop q s = past s) ∧
    (∀ a d, at_ (.signal a d) → ∀ pa, virtByte s rw a 8 = some pa → passSignal q s = packetSignal none before q x.read a d (past s)) ∧
    (∀ a d, at_ (.signal a d) → virtByte s rw a 8 = none → passSignal q s = lost a) ∧
    (∀ c d, at_ (.event c d) → evRoom s.p = true → passEvent q s = evPut c q x.read 0 d (past s)) ∧
    (∀ c d, at_ (.event c d) → evRoom s.p = false → passEvent q s = s) ∧
    (∀ i w cs, at_ (.work w cs) → x.won = true → waitsIntake i x = true →
      let got := startCheck s x x.read 0 none cs w
      let u := past (eccRead (workReads s x x.read 0 w) s)
      (∀ a, badSignal s cs [] [] = some a → passWork i q s = lost a) ∧
      (∀ st, badSignal s cs [] [] = none → got = .ok st → passWork i q s = startWork q x.read none 0 cs st u) ∧
      (∀ c, badSignal s cs [] [] = none → got = .error c → passWork i q s =
        packetFailed q x.read c 0 (csigDone none before q x.read cs (some c) u))) ∧
    (∀ i w cs, at_ (.work w cs) → x.won = false → passWork i q s = s) ∧
    (∀ hold ws cs, at_ (.barrier hold ws cs) → x.bars = [] → s.dev.corrected = [] →
      let b : Barrier := ⟨hold, ws, cs, x.read⟩
      let know := everyPath s (agentKnow s false (plainly (barLocs s ws)) ++ x.know)
      let begun := set (fun y => { y with bars := y.bars ++ [b] }) (past s)
      let done := set fun y => { y with bars := y.bars.erase b, know := if hold then know else y.know }
      (∀ a, badSignal s cs (ws.map Prod.fst) [] = some a → passBarrier q s = lost a) ∧
      (badSignal s cs (ws.map Prod.fst) [] = none →
        (barRead s ws = .ok false → passBarrier q s = begun) ∧
        (barRead s ws = .ok true → passBarrier q s = csigDone none know q x.read cs none (done begun)) ∧
        (∀ v a, barRead s ws = .error (v, a) → passBarrier q s = sysEvent q 0x8001 x.read v a .error v
          (set (fun y => { y with bars := y.bars.erase b }) (csigDone none before q x.read cs (some v) begun))))) ∧
    (∀ b, queue? s q = some x → x.bars = [b] → x.head = none → s.dev.corrected = [] →
      let know := everyPath s (agentKnow s false (plainly (barLocs s b.waits)) ++ x.know)
      (barRead s b.waits = .ok false → passBarrier q s = s) ∧
      (barRead s b.waits = .ok true → passBarrier q s = csigDone none know q b.pkt b.csig none
        (set (fun y => { y with bars := y.bars.erase b, know := if b.hold then know else y.know }) s))) ∧
    (∀ ms cs, at_ (.bundle ms cs) → x.won = true →
      let id := bundleId q x.read
      let u := past (eccRead (ms.zipIdx.flatMap fun m => workReads s x x.read (m.2 + 1) m.1) s)
      (∀ a, badSignal s cs [] [] = some a → passBundle q s = lost a) ∧
      (∀ c, badSignal s cs [] [] = none → checkMembers s x x.read id 1 ms = .error c → passBundle q s =
        packetFailed q x.read c 0 (csigDone none before q x.read cs (some c) u)) ∧
      (∀ sts, badSignal s cs [] [] = none → checkMembers s x x.read id 1 ms = .ok sts → passBundle q s =
        sts.zipIdx.foldl (fun s st => startWork q x.read (some id) (st.2 + 1) none st.1 s)
          { u with p := { u.p with bundles := u.p.bundles ++ [⟨id, q, x.read, cs, ms.length, ms.length, none, false, false, x.know⟩] } })) ∧
    (∀ ms cs, at_ (.bundle ms cs) → x.won = false → passBundle q s = s) ∧
    (∀ know w pa d, virtByte s rw w 8 = some pa → calm s → packetSignal none know q x.read w d s = { s with
      hbm := memPutNat s.hbm pa 8 (signalNew (BitVec.ofNat 64 (memNat s.hbm pa 8)) d).1.toNat
      p := { s.p with seqn := s.p.seqn + 1 }
      rels := ⟨locsFrom ⟨.phys, pa⟩ 8, [], .sys, none, ⟨agentGid s.p.num 2, s.p.seqn⟩, 1, know, [], s.tick⟩ :: s.rels })) ∧
  (∀ (s : State) (q : Nat) (x : Queue),
    let set := fun (f : Queue → Queue) (u : State) =>
      ({ u with p := { u.p with queues := u.p.queues.map fun y => if y.num = q then f y else y } } : State)
    let off := x.read.toNat % 2 ^ (x.ctl.toNat % 32)
    let place := x.base + BitVec.ofNat 64 off
    let stands := fun (us : List Nat) => queue? s q = some x ∧ calm s ∧ x.read.toNat % 8 = 0 ∧ (∀ u ∈ us, u < 2 ^ 64) ∧
      off + 8 * us.length ≤ 2 ^ (x.ctl.toNat % 32) ∧ 8 * us.length ≤ (x.write - x.read).toNat ∧
      virtRead s place 8 = some (leBytes 8 (us.headD 0)) ∧ virtRead s place (8 * us.length) = some (us.flatMap (leBytes 8))
    let reads := qRuns x = true ∧ x.head = none ∧ x.read ≠ x.write
    let header := fun (type mand len inl : Nat) => type * 2 ^ 20 + mand * 2 ^ 19 + len + inl * 2 ^ 32
    let fails := fun (c : Int) => sysEvent q 0x8001 x.read (BitVec.ofInt 64 c) 0 .error (BitVec.ofInt 64 c) s
    (∀ (m n : Nat) (a d : W64), stands [header 3 m 4 0, header 12 n 3 0, a.toNat, d.toNat] → reads → m < 2 → n < 2 → a.toNat % 8 = 0 →
      parseLane q s = set (fun y => { y with head := some (.signal a d, 32) }) s) ∧
    (∀ t m inl us, stands (header t m (us.length + 1) inl :: us) → reads → t < 4096 → (t = 0 ∨ 8 < t) → us.length + 1 < 2 ^ 16 →
      (m = 1 → parseLane q s = fails (-32)) ∧
      (m = 0 → parseLane q s = set (fun y => { y with head := some (.nop, 8 * (us.length + 1)) }) s)) ∧
    (∀ u, queue? s q = some x → calm s → reads → u < 2 ^ 64 → virtRead s place 8 = some (leBytes 8 u) → (u % 2 ^ 16 = 0 ∨ u / 2 ^ 16 % 8 ≠ 0) →
      parseLane q s = fails (-33)) ∧
    (∀ t (a : W64) inl us, let len := us.length + 3
      stands (header t 0 len 0 :: header 1 0 2 inl :: a.toNat :: us) → t ∈ [2, 4, 5, 6, 7] → len < 2 ^ 16 → 1 ≤ inl → inl < 2 ^ 31 → a.toNat % 8 = 0 →
      x.state = .error → x.sweepStop = false → (x.write - x.read).toNat = 8 * len →
      sweepLane q s = packetSignal none (everyPath s x.know) q x.read a (BitVec.ofInt 64 (-34))
        (set (fun y => { y with read := y.read + BitVec.ofNat 64 (8 * len), head := none, won := false }) s)) ∧
    (∀ pkt mem b cs image idx gx gy gz args mode table,
      let check := startCheck s x pkt mem b cs (.launch image idx gx gy gz args mode table)
      (virtRead s image 64 = none → check = .error (BitVec.ofInt 64 (-22))) ∧
      ∀ y, loadImage s image idx = .ok y → poisoned s (workReads s x pkt mem (.launch image idx gx gy gz args mode table)) = false →
        let l := launchOf s x pkt mem b cs y gx gy gz args mode table
        (l.replay = true → l.cohort = true → check = .error (BitVec.ofInt 64 (-20))) ∧
        (¬(l.replay = true ∧ l.cohort = true) → symOk l = false → check = .error (BitVec.ofInt 64 (-19)))) ∧
    (∀ pkt mem b cs src dst n,
      let check := startCheck s x pkt mem b cs (.copy src dst n)
      let fits := virtBad s ⟨true, false, false⟩ src n = none ∧ virtBad s ⟨false, true, false⟩ dst n = none
      let meet := ∃ i j : Nat, i < n ∧ j < n ∧ src + BitVec.ofNat 64 i = dst + BitVec.ofNat 64 j
      (¬fits ∨ meet → check = .error (BitVec.ofInt 64 (-35))) ∧
      (fits → ¬meet → ∃ ps, check = .ok (.copy ps) ∧
        ∀ y ∈ ps, y.1.loc.home = .phys ∧ y.2.loc.home = .phys ∧ 0 < y.1.w ∧ y.1.w = y.2.w ∧ y.1.va - src = y.2.va - dst))) ∧
  (∀ (s : State) (ws : List (W64 × W64)),
    let v := fun (w : W64 × W64) => (waitRead s w.1).2.toInt
    (barRead s ws = .ok true ↔ ∀ w ∈ ws, 0 ≤ v w ∧ w.2.toInt ≤ v w) ∧
    (∀ e, barRead s ws = .error e ↔ ∃ w, ws.find? (fun w => decide (v w < 0)) = some w ∧ e = ((waitRead s w.1).2, w.1))) ∧
  (∀ (s : State) (x : Queue) (pkt : W64) (id n : Nat) (ms : List Work),
    let check := fun (i : Nat) (w : Work) => startCheck s x pkt (n + i) (some id) none w
    (∀ sts, checkMembers s x pkt id n ms = .ok sts → sts.length = ms.length ∧ ∀ i w, ms[i]? = some w → ∃ st, sts[i]? = some st ∧ check i w = .ok st) ∧
    (∀ c, checkMembers s x pkt id n ms = .error c → ∃ i w, ms[i]? = some w ∧ check i w = .error c ∧
      ∀ j v, j < i → ms[j]? = some v → ∃ st, check j v = .ok st))

/-- R282, R283. A draw gives the intake to the first eligible queue that has been passed over 64 times, else to the holder of the drawn ticket; the
generator steps once by the stated shifts; the winner's count is cleared, every other eligible queue is passed over once more, up to 64. -/
def Obligations.Arbitration : Prop := ∀ (s : State) (i : Nat),
  let x0 := s.p.lot
  let x1 := x0 ^^^ (x0 <<< 13)
  let x2 := x1 ^^^ (x1 >>> 7)
  let x3 := x2 ^^^ (x2 <<< 17)
  let es := ((List.range 128).filterMap fun n => s.p.queues.find? fun q => q.num = n).filter (eligible s i)
  let tickets := (es.map qTickets).sum
  (es = [] → draw i s = s) ∧
  (es ≠ [] → (draw i s).p.lot = x3 ∧ ∀ w, (es.find? fun q => q.passed = 64) = some w ∨
      ((es.find? fun q => q.passed = 64) = none ∧ 0 < tickets ∧ ∃ before after, es = before ++ w :: after ∧
        (before.map qTickets).sum ≤ x3.toNat % tickets ∧ x3.toNat % tickets < (before.map qTickets).sum + qTickets w) →
    (draw i s).p.queues = s.p.queues.map (fun q =>
      if q.num = w.num then { q with won := true, passed := 0 }
      else if es.any fun e => e.num = q.num then { q with passed := min 64 (q.passed + 1) }
      else if waitsIntake i q then { q with passed := 0 } else q) ∧
    { draw i s with p := s.p } = s)

/-- R261 to R264, R279, R281, R291, R307. Writes of a queue's record: before each, what software has written into the record in memory is taken up
(BASE and WRITE, READ in ERROR and PREEMPTED, CTL), and after each the record's 64 bytes stand there. The doorbell moves WRITE, and what the host has
done is before the packets it covers; CTL written with ENABLE starts a disabled queue in RUN, or one that waits for room in the event ring before it
is disabled; the events that a queue still holds when it is enabled, resumed or pre-empted leave it so; with RESUME one in PREEMPTED, and one in ERROR
once its sweep has aborted every packet up to WRITE or has stopped, RESUME staying set where that sweep halts it for want of room in the event ring
until an engine step finds it in ERROR again; with PREEMPT one that is active by then, or waits for room in the event ring to be active again, asks
for the saves of its teams, and one in ERROR does nothing; with ENABLE 0 it becomes DISABLED once nothing it started is left; a word that breaks R263
leaves CTL and is reported; EVRD lets the held events of a queue post in their order, as many as the ring takes, and the queue that has posted its
last one goes where that one leads. Rests on the model's own reading in notes/assumptions/4.md, 12.md, 45.md and 74.md, and on its choices in
notes/assumptions/97.md and 100.md. -/
def Obligations.QueueRecords : Prop := ∀ (s : State) (n q : Nat) (v : W64) (x : Queue),
  let u := loadRecord q s
  let here := partHere n s ∧ s.p.tdisp ≠ .error ∧ (queue? s q).isSome = true ∧ queue? u q = some x
  let ends := fun (w : State) => Host.Outcome.next (storeRecord q w)
  let at_ := recordAt s q
  let on := fun (f : Queue → Queue) (u : State) => ({ u with p := { u.p with queues := u.p.queues.map fun y => if y.num = q then f y else y } } : State)
  let set := fun (f : Queue → Queue) => on f u
  let ok := ctlOk v = true ∧ u.p.tdisp = .run ∧ x.ctl.getLsbD 17 = false ∧ x.ctl.getLsbD 18 = false
  let bit := fun (b : Nat) (c : Bool) => v.getLsbD b = c
  let back := x.state = .error ∨ x.state = .preempted
  let bad := ends (sysNote q 0x8004 x.read 0 0 u)
  let written := set fun y => { y with ctl := if back then v else v &&& 0xFFFFFFFFFFFBFFFF }
  let fresh := fun (y : Queue) => { y with state := .active, err := 0, head := none, won := false }
  let leads := fun (st : QState) (y : Queue) => { y with held := y.held.map fun h => { h with then_ := st, err := 0 } }
  let enabled := on (fun y => leads .active (fresh y)) written
  let stands := fun (w : State) (f : Queue → Bool) => (queue? w q).any f
  let halted := fun (y : Queue) => y.state = .error || y.state = .preempted
  let resumed := fun (w : State) => freeLaunches q (on (fun y => leads .active { fresh y with sweepStop := false, ctl := y.ctl &&& 0xFFFFFFFFFFFBFFFF }) w)
  let past := on fun y => { y with ctl := y.ctl &&& 0xFFFFFFFFFFFDFFFF }
  let last := fun (w : State) =>
    if v.getLsbD 17 && stands w fun y => y.state = .active || (y.state = .haltEventFull && (destState y).1 = .active) then holdLaunches q w else past w
  (virtRead s at_ 32 = none → loadRecord q s = s) ∧
  (∀ (y : Queue) (base w r c : W64), queue? s q = some y → calm s → virtRead s at_ 32 = some ([base, w, r, c].flatMap fun z => leBytes 8 z.toNat) →
    let taken := on (fun y => { y with
      base := base, write := w, read := if y.state = .error ∨ y.state = .preempted then r else y.read, know := [] }) s
    loadRecord q s = if c = y.ctl then taken else ctlWrite q c taken) ∧
  (∀ (y : Queue) (w : State), queue? w q = some y →
    let code := match y.state with
      | .disabled => 0
      | .active => 1
      | .error => 2
      | .haltEventFull => 3
      | .preempted => 4
    let bytes := [y.base, y.write, y.read, y.ctl, BitVec.ofNat 64 (y.err.toNat % 2 ^ 32 * 2 ^ 32 + y.passed * 2 ^ 16 + code), 0, 0, 0].flatMap fun z =>
      leBytes 8 z.toNat
    (virtRead w (recordAt w q) 64 = some bytes → storeRecord q w = w) ∧
    (virtRead w (recordAt w q) 64 ≠ some bytes → storeRecord q w = (virtWrite (recordAt w q) bytes w).getD w)) ∧
  (here → exec (.queueDoorbell n q v) s = ends (set fun y => { y with write := v, know := everyPath u (doorbellKnow u ++ y.know) })) ∧
  (here → ok → bit 16 true → x.state = .disabled → exec (.queueEnable n q v) s = ends (last enabled)) ∧
  (here → ok → bit 16 true → x.state = .haltEventFull → (destState x).1 = .disabled →
    exec (.queueEnable n q v) s = ends (last (on (leads .active) written))) ∧
  (here → ok → bit 18 true → back → exec (.queueResume n q v) s =
    ends (last (if stands (sweepLane q written) halted then resumed (sweepLane q written) else sweepLane q written))) ∧
  (∀ w, sweepStep q w =
    if stands (sweepLane q w) fun y => y.ctl.getLsbD 18 && halted y then resumed (sweepLane q w) else sweepLane q w) ∧
  (∀ w y, queue? w q = some y → (y.state ≠ .error → sweepLane q w = w) ∧
    (y.state = .error → ∀ z, queue? (sweepLane q w) q = some z → z.state ≠ .error ∨ z.sweepStop = true ∨ (z.write - z.read).toNat < 8)) ∧
  (here → ok → bit 16 false → bit 18 false → exec (.queueDisable n q v) s = ends (last written)) ∧
  (here → ok → bit 17 true → x.state = .active ∨ (x.state = .haltEventFull ∧ (destState x).1 = .active) →
    exec (.queuePreempt n q v) s = ends (holdLaunches q written)) ∧
  (here → ok → bit 17 true → bit 18 false → x.state = .error → exec (.queuePreempt n q v) s = ends (past written)) ∧
  (here → ctlOk v = false → (bit 16 true → exec (.queueEnable n q v) s = bad) ∧ (bit 16 false → exec (.queueDisable n q v) s = bad) ∧
    (bit 17 true → exec (.queuePreempt n q v) s = bad) ∧ (bit 18 true → exec (.queueResume n q v) s = bad)) ∧
  (here → x.ctl.getLsbD 16 = false → x.state ≠ .disabled → noneStarted u x = true → exec (.queueDisabled n q) s = ends (set disable)) ∧
  (here → x.state = .active → x.ctl.getLsbD 17 = true → preemptDone u q = true → exec (.queuePreempted n q) s =
    ends (set fun y => leads .preempted { y with state := .preempted, ctl := y.ctl &&& 0xFFFFFFFFFFFDFFFF, head := none, won := false })) ∧
  (∀ x : Queue, ownerHere n s → q < 128 → queue? s q = some x → (∀ y ∈ s.p.queues, y.num ≠ q → y.held = []) →
    let m := min x.held.length (evSlots s.p - 1 - (s.p.regs.evwr - v).toNat)
    let posted := (x.held.take m).foldl (fun u h => evPut h.code q h.pkt h.value h.data u)
      { s with p := { s.p with regs := { s.p.regs with evrd := v } } }
    exec (.evrdWrite n v) s = .next (on (fun y =>
      if m = 0 then y
      else if m < x.held.length then { y with held := x.held.drop m }
      else x.held.getLast?.elim y fun h => enterState h.then_ h.err { y with held := [] }) posted))

/-- R270 to R272, R275, R276, R299, R321, R117. Commands of packets that end: a COPY writes its source bytes, of a piece that it has read already
those found then, to its destination piece by piece, then its signal takes its delta on the copy path; a BOB packet makes its moves likewise; an
uncorrectable error on the source moves nothing more and the packet ends with MEMORY_ERROR; a failed member aborts its bundle: the lowest-numbered one
that has failed stands, and the launches of the bundle all end and update no signal from then on, those that had not failed with PACKET_ABORTED, which
is the model's choice (notes/assumptions/85.md); one with a code of its own keeps it. Rests on the model's own reading in notes/assumptions/4.md and
46.md, and on its choice in notes/assumptions/85.md. -/
def Obligations.PacketEnds : Prop := ∀ (s : State) (n i b : Nat) (c : HubCopy) (m : BobPkt) (x : Bundle),
  let without := { s with p := { s.p with copies := s.p.copies.take i ++ s.p.copies.drop (i + 1) } }
  let copy := runsHere n s ∧ s.p.copies[i]? = some c
  let bobs := { s with p := { s.p with bobs := s.p.bobs.take i ++ s.p.bobs.drop (i + 1) } }
  let bob := runsHere n s ∧ s.p.bobs[i]? = some m
  let agent := agentGid n 0
  let free := calm s ∧ launch? s agent.t.l = none
  let copyEnds := fun (more : List Crossing) =>
    workRetire (some .copy) (⟨⟨agent, c.seq⟩, .copy, none, none, 0, none⟩ :: (more ++ c.reads ++ c.know)) c.queue c.pkt c.bundle c.mem c.csig
  let bobEnds := workRetire (some .bobbin) (⟨⟨agent, m.seq⟩, .bobbin, none, none, 0, none⟩ :: (m.reads ++ m.know)) m.queue m.pkt m.bundle m.mem m.csig
  let bad := BitVec.ofInt 64 (-83)
  let bits := fun (e : BitMove) => leNat (memBytes s.hbm e.src.addr (max 1 (e.w / 8)))
  let value := fun (e : BitMove) => e.val.getD (if e.w < 8 then bits e / 2 ^ e.sbit % 2 ^ e.w else bits e)
  let moved := m.moves.foldl (fun h e => (moveBytes agent e (value e) { s with hbm := h }).zipIdx.foldl (fun h y =>
    if m.keep.contains ⟨.phys, e.dst.addr + y.2⟩ then h else memPut h (e.dst.addr + y.2) y.1) h) s.hbm
  (copy → free → (∀ y ∈ c.pieces, y.src.loc.home = .phys ∧ y.dst.loc.home = .phys) → ∃ rs ts more, (∀ y ∈ more, y.op = ⟨agent, c.seq⟩) ∧
    exec (.hubCopyComplete n i) s = .next (copyEnds more none false { without with
      hbm := c.pieces.foldl (fun m y => memPutBytes m y.dst.loc.addr (y.val.getD (memBytes m y.src.loc.addr y.src.w))) s.hbm, recs := rs, rels := ts })) ∧
  (copy → poisoned s (accLocs ((c.pieces.filter fun y => y.val.isNone).map HubPiece.src)) = true →
    exec (.hubCopyComplete n i) s = .next (copyEnds [] (some bad) false without)) ∧
  (bob → free → (∀ e ∈ m.moves, e.src.home = .phys ∧ e.dst.home = .phys) → (m.moves.map fun e => (e.dst, e.dbit)).Nodup → ∃ rs ts,
    exec (.bobCommandComplete (.packet n i)) s = .next (bobEnds none false { bobs with hbm := moved, recs := rs, rels := ts })) ∧
  (bob → poisoned s (moveSrcs m.moves) = true → exec (.bobCommandComplete (.packet n i)) s = .next (bobEnds (some bad) false bobs)) ∧
  (∀ path know q pkt a d pa, virtByte s ⟨true, true, false⟩ a 8 = some pa → calm s → launch? s (agentGid s.p.num 2).t.l = none → ∃ rs,
    workRetire (some path) know q pkt none 0 (some (a, d)) none false s = { s with
      hbm := memPutNat s.hbm pa 8 (signalNew (BitVec.ofNat 64 (memNat s.hbm pa 8)) d).1.toNat
      p := { s.p with seqn := s.p.seqn + 1 }
      recs := rs
      rels := ⟨locsFrom ⟨.phys, pa⟩ 8, [], .sys, none, ⟨agentGid s.p.num 2, s.p.seqn⟩, 1, everyPath s know, [], s.tick⟩ :: s.rels }) ∧
  (∀ f, runsHere n s → s.p.bundles.find? (fun y => y.id = b) = some x → x.aborted = false → (failedMember s x).failed = some f →
    let member := fun (l : Launch) => l ∈ allLaunches s ∧ l.id.part = n ∧ l.bundle = some x.id ∧ l.code_ ≠ none
    (x.failed = some f ∨ ∃ l, member l ∧ l.code_ = some f.2 ∧ memberOfHandle l.id = f.1) ∧
    (∀ l, member l → f.1 ≤ memberOfHandle l.id) ∧
    ∃ u, exec (.bundleAbort n b) s = .next u ∧ (∀ k l, launch? s k = some l → k.part = n → l.bundle = some x.id →
      ∃ y, launch? u k = some y ∧ y.muted = true ∧ y.code_ = some (l.code_.getD (BitVec.ofInt 64 (-34)))) ∧
    (∀ y ∈ u.p.bundles, y.id = x.id → y.failed = some f ∧ y.aborted = true) ∧
    { u with l := s.l, launches := s.launches, p := s.p } = s)

/-- R295 to R297, R298, R307, R330. The system registers of a partition whose owner software may write them: a plain register takes a value that keeps
its rules, and keeps its old one against any other; ECCCNT clears the bits written as one; TINV forgets the cached translations of every page, or of
one; the record of a parked group takes the lowest free entry of its core, which is the model's choice (notes/assumptions/86.md); RETRY lets the group
replay its op, FAIL raises TRANSLATION at it; LAUNCHEND ends a launch on a negative value from the vector. What a translation gives (R292 to R294,
R327): the lowest-numbered entry of the range table that matches decides, else the page tables level by level, and then permissions, key and grants
are checked; a cached entry may serve in their place (R295). Rests on the model's own reading in notes/assumptions/7.md (tables outside the grants),
8.md and 86.md, and on its choice in 83.md (CONTIG above L0). -/
def Obligations.SystemRegisters : Prop := ∀ (s : State) (n num : Nat) (v : W64) (r : Park) (x : FbEntry),
  let mem := fun (a : Nat) => memNat s.hbm a 8
  let va := v.toNat
  let ent := fun (e : Nat) => s.p.regs.rtab.toNat + 32 * e
  let ctl := fun (e : Nat) => mem (ent e + 24)
  let matches_ := fun (e : Nat) => tableHeld s.p (ent e) = true ∧ tableHeld s.p (ent e + 24) = true ∧
    ctl e % 2 = 1 ∧ ctl e / 2 % 4 = 0 ∧ ctl e / 2 ^ 6 % 2 ^ 50 = 0 ∧ ctl e / 2 ^ 63 = 0 ∧
    mem (ent e) % 4096 = 0 ∧ mem (ent e + 8) % 4096 = 0 ∧ mem (ent e) ≤ va ∧ va < mem (ent e + 8)
  let may := fun (y i : Nat) => decide (y / 2 ^ i % 2 = 1)
  let index := fun (lv : Nat) => if lv = 3 then va / 2 ^ 39 % 2 ^ 17 else va / 2 ^ (12 + 9 * lv) % 2 ^ 9
  let pa := fun (y : Nat) => y / 2 ^ 12 % 2 ^ 32 * 2 ^ 12
  let broken := fun (lv table y : Nat) =>
    let leaf := y / 4 % 2 = 1
    let contig := y / 64 % 2 = 1
    let i := index lv
    let head := mem (table + 8 * (i - i % 16))
    y / 2 ^ 63 % 2 = 1 ∨ y / 2 ^ 44 % 2 ^ 12 ≠ 0 ∨ y / 2 ^ 7 % 2 ^ 5 ≠ 0 ∨ y / 2 % 2 = 1 ∨ (lv = 0 ∧ ¬leaf) ∨ (lv = 3 ∧ leaf) ∨ (lv ≠ 0 ∧ contig) ∨
    (leaf ∧ pa y % 2 ^ (12 + 9 * lv) ≠ 0) ∨
    (lv = 0 ∧ contig ∧ (head % 2 = 0 ∨ head / 64 % 2 = 0 ∨ head / 8 % 8 ≠ y / 8 % 8 ∨ head / 2 ^ 56 % 2 ^ 7 ≠ y / 2 ^ 56 % 2 ^ 7 ∨
      pa head % 2 ^ 16 ≠ 0 ∨ pa y ≠ pa head + i % 16 * 2 ^ 12))
  let checked := fun (w : Want) (len : Nat) (e : Entry) => match e with
    | .bad lv reason => .fault lv none reason
    | .leaf lv range a key rd wr ex =>
      if (w.read = true ∧ rd = false) ∨ (w.write = true ∧ wr = false) ∨ (w.exec = true ∧ ex = false) then .fault lv range 1
      else if key ∉ s.p.keys then .fault lv range 2
      else match s.p.grants.find? fun y => y.base ≤ a && a < y.base + y.size, s.p.grants.find? fun y => y.base ≤ a + (len - 1) && a + (len - 1) < y.base + y.size with
        | some y, some z => if y.slot = key ∧ z.slot = key then XR.ok a else .fault lv range 2
        | _, _ => .fault lv range 1
  (∀ e, e < 64 → matches_ e → (∀ j, j < e → ¬matches_ j) → lookup s.hbm s.p v =
    .leaf 0 (some e) ((va + mem (ent e + 16)) % 2 ^ 64) (ctl e / 2 ^ 56 % 2 ^ 7) (may (ctl e) 3) (may (ctl e) 4) (may (ctl e) 5)) ∧
  ((∀ e, e < 64 → ¬matches_ e) → lookup s.hbm s.p v = if s.p.regs.ptroot.toNat % 2 = 0 then .bad 3 0
    else walk s.hbm s.p va 3 (s.p.regs.ptroot.toNat / 2 ^ 20 % 2 ^ 24 * 2 ^ 20)) ∧
  (∀ lv table, lv ≤ 3 →
    let y := mem (table + 8 * index lv)
    walk s.hbm s.p va lv table = if tableHeld s.p (table + 8 * index lv) = false then .bad lv 1
      else if y % 2 = 0 then .bad lv 0
      else if broken lv table y then .bad lv 3
      else if y / 4 % 2 = 1 then .leaf lv none (pa y + va % 2 ^ (12 + 9 * lv)) (y / 2 ^ 56 % 2 ^ 7) (may y 3) (may y 4) (may y 5)
      else walk s.hbm s.p va (lv - 1) (pa y)) ∧
  (∀ w len, (∀ c ∈ s.p.tlb, c.vpn ≠ va / 2 ^ 12) → xlat s s.p w v len = checked w len (lookup s.hbm s.p v)) ∧
  (∀ w len, xlat s s.p w v len = checked w len (lookup s.hbm s.p v) ∨ ∃ c ∈ s.p.tlb, c.vpn = va / 2 ^ 12 ∧ xlat s s.p w v len =
    checked w len (.leaf c.level c.range ((c.pa + va % 2 ^ 12) % 2 ^ 64) c.key c.read c.write c.exec)) ∧
  let part := fun (f : Part → Part) => Host.Outcome.next { s with p := f s.p }
  let regs := fun (f : SysRegs → SysRegs) => part fun p => { p with regs := f p.regs }
  let here := ownerHere n s
  let plain := num ∈ [0x010, 0x011, 0x020, 0x021, 0x023, 0x024, 0x030, 0x031, 0x034, 0x040]
  let entry := here ∧ fbEntry s.p (v.toNat % 16) = some x
  let freed := { s with p := { s.p with fb := s.p.fb.filter fun y => y ≠ x } }
  (here → plain → fwValueOk num v = true → ∃ q, exec (.registerWrite n num v) s = regs q ∧ fwRead s { s.p with regs := q s.p.regs } num = v ∧
    ∀ m, m ≠ num → (m < 0x041 ∨ 0x044 < m) → fwRead s { s.p with regs := q s.p.regs } m = fwRead s s.p m) ∧
  (here → plain → fwValueOk num v = false → exec (.registerWrite n num v) s = .next s) ∧
  (here → exec (.ecccntClear n v) s = regs fun y => { y with ecccnt := y.ecccnt &&& ~~~v }) ∧
  (here → v.getLsbD 63 = true → exec (.tinvAll n v) s = part fun p => { p with tlb := [] }) ∧
  (here → v.getLsbD 63 = false → exec (.tinvPage n v) s =
    part fun p => { p with tlb := p.tlb.filter fun y => y.vpn % 2 ^ 44 ≠ v.toNat / 2 ^ 12 % 2 ^ 44 }) ∧
  (∀ e, inFocus s → s.g.park = some r → r.entry = none → r.failed = false → e < 16 → (¬∃ y ∈ s.p.fb, y.core = s.t.core ∧ y.entry = e) →
    (∀ j, j < e → ∃ y ∈ s.p.fb, y.core = s.t.core ∧ y.entry = j) → exec (.faultRecordWrite s.g.id) s = .next { s with
      g := { s.g with park := some { r with entry := some e } }
      p := { s.p with fb := s.p.fb ++ [⟨s.t.core, e, s.g.id, s.g.slot, { r with entry := some e }⟩] } }) ∧
  (∀ g, entry → (v.extractLsb' 4 2).toNat = 1 → group? s x.k = some g → ∃ u, exec (.fbresRetry n v) s = .next u ∧
    group? u x.k = some { g with park := none, wait := .none, since := s.tick } ∧ u.p = freed.p) ∧
  (entry → (v.extractLsb' 4 2).toNat = 2 → inFocus s → s.g.id = x.k → s.g.park = some r → waitsFrame s.g = false →
    exec (.fbresFail n v) s = .next (takeTrap (if s.g.pos = .fetch then s.g.slotB else s.g.pos = .b) (if s.g.pos = .fetch then 0 else s.g.word)
      ⟨18, 0, r.reason, 0, r.va, 0⟩
      { freed with g := { s.g with park := some { r with failed := true, entry := none } } })) ∧
  (inFocus s → s.g.hmode = true → s.g.vec = true → v.toInt < 0 → exec (.launchend s.g.id v) s = .next { s with
    l := { s.l with code_ := some (s.l.code_.getD v) } }) ∧
  (inFocus s → s.g.hmode = true → s.g.vec = true → 0 ≤ v.toInt → exec (.launchend s.g.id v) s = .next s)

/-- R309 to R314, R299. A context: a save is asked for and its deadline passes; a team whose groups stand still and are drained is saved, its record
in the pool and nothing of it resident; a restored team has its team state and its groups again, on a core that takes it; a record that is not the
sealed one ends the launch with RESTORE_INVALID, one with an uncorrectable error, there or in what a save reads, with MEMORY_ERROR (R299), since a
save and a restore read as any other access does, which is the model's reading (notes/assumptions/22.md). Rests on the model's own reading in
notes/assumptions/26.md, 49.md and 53.md, and on its choices in notes/assumptions/61.md and 95.md too. -/
def Obligations.Contexts : Prop := ∀ (s : State) (r : SaveReq) (x : Saved) (core b : Nat),
  let t := s.t.id
  let here := inFocus s ∧ s.p.tdisp = .run
  let gs := teamGroups s t
  let team := { s.t with slots := gs.foldl (fun m g => dropPartial g m) s.t.slots, save := none }
  let bytes := recAll s.l.kern team gs ++ recScratch s team
  let found := s.p.saved.find? (fun y => y.team.id = x.team.id) = some x ∧ launchHere x.team.id.l s ∧ s.l.held = false ∧ s.l.code_ = none
  let saved := found ∧ poisoned s (savedLocs s x) = false ∧ s.dev.corrected = []
  let ends := fun (c : Int) => Host.Outcome.next { s with l := { s.l with code_ := some (BitVec.ofInt 64 c) } }
  (here → s.t.save = none → exec (.firmwareSaveRequest t) s = .next { s with t := { s.t with save := some ⟨s.now, false⟩ } }) ∧
  (here → s.t.save = some r → r.at_ + s.p.regs.pdeadline.toNat ≤ s.now → exec (.pdeadlineExpiry t) s =
    .next { s with t := { s.t with save := some { r with expired := true } } }) ∧
  (here → s.t.save = some r → s.now < r.at_ + s.p.regs.pdeadline.toNat → exec (.pdeadlineExpiry t) s = .next s) ∧
  let due := here ∧ s.l.code_ = none ∧ s.t.save = some r ∧ ∀ g ∈ gs, still r.expired g = true ∧ drained g = true
  (due → s.dev.poison.any (saveLine s s.t) = true → exec (.teamSave t) s = ends (-83)) ∧
  (∀ key a v, due → s.dev.poison.any (saveLine s s.t) = false → s.dev.corrected = [] → s.p.sealKey = some key →
    poolPlace s.p bytes.length = some a → virtWrite (s.p.regs.spillbase + BitVec.ofNat 64 a) bytes s = some v →
    ∃ u, exec (.teamSave t) s = .next u ∧ u.hbm = v.hbm ∧ allTeams u = s.teams.filter Team.live ∧
      (∀ n, group? u ⟨t, n⟩ = none) ∧ (∀ k, k.t ≠ t → group? u k = group? s k) ∧
      u.p = { s.p with saved := s.p.saved ++ [⟨a, team, gs.map asleep, bytes, Config.sealDigest key bytes⟩]
                       fb := s.p.fb.filter fun e => e.k.t ≠ t }) ∧
  (saved → sealHolds s x = true → restoreCore s x core = true → restoreBlock s core x.team.regs = some b → ∃ u, exec (.restore x.team.id core) s = .next u ∧
    (∃ y ∈ u.teams, y = { x.team with core := core, block := b }) ∧ (∀ y ∈ u.p.saved, y.team.id ≠ x.team.id) ∧
    (∀ (i : Nat) (g : Group), x.groups[i]? = some g → ∃ h ∈ u.groups, h.id = g.id ∧ h.s = g.s ∧ h.p = g.p ∧ h.k = g.k ∧ h.n = g.n ∧ h.v = g.v ∧ h.acc = g.acc ∧
      h.maps = g.maps ∧ h.pc = g.pc ∧ h.slotB = g.slotB ∧ h.harea = g.harea ∧ h.clkr = g.clkr ∧ h.hmode = g.hmode ∧ h.rf = g.rf ∧ h.bound = g.bound)) ∧
  (saved → sealHolds s x = false → exec (.restore x.team.id core) s = ends (-86)) ∧
  (found → poisoned s (savedLocs s x) = true → exec (.restore x.team.id core) s = ends (-83))

/-- R331 to R335, R341, R342, R354. The management commands of a session that is the owner's: each takes what it names and answers 0, a bad argument
3, a resource that is taken 2; outside such a session the answer is 1, before READY there is none; one that names a locked or running partition
answers 1 and moves it to ERROR, where nothing of it is left running; one behind a LOCK that waits for a scrub waits, and every later one behind it,
whatever it names, to be executed in the order of their arrival. MGMT_STATUS is always answered. A scrub zeroes a grant, or everything of a partition,
and nothing else of memory, and the lines it writes hold no error any more. Rests on the model's own reading in notes/assumptions/44.md and 75.md, and
on its choices in notes/assumptions/43.md and 109.md. -/
def Obligations.Management : Prop := ∀ (s : State) (ses : Option Nat) (p : Nat) (v : W64) (num : Nat),
  let owner := s.dev.ready = true ∧ ∃ x, devSession s ses = some x ∧ ownerSession s x = true
  let next := s.dev.waiting = []
  let unlocked := owner ∧ next ∧ partHere p s ∧ p ≤ 15 ∧ s.p.tdisp = .unlocked ∧ s.p.lockWait = 0
  let waits := fun (i : Instr) (ok : Bool) => Host.Outcome.next { s with dev := { s.dev with waiting := s.dev.waiting ++ [⟨i, ok⟩] } }
  let ans := fun (c : Nat) (u : State) => Host.Outcome.next (reply (.status c) u)
  let part := fun (f : Part → Part) => ans 0 { s with p := f s.p }
  let setup := fun (h q n base size slot : Nat) =>
    [Instr.partAddHalf ses p h, .partAddQueue ses p q, .partAddKeys ses p n, .partAddMem ses p base size slot, .partSetReg ses p num v]
  let zeroed := fun (u : State) (gs : List Grant) => ∀ a, memGet u.hbm a =
    if (∃ g ∈ gs, g.base ≤ a ∧ a < g.base + g.size) then 0 else memGet s.hbm a
  (owner → next → p ≤ 15 → part? s p = none → exec (.partCreate ses p) s = ans 0 { s with parts := s.parts ++ [{ Part.idle with num := p, live := true }] }) ∧
  (∀ h, unlocked → h ≤ 15 → (∀ x ∈ allParts s, h ∉ x.halves) → exec (.partAddHalf ses p h) s = part fun x => { x with halves := h :: x.halves }) ∧
  (∀ h, unlocked → h ≤ 15 → (∃ x ∈ allParts s, h ∈ x.halves) → exec (.partAddHalf ses p h) s = ans 2 s) ∧
  (∀ q, unlocked → q ≤ 127 → (∀ x ∈ allParts s, ∀ y ∈ x.queues, y.num ≠ q) →
    exec (.partAddQueue ses p q) s = part fun x => { x with queues := x.queues ++ [newQueue q] }) ∧
  (∀ n ks, unlocked → ks = (freeKeys s).take n → ks.length = n → exec (.partAddKeys ses p n) s =
    ans 0 { s with p := { s.p with keys := s.p.keys ++ ks }, dev := ks.foldl (fun d k => drawKey k d) s.dev }) ∧
  (∀ base size slot, unlocked → 2 ^ 30 ∣ base → 2 ^ 30 ∣ size → 0 < size → base + size ≤ 0xC000000000 → slot ∈ s.p.keys → s.p.grants.length < 64 →
    (∀ x ∈ allParts s, ∀ g ∈ x.grants, meetR (g.base, g.size) (base, size) = false) →
    exec (.partAddMem ses p base size slot) s = part fun x => { x with grants := x.grants ++ [⟨base, size, slot, true⟩] }) ∧
  (unlocked → fwWritable num = true → fwValueOk num v = true → exec (.partSetReg ses p num v) s = part (fwWrite num v)) ∧
  (unlocked → (fwWritable num = false ∨ fwValueOk num v = false) → exec (.partSetReg ses p num v) s = ans 3 s) ∧
  (owner → next → partHere p s → p ≤ 15 → exec (.partDestroy ses p) s = ans 0 (startScrub true s)) ∧
  (∀ h q n base size slot, owner → next → partHere p s → p ≤ 15 → s.p.lockWait = 0 → (s.p.tdisp = .locked ∨ s.p.tdisp = .run) →
    ∀ i ∈ .partCreate ses p :: setup h q n base size slot, exec i s = ans 1 (toError s)) ∧
  (∀ h q n base size slot, owner → partHere p s → p ≤ 15 → 0 < s.p.lockWait → ∀ i ∈ .partCreate ses p :: setup h q n base size slot,
    exec i s = waits i true) ∧
  (∀ h q n base size slot own, s.dev.ready = true → ¬next → ∀ i ∈ .partCreate ses p :: .partDestroy ses p :: setup h q n base size slot,
    (owner → exec i s = waits i true) ∧ (¬owner → exec i s = waits i false) ∧ exec .mgmtStatus s = waits .mgmtStatus true ∧
    exec (.setOwnerhash ses own) s = waits (.setOwnerhash ses own) (devSession s ses).isSome) ∧
  (∀ c cs, executeAll (c :: cs) s = match doReceived c s with
    | some u => executeAll cs u
    | none => { s with dev := { s.dev with waiting := c :: cs } }) ∧
  (∀ h q n base size slot, ∀ i ∈ .partCreate ses p :: .partDestroy ses p :: setup h q n base size slot,
    (s.dev.ready = false → exec i s = .next s) ∧ (s.dev.ready = true → ¬owner → next → exec i s = ans 1 s)) ∧
  ((next ∨ s.dev.ready = false) → ∃ w : W64, exec .mgmtStatus s = .next (reply (.word w) s) ∧ w.getLsbD 0 = s.dev.ready ∧ w.getLsbD 1 = s.dev.throttle ∧
    (w.extractLsb' 16 4).toNat = s.dev.stage % 16 ∧ (w.extractLsb' 24 8).toNat = s.dev.fault % 256 ∧ ∀ n, n < 16 → w.getLsbD (32 + n) = (part? s n).isSome) ∧
  (∀ h x, s.dev.ready = true → next → devSession s ses = some x → s.dev.ownerHash = none → exec (.setOwnerhash ses h) s =
    ans 0 { s with dev := { s.dev with ownerHash := some h, sessions := s.dev.sessions.filter fun x => !x.prov } }) ∧
  (∀ h, s.dev.ready = true → next → (devSession s ses = none ∨ s.dev.ownerHash ≠ none) → exec (.setOwnerhash ses h) s = ans 1 s) ∧
  (∀ i g, partHere p s → s.p.grants[i]? = some g → g.scrubbing = true → ∃ u, exec (.grantScrubComplete p i) s = .next u ∧ zeroed u [g] ∧
    u.p = { s.p with grants := s.p.grants.modify i fun g => { g with scrubbing := false } } ∧
    let in_ := fun (l : Home × Nat) => l.1 = .phys ∧ g.base ≤ l.2 * 32 ∧ l.2 * 32 < g.base + g.size
    (∀ l, (l ∈ u.dev.poison ↔ l ∈ s.dev.poison ∧ ¬in_ l) ∧ (l ∈ u.dev.corrected ↔ l ∈ s.dev.corrected ∧ ¬in_ l)) ∧
    { u with hbm := s.hbm, p := s.p, dev := { u.dev with poison := s.dev.poison, corrected := s.dev.corrected } } = s) ∧
  (let u := toError s
   u.p.tdisp = .error ∧ u.hbm = s.hbm ∧ (∀ k, k.t.l.part = s.p.num → group? u k = none) ∧ (∀ k, k.t.l.part ≠ s.p.num → group? u k = group? s k) ∧
    (∀ r ∈ u.rels, r.op.k.t.l.part ≠ s.p.num) ∧ u.p.copies = [] ∧ u.p.bobs = [] ∧ u.p.bundles = []) ∧
  (∀ release, partHere p s → s.p.scrub = some release → ∃ u, exec (.partitionScrubComplete p) s = .next u ∧ zeroed u s.p.grants ∧ u.p.live = !release ∧
    u.p.tdisp = .unlocked ∧ u.p.regs = .reset ∧ u.p.sessions = [] ∧ u.p.sealKey = none ∧ u.p.saved = [] ∧ u.p.scrub = none ∧ u.p.halves = s.p.halves ∧
    (∀ l, linePart s.p l = true → l ∉ u.dev.poison ∧ l ∉ u.dev.corrected) ∧ (∀ e ∈ u.dev.transcripts, e.1 ≠ p) ∧
    u.p.keys = s.p.keys ∧ u.p.grants = s.p.grants ∧ (∀ q ∈ u.p.queues, q.state = .disabled ∧ q.write = 0 ∧ q.read = 0) ∧ u.dev.draws = s.dev.draws + s.p.keys.length)

/-- R329 to R331, R282, R336, R345. The interface of a partition, asked inside a completed session of it: LOCK from CONFIG_UNLOCKED, which takes
effect with a nonce at once where no scrub runs, and else when the last one has ended: of several that wait each is then answered, the ones after the
first as in the wrong state, and then the management commands that wait have their turn, of which one that names the partition is refused and moves it
to ERROR; START from CONFIG_LOCKED with that nonce; STOP from any other state, which begins the scrub; the state; and the report outside ERROR, signed
over the transcript. A request in the wrong state, or with the wrong nonce, is refused, and one outside a session is InvalidSession; none of them
changes the partition. Every request and its answer join the transcript. VENDOR_DEFINED_REQUEST carries each of them. Before READY no request is
answered (R354). Rests on the model's own reading in notes/assumptions/44.md, 50.md, 53.md, 63.md, 75.md and 76.md, and on its choices in
notes/assumptions/64.md, 109.md and 110.md. -/
def Obligations.Interface : Prop := ∀ (s : State) (p ses : Nat) (nonce : BitVec 256),
  let here := s.dev.ready = true ∧ partHere p s ∧ ∃ x ∈ s.p.sessions, x.id = ses ∧ x.fin = true
  let said := fun (m : List SpdmMsg) (u : State) =>
    ({ u with dev := { u.dev with transcripts := (p, transcript s p ++ m) :: s.dev.transcripts.filter fun e => e.1 ≠ p } } : State)
  let asked := fun (q : TdispReq) => (⟨false, 0xFE, leBytes 4 ses ++ tdispBytes q⟩ : SpdmMsg)
  let ans := fun (q : TdispReq) (r : Reply) (u : State) => Host.Outcome.next (reply r (said [asked q, ⟨true, 0xFE, replyBytes r⟩] u))
  let wrong := fun (q : TdispReq) => ans q (.tdispError .invalidInterfaceState) s
  let requests : List (Instr × TdispReq) := [(.lockInterfaceRequest p ses, .lock), (.startInterfaceRequest p ses nonce, .start nonce),
    (.stopInterfaceRequest p ses, .stop), (.getDeviceInterfaceState p ses, .state), (.getDeviceInterfaceReport p ses nonce, .report nonce)]
  let scrubs := s.p.scrub ≠ none ∨ ∃ g ∈ s.p.grants, g.scrubbing = true
  let drawn := Config.nonce s.dev.draws
  let locked := { s with
    p := { s.p with tdisp := .locked, lockWait := 0, nonce := some drawn, sealKey := some (s.p.sealKey.getD (s.dev.draws + 1)) }
    dev := { s.dev with draws := s.dev.draws + 2 } }
  let late := Reply.tdispError .invalidInterfaceState
  let afterLock := times (reply late) (s.p.lockWait - 1) (reply (.nonce drawn) (said (⟨true, 0xFE, replyBytes (.nonce drawn)⟩ ::
    List.replicate (s.p.lockWait - 1) ⟨true, 0xFE, replyBytes late⟩) locked))
  (here → s.p.tdisp = .unlocked → s.p.lockWait = 0 → s.dev.waiting = [] → ¬scrubs → exec (.lockInterfaceRequest p ses) s = ans .lock (.nonce drawn) locked) ∧
  (here → s.p.tdisp = .unlocked → ¬scrubs → exec (.lockInterfaceRequest p ses) s =
    .next (executeAll s.dev.waiting (times (reply late) s.p.lockWait (reply (.nonce drawn) (said (asked .lock ::
      ⟨true, 0xFE, replyBytes (.nonce drawn)⟩ :: List.replicate s.p.lockWait ⟨true, 0xFE, replyBytes late⟩) locked))))) ∧
  (here → ((s.p.tdisp = .unlocked ∧ scrubs) ∨ (s.p.tdisp ≠ .unlocked ∧ s.p.scrub = some false)) →
    s.dev.waiting = [] → exec (.lockInterfaceRequest p ses) s = .next (said [asked .lock] { s with p := { s.p with lockWait := s.p.lockWait + 1 } })) ∧
  (here → s.p.tdisp ≠ .unlocked → s.p.scrub ≠ some false → s.dev.waiting = [] → exec (.lockInterfaceRequest p ses) s = wrong .lock) ∧
  (partHere p s → 0 < s.p.lockWait → s.p.tdisp = .unlocked → ¬scrubs → exec (.lockCompletion p) s =
    .next (if s.dev.ready then executeAll s.dev.waiting afterLock else afterLock)) ∧
  (∀ h c, partHere p s → p ≤ 15 → s.p.tdisp = .locked → s.p.lockWait = 0 →
    doReceived ⟨.partAddHalf c p h, true⟩ s = some (reply (.status 1) (toError s))) ∧
  (partHere p s → scrubs → s.dev.waiting = [] → exec (.lockCompletion p) s = .next s) ∧
  (here → s.p.tdisp = .locked → s.p.nonce = some nonce → exec (.startInterfaceRequest p ses nonce) s = ans (.start nonce) .tdispOk { s with
    p := { s.p with tdisp := .run, rtime0 := some s.now, lot := if s.p.regs.lotseed = 0 then 1 else s.p.regs.lotseed } }) ∧
  (here → s.p.tdisp = .locked → s.p.nonce ≠ some nonce → exec (.startInterfaceRequest p ses nonce) s =
    ans (.start nonce) (.tdispError .invalidRequest) s) ∧
  (here → s.p.tdisp ≠ .locked → exec (.startInterfaceRequest p ses nonce) s = wrong (.start nonce)) ∧
  (here → s.p.tdisp ≠ .unlocked → s.p.scrub = none → s.p.lockWait = 0 → ∃ u,
    exec (.stopInterfaceRequest p ses) s = ans .stop .tdispOk u ∧ u.p.tdisp = .error ∧
    u.p.scrub = some false ∧ u.hbm = s.hbm ∧ (∀ k, k.t.l.part = p → group? u k = none) ∧ (∀ k, k.t.l.part ≠ p → group? u k = group? s k)) ∧
  (here → (s.p.tdisp = .unlocked ∨ s.p.scrub ≠ none) → exec (.stopInterfaceRequest p ses) s = wrong .stop) ∧
  (here → exec (.getDeviceInterfaceState p ses) s = ans .state (.tdispState s.p.tdisp) s) ∧
  (here → s.p.tdisp ≠ .error → exec (.getDeviceInterfaceReport p ses nonce) s = ans (.report nonce) (.signed (reportBytes s)
    (Config.signature ((transcript s p ++ [asked (.report nonce), ⟨true, 0xFE, reportBytes s⟩]).map fun m => (m.sent, m.code, m.body))).toList) s) ∧
  (here → s.p.tdisp = .error → exec (.getDeviceInterfaceReport p ses nonce) s = wrong (.report nonce)) ∧
  (∀ i ∈ requests, (s.dev.ready = true → partHere p s → (¬∃ x ∈ s.p.sessions, x.id = ses ∧ x.fin = true) →
      exec i.1 s = ans i.2 (.spdmError .invalidSession) s) ∧
    (s.dev.ready = false → exec i.1 s = .next s) ∧ (p ≠ 0xFFFF → exec (.vendorDefinedRequest p ses i.2) s = exec i.1 s))

/-- R336 to R339, R332, R343, R345, R347, R354. The SPDM responder at the device level: the negotiation takes the one algorithm set and no other; a
session opens only after it, within the limit, and with the owner's key where one is set; FINISH completes it, HEARTBEAT and KEY_UPDATE ask for a
completed one, END_SESSION ends it; the signed answers are over the whole conversation since GET_VERSION, the requester's nonce in it; a
vendor-defined request is answered inside a completed session; an unknown code is refused. Every request and its answer join the transcript. SEND
delivers an accepted message and drops and counts every other; a packet in another mode is dropped and counted. Rests on the model's own reading in
notes/assumptions/47.md, 50.md, 52.md and 63.md, and on its choices in notes/assumptions/29.md and 64.md. -/
def Obligations.Responder : Prop := ∀ (s : State) (nonce : BitVec 256) (ses : Nat),
  let ready := s.dev.ready = true
  let tgt := 0xFFFF
  let earlier := fun (code : Nat) => if code = 0x84 then [] else transcript s tgt
  let ans := fun (code : Nat) (body : List Byte) (r : Reply) (u : State) => Host.Outcome.next (reply r { u with dev := { u.dev with
    transcripts := (tgt, earlier code ++ [⟨false, code, body⟩, ⟨true, code, replyBytes r⟩]) :: s.dev.transcripts.filter fun e => e.1 ≠ tgt } })
  let dev := fun (f : Module → Module) => ({ s with dev := f s.dev } : State)
  let tick := { s with tick := s.tick + 1 }
  let standard := fun (code : Nat) (body : List Byte) => ans code body (.spdm code (Config.spdmPayload code s.tick)) tick
  let signed := fun (code : Nat) (body : List Byte) (u : State) =>
    let m : List SpdmMsg := transcript s tgt ++ [⟨false, code, leBytes 32 nonce.toNat⟩, ⟨true, code, body⟩]
    ans code (leBytes 32 nonce.toNat) (.signed body (Config.signature (m.map fun x => (x.sent, x.code, x.body))).toList) u
  let id4 := leBytes 4 ses
  let refused := fun (code : Nat) (body : List Byte) (e : SpdmErr) => ans code body (.spdmError e) s
  let has := ∃ x ∈ s.dev.sessions, x.id = ses ∧ x.fin = true
  let dropped := dev fun d => { d with dropped := d.dropped + 1 }
  let opens := fun (req : Option (BitVec 512)) (ek : List (BitVec 8)) => (req.elim [] fun d => leBytes 64 d.toNat) ++ ek
  let free := s.dev.ownerHash = none
  (ready → exec (.getVersion tgt) s = standard 0x84 []) ∧
  (ready → exec (.getCapabilities tgt) s = standard 0xE1 []) ∧
  (ready → exec (.negotiateAlgorithms tgt deviceOffer) s = ans 0xE3 (offerBytes deviceOffer) (.algorithms deviceOffer)
    (dev fun d => { d with negotiated := tgt :: d.negotiated.filter fun t => t ≠ tgt })) ∧
  (∀ o, ready → o ≠ deviceOffer → exec (.negotiateAlgorithms tgt o) s =
    ans 0xE3 (offerBytes o) (.spdmError .negotiationFail) (dev fun d => { d with negotiated := d.negotiated.filter fun t => t ≠ tgt })) ∧
  (ready → exec (.getDigests tgt) s = ans 0x81 [] (.spdm 0x81 (leBytes 64 (shake256 certificateChain).toNat)) s) ∧
  (ready → exec (.getCertificate tgt) s = ans 0x82 [] (.spdm 0x82 certificateChain) s) ∧
  (ready → exec (.challenge tgt nonce) s = signed 0x83 (Config.spdmPayload 0x83 s.tick) tick) ∧
  (ready → exec (.getMeasurements tgt nonce) s = signed 0xE0 (measureBytes s.dev) s) ∧
  (∀ req ek, ready → tgt ∈ s.dev.negotiated → ek.length = 1568 → s.dev.sessions.length < 8 → (free ∨ (req ≠ none ∧ req = s.dev.ownerHash)) →
    exec (.keyExchange tgt req ek) s = ans 0xE4 (opens req ek) (.session s.dev.nextSession (Config.exchangeData ek s.tick).toList)
      { tick with dev := { s.dev with
        nextSession := s.dev.nextSession + 1
        sessions := s.dev.sessions ++ [⟨s.dev.nextSession, tgt, req, s.dev.ownerHash.isNone, false, 0⟩] } }) ∧
  (∀ req ek, ready → (tgt ∉ s.dev.negotiated ∨ ek.length ≠ 1568) → exec (.keyExchange tgt req ek) s = refused 0xE4 (opens req ek) .negotiationFail) ∧
  (∀ req ek, ready → tgt ∈ s.dev.negotiated → ek.length = 1568 → 8 ≤ s.dev.sessions.length →
    exec (.keyExchange tgt req ek) s = refused 0xE4 (opens req ek) .sessionLimitExceeded) ∧
  (∀ req ek, ready → tgt ∈ s.dev.negotiated → ek.length = 1568 → s.dev.sessions.length < 8 → ¬free → (req = none ∨ req ≠ s.dev.ownerHash) →
    exec (.keyExchange tgt req ek) s = refused 0xE4 (opens req ek) .invalidSession) ∧
  (ready → (∃ x ∈ s.dev.sessions, x.id = ses ∧ x.fin = false) → exec (.finish tgt ses) s =
    ans 0xE5 id4 .ack (dev fun d => { d with sessions := d.sessions.map fun x => if x.id = ses then { x with fin := true } else x })) ∧
  (ready → has → exec (.heartbeat tgt ses) s = ans 0xE8 id4 .ack s) ∧
  (ready → has → exec (.keyUpdate tgt ses) s =
    ans 0xE9 id4 .ack (dev fun d => { d with sessions := d.sessions.map fun x => if x.id = ses then { x with epoch := x.epoch + 1 } else x })) ∧
  (ready → ¬has → exec (.heartbeat tgt ses) s = refused 0xE8 id4 .invalidSession ∧ exec (.keyUpdate tgt ses) s = refused 0xE9 id4 .invalidSession) ∧
  (ready → (∃ x ∈ s.dev.sessions, x.id = ses) → exec (.endSession tgt ses) s =
    ans 0xEC id4 .ack (dev fun d => { d with sessions := d.sessions.filter fun x => x.id ≠ ses })) ∧
  (∀ r, ready → has → exec (.vendorDefinedRequest tgt ses r) s = standard 0xFE (id4 ++ tdispBytes r)) ∧
  (∀ r, ready → ¬has → exec (.vendorDefinedRequest tgt ses r) s = refused 0xFE (id4 ++ tdispBytes r) .invalidSession) ∧
  (∀ c, ready → c ∉ spdmCodes → exec (.unsupportedRequest tgt c) s = refused c [] .unsupportedRequest) ∧
  (∀ i ∈ [Instr.getVersion tgt, .getCapabilities tgt, .getDigests tgt, .getCertificate tgt, .challenge tgt nonce, .getMeasurements tgt nonce, .finish tgt ses,
    .heartbeat tgt ses, .keyUpdate tgt ses, .endSession tgt ses], s.dev.ready = false → exec i s = .next s) ∧
  (∀ job rud se msg, (job ≠ 0 ∨ rud = false ∨ headerAccepted s msg = false) → exec (.send job rud se msg) s = .next dropped) ∧
  (∀ se msg, headerAccepted s msg = true → (nat_ msg 0 1 ≠ 3 ∨ devSession s se ≠ none) → exec (.send 0 true se msg) s = .next s) ∧
  (∀ port : Fin 12, exec (.otherModePacket port) s = .next dropped)

/-- R120, R122, R299, R330, R348. The host path into a running partition whose secure domain has keys: a write, a read and the three atomics act on
translated bytes, a byte of a write standing before a write on another path where nothing orders the two, an atomic returning the old value and
releasing at .sys all the host has written and acquired; what a read finds released the host has acquired; an access outside the domain, in another
state, or whose page does not translate is performed in no part and answered with a negative acknowledgement. That a read or an atomic of a line with
an uncorrectable error, which by R299 delivers nothing, is answered by a negative acknowledgement too is the model's choice (notes/assumptions/99.md).
Rests on the model's own reading in notes/assumptions/4.md and 52.md too. -/
def Obligations.HostAccess : Prop := ∀ (s : State) (n : Nat) (va d e : W64) (data : List Byte) (len pa : Nat),
  let here := runsHere n s ∧ s.p.secDomain ≠ none
  let ans := fun (r : Reply) (u : State) => Host.Outcome.next (reply r u)
  let rd : Want := ⟨true, false, false⟩
  let wr : Want := ⟨false, true, false⟩
  let rw : Want := ⟨true, true, false⟩
  let op : OpId := ⟨agentGid n 1, s.p.seqn⟩
  let alone := launch? s (agentGid n 1).t.l = none
  let acquired := fun (as : List Loc) => (agentKnow s true (plainly as) ++ s.p.hostKnow).eraseDups
  let one := here ∧ calm s ∧ alone ∧ va.toNat % 4096 ≤ 4088 ∧ virtByte s rw va 8 = some pa
  let word := locsFrom ⟨.phys, pa⟩ 8
  let old := BitVec.ofNat 64 (memNat s.hbm pa 8)
  let atomic := fun (r : Out) (new : W64) => ∃ rs, r = ans (.data (leBytes 8 old.toNat)) { s with
    hbm := memPutNat s.hbm pa 8 new.toNat
    p := { s.p with seqn := s.p.seqn + 1, hostKnow := acquired word }
    recs := rs
    rels := ⟨word, [], .sys, none, op, 0, acquired word, [op], s.tick⟩ :: s.rels }
  let atomics := [Instr.atomicAdd (some n) va d, .swap (some n) va d, .compareAndSwap (some n) va e d]
  let written := virtRuns s wr va data.length
  let read := runLocs (virtRuns s rd va len)
  (here → alone → (∀ r ∈ s.recs, r.path = .host) → virtBad s wr va data.length = none → ∃ rs, exec (.rmaWrite (some n) va data) s = ans .ack { s with
    hbm := putRuns written data s.hbm
    p := { s.p with seqn := s.p.seqn + 1 }
    recs := rs
    rels := (written.foldl (fun u r => endRels op ⟨.phys, r.2.1⟩ r.2.2 u) s).rels }) ∧
  (here → alone → virtBad s wr va data.length = none → ∃ m rs ts i, exec (.rmaWrite (some n) va data) s = ans .ack { s with
      hbm := m, p := { s.p with seqn := s.p.seqn + 1 }, recs := rs, rels := ts, tick := i } ∧
    ∀ a, memGet m a = memGet s.hbm a ∨ ∃ y ∈ (runLocs written).zip data, y.1.addr = a ∧ memGet m a = y.2) ∧
  (∀ bs, here → calm s → virtRead s va len = some bs → exec (.rmaRead (some n) va len) s = ans (.data bs) { s with
    p := { s.p with hostKnow := acquired read } }) ∧
  (one → atomic (exec (.atomicAdd (some n) va d) s) (old + d)) ∧
  (one → atomic (exec (.swap (some n) va d) s) d) ∧
  (one → atomic (exec (.compareAndSwap (some n) va e d) s) (if old = e then d else old)) ∧
  (here → virtBad s wr va data.length ≠ none → ∃ r, exec (.rmaWrite (some n) va data) s = ans (.nack r) s) ∧
  (here → virtBad s rd va len ≠ none → ∃ r, exec (.rmaRead (some n) va len) s = ans (.nack r) s) ∧
  (here → virtBad s rw va 8 ≠ none → ∃ r, ∀ i ∈ atomics, exec i s = ans (.nack r) s) ∧
  (here → virtBad s rd va len = none → poisoned s read = true → exec (.rmaRead (some n) va len) s = ans (.nack none) s) ∧
  (here → va.toNat % 4096 ≤ 4088 → virtByte s rw va 8 = some pa → poisoned s word = true → ∀ i ∈ atomics, exec i s = ans (.nack none) s) ∧
  (partHere n s → (s.p.secDomain = none ∨ s.p.tdisp ≠ .run) → ∀ i ∈ .rmaWrite (some n) va data :: .rmaRead (some n) va len :: atomics,
    exec i s = ans (.nack none) s) ∧
  (∀ i ∈ [Instr.rmaWrite none va data, .rmaRead none va len, .atomicAdd none va d, .swap none va d, .compareAndSwap none va e d],
    exec i s = ans (.nack none) s)

/-- R344, R350 to R354. The events of the module. A module fault clears READY, sets its code and moves every locked or running partition to ERROR; a
link retrains after 16 failed retries; throttling lowers the clock by 50 MHz and its end restores it; a reset begins stage 1 with no partition; each
bring-up stage follows the one before it, extends its measurements, and the last zeroes memory and sets READY; a stage that fails sets its fault code
and stops. Rests on the model's own reading in notes/assumptions/22.md, 50.md and 51.md, and on its choices in notes/assumptions/29.md and 62.md. -/
def Obligations.ModuleEvents : Prop := ∀ (s : State) (link : Fin 8) (line : Nat) (r : StageResult) (ports : List (Fin 12)),
  let retries := retriesOf s.dev link
  let at_ := fun (n : Nat) => (Home.phys, n)
  let dev := fun (f : Module → Module) => Host.Outcome.next { s with dev := f s.dev }
  let faults := fun (i : Instr) (code : Nat) => ∃ u, exec i s = .next u ∧ u.dev = { s.dev with fault := code, ready := false } ∧ u.hbm = s.hbm ∧
    ∀ n p, n < 16 → part? s n = some p → ∃ q, part? u n = some q ∧
      (q.tdisp = if p.tdisp = .locked ∨ p.tdisp = .run then .error else p.tdisp)
  let stands := fun (n : Nat) => s.dev.stage = n ∧ s.dev.ready = false ∧ (s.dev.fault = 0 ∨ s.dev.fault = 2)
  let next := fun (n : Nat) (f : Module → Module) => dev fun d => f { d with stage := n }
  let fresh := { Module.reset with stage := 1, ownerHash := s.dev.ownerHash, ownerHashM4 := s.dev.ownerHash, draws := s.dev.draws, out := s.dev.out }
  (16 ≤ retries → faults (.linkRetrain link false) 1) ∧ faults (.railOutOfRange line) 3 ∧ faults .criticalTemperature 4 ∧ faults .seloreMemoryError 5 ∧
  (16 ≤ retries → exec (.linkRetrain link true) s = dev fun d => { d with
    retries := (link, 0) :: d.retries.filter (fun e => e.1 ≠ link), retrains := d.retrains + 1 }) ∧
  (∀ ok, retries < 16 → exec (.linkRetrain link ok) s = .next s) ∧
  (exec (.flitRetry link) s = dev fun d => { d with retries := (link, min 16 (retries + 1)) :: d.retries.filter fun e => e.1 ≠ link }) ∧
  (at_ line ∉ s.dev.corrected → at_ line ∉ s.dev.poison → exec (.patrolScrub line) s = .next s) ∧
  ((at_ line ∈ s.dev.corrected ∨ at_ line ∈ s.dev.poison) → ∃ u, exec (.patrolScrub line) s = .next u ∧
    u.dev = { s.dev with corrected := s.dev.corrected.filter fun l => l ≠ at_ line } ∧
    u.p.regs.ecccnt = (if s.p.live = true ∧ (grantOf s.p (line * 32)).isSome = true ∧ s.p.regs.ecccnt ≠ 0xFFFFFFFFFFFFFFFF then s.p.regs.ecccnt + 1
      else s.p.regs.ecccnt) ∧ u.hbm = s.hbm) ∧
  exec .throttle s = dev (fun d => { d with clockMHz := d.clockMHz - 50, throttle := true }) ∧
  exec .throttleRestore s = dev (fun d => { d with clockMHz := 1000, throttle := false }) ∧
  exec (.moduleReset r) s = .next { State.reset with
    hbm := s.hbm, agenda := s.agenda, now := s.now, tick := s.tick, dev := if r = .ok then fresh else { fresh with fault := stageFault r } } ∧
  (stands 1 → exec (.measurement .ok) s = next 2 fun d =>
    let e := extend 2 (Config.firmware 2) (extend 1 (Config.firmware 1) (extend 0 (Config.firmware 0) d))
    let b := fun (j : Nat) => [BitVec.ofNat 8 ((Config.signatureStatus j).toNat % 3)]
    extend 5 (b 2) (extend 5 (b 1) (extend 5 (b 0) e))) ∧
  (stands 2 → exec (.firmwareLoad .ok) s = next 3 id) ∧
  (stands 3 → exec (.selfCalibration .ok ports) s = next 4 fun d =>
    { extend 4 Config.repairMap (extend 4 (leBytes 64 (d.ownerHashM4.getD 0).toNat) (extend 3 Config.calibration d)) with
      deadPorts := ports, fault := if ports = [] then d.fault else 2 }) ∧
  (stands 4 → exec (.memoryInitialisation .ok) s = .next { s with
    hbm := [], dev := { s.dev with stage := 6, ready := true, poison := [], corrected := [] } }) ∧
  (r ≠ .ok → (stands 1 → exec (.measurement r) s = next 2 fun d => { d with fault := stageFault r }) ∧
    (stands 2 → exec (.firmwareLoad r) s = next 3 fun d => { d with fault := stageFault r }) ∧
    (stands 3 → exec (.selfCalibration r ports) s = next 4 fun d => { d with fault := stageFault r }) ∧
    (stands 4 → exec (.memoryInitialisation r) s = next 5 fun d => { d with fault := stageFault r })) ∧
  (∀ j, j < 16 → ∀ image d, (extend j image d).m = d.m.set! j (shake256 (leBytes 64 (d.m[j]!).toNat ++ leBytes 64 (shake256 image).toNat)))
end

