-- ==== Sys2Proof/Laws/Maps.lean ====
section
/-!
SUPPORT. Which bytes of the slot store an element of a map is read from (R60, R71, R72, R200).
-/
namespace Sys2Proof.Machine

/-- A field of a plane is read from one byte. -/
theorem planeBits_congr (m n : Mem) (base w k : Nat) (h : memGet m (base + k * w / 8) = memGet n (base + k * w / 8)) :
    planeBits m base w k = planeBits n base w k := by simp [planeBits, h]

/-- A number is read from its bytes. -/
theorem memNat_congr (m n : Mem) (a k : Nat) (h : ∀ i, i < k → memGet m (a + i) = memGet n (a + i)) : memNat m a k = memNat n a k := by
  have : memBytes m a k = memBytes n a k := by
    unfold memBytes
    exact List.map_congr_left fun i hi => h i (List.mem_range.mp hi)
  simp [memNat, this]

/-- An element depends on its bytes alone. -/
theorem mapElem_congr (m n : Mem) (d : W64) (i j : Nat) (h : ∀ b ∈ elemBytes d i j, memGet m b = memGet n b) :
    mapElem m d i j = mapElem n d i j := by
  unfold mapElem
  unfold elemBytes at h
  dsimp only at h ⊢
  split
  · rfl
  · rename_i h2
    rw [if_neg h2] at h
    split
    · rename_i hp
      rw [if_pos hp] at h
      have hh : memNat m (mdBase d + rowBytes (mdFmt d) * i + 2 * (j / 16)) 2 = memNat n (mdBase d + rowBytes (mdFmt d) * i + 2 * (j / 16)) 2 := by
        apply memNat_congr
        intro k hk
        apply h
        have : k = 0 ∨ k = 1 := by omega
        rcases this with rfl | rfl <;> simp
      have hc : picotCode m (mdBase d + rowBytes (mdFmt d) * i + 4) (mdFmt d) j = picotCode n (mdBase d + rowBytes (mdFmt d) * i + 4) (mdFmt d) j := by
        unfold picotCode
        split
        · rename_i hf
          apply planeBits_congr
          apply h
          simp [hf]
        · rename_i hf
          congr 1
          · congr 1
            apply planeBits_congr
            apply h
            simp [hf]
            omega
          · apply planeBits_congr
            apply h
            simp [hf]
        · rename_i h6 h5
          congr 1
          · congr 1
            apply planeBits_congr
            apply h
            split <;> first | contradiction | (simp; omega)
          · apply planeBits_congr
            apply h
            split <;> first | contradiction | simp
      rw [hh, hc]
    · rename_i hp
      rw [if_neg hp] at h
      have hx : plainElem m (mdBase d) (mdFmt d) i j = plainElem n (mdBase d) (mdFmt d) i j := by
        unfold plainElem
        dsimp only
        split
        · rename_i h4
          rw [if_pos h4] at h
          apply planeBits_congr
          apply h
          simp
          omega
        · rename_i h4
          rw [if_neg h4] at h
          apply memNat_congr
          intro k hk
          apply h
          simp [hk]
      rw [hx]

end Sys2Proof.Machine
end

