-- ==== Sys2Proof/Laws/Mem.lean ====
section
/-!
SUPPORT. The laws of memory: a read after a write, what a write leaves alone, and that every operation keeps the canonical form.
-/
namespace Sys2Proof.Machine

/-- The canonical form from a bound holds from every lower bound. -/
theorem memWfFrom_mono : ∀ (m : Mem) {lo lo' : Nat}, lo' ≤ lo → memWfFrom lo m = true → memWfFrom lo' m = true
  | [], _, _, _, _ => rfl
  | (_, _) :: _, _, _, h, w => by
    simp only [memWfFrom, Bool.and_eq_true, decide_eq_true_eq] at w ⊢
    exact ⟨⟨h.trans w.1.1, w.1.2⟩, w.2⟩

/-- An address below the bound of a canonical memory is unlisted. -/
theorem memGet_below : ∀ (m : Mem) {lo a : Nat}, memWfFrom lo m = true → a < lo → memGet m a = 0
  | [], _, _, _, _ => rfl
  | (x, b) :: r, lo, a, w, h => by
    simp only [memWfFrom, Bool.and_eq_true, decide_eq_true_eq] at w
    have hx : x ≠ a := by omega
    simp only [memGet, hx, if_false]
    exact memGet_below r w.2 (by omega)

/-- A cell in front of a canonical memory. -/
theorem memWfFrom_cons {lo x : Nat} {b : Byte} {r : Mem} (h : lo ≤ x) (hb : b ≠ 0) (w : memWfFrom (x + 1) r = true) :
    memWfFrom lo ((x, b) :: r) = true := by
  simp only [memWfFrom, Bool.and_eq_true, decide_eq_true_eq]
  exact ⟨⟨h, hb⟩, w⟩

/-- A put at or above the bound keeps the canonical form from it. -/
theorem memWfFrom_put : ∀ (m : Mem) {lo a : Nat} (b : Byte), lo ≤ a → memWfFrom lo m = true → memWfFrom lo (memPut m a b) = true
  | [], lo, a, b, h, _ => by
    rw [memPut]
    split
    · rfl
    · next hb => exact memWfFrom_cons h hb rfl
  | (x, c) :: r, lo, a, b, h, w => by
    simp only [memWfFrom, Bool.and_eq_true, decide_eq_true_eq] at w
    obtain ⟨⟨wl, wc⟩, wr⟩ := w
    have whole : memWfFrom lo ((x, c) :: r) = true := memWfFrom_cons wl wc wr
    unfold memPut
    split
    · next hlt =>
      split
      · exact whole
      · next hb => exact memWfFrom_cons h hb (memWfFrom_cons (by omega) wc wr)
    · split
      · next hlt he =>
        subst he
        split
        · exact memWfFrom_mono r (by omega) wr
        · next hb => exact memWfFrom_cons h hb wr
      · next hlt he =>
        exact memWfFrom_cons wl wc (memWfFrom_put r b (by omega) wr)

/-- A put keeps the canonical form. -/
theorem memWf_put {m : Mem} (h : memWf m = true) (a : Nat) (b : Byte) : memWf (memPut m a b) = true :=
  memWfFrom_put m b (Nat.zero_le a) h

/-- A byte read where it was put, from a canonical memory. -/
theorem memGet_put_same : ∀ (m : Mem) {lo : Nat} (a : Nat) (b : Byte), memWfFrom lo m = true → memGet (memPut m a b) a = b
  | [], _, a, b, _ => by
    rw [memPut]
    split
    · next hb => exact hb.symm
    · exact if_pos rfl
  | (x, c) :: r, lo, a, b, w => by
    simp only [memWfFrom, Bool.and_eq_true, decide_eq_true_eq] at w
    unfold memPut
    split
    · next hlt =>
      split
      · next hb =>
        have hx : x ≠ a := by omega
        simp only [memGet, hx, if_false, hb]
        exact memGet_below r w.2 (by omega)
      · simp [memGet]
    · split
      · next hlt he =>
        subst he
        split
        · next hb => rw [hb]; exact memGet_below r w.2 (by omega)
        · simp [memGet]
      · next hlt he =>
        have hx : x ≠ a := fun e => he e.symm
        simp only [memGet, hx, if_false]
        exact memGet_put_same r a b w.2

/-- A put leaves every other byte; no canonical form is needed for it. -/
theorem memGet_put_other : ∀ (m : Mem) {a x : Nat} (b : Byte), x ≠ a → memGet (memPut m a b) x = memGet m x
  | [], a, x, b, h => by
    rw [memPut]
    split
    · rfl
    · exact if_neg (Ne.symm h)
  | (y, c) :: r, a, x, b, h => by
    unfold memPut
    split
    · split
      · rfl
      · simp [memGet, Ne.symm h]
    · split
      · next hlt he =>
        subst he
        split <;> simp [memGet, Ne.symm h]
      · simp only [memGet]
        split
        · rfl
        · exact memGet_put_other r b h

/-- A byte read after a put. -/
theorem memGet_put {m : Mem} (h : memWf m = true) (a x : Nat) (b : Byte) :
    memGet (memPut m a b) x = if x = a then b else memGet m x := by
  split
  · next e => rw [e]; exact memGet_put_same m a b h
  · next e => exact memGet_put_other m b e

/-- Bytes written keep the canonical form. -/
theorem memWf_putBytes : ∀ (bs : List Byte) {m : Mem} (a : Nat), memWf m = true → memWf (memPutBytes m a bs) = true
  | [], _, _, h => h
  | b :: bs, _, a, h => memWf_putBytes bs (a + 1) (memWf_put h a b)

/-- Bytes written leave every address outside them. -/
theorem memGet_putBytes_other : ∀ (bs : List Byte) (m : Mem) {a x : Nat}, x < a ∨ a + bs.length ≤ x →
    memGet (memPutBytes m a bs) x = memGet m x
  | [], _, _, _, _ => rfl
  | b :: bs, m, a, x, h => by
    simp only [List.length_cons] at h
    rw [memPutBytes, memGet_putBytes_other bs _ (by omega), memGet_put_other m b (by omega)]

/-- A byte read after bytes were written. -/
theorem memGet_putBytes : ∀ (bs : List Byte) {m : Mem} (a x : Nat), memWf m = true →
    memGet (memPutBytes m a bs) x = if a ≤ x ∧ x < a + bs.length then bs.getD (x - a) 0 else memGet m x
  | [], m, a, x, _ => by
    have hx : ¬(a ≤ x ∧ x < a + ([] : List Byte).length) := by simp
    rw [if_neg hx]; rfl
  | b :: bs, m, a, x, h => by
    rw [memPutBytes, memGet_putBytes bs (a + 1) x (memWf_put h a b), memGet_put h]
    simp only [List.length_cons]
    by_cases hx : x = a
    · subst hx; simp
    · by_cases hi : a + 1 ≤ x ∧ x < a + 1 + bs.length
      · obtain ⟨k, rfl⟩ : ∃ k, x = a + 1 + k := ⟨x - (a + 1), by omega⟩
        have e1 : a + 1 + k - a = k + 1 := by omega
        have e2 : a + 1 + k - (a + 1) = k := by omega
        rw [if_pos hi, if_pos (by omega), e1, e2]; simp
      · rw [if_neg hi, if_neg hx, if_neg (by omega)]

/-- The length of a number's bytes. -/
@[simp] theorem leBytes_length : ∀ n x, (leBytes n x).length = n
  | 0, _ => rfl
  | n + 1, x => by simp [leBytes, leBytes_length n]

/-- Bytes written and read back. -/
theorem memBytes_putBytes {m : Mem} (h : memWf m = true) (a : Nat) (bs : List Byte) : memBytes (memPutBytes m a bs) a bs.length = bs := by
  apply List.ext_getElem
  · simp [memBytes]
  · intro i h1 h2
    simp only [memBytes, List.length_map, List.length_range] at h1
    simp only [memBytes, List.getElem_map, List.getElem_range]
    rw [memGet_putBytes bs a (a + i) h, if_pos (by omega), Nat.add_sub_cancel_left]
    simp [h1]

/-- A number's bytes, read as a number. -/
theorem leNat_leBytes : ∀ n x, leNat (leBytes n x) = x % 2 ^ (8 * n)
  | 0, x => by simp [leBytes, leNat, Nat.mod_one]
  | n + 1, x => by
    rw [leBytes, leNat, leNat_leBytes n]
    have e : 2 ^ (8 * (n + 1)) = 256 * 2 ^ (8 * n) := by rw [Nat.mul_add, Nat.pow_add, Nat.mul_comm]
    rw [e, Nat.mod_mul, BitVec.toNat_ofNat]

/-- A number written and read back. -/
theorem memNat_putNat {m : Mem} (h : memWf m = true) (a n x : Nat) : memNat (memPutNat m a n x) a n = x % 2 ^ (8 * n) := by
  have e := memBytes_putBytes h a (leBytes n x)
  rw [leBytes_length] at e
  rw [memNat, memPutNat, e, leNat_leBytes]

/-- A number written keeps the canonical form. -/
theorem memWf_putNat {m : Mem} (h : memWf m = true) (a n x : Nat) : memWf (memPutNat m a n x) = true := memWf_putBytes _ _ h

/-- A clearing keeps the canonical form. -/
theorem memWfFrom_filter (f : Host.Cell → Bool) : ∀ (m : Mem) {lo : Nat}, memWfFrom lo m = true → memWfFrom lo (m.filter f) = true
  | [], _, _ => rfl
  | (x, b) :: r, lo, w => by
    simp only [memWfFrom, Bool.and_eq_true, decide_eq_true_eq] at w
    have ih := memWfFrom_filter f r w.2
    simp only [List.filter]
    split
    · exact memWfFrom_cons w.1.1 w.1.2 ih
    · exact memWfFrom_mono _ (by omega) ih

/-- A clearing keeps the canonical form. -/
theorem memWf_clear {m : Mem} (h : memWf m = true) (lo n : Nat) : memWf (memClear m lo n) = true := memWfFrom_filter _ m h

/-- A byte read after a clearing. -/
theorem memGet_clear : ∀ (m : Mem) (lo n a : Nat), memGet (memClear m lo n) a = if lo ≤ a ∧ a < lo + n then 0 else memGet m a
  | [], _, _, _ => by simp [memClear, memGet]
  | (x, b) :: r, lo, n, a => by
    have ih := memGet_clear r lo n a
    simp only [memClear, List.filter] at ih ⊢
    by_cases hk : (decide (x < lo) || decide (lo + n ≤ x)) = true
    · rw [hk]
      simp only [memGet]
      by_cases hx : x = a
      · subst hx
        simp only [Bool.or_eq_true, decide_eq_true_eq] at hk
        rw [if_pos rfl, if_pos rfl, if_neg (by omega)]
      · rw [if_neg hx, if_neg hx]; exact ih
    · have hk' : (decide (x < lo) || decide (lo + n ≤ x)) = false := by simpa using hk
      rw [hk']
      simp only [Bool.or_eq_true, decide_eq_true_eq] at hk
      simp only [memGet]
      rw [ih]
      by_cases hx : x = a
      · subst hx; rw [if_pos (by omega), if_pos (by omega)]
      · rw [if_neg hx]

/-- Two canonical memories that read alike are equal. -/
theorem memWf_ext : ∀ (m n : Mem) {lo : Nat}, memWfFrom lo m = true → memWfFrom lo n = true → (∀ a, memGet m a = memGet n a) → m = n
  | [], [], _, _, _, _ => rfl
  | [], (y, c) :: s, _, _, w, e => by
    simp only [memWfFrom, Bool.and_eq_true, decide_eq_true_eq] at w
    have := e y; simp [memGet] at this; exact absurd this.symm w.1.2
  | (x, b) :: r, [], _, w, _, e => by
    simp only [memWfFrom, Bool.and_eq_true, decide_eq_true_eq] at w
    have := e x; simp [memGet] at this; exact absurd this w.1.2
  | (x, b) :: r, (y, c) :: s, lo, w, v, e => by
    simp only [memWfFrom, Bool.and_eq_true, decide_eq_true_eq] at w v
    have hxy : x = y := by
      rcases Nat.lt_trichotomy x y with h | h | h
      · have := e x
        rw [memGet, if_pos rfl, memGet, if_neg (by omega), memGet_below s v.2 (by omega)] at this
        exact absurd this w.1.2
      · exact h
      · have := e y
        rw [memGet, if_neg (by omega), memGet_below r w.2 (by omega), memGet, if_pos rfl] at this
        exact absurd this.symm v.1.2
    subst hxy
    have hb : b = c := by simpa [memGet] using e x
    subst hb
    have : r = s := memWf_ext r s w.2 v.2 fun a => by
      by_cases ha : a < x + 1
      · rw [memGet_below r w.2 ha, memGet_below s v.2 ha]
      · have := e a
        rwa [memGet, if_neg (by omega), memGet, if_neg (by omega)] at this
    rw [this]

end Sys2Proof.Machine
end

