-- ==== Sys2Proof/Laws/Mgmt.lean ====
section
/-!
SUPPORT. What receiving a management command and draining the waiting ones can do (R333).
-/
namespace Sys2Proof.Machine

/-- Where no command waits there is nothing to drain. -/
theorem drainCommands_none (s : State) (h : s.dev.waiting = []) : drainCommands s = s := by
  unfold drainCommands
  split
  · rw [h]; show ({ s with dev := { s.dev with waiting := [] } } : State) = s
    rw [← h]
  · rfl

/-- A command that comes while none waits is executed at once, unless it has to wait behind a LOCK. -/
theorem receive_first (c : Received) (s t : State) (h : s.dev.waiting = []) (ht : doReceived c s = some t) : receive c s = t := by
  simp [receive, h, ht]

/-- A command that comes behind others waits at the end. -/
theorem receive_behind (c : Received) (s : State) (h : s.dev.waiting ≠ []) :
    receive c s = { s with dev := { s.dev with waiting := s.dev.waiting ++ [c] } } := by
  simp [receive, h]

/-- A command whose turn comes is executed and the next one has its turn. -/
theorem executeAll_cons (c : Received) (cs : List Received) (s t : State) (h : doReceived c s = some t) :
    executeAll (c :: cs) s = executeAll cs t := by
  simp [executeAll, h]

end Sys2Proof.Machine
end

