-- ==== Sys2Proof/Laws/State.lean ====
section
/-!
SUPPORT. What each update of a group or of the machine leaves: one lemma for each field and update.
-/
namespace Sys2Proof.Machine

variable (g : Group) (s : State)

/-! ### A scalar written -/

@[simp] theorem setS_id (n : Nat) (x : W64) : (setS g n x).id = g.id := by unfold setS; split <;> rfl
@[simp] theorem setS_live (n : Nat) (x : W64) : (setS g n x).live = g.live := by unfold setS; split <;> rfl
@[simp] theorem setS_exited (n : Nat) (x : W64) : (setS g n x).exited = g.exited := by unfold setS; split <;> rfl
@[simp] theorem setS_freed (n : Nat) (x : W64) : (setS g n x).freed = g.freed := by unfold setS; split <;> rfl
@[simp] theorem setS_slot (n : Nat) (x : W64) : (setS g n x).slot = g.slot := by unfold setS; split <;> rfl
@[simp] theorem setS_role (n : Nat) (x : W64) : (setS g n x).role = g.role := by unfold setS; split <;> rfl
@[simp] theorem setS_prio (n : Nat) (x : W64) : (setS g n x).prio = g.prio := by unfold setS; split <;> rfl
@[simp] theorem setS_bound (n : Nat) (x : W64) : (setS g n x).bound = g.bound := by unfold setS; split <;> rfl
@[simp] theorem setS_base (n : Nat) (x : W64) : (setS g n x).base = g.base := by unfold setS; split <;> rfl
@[simp] theorem setS_p (n : Nat) (x : W64) : (setS g n x).p = g.p := by unfold setS; split <;> rfl
@[simp] theorem setS_k (n : Nat) (x : W64) : (setS g n x).k = g.k := by unfold setS; split <;> rfl
@[simp] theorem setS_n (n : Nat) (x : W64) : (setS g n x).n = g.n := by unfold setS; split <;> rfl
@[simp] theorem setS_v (n : Nat) (x : W64) : (setS g n x).v = g.v := by unfold setS; split <;> rfl
@[simp] theorem setS_acc (n : Nat) (x : W64) : (setS g n x).acc = g.acc := by unfold setS; split <;> rfl
@[simp] theorem setS_maps (n : Nat) (x : W64) : (setS g n x).maps = g.maps := by unfold setS; split <;> rfl
@[simp] theorem setS_streams (n : Nat) (x : W64) : (setS g n x).streams = g.streams := by unfold setS; split <;> rfl
@[simp] theorem setS_forms (n : Nat) (x : W64) : (setS g n x).forms = g.forms := by unfold setS; split <;> rfl
@[simp] theorem setS_pc (n : Nat) (x : W64) : (setS g n x).pc = g.pc := by unfold setS; split <;> rfl
@[simp] theorem setS_slotB (n : Nat) (x : W64) : (setS g n x).slotB = g.slotB := by unfold setS; split <;> rfl
@[simp] theorem setS_pos (n : Nat) (x : W64) : (setS g n x).pos = g.pos := by unfold setS; split <;> rfl
@[simp] theorem setS_word (n : Nat) (x : W64) : (setS g n x).word = g.word := by unfold setS; split <;> rfl
@[simp] theorem setS_dec (n : Nat) (x : W64) : (setS g n x).dec = g.dec := by unfold setS; split <;> rfl
@[simp] theorem setS_hmode (n : Nat) (x : W64) : (setS g n x).hmode = g.hmode := by unfold setS; split <;> rfl
@[simp] theorem setS_vec (n : Nat) (x : W64) : (setS g n x).vec = g.vec := by unfold setS; split <;> rfl
@[simp] theorem setS_cls (n : Nat) (x : W64) : (setS g n x).cls = g.cls := by unfold setS; split <;> rfl
@[simp] theorem setS_harea (n : Nat) (x : W64) : (setS g n x).harea = g.harea := by unfold setS; split <;> rfl
@[simp] theorem setS_clkr (n : Nat) (x : W64) : (setS g n x).clkr = g.clkr := by unfold setS; split <;> rfl
@[simp] theorem setS_lane (n : Nat) (x : W64) : (setS g n x).lane = g.lane := by unfold setS; split <;> rfl
@[simp] theorem setS_copies (n : Nat) (x : W64) : (setS g n x).copies = g.copies := by unfold setS; split <;> rfl
@[simp] theorem setS_mapops (n : Nat) (x : W64) : (setS g n x).mapops = g.mapops := by unfold setS; split <;> rfl
@[simp] theorem setS_bobs (n : Nat) (x : W64) : (setS g n x).bobs = g.bobs := by unfold setS; split <;> rfl
@[simp] theorem setS_imgs (n : Nat) (x : W64) : (setS g n x).imgs = g.imgs := by unfold setS; split <;> rfl
@[simp] theorem setS_seqn (n : Nat) (x : W64) : (setS g n x).seqn = g.seqn := by unfold setS; split <;> rfl
@[simp] theorem setS_fences (n : Nat) (x : W64) : (setS g n x).fences = g.fences := by unfold setS; split <;> rfl
@[simp] theorem setS_relNext (n : Nat) (x : W64) : (setS g n x).relNext = g.relNext := by unfold setS; split <;> rfl
@[simp] theorem setS_lastRead (n : Nat) (x : W64) : (setS g n x).lastRead = g.lastRead := by unfold setS; split <;> rfl
@[simp] theorem setS_lastSeq (n : Nat) (x : W64) : (setS g n x).lastSeq = g.lastSeq := by unfold setS; split <;> rfl
@[simp] theorem setS_lastBound (n : Nat) (x : W64) : (setS g n x).lastBound = g.lastBound := by unfold setS; split <;> rfl
@[simp] theorem setS_observed (n : Nat) (x : W64) : (setS g n x).observed = g.observed := by unfold setS; split <;> rfl
@[simp] theorem setS_retired (n : Nat) (x : W64) : (setS g n x).retired = g.retired := by unfold setS; split <;> rfl
@[simp] theorem setS_crossed (n : Nat) (x : W64) : (setS g n x).crossed = g.crossed := by unfold setS; split <;> rfl
@[simp] theorem setS_frees (n : Nat) (x : W64) : (setS g n x).frees = g.frees := by unfold setS; split <;> rfl
@[simp] theorem setS_rf (n : Nat) (x : W64) : (setS g n x).rf = g.rf := by unfold setS; split <;> rfl
@[simp] theorem setS_wait (n : Nat) (x : W64) : (setS g n x).wait = g.wait := by unfold setS; split <;> rfl
@[simp] theorem setS_park (n : Nat) (x : W64) : (setS g n x).park = g.park := by unfold setS; split <;> rfl
@[simp] theorem setS_since (n : Nat) (x : W64) : (setS g n x).since = g.since := by unfold setS; split <;> rfl
@[simp] theorem setS_residue (n : Nat) (x : W64) : (setS g n x).residue = g.residue := by unfold setS; split <;> rfl
@[simp] theorem setS_satDue (n : Nat) (x : W64) : (setS g n x).satDue = g.satDue := by unfold setS; split <;> rfl
@[simp] theorem setS_trapRound (n : Nat) (x : W64) : (setS g n x).trapRound = g.trapRound := by unfold setS; split <;> rfl

/-! ### A predicate written -/

@[simp] theorem setP_id (n : Nat) (x : W32) : (setP g n x).id = g.id := by unfold setP; split <;> rfl
@[simp] theorem setP_live (n : Nat) (x : W32) : (setP g n x).live = g.live := by unfold setP; split <;> rfl
@[simp] theorem setP_exited (n : Nat) (x : W32) : (setP g n x).exited = g.exited := by unfold setP; split <;> rfl
@[simp] theorem setP_freed (n : Nat) (x : W32) : (setP g n x).freed = g.freed := by unfold setP; split <;> rfl
@[simp] theorem setP_slot (n : Nat) (x : W32) : (setP g n x).slot = g.slot := by unfold setP; split <;> rfl
@[simp] theorem setP_role (n : Nat) (x : W32) : (setP g n x).role = g.role := by unfold setP; split <;> rfl
@[simp] theorem setP_prio (n : Nat) (x : W32) : (setP g n x).prio = g.prio := by unfold setP; split <;> rfl
@[simp] theorem setP_bound (n : Nat) (x : W32) : (setP g n x).bound = g.bound := by unfold setP; split <;> rfl
@[simp] theorem setP_base (n : Nat) (x : W32) : (setP g n x).base = g.base := by unfold setP; split <;> rfl
@[simp] theorem setP_s (n : Nat) (x : W32) : (setP g n x).s = g.s := by unfold setP; split <;> rfl
@[simp] theorem setP_k (n : Nat) (x : W32) : (setP g n x).k = g.k := by unfold setP; split <;> rfl
@[simp] theorem setP_n (n : Nat) (x : W32) : (setP g n x).n = g.n := by unfold setP; split <;> rfl
@[simp] theorem setP_v (n : Nat) (x : W32) : (setP g n x).v = g.v := by unfold setP; split <;> rfl
@[simp] theorem setP_acc (n : Nat) (x : W32) : (setP g n x).acc = g.acc := by unfold setP; split <;> rfl
@[simp] theorem setP_maps (n : Nat) (x : W32) : (setP g n x).maps = g.maps := by unfold setP; split <;> rfl
@[simp] theorem setP_streams (n : Nat) (x : W32) : (setP g n x).streams = g.streams := by unfold setP; split <;> rfl
@[simp] theorem setP_forms (n : Nat) (x : W32) : (setP g n x).forms = g.forms := by unfold setP; split <;> rfl
@[simp] theorem setP_pc (n : Nat) (x : W32) : (setP g n x).pc = g.pc := by unfold setP; split <;> rfl
@[simp] theorem setP_slotB (n : Nat) (x : W32) : (setP g n x).slotB = g.slotB := by unfold setP; split <;> rfl
@[simp] theorem setP_pos (n : Nat) (x : W32) : (setP g n x).pos = g.pos := by unfold setP; split <;> rfl
@[simp] theorem setP_word (n : Nat) (x : W32) : (setP g n x).word = g.word := by unfold setP; split <;> rfl
@[simp] theorem setP_dec (n : Nat) (x : W32) : (setP g n x).dec = g.dec := by unfold setP; split <;> rfl
@[simp] theorem setP_hmode (n : Nat) (x : W32) : (setP g n x).hmode = g.hmode := by unfold setP; split <;> rfl
@[simp] theorem setP_vec (n : Nat) (x : W32) : (setP g n x).vec = g.vec := by unfold setP; split <;> rfl
@[simp] theorem setP_cls (n : Nat) (x : W32) : (setP g n x).cls = g.cls := by unfold setP; split <;> rfl
@[simp] theorem setP_harea (n : Nat) (x : W32) : (setP g n x).harea = g.harea := by unfold setP; split <;> rfl
@[simp] theorem setP_clkr (n : Nat) (x : W32) : (setP g n x).clkr = g.clkr := by unfold setP; split <;> rfl
@[simp] theorem setP_lane (n : Nat) (x : W32) : (setP g n x).lane = g.lane := by unfold setP; split <;> rfl
@[simp] theorem setP_copies (n : Nat) (x : W32) : (setP g n x).copies = g.copies := by unfold setP; split <;> rfl
@[simp] theorem setP_mapops (n : Nat) (x : W32) : (setP g n x).mapops = g.mapops := by unfold setP; split <;> rfl
@[simp] theorem setP_bobs (n : Nat) (x : W32) : (setP g n x).bobs = g.bobs := by unfold setP; split <;> rfl
@[simp] theorem setP_imgs (n : Nat) (x : W32) : (setP g n x).imgs = g.imgs := by unfold setP; split <;> rfl
@[simp] theorem setP_seqn (n : Nat) (x : W32) : (setP g n x).seqn = g.seqn := by unfold setP; split <;> rfl
@[simp] theorem setP_fences (n : Nat) (x : W32) : (setP g n x).fences = g.fences := by unfold setP; split <;> rfl
@[simp] theorem setP_relNext (n : Nat) (x : W32) : (setP g n x).relNext = g.relNext := by unfold setP; split <;> rfl
@[simp] theorem setP_lastRead (n : Nat) (x : W32) : (setP g n x).lastRead = g.lastRead := by unfold setP; split <;> rfl
@[simp] theorem setP_lastSeq (n : Nat) (x : W32) : (setP g n x).lastSeq = g.lastSeq := by unfold setP; split <;> rfl
@[simp] theorem setP_lastBound (n : Nat) (x : W32) : (setP g n x).lastBound = g.lastBound := by unfold setP; split <;> rfl
@[simp] theorem setP_observed (n : Nat) (x : W32) : (setP g n x).observed = g.observed := by unfold setP; split <;> rfl
@[simp] theorem setP_retired (n : Nat) (x : W32) : (setP g n x).retired = g.retired := by unfold setP; split <;> rfl
@[simp] theorem setP_crossed (n : Nat) (x : W32) : (setP g n x).crossed = g.crossed := by unfold setP; split <;> rfl
@[simp] theorem setP_frees (n : Nat) (x : W32) : (setP g n x).frees = g.frees := by unfold setP; split <;> rfl
@[simp] theorem setP_rf (n : Nat) (x : W32) : (setP g n x).rf = g.rf := by unfold setP; split <;> rfl
@[simp] theorem setP_wait (n : Nat) (x : W32) : (setP g n x).wait = g.wait := by unfold setP; split <;> rfl
@[simp] theorem setP_park (n : Nat) (x : W32) : (setP g n x).park = g.park := by unfold setP; split <;> rfl
@[simp] theorem setP_since (n : Nat) (x : W32) : (setP g n x).since = g.since := by unfold setP; split <;> rfl
@[simp] theorem setP_residue (n : Nat) (x : W32) : (setP g n x).residue = g.residue := by unfold setP; split <;> rfl
@[simp] theorem setP_satDue (n : Nat) (x : W32) : (setP g n x).satDue = g.satDue := by unfold setP; split <;> rfl
@[simp] theorem setP_trapRound (n : Nat) (x : W32) : (setP g n x).trapRound = g.trapRound := by unfold setP; split <;> rfl

/-! ### A condition written -/

@[simp] theorem setK_id (n : Nat) (x : Bool) : (setK g n x).id = g.id := by unfold setK; split <;> rfl
@[simp] theorem setK_live (n : Nat) (x : Bool) : (setK g n x).live = g.live := by unfold setK; split <;> rfl
@[simp] theorem setK_exited (n : Nat) (x : Bool) : (setK g n x).exited = g.exited := by unfold setK; split <;> rfl
@[simp] theorem setK_freed (n : Nat) (x : Bool) : (setK g n x).freed = g.freed := by unfold setK; split <;> rfl
@[simp] theorem setK_slot (n : Nat) (x : Bool) : (setK g n x).slot = g.slot := by unfold setK; split <;> rfl
@[simp] theorem setK_role (n : Nat) (x : Bool) : (setK g n x).role = g.role := by unfold setK; split <;> rfl
@[simp] theorem setK_prio (n : Nat) (x : Bool) : (setK g n x).prio = g.prio := by unfold setK; split <;> rfl
@[simp] theorem setK_bound (n : Nat) (x : Bool) : (setK g n x).bound = g.bound := by unfold setK; split <;> rfl
@[simp] theorem setK_base (n : Nat) (x : Bool) : (setK g n x).base = g.base := by unfold setK; split <;> rfl
@[simp] theorem setK_s (n : Nat) (x : Bool) : (setK g n x).s = g.s := by unfold setK; split <;> rfl
@[simp] theorem setK_p (n : Nat) (x : Bool) : (setK g n x).p = g.p := by unfold setK; split <;> rfl
@[simp] theorem setK_n (n : Nat) (x : Bool) : (setK g n x).n = g.n := by unfold setK; split <;> rfl
@[simp] theorem setK_v (n : Nat) (x : Bool) : (setK g n x).v = g.v := by unfold setK; split <;> rfl
@[simp] theorem setK_acc (n : Nat) (x : Bool) : (setK g n x).acc = g.acc := by unfold setK; split <;> rfl
@[simp] theorem setK_maps (n : Nat) (x : Bool) : (setK g n x).maps = g.maps := by unfold setK; split <;> rfl
@[simp] theorem setK_streams (n : Nat) (x : Bool) : (setK g n x).streams = g.streams := by unfold setK; split <;> rfl
@[simp] theorem setK_forms (n : Nat) (x : Bool) : (setK g n x).forms = g.forms := by unfold setK; split <;> rfl
@[simp] theorem setK_pc (n : Nat) (x : Bool) : (setK g n x).pc = g.pc := by unfold setK; split <;> rfl
@[simp] theorem setK_slotB (n : Nat) (x : Bool) : (setK g n x).slotB = g.slotB := by unfold setK; split <;> rfl
@[simp] theorem setK_pos (n : Nat) (x : Bool) : (setK g n x).pos = g.pos := by unfold setK; split <;> rfl
@[simp] theorem setK_word (n : Nat) (x : Bool) : (setK g n x).word = g.word := by unfold setK; split <;> rfl
@[simp] theorem setK_dec (n : Nat) (x : Bool) : (setK g n x).dec = g.dec := by unfold setK; split <;> rfl
@[simp] theorem setK_hmode (n : Nat) (x : Bool) : (setK g n x).hmode = g.hmode := by unfold setK; split <;> rfl
@[simp] theorem setK_vec (n : Nat) (x : Bool) : (setK g n x).vec = g.vec := by unfold setK; split <;> rfl
@[simp] theorem setK_cls (n : Nat) (x : Bool) : (setK g n x).cls = g.cls := by unfold setK; split <;> rfl
@[simp] theorem setK_harea (n : Nat) (x : Bool) : (setK g n x).harea = g.harea := by unfold setK; split <;> rfl
@[simp] theorem setK_clkr (n : Nat) (x : Bool) : (setK g n x).clkr = g.clkr := by unfold setK; split <;> rfl
@[simp] theorem setK_lane (n : Nat) (x : Bool) : (setK g n x).lane = g.lane := by unfold setK; split <;> rfl
@[simp] theorem setK_copies (n : Nat) (x : Bool) : (setK g n x).copies = g.copies := by unfold setK; split <;> rfl
@[simp] theorem setK_mapops (n : Nat) (x : Bool) : (setK g n x).mapops = g.mapops := by unfold setK; split <;> rfl
@[simp] theorem setK_bobs (n : Nat) (x : Bool) : (setK g n x).bobs = g.bobs := by unfold setK; split <;> rfl
@[simp] theorem setK_imgs (n : Nat) (x : Bool) : (setK g n x).imgs = g.imgs := by unfold setK; split <;> rfl
@[simp] theorem setK_seqn (n : Nat) (x : Bool) : (setK g n x).seqn = g.seqn := by unfold setK; split <;> rfl
@[simp] theorem setK_fences (n : Nat) (x : Bool) : (setK g n x).fences = g.fences := by unfold setK; split <;> rfl
@[simp] theorem setK_relNext (n : Nat) (x : Bool) : (setK g n x).relNext = g.relNext := by unfold setK; split <;> rfl
@[simp] theorem setK_lastRead (n : Nat) (x : Bool) : (setK g n x).lastRead = g.lastRead := by unfold setK; split <;> rfl
@[simp] theorem setK_lastSeq (n : Nat) (x : Bool) : (setK g n x).lastSeq = g.lastSeq := by unfold setK; split <;> rfl
@[simp] theorem setK_lastBound (n : Nat) (x : Bool) : (setK g n x).lastBound = g.lastBound := by unfold setK; split <;> rfl
@[simp] theorem setK_observed (n : Nat) (x : Bool) : (setK g n x).observed = g.observed := by unfold setK; split <;> rfl
@[simp] theorem setK_retired (n : Nat) (x : Bool) : (setK g n x).retired = g.retired := by unfold setK; split <;> rfl
@[simp] theorem setK_crossed (n : Nat) (x : Bool) : (setK g n x).crossed = g.crossed := by unfold setK; split <;> rfl
@[simp] theorem setK_frees (n : Nat) (x : Bool) : (setK g n x).frees = g.frees := by unfold setK; split <;> rfl
@[simp] theorem setK_rf (n : Nat) (x : Bool) : (setK g n x).rf = g.rf := by unfold setK; split <;> rfl
@[simp] theorem setK_wait (n : Nat) (x : Bool) : (setK g n x).wait = g.wait := by unfold setK; split <;> rfl
@[simp] theorem setK_park (n : Nat) (x : Bool) : (setK g n x).park = g.park := by unfold setK; split <;> rfl
@[simp] theorem setK_since (n : Nat) (x : Bool) : (setK g n x).since = g.since := by unfold setK; split <;> rfl
@[simp] theorem setK_residue (n : Nat) (x : Bool) : (setK g n x).residue = g.residue := by unfold setK; split <;> rfl
@[simp] theorem setK_satDue (n : Nat) (x : Bool) : (setK g n x).satDue = g.satDue := by unfold setK; split <;> rfl
@[simp] theorem setK_trapRound (n : Nat) (x : Bool) : (setK g n x).trapRound = g.trapRound := by unfold setK; split <;> rfl

/-! ### A loop counter written -/

@[simp] theorem setN_id (n : Nat) (x : W32) : (setN g n x).id = g.id := rfl
@[simp] theorem setN_live (n : Nat) (x : W32) : (setN g n x).live = g.live := rfl
@[simp] theorem setN_exited (n : Nat) (x : W32) : (setN g n x).exited = g.exited := rfl
@[simp] theorem setN_freed (n : Nat) (x : W32) : (setN g n x).freed = g.freed := rfl
@[simp] theorem setN_slot (n : Nat) (x : W32) : (setN g n x).slot = g.slot := rfl
@[simp] theorem setN_role (n : Nat) (x : W32) : (setN g n x).role = g.role := rfl
@[simp] theorem setN_prio (n : Nat) (x : W32) : (setN g n x).prio = g.prio := rfl
@[simp] theorem setN_bound (n : Nat) (x : W32) : (setN g n x).bound = g.bound := rfl
@[simp] theorem setN_base (n : Nat) (x : W32) : (setN g n x).base = g.base := rfl
@[simp] theorem setN_s (n : Nat) (x : W32) : (setN g n x).s = g.s := rfl
@[simp] theorem setN_p (n : Nat) (x : W32) : (setN g n x).p = g.p := rfl
@[simp] theorem setN_k (n : Nat) (x : W32) : (setN g n x).k = g.k := rfl
@[simp] theorem setN_v (n : Nat) (x : W32) : (setN g n x).v = g.v := rfl
@[simp] theorem setN_acc (n : Nat) (x : W32) : (setN g n x).acc = g.acc := rfl
@[simp] theorem setN_maps (n : Nat) (x : W32) : (setN g n x).maps = g.maps := rfl
@[simp] theorem setN_streams (n : Nat) (x : W32) : (setN g n x).streams = g.streams := rfl
@[simp] theorem setN_forms (n : Nat) (x : W32) : (setN g n x).forms = g.forms := rfl
@[simp] theorem setN_pc (n : Nat) (x : W32) : (setN g n x).pc = g.pc := rfl
@[simp] theorem setN_slotB (n : Nat) (x : W32) : (setN g n x).slotB = g.slotB := rfl
@[simp] theorem setN_pos (n : Nat) (x : W32) : (setN g n x).pos = g.pos := rfl
@[simp] theorem setN_word (n : Nat) (x : W32) : (setN g n x).word = g.word := rfl
@[simp] theorem setN_dec (n : Nat) (x : W32) : (setN g n x).dec = g.dec := rfl
@[simp] theorem setN_hmode (n : Nat) (x : W32) : (setN g n x).hmode = g.hmode := rfl
@[simp] theorem setN_vec (n : Nat) (x : W32) : (setN g n x).vec = g.vec := rfl
@[simp] theorem setN_cls (n : Nat) (x : W32) : (setN g n x).cls = g.cls := rfl
@[simp] theorem setN_harea (n : Nat) (x : W32) : (setN g n x).harea = g.harea := rfl
@[simp] theorem setN_clkr (n : Nat) (x : W32) : (setN g n x).clkr = g.clkr := rfl
@[simp] theorem setN_lane (n : Nat) (x : W32) : (setN g n x).lane = g.lane := rfl
@[simp] theorem setN_copies (n : Nat) (x : W32) : (setN g n x).copies = g.copies := rfl
@[simp] theorem setN_mapops (n : Nat) (x : W32) : (setN g n x).mapops = g.mapops := rfl
@[simp] theorem setN_bobs (n : Nat) (x : W32) : (setN g n x).bobs = g.bobs := rfl
@[simp] theorem setN_imgs (n : Nat) (x : W32) : (setN g n x).imgs = g.imgs := rfl
@[simp] theorem setN_seqn (n : Nat) (x : W32) : (setN g n x).seqn = g.seqn := rfl
@[simp] theorem setN_fences (n : Nat) (x : W32) : (setN g n x).fences = g.fences := rfl
@[simp] theorem setN_relNext (n : Nat) (x : W32) : (setN g n x).relNext = g.relNext := rfl
@[simp] theorem setN_lastRead (n : Nat) (x : W32) : (setN g n x).lastRead = g.lastRead := rfl
@[simp] theorem setN_lastSeq (n : Nat) (x : W32) : (setN g n x).lastSeq = g.lastSeq := rfl
@[simp] theorem setN_lastBound (n : Nat) (x : W32) : (setN g n x).lastBound = g.lastBound := rfl
@[simp] theorem setN_observed (n : Nat) (x : W32) : (setN g n x).observed = g.observed := rfl
@[simp] theorem setN_retired (n : Nat) (x : W32) : (setN g n x).retired = g.retired := rfl
@[simp] theorem setN_crossed (n : Nat) (x : W32) : (setN g n x).crossed = g.crossed := rfl
@[simp] theorem setN_frees (n : Nat) (x : W32) : (setN g n x).frees = g.frees := rfl
@[simp] theorem setN_rf (n : Nat) (x : W32) : (setN g n x).rf = g.rf := rfl
@[simp] theorem setN_wait (n : Nat) (x : W32) : (setN g n x).wait = g.wait := rfl
@[simp] theorem setN_park (n : Nat) (x : W32) : (setN g n x).park = g.park := rfl
@[simp] theorem setN_since (n : Nat) (x : W32) : (setN g n x).since = g.since := rfl
@[simp] theorem setN_residue (n : Nat) (x : W32) : (setN g n x).residue = g.residue := rfl
@[simp] theorem setN_satDue (n : Nat) (x : W32) : (setN g n x).satDue = g.satDue := rfl
@[simp] theorem setN_trapRound (n : Nat) (x : W32) : (setN g n x).trapRound = g.trapRound := rfl

/-! ### A vector register written -/

@[simp] theorem setV_id (n : Nat) (x : VReg) : (setV g n x).id = g.id := rfl
@[simp] theorem setV_live (n : Nat) (x : VReg) : (setV g n x).live = g.live := rfl
@[simp] theorem setV_exited (n : Nat) (x : VReg) : (setV g n x).exited = g.exited := rfl
@[simp] theorem setV_freed (n : Nat) (x : VReg) : (setV g n x).freed = g.freed := rfl
@[simp] theorem setV_slot (n : Nat) (x : VReg) : (setV g n x).slot = g.slot := rfl
@[simp] theorem setV_role (n : Nat) (x : VReg) : (setV g n x).role = g.role := rfl
@[simp] theorem setV_prio (n : Nat) (x : VReg) : (setV g n x).prio = g.prio := rfl
@[simp] theorem setV_bound (n : Nat) (x : VReg) : (setV g n x).bound = g.bound := rfl
@[simp] theorem setV_base (n : Nat) (x : VReg) : (setV g n x).base = g.base := rfl
@[simp] theorem setV_s (n : Nat) (x : VReg) : (setV g n x).s = g.s := rfl
@[simp] theorem setV_p (n : Nat) (x : VReg) : (setV g n x).p = g.p := rfl
@[simp] theorem setV_k (n : Nat) (x : VReg) : (setV g n x).k = g.k := rfl
@[simp] theorem setV_n (n : Nat) (x : VReg) : (setV g n x).n = g.n := rfl
@[simp] theorem setV_acc (n : Nat) (x : VReg) : (setV g n x).acc = g.acc := rfl
@[simp] theorem setV_maps (n : Nat) (x : VReg) : (setV g n x).maps = g.maps := rfl
@[simp] theorem setV_streams (n : Nat) (x : VReg) : (setV g n x).streams = g.streams := rfl
@[simp] theorem setV_forms (n : Nat) (x : VReg) : (setV g n x).forms = g.forms := rfl
@[simp] theorem setV_pc (n : Nat) (x : VReg) : (setV g n x).pc = g.pc := rfl
@[simp] theorem setV_slotB (n : Nat) (x : VReg) : (setV g n x).slotB = g.slotB := rfl
@[simp] theorem setV_pos (n : Nat) (x : VReg) : (setV g n x).pos = g.pos := rfl
@[simp] theorem setV_word (n : Nat) (x : VReg) : (setV g n x).word = g.word := rfl
@[simp] theorem setV_dec (n : Nat) (x : VReg) : (setV g n x).dec = g.dec := rfl
@[simp] theorem setV_hmode (n : Nat) (x : VReg) : (setV g n x).hmode = g.hmode := rfl
@[simp] theorem setV_vec (n : Nat) (x : VReg) : (setV g n x).vec = g.vec := rfl
@[simp] theorem setV_cls (n : Nat) (x : VReg) : (setV g n x).cls = g.cls := rfl
@[simp] theorem setV_harea (n : Nat) (x : VReg) : (setV g n x).harea = g.harea := rfl
@[simp] theorem setV_clkr (n : Nat) (x : VReg) : (setV g n x).clkr = g.clkr := rfl
@[simp] theorem setV_lane (n : Nat) (x : VReg) : (setV g n x).lane = g.lane := rfl
@[simp] theorem setV_copies (n : Nat) (x : VReg) : (setV g n x).copies = g.copies := rfl
@[simp] theorem setV_mapops (n : Nat) (x : VReg) : (setV g n x).mapops = g.mapops := rfl
@[simp] theorem setV_bobs (n : Nat) (x : VReg) : (setV g n x).bobs = g.bobs := rfl
@[simp] theorem setV_imgs (n : Nat) (x : VReg) : (setV g n x).imgs = g.imgs := rfl
@[simp] theorem setV_seqn (n : Nat) (x : VReg) : (setV g n x).seqn = g.seqn := rfl
@[simp] theorem setV_fences (n : Nat) (x : VReg) : (setV g n x).fences = g.fences := rfl
@[simp] theorem setV_relNext (n : Nat) (x : VReg) : (setV g n x).relNext = g.relNext := rfl
@[simp] theorem setV_lastRead (n : Nat) (x : VReg) : (setV g n x).lastRead = g.lastRead := rfl
@[simp] theorem setV_lastSeq (n : Nat) (x : VReg) : (setV g n x).lastSeq = g.lastSeq := rfl
@[simp] theorem setV_lastBound (n : Nat) (x : VReg) : (setV g n x).lastBound = g.lastBound := rfl
@[simp] theorem setV_observed (n : Nat) (x : VReg) : (setV g n x).observed = g.observed := rfl
@[simp] theorem setV_retired (n : Nat) (x : VReg) : (setV g n x).retired = g.retired := rfl
@[simp] theorem setV_crossed (n : Nat) (x : VReg) : (setV g n x).crossed = g.crossed := rfl
@[simp] theorem setV_frees (n : Nat) (x : VReg) : (setV g n x).frees = g.frees := rfl
@[simp] theorem setV_rf (n : Nat) (x : VReg) : (setV g n x).rf = g.rf := rfl
@[simp] theorem setV_wait (n : Nat) (x : VReg) : (setV g n x).wait = g.wait := rfl
@[simp] theorem setV_park (n : Nat) (x : VReg) : (setV g n x).park = g.park := rfl
@[simp] theorem setV_since (n : Nat) (x : VReg) : (setV g n x).since = g.since := rfl
@[simp] theorem setV_residue (n : Nat) (x : VReg) : (setV g n x).residue = g.residue := rfl
@[simp] theorem setV_satDue (n : Nat) (x : VReg) : (setV g n x).satDue = g.satDue := rfl
@[simp] theorem setV_trapRound (n : Nat) (x : VReg) : (setV g n x).trapRound = g.trapRound := rfl

/-! ### A lane written -/

@[simp] theorem setLane_id (n i : Nat) (x : W32) : (setLane g n i x).id = g.id := rfl
@[simp] theorem setLane_live (n i : Nat) (x : W32) : (setLane g n i x).live = g.live := rfl
@[simp] theorem setLane_exited (n i : Nat) (x : W32) : (setLane g n i x).exited = g.exited := rfl
@[simp] theorem setLane_freed (n i : Nat) (x : W32) : (setLane g n i x).freed = g.freed := rfl
@[simp] theorem setLane_slot (n i : Nat) (x : W32) : (setLane g n i x).slot = g.slot := rfl
@[simp] theorem setLane_role (n i : Nat) (x : W32) : (setLane g n i x).role = g.role := rfl
@[simp] theorem setLane_prio (n i : Nat) (x : W32) : (setLane g n i x).prio = g.prio := rfl
@[simp] theorem setLane_bound (n i : Nat) (x : W32) : (setLane g n i x).bound = g.bound := rfl
@[simp] theorem setLane_base (n i : Nat) (x : W32) : (setLane g n i x).base = g.base := rfl
@[simp] theorem setLane_s (n i : Nat) (x : W32) : (setLane g n i x).s = g.s := rfl
@[simp] theorem setLane_p (n i : Nat) (x : W32) : (setLane g n i x).p = g.p := rfl
@[simp] theorem setLane_k (n i : Nat) (x : W32) : (setLane g n i x).k = g.k := rfl
@[simp] theorem setLane_n (n i : Nat) (x : W32) : (setLane g n i x).n = g.n := rfl
@[simp] theorem setLane_acc (n i : Nat) (x : W32) : (setLane g n i x).acc = g.acc := rfl
@[simp] theorem setLane_maps (n i : Nat) (x : W32) : (setLane g n i x).maps = g.maps := rfl
@[simp] theorem setLane_streams (n i : Nat) (x : W32) : (setLane g n i x).streams = g.streams := rfl
@[simp] theorem setLane_forms (n i : Nat) (x : W32) : (setLane g n i x).forms = g.forms := rfl
@[simp] theorem setLane_pc (n i : Nat) (x : W32) : (setLane g n i x).pc = g.pc := rfl
@[simp] theorem setLane_slotB (n i : Nat) (x : W32) : (setLane g n i x).slotB = g.slotB := rfl
@[simp] theorem setLane_pos (n i : Nat) (x : W32) : (setLane g n i x).pos = g.pos := rfl
@[simp] theorem setLane_word (n i : Nat) (x : W32) : (setLane g n i x).word = g.word := rfl
@[simp] theorem setLane_dec (n i : Nat) (x : W32) : (setLane g n i x).dec = g.dec := rfl
@[simp] theorem setLane_hmode (n i : Nat) (x : W32) : (setLane g n i x).hmode = g.hmode := rfl
@[simp] theorem setLane_vec (n i : Nat) (x : W32) : (setLane g n i x).vec = g.vec := rfl
@[simp] theorem setLane_cls (n i : Nat) (x : W32) : (setLane g n i x).cls = g.cls := rfl
@[simp] theorem setLane_harea (n i : Nat) (x : W32) : (setLane g n i x).harea = g.harea := rfl
@[simp] theorem setLane_clkr (n i : Nat) (x : W32) : (setLane g n i x).clkr = g.clkr := rfl
@[simp] theorem setLane_lane (n i : Nat) (x : W32) : (setLane g n i x).lane = g.lane := rfl
@[simp] theorem setLane_copies (n i : Nat) (x : W32) : (setLane g n i x).copies = g.copies := rfl
@[simp] theorem setLane_mapops (n i : Nat) (x : W32) : (setLane g n i x).mapops = g.mapops := rfl
@[simp] theorem setLane_bobs (n i : Nat) (x : W32) : (setLane g n i x).bobs = g.bobs := rfl
@[simp] theorem setLane_imgs (n i : Nat) (x : W32) : (setLane g n i x).imgs = g.imgs := rfl
@[simp] theorem setLane_seqn (n i : Nat) (x : W32) : (setLane g n i x).seqn = g.seqn := rfl
@[simp] theorem setLane_fences (n i : Nat) (x : W32) : (setLane g n i x).fences = g.fences := rfl
@[simp] theorem setLane_relNext (n i : Nat) (x : W32) : (setLane g n i x).relNext = g.relNext := rfl
@[simp] theorem setLane_lastRead (n i : Nat) (x : W32) : (setLane g n i x).lastRead = g.lastRead := rfl
@[simp] theorem setLane_lastSeq (n i : Nat) (x : W32) : (setLane g n i x).lastSeq = g.lastSeq := rfl
@[simp] theorem setLane_lastBound (n i : Nat) (x : W32) : (setLane g n i x).lastBound = g.lastBound := rfl
@[simp] theorem setLane_observed (n i : Nat) (x : W32) : (setLane g n i x).observed = g.observed := rfl
@[simp] theorem setLane_retired (n i : Nat) (x : W32) : (setLane g n i x).retired = g.retired := rfl
@[simp] theorem setLane_crossed (n i : Nat) (x : W32) : (setLane g n i x).crossed = g.crossed := rfl
@[simp] theorem setLane_frees (n i : Nat) (x : W32) : (setLane g n i x).frees = g.frees := rfl
@[simp] theorem setLane_rf (n i : Nat) (x : W32) : (setLane g n i x).rf = g.rf := rfl
@[simp] theorem setLane_wait (n i : Nat) (x : W32) : (setLane g n i x).wait = g.wait := rfl
@[simp] theorem setLane_park (n i : Nat) (x : W32) : (setLane g n i x).park = g.park := rfl
@[simp] theorem setLane_since (n i : Nat) (x : W32) : (setLane g n i x).since = g.since := rfl
@[simp] theorem setLane_residue (n i : Nat) (x : W32) : (setLane g n i x).residue = g.residue := rfl
@[simp] theorem setLane_satDue (n i : Nat) (x : W32) : (setLane g n i x).satDue = g.satDue := rfl
@[simp] theorem setLane_trapRound (n i : Nat) (x : W32) : (setLane g n i x).trapRound = g.trapRound := rfl

/-! ### A container written -/

@[simp] theorem setA_id (n i : Nat) (x : W64) : (setA g n i x).id = g.id := rfl
@[simp] theorem setA_live (n i : Nat) (x : W64) : (setA g n i x).live = g.live := rfl
@[simp] theorem setA_exited (n i : Nat) (x : W64) : (setA g n i x).exited = g.exited := rfl
@[simp] theorem setA_freed (n i : Nat) (x : W64) : (setA g n i x).freed = g.freed := rfl
@[simp] theorem setA_slot (n i : Nat) (x : W64) : (setA g n i x).slot = g.slot := rfl
@[simp] theorem setA_role (n i : Nat) (x : W64) : (setA g n i x).role = g.role := rfl
@[simp] theorem setA_prio (n i : Nat) (x : W64) : (setA g n i x).prio = g.prio := rfl
@[simp] theorem setA_bound (n i : Nat) (x : W64) : (setA g n i x).bound = g.bound := rfl
@[simp] theorem setA_base (n i : Nat) (x : W64) : (setA g n i x).base = g.base := rfl
@[simp] theorem setA_s (n i : Nat) (x : W64) : (setA g n i x).s = g.s := rfl
@[simp] theorem setA_p (n i : Nat) (x : W64) : (setA g n i x).p = g.p := rfl
@[simp] theorem setA_k (n i : Nat) (x : W64) : (setA g n i x).k = g.k := rfl
@[simp] theorem setA_n (n i : Nat) (x : W64) : (setA g n i x).n = g.n := rfl
@[simp] theorem setA_v (n i : Nat) (x : W64) : (setA g n i x).v = g.v := rfl
@[simp] theorem setA_maps (n i : Nat) (x : W64) : (setA g n i x).maps = g.maps := rfl
@[simp] theorem setA_streams (n i : Nat) (x : W64) : (setA g n i x).streams = g.streams := rfl
@[simp] theorem setA_forms (n i : Nat) (x : W64) : (setA g n i x).forms = g.forms := rfl
@[simp] theorem setA_pc (n i : Nat) (x : W64) : (setA g n i x).pc = g.pc := rfl
@[simp] theorem setA_slotB (n i : Nat) (x : W64) : (setA g n i x).slotB = g.slotB := rfl
@[simp] theorem setA_pos (n i : Nat) (x : W64) : (setA g n i x).pos = g.pos := rfl
@[simp] theorem setA_word (n i : Nat) (x : W64) : (setA g n i x).word = g.word := rfl
@[simp] theorem setA_dec (n i : Nat) (x : W64) : (setA g n i x).dec = g.dec := rfl
@[simp] theorem setA_hmode (n i : Nat) (x : W64) : (setA g n i x).hmode = g.hmode := rfl
@[simp] theorem setA_vec (n i : Nat) (x : W64) : (setA g n i x).vec = g.vec := rfl
@[simp] theorem setA_cls (n i : Nat) (x : W64) : (setA g n i x).cls = g.cls := rfl
@[simp] theorem setA_harea (n i : Nat) (x : W64) : (setA g n i x).harea = g.harea := rfl
@[simp] theorem setA_clkr (n i : Nat) (x : W64) : (setA g n i x).clkr = g.clkr := rfl
@[simp] theorem setA_lane (n i : Nat) (x : W64) : (setA g n i x).lane = g.lane := rfl
@[simp] theorem setA_copies (n i : Nat) (x : W64) : (setA g n i x).copies = g.copies := rfl
@[simp] theorem setA_mapops (n i : Nat) (x : W64) : (setA g n i x).mapops = g.mapops := rfl
@[simp] theorem setA_bobs (n i : Nat) (x : W64) : (setA g n i x).bobs = g.bobs := rfl
@[simp] theorem setA_imgs (n i : Nat) (x : W64) : (setA g n i x).imgs = g.imgs := rfl
@[simp] theorem setA_seqn (n i : Nat) (x : W64) : (setA g n i x).seqn = g.seqn := rfl
@[simp] theorem setA_fences (n i : Nat) (x : W64) : (setA g n i x).fences = g.fences := rfl
@[simp] theorem setA_relNext (n i : Nat) (x : W64) : (setA g n i x).relNext = g.relNext := rfl
@[simp] theorem setA_lastRead (n i : Nat) (x : W64) : (setA g n i x).lastRead = g.lastRead := rfl
@[simp] theorem setA_lastSeq (n i : Nat) (x : W64) : (setA g n i x).lastSeq = g.lastSeq := rfl
@[simp] theorem setA_lastBound (n i : Nat) (x : W64) : (setA g n i x).lastBound = g.lastBound := rfl
@[simp] theorem setA_observed (n i : Nat) (x : W64) : (setA g n i x).observed = g.observed := rfl
@[simp] theorem setA_retired (n i : Nat) (x : W64) : (setA g n i x).retired = g.retired := rfl
@[simp] theorem setA_crossed (n i : Nat) (x : W64) : (setA g n i x).crossed = g.crossed := rfl
@[simp] theorem setA_frees (n i : Nat) (x : W64) : (setA g n i x).frees = g.frees := rfl
@[simp] theorem setA_rf (n i : Nat) (x : W64) : (setA g n i x).rf = g.rf := rfl
@[simp] theorem setA_wait (n i : Nat) (x : W64) : (setA g n i x).wait = g.wait := rfl
@[simp] theorem setA_park (n i : Nat) (x : W64) : (setA g n i x).park = g.park := rfl
@[simp] theorem setA_since (n i : Nat) (x : W64) : (setA g n i x).since = g.since := rfl
@[simp] theorem setA_residue (n i : Nat) (x : W64) : (setA g n i x).residue = g.residue := rfl
@[simp] theorem setA_satDue (n i : Nat) (x : W64) : (setA g n i x).satDue = g.satDue := rfl
@[simp] theorem setA_trapRound (n i : Nat) (x : W64) : (setA g n i x).trapRound = g.trapRound := rfl

/-! ### A map bound -/

@[simp] theorem setMap_id (n : Nat) (d : W64) : (setMap g n d).id = g.id := by unfold setMap; split <;> (try split) <;> rfl
@[simp] theorem setMap_live (n : Nat) (d : W64) : (setMap g n d).live = g.live := by unfold setMap; split <;> (try split) <;> rfl
@[simp] theorem setMap_exited (n : Nat) (d : W64) : (setMap g n d).exited = g.exited := by unfold setMap; split <;> (try split) <;> rfl
@[simp] theorem setMap_freed (n : Nat) (d : W64) : (setMap g n d).freed = g.freed := by unfold setMap; split <;> (try split) <;> rfl
@[simp] theorem setMap_slot (n : Nat) (d : W64) : (setMap g n d).slot = g.slot := by unfold setMap; split <;> (try split) <;> rfl
@[simp] theorem setMap_role (n : Nat) (d : W64) : (setMap g n d).role = g.role := by unfold setMap; split <;> (try split) <;> rfl
@[simp] theorem setMap_prio (n : Nat) (d : W64) : (setMap g n d).prio = g.prio := by unfold setMap; split <;> (try split) <;> rfl
@[simp] theorem setMap_bound (n : Nat) (d : W64) : (setMap g n d).bound = g.bound := by unfold setMap; split <;> (try split) <;> rfl
@[simp] theorem setMap_base (n : Nat) (d : W64) : (setMap g n d).base = g.base := by unfold setMap; split <;> (try split) <;> rfl
@[simp] theorem setMap_s (n : Nat) (d : W64) : (setMap g n d).s = g.s := by unfold setMap; split <;> (try split) <;> rfl
@[simp] theorem setMap_p (n : Nat) (d : W64) : (setMap g n d).p = g.p := by unfold setMap; split <;> (try split) <;> rfl
@[simp] theorem setMap_k (n : Nat) (d : W64) : (setMap g n d).k = g.k := by unfold setMap; split <;> (try split) <;> rfl
@[simp] theorem setMap_n (n : Nat) (d : W64) : (setMap g n d).n = g.n := by unfold setMap; split <;> (try split) <;> rfl
@[simp] theorem setMap_v (n : Nat) (d : W64) : (setMap g n d).v = g.v := by unfold setMap; split <;> (try split) <;> rfl
@[simp] theorem setMap_acc (n : Nat) (d : W64) : (setMap g n d).acc = g.acc := by unfold setMap; split <;> (try split) <;> rfl
@[simp] theorem setMap_streams (n : Nat) (d : W64) : (setMap g n d).streams = g.streams := by unfold setMap; split <;> (try split) <;> rfl
@[simp] theorem setMap_forms (n : Nat) (d : W64) : (setMap g n d).forms = g.forms := by unfold setMap; split <;> (try split) <;> rfl
@[simp] theorem setMap_pc (n : Nat) (d : W64) : (setMap g n d).pc = g.pc := by unfold setMap; split <;> (try split) <;> rfl
@[simp] theorem setMap_slotB (n : Nat) (d : W64) : (setMap g n d).slotB = g.slotB := by unfold setMap; split <;> (try split) <;> rfl
@[simp] theorem setMap_pos (n : Nat) (d : W64) : (setMap g n d).pos = g.pos := by unfold setMap; split <;> (try split) <;> rfl
@[simp] theorem setMap_word (n : Nat) (d : W64) : (setMap g n d).word = g.word := by unfold setMap; split <;> (try split) <;> rfl
@[simp] theorem setMap_dec (n : Nat) (d : W64) : (setMap g n d).dec = g.dec := by unfold setMap; split <;> (try split) <;> rfl
@[simp] theorem setMap_hmode (n : Nat) (d : W64) : (setMap g n d).hmode = g.hmode := by unfold setMap; split <;> (try split) <;> rfl
@[simp] theorem setMap_vec (n : Nat) (d : W64) : (setMap g n d).vec = g.vec := by unfold setMap; split <;> (try split) <;> rfl
@[simp] theorem setMap_cls (n : Nat) (d : W64) : (setMap g n d).cls = g.cls := by unfold setMap; split <;> (try split) <;> rfl
@[simp] theorem setMap_harea (n : Nat) (d : W64) : (setMap g n d).harea = g.harea := by unfold setMap; split <;> (try split) <;> rfl
@[simp] theorem setMap_clkr (n : Nat) (d : W64) : (setMap g n d).clkr = g.clkr := by unfold setMap; split <;> (try split) <;> rfl
@[simp] theorem setMap_lane (n : Nat) (d : W64) : (setMap g n d).lane = g.lane := by unfold setMap; split <;> (try split) <;> rfl
@[simp] theorem setMap_copies (n : Nat) (d : W64) : (setMap g n d).copies = g.copies := by unfold setMap; split <;> (try split) <;> rfl
@[simp] theorem setMap_mapops (n : Nat) (d : W64) : (setMap g n d).mapops = g.mapops := by unfold setMap; split <;> (try split) <;> rfl
@[simp] theorem setMap_bobs (n : Nat) (d : W64) : (setMap g n d).bobs = g.bobs := by unfold setMap; split <;> (try split) <;> rfl
@[simp] theorem setMap_imgs (n : Nat) (d : W64) : (setMap g n d).imgs = g.imgs := by unfold setMap; split <;> (try split) <;> rfl
@[simp] theorem setMap_seqn (n : Nat) (d : W64) : (setMap g n d).seqn = g.seqn := by unfold setMap; split <;> (try split) <;> rfl
@[simp] theorem setMap_fences (n : Nat) (d : W64) : (setMap g n d).fences = g.fences := by unfold setMap; split <;> (try split) <;> rfl
@[simp] theorem setMap_relNext (n : Nat) (d : W64) : (setMap g n d).relNext = g.relNext := by unfold setMap; split <;> (try split) <;> rfl
@[simp] theorem setMap_lastRead (n : Nat) (d : W64) : (setMap g n d).lastRead = g.lastRead := by unfold setMap; split <;> (try split) <;> rfl
@[simp] theorem setMap_lastSeq (n : Nat) (d : W64) : (setMap g n d).lastSeq = g.lastSeq := by unfold setMap; split <;> (try split) <;> rfl
@[simp] theorem setMap_lastBound (n : Nat) (d : W64) : (setMap g n d).lastBound = g.lastBound := by unfold setMap; split <;> (try split) <;> rfl
@[simp] theorem setMap_observed (n : Nat) (d : W64) : (setMap g n d).observed = g.observed := by unfold setMap; split <;> (try split) <;> rfl
@[simp] theorem setMap_retired (n : Nat) (d : W64) : (setMap g n d).retired = g.retired := by unfold setMap; split <;> (try split) <;> rfl
@[simp] theorem setMap_crossed (n : Nat) (d : W64) : (setMap g n d).crossed = g.crossed := by unfold setMap; split <;> (try split) <;> rfl
@[simp] theorem setMap_frees (n : Nat) (d : W64) : (setMap g n d).frees = g.frees := by unfold setMap; split <;> (try split) <;> rfl
@[simp] theorem setMap_rf (n : Nat) (d : W64) : (setMap g n d).rf = g.rf := by unfold setMap; split <;> (try split) <;> rfl
@[simp] theorem setMap_wait (n : Nat) (d : W64) : (setMap g n d).wait = g.wait := by unfold setMap; split <;> (try split) <;> rfl
@[simp] theorem setMap_park (n : Nat) (d : W64) : (setMap g n d).park = g.park := by unfold setMap; split <;> (try split) <;> rfl
@[simp] theorem setMap_since (n : Nat) (d : W64) : (setMap g n d).since = g.since := by unfold setMap; split <;> (try split) <;> rfl
@[simp] theorem setMap_residue (n : Nat) (d : W64) : (setMap g n d).residue = g.residue := by unfold setMap; split <;> (try split) <;> rfl
@[simp] theorem setMap_satDue (n : Nat) (d : W64) : (setMap g n d).satDue = g.satDue := by unfold setMap; split <;> (try split) <;> rfl
@[simp] theorem setMap_trapRound (n : Nat) (d : W64) : (setMap g n d).trapRound = g.trapRound := by unfold setMap; split <;> (try split) <;> rfl

/-! ### Flags raised -/

@[simp] theorem raise_id (f : Flags) : (raise f g).id = g.id := rfl
@[simp] theorem raise_live (f : Flags) : (raise f g).live = g.live := rfl
@[simp] theorem raise_exited (f : Flags) : (raise f g).exited = g.exited := rfl
@[simp] theorem raise_freed (f : Flags) : (raise f g).freed = g.freed := rfl
@[simp] theorem raise_slot (f : Flags) : (raise f g).slot = g.slot := rfl
@[simp] theorem raise_role (f : Flags) : (raise f g).role = g.role := rfl
@[simp] theorem raise_prio (f : Flags) : (raise f g).prio = g.prio := rfl
@[simp] theorem raise_bound (f : Flags) : (raise f g).bound = g.bound := rfl
@[simp] theorem raise_base (f : Flags) : (raise f g).base = g.base := rfl
@[simp] theorem raise_p (f : Flags) : (raise f g).p = g.p := rfl
@[simp] theorem raise_k (f : Flags) : (raise f g).k = g.k := rfl
@[simp] theorem raise_n (f : Flags) : (raise f g).n = g.n := rfl
@[simp] theorem raise_v (f : Flags) : (raise f g).v = g.v := rfl
@[simp] theorem raise_acc (f : Flags) : (raise f g).acc = g.acc := rfl
@[simp] theorem raise_maps (f : Flags) : (raise f g).maps = g.maps := rfl
@[simp] theorem raise_streams (f : Flags) : (raise f g).streams = g.streams := rfl
@[simp] theorem raise_forms (f : Flags) : (raise f g).forms = g.forms := rfl
@[simp] theorem raise_pc (f : Flags) : (raise f g).pc = g.pc := rfl
@[simp] theorem raise_slotB (f : Flags) : (raise f g).slotB = g.slotB := rfl
@[simp] theorem raise_pos (f : Flags) : (raise f g).pos = g.pos := rfl
@[simp] theorem raise_word (f : Flags) : (raise f g).word = g.word := rfl
@[simp] theorem raise_dec (f : Flags) : (raise f g).dec = g.dec := rfl
@[simp] theorem raise_hmode (f : Flags) : (raise f g).hmode = g.hmode := rfl
@[simp] theorem raise_vec (f : Flags) : (raise f g).vec = g.vec := rfl
@[simp] theorem raise_cls (f : Flags) : (raise f g).cls = g.cls := rfl
@[simp] theorem raise_harea (f : Flags) : (raise f g).harea = g.harea := rfl
@[simp] theorem raise_clkr (f : Flags) : (raise f g).clkr = g.clkr := rfl
@[simp] theorem raise_lane (f : Flags) : (raise f g).lane = g.lane := rfl
@[simp] theorem raise_copies (f : Flags) : (raise f g).copies = g.copies := rfl
@[simp] theorem raise_mapops (f : Flags) : (raise f g).mapops = g.mapops := rfl
@[simp] theorem raise_bobs (f : Flags) : (raise f g).bobs = g.bobs := rfl
@[simp] theorem raise_imgs (f : Flags) : (raise f g).imgs = g.imgs := rfl
@[simp] theorem raise_seqn (f : Flags) : (raise f g).seqn = g.seqn := rfl
@[simp] theorem raise_fences (f : Flags) : (raise f g).fences = g.fences := rfl
@[simp] theorem raise_relNext (f : Flags) : (raise f g).relNext = g.relNext := rfl
@[simp] theorem raise_lastRead (f : Flags) : (raise f g).lastRead = g.lastRead := rfl
@[simp] theorem raise_lastSeq (f : Flags) : (raise f g).lastSeq = g.lastSeq := rfl
@[simp] theorem raise_lastBound (f : Flags) : (raise f g).lastBound = g.lastBound := rfl
@[simp] theorem raise_observed (f : Flags) : (raise f g).observed = g.observed := rfl
@[simp] theorem raise_retired (f : Flags) : (raise f g).retired = g.retired := rfl
@[simp] theorem raise_crossed (f : Flags) : (raise f g).crossed = g.crossed := rfl
@[simp] theorem raise_frees (f : Flags) : (raise f g).frees = g.frees := rfl
@[simp] theorem raise_rf (f : Flags) : (raise f g).rf = g.rf := rfl
@[simp] theorem raise_wait (f : Flags) : (raise f g).wait = g.wait := rfl
@[simp] theorem raise_park (f : Flags) : (raise f g).park = g.park := rfl
@[simp] theorem raise_since (f : Flags) : (raise f g).since = g.since := rfl
@[simp] theorem raise_residue (f : Flags) : (raise f g).residue = g.residue := rfl
@[simp] theorem raise_satDue (f : Flags) : (raise f g).satDue = g.satDue := rfl
@[simp] theorem raise_trapRound (f : Flags) : (raise f g).trapRound = g.trapRound := rfl

/-! ### The next slot -/

@[simp] theorem nextSlot_id : (nextSlot g).id = g.id := rfl
@[simp] theorem nextSlot_live : (nextSlot g).live = g.live := rfl
@[simp] theorem nextSlot_exited : (nextSlot g).exited = g.exited := rfl
@[simp] theorem nextSlot_freed : (nextSlot g).freed = g.freed := rfl
@[simp] theorem nextSlot_slot : (nextSlot g).slot = g.slot := rfl
@[simp] theorem nextSlot_role : (nextSlot g).role = g.role := rfl
@[simp] theorem nextSlot_prio : (nextSlot g).prio = g.prio := rfl
@[simp] theorem nextSlot_bound : (nextSlot g).bound = g.bound := rfl
@[simp] theorem nextSlot_base : (nextSlot g).base = g.base := rfl
@[simp] theorem nextSlot_s : (nextSlot g).s = g.s := rfl
@[simp] theorem nextSlot_p : (nextSlot g).p = g.p := rfl
@[simp] theorem nextSlot_k : (nextSlot g).k = g.k := rfl
@[simp] theorem nextSlot_n : (nextSlot g).n = g.n := rfl
@[simp] theorem nextSlot_v : (nextSlot g).v = g.v := rfl
@[simp] theorem nextSlot_acc : (nextSlot g).acc = g.acc := rfl
@[simp] theorem nextSlot_maps : (nextSlot g).maps = g.maps := rfl
@[simp] theorem nextSlot_streams : (nextSlot g).streams = g.streams := rfl
@[simp] theorem nextSlot_forms : (nextSlot g).forms = g.forms := rfl
@[simp] theorem nextSlot_pc : (nextSlot g).pc = g.pc := rfl
@[simp] theorem nextSlot_slotB : (nextSlot g).slotB = g.slotB := rfl
@[simp] theorem nextSlot_word : (nextSlot g).word = g.word := rfl
@[simp] theorem nextSlot_dec : (nextSlot g).dec = g.dec := rfl
@[simp] theorem nextSlot_hmode : (nextSlot g).hmode = g.hmode := rfl
@[simp] theorem nextSlot_vec : (nextSlot g).vec = g.vec := rfl
@[simp] theorem nextSlot_cls : (nextSlot g).cls = g.cls := rfl
@[simp] theorem nextSlot_harea : (nextSlot g).harea = g.harea := rfl
@[simp] theorem nextSlot_clkr : (nextSlot g).clkr = g.clkr := rfl
@[simp] theorem nextSlot_lane : (nextSlot g).lane = g.lane := rfl
@[simp] theorem nextSlot_copies : (nextSlot g).copies = g.copies := rfl
@[simp] theorem nextSlot_mapops : (nextSlot g).mapops = g.mapops := rfl
@[simp] theorem nextSlot_bobs : (nextSlot g).bobs = g.bobs := rfl
@[simp] theorem nextSlot_imgs : (nextSlot g).imgs = g.imgs := rfl
@[simp] theorem nextSlot_seqn : (nextSlot g).seqn = g.seqn := rfl
@[simp] theorem nextSlot_fences : (nextSlot g).fences = g.fences := rfl
@[simp] theorem nextSlot_relNext : (nextSlot g).relNext = g.relNext := rfl
@[simp] theorem nextSlot_lastRead : (nextSlot g).lastRead = g.lastRead := rfl
@[simp] theorem nextSlot_lastSeq : (nextSlot g).lastSeq = g.lastSeq := rfl
@[simp] theorem nextSlot_lastBound : (nextSlot g).lastBound = g.lastBound := rfl
@[simp] theorem nextSlot_observed : (nextSlot g).observed = g.observed := rfl
@[simp] theorem nextSlot_retired : (nextSlot g).retired = g.retired := rfl
@[simp] theorem nextSlot_crossed : (nextSlot g).crossed = g.crossed := rfl
@[simp] theorem nextSlot_frees : (nextSlot g).frees = g.frees := rfl
@[simp] theorem nextSlot_rf : (nextSlot g).rf = g.rf := rfl
@[simp] theorem nextSlot_park : (nextSlot g).park = g.park := rfl
@[simp] theorem nextSlot_since : (nextSlot g).since = g.since := rfl
@[simp] theorem nextSlot_residue : (nextSlot g).residue = g.residue := rfl
@[simp] theorem nextSlot_satDue : (nextSlot g).satDue = g.satDue := rfl
@[simp] theorem nextSlot_trapRound : (nextSlot g).trapRound = g.trapRound := rfl

/-! ### An op held -/

@[simp] theorem holdAt_t : (holdAt s).t = s.t := rfl
@[simp] theorem holdAt_l : (holdAt s).l = s.l := rfl
@[simp] theorem holdAt_p : (holdAt s).p = s.p := rfl
@[simp] theorem holdAt_groups : (holdAt s).groups = s.groups := rfl
@[simp] theorem holdAt_teams : (holdAt s).teams = s.teams := rfl
@[simp] theorem holdAt_launches : (holdAt s).launches = s.launches := rfl
@[simp] theorem holdAt_parts : (holdAt s).parts = s.parts := rfl
@[simp] theorem holdAt_hbm : (holdAt s).hbm = s.hbm := rfl
@[simp] theorem holdAt_recs : (holdAt s).recs = s.recs := rfl
@[simp] theorem holdAt_rels : (holdAt s).rels = s.rels := rfl
@[simp] theorem holdAt_dev : (holdAt s).dev = s.dev := rfl
@[simp] theorem holdAt_agenda : (holdAt s).agenda = s.agenda := rfl
@[simp] theorem holdAt_now : (holdAt s).now = s.now := rfl
@[simp] theorem holdAt_tick : (holdAt s).tick = s.tick := rfl

/-! ### A group parked -/

@[simp] theorem parkAt_t (p : Park) : (parkAt p s).t = s.t := rfl
@[simp] theorem parkAt_l (p : Park) : (parkAt p s).l = s.l := rfl
@[simp] theorem parkAt_p (p : Park) : (parkAt p s).p = s.p := rfl
@[simp] theorem parkAt_groups (p : Park) : (parkAt p s).groups = s.groups := rfl
@[simp] theorem parkAt_teams (p : Park) : (parkAt p s).teams = s.teams := rfl
@[simp] theorem parkAt_launches (p : Park) : (parkAt p s).launches = s.launches := rfl
@[simp] theorem parkAt_parts (p : Park) : (parkAt p s).parts = s.parts := rfl
@[simp] theorem parkAt_hbm (p : Park) : (parkAt p s).hbm = s.hbm := rfl
@[simp] theorem parkAt_recs (p : Park) : (parkAt p s).recs = s.recs := rfl
@[simp] theorem parkAt_rels (p : Park) : (parkAt p s).rels = s.rels := rfl
@[simp] theorem parkAt_dev (p : Park) : (parkAt p s).dev = s.dev := rfl
@[simp] theorem parkAt_agenda (p : Park) : (parkAt p s).agenda = s.agenda := rfl
@[simp] theorem parkAt_now (p : Park) : (parkAt p s).now = s.now := rfl
@[simp] theorem parkAt_tick (p : Park) : (parkAt p s).tick = s.tick := rfl

/-! ### An answer -/

@[simp] theorem reply_g (r : Reply) : (reply r s).g = s.g := rfl
@[simp] theorem reply_t (r : Reply) : (reply r s).t = s.t := rfl
@[simp] theorem reply_l (r : Reply) : (reply r s).l = s.l := rfl
@[simp] theorem reply_p (r : Reply) : (reply r s).p = s.p := rfl
@[simp] theorem reply_groups (r : Reply) : (reply r s).groups = s.groups := rfl
@[simp] theorem reply_teams (r : Reply) : (reply r s).teams = s.teams := rfl
@[simp] theorem reply_launches (r : Reply) : (reply r s).launches = s.launches := rfl
@[simp] theorem reply_parts (r : Reply) : (reply r s).parts = s.parts := rfl
@[simp] theorem reply_hbm (r : Reply) : (reply r s).hbm = s.hbm := rfl
@[simp] theorem reply_recs (r : Reply) : (reply r s).recs = s.recs := rfl
@[simp] theorem reply_rels (r : Reply) : (reply r s).rels = s.rels := rfl
@[simp] theorem reply_agenda (r : Reply) : (reply r s).agenda = s.agenda := rfl
@[simp] theorem reply_now (r : Reply) : (reply r s).now = s.now := rfl
@[simp] theorem reply_tick (r : Reply) : (reply r s).tick = s.tick := rfl

/-! ### A group updated -/

@[simp] theorem updGroup_t (k : Gid) (f : Group → Group) : (updGroup k f s).t = s.t := by unfold updGroup; split <;> rfl
@[simp] theorem updGroup_l (k : Gid) (f : Group → Group) : (updGroup k f s).l = s.l := by unfold updGroup; split <;> rfl
@[simp] theorem updGroup_p (k : Gid) (f : Group → Group) : (updGroup k f s).p = s.p := by unfold updGroup; split <;> rfl
@[simp] theorem updGroup_teams (k : Gid) (f : Group → Group) : (updGroup k f s).teams = s.teams := by unfold updGroup; split <;> rfl
@[simp] theorem updGroup_launches (k : Gid) (f : Group → Group) : (updGroup k f s).launches = s.launches := by unfold updGroup; split <;> rfl
@[simp] theorem updGroup_parts (k : Gid) (f : Group → Group) : (updGroup k f s).parts = s.parts := by unfold updGroup; split <;> rfl
@[simp] theorem updGroup_hbm (k : Gid) (f : Group → Group) : (updGroup k f s).hbm = s.hbm := by unfold updGroup; split <;> rfl
@[simp] theorem updGroup_recs (k : Gid) (f : Group → Group) : (updGroup k f s).recs = s.recs := by unfold updGroup; split <;> rfl
@[simp] theorem updGroup_rels (k : Gid) (f : Group → Group) : (updGroup k f s).rels = s.rels := by unfold updGroup; split <;> rfl
@[simp] theorem updGroup_dev (k : Gid) (f : Group → Group) : (updGroup k f s).dev = s.dev := by unfold updGroup; split <;> rfl
@[simp] theorem updGroup_agenda (k : Gid) (f : Group → Group) : (updGroup k f s).agenda = s.agenda := by unfold updGroup; split <;> rfl
@[simp] theorem updGroup_now (k : Gid) (f : Group → Group) : (updGroup k f s).now = s.now := by unfold updGroup; split <;> rfl
@[simp] theorem updGroup_tick (k : Gid) (f : Group → Group) : (updGroup k f s).tick = s.tick := by unfold updGroup; split <;> rfl

/-! ### A team updated -/

@[simp] theorem updTeam_g (k : Tid) (f : Team → Team) : (updTeam k f s).g = s.g := by unfold updTeam; split <;> rfl
@[simp] theorem updTeam_l (k : Tid) (f : Team → Team) : (updTeam k f s).l = s.l := by unfold updTeam; split <;> rfl
@[simp] theorem updTeam_p (k : Tid) (f : Team → Team) : (updTeam k f s).p = s.p := by unfold updTeam; split <;> rfl
@[simp] theorem updTeam_groups (k : Tid) (f : Team → Team) : (updTeam k f s).groups = s.groups := by unfold updTeam; split <;> rfl
@[simp] theorem updTeam_launches (k : Tid) (f : Team → Team) : (updTeam k f s).launches = s.launches := by unfold updTeam; split <;> rfl
@[simp] theorem updTeam_parts (k : Tid) (f : Team → Team) : (updTeam k f s).parts = s.parts := by unfold updTeam; split <;> rfl
@[simp] theorem updTeam_hbm (k : Tid) (f : Team → Team) : (updTeam k f s).hbm = s.hbm := by unfold updTeam; split <;> rfl
@[simp] theorem updTeam_recs (k : Tid) (f : Team → Team) : (updTeam k f s).recs = s.recs := by unfold updTeam; split <;> rfl
@[simp] theorem updTeam_rels (k : Tid) (f : Team → Team) : (updTeam k f s).rels = s.rels := by unfold updTeam; split <;> rfl
@[simp] theorem updTeam_dev (k : Tid) (f : Team → Team) : (updTeam k f s).dev = s.dev := by unfold updTeam; split <;> rfl
@[simp] theorem updTeam_agenda (k : Tid) (f : Team → Team) : (updTeam k f s).agenda = s.agenda := by unfold updTeam; split <;> rfl
@[simp] theorem updTeam_now (k : Tid) (f : Team → Team) : (updTeam k f s).now = s.now := by unfold updTeam; split <;> rfl
@[simp] theorem updTeam_tick (k : Tid) (f : Team → Team) : (updTeam k f s).tick = s.tick := by unfold updTeam; split <;> rfl

/-! ### A launch updated -/

@[simp] theorem updLaunch_g (k : Lid) (f : Launch → Launch) : (updLaunch k f s).g = s.g := by unfold updLaunch; split <;> rfl
@[simp] theorem updLaunch_t (k : Lid) (f : Launch → Launch) : (updLaunch k f s).t = s.t := by unfold updLaunch; split <;> rfl
@[simp] theorem updLaunch_p (k : Lid) (f : Launch → Launch) : (updLaunch k f s).p = s.p := by unfold updLaunch; split <;> rfl
@[simp] theorem updLaunch_groups (k : Lid) (f : Launch → Launch) : (updLaunch k f s).groups = s.groups := by unfold updLaunch; split <;> rfl
@[simp] theorem updLaunch_teams (k : Lid) (f : Launch → Launch) : (updLaunch k f s).teams = s.teams := by unfold updLaunch; split <;> rfl
@[simp] theorem updLaunch_parts (k : Lid) (f : Launch → Launch) : (updLaunch k f s).parts = s.parts := by unfold updLaunch; split <;> rfl
@[simp] theorem updLaunch_hbm (k : Lid) (f : Launch → Launch) : (updLaunch k f s).hbm = s.hbm := by unfold updLaunch; split <;> rfl
@[simp] theorem updLaunch_recs (k : Lid) (f : Launch → Launch) : (updLaunch k f s).recs = s.recs := by unfold updLaunch; split <;> rfl
@[simp] theorem updLaunch_rels (k : Lid) (f : Launch → Launch) : (updLaunch k f s).rels = s.rels := by unfold updLaunch; split <;> rfl
@[simp] theorem updLaunch_dev (k : Lid) (f : Launch → Launch) : (updLaunch k f s).dev = s.dev := by unfold updLaunch; split <;> rfl
@[simp] theorem updLaunch_agenda (k : Lid) (f : Launch → Launch) : (updLaunch k f s).agenda = s.agenda := by unfold updLaunch; split <;> rfl
@[simp] theorem updLaunch_now (k : Lid) (f : Launch → Launch) : (updLaunch k f s).now = s.now := by unfold updLaunch; split <;> rfl
@[simp] theorem updLaunch_tick (k : Lid) (f : Launch → Launch) : (updLaunch k f s).tick = s.tick := by unfold updLaunch; split <;> rfl

/-! ### A partition updated -/

@[simp] theorem updPart_g (n : Nat) (f : Part → Part) : (updPart n f s).g = s.g := by unfold updPart; split <;> rfl
@[simp] theorem updPart_t (n : Nat) (f : Part → Part) : (updPart n f s).t = s.t := by unfold updPart; split <;> rfl
@[simp] theorem updPart_l (n : Nat) (f : Part → Part) : (updPart n f s).l = s.l := by unfold updPart; split <;> rfl
@[simp] theorem updPart_groups (n : Nat) (f : Part → Part) : (updPart n f s).groups = s.groups := by unfold updPart; split <;> rfl
@[simp] theorem updPart_teams (n : Nat) (f : Part → Part) : (updPart n f s).teams = s.teams := by unfold updPart; split <;> rfl
@[simp] theorem updPart_launches (n : Nat) (f : Part → Part) : (updPart n f s).launches = s.launches := by unfold updPart; split <;> rfl
@[simp] theorem updPart_hbm (n : Nat) (f : Part → Part) : (updPart n f s).hbm = s.hbm := by unfold updPart; split <;> rfl
@[simp] theorem updPart_recs (n : Nat) (f : Part → Part) : (updPart n f s).recs = s.recs := by unfold updPart; split <;> rfl
@[simp] theorem updPart_rels (n : Nat) (f : Part → Part) : (updPart n f s).rels = s.rels := by unfold updPart; split <;> rfl
@[simp] theorem updPart_dev (n : Nat) (f : Part → Part) : (updPart n f s).dev = s.dev := by unfold updPart; split <;> rfl
@[simp] theorem updPart_agenda (n : Nat) (f : Part → Part) : (updPart n f s).agenda = s.agenda := by unfold updPart; split <;> rfl
@[simp] theorem updPart_now (n : Nat) (f : Part → Part) : (updPart n f s).now = s.now := by unfold updPart; split <;> rfl
@[simp] theorem updPart_tick (n : Nat) (f : Part → Part) : (updPart n f s).tick = s.tick := by unfold updPart; split <;> rfl

/-! ### A launch ended -/

@[simp] theorem endLaunch_g (k : Lid) (c : W64) : (endLaunch k c s).g = s.g := updLaunch_g _ _ _
@[simp] theorem endLaunch_t (k : Lid) (c : W64) : (endLaunch k c s).t = s.t := updLaunch_t _ _ _
@[simp] theorem endLaunch_p (k : Lid) (c : W64) : (endLaunch k c s).p = s.p := updLaunch_p _ _ _
@[simp] theorem endLaunch_groups (k : Lid) (c : W64) : (endLaunch k c s).groups = s.groups := updLaunch_groups _ _ _
@[simp] theorem endLaunch_teams (k : Lid) (c : W64) : (endLaunch k c s).teams = s.teams := updLaunch_teams _ _ _
@[simp] theorem endLaunch_parts (k : Lid) (c : W64) : (endLaunch k c s).parts = s.parts := updLaunch_parts _ _ _
@[simp] theorem endLaunch_hbm (k : Lid) (c : W64) : (endLaunch k c s).hbm = s.hbm := updLaunch_hbm _ _ _
@[simp] theorem endLaunch_recs (k : Lid) (c : W64) : (endLaunch k c s).recs = s.recs := updLaunch_recs _ _ _
@[simp] theorem endLaunch_rels (k : Lid) (c : W64) : (endLaunch k c s).rels = s.rels := updLaunch_rels _ _ _
@[simp] theorem endLaunch_dev (k : Lid) (c : W64) : (endLaunch k c s).dev = s.dev := updLaunch_dev _ _ _
@[simp] theorem endLaunch_agenda (k : Lid) (c : W64) : (endLaunch k c s).agenda = s.agenda := updLaunch_agenda _ _ _
@[simp] theorem endLaunch_now (k : Lid) (c : W64) : (endLaunch k c s).now = s.now := updLaunch_now _ _ _
@[simp] theorem endLaunch_tick (k : Lid) (c : W64) : (endLaunch k c s).tick = s.tick := updLaunch_tick _ _ _

/-! ### Focus on a group -/

@[simp] theorem focusGroup_t (k : Gid) : (focusGroup k s).t = s.t := by unfold focusGroup; split <;> (try split) <;> rfl
@[simp] theorem focusGroup_l (k : Gid) : (focusGroup k s).l = s.l := by unfold focusGroup; split <;> (try split) <;> rfl
@[simp] theorem focusGroup_p (k : Gid) : (focusGroup k s).p = s.p := by unfold focusGroup; split <;> (try split) <;> rfl
@[simp] theorem focusGroup_teams (k : Gid) : (focusGroup k s).teams = s.teams := by unfold focusGroup; split <;> (try split) <;> rfl
@[simp] theorem focusGroup_launches (k : Gid) : (focusGroup k s).launches = s.launches := by unfold focusGroup; split <;> (try split) <;> rfl
@[simp] theorem focusGroup_parts (k : Gid) : (focusGroup k s).parts = s.parts := by unfold focusGroup; split <;> (try split) <;> rfl
@[simp] theorem focusGroup_hbm (k : Gid) : (focusGroup k s).hbm = s.hbm := by unfold focusGroup; split <;> (try split) <;> rfl
@[simp] theorem focusGroup_recs (k : Gid) : (focusGroup k s).recs = s.recs := by unfold focusGroup; split <;> (try split) <;> rfl
@[simp] theorem focusGroup_rels (k : Gid) : (focusGroup k s).rels = s.rels := by unfold focusGroup; split <;> (try split) <;> rfl
@[simp] theorem focusGroup_dev (k : Gid) : (focusGroup k s).dev = s.dev := by unfold focusGroup; split <;> (try split) <;> rfl
@[simp] theorem focusGroup_agenda (k : Gid) : (focusGroup k s).agenda = s.agenda := by unfold focusGroup; split <;> (try split) <;> rfl
@[simp] theorem focusGroup_now (k : Gid) : (focusGroup k s).now = s.now := by unfold focusGroup; split <;> (try split) <;> rfl
@[simp] theorem focusGroup_tick (k : Gid) : (focusGroup k s).tick = s.tick := by unfold focusGroup; split <;> (try split) <;> rfl

/-! ### Focus on a team -/

@[simp] theorem focusTeam_g (k : Tid) : (focusTeam k s).g = s.g := by unfold focusTeam; split <;> (try split) <;> rfl
@[simp] theorem focusTeam_l (k : Tid) : (focusTeam k s).l = s.l := by unfold focusTeam; split <;> (try split) <;> rfl
@[simp] theorem focusTeam_p (k : Tid) : (focusTeam k s).p = s.p := by unfold focusTeam; split <;> (try split) <;> rfl
@[simp] theorem focusTeam_groups (k : Tid) : (focusTeam k s).groups = s.groups := by unfold focusTeam; split <;> (try split) <;> rfl
@[simp] theorem focusTeam_launches (k : Tid) : (focusTeam k s).launches = s.launches := by unfold focusTeam; split <;> (try split) <;> rfl
@[simp] theorem focusTeam_parts (k : Tid) : (focusTeam k s).parts = s.parts := by unfold focusTeam; split <;> (try split) <;> rfl
@[simp] theorem focusTeam_hbm (k : Tid) : (focusTeam k s).hbm = s.hbm := by unfold focusTeam; split <;> (try split) <;> rfl
@[simp] theorem focusTeam_recs (k : Tid) : (focusTeam k s).recs = s.recs := by unfold focusTeam; split <;> (try split) <;> rfl
@[simp] theorem focusTeam_rels (k : Tid) : (focusTeam k s).rels = s.rels := by unfold focusTeam; split <;> (try split) <;> rfl
@[simp] theorem focusTeam_dev (k : Tid) : (focusTeam k s).dev = s.dev := by unfold focusTeam; split <;> (try split) <;> rfl
@[simp] theorem focusTeam_agenda (k : Tid) : (focusTeam k s).agenda = s.agenda := by unfold focusTeam; split <;> (try split) <;> rfl
@[simp] theorem focusTeam_now (k : Tid) : (focusTeam k s).now = s.now := by unfold focusTeam; split <;> (try split) <;> rfl
@[simp] theorem focusTeam_tick (k : Tid) : (focusTeam k s).tick = s.tick := by unfold focusTeam; split <;> (try split) <;> rfl

/-! ### Focus on a launch -/

@[simp] theorem focusLaunch_g (k : Lid) : (focusLaunch k s).g = s.g := by unfold focusLaunch; split <;> (try split) <;> rfl
@[simp] theorem focusLaunch_t (k : Lid) : (focusLaunch k s).t = s.t := by unfold focusLaunch; split <;> (try split) <;> rfl
@[simp] theorem focusLaunch_p (k : Lid) : (focusLaunch k s).p = s.p := by unfold focusLaunch; split <;> (try split) <;> rfl
@[simp] theorem focusLaunch_groups (k : Lid) : (focusLaunch k s).groups = s.groups := by unfold focusLaunch; split <;> (try split) <;> rfl
@[simp] theorem focusLaunch_teams (k : Lid) : (focusLaunch k s).teams = s.teams := by unfold focusLaunch; split <;> (try split) <;> rfl
@[simp] theorem focusLaunch_parts (k : Lid) : (focusLaunch k s).parts = s.parts := by unfold focusLaunch; split <;> (try split) <;> rfl
@[simp] theorem focusLaunch_hbm (k : Lid) : (focusLaunch k s).hbm = s.hbm := by unfold focusLaunch; split <;> (try split) <;> rfl
@[simp] theorem focusLaunch_recs (k : Lid) : (focusLaunch k s).recs = s.recs := by unfold focusLaunch; split <;> (try split) <;> rfl
@[simp] theorem focusLaunch_rels (k : Lid) : (focusLaunch k s).rels = s.rels := by unfold focusLaunch; split <;> (try split) <;> rfl
@[simp] theorem focusLaunch_dev (k : Lid) : (focusLaunch k s).dev = s.dev := by unfold focusLaunch; split <;> (try split) <;> rfl
@[simp] theorem focusLaunch_agenda (k : Lid) : (focusLaunch k s).agenda = s.agenda := by unfold focusLaunch; split <;> (try split) <;> rfl
@[simp] theorem focusLaunch_now (k : Lid) : (focusLaunch k s).now = s.now := by unfold focusLaunch; split <;> (try split) <;> rfl
@[simp] theorem focusLaunch_tick (k : Lid) : (focusLaunch k s).tick = s.tick := by unfold focusLaunch; split <;> (try split) <;> rfl

/-! ### Focus on a partition -/

@[simp] theorem focusPart_g (n : Nat) : (focusPart n s).g = s.g := by unfold focusPart; split <;> (try split) <;> rfl
@[simp] theorem focusPart_t (n : Nat) : (focusPart n s).t = s.t := by unfold focusPart; split <;> (try split) <;> rfl
@[simp] theorem focusPart_l (n : Nat) : (focusPart n s).l = s.l := by unfold focusPart; split <;> (try split) <;> rfl
@[simp] theorem focusPart_groups (n : Nat) : (focusPart n s).groups = s.groups := by unfold focusPart; split <;> (try split) <;> rfl
@[simp] theorem focusPart_teams (n : Nat) : (focusPart n s).teams = s.teams := by unfold focusPart; split <;> (try split) <;> rfl
@[simp] theorem focusPart_launches (n : Nat) : (focusPart n s).launches = s.launches := by unfold focusPart; split <;> (try split) <;> rfl
@[simp] theorem focusPart_hbm (n : Nat) : (focusPart n s).hbm = s.hbm := by unfold focusPart; split <;> (try split) <;> rfl
@[simp] theorem focusPart_recs (n : Nat) : (focusPart n s).recs = s.recs := by unfold focusPart; split <;> (try split) <;> rfl
@[simp] theorem focusPart_rels (n : Nat) : (focusPart n s).rels = s.rels := by unfold focusPart; split <;> (try split) <;> rfl
@[simp] theorem focusPart_dev (n : Nat) : (focusPart n s).dev = s.dev := by unfold focusPart; split <;> (try split) <;> rfl
@[simp] theorem focusPart_agenda (n : Nat) : (focusPart n s).agenda = s.agenda := by unfold focusPart; split <;> (try split) <;> rfl
@[simp] theorem focusPart_now (n : Nat) : (focusPart n s).now = s.now := by unfold focusPart; split <;> (try split) <;> rfl
@[simp] theorem focusPart_tick (n : Nat) : (focusPart n s).tick = s.tick := by unfold focusPart; split <;> (try split) <;> rfl

end Sys2Proof.Machine
end

