-- ==== Sys2Proof/Laws/Run.lean ====
section
/-!
SUPPORT. What running an op in its slot can do, said once: the meanings are single calls of these runners.
-/
namespace Sys2Proof.Machine

variable {o : Op} {f : OpF} {s : State} {off body : State → Res State}

/-- The four conditions of an op that issues. -/
theorem issues_iff : issues o f s = true ↔
    waitsExm o s.g = false ∧ would o f s.g = true ∧ waitsRegs o f s.g = false ∧ legal s.l o f = true := by
  simp [issues, Bool.and_eq_true, and_assoc]

/-- An op that issues ends as its body does. -/
theorem runWith_issues (h : issues o f s = true) : runWith o f off body s = finish s (body s) := by
  obtain ⟨h1, h2, h3, h4⟩ := issues_iff.mp h
  simp [runWith, h1, h2, h3, h4]

/-- An op held while an unretired load writes exm. -/
theorem runWith_exm (h : waitsExm o s.g = true) : runWith o f off body s = .next { s with g := { s.g with wait := .hold } } := by
  simp [runWith, h, holdAt]

/-- An op held while an unretired load writes one of its registers. -/
theorem runWith_regs (h1 : waitsExm o s.g = false) (h2 : would o f s.g = true) (h3 : waitsRegs o f s.g = true) :
    runWith o f off body s = .next { s with g := { s.g with wait := .hold } } := by
  simp [runWith, h1, h2, h3, holdAt]

/-- An op whose fields are not legal. -/
theorem runWith_illegal (h1 : waitsExm o s.g = false) (h2 : would o f s.g = true) (h3 : waitsRegs o f s.g = false)
    (h4 : legal s.l o f = false) : runWith o f off body s = .next (trapAt trapIllegal s) := by
  simp [runWith, h1, h2, h3, h4, finish]

/-- An op that would not execute. -/
theorem runWith_off (h1 : waitsExm o s.g = false) (h2 : would o f s.g = false) : runWith o f off body s = finish s (off s) := by
  simp [runWith, h1, h2]

/-- Everything a runner can do. -/
theorem runWith_cases (o : Op) (f : OpF) (off body : State → Res State) (s : State) :
    runWith o f off body s = .next (holdAt s) ∨ runWith o f off body s = .next (trapAt trapIllegal s) ∨
      (issues o f s = true ∧ runWith o f off body s = finish s (body s)) ∨
      (would o f s.g = false ∧ runWith o f off body s = finish s (off s)) := by
  unfold runWith
  split
  · exact .inl rfl
  · next h1 =>
    split
    · next h2 =>
      split
      · exact .inl rfl
      · next h3 =>
        split
        · next h4 => exact .inr (.inr (.inl ⟨issues_iff.mpr ⟨by simpa using h1, h2, by simpa using h3, h4⟩, rfl⟩))
        · exact .inr (.inl rfl)
    · next h2 => exact .inr (.inr (.inr ⟨by simpa using h2, rfl⟩))

/-- An op without an effect where it does not execute. -/
theorem runS_off (h1 : waitsExm o s.g = false) (h2 : would o f s.g = false) : runS o f body s = goesOn s s.g := by
  simp [runS, runWith, h1, h2, finish, goesOn]

/-- An op that issues. -/
theorem runS_issues (h : issues o f s = true) : runS o f body s = finish s (body s) := runWith_issues h

/-- An op over its group that issues and whose body ends well. -/
theorem runG_issues {b : Group → Res Group} {g : Group} (h : issues o f s = true) (e : b s.g = .ok g) : runG o f b s = goesOn s g := by
  rw [runG, runS_issues h, onG, e]; rfl

/-- An op over its group that issues and raises a class. -/
theorem runG_trap {b : Group → Res Group} {i : TrapI} (h : issues o f s = true) (e : b s.g = .trap i) :
    runG o f b s = .next (trapAt i s) := by
  rw [runG, runS_issues h, onG, e]; rfl

/-- An op over its group that issues and cannot trap. -/
theorem runP_issues {b : Group → Group} (h : issues o f s = true) : runP o f b s = goesOn s (b s.g) := runG_issues h rfl

/-- Everything an op over its group that cannot trap can do. -/
theorem runP_cases (o : Op) (f : OpF) (b : Group → Group) (s : State) :
    runP o f b s = .next (holdAt s) ∨ runP o f b s = .next (trapAt trapIllegal s) ∨
      (issues o f s = true ∧ runP o f b s = goesOn s (b s.g)) ∨ (would o f s.g = false ∧ runP o f b s = goesOn s s.g) := by
  rcases runWith_cases o f .ok (onG fun g => .ok (b g)) s with h | h | ⟨h, e⟩ | ⟨h, e⟩
  · exact .inl h
  · exact .inr (.inl h)
  · exact .inr (.inr (.inl ⟨h, runP_issues h⟩))
  · exact .inr (.inr (.inr ⟨h, e⟩))

/-! ### Sequencing of bodies -/

@[simp] theorem Res.bind_ok {α β : Type} (a : α) (k : α → Res β) : (Res.ok a).bind k = k a := rfl
@[simp] theorem Res.bind_block {α β : Type} (t : State) (k : α → Res β) : (Res.block t : Res α).bind k = .block t := rfl
@[simp] theorem Res.bind_trap {α β : Type} (i : TrapI) (k : α → Res β) : (Res.trap i : Res α).bind k = .trap i := rfl
@[simp] theorem Res.bind_park {α β : Type} (p : Park) (k : α → Res β) : (Res.park p : Res α).bind k = .park p := rfl
@[simp] theorem Res.bind_hold {α β : Type} (k : α → Res β) : (Res.hold : Res α).bind k = .hold := rfl

/-- A sequence that ends well did so at each part. -/
theorem Res.bind_eq_ok {α β : Type} {x : Res α} {k : α → Res β} {b : β} (h : x.bind k = .ok b) : ∃ a, x = .ok a ∧ k a = .ok b := by
  cases x <;> simp [Res.bind] at h
  exact ⟨_, rfl, h⟩

@[simp] theorem Res.require_true : Res.require true = .ok () := rfl
@[simp] theorem Res.require_false : Res.require false = .trap trapIllegal := rfl

/-- A requirement that was met. -/
theorem Res.require_eq_ok {b : Bool} : Res.require b = .ok () ↔ b = true := by cases b <;> simp [Res.require]

@[simp] theorem finish_ok (s t : State) : finish s (.ok t) = goesOnWith t := rfl
@[simp] theorem finish_block (s t : State) : finish s (.block t) = .next t := rfl
@[simp] theorem finish_trap (s : State) (i : TrapI) : finish s (.trap i) = .next (trapAt i s) := rfl
@[simp] theorem finish_park (s : State) (p : Park) : finish s (.park p) = .next (parkAt p s) := rfl
@[simp] theorem finish_hold (s : State) : finish s .hold = .next (holdAt s) := rfl

/-! ### Exceptions -/

/-- In handler mode a precise class ends the launch with DOUBLE_FAULT. -/
theorem takeTrap_double {b : Bool} {w : W128} {i : TrapI} (h : s.g.hmode = true) :
    takeTrap b w i s = endLaunch s.l.id (trapCode 20) s := by simp [takeTrap, h]

/-- Outside it the handler is entered: the group changes, and no path finds an older byte of the frame. -/
theorem takeTrap_enter {b : Bool} {w : W128} {i : TrapI} (h : s.g.hmode = false) :
    takeTrap b w i s = { settled (frameLocs s.g.id) s with
      g := enterHandler s.l s.p.regs.vecbase b w i { s.g with trapRound := slotRound s } } := by simp [takeTrap, h]

/-- Settling bytes changes records and release tags alone. -/
theorem settled_eq (as : List Loc) : ∃ rs ts, settled as s = { s with recs := rs, rels := ts } := by
  unfold settled settle dropRelsOf
  (repeat' split) <;> exact ⟨_, _, rfl⟩

/-- Where no record and no tag stands, settling changes nothing. -/
theorem settled_calm {as : List Loc} (h : s.recs = []) (h' : s.rels = []) : settled as s = s := by
  simp [settled, settle, dropRelsOf, h, h']

/-- A class other than MAP_INTEGRITY, raised where no load of the frame is pending or in handler mode. -/
theorem trapAt_takes {i : TrapI} (h : waitsFrame s.g = false ∨ s.g.hmode = true) (c : i.cls ≠ 7) :
    trapAt i s = takeTrap (s.g.pos = .b) s.g.word i s := by
  rcases h with h | h <;> simp [trapAt, h, c]

/-- A class that waits for the loads of its frame. -/
theorem trapAt_waits {i : TrapI} (h : waitsFrame s.g = true) (m : s.g.hmode = false) : trapAt i s = holdAt s := by simp [trapAt, h, m]

/-! ### Focus -/

/-- A group in focus is found there. -/
theorem group?_focus (h : s.g.live = true) : group? s s.g.id = some s.g := by simp [group?, allGroups, h]

/-- A team in focus is found there. -/
theorem team?_focus (h : s.t.live = true) : team? s s.t.id = some s.t := by simp [team?, allTeams, h]

/-- A launch in focus is found there. -/
theorem launch?_focus (h : s.l.live = true) : launch? s s.l.id = some s.l := by simp [launch?, allLaunches, h]

/-- A partition in focus is found there. -/
theorem part?_focus (h : s.p.live = true) : part? s s.p.num = some s.p := by simp [part?, allParts, h]

/-- A partition in focus stays there. -/
theorem focusPart_here {n : Nat} (h : partHere n s) : focusPart n s = s := by simp [focusPart, h.1, h.2]

/-- A launch in focus stays there. -/
theorem focusLaunch_here {k : Lid} (h : s.l.live = true) (e : s.l.id = k) : focusLaunch k s = s := by simp [focusLaunch, h, e]

/-- A team in focus stays there. -/
theorem focusTeam_here {k : Tid} (h : s.t.live = true) (e : s.t.id = k) : focusTeam k s = s := by simp [focusTeam, h, e]

/-- A group in focus stays there. -/
theorem focusGroup_here {k : Gid} (h : s.g.live = true) (e : s.g.id = k) : focusGroup k s = s := by simp [focusGroup, h, e]

/-- A group in focus with its team, launch and partition stays there. -/
theorem focus_here (h : inFocus s) : focus s.g.id s = s := by
  obtain ⟨h1, h2, h3, h4, h5, h6, h7⟩ := h
  rw [focus, focusPart_here ⟨h6, h7⟩, focusLaunch_here h4 h5, focusTeam_here h2 h3, focusGroup_here h1 rfl]

/-- An update of the group in focus. -/
theorem updGroup_focus {u : Group → Group} (h : s.g.live = true) : updGroup s.g.id u s = { s with g := u s.g } := by simp [updGroup, h]

/-- An update of the team in focus. -/
theorem updTeam_focus {u : Team → Team} (h : s.t.live = true) : updTeam s.t.id u s = { s with t := u s.t } := by simp [updTeam, h]

/-- An update of the launch in focus. -/
theorem updLaunch_focus {u : Launch → Launch} (h : s.l.live = true) : updLaunch s.l.id u s = { s with l := u s.l } := by
  simp [updLaunch, h]

/-- An update of the partition in focus. -/
theorem updPart_focus {u : Part → Part} (h : s.p.live = true) : updPart s.p.num u s = { s with p := u s.p } := by simp [updPart, h]

end Sys2Proof.Machine
end

