-- ==== Sys2Proof/Laws/Ops.lean ====
section
/-!
SUPPORT. The shared operations on memory keep every memory in canonical form, and what each of them leaves alone.
-/
namespace Sys2Proof.Machine

variable {s : State}

/-- Reset memory is in canonical form. -/
theorem reset_memWf : memWf State.reset.hbm = true := rfl

/-- An instance updated keeps the form of all of them. -/
theorem updInst_wf {f : Mem → Mem} (hf : ∀ m, memWf m = true → memWf (f m) = true) (i : Nat) :
    ∀ l : List (Nat × Mem), (l.all fun e => memWf e.2) = true → ((updInst i f l).all fun e => memWf e.2) = true
  | [], _ => by simp [updInst, hf [] rfl]
  | (j, m) :: r, h => by
    simp only [List.all_cons, Bool.and_eq_true] at h
    unfold updInst
    split
    · simp [hf m h.1, h.2]
    · simp [h.1, updInst_wf hf i r h.2]

/-- A property of every group is kept by an update that keeps it. -/
theorem updGroup_all {P : Group → Bool} {f : Group → Group} (k : Gid) (hf : ∀ g, P g = true → P (f g) = true)
    (h : (s.g :: s.groups).all P = true) : ((updGroup k f s).g :: (updGroup k f s).groups).all P = true := by
  simp only [List.all_cons, Bool.and_eq_true, List.all_eq_true] at h ⊢
  unfold updGroup
  split
  · exact ⟨hf _ h.1, h.2⟩
  · refine ⟨h.1, fun x hx => ?_⟩
    obtain ⟨y, hy, rfl⟩ := List.mem_map.mp hx
    split
    · exact hf y (h.2 y hy)
    · exact h.2 y hy

/-- A property of every team is kept by an update that keeps it. -/
theorem updTeam_all {P : Team → Bool} {f : Team → Team} (k : Tid) (hf : ∀ t, P t = true → P (f t) = true)
    (h : (s.t :: s.teams).all P = true) : ((updTeam k f s).t :: (updTeam k f s).teams).all P = true := by
  simp only [List.all_cons, Bool.and_eq_true, List.all_eq_true] at h ⊢
  unfold updTeam
  split
  · exact ⟨hf _ h.1, h.2⟩
  · refine ⟨h.1, fun x hx => ?_⟩
    obtain ⟨y, hy, rfl⟩ := List.mem_map.mp hx
    split
    · exact hf y (h.2 y hy)
    · exact h.2 y hy

/-- A property of every launch is kept by an update that keeps it. -/
theorem updLaunch_all {P : Launch → Bool} {f : Launch → Launch} (k : Lid) (hf : ∀ l, P l = true → P (f l) = true)
    (h : (s.l :: s.launches).all P = true) : ((updLaunch k f s).l :: (updLaunch k f s).launches).all P = true := by
  simp only [List.all_cons, Bool.and_eq_true, List.all_eq_true] at h ⊢
  unfold updLaunch
  split
  · exact ⟨hf _ h.1, h.2⟩
  · refine ⟨h.1, fun x hx => ?_⟩
    obtain ⟨y, hy, rfl⟩ := List.mem_map.mp hx
    split
    · exact hf y (h.2 y hy)
    · exact h.2 y hy

/-- A property of every partition is kept by an update that keeps it. -/
theorem updPart_all {P : Part → Bool} {f : Part → Part} (n : Nat) (hf : ∀ p, P p = true → P (f p) = true)
    (h : (s.p :: s.parts).all P = true) : ((updPart n f s).p :: (updPart n f s).parts).all P = true := by
  simp only [List.all_cons, Bool.and_eq_true, List.all_eq_true] at h ⊢
  unfold updPart
  split
  · exact ⟨hf _ h.1, h.2⟩
  · refine ⟨h.1, fun x hx => ?_⟩
    obtain ⟨y, hy, rfl⟩ := List.mem_map.mp hx
    split
    · exact hf y (h.2 y hy)
    · exact h.2 y hy

/-- An update of a group keeps every memory's form if it keeps its handler area's. -/
theorem MemInv.updGroup {k : Gid} {f : Group → Group} (i : MemInv s) (hf : ∀ g, groupMemWf g = true → groupMemWf (f g) = true) :
    MemInv (Machine.updGroup k f s) := by
  obtain ⟨h1, h2, h3, h4, h5⟩ := i
  exact ⟨by simpa using h1, updGroup_all k hf h2, by simpa using h3, by simpa using h4, by simpa using h5⟩

/-- An update of a team keeps every memory's form if it keeps its own. -/
theorem MemInv.updTeam {k : Tid} {f : Team → Team} (i : MemInv s) (hf : ∀ t, teamMemWf t = true → teamMemWf (f t) = true) :
    MemInv (Machine.updTeam k f s) := by
  obtain ⟨h1, h2, h3, h4, h5⟩ := i
  exact ⟨by simpa using h1, by simpa using h2, updTeam_all k hf h3, by simpa using h4, by simpa using h5⟩

/-- An update of a launch keeps every memory's form if it keeps its instances'. -/
theorem MemInv.updLaunch {k : Lid} {f : Launch → Launch} (i : MemInv s) (hf : ∀ l, launchMemWf l = true → launchMemWf (f l) = true) :
    MemInv (Machine.updLaunch k f s) := by
  obtain ⟨h1, h2, h3, h4, h5⟩ := i
  exact ⟨by simpa using h1, by simpa using h2, by simpa using h3, updLaunch_all k hf h4, by simpa using h5⟩

/-- An update of a partition keeps every memory's form if it keeps its sealed contexts'. -/
theorem MemInv.updPart {n : Nat} {f : Part → Part} (i : MemInv s) (hf : ∀ p, partMemWf p = true → partMemWf (f p) = true) :
    MemInv (Machine.updPart n f s) := by
  obtain ⟨h1, h2, h3, h4, h5⟩ := i
  exact ⟨by simpa using h1, by simpa using h2, by simpa using h3, by simpa using h4, updPart_all n hf h5⟩

/-- An update of the memory at a home keeps every memory's form if it keeps that memory's. -/
theorem MemInv.updHome {h : Home} {f : Mem → Mem} (i : MemInv s) (hf : ∀ m, memWf m = true → memWf (f m) = true) :
    MemInv (Machine.updHome h f s) := by
  cases h <;> unfold Machine.updHome
  · exact ⟨hf _ i.1, i.2⟩
  · refine i.updTeam fun t ht => ?_
    simp only [teamMemWf, Bool.and_eq_true] at ht ⊢
    exact ⟨⟨⟨hf _ ht.1.1.1, ht.1.1.2⟩, ht.1.2⟩, ht.2⟩
  · exact i.updGroup fun g hg => hf _ hg
  · refine i.updLaunch fun l hl => ?_
    simp only [launchMemWf, Bool.and_eq_true] at hl ⊢
    exact ⟨updInst_wf hf _ _ hl.1, hl.2⟩
  · refine i.updLaunch fun l hl => ?_
    simp only [launchMemWf, Bool.and_eq_true] at hl ⊢
    exact ⟨hl.1, updInst_wf hf _ _ hl.2⟩
  · refine i.updTeam fun t ht => ?_
    simp only [teamMemWf, Bool.and_eq_true] at ht ⊢
    exact ⟨⟨⟨ht.1.1.1, ht.1.1.2⟩, hf _ ht.1.2⟩, ht.2⟩
  · refine i.updTeam fun t ht => ?_
    simp only [teamMemWf, Bool.and_eq_true] at ht ⊢
    exact ⟨⟨⟨ht.1.1.1, ht.1.1.2⟩, ht.1.2⟩, hf _ ht.2⟩

/-- One byte written by a group keeps every memory's form. -/
theorem MemInv.writeByte {k : Gid} {p : Path} {a : Loc} {va : W64} {b : Byte} (i : MemInv s) : MemInv (Machine.writeByte k p a va b s) := by
  unfold Machine.writeByte
  split
  · exact i.updLaunch fun l hl => hl
  · exact i.updHome fun m hm => memWf_put hm _ _

/-- Bytes written by an op keep every memory's form. -/
theorem MemInv.writeBytesFrom {op : OpId} {p : Path} {va : W64} :
    ∀ (bs : List Byte) {n : Nat} {a : Loc} {s : State}, MemInv s → MemInv (Machine.writeBytesFrom op p va n a bs s)
  | [], _, _, _, i => i
  | _ :: bs, _, _, _, i => MemInv.writeBytesFrom bs i.writeByte

/-- A record of old bytes changes records alone. -/
theorem addRec_eq (op : OpId) (p : Path) (rmw : Bool) (old : List (Loc × Byte)) (s : State) :
    addRec op p rmw old s = { s with recs := (addRec op p rmw old s).recs } := by
  unfold addRec
  split
  · split <;> rfl
  · rfl

/-- A byte that a newer write hides leaves every memory. -/
theorem MemInv.hideByte {k : Gid} {p : Path} {a : Loc} {va : W64} (i : MemInv s) : MemInv (Machine.hideByte k p a va s) := by
  unfold Machine.hideByte
  split
  · exact i.updLaunch fun l hl => hl
  · exact i

/-- Bytes of an access that stands before other writes keep every memory's form. -/
theorem MemInv.writeHidden {op : OpId} {p : Path} {ps : List WriteRec} :
    ∀ (xs : List ((Loc × W64) × Byte)) {s : State}, MemInv s → MemInv (Machine.writeHidden op p ps xs s)
  | [], _, i => i
  | x :: xs, _, i => MemInv.writeHidden xs (by split; exacts [i.hideByte, i.writeByte])

/-- One contiguous access that writes keeps every memory's form. -/
theorem MemInv.putAt {op : OpId} {p : Path} {rmw : Bool} {ps : List WriteRec} {a : Loc} {va : W64} {bs : List Byte} (i : MemInv s) :
    MemInv (Machine.putAt op p rmw ps a va bs s) := by
  unfold Machine.putAt
  dsimp only
  split
  · refine MemInv.writeBytesFrom bs ?_
    rw [addRec_eq]
    exact i
  · exact MemInv.writeHidden _ (show MemInv { s with recs := _ } from i)

/-- Plain writes that end release sequences leave every memory. -/
theorem MemInv.endRelsOf {op : OpId} {as : List (Loc × List OpId)} (i : MemInv s) : MemInv (Machine.endRelsOf op as s) := by
  unfold Machine.endRelsOf
  split <;> exact i

/-- The places of a plain write's bytes cost free values alone. -/
theorem passEach_eq (know : List Crossing) (op : OpId) (p : Path) : ∀ (as : List Loc) (s : State),
    (passEach know op p as s).2 = { s with tick := (passEach know op p as s).2.tick }
  | [], _ => rfl
  | a :: as, s => by
    rw [passEach]
    exact (passEach_eq know op p as _).trans rfl

/-- One contiguous plain write keeps every memory's form. -/
theorem MemInv.writeKnown {know : List Crossing} {op : OpId} {p : Path} {a : Loc} {va : W64} {bs : List Byte} (i : MemInv s) :
    MemInv (Machine.writeKnown know op p a va bs s) := by
  have each : ∀ (xs : List ((Loc × List WriteRec) × Byte)) (n : Nat) {s : State}, MemInv s → MemInv (putEach op p va n xs s) := by
    intro xs
    induction xs with
    | nil => exact fun _ _ i => i
    | cons x xs ih => exact fun n _ i => ih _ i.putAt
  have i' : MemInv (passEach know op p (locsFrom a bs.length) s).2 := by rw [passEach_eq]; exact i
  show MemInv (putPlain op p _ a va bs _)
  unfold putPlain
  split
  · exact i'.endRelsOf.putAt
  · exact each _ _ i'.endRelsOf

/-- One contiguous write of a group keeps every memory's form. -/
theorem MemInv.writeAt {op : OpId} {p : Path} {a : Loc} {va : W64} {bs : List Byte} (i : MemInv s) :
    MemInv (Machine.writeAt op p a va bs s) := i.writeKnown

/-- A write passes no write of its own path class (R113): where no other writes are recorded, it comes after all and costs no free value. -/
theorem passedBy_same {know : List Crossing} {op : OpId} {p : Path} (as : List Loc) (h : ∀ r ∈ s.recs, r.path = p) :
    passedBy know op p as s = ([], s.tick) := by
  have walk : ∀ (meets : WriteRec → Bool) (rs : List WriteRec), (∀ r ∈ rs, r.path = p) →
      passWalk meets (writeFollows s know op p as) rs s.tick = ([], s.tick) := by
    intro meets rs
    induction rs with
    | nil => exact fun _ => rfl
    | cons r rs ih =>
      intro h
      have hr : writeFollows s know op p as r = true := by simp [writeFollows, h r (by simp)]
      simp [passWalk, hr, ih fun q hq => h q (by simp [hq])]
  simp [passedBy, walk _ _ h, mostBefore, fitsBefore]

/-- And so does each byte of a plain write. -/
theorem passEach_same {know : List Crossing} {op : OpId} {p : Path} : ∀ (as : List Loc) {s : State}, (∀ r ∈ s.recs, r.path = p) →
    passEach know op p as s = (as.map fun _ => [], s)
  | [], _, _ => rfl
  | a :: as, _, h => by simp [passEach, passedBy_same [a] h, passEach_same as h]

/-- A plain write where only writes of its own path class are recorded comes after all. -/
theorem writeKnown_same {know : List Crossing} {op : OpId} {p : Path} {a : Loc} {va : W64} {bs : List Byte} (h : ∀ r ∈ s.recs, r.path = p) :
    Machine.writeKnown know op p a va bs s = Machine.putAt op p false [] a va bs (endRels op a bs.length s) := by
  simp [Machine.writeKnown, passEach_same _ h, putPlain, endRels]

/-- A read-modify-write where only writes of its own path class are recorded finds the newest bytes. -/
theorem rmwAt_same {know : List Crossing} {op : OpId} {p : Path} {as : List Loc} (h : ∀ r ∈ s.recs, r.path = p) :
    rmwAt know op p as s = (⟨as.map fun a => viewByte s op.k a, []⟩, s) := by
  simp [rmwAt, passedBy_same as h]
  simp [byteBefore]

/-- An access that passes no write writes its bytes and records the old ones. -/
@[simp] theorem putAt_nil {op : OpId} {p : Path} {rmw : Bool} {a : Loc} {va : W64} {bs : List Byte} :
    Machine.putAt op p rmw [] a va bs s =
      Machine.writeBytesFrom op p va 0 a bs (addRec op p rmw ((locsFrom a bs.length).map fun x => (x, viewByte s op.k x)) s) := by
  simp [Machine.putAt, byteBefore]

/-- A step of focus keeps every memory's form. -/
theorem MemInv.focusGroup {k : Gid} (i : MemInv s) : MemInv (Machine.focusGroup k s) := by
  unfold Machine.focusGroup
  split
  · exact i
  · split
    · exact i
    · next g hg =>
      obtain ⟨h1, h2, h3, h4, h5⟩ := i
      refine ⟨h1, ?_, h3, h4, h5⟩
      simp only [List.all_cons, Bool.and_eq_true, List.all_eq_true] at h2 ⊢
      refine ⟨h2.2 _ (List.mem_of_find?_eq_some hg), fun x hx => ?_⟩
      rcases List.mem_append.mp hx with hx | hx
      · split at hx <;> simp at hx
        exact hx ▸ h2.1
      · exact h2.2 _ (List.mem_of_mem_filter hx)

/-- A scalar register written leaves the handler area. -/
theorem groupMemWf_setS {g : Group} {n : Nat} {x : W64} : groupMemWf (setS g n x) = groupMemWf g := by simp [groupMemWf]

/-- A read of a byte may use up free values and let its group learn of the write it returned; it changes nothing else (R117). -/
theorem readByte_frame (k : Gid) (p : Path) (q : Nat) (a : Loc) (s : State) :
    (readByte k p q a s).2 =
      { s with tick := (readByte k p q a s).2.tick, g := (readByte k p q a s).2.g, groups := (readByte k p q a s).2.groups } := by
  unfold readByte
  dsimp only
  split
  · rfl
  · simp only [learnRead]
    split
    · rfl
    · unfold updGroup
      split <;> rfl

/-- With no write that another path may still see as it was, a byte reads as the group sees it. -/
theorem readByte_calm {k : Gid} {p : Path} {q : Nat} {a : Loc} (h : s.recs = []) :
    readByte k p q a s = (⟨viewByte s k a, s.tick, [], none⟩, s) := by simp [readByte, h]

/-- And so do bytes. -/
theorem readSeen_calm {k : Gid} {p : Path} {q : Nat} (h : s.recs = []) :
    ∀ as, readSeen k p q as s = (as.map fun a => ⟨viewByte s k a, s.tick, [], none⟩, s)
  | [] => rfl
  | a :: as => by simp [readSeen, readByte_calm h, readSeen_calm h as]

/-- The bytes alone. -/
theorem readBytes_calm {k : Gid} {p : Path} {q : Nat} (h : s.recs = []) (as : List Loc) :
    readBytes k p q as s = (bytesAt s k as, s) := by
  simp [readBytes, readSeen_calm h, bytesAt]

/-- A command without a signal updates none. -/
@[simp] theorem commandSignal_none (op : OpId) (p : Path) (s : State) : commandSignal op p none s = s := rfl

/-- A command without a tag counts none. -/
@[simp] theorem commandTag_none (op : OpId) (s : State) : commandTag op none s = s := rfl

end Sys2Proof.Machine
end

