-- ==== Sys2Proof/Tests/Slice0.lean ====
section
/-!
SUPPORT. The model's own tests: ill-formed terms refused, words written out bit by bit from the manual's layouts, single steps with
results taken from the manual, and for every statement with hypotheses a named witness that meets them.
-/
open Sys2Proof Sys2Proof.Machine
namespace Sys2Proof.Tests
set_option Elab.async false

/-! ### Ill-formed terms (WellFormed) -/

/-- A short op with every field zero. -/
def shortZero : OpF := ⟨.short, 0, 0, .none, .none, .none, false, false, false, 0, 0, 0, 0⟩
/-- A long op with every field zero. -/
def longZero : OpF := { shortZero with form := .long }

/-- Each field that a short op does not have, a literal op's and a long op's. -/
theorem test_wf_fields :
    [(Instr.sadd { shortZero with c := ⟨1, 0, false, false⟩ }), .sadd { shortZero with rsv := true }, .sadd { shortZero with sat := true },
     .sadd { shortZero with rnd := 1 }, .sadd { shortZero with imm := 1 }, .sadd { shortZero with lit := 1 },
     .sadd { shortZero with form := .literal, c := ⟨1, 0, false, false⟩ }, .sadd { shortZero with form := .literal, imm := 1 },
     .sadd { longZero with opt := true }, .sadd { longZero with lit := 1 }].all (fun i => !i.wf) = true := by decide +kernel

/-- A form without an opcode, selector bits out of range, the wrong ring bit, and opcodes that are assigned or too large. -/
theorem test_wf_opcodes :
    [(Instr.ssel shortZero), .vadd { shortZero with sub := 1 }, .ringput { shortZero with dst := 1 }, .ringputFree shortZero,
     .unassignedOpcode 0x003 longZero, .unassignedOpcode 0x029 { longZero with sub := 1 }, .unassignedOpcode 0x200 shortZero,
     .unassignedOpcode 0x029 { longZero with opt := true }].all (fun i => !i.wf) = true := by decide +kernel

/-- The terms beside them that are well formed. -/
theorem test_wf_accepts :
    [(Instr.sadd shortZero), .sadd { shortZero with form := .literal, lit := 5 }, .ssel longZero, .vadd { shortZero with sub := 8 },
     .ringput shortZero, .ringputFree { shortZero with dst := 1 }, .unassignedOpcode 0x029 longZero, .unassignedOpcode 0x109 shortZero,
     .next, .wordFetch].all Instr.wf = true := by decide +kernel

/-! ### Words (R126 to R148) -/

/-- A long word: SEQ NEXT, KIND 0b01, reserved bits, then OPC, GUARD p2, DST 0x5A, SRCA register 0xA1 map 3 negated, SRCB register 0x13
with absolute value, SRCC register 0x7E map 15, bit 35, SAT, RND 2, IMM 0x9ABCDEF1. -/
def longWord (opc : Nat) : Nat :=
  (((0 : BitVec 20) ++ (0b01 : BitVec 2) ++ (0 : BitVec 6) ++ BitVec.ofNat 10 opc ++ (0b0010 : BitVec 4) ++ (0x5A : BitVec 8) ++
    (0b10100001001110 : BitVec 14) ++ (0b00010011000001 : BitVec 14) ++ (0b01111110111100 : BitVec 14) ++ (0 : BitVec 1) ++
    (1 : BitVec 1) ++ (0b10 : BitVec 2) ++ (0x9ABCDEF1 : BitVec 32) : BitVec 128)).toNat

/-- Its fields. -/
def longFields : OpF :=
  ⟨.long, 2, 0x5A, ⟨0xA1, 3, true, false⟩, ⟨0x13, 0, false, true⟩, ⟨0x7E, 15, false, false⟩, false, false, true, 2, 0x9ABCDEF1, 0, 0⟩

/-- A paired word: SEQ NEXT, KIND 0b00, slot A with OPC, GUARD negated 3, DST 0x5A, SRCA register 0xA1 map 3 negated, SRCB register 0x13
with absolute value, OPT; slot B a NOP. -/
def shortWord (opc : Nat) : Nat :=
  (((0 : BitVec 20) ++ (0b00 : BitVec 2) ++ (0 : BitVec 6) ++ BitVec.ofNat 9 opc ++ (0b1011 : BitVec 4) ++ (0x5A : BitVec 8) ++
    (0b10100001001110 : BitVec 14) ++ (0b00010011000001 : BitVec 14) ++ (1 : BitVec 1) ++ (0x1F0 : BitVec 9) ++ (0 : BitVec 41) :
    BitVec 128)).toNat

/-- Its fields, with what the opcode carries beside the op. -/
def shortFields (sub : Nat) : OpF :=
  ⟨.short, 11, 0x5A, ⟨0xA1, 3, true, false⟩, ⟨0x13, 0, false, true⟩, .none, true, false, false, 0, 0, 0, BitVec.ofNat 5 sub⟩

/-- Long opcodes of class 0 (R142). -/
theorem test_decode_long0 :
    [(0x000, Instr.sli), (0x001, .slih), (0x002, .smov), (0x003, .sadd), (0x004, .ssub), (0x005, .smul),
     (0x006, .smulhi), (0x007, .sdiv), (0x008, .srem), (0x009, .smin), (0x00A, .smax), (0x00B, .sand), (0x00C, .sor),
     (0x00D, .sxor), (0x00E, .sshl), (0x00F, .sshr), (0x010, .srot), (0x011, .scmp), (0x012, .ssel), (0x013, .sbfx),
     (0x014, .sbfi), (0x015, .spopc), (0x016, .sclz), (0x017, .sctz), (0x018, .sadda), (0x019, .sld), (0x01A, .sst),
     (0x01B, .sfadd), (0x01C, .sfmul), (0x01D, .sfma), (0x01E, .sfcmp), (0x01F, .scvt), (0x020, .kand), (0x021, .kor),
     (0x022, .kxor), (0x023, .nset), (0x024, .nget), (0x025, .clkr), (0x026, .idr), (0x027, .trap), (0x028, .bkpt)].all
      (fun e => decide (decodeTableWord 128 (longWord e.1) = some (e.2 longFields))) = true := by decide +kernel

/-- Long opcodes of class 1 (R143). -/
theorem test_decode_long1 :
    [(0x080, Instr.vmov), (0x081, .vli), (0x082, .vlane), (0x083, .vadd), (0x084, .vsub), (0x085, .vmul),
     (0x086, .vmulhi), (0x087, .vmad), (0x088, .vmin), (0x089, .vmax), (0x08A, .vabsdiff), (0x08B, .vand),
     (0x08C, .vor), (0x08D, .vxor), (0x08E, .vshl), (0x08F, .vshr), (0x090, .vrot), (0x091, .vbfx), (0x092, .vbfi),
     (0x093, .vpopc), (0x094, .vclz), (0x095, .vcmp), (0x096, .vsel)].all
      (fun e => decide (decodeTableWord 128 (longWord e.1) = some (e.2 longFields))) = true := by decide +kernel

/-- Long opcodes of class 2 (R144). -/
theorem test_decode_long2 :
    [(0x100, Instr.vfadd), (0x101, .vfsub), (0x102, .vfmul), (0x103, .vfma), (0x104, .vfmin), (0x105, .vfmax),
     (0x106, .vfcmp), (0x107, .vfrnd), (0x108, .vfclass), (0x109, .vfscale), (0x10A, .vcvt), (0x10B, .vpack),
     (0x10C, .vunpack), (0x110, .vexp2), (0x111, .vlog2), (0x112, .vrcp), (0x113, .vrsq), (0x114, .vsqrt),
     (0x115, .vdiv), (0x116, .vtanh), (0x117, .vsin), (0x118, .vcos)].all
      (fun e => decide (decodeTableWord 128 (longWord e.1) = some (e.2 longFields))) = true := by decide +kernel

/-- Long opcodes of class 3 (R145). -/
theorem test_decode_long3 :
    [(0x180, Instr.vlred), (0x181, .vlscan), (0x182, .vballot), (0x183, .vpermx), (0x184, .vextr), (0x185, .vinsr),
     (0x186, .vrdx), (0x187, .vwrx), (0x188, .pand), (0x189, .por), (0x18A, .pxor)].all
      (fun e => decide (decodeTableWord 128 (longWord e.1) = some (e.2 longFields))) = true := by decide +kernel

/-- Long opcodes of class 4 (R145). -/
theorem test_decode_long4 :
    [(0x200, Instr.mapld), (0x201, .mapst), (0x202, .mapgen), (0x203, .mapset), (0x204, .mapbind), (0x205, .mapstr),
     (0x206, .mapadv), (0x207, .maprel), (0x208, .aclr), (0x209, .amac), (0x20A, .aadd), (0x20B, .ain), (0x20C, .aout),
     (0x20D, .ascale), (0x20E, .asave), (0x20F, .aload), (0x210, .qscan), (0x211, .qpack), (0x212, .qunpack)].all
      (fun e => decide (decodeTableWord 128 (longWord e.1) = some (e.2 longFields))) = true := by decide +kernel

/-- Long opcodes of class 5 (R146). -/
theorem test_decode_long5 :
    [(0x280, Instr.vld), (0x281, .vst), (0x282, .cpy), (0x283, .tmov), (0x284, .atom), (0x285, .ared), (0x286, .fence),
     (0x287, .xfence), (0x288, .promote)].all
      (fun e => decide (decodeTableWord 128 (longWord e.1) = some (e.2 longFields))) = true := by decide +kernel

/-- Long opcodes of class 6 (R145). -/
theorem test_decode_long6 :
    [(0x300, Instr.wait), (0x301, .twany), (0x302, .twall), (0x303, .tfirst), (0x304, .sigadd), (0x305, .sigwait),
     (0x306, .ringput), (0x307, .ringget), (0x308, .ringexp), (0x309, .bar), (0x30A, .roleq), (0x30B, .bob),
     (0x30C, .bobq), (0x30D, .rfbegin), (0x30E, .rftest), (0x30F, .rfend), (0x310, .imgst), (0x311, .symq)].all
      (fun e => decide (decodeTableWord 128 (longWord e.1) = some (e.2 longFields))) = true := by decide +kernel

/-- Long opcodes of class 7 (R145). -/
theorem test_decode_long7 :
    [(0x380, Instr.rte), (0x381, .srd), (0x382, .swr), (0x383, .replayq)].all
      (fun e => decide (decodeTableWord 128 (longWord e.1) = some (e.2 longFields))) = true := by decide +kernel

/-- Short opcodes of class 0 (R142). -/
theorem test_decode_short0 :
    [(0x000, Instr.sli), (0x001, .slih), (0x002, .smov), (0x003, .sadd), (0x004, .ssub), (0x005, .smul),
     (0x006, .smulhi), (0x007, .sdiv), (0x008, .srem), (0x009, .smin), (0x00A, .smax), (0x00B, .sand), (0x00C, .sor),
     (0x00D, .sxor), (0x00E, .sshl), (0x00F, .sshr), (0x010, .srot), (0x011, .scmp), (0x015, .spopc), (0x016, .sclz),
     (0x017, .sctz), (0x019, .sld), (0x01A, .sst), (0x01B, .sfadd), (0x01C, .sfmul), (0x01E, .sfcmp), (0x020, .kand),
     (0x021, .kor), (0x022, .kxor), (0x023, .nset), (0x024, .nget), (0x025, .clkr), (0x027, .trap), (0x028, .bkpt)].all
      (fun e => decide (decodeTableWord 128 (shortWord e.1) = some (e.2 (shortFields 0)))) = true := by decide +kernel

/-- Short opcodes of class 3 (R145). -/
theorem test_decode_short3 :
    [(0x0C2, Instr.vballot), (0x0C3, .vpermx), (0x0C4, .vextr), (0x0C5, .vinsr), (0x0C6, .vrdx), (0x0C7, .vwrx),
     (0x0C8, .pand), (0x0C9, .por), (0x0CA, .pxor)].all
      (fun e => decide (decodeTableWord 128 (shortWord e.1) = some (e.2 (shortFields 0)))) = true := by decide +kernel

/-- Short opcodes of class 4 (R145). -/
theorem test_decode_short4 :
    [(0x100, Instr.mapld), (0x101, .mapst), (0x103, .mapset), (0x104, .mapbind), (0x106, .mapadv), (0x107, .maprel),
     (0x108, .aclr), (0x10A, .aadd)].all
      (fun e => decide (decodeTableWord 128 (shortWord e.1) = some (e.2 (shortFields 0)))) = true := by decide +kernel

/-- Short opcodes of class 6 (R145). -/
theorem test_decode_short6 :
    [(0x180, Instr.wait), (0x181, .twany), (0x182, .twall), (0x183, .tfirst), (0x186, .ringput), (0x187, .ringget),
     (0x188, .ringexp), (0x189, .bar), (0x18A, .roleq), (0x18C, .bobq), (0x18E, .rftest), (0x18F, .rfend),
     (0x191, .symq)].all
      (fun e => decide (decodeTableWord 128 (shortWord e.1) = some (e.2 (shortFields 0)))) = true := by decide +kernel

/-- Short opcodes of class 7 (R145). -/
theorem test_decode_short7 :
    [(0x1C0, Instr.rte), (0x1C1, .srd), (0x1C2, .swr), (0x1C3, .replayq)].all
      (fun e => decide (decodeTableWord 128 (shortWord e.1) = some (e.2 (shortFields 0)))) = true := by decide +kernel

/-- RINGPUT.free has DST bit 0 set (R230), in both forms. -/
theorem test_decode_ringputFree :
    (decodeTableWord 128 (longWord 0x306 + 2 ^ 78) = some (.ringputFree { longFields with dst := 0x5B })) ∧
    (decodeTableWord 128 (shortWord 0x186 + 2 ^ 79) = some (.ringputFree { shortFields 0 with dst := 0x5B })) := by decide +kernel

/-- The typed short rows: every op with its first and last type code (R143, R144, R145), and the widths and spaces of R146. -/
theorem test_decode_short_typed :
    [(0x040, Instr.vmov, 8), (0x047, .vmov, 15), (0x048, .vadd, 8), (0x04F, .vadd, 15), (0x050, .vsub, 8), (0x058, .vmul, 8), (0x060, .vmin, 8),
     (0x068, .vmax, 8), (0x070, .vcmp, 8), (0x078, .vand, 8), (0x07F, .vand, 15), (0x080, .vfadd, 0), (0x084, .vfadd, 4), (0x085, .vexp2, 0),
     (0x087, .vexp2, 2), (0x088, .vfsub, 0), (0x08D, .vlog2, 0), (0x090, .vfmul, 0), (0x095, .vrcp, 0), (0x098, .vfmin, 0), (0x09D, .vrsq, 0),
     (0x0A0, .vfmax, 0), (0x0A5, .vsqrt, 0), (0x0A8, .vfcmp, 0), (0x0AD, .vtanh, 0), (0x0B0, .vfscale, 0), (0x0B5, .vsin, 0),
     (0x0B8, .vfclass, 0), (0x0BC, .vfclass, 4), (0x0BD, .vcos, 0), (0x0BF, .vcos, 2), (0x130, .amac, 0), (0x134, .amac, 4), (0x138, .amac, 8),
     (0x13F, .amac, 15), (0x140, .vld, 0), (0x149, .vld, 9), (0x153, .vld, 19), (0x160, .vst, 0), (0x173, .vst, 19), (0x1F0, .nop, 0),
     (0x1F1, .yield, 1), (0x1FF, .nop, 15)].all
      (fun e => decide (decodeTableWord 128 (shortWord e.1) = some (e.2.1 (shortFields e.2.2)))) = true := by decide +kernel

/-- Opcodes outside the map (R148), among them the short index of an op marked (L). -/
theorem test_decode_unassigned :
    [0x012, 0x029, 0x102, 0x109, 0x135, 0x137, 0x154, 0x174, 0x1C4, 0x1EF].all
      (fun n => decide (decodeTableWord 128 (shortWord n) = some (.unassignedOpcode (BitVec.ofNat 10 n) (shortFields 0)))) = true ∧
    [0x029, 0x097, 0x10D, 0x18B, 0x213, 0x289, 0x312, 0x384, 0x3EF].all
      (fun n => decide (decodeTableWord 128 (longWord n) = some (.unassignedOpcode (BitVec.ofNat 10 n) longFields))) = true := by decide +kernel

/-- The selectors (R129), each with its subfields written out. -/
theorem test_decode_selectors :
    decodeSeq ((0 : BitVec 4) ++ (0 : BitVec 16)) = some .next ∧
    decodeSeq ((1 : BitVec 4) ++ (0 : BitVec 4) ++ (0x801 : BitVec 12)) = some (.jump 0x801) ∧
    decodeSeq ((2 : BitVec 4) ++ (1 : BitVec 1) ++ (5 : BitVec 3) ++ (0x7FF : BitVec 12)) = some (.jumpc true 5 0x7FF) ∧
    decodeSeq ((3 : BitVec 4) ++ (0 : BitVec 4) ++ (7 : BitVec 12)) = some (.call 7) ∧
    decodeSeq ((4 : BitVec 4) ++ (0 : BitVec 16)) = some .ret ∧
    decodeSeq ((5 : BitVec 4) ++ (0 : BitVec 1) ++ (3 : BitVec 3) ++ (0xFFE : BitVec 12)) = some (.loop 3 0xFFE) ∧
    decodeSeq ((6 : BitVec 4) ++ (0 : BitVec 10) ++ (41 : BitVec 6)) = some (.jumpx 41) ∧
    decodeSeq ((7 : BitVec 4) ++ (0 : BitVec 16)) = some .exit ∧
    decodeSeq ((8 : BitVec 4) ++ (0 : BitVec 16)) = some .rfnext ∧
    decodeSeq ((9 : BitVec 4) ++ (0 : BitVec 10) ++ (61 : BitVec 6)) = some (.callx 61) := by decide +kernel

/-- Fields that break R129: each raises ILLEGAL_SEQ; and R127: each raises ILLEGAL_WORD, before it. -/
theorem test_decode_refuses :
    [(0x00001 : BitVec 20), 0x01000, 0x11000, 0x31000, 0x40001, 0x54000, 0x58000, 0x60040, 0x70001, 0x80001, 0x90040, 0xA0000, 0xF0000].all
      (fun x => (decodeSeq x).isNone) = true ∧
    decodeWord (BitVec.ofNat 128 (shortWord 0x003 + 2 ^ 106 * 3)) = .error .illegalWord ∧
    decodeWord (BitVec.ofNat 128 (shortWord 0x003 + 2 ^ 100 + 2 ^ 108)) = .error .illegalWord ∧
    decodeWord (BitVec.ofNat 128 (shortWord 0x003 + 2 ^ 108)) = .error .illegalSeq := by decide +kernel

/-! ### Single steps -/

/-- The loaded program's state (notes/assumptions/2.md). -/
def tB : State := bootState State.reset
/-- The same with another group. -/
def tG (f : Group → Group) : State := { tB with g := f tB.g }
/-- Scalar registers set. -/
def tS (l : List (Nat × W64)) : State := tG fun g => l.foldl (fun g e => setS g e.1 e.2) g
/-- Vector registers set, the same in every lane. -/
def tV (l : List (Nat × W32)) : State := tG fun g => l.foldl (fun g e => setV g e.1 (Vector.replicate 32 e.2)) g
/-- What a next state shows. -/
def shows {α : Type} (r : Out) (f : State → α) : Option α :=
  match r with
  | .next t => some (f t)
  | _ => none

/-- A scalar register. -/
def sr (n : Nat) : Src := ⟨BitVec.ofNat 8 n, 0, false, false⟩
/-- A vector register. -/
def vr (n : Nat) : Src := ⟨BitVec.ofNat 8 n, 0, false, false⟩
/-- The immediate. -/
def im : Src := ⟨0xC0, 15, false, false⟩
/-- A broadcast scalar. -/
def bc (n : Nat) : Src := ⟨BitVec.ofNat 8 n, 15, false, false⟩
/-- A long op without a guard (p7, k7). -/
def lo (dst : Nat) (a b c : Src) (imm : W32) : OpF := ⟨.long, 7, BitVec.ofNat 8 dst, a, b, c, false, false, false, 0, imm, 0, 0⟩

/-- R166: the literal word SLI s2, −2 fetched and run from the loaded state; the 50-bit literal is sign-extended. -/
theorem test_step_sli :
    shows (step (State.reset.withFetchWord 128
      (((0 : BitVec 20) ++ (0b10 : BitVec 2) ++ (0 : BitVec 6) ++ (0x000 : BitVec 9) ++ (7 : BitVec 4) ++ (2 : BitVec 8) ++
        (0b11000000111100 : BitVec 14) ++ (0 : BitVec 14) ++ (0 : BitVec 1) ++ (0x3FFFFFFFFFFFE : BitVec 50) : BitVec 128)).toNat))
      (fun t => (getS t.g 2, t.g.pos)) = some (0xFFFFFFFFFFFFFFFE, .seq) := by decide +kernel

/-- R167: 2^63 − 1 plus 1 wraps, and with the saturate option is clamped with SAT. -/
theorem test_sadd :
    shows (exec (.sadd (lo 3 (sr 1) (sr 2) .none 0)) (tS [(1, 0x7FFFFFFFFFFFFFFF), (2, 1)])) (fun t => (getS t.g 3, getS t.g 60)) =
      some (0x8000000000000000, 0) ∧
    shows (exec (.sadd { lo 3 (sr 1) (sr 2) .none 0 with sat := true }) (tS [(1, 0x7FFFFFFFFFFFFFFF), (2, 1)])) (fun t => getS t.g 3) =
      some 0x7FFFFFFFFFFFFFFF := by decide +kernel

/-- R167: −7 / 2 truncates to −3 and −7 rem 2 is −1; by zero the results are 0 and a. -/
theorem test_sdiv_srem :
    shows (exec (.sdiv (lo 3 (sr 1) (sr 2) .none 0)) (tS [(1, -7), (2, 2)])) (fun t => getS t.g 3) = some (-3) ∧
    shows (exec (.srem (lo 3 (sr 1) (sr 2) .none 0)) (tS [(1, -7), (2, 2)])) (fun t => getS t.g 3) = some (-1) ∧
    shows (exec (.sdiv (lo 3 (sr 1) (sr 2) .none 0)) (tS [(1, -7)])) (fun t => getS t.g 3) = some 0 ∧
    shows (exec (.srem (lo 3 (sr 1) (sr 2) .none 0)) (tS [(1, -7)])) (fun t => getS t.g 3) = some (-7) := by decide +kernel

/-- R182: sub-vectors do not carry into each other: 0x7F + 1 in every i8 is 0x80. -/
theorem test_vadd_i8 :
    shows (exec (.vadd (lo 32 (vr 8) (vr 16) .none 0x0C000000)) (tV [(8, 0x7F7F7FFF), (16, 0x01010101)])) (fun t => getLane t.g 32 31) =
      some 0x80808000 := by decide +kernel

/-- R74, R75: 1 + 2^−24 in f32 is a tie, and goes to the even encoding with NX; R80: ∞ − ∞ is the canonical NaN with NV. -/
theorem test_vfadd :
    shows (exec (.vfadd (lo 32 (vr 8) (vr 16) .none 0)) (tV [(8, 0x3F800000), (16, 0x33800000)])) (fun t => getLane t.g 32 0) =
      some 0x3F800000 ∧
    shows (exec (.vfadd (lo 32 (vr 8) (vr 16) .none 0)) (tV [(8, 0x7F800000), (16, 0xFF800000)])) (fun t => getLane t.g 32 0) =
      some 0x7FC00000 := by decide +kernel

/-- R81: 2^1 = 2, √4 = 2 and 1/4 in f32. -/
theorem test_special :
    shows (exec (.vexp2 (lo 32 (vr 8) .none .none 0)) (tV [(8, 0x3F800000)])) (fun t => getLane t.g 32 5) = some 0x40000000 ∧
    shows (exec (.vsqrt (lo 32 (vr 8) .none .none 0)) (tV [(8, 0x40800000)])) (fun t => getLane t.g 32 5) = some 0x40000000 ∧
    shows (exec (.vrcp (lo 32 (vr 8) .none .none 0)) (tV [(8, 0x40800000)])) (fun t => getLane t.g 32 5) = some 0x3E800000 := by decide +kernel

/-- R107: an error code stays; a negative delta is taken as a code; a sum above 2^63 − 1 clamps. -/
theorem test_signal_add :
    signalNew (-5) 7 = (-5, false) ∧ signalNew 3 (-34) = (-34, false) ∧ signalNew 0x7FFFFFFFFFFFFFFF 1 = (0x7FFFFFFFFFFFFFFF, true) ∧
    signalNew 3 4 = (7, false) := by decide +kernel

/-- R160: LOOP with 2 branches and leaves 1; with 1 falls through and leaves 0. -/
theorem test_loop :
    shows (exec (.loop 1 0xFFF) (tG fun g => { setN g 1 2 with pc := 0x10020 })) (fun t => (getN t.g 1, t.g.pc)) = some (1, 0x10010) ∧
    shows (exec (.loop 1 0xFFF) (tG fun g => { setN g 1 1 with pc := 0x10020 })) (fun t => (getN t.g 1, t.g.pc)) = some (0, 0x10030) := by
  decide +kernel

/-- R177, R300, R301: TRAP enters the handler with class 13 in s1, and the frame holds the code and the old s1. -/
theorem test_trap :
    shows (exec (.trap (lo 0 im .none .none 0x1234)) { tS [(1, 99)] with p := { tB.p with regs := { tB.p.regs with vecbase := 0x5000 } } })
      (fun t => (t.g.pc, t.g.hmode, getS t.g 1, memNat t.g.harea 0x5A 2, memNat t.g.harea 8 8)) =
      some (0x5000, true, 13, 0x1234, 99) := by decide +kernel

/-- R8, R219: a 32-bit store puts the lowest byte at the lowest address. -/
theorem test_store_order :
    memBytes (memPutNat [] 0x100 4 0x11223344) 0x100 4 = [0x44, 0x33, 0x22, 0x11] := by decide +kernel

/-- R344 names SHAKE256: the first 64 bytes for the empty message, as FIPS 202 gives them. -/
theorem test_shake256 :
    leBytes 8 (shake256 []).toNat = [0x46, 0xb9, 0xdd, 0x2b, 0x0b, 0xa8, 0x8d, 0x13] := by decide +kernel

/-! ### Witnesses: concrete operands and states that meet the hypotheses of the statements -/

/-- A register field of a kind. -/
def wReg (k : FK) (n : Nat) : Src :=
  match k with
  | .none | .raw => Src.none
  | .hash => im
  | .vec .. | .vreg | .vregRW => vr (8 * n)
  | .bc | .vb _ => bc n
  | _ => sr n
/-- A destination of a kind. -/
def wDst (k : DK) : BitVec 8 :=
  match k with
  | .none | .space | .ringBit | .barId => 0
  | .condPair | .predPair => 0x11
  | .vec | .vecR | .vecRW | .acc | .accRW | .accSp | .accSpR => 32
  | _ => 3
/-- Types that an op accepts. -/
def wTy (r : TyRule) : BitVec 32 :=
  match r with
  | .int | .any | .scvt => 0x08000000
  | .cvt => 0x10000000
  | .quant => 0x05000000
  | .dequant => 0x50000000
  | _ => 0
/-- A legal long op: its fields name what the manual's tables let them name. -/
def wOp (o : Op) : OpF :=
  let sp := opSpec o
  { lo 0 (if o = .mapgen then .none else wReg sp.a 1) (wReg sp.b 2) (wReg sp.c 3) (wTy sp.ty) with
    dst := if o = .ringputFree then 1 else wDst sp.dst }
/-- The same with bits 31:0 given. -/
def wI (o : Op) (imm : W32) : OpF := { wOp o with imm := imm }

/-- Whether a check answers. -/
def okB {α : Type} (r : Res α) : Bool :=
  match r with
  | .ok _ => true
  | _ => false
theorem okB_unit {r : Res Unit} (h : okB r = true) : r = .ok () := by cases r <;> simp_all [okB]
theorem okB_some {α : Type} {r : Res α} (h : okB r = true) : ∃ a, r = .ok a := by cases r <;> simp_all [okB]
theorem okB_both {α : Type} {r : Res α} {f : α → Res Unit} (h : okB (r.bind f) = true) : ∃ a, r = .ok a ∧ f a = .ok () := by
  cases r <;> simp_all [okB, Res.bind]
  split at h <;> simp_all
/-- Whether a check answers something that meets a condition. -/
def okP {α : Type} (r : Res α) (p : α → Bool) : Bool :=
  match r with
  | .ok a => p a
  | _ => false
theorem okP_some {α : Type} {r : Res α} {p : α → Prop} [DecidablePred p] (h : okP r (fun a => decide (p a)) = true) : ∃ a, r = .ok a ∧ p a := by
  cases r <;> simp_all [okP]

/-- Vector ops that are ready: their fields are legal and their sources unmapped. -/
def readyB (o : Op) (f : OpF) (t : Ty) (s : State) : Bool := issues o f s && okB (mapChecks s (lanesOn f s) t (mappedSrcs (spec o f) f))
theorem readyB_ready {o : Op} {f : OpF} {t : Ty} {s : State} (h : readyB o f t s = true) : vecReady o f t s := by
  simp only [readyB, Bool.and_eq_true] at h
  exact ⟨h.1, okB_unit h.2⟩

/-- Every op of the scalar statements issues on its legal form. -/
theorem witness_scalar_ops :
    [Op.sli, .slih, .smov, .smin, .smax, .sand, .sor, .sxor, .sshl, .sshr, .srot, .sadd, .ssub, .smul, .smulhi, .sdiv, .srem, .scmp, .kand,
     .kor, .kxor, .nset, .nget, .clkr, .idr, .ssel, .sbfx, .sbfi, .spopc, .sclz, .sctz, .sadda, .sfadd, .sfmul, .sfma, .sfcmp, .scvt].all
      (fun o => issues o (wOp o) tB) = true := by decide +kernel

/-- Each relation of SCMP, each selector of IDR, and the guard k0, false, under which both compares write false. -/
theorem witness_ConditionsCountersIdentifiers :
    [0x11, 0x51, 0x91, 0xD1].all (fun d => issues .scmp { wOp .scmp with dst := d } tB) = true ∧
    (List.range 13).all (fun n => issues .idr (wI .idr (BitVec.ofNat 32 n)) tB) = true ∧ tB.l.replay = false ∧
    [Op.scmp, .sfcmp].all (fun o => !waitsExm o tB.g && !would o { wOp o with guard := 0 } tB.g) = true := by decide +kernel

/-- ScalarMovesAndLogic: SLI with s1 as its source. -/
theorem witness_ScalarMovesAndLogic :
    (let f := { wOp .sli with a := sr 1 }
     isImm f.a = false ∧ waitsExm .sli tB.g = false ∧ would .sli f tB.g = true ∧ waitsRegs .sli f tB.g = false) := by decide +kernel

/-- A field that ends at bit 63, signed for SBFX, and one past it; a signed field for SBFI; shifts of 7 and 8; SSEL with a negated condition;
a wide conversion between f32 and i32. -/
theorem witness_ScalarBits_ScalarFloats :
    (issues .sbfx (wI .sbfx 0x1FC0) tB = true ∧ issues .sbfi (wI .sbfi 0x0FC0) tB = true ∧ issues .sadda (wI .sadda 7) tB = true) ∧
    (issues .sbfx (wI .sbfx 0x1FC1) tB = true ∧ issues .sbfi (wI .sbfi 0x1000) tB = true ∧ issues .sadda (wI .sadda 8) tB = true) ∧
    (let f := { wOp .ssel with c := { (wOp .ssel).c with neg := true } }
     waitsExm .ssel tB.g = false ∧ would .ssel f tB.g = true ∧ waitsRegs .ssel f tB.g = false) ∧
    (issues .sfcmp (wI .sfcmp 1) tB = true ∧ issues .scvt (wI .scvt 0x08000001) tB = true) := by decide +kernel

/-- The ops of VectorIntegers, VectorBits, PredicatesAndSelects, VectorFloats, SpecialFunctions, LaneOps and Accumulators whose type is TYPE0. -/
theorem witness_vector_ops : ∀ o ∈ [Op.vmov, .vadd, .vsub, .vmul, .vmulhi, .vmad, .vmin, .vmax, .vabsdiff, .vand, .vor, .vxor, .vshl, .vshr,
    .vrot, .vbfx, .vbfi, .vpopc, .vclz, .vcmp, .vfcmp, .vsel, .vfadd, .vfsub, .vfmul, .vfma, .vfmin, .vfmax, .vfrnd, .vfclass, .vfscale, .vexp2,
    .vlog2, .vrcp, .vrsq, .vsqrt, .vdiv, .vtanh, .vsin, .vcos, .vlred, .vlscan, .ain, .amac], vecReady o (wOp o) (ty0 (wOp o)) tB :=
  fun o h => readyB_ready ((by decide +kernel : ∀ o ∈ [Op.vmov, .vadd, .vsub, .vmul, .vmulhi, .vmad, .vmin, .vmax, .vabsdiff, .vand, .vor, .vxor,
    .vshl, .vshr, .vrot, .vbfx, .vbfi, .vpopc, .vclz, .vcmp, .vfcmp, .vsel, .vfadd, .vfsub, .vfmul, .vfma, .vfmin, .vfmax, .vfrnd, .vfclass, .vfscale,
    .vexp2, .vlog2, .vrcp, .vrsq, .vsqrt, .vdiv, .vtanh, .vsin, .vcos, .vlred, .vlscan, .ain, .amac],
    readyB o (wOp o) (ty0 (wOp o)) tB = true) o h)

/-- The ops whose type is fixed: VLI, VLANE, VPERMX, ASCALE. -/
theorem witness_untyped_vector_ops : vecReady .vli (wOp .vli) .n32 tB ∧ vecReady .vlane (wOp .vlane) .n32 tB ∧
    vecReady .vpermx (wOp .vpermx) .n32 tB ∧ vecReady .ascale (wOp .ascale) .i32 tB :=
  ⟨readyB_ready (by decide +kernel), readyB_ready (by decide +kernel), readyB_ready (by decide +kernel), readyB_ready (by decide +kernel)⟩

/-- The widest field of a 32-bit type (VectorBits), every sub-vector choice of an i8 compare (PredicatesAndSelects), no lane on. -/
theorem witness_VectorBits_PredicatesAndSelects :
    (vecReady .vbfx (wI .vbfx 0x080003E0) .i32 tB ∧ vecReady .vbfi (wI .vbfi 0x080003E0) .i32 tB) ∧
    (∀ i, i ∈ ([0x0C000000, 0x0C000001, 0x0C000004, 0x0C00000F] : List W32) → vecReady .vcmp (wI .vcmp i) .i8 tB) ∧
    ([Op.vcmp, .vfcmp, .vballot].all fun o => !waitsExm o (setS tB.g 62 0) && decide (lanesOn (wOp o) (tS [(62, 0)]) = 0)) = true := by
  have h : (([0x0C000000, 0x0C000001, 0x0C000004, 0x0C00000F] : List W32).all fun i => readyB .vcmp (wI .vcmp i) .i8 tB) = true := by decide +kernel
  exact ⟨⟨readyB_ready (by decide +kernel), readyB_ready (by decide +kernel)⟩, fun i hi => readyB_ready (List.all_eq_true.mp h i hi),
    by decide +kernel⟩

/-- LaneWrites at the last register; the six integer operations on 32 nodes, one of them absent (IntegerReductions). -/
theorem witness_LaneWrites_IntegerReductions : 255 < 256 ∧
    (let xs : List Node := none :: List.replicate 31 (some (5, 0))
     xs.length = 32 ∧ ∀ x ∈ xs, ∀ v, x = some v → v.1 < 2 ^ Ty.i8.bits) := by
  refine ⟨by decide, rfl, fun x hx v e => ?_⟩
  subst e
  simp at hx
  subst hx
  decide

/-- VectorFloats: f32 to i32 and back are of one count; f32 packs into f16, which unpacks. -/
theorem witness_VectorFloats_conversions :
    (vecReady .vcvt (wI .vcvt 0x08000000) .f32 tB ∧ Ty.i32.count = Ty.f32.count) ∧
    (vecReady .vpack (wI .vpack 0x01000001) .f32 tB ∧ 1 < Ty.f16.count / Ty.f32.count) ∧
    (vecReady .vunpack (wI .vunpack 0x10000001) .f16 tB ∧ 1 < Ty.f16.count / Ty.f32.count) :=
  ⟨⟨readyB_ready (by decide +kernel), by decide⟩, ⟨readyB_ready (by decide +kernel), by decide⟩, ⟨readyB_ready (by decide +kernel), by decide⟩⟩

/-- SpecialValues: −1 in f32 lies below zero and is no NaN; 1 divided by zero; 3 and 2^3, −149 and the least subnormal. -/
theorem witness_SpecialValues :
    (fDecode fmtF32 0x40400000 = .fin false 0xC00000 (-22) ∧ fDecode fmtF32 0x41000000 = .fin false 0x800000 (-20) ∧
      (1 : ℚ) * (0xC00000 : Nat) * 2 ^ (-22 : Int) = (3 : Int) ∧ (1 : ℚ) * (0x800000 : Nat) * 2 ^ (-20 : Int) = 2 ^ (3 : Int) ∧
      fDecode fmtF32 0xC3150000 = .fin true 0x950000 (-16) ∧ fDecode fmtF32 1 = .fin false 1 (-149) ∧
      (-1 : ℚ) * (0x950000 : Nat) * 2 ^ (-16 : Int) = (-149 : Int)) ∧
    (fIsNaN fmtF32 0xBF800000 = false ∧ fSign fmtF32 0xBF800000 = true ∧ 0xBF800000 % 2 ^ (fmtF32.eb + fmtF32.fb) ≠ 0) ∧
    (fIsNaN fmtF32 0x3F800000 = false ∧ fIsInf fmtF32 0x3F800000 = false ∧ 0x3F800000 % 2 ^ (fmtF32.eb + fmtF32.fb) ≠ 0) :=
  ⟨⟨by decide +kernel, by decide +kernel, by norm_num, by norm_num, by decide +kernel, by decide +kernel, by norm_num⟩, by decide +kernel, by decide +kernel⟩

/-- FloatRounding: 1 + 2^−24 in f32 under every mode raises neither OF nor SAT; a finite encoding, the largest of e4m3. -/
theorem witness_FloatRounding :
    (List.range 4).all (fun mode => (fRound fmtF32 mode false (.fin false 16777217 (-24))).2 &&& (flagOF ||| flagSAT) = 0) = true ∧
    (0x7E < 2 ^ (fmtE4M3.eb + fmtE4M3.fb + 1) ∧ fIsNaN fmtE4M3 0x7E = false ∧ fIsInf fmtE4M3 0x7E = false) := by decide +kernel

/-- LaneOps: a sum with saturation, an exclusive scan, the highest index, a frame's register in handler mode. -/
theorem witness_LaneOps :
    (vecReady .vlred { wI .vlred 0x08000000 with sat := true } .i32 tB ∧ vecReady .vlscan (wI .vlscan 0x0800000D) .i32 tB) ∧
    ([Op.vextr, .vinsr, .vballot].all fun o => issues o (wOp o) tB) = true ∧
    (issues .vrdx (wOp .vrdx) (tS [(1, 255)]) = true ∧ issues .vwrx (wOp .vwrx) (tS [(1, 255)]) = true ∧ 255 < tB.l.kern.regs) ∧
    (issues .vwrx (wOp .vwrx) { tS [(1, 3)] with g := { (tS [(1, 3)]).g with hmode := true } } = true ∧ memWf tB.g.harea = true) ∧
    (let s := tG fun g => enqueue (laneOp .ld (.load false) 4 [] (.scl 3)) (setS g 62 0)
     waitsExm .vballot s.g = false ∧ lanesOn (wOp .vballot) s = 0 ∧ Rg.s 3 ∈ pendingRegs s.g ∧ Rg.s 3 ∉ pendingRegs tB.g) ∧
    (let s := { tG (fun g => { setS g 1 3 with hmode := true }) with dev := { tB.dev with poison := [(.handler tB.g.id, 0x280 / 32)] } }
     issues .vrdx (wOp .vrdx) s = true ∧ poisoned s (locsFrom ⟨.handler s.g.id, 0x100 + 128 * 3⟩ 128) = true) :=
  ⟨⟨readyB_ready (by decide +kernel), readyB_ready (by decide +kernel)⟩, by decide +kernel, by decide +kernel, by decide +kernel, by decide +kernel,
    by decide +kernel⟩

/-- ExactSums: the least container; a sum that meets the bounds and raises nothing; special containers with other bits set. -/
theorem witness_ExactSums :
    ((-2 ^ 47 : Int) ≤ -2 ^ 47 ∧ (-2 ^ 47 : Int) < 2 ^ 47 ∧ 4095 < 4096) ∧
    (let x := accBits (.fin 12 7 false)
     let y := accBits (.fin 5 8 false)
     accRead x = .fin 12 7 false ∧ accRead y = .fin 5 8 false ∧ (accAdd x y).2 &&& (flagNX ||| flagSAT) = 0) ∧
    (accRead 0x8000000000000005 = .nan ∧ accRead (accBits (.inf true)) = .inf true ∧ accRead (accBits (.inf false)) = .inf false) := by
  decide +kernel

/-- Accumulators and Quantisation: the ops without a mapped source issue, at the byte select's edge. -/
theorem witness_Accumulators_Quantisation :
    [Op.aclr, .aadd, .aout].all (fun o => issues o (wOp o) tB) = true ∧ issues .aout (wI .aout 0x08000001) tB = true ∧
    [0x05000003, 0x05000007].all (fun i => issues .qscan (wI .qscan i) tB && decide (3 + (ty1 (wI .qscan i)).count ≤ 4)) = true ∧
    (issues .qpack (wI .qpack 0x05000003) tB = true ∧ (wOp .qpack).b.reg ≠ (wOp .qpack).dst ∧ (wOp .qpack).b.reg ≠ (wOp .qpack).a.reg) ∧
    (issues .qunpack (wI .qunpack 0x50000003) tB = true ∧ 3 + (ty0 (wI .qunpack 0x50000003)).count ≤ 4) := by decide +kernel

/-- A resident 4 by 4 map of f32 in slot 0. -/
def wMap : W64 := mkDesc 1 0 0 4 4 0
/-- A stream of two blocks. -/
def wStream : Stream := ⟨0x20000, 2, 0, [], true, true, 0, 0, [], []⟩

/-- MapBindings: a descriptor that MAPSET takes and one it refuses; a view of one row and column; a stream at its first and at its last block. -/
theorem witness_MapBindings :
    (issues .mapset (wOp .mapset) (tS [(1, wMap)]) = true ∧ mapsetOk (tS [(1, wMap)]) 3 wMap = true ∧ mapsetOk tB 3 1 = false) ∧
    (let s := tG fun g => setMap g 1 wMap
     issues .mapbind (wOp .mapbind) s = true ∧ mdKind wMap = 1 ∧ slotsFree s 3 (viewDesc wMap 0) = true) ∧
    (issues .maprel (wOp .maprel) tB = true ∧ issues .mapadv (wOp .mapadv) tB = true ∧ mdKind (getMap tB.g 3) ≠ 3) ∧
    ([0, 1].all fun b =>
      let s := tG fun g => { setMap g 3 (mkDesc 3 0 0 4 4 b) with streams := [(3, wStream)] }
      issues .mapadv (wOp .mapadv) s && decide (mdKind (getMap s.g 3) = 3) && decide (mdB (getMap s.g 3) = b) &&
        decide (s.g.streams.find? (fun e => e.1 = 3) = some (3, wStream))) = true ∧ swCount wStream.word = 2 := by decide +kernel

/-- MapTransfers: a resident load and store in global memory, a generated and a diagonal map, a stream of two blocks. -/
theorem witness_MapTransfers :
    (let s := tS [(1, 0x20000), (2, wMap)]
     issues .mapld (wOp .mapld) s = true ∧ residentOk s 3 wMap = true ∧ s.g.mapops.length < 63 ∧
      ∃ accs, checkImage s (imageReqs .g (imageBase s.g (wOp .mapld)) (imageSize 0 4) true) = .ok accs) ∧
    (let s := tG fun g => setMap (setS g 1 0x20000) 3 wMap
     issues .mapst (wOp .mapst) s = true ∧ mdKind (getMap s.g 3) = 1 ∧ mapPending s.g 0 (imageSize 0 4) = false ∧
      ∃ accs, checkImage s (imageReqs .g (imageBase s.g (wOp .mapst)) (imageSize 0 4) false) = .ok accs ∧ reserve s 2 accs 0 = .ok ()) ∧
    (issues .mapgen (wOp .mapgen) tB = true ∧ mapgenOk tB (wOp .mapgen) = true ∧ gwGen (wOp .mapgen) ≠ 5) ∧
    (let f := { wI .mapgen 5 with a := vr 8 }
     issues .mapgen f tB = true ∧ mapgenOk tB f = true ∧ gwGen f = 5) ∧
    (let s := tS [(1, 0x20000), (2, 2)]
     issues .mapstr (wOp .mapstr) s = true ∧ mapstrOk s (wOp .mapstr) = true ∧ s.g.lane = [] ∧ group? s s.g.id = some s.g ∧
      ∃ accs, checkImage s (streamReqs 0x20000 2 (imageSize 0 1)) = .ok accs) :=
  ⟨⟨by decide +kernel, by decide +kernel, by decide +kernel, okB_some (by decide +kernel)⟩,
    ⟨by decide +kernel, by decide +kernel, by decide +kernel, okB_both (by decide +kernel)⟩, by decide +kernel, by decide +kernel,
    ⟨by decide +kernel, by decide +kernel, by decide +kernel, group?_focus (by decide +kernel), okB_some (by decide +kernel)⟩⟩

/-- An element that another group's load has read in part is not found in its new value; once it is read whole it is, beside the old one (R60). -/
theorem test_coming_element :
    let at_ := fun (got : List (Nat × Byte)) =>
      { tB with groups := [{ tB.g with id := ⟨tB.g.id.t, 1⟩, mapops := [⟨0, .load, 7, 0, 512, [], none, got, [], false⟩] }] }
    let d := mkDesc 1 0 7 4 4 0
    let got : List (Nat × Byte) := [(4, 0), (5, 0), (6, 0x80), (7, 0x3F)]
    ((altSlots (at_ (got.take 3))).map fun c => (c.has (elemBytes d 0 1), c.has (elemBytes d 0 0))) = [(false, false)] ∧
      ((altSlots (at_ got)).map fun c => (c.has (elemBytes d 0 1), decide ((mapElem c.mem d 0 1).1 = elemValue .f32 0x3F800000))) = [(true, true)] := by
  decide +kernel

/-- The state of the memory witnesses: s1 names global memory that translates. -/
def wMem : State := tS [(1, 0x20000)]

/-- MemoryIssue: 128-bit loads and stores of the vector registers, 64-bit ones of a scalar, one accumulator saved and loaded. -/
theorem witness_MemoryIssue :
    (issues .vld (wI .vld 0x80000000) wMem = true ∧ plainOk true (wI .vld 0x80000000) = true ∧ ctrCount wMem.g .ld < 63 ∧
      ∃ accs, checkReqs wMem 0 (memReqs wMem.g (wI .vld 0x80000000) true false noData noExp) = .ok accs) ∧
    (let f := wI .vst 0x80000000
     issues .vst f wMem = true ∧ plainOk false f = true ∧ ctrCount wMem.g .st < 63 ∧
      ∃ accs, checkReqs wMem 0 (memReqs wMem.g f false true (fun i => BitVec.ofNat 128 (regCat wMem.g f.dst.toNat 4 i % 2 ^ 128)) noExp) = .ok accs ∧
        poolNeed wMem accs 0 = 0) ∧
    (issues .sld (wI .sld 3) wMem = true ∧ scalarOk true (wI .sld 3) = true ∧
      ∃ accs, checkReqs wMem 0 [scalarReq wMem.g (wI .sld 3) true false 0] = .ok accs) ∧
    (issues .sst (wI .sst 3) wMem = true ∧ scalarOk false (wI .sst 3) = true ∧
      ∃ accs, checkReqs wMem 0 [scalarReq wMem.g (wI .sst 3) false true (((getS wMem.g 3).setWidth 64).setWidth 128)] = .ok accs ∧
        poolNeed wMem accs 0 = 0) ∧
    (issues .asave (wOp .asave) wMem = true ∧ ∃ accs, checkReqs wMem 0 (accReqs wMem.g (wOp .asave) true) = .ok accs ∧ poolNeed wMem accs 0 = 0) ∧
    (issues .aload (wOp .aload) wMem = true ∧ ∃ accs, checkReqs wMem 0 (accReqs wMem.g (wOp .aload) false) = .ok accs) :=
  ⟨⟨by decide +kernel, by decide +kernel, by decide +kernel, okB_some (by decide +kernel)⟩,
    ⟨by decide +kernel, by decide +kernel, by decide +kernel, okP_some (p := fun a => poolNeed wMem a 0 = 0) (by decide +kernel)⟩,
    ⟨by decide +kernel, by decide +kernel, okB_some (by decide +kernel)⟩,
    ⟨by decide +kernel, by decide +kernel, okP_some (p := fun a => poolNeed wMem a 0 = 0) (by decide +kernel)⟩,
    ⟨by decide +kernel, okP_some (p := fun a => poolNeed wMem a 0 = 0) (by decide +kernel)⟩, ⟨by decide +kernel, okB_some (by decide +kernel)⟩⟩

/-- A replay launch of one task with room in its pool. -/
def wReplay : State :=
  { wMem with
    l := { wMem.l with replay := true, tasks := [⟨0, 0, 0, [], [], [], [], false⟩] }
    p := { wMem.p with regs := { wMem.p.regs with spillbase := 0x100000, spillsize := 0x100000 } } }

/-- A load that waits to be a scope mismatch. -/
def wBound : LaneOp := { laneOp .ld (.load false) 8 [⟨0, 0, ⟨.phys, 0x20000⟩, 0x20000, 8, 0, 0⟩] .none with acq := [.dev], bound := true }

/-- MemoryIssue in a replay task: a store that needs a line of the pool, with room there, without, and behind an op that cannot go. -/
theorem witness_MemoryIssue_pool :
    (let at_ := fun (s : State) (p : State → List Acc → Bool) => issues .sst (wI .sst 3) s &&
       okP (checkReqs s 0 [scalarReq s.g (wI .sst 3) false true (((getS s.g 3).setWidth 64).setWidth 128)]) (p s)
     let held := fun (s : State) (as : List Acc) =>
       undone s.g.id s.g.seqn (performTo s.g.id s.g.seqn { s with g := enqueue (laneOp .st .store 8 as .none) s.g })
     (at_ wReplay fun s as => decide (poolNeed s as 0 ≠ 0) && okB (reserve s 0 as 0) && !held s as) = true ∧
     (at_ { wReplay with g := { enqueue wBound wReplay.g with fences := [wReplay.g.seqn + 1] } } fun s as =>
       decide (poolNeed s as 0 ≠ 0) && okB (reserve s 0 as 0) && held s as) = true ∧
     (at_ { wReplay with p := wMem.p } fun s as => match reserve s 0 as 0 with
       | .park _ => true | _ => false) = true) := by decide +kernel

/-- MemoryIssue where a check fails: an odd address, one that is not well formed, a byte past the write region, one past the bench and one past the
handler window, a page that does not translate. -/
theorem witness_MemoryIssue_checks :
    let one := fun (s : State) (f : OpF) (bad : Req → Bool) => issues .sst f s && scalarOk false f && decide (ctrCount s.g .st < 63) &&
      bad (scalarReq s.g f false true (((getS s.g (f.dst.toNat % 64)).setWidth 64).setWidth 128))
    let put := fun (a : W64) (s : State) => { s with g := setS s.g 1 a }
    let bench := { wI .sst 3 with dst := 64 + 3 }
    let region := { wReplay with l := { wReplay.l with tasks := [⟨0, 0, 0, [], [(0x20000, 4)], [], [], false⟩] } }
    one (put 0x20004 wMem) (wI .sst 3) (fun r => r.addr.toNat % r.w ≠ 0) = true ∧
    one (put 0x80000000000000 wMem) (wI .sst 3) (fun r => r.sp = .g && r.addr.toNat / 2 ^ 55 = 1) = true ∧
    one region (wI .sst 3) (fun r => outsideRegion region.l region.g.id.t r = some 4) = true ∧
    one (put 0x40000 wMem) bench (fun r => r.sp = .b && decide (allocOf wMem.l .b < r.addr.toNat + r.w)) = true ∧
    one { put 0x100000800 wMem with g := { (put 0x100000800 wMem).g with hmode := true } } bench
      (fun r => r.sp = .b && decide (2 ^ 32 + 2048 < r.addr.toNat + r.w)) = true ∧
    one (put 0x40000000 wMem) (wI .sst 3) (fun r => r.sp = .g && xrFaults (xlat wMem wMem.p ⟨r.rd, r.wr, false⟩ r.addr r.w)) = true := by decide +kernel

/-- AtomicIssue: a 32-bit add, a 64-bit one whose round is free, both in a replay launch, a reduction, and one deferred to the seam. -/
theorem witness_AtomicIssue :
    (issues .atom (wI .atom 0x40000000) wMem = true ∧ atomicOk true (wI .atom 0x40000000) = true ∧ memOrd (wI .atom 0x40000000) = false ∧
      ∃ accs, checkReqs wMem 0 (memReqs wMem.g (wI .atom 0x40000000) true true (atomData wMem.g (wI .atom 0x40000000))
        (atomExp wMem.g (wI .atom 0x40000000))) = .ok accs) ∧
    (issues .atom (wI .atom 0x60010000) wMem = true ∧ atomicOk true (wI .atom 0x60010000) = true ∧ memOrd (wI .atom 0x60010000) = true ∧
      ordAllowed wMem (wI .atom 0x60010000) = true ∧ ctrCount wMem.g .ld < 63 ∧
      ∃ accs, checkReqs wMem 0 (memReqs wMem.g (wI .atom 0x60010000) true true (atomData wMem.g (wI .atom 0x60010000))
        (atomExp wMem.g (wI .atom 0x60010000))) = .ok accs) ∧
    (issues .atom (wI .atom 0x40000000) wReplay = true ∧ wReplay.l.replay = true ∧ memOrd (wI .atom 0x40000000) = false ∧
      (let f := wI .atom 0x60290000
       issues .atom f wReplay = true ∧ atomicOk true f = true ∧ memOrd f = true ∧ 1 < memScope f)) ∧
    (issues .ared (wI .ared 0x40000000) wMem = true ∧ atomicOk false (wI .ared 0x40000000) = true ∧ wMem.l.replay = false ∧
      ∃ accs, checkReqs wMem 0 (memReqs wMem.g (wI .ared 0x40000000) true true (atomData wMem.g (wI .ared 0x40000000)) noExp) = .ok accs) ∧
    (issues .ared (wI .ared 0x40000000) wReplay = true ∧ wReplay.l.replay = true ∧ spaceOf (memQ (wI .ared 0x40000000)) = .g ∧
      wReplay.l.live = true ∧ wReplay.l.id = wReplay.g.id.t.l ∧
      ∃ accs, checkReqs wReplay 0 (memReqs wReplay.g (wI .ared 0x40000000) true true (atomData wReplay.g (wI .ared 0x40000000)) noExp) = .ok accs ∧
        reserve wReplay 0 [] accs.length = .ok ()) :=
  ⟨⟨by decide +kernel, by decide +kernel, by decide +kernel, okB_some (by decide +kernel)⟩,
    ⟨by decide +kernel, by decide +kernel, by decide +kernel, by decide +kernel, by decide +kernel, okB_some (by decide +kernel)⟩, by decide +kernel,
    ⟨by decide +kernel, by decide +kernel, by decide +kernel, okB_some (by decide +kernel)⟩,
    ⟨by decide +kernel, by decide +kernel, by decide +kernel, by decide +kernel, by decide +kernel, okB_both (by decide +kernel)⟩⟩

/-- CopyIssue: a copy and a tile move from global memory to bench, and a tile that meets its own source. -/
theorem witness_CopyIssue :
    (let f := { wOp .cpy with dst := 67, c := bc 3 }
     let s := tS [(2, 0x20000)]
     issues .cpy f s = true ∧ copyOk false f = true ∧ compRead s true (copyCwen f) (copyCreg f) = .ok Comp.none ∧ s.g.copies.length < 63 ∧
      tagRoom none s.t = true ∧ ∃ accs, checkReqs s 1 ((cpyPair s.g f).1 ++ (cpyPair s.g f).2 ++ []) = .ok accs ∧
        reserve s 1 ((accs.drop (cpyPair s.g f).1.length).take (cpyPair s.g f).1.length) (compRecs s Comp.none) = .ok ()) ∧
    (let f := { wOp .tmov with dst := 67 }
     issues .tmov f wMem = true ∧ copyOk true f = true ∧ tileOverlap wMem.g f = false ∧
      ∃ accs, checkReqs wMem 1 ((tmovPair wMem.g f).1 ++ (tmovPair wMem.g f).2 ++ []) = .ok accs ∧
        reserve wMem 1 ((accs.drop (tmovPair wMem.g f).1.length).take (tmovPair wMem.g f).1.length) (compRecs wMem Comp.none) = .ok ()) ∧
    (let f := { wOp .tmov with dst := 3 }
     let s := tS [(1, 0x20000), (3, 0x20000)]
     issues .tmov f s = true ∧ tileOverlap s.g f = true ∧
      ∃ accs, checkReqs s 1 ((tmovPair s.g f).1 ++ (tmovPair s.g f).2 ++ []) = .ok accs ∧
        reserve s 1 ((accs.drop (tmovPair s.g f).1.length).take (tmovPair s.g f).1.length) (compRecs s Comp.none) = .ok ()) :=
  ⟨⟨by decide +kernel, by decide +kernel, rfl, by decide +kernel, by decide +kernel, okB_both (by decide +kernel)⟩,
    ⟨by decide +kernel, by decide +kernel, by decide +kernel, okB_both (by decide +kernel)⟩,
    ⟨by decide +kernel, by decide +kernel, okB_both (by decide +kernel)⟩⟩

/-- The loaded state has its group, team, launch and partition in focus. -/
theorem tB_inFocus : inFocus tB := by unfold inFocus; decide +kernel

/-- Any group in its place keeps them in focus, if it is live under the same id. -/
theorem tG_inFocus {f : Group → Group} (h : (f tB.g).live = true) (e : (f tB.g).id = tB.g.id) : inFocus (tG f) := by
  obtain ⟨_, h2, h3, h4, h5, h6, h7⟩ := tB_inFocus
  exact ⟨h, h2, by rw [show (tG f).g.id = tB.g.id from e]; exact h3, h4, by rw [show (tG f).g.id = tB.g.id from e]; exact h5, h6,
    by rw [show (tG f).g.id = tB.g.id from e]; exact h7⟩

/-- Fences: a fence of each order, one whose read may have been overtaken and is no mismatch, one whose read stands in the queue, an XFENCE of two paths, a PROMOTE of the group's own team, and one that waits in a grid of two teams. -/
theorem witness_Fences :
    (issues .fence (wI .fence 0x40000) tB = true ∧ fenceOk (wI .fence 0x40000) = true ∧ memAcq (wI .fence 0x40000) = false) ∧
    (issues .fence (wI .fence 0x20000) tB = true ∧ fenceOk (wI .fence 0x20000) = true ∧ memAcq (wI .fence 0x20000) = true ∧
      tB.g.lane = [] ∧ tB.g.live = true ∧ tB.g.lastBound = false) ∧
    (let s := tG fun g => { g with lastBound := true }
     issues .fence (wI .fence 0x20000) s = true ∧ s.g.lane = [] ∧ s.g.live = true ∧ s.g.lastBound = true ∧
      missed s s.g.id (scopeOf (memScope (wI .fence 0x20000))) s.g.lastRead = false) ∧
    (let s := tG fun g => enqueue (laneOp .ld (.load false) 4 [] (.vec 5 1)) g
     issues .fence (wI .fence 0x20000) s = true ∧
      s.g.lane.map (fun o => (o.kind.reads, o.done, decide (s.g.lastSeq ≤ o.seq))) = [(true, false, true)]) ∧
    (issues .xfence (wI .xfence 3) tB = true ∧ ((List.range 6).filter fun n => (3 : W32).getLsbD n).length = 2) ∧
    (issues .promote (wOp .promote) tB = true ∧ (intS tB.g (wOp .promote) (wOp .promote).a).toNat = tB.g.id.t.team) ∧
    (let s := { tS [(1, 1)] with l := { tB.l with gx := 2 }, teams := [{ tB.t with id := ⟨tB.l.id, 1⟩ }] }
     issues .promote (wOp .promote) s = true ∧ s.l.replay = false ∧ (team? s ⟨s.l.id, 1⟩).isSome = true ∧ 1 ≠ s.g.id.t.team) ∧
    inFocus (tG fun g => { g with wait := .promote 0 }) ∧ (promoteTeam bootTeamId tB).isSome = true ∧
    (promoteTeam bootTeamId (tG fun g =>
      enqueue { laneOp .st .store 8 [] .none with rel := some .team } { enqueue wBound g with fences := [1] })).isNone = true :=
  ⟨by decide +kernel, by decide +kernel, by decide +kernel, by decide +kernel, by decide +kernel, by decide +kernel, by decide +kernel,
    tG_inFocus rfl rfl, by decide +kernel, by decide +kernel⟩

/-- A team with tag 2 set. -/
def wTag : State := { tS [(1, 4)] with t := { tB.t with tags := tB.t.tags.set 2 ⟨0, true, []⟩ } }
/-- A field of WAIT: a limit in each half. -/
def wWait (hi lo : Nat) : Src := decodeSrc (BitVec.ofNat 14 (hi * 256 + lo))

/-- Waits: limits of 0 that an empty queue meets and a queue of one does not; tag 2 set and clear; each wait in its event. -/
theorem witness_Waits :
    (let f := { wOp .wait with a := wWait 0 63, b := wWait 0 63 }
     issues .wait f tB = true ∧ (encodeSrc f.a).extractLsb' 6 2 = 0 ∧ ctrCount tB.g .ld ≤ 0) ∧
    (let s := tG fun g => enqueue (laneOp .ld (.load false) 4 [] (.vec 5 1)) g
     issues .wait { wOp .wait with a := wWait 0 63, b := wWait 0 63 } s = true ∧ ¬ctrCount s.g .ld ≤ 0) ∧
    ([Op.twany, .twall, .tfirst].all fun o => issues o (wOp o) wTag && issues o (wOp o) (tS [(1, 4)])) = true ∧
    (wTag.t.tags[2]?.map Tag.set = some true ∧ tB.t.tags[2]?.map Tag.set = some false ∧ tfirstRival wTag 2 = false ∧
      (4 : W64).toNat < 2 ^ tB.l.kern.tags) ∧
    inFocus (tG fun g => { g with wait := .wait 0 0 0 0 }) ∧ inFocus (tG fun g => { g with wait := .tags true 4 }) ∧
    inFocus (tG fun g => { g with wait := .tfirst 63 4 }) :=
  ⟨by decide +kernel, by decide +kernel, by decide +kernel, by decide +kernel, tG_inFocus rfl rfl, tG_inFocus rfl rfl, tG_inFocus rfl rfl⟩

/-- SignalAdd: the ends of each clause. -/
theorem witness_SignalAdd :
    ((-1 : W64).toInt < 0) ∧ (0 ≤ (0 : W64).toInt ∧ (0 : W64).toInt + (0x7FFFFFFFFFFFFFFF : W64).toInt ≤ 2 ^ 63 - 1) ∧
    (2 ^ 63 - 1 < (1 : W64).toInt + (0x7FFFFFFFFFFFFFFF : W64).toInt) := by decide +kernel

/-- The access of a signal at 0x20000. -/
def wSig : Acc := ⟨0, 0, ⟨.phys, 0x20000⟩, 0x20000, 8, 0, 0⟩

/-- Signals: an addition in global memory, also of a replay launch, and a wait; a signal of 0 meets a target of 0 and not of 1. -/
theorem witness_Signals :
    (let s := tS [(1, 0x20000), (2, 1)]
     issues .sigadd (wOp .sigadd) s = true ∧ (encodeSrc (wOp .sigadd).c).toNat ≤ 5 ∧ ctrCount s.g .st < 63 ∧ s.l.replay = false ∧
      okP (checkReqs s 0 [⟨0, 0, 0, .g, 0x20000, 8, true, true, 1, 0⟩]) (fun l => l = [{ wSig with data := 1 }]) = true) ∧
    (issues .sigadd (wOp .sigadd) wReplay = true ∧ wReplay.l.replay = true ∧ spaceOf ((wOp .sigadd).dst.toNat / 64) = .g ∧
      reserve wReplay 0 [] 1 = .ok () ∧ wReplay.l.live = true ∧ wReplay.l.id = wReplay.g.id.t.l ∧
      okP (checkReqs wReplay 0 [⟨0, 0, 0, .g, 0x20000, 8, true, true, 0, 0⟩]) (fun l => l = [wSig]) = true) ∧
    (issues .sigwait (wOp .sigwait) (tS [(1, 0x20000), (2, 1)]) = true ∧ intS (tS [(1, 0x20000), (2, 1)]).g (wOp .sigwait) (wOp .sigwait).b = 1 ∧
      issues .sigwait (wOp .sigwait) wMem = true ∧ intS wMem.g (wOp .sigwait) (wOp .sigwait).b = 0 ∧ wMem.g.live = true ∧
      okP (checkReqs wMem 0 [⟨0, 0, 0, .g, 0x20000, 8, true, false, 0, 0⟩]) (fun l => l = [wSig]) = true ∧
      wMem.g.lane = [] ∧ wMem.dev.poison = [] ∧ wMem.dev.corrected = [] ∧ group? wMem wMem.g.id = some wMem.g ∧
      leNat ((locsFrom wSig.loc 8).map (viewByte wMem wMem.g.id)) = 0) ∧
    inFocus (tG fun g => { g with wait := .sigwait 63 wSig 0 .sys }) :=
  ⟨by decide +kernel,
    ⟨by decide +kernel, by decide +kernel, by decide +kernel, okB_unit (by decide +kernel), by decide +kernel, by decide +kernel, by decide +kernel⟩,
    ⟨by decide +kernel, by decide +kernel, by decide +kernel, by decide +kernel, by decide +kernel, by decide +kernel, by decide +kernel, by decide +kernel,
      by decide +kernel, group?_focus (by decide +kernel), by decide +kernel⟩, tG_inFocus rfl rfl⟩

/-- A ring whose first slot is as given. -/
def wRing (x : RingSlot) (f : Group → Group) : State := { tG f with t := { tB.t with rings := [[x, ⟨false, false, false, 0, [], []⟩]] } }
/-- A full slot of phase 1. -/
def wFull : RingSlot := ⟨true, true, false, 0, [], []⟩

/-- RingsAndBarriers: the declared slot 0 of ring 0 empty and full; the least expectation; a barrier at which the only group has arrived. -/
theorem witness_RingsAndBarriers :
    (let s := tS [(2, 1)]
     ringDeclared s.l 0 0 = true ∧ (slotAt s.t 0 0).full = false ∧ (slotAt s.t 0 0).remain = 0 ∧ s.g.lane = [] ∧ s.g.frees = [] ∧
      (intS s.g (wOp .ringexp) (wOp .ringexp).b).toNat = 1 ∧ [Op.ringexp, .ringput, .ringputFree].all (fun o => issues o (wOp o) s) = true) ∧
    (let s := wRing wFull fun g => setS g 2 1
     (slotAt s.t 0 0).full = true ∧ (slotAt s.t 0 0).phase = true ∧
      [Op.ringexp, .ringput, .ringget].all (fun o => issues o (wOp o) s) = true) ∧
    (issues .ringget (wOp .ringget) tB = true ∧ group? tB tB.g.id = some tB.g) ∧
    (inFocus (tG fun g => { g with wait := .ringexp 0 0 1 }) ∧ inFocus (tG fun g => { g with wait := .ringput 0 0 }) ∧
      inFocus (tG fun g => { g with wait := .ringget 63 0 0 1 }) ∧ inFocus (tG fun g => { g with frees := [⟨0, 0, 0⟩] })) ∧
    (issues .bar (wOp .bar) tB = true ∧ 0 < tB.t.bars.length) ∧
    (let s := { tG fun g => { g with wait := .bar 0 0 } with t := { tB.t with bars := tB.t.bars.set 0 ⟨0, [0], []⟩ } }
     barReady s s.t 0 s.l.kern.groups = true ∧ s.g.wait = .bar 0 0 ∧ s.g.id.num < 32 ∧ barReady tB tB.t 0 tB.l.kern.groups = false) :=
  ⟨by decide +kernel, by decide +kernel, ⟨by decide +kernel, group?_focus (by decide +kernel)⟩,
    ⟨tG_inFocus rfl rfl, tG_inFocus rfl rfl, tG_inFocus rfl rfl, tG_inFocus rfl rfl⟩, by decide +kernel, by decide +kernel⟩

/-- Two groups of 32 registers' bound each. -/
def wTwo (f : Group → Group) : State :=
  { tG fun g => f { g with bound := 32 } with groups := [{ tB.g with id := ⟨bootTeamId, 1⟩, bound := 32 }] }

/-- RegisterQuota: 16 registers from group 0 to group 1, at once and after a load; a donor that would give its own group's last. -/
theorem witness_RegisterQuota :
    (let s := wTwo fun g => setS g 1 0x20
     issues .roleq (wOp .roleq) s = true ∧ roleqOk s 0 1 16 = true ∧ roleqFree s 0 1 = true ∧ s.g.id.num < 32) ∧
    (let s := wTwo fun g => enqueue (laneOp .ld (.load false) 4 [] (.vec 5 1)) (setS g 1 0x20)
     issues .roleq (wOp .roleq) s = true ∧ roleqOk s 0 1 16 = true ∧ roleqFree s 0 1 = false) ∧
    (let s := wTwo fun g => { g with wait := .roleq 0 1 1 }
     s.g.wait = .roleq 0 1 1 ∧ roleqFree s 0 1 = true ∧ roleqOk s 0 1 16 = true ∧ inFocus s) ∧
    (issues .roleq (wOp .roleq) tB = true ∧ roleqOk tB 0 0 16 = false ∧ tB.g.live = true) := by unfold inFocus; decide +kernel

/-- A command block in bench: rank 1, two elements of 8 bits, from bench 0x1000 to bench 0x2000. -/
def wBlock : Mem :=
  memPutNat (memPutNat (memPutNat (memPutNat (memPutNat (memPutNat [] 8 8 0xA3) 16 8 0x1000) 40 8 0x2000) 64 4 2) 96 8 1) 160 8 1
/-- The state that holds it. -/
def wBob : State := { tB with t := { tB.t with bench := wBlock } }
/-- An image store of one element at a grid of one. -/
def wImg : OpF := wI .imgst 0x40000001
/-- Its descriptor's scalars: base, strides, extents of one. -/
def wImgS : State := tS [(1, 0x20000), (4, 0x000100010001)]

/-- EngineCommands: a block and an image store that pass every check, an image store with no extents, and the counts at and above their limit. -/
theorem witness_EngineCommands :
    (issues .bob (wOp .bob) wBob = true ∧ bobOk (wOp .bob) = true ∧ wBob.g.bobs.length < 8 ∧
      compRead wBob false (copyCwen (wOp .bob)) (copyCreg (wOp .bob)) = .ok Comp.none ∧
      (let blk : List Req := (List.range 4).map fun i => ⟨0, 0, i, .b, BitVec.ofNat 64 (64 * i), 64, true, false, 0, 0⟩
       okB (checkForm (fun _ => 64) blk) && okP (checkReach wBob 0 blk) fun ba =>
         !poisoned wBob (accLocs ba) && (performFor ba (eccRead (accLocs ba) wBob)).any fun w =>
           let r := laneRead ba w
           okP (bobCheck r.2 r.1 []) fun x =>
             !x.1.isEmpty && decide (r.2.g.bobs.length < 8) && tagRoom none r.2.t && okB (reserve r.2 3 x.2.1 0) && r.2.l.live &&
             decide (r.2.l.id = r.2.g.id.t.l)) = true) ∧
    (issues .imgst wImg wImgS = true ∧ imgOk wImg = true ∧ imgBad wImgS.g wImgS.l wImg = none ∧
      (let rs := imgReqs wImgS.g wImgS.l wImg
       okP (checkReqs wImgS 4 (rs ++ [])) fun accs => okB (reserve wImgS 4 (accs.take rs.length) 0)) = true ∧
      wImgS.g.imgs.length < 8 ∧ tagRoom none wImgS.t = true ∧ wImgS.l.live = true ∧ wImgS.l.id = wImgS.g.id.t.l) ∧
    (issues .imgst wImg tB = true ∧ imgBad tB.g tB.l wImg = some (2, 0)) ∧
    (issues .bobq (wOp .bobq) tB = true ∧ issues .symq (wOp .symq) tB = true ∧ tB.g.bobs.length ≤ 0 ∧ tB.g.imgs.length ≤ 0) ∧
    (let s := tG fun g => { g with bobs := [⟨0, [], false, [], none, none⟩], imgs := [⟨0, [], none, none⟩] }
     issues .bobq (wOp .bobq) s = true ∧ issues .symq (wOp .symq) s = true ∧ 0 < s.g.bobs.length ∧ 0 < s.g.imgs.length) :=
  ⟨⟨by decide +kernel, by decide +kernel, by decide +kernel, rfl, by decide +kernel⟩, by decide +kernel, by decide +kernel, by decide +kernel,
    by decide +kernel⟩

/-- The waits of BOBQ and SYMQ in their events. -/
theorem witness_EngineCommands_events :
    inFocus (tG fun g => { g with wait := .bobq 63 0 }) ∧ inFocus (tG fun g => { g with wait := .symq 63 0 }) :=
  ⟨tG_inFocus rfl rfl, tG_inFocus rfl rfl⟩

/-- A refinement descriptor: offsets 0, tolerance 0, ratio 1, growth 1, one round, and an action on convergence. -/
def wDesc (act : Nat) : BitVec 512 :=
  BitVec.ofNat 512 (act * 2 ^ (8 * 28 + 8) + 0x3F800000 * 2 ^ (8 * 36) + 0x3F800000 * 2 ^ (8 * 40) + 1 * 2 ^ (8 * 44))
/-- A controller in a state with that descriptor. -/
def wRf (st : RfState) (dec : RfDec) (act : Nat) : State := tG fun g => { g with rf := { Refine.idle with st := st, dec := dec, desc := wDesc act } }

/-- Refinement: a legal descriptor in bench; a norm of 0 that ends the loop, and one whose action traps; each state of RFNEXT. -/
theorem witness_Refinement :
    (let s := { tB with t := { tB.t with bench := memPutNat [] 0 64 (wDesc 0).toNat } }
     issues .rfbegin (wOp .rfbegin) s = true ∧ s.g.rf.st = .idle ∧ s.g.hmode = false ∧
      okP (checkReqs s 0 [⟨0, 0, 0, .b, 0, 64, true, false, 0, 0⟩]) (fun accs =>
        !poisoned s (accLocs accs) && (performFor accs (eccRead (accLocs accs) s)).isSome) = true ∧
      rfBad { Refine.idle with st := .start, desc := BitVec.ofNat 512 (memNat s.t.bench 0 64) } = none) ∧
    (issues .rfbegin (wOp .rfbegin) (wRf .start .none 0) = true ∧ (wRf .start .none 0).g.rf.st ≠ .idle) ∧
    (let s := wRf .test .none 0
     issues .rftest (wOp .rftest) s = true ∧ s.g.rf.st = .test ∧ s.g.rf.dec = .none ∧ s.g.hmode = false) ∧
    ([0, 3].all fun act =>
      let s := wRf .test .none act
      let tol : W32 := s.g.rf.desc.extractLsb' (8 * 32) 32
      let acts : W32 := s.g.rf.desc.extractLsb' (8 * 28) 32
      issues .rftest (wOp .rftest) s && decide (intS s.g (wOp .rftest) (wOp .rftest).a = 0) && decide (fDecode fmtF32 0 ≠ .nan) &&
        decide (fDecode fmtF32 0 ≠ .inf false) && xLe (fDecode fmtF32 0) (fDecode fmtF32 tol.toNat) &&
        decide ((acts.extractLsb' (6 + 2 * 1) 2).toNat = act)) = true ∧
    (issues .rfend (wOp .rfend) tB = true ∧ waitsSeq .rfnext tB.g = false ∧ tB.g.rf.st = .idle) ∧
    [(RfState.start, RfDec.none), (.factor, .none), (.solve, .none), (.resid, .none), (.test, .none), (.test, .continue), (.test, .escalate),
      (.test, .stop)].all (fun x => decide ((wRf x.1 x.2 0).g.hmode = false) && !waitsSeq .rfnext (wRf x.1 x.2 0).g) = true := by decide +kernel

/-- A group with a pending load of s1 and of exm. -/
def wPend (d : Nat) : State := tG fun g => enqueue (laneOp .ld (.load false) 4 [] (.scl d)) g

/-- SlotChecks: an op held for exm, one held for its source, one with a field that is not legal, one whose guard is false; 63 ops of a counter. -/
theorem witness_SlotChecks :
    isHint .sadd = false ∧ waitsExm .vadd (wPend 62).g = true ∧
    (waitsExm .sadd (wPend 1).g = false ∧ would .sadd (wOp .sadd) (wPend 1).g = true ∧ waitsRegs .sadd (wOp .sadd) (wPend 1).g = true) ∧
    (let f := { wOp .sadd with dst := 64 }
     waitsExm .sadd tB.g = false ∧ would .sadd f tB.g = true ∧ waitsRegs .sadd f tB.g = false ∧ legal tB.l .sadd f = false) ∧
    ([Op.sadd, .vld, .sld, .vst, .sst, .ared, .sigadd, .atom, .cpy, .tmov, .mapld, .mapst, .mapgen].all
      fun o => !waitsExm o tB.g && !would o { wOp o with guard := 0 } tB.g) = true ∧
    memOrd (wOp .atom) = false ∧
    (let s := (List.range 63).foldl (fun s _ => { s with g := enqueue (emptyOp .st) (enqueue (emptyOp .ld) s.g) }) tB
     63 ≤ ctrCount s.g .ld ∧ 63 ≤ ctrCount s.g .st ∧ waitsExm .vld s.g = false) ∧
    (let s := tG fun g => { g with copies := List.replicate 63 ⟨0, false, [], [], none, 0, none, none, none, false⟩
                                   mapops := List.replicate 63 ⟨0, .gen, 0, 0, 0, [], none, [], [], false⟩ }
     63 ≤ s.g.copies.length ∧ 63 ≤ s.g.mapops.length ∧ waitsExm .cpy s.g = false ∧ waitsExm .mapld s.g = false) := by decide +kernel

/-- Exceptions and SystemOps: a trap with the largest code, in user mode and in handler mode; a class whose handler the image names; a frame whose s0
a load will write; the system ops in handler mode from the vector. -/
theorem witness_Exceptions_SystemOps :
    (let s := { tB with l := { tB.l with kern := { tB.l.kern with hIllegal := some 0x40 } } }
     (userHandler s.l 4).isSome = true ∧ userHandler s.l 5 = none ∧ s.g.hmode = false ∧ waitsFrame s.g = false ∧ memWf s.g.harea = true ∧
      waitsFrame (wPend 0).g = true ∧ (wPend 0).g.hmode = false) ∧
    (let f := { wI .trap 0xFFFF with a := im }
     issues .trap f tB = true ∧ (immS f).toNat < 2 ^ 16 ∧ issues .bkpt (wOp .bkpt) tB = true ∧ tB.g.hmode = false ∧ waitsFrame tB.g = false ∧
      memWf tB.g.harea = true) ∧
    ([Op.trap, .bkpt, .rte].all fun o => issues o (wOp o) (tG fun g => { g with hmode := true })) = true ∧
    ([0x000, 0x001, 0x010, 0x002].all fun x => issues .srd (wOp .srd) (tG fun g => { setS g 1 x with hmode := true, vec := true }) &&
      issues .swr (wOp .swr) (tG fun g => { setS (setS g 1 x) 2 (-1) with hmode := true, vec := true })) = true ∧
    issues .replayq (wOp .replayq) (tG fun g => { setS g 1 3 with hmode := true }) = true ∧
    (let s := { tG (fun g => { g with hmode := true }) with dev := { tB.dev with poison := [(.handler tB.g.id, 0)] } }
     issues .rte (wOp .rte) s = true ∧ poisoned s (rteReads s.g.id) = true ∧ poisoned tB (rteReads tB.g.id) = false) ∧
    ([Op.rte, .srd, .swr, .replayq].all fun o => issues o (wOp o) tB) = true ∧ Rg.s 62 ∉ pendingRegs tB.g := by decide +kernel

/-- SequencingAndFetch: a word with and without an op in slot B, and a group in slot B. -/
theorem witness_SequencingAndFetch_slots :
    (∃ g : Group, g.pos = .a ∧ ∃ d, g.dec = some d ∧ d.b = none) ∧ (∃ g : Group, g.pos = .a ∧ ∃ d, g.dec = some d ∧ d.b ≠ none) ∧
      ∃ g : Group, g.pos = .b :=
  ⟨⟨{ tB.g with pos := .a, dec := some ⟨.nop shortZero, none, .next⟩ }, rfl, _, rfl, rfl⟩,
    ⟨{ tB.g with pos := .a, dec := some ⟨.nop shortZero, some (.nop shortZero), .next⟩ }, rfl, _, rfl, by decide⟩, { tB.g with pos := .b }, rfl⟩

/-- SequencingAndFetch: no load is pending on a link or a target; a loop counter at 2, 1 and 0; a pending s61; a word of two
NOPs, a pair of SLI, a reserved kind, a reserved selector; a malformed PC; an accumulator transfer. -/
theorem witness_SequencingAndFetch :
    ([Instr.call 0, .ret, .jumpx 5, .callx 5].all fun i => !waitsSeq i tB.g && waitsSeq i (wPend (if i = .jumpx 5 then 5 else 61)).g) = true ∧
    (1 < (getN (setN tB.g 0 2) 0).toNat ∧ (getN (setN tB.g 0 1) 0).toNat ≤ 1 ∧ (getN tB.g 0).toNat ≤ 1) ∧
    (accBusy tB.g = false ∧ wellFormed tB.g.pc = true ∧ fetchXlat tB = .ok 0x10000 ∧ poisoned tB (locsFrom ⟨.phys, 0x10000⟩ 16) = false ∧
      waitsFrame tB.g = false) ∧
    (let s := { tB with dev := { tB.dev with poison := [(.phys, 0x800)] } }
     fetchXlat s = .ok 0x10000 ∧ poisoned s (locsFrom ⟨.phys, 0x10000⟩ 16) = true) ∧
    ((∃ d, decodeWord (BitVec.ofNat 128 (0x1F0 * 2 ^ 91 + 0x1F0 * 2 ^ 41)) = .ok d ∧ pairIllegal d = false) ∧
      (∃ d, decodeWord 0 = .ok d ∧ pairIllegal d = true) ∧ decodeWord (BitVec.ofNat 128 (2 ^ 106 * 3)) = .error .illegalWord ∧
      decodeWord (BitVec.ofNat 128 (2 ^ 124 * 10)) = .error .illegalSeq) ∧
    (∃ level range reason, fetchXlat (tG fun g => { g with pc := 0x40000000 }) = .fault level range reason) ∧
    wellFormed 0x100000000000000 = false ∧ accBusy (tG fun g => enqueue (laneOp .acc .store 8 [] .none) g).g = true :=
  ⟨by decide +kernel, by decide +kernel, by decide +kernel, by decide +kernel,
    ⟨⟨_, rfl, by decide +kernel⟩, ⟨_, rfl, by decide +kernel⟩, by decide +kernel, by decide +kernel⟩,
    ⟨_, _, _, rfl⟩, by decide +kernel, by decide +kernel⟩

/-- EncodingRoundTrip: a well-formed op, an unassigned opcode, a selector and a word that decodes. -/
theorem witness_EncodingRoundTrip :
    (Instr.sadd longZero).wf = true ∧ (Instr.sadd longZero).op?.isSome = true ∧ (Instr.unassignedOpcode 0x029 longZero).wf = true ∧
    (encodeSeq (.jump 5)).isSome = true ∧ ∃ d, decodeWord 0 = .ok d := ⟨by decide +kernel, by decide +kernel, by decide +kernel, by decide +kernel, _, rfl⟩

/-- StepRunsDecoded: the loaded program's first word; a group inside its word; an event of the agenda. -/
theorem witness_StepRunsDecoded :
    (let s := State.reset.withFetchWord 128 (0x1F0 * 2 ^ 91 + 0x1F0 * 2 ^ 41)
     s.agenda = [.group s.g.id] ∧ mayIssue s.p s.l s.t s.g = true ∧ quotaHolds s s.g.id = false ∧ s.g.park = none ∧ s.g.pos = .fetch ∧ accBusy s.g = false ∧
      wellFormed s.g.pc = true ∧ s.g.live = true ∧ s.t.live = true ∧ s.t.id = s.g.id.t ∧ s.l.live = true ∧ s.l.id = s.g.id.t.l ∧
      s.p.live = true ∧ s.p.num = s.g.id.t.l.part ∧
      fetchXlat { s with tick := s.tick + tickStride, agenda := [] } = .ok 0x10000 ∧ poisoned s (locsFrom ⟨.phys, 0x10000⟩ 16) = false ∧
      (match checkWord (wordAt s.hbm 0x10000) with | .ok _ => true | .error _ => false) = true) ∧
    (let s := tG fun g => { g with pos := .a, dec := some ⟨.nop longZero, none, .next⟩ }
     mayIssue s.p s.l s.t s.g = true ∧ quotaHolds s s.g.id = false ∧ s.g.park = none ∧ s.g.pos ≠ .fetch ∧ s.g.dec.isSome = true) ∧
    isEvent .throttle = true := by decide +kernel

/-- Focusing: another group of the agenda that is found. -/
theorem witness_Focusing : ∃ x, group? (wTwo id) ⟨bootTeamId, 1⟩ = some x := ⟨_, rfl⟩

/-- Reset meets both invariants, and its step answers a next state. -/
theorem witness_invariants : MemInv State.reset ∧ ReadyInv State.reset ∧ (shows (step State.reset) fun _ => ()) = some () := by
  unfold MemInv ReadyInv; decide +kernel

/-- Nothing stands in the way of a run: no record, no error of memory. -/
theorem tB_calm : calm tB := by unfold calm; decide +kernel

/-- An access of lane 3 to four bytes at 0x20000, with data 1. -/
def wAcc : Acc := ⟨3, 0, ⟨.phys, 0x20000⟩, 0x20000, 4, 1, 0⟩
/-- The same in bench. -/
def wBenchAcc : Acc := { wAcc with loc := ⟨.bench tB.t.id, 0x20⟩ }
/-- A queue of one op of a counter and kind on these accesses. -/
def wLane (c : Ctr) (k : LaneKind) (as : List Acc) (w : Wait) : State := tG fun g => { enqueue (laneOp c k 4 as .none) g with wait := w }
/-- The same in a replay launch. -/
def wLaneR (c : Ctr) (k : LaneKind) : State := { wReplay with g := enqueue (laneOp c k 4 [wAcc] .none) wReplay.g }
/-- Any queue in a replay launch stands in focus, in calm memory. -/
theorem wLaneR_focus (c : Ctr) (k : LaneKind) : inFocus (wLaneR c k) ∧ calm (wLaneR c k) := by
  obtain ⟨a, b, c', d, e, f, h⟩ := (by unfold inFocus; decide +kernel : inFocus wReplay)
  exact ⟨⟨a, b, c', d, e, f, h⟩, (by unfold calm; decide +kernel : calm wReplay)⟩

/-- LaneRetirement: a queue of one op of each kind, in global memory, in bench and in a replay launch, in focus, in memory without errors; an op
with an acquire and a release; empty ops; a held op. -/
theorem witness_LaneRetirement :
    (∀ c k as w, inFocus (wLane c k as w) ∧ calm (wLane c k as w)) ∧ (∀ c k, inFocus (wLaneR c k) ∧ calm (wLaneR c k)) ∧
    (let kinds : List (Ctr × LaneKind) := [(.ld, .load true), (.st, .store), (.acc, .store), (.acc, .load false),
       (.ld, .atom 0 false), (.st, .ared 0 false), (.st, .sigadd)]
     let ok := fun (g : Group) (x : Ctr × LaneKind) (as : List Acc) => decide (g.lane.length = 1) && g.lane.all (fun o =>
       !o.done && o.parts.isEmpty && o.tags.isEmpty && o.res.isEmpty && decide (o.flags = 0) &&
         decide (o.ctr = x.1) && decide (o.kind = x.2) && decide (o.accs = as))
     kinds.all (fun x => ok (wLane x.1 x.2 [wAcc] .none).g x [wAcc] && ok (wLane x.1 x.2 [wBenchAcc] .none).g x [wBenchAcc] &&
       ok (wLaneR x.1 x.2).g x [wAcc]) = true) ∧
    (wAcc.loc.home = .phys ∧ tB.l.replay = false ∧ wBenchAcc.loc.home = .bench tB.t.id ∧ wReplay.l.replay = true ∧ 0 < wAcc.w ∧
      [wAcc].Pairwise fun a b => accMeet a b = false) ∧
    (let s := tG fun g => enqueue { laneOp .ld (.atom 0 false) 4 [wAcc] .none with acq := [.dev], rel := some .dev } g
     inFocus s ∧ s.g.lane.map (fun o => (o.acq, o.rel, o.bound)) = [([.dev], some .dev, false)]) ∧
    ([Ctr.ld, .st].all fun c => (tG fun g => enqueue (emptyOp c) g).g.lane.all fun o => o.done && decide (o.kind = .empty) && decide (o.dst = .none)) = true ∧
    (wLane .ld .store [] .hold).g.wait = .hold :=
  ⟨fun _ _ _ _ => ⟨tG_inFocus rfl rfl, tB_calm⟩, wLaneR_focus, by decide +kernel, by decide +kernel, ⟨tG_inFocus rfl rfl, by decide +kernel⟩,
    by decide +kernel, by decide +kernel⟩

/-- A pair of units of a copy, from 0x20000 to 0x30000. -/
def wPair : Acc × Acc := (wAcc, { wAcc with loc := ⟨.phys, 0x30000⟩, va := 0x30000 })
/-- A signal in global memory, and one in bench. -/
def wSigs : List SigRef := [⟨⟨.phys, 0x40000⟩, 0x40000, 1⟩, ⟨⟨.bench tB.t.id, 0x40⟩, 0x40, 1⟩]
/-- A copy of it that counts into slot 0 of ring 0 or into none. -/
def wCopy (tile : Bool) (r : Option (Nat × Nat)) (sig : Option SigRef) : CopyOp := ⟨0, tile, [wPair], [], none, 0, some 1, r, sig, false⟩
/-- A stream in map 3 whose first block has not come. -/
def wWaits : State := tG fun g => { setMap g 3 (mkDesc 3 0 0 1 4 0) with streams := [(3, ⟨0x20000, 2, 0, [wAcc], false, false, 0, 0, [], []⟩)] }
/-- Moves of eight bits from 0x20000, of one bit, and of eight bits read before. -/
def wMoves : List BitMove :=
  [⟨⟨.phys, 0x20000⟩, 0, ⟨.phys, 0x30000⟩, 0x30000, 0, 8, none⟩, ⟨⟨.phys, 0x20001⟩, 3, ⟨.phys, 0x30001⟩, 0x30001, 0, 1, none⟩,
    ⟨⟨.phys, 0x20002⟩, 0, ⟨.phys, 0x30002⟩, 0x30002, 0, 8, some 7⟩]
/-- Whether no earlier transfer of a group meets one. -/
def wFirst (g : Group) (p : Moving) : Bool := (movings g).all fun q => !decide (q.foot.2.2.2 < p.foot.2.2.2) || !(slotsMeet q p || memMeet q p)

/-- Transfers: one copy, one map transfer of each kind, a stream block to come, one bobbin command and one image store, each alone; a signal that
the command updates and, in a replay launch, one that it leaves to the seam. -/
theorem witness_Transfers :
    (∀ cs ms bs xs, inFocus (tG fun g => { g with copies := cs, mapops := ms, bobs := bs, imgs := xs }) ∧
      calm (tG fun g => { g with copies := cs, mapops := ms, bobs := bs, imgs := xs })) ∧
    (tB.g.lane = [] ∧ tB.l.replay = false ∧ tB.l.muted = false ∧ wReplay.l.replay = true) ∧
    ([true, false].all fun tile => [none, some (0, 0)].all fun r => (none :: wSigs.map some).all fun sig =>
      let c := wCopy tile r sig
      decide (c.tile = tile) && !c.done && decide (c.buf = none) && decide (c.written = 0) &&
        decide (2 ≤ ((copyDsts c).zip (bytesAt tB tB.g.id (accLocs (c.pairs.map Prod.fst)))).length) && c.got.isEmpty) = true ∧
    ([MapKind.load, .store, .diag].all fun k =>
      let o : MapOp := ⟨0, k, 0, 0, 4, [wAcc], some [1, 2, 3, 4], [], [], false⟩
      !o.done && wFirst (tG fun g => { g with mapops := [o] }).g (.xfer o)) = true ∧
    ((fetching wWaits.g 3 0).any fun st => st.got.isEmpty && wFirst wWaits.g (.fetch st)) = true ∧
    (wMoves.map fun m => (m.dst, m.dbit)).Nodup ∧
    (let s := tG fun g => { g with imgs := [⟨0, [wAcc], none, none⟩] }
     imgAfter s.g 0 = [] ∧ ∀ p ∈ ([] : List OpId), ∀ g, group? s p.k = some g → ∀ y ∈ g.imgs, y.seq ≠ p.seq) :=
  ⟨fun _ _ _ _ => ⟨tG_inFocus rfl rfl, tB_calm⟩, by decide +kernel, by decide +kernel, by decide +kernel, by decide +kernel, by decide +kernel,
    by decide +kernel, by simp⟩

/-- A byte of a tile move that was read by itself keeps the value found then; the others are read when the move goes on (R119, R222). -/
theorem test_tile_part :
    let s := tG fun g => { g with copies := [wCopy true none none] }
    let s := copyPart s.g.id 0 0 1 s
    let s := { s with hbm := memPutNat s.hbm wPair.1.loc.addr 2 0x5A5A }
    let s := copyAfter s.g.id 0 (.write 2) s
    (memNat s.hbm wPair.2.loc.addr 1, memNat s.hbm (wPair.2.loc.addr + 1) 1) = (memNat tB.hbm wPair.1.loc.addr 1, 0x5A) := by decide +kernel

/-- A group that waits for its round, numbered 0 or 1 beside a group 0 that has not completed any. -/
def wOrd (two : Bool) : State :=
  { tG fun g => { g with wait := .ord 0 0 (emptyOp .ld) } with
    g := { (tG id).g with id := ⟨bootTeamId, if two then 1 else 0⟩, wait := .ord 0 0 (emptyOp .ld) }
    t := { tB.t with seqr := [⟨0x10000, [0, 0]⟩] }
    groups := if two then [tB.g] else [] }

/-- OrderedRounds: the first group's turn; the second's, before it has come, and while the first waits at a barrier for it. -/
theorem witness_OrderedRounds :
    (wOrd false).g.wait = .ord 0 0 (emptyOp .ld) ∧ (wOrd false).g.id.num = 0 ∧
    ((group? (wOrd true) ⟨bootTeamId, 0⟩).map Group.exited = some false ∧ ordDone (wOrd true).t 0 0 = 0 ∧ (wOrd true).g.id.num = 1) ∧
    (let s := { wOrd true with groups := [{ tB.g with wait := .bar 0 0 }], t := { (wOrd true).t with bars := tB.t.bars.set 0 ⟨0, [0], []⟩ } }
     ordVictim s s.t 2 = some ⟨bootTeamId, 1⟩ ∧ waitsFrame s.g = false) ∧
    okB (reserve (wOrd false) 0 [] 0) = true ∧
    (let s := { wReplay with p := wMem.p }
     LaneKind.writes (.atom 0 false) = true ∧ (match reserve s 0 [wAcc] 0 with
       | .park _ => true
       | _ => false) = true) := by decide +kernel

/-- GroupEnd: the last group of its team, exited and idle; one that has not exited; one whose launch has ended beside another. -/
theorem witness_GroupEnd :
    (let s := tG fun g => { g with exited := true }
     group? s s.g.id = some s.g ∧ s.g.freed = false ∧ s.g.exited = true) ∧
    (group? tB tB.g.id = some tB.g ∧ tB.g.exited = false ∧ tB.l.code_ = none) ∧
    ((group? (wTwo id) ⟨bootTeamId, 1⟩).map Group.freed = some false) :=
  ⟨⟨group?_focus (by decide +kernel), by decide +kernel, by decide +kernel⟩, ⟨group?_focus (by decide +kernel), by decide +kernel, by decide +kernel⟩,
    by decide +kernel⟩

/-- A replay launch whose tasks have ended with these buffers and records. -/
def wSeam (ts : List (List BufByte × List RedRec)) : State :=
  { wReplay with l := { wReplay.l with tasks := ts.zipIdx.map fun x => ⟨x.2, BitVec.ofNat 64 x.2, 0, [], [], x.1.1, x.1.2, true⟩ } }
/-- A masked byte at 0x20000. -/
def wByte : BufByte := ⟨0x20000, 7, .lane, 0, 0x20000, 0x20000, false⟩

/-- Seams: a phase of one task without a conflict, one of two tasks that mask a byte, and one whose record meets an error of memory. -/
theorem witness_Seams :
    [[([wByte], [])], [([wByte], []), ([wByte], [])], [([], [⟨0x20000, 0x20000, 4, 0, false, 1, ⟨tB.g.id, 0⟩, .lane, 0⟩])]].all (fun ts =>
      let s := wSeam ts
      s.l.live && decide (s.l.id = ⟨0, 0⟩) && s.p.live && decide (s.p.num = 0) && decide (s.p.tdisp = .run) && seamDue s.l) = true ∧
    conflicts (phaseTasks (wSeam [([wByte], [])]).l) = [] ∧ conflicts (phaseTasks (wSeam [([wByte], []), ([wByte], [])]).l) = [0x20000] ∧
    (let s := { wSeam [([], [⟨0x20000, 0x20000, 4, 0, false, 1, ⟨tB.g.id, 0⟩, .lane, 0⟩])] with dev := { tB.dev with poison := [(.phys, 0x1000)] } }
     poisoned s (seamReads (phaseTasks s.l) s) = true) ∧
    calm (wSeam []) ∧ launch? (wSeam []) (agentGid 0 3).t.l = none := by unfold calm; decide +kernel

/-- A write on another path that comes before a copy's leaves the byte that the copy wrote, and what came before the copy is now its own (R120); no
write comes just before a read-modify-write, and none before one that is crossed onto its path (R113). -/
theorem test_write_before :
    let x : Loc := ⟨.phys, 0x20000⟩
    let cpy : WriteRec := ⟨⟨tB.g.id, 1⟩, .copy, false, [(x, 0)]⟩
    let s := { tB with hbm := memPut tB.hbm 0x20000 5, recs := [cpy] }
    let t := putAt ⟨tB.g.id, 2⟩ .lane false [cpy] x 0x20000 [9] s
    let crossed := { s with g := { s.g with crossed := [⟨⟨tB.g.id, 1⟩, .copy, some .lane, none, 2, none⟩] } }
    memGet t.hbm 0x20000 = 5 ∧ (t.recs.map fun r => (r.op.seq, r.old.head?)) = [(1, some (x, 9)), (2, some (x, 0))] ∧
      mostBefore [x] [{ cpy with rmw := true }] = [] ∧ mostBefore [x] [{ cpy with rmw := true }, cpy] = [{ cpy with rmw := true }, cpy] ∧
      passedBy [] ⟨tB.g.id, 2⟩ .lane [x] crossed = ([], s.tick) := by decide +kernel

/-- Records of two groups stand in the order of the group numbers, whichever made its record first, unless the later one has acquired what the other
released after its own (R3, R318). -/
theorem test_record_order :
    let rec_ := fun (n q : Nat) => (⟨0x20000, 0x20000, 4, 1, false, 1, ⟨⟨tB.g.id.t, n⟩, q⟩, .lane, 0⟩ : RedRec)
    let g := fun (n : Nat) => { tB.g with id := ⟨tB.g.id.t, n⟩ }
    let told := { g 0 with crossed := [⟨⟨⟨tB.g.id.t, 1⟩, 4⟩, .lane, some .lane, none, 2, none⟩] }
    let order := fun (a b : Group × RedRec) => (redAdd b.1 b.2 (redAdd a.1 a.2 [])).map fun r => r.op.k.num
    order (g 0, rec_ 0 3) (g 1, rec_ 1 4) = [0, 1] ∧ order (g 1, rec_ 1 4) (g 0, rec_ 0 3) = [0, 1] ∧
      order (g 1, rec_ 1 4) (told, rec_ 0 3) = [1, 0] := by decide +kernel

/-- A launch of 65 teams, its first chunk at one distributor, the second at the other. -/
def wDist (a b : Dist) (co : Bool) : State :=
  { tB with
    g := { tB.g with live := false }, t := { tB.t with live := false }, p := { tB.p with halves := [0, 2] }
    l := { tB.l with order := 5, gx := if co then 1 else 65, cohort := co, placedAll := false, dists := [a, b] } }
/-- The same beside a launch that started earlier. -/
def wEarlier (f : Launch → Launch) : State :=
  let s := wDist ⟨[0], [0], [], false, 0, false⟩ ⟨[1], [1], [], false, 0, false⟩ false
  { s with launches := [f { s.l with id := ⟨0, 1⟩, order := 2 }] }

/-- Placement: a core with room, alone, past a launch that no core can serve, and for a team that blocks its die, past one that could be served; one held
back by a launch that could be served, by a team that blocks its die, and by a reservation; a cohort of one team; a reservation that fits; a thief with a victim and one without; a starved team. -/
theorem witness_Placement :
    (let s := wDist ⟨[0], [0], [], false, 4096, false⟩ ⟨[1], [1], [], false, 0, false⟩ false
     (s.l.live = true ∧ s.l.code_ = none ∧ s.l.held = false ∧ s.l.reserved = true ∧ s.p.tdisp = .run ∧ s.l.cohort = false) ∧
      waitsBefore s (dieOfDist s 0) s.l = [] ∧ blocker s (dieOfDist s 0) = none ∧ heldBack s s.l = false ∧
      nextTeam s.l 0 = some 0 ∧ blockFor s s.l (distCores s.p 0) 0 = some (0, 256) ∧ waitsHere 0 s.l = true ∧
      (s.l.dists[0]?).map Dist.passed = some 4096 ∧ ((allLaunches s).map Launch.id).Nodup) ∧
    (let s := wEarlier fun l => { l with kern := { l.kern with bench := 2 ^ 20 } }
     (waitsBefore s (dieOfDist s 0) s.l).map Launch.id = [⟨0, 1⟩] ∧
      (waitsBefore s (dieOfDist s 0) s.l).all (fun x => !placeableOn s (dieOfDist s 0) x) = true ∧ blocker s (dieOfDist s 0) = none ∧
      heldBack s s.l = false ∧ nextTeam s.l 0 = some 0 ∧ blockFor s s.l (distCores s.p 0) 0 = some (0, 256) ∧ ((allLaunches s).map Launch.id).Nodup) ∧
    (let s := wEarlier id
     (waitsBefore s (dieOfDist s 0) s.l).any (placeableOn s (dieOfDist s 0)) = true ∧ blocker s (dieOfDist s 0) = none ∧
      turnOn s (dieOfDist s 0) s.l = false) ∧
    (let s := wEarlier id
     let s := { s with l := { s.l with dists := s.l.dists.map fun x => { x with blocks := true } } }
     blocker s (dieOfDist s 0) = some s.l.id ∧ (waitsBefore s (dieOfDist s 0) s.l).length = 1 ∧ heldBack s s.l = false ∧
      nextTeam s.l 0 = some 0 ∧ blockFor s s.l (distCores s.p 0) 0 = some (0, 256)) ∧
    (let s := wEarlier fun l => { l with dists := l.dists.map fun x => { x with blocks := true } }
     blocker s (dieOfDist s 0) = some ⟨0, 1⟩ ∧ s.l.id = ⟨0, 0⟩) ∧
    (let s := wEarlier fun l => { l with reserved := false, kern := { l.kern with loft := 4096 } }
     let s := { s with l := { s.l with replay := true, kern := { s.l.kern with loft := 4096 } } }
     heldBack s s.l = true ∧ s.l.reserved = true ∧ s.l.code_ = none ∧ s.l.held = false) ∧
    (let s := wDist ⟨[0], [0], [], false, 0, false⟩ ⟨[], [], [], false, 0, false⟩ true
     s.l.cohort = true ∧ s.l.placedAll = false ∧
      (distDies s.p).all (fun x => (blocking s x).isEmpty && (waitsBefore s x s.l).isEmpty) = true ∧
      [0].length = (domainTeams s.l).length ∧ (((domainTeams s.l).zip [0]).all fun x => (cohortCores s.p s.l x.1).contains x.2) = true ∧
      (placeCohort ((domainTeams s.l).zip [0]) s).isSome = true) ∧
    (let s := { tB with l := { tB.l with reserved := false, kern := { tB.l.kern with loft := 4096, yard := 8192 } } }
     waitsReserve s.l = true ∧ heldBack s s.l = false ∧ (∀ c ∈ partClusters s.p, loftUsed s 0 c + s.l.kern.loft ≤ 4 * 2 ^ 20) ∧
      ∀ x ∈ distDies s.p, yardUsed s 0 x + s.l.kern.yard ≤ yardCap s.p x) ∧
    (let s := wDist ⟨[], [], [], false, 0, false⟩ ⟨[1, 3], [1, 3], [], false, 0, false⟩ false
     stealVictim s.l.dists 0 = some 1 ∧ allIssued s.l = false) ∧
    (let s := wDist ⟨[], [], [], false, 0, false⟩ ⟨[1], [1], [], false, 0, false⟩ false
     stealVictim s.l.dists 0 = none ∧ allIssued s.l = false) := by decide +kernel

/-- A queue with ENABLE and one ticket. -/
def wQueue (st : QState) (h : Option Packet) (won : Bool) : Queue :=
  { newQueue 0 with state := st, ctl := 0x0101000C, head := h.map fun k => (k, 16), won := won }
/-- The partition with that queue and an event ring of four slots. -/
def wQ (x : Queue) : State := { tB with p := { tB.p with queues := [x], regs := { tB.p.regs with evring := 0x30002, qtab := 0x40000000 } } }
/-- A COPY packet from 0x20000. -/
def wCopyTo (d : W64) : Packet := .work (.copy 0x20000 d 16) none

/-- A barrier that waits for a value of 1 at an address. -/
def wWait1 (a : W64) : List (W64 × W64) := [(a, 1)]
/-- A signal of value v at 0x20000, and the queue. -/
def wBar (v : Nat) (x : Queue) : State := { wQ x with hbm := memPutNat tB.hbm 0x20000 8 v }

/-- EnginesAndPackets: each packet at the head of a queue that may start it, a signal's address that translates and one that does not, a ring
with room and one without, a copy whose checks pass and one whose areas meet, a winner and a queue that has not won; a barrier that waits, one that is
satisfied, one that reads a negative value, newly started and started before; a bundle that starts and one that fails. -/
theorem witness_EnginesAndPackets :
    (tB.p.live = true ∧ tB.p.num = 0 ∧ tB.p.tdisp = .run) ∧
    ([Packet.nop, .signal 0x20000 1, .event 7 8, wCopyTo 0x40000, .barrier true (wWait1 0x20000) none, .bundle [.copy 0x20000 0x40000 16] none].all fun k =>
      [true, false].all fun won =>
        let s := wQ (wQueue .active (some k) won)
        (queue? s 0).any fun x => qMay x && decide (x.head = some (k, 16)) && decide (x.won = won) && x.bars.isEmpty) = true ∧
    (virtByte tB ⟨true, true, false⟩ 0x20000 8 = some 0x20000 ∧ virtByte tB ⟨true, true, false⟩ 0x40000000 8 = none) ∧
    (evRoom (wQ (wQueue .active none false)).p = true ∧ evRoom tB.p = false) ∧
    (waitsIntake 1 (wQueue .active (some (wCopyTo 0x40000)) true) = true ∧ badSignal tB none [] [] = none ∧
      badSignal tB (some (0x40000000, 1)) [] [] = some 0x40000000 ∧ badSignal tB none [0x20000] [] = none ∧
      badSignal tB none [0x40000000] [] = some 0x40000000) ∧
    (match startCheck tB (wQueue .active none true) 0 0 none none (.copy 0x20000 0x40000 16) with | .ok _ => true | .error _ => false) = true ∧
    (match startCheck tB (wQueue .active none true) 0 0 none none (.copy 0x20000 0x20008 16) with | .ok _ => false | .error _ => true) = true ∧
    (virtBad tB ⟨true, false, false⟩ 0x20000 16 = none ∧ virtBad tB ⟨false, true, false⟩ 0x40000 16 = none ∧
      (0x20000 : W64) + BitVec.ofNat 64 8 = 0x20008 + BitVec.ofNat 64 0 ∧ virtBad tB ⟨true, false, false⟩ 0x40000000 16 ≠ none) ∧
    (match checkMembers tB (wQueue .active none true) 0 0 1 [.copy 0x20000 0x40000 16] with | .ok _ => true | .error _ => false) = true ∧
    (match checkMembers tB (wQueue .active none true) 0 0 1 [.copy 0x20000 0x20008 16] with | .ok _ => false | .error _ => true) = true ∧
    (let st := fun (v : Nat) => match barRead (wBar v (wQueue .active none false)) (wWait1 0x20000) with
       | .ok false => 0 | .ok true => 1 | .error e => if e = (BitVec.ofNat 64 v, 0x20000) then 2 else 3
     st 0 = 0 ∧ st 1 = 1 ∧ st (2 ^ 64 - 5) = 2) ∧
    (let b : Barrier := ⟨true, wWait1 0x20000, none, 0⟩
     let x := { wQueue .active none false with bars := [b] }
     (queue? (wBar 1 x) 0).map (fun y => (y.bars, y.head)) = some ([b], none) ∧ (wBar 1 x).dev.corrected = []) ∧ calm tB := by
  unfold calm; decide +kernel

/-- A queue in a state whose packets, at 0x60000, are these words. -/
def wRing8 (st : QState) (us : List Nat) : State :=
  let s := wQ { wQueue st none false with base := 0x60000, write := BitVec.ofNat 64 (8 * us.length) }
  { s with hbm := us.zipIdx.foldl (fun m u => memPutNat m (0x60000 + 8 * u.2) 8 u.1) tB.hbm }

/-- An image at 0x70000: one kernel of one group, 16 registers, with the generator TRANS of dimensions 0 and 1. -/
def wImage : State :=
  let m := [(0x70000, 8, 0x000100014E525644), (0x70008, 8, 224), (0x70010, 8, 64), (0x70018, 8, 208), (0x70030, 8, 192), (0x70038, 8, 16),
    (0x70050, 8, 16), (0x7006C, 8, 0x1000100001), (0x70084, 1, 1), (0x70088, 8, 17), (0x700A0, 8, 2 ^ 64 - 1), (0x700A8, 8, 2 ^ 64 - 1),
    (0x700B0, 8, 2 ^ 64 - 1), (0x700D0, 1, 0x6B)]
  { tB with hbm := m.foldl (fun h e => memPutNat h e.1 e.2.1 e.2.2) tB.hbm }

/-- EnginesAndPackets: a SIGNAL packet, a packet of an unknown type with MAND and without, a malformed header; a packet with a CSIG in a queue in
ERROR; no image, and one that is asked for as replay and cohort, or over a grid of 2 by 1. -/
theorem witness_EnginesAndPackets_parse :
    ([(QState.active, [3 * 2 ^ 20 + 4, 12 * 2 ^ 20 + 3, 0x20000, 1]), (.active, [9 * 2 ^ 20 + 2, 5]), (.active, [9 * 2 ^ 20 + 2 ^ 19 + 2, 5]),
        (.active, [0]), (.error, [7 * 2 ^ 20 + 4, 2 ^ 20 + 2 + 2 ^ 32, 0x20000, 0])].all fun e =>
      let s := wRing8 e.1 e.2
      (queue? s 0).any (fun x => decide (x.state = e.1) && (qRuns x || decide (e.1 = .error)) && x.head.isNone && decide (x.read ≠ x.write) && !x.sweepStop &&
        decide (x.read = 0) && decide (x.ctl.toNat % 32 = 12) && decide ((x.write - x.read).toNat = 8 * e.2.length)) &&
      s.recs.isEmpty && s.dev.poison.isEmpty && s.dev.corrected.isEmpty && decide (virtRead s 0x60000 8 = some (leBytes 8 (e.2.headD 0))) &&
        decide (virtRead s 0x60000 (8 * e.2.length) = some (e.2.flatMap (leBytes 8)))) = true ∧
    virtRead tB 0x40000000 64 = none ∧
    ([(3, 1, true), (0, 2, false)].all fun c => match loadImage wImage 0x70000 0 with
      | .error _ => false
      | .ok y =>
        let q := wQueue .active none true
        let l := launchOf wImage q 0 0 none none y c.2.1 1 1 0 c.1 none
        !poisoned wImage (workReads wImage q 0 0 (.launch 0x70000 0 c.2.1 1 1 0 c.1 none)) &&
          (if c.2.2 then l.replay && l.cohort else !(l.replay && l.cohort) && !symOk l)) = true := by decide +kernel

/-- Arbitration: an intake that nobody waits for, a queue passed over 64 times, and one that holds the only ticket. -/
theorem witness_Arbitration :
    (let es := fun (s : State) => ((List.range 128).filterMap fun n => s.p.queues.find? fun q => q.num = n).filter (eligible s 1)
     let x := wQueue .active (some (wCopyTo 0x40000)) false
     es tB = [] ∧ es (wQ { x with passed := 64 }) = [{ x with passed := 64 }] ∧ es (wQ x) = [x] ∧ x.passed = 0 ∧ qTickets x = 1) := by
  decide +kernel

/-- QueueRecords: a control word that keeps the rules for each command and one that does not; a queue in each state; nothing started. -/
theorem witness_QueueRecords :
    ([wQueue .disabled none false, wQueue .active none false, wQueue .error none false, wQueue .preempted none false].all fun x =>
      let s := wQ x
      s.p.live && decide (s.p.num = 0) && decide (s.p.tdisp = .run) && decide (virtRead s (recordAt s 0) 32 = none) &&
        decide (queue? s 0 = some x) && decide (queue? (loadRecord 0 s) 0 = some x) && !x.ctl.getLsbD 17 && !x.ctl.getLsbD 18) = true ∧
    ([QState.active, .disabled].all fun st => decide ((destState { wQueue .haltEventFull none false with held := [⟨0x8001, 0, 5, 6, st, 0⟩] }).1 = st)) = true ∧
    ([0x0101000C, 0x0105000C, 0x0000000C, 0x0103000C].all ctlOk) = true ∧ ([0x00010000, 0, 0x00020000, 0x00040000].all fun v => !ctlOk v) = true ∧
    noneStarted (wQ { wQueue .active none false with num := 0, ctl := 0x0C }) { wQueue .active none false with ctl := 0x0C } = false ∧
    (let s := { wQ { wQueue .active none false with num := 0, ctl := 0x0C } with l := { tB.l with queue := 5 } }
     noneStarted s { wQueue .active none false with ctl := 0x0C } = true) ∧
    (let x := { wQueue .active none false with ctl := 0x0103000C }
     let s := { wQ x with t := { tB.t with live := false } }
     queue? s 0 = some x ∧ x.ctl.getLsbD 17 = true ∧ preemptDone s 0 = true) ∧
    ([(0, 0, 2), (3, 1, 1), (3, 0, 0)].all fun c =>
      let x := { wQueue .haltEventFull none false with held := [⟨0x8002, 0, 5, 6, .active, 0⟩, ⟨0x8001, 8, 5, 6, .error, 7⟩] }
      let s := wQ x
      let s := { s with p := { s.p with regs := { s.p.regs with evwr := BitVec.ofNat 64 c.1 }, sessions := [⟨2, 0, none, false, true, 0⟩] } }
      decide (queue? s 0 = some x) && (s.p.queues.all fun y => decide (y.num = 0)) && decide (s.p.tdisp = .run) &&
        (s.p.sessions.any fun y => y.fin) &&
        decide (min x.held.length (evSlots s.p - 1 - (s.p.regs.evwr - BitVec.ofNat 64 c.2.1).toNat) = c.2.2)) = true := by decide +kernel

/-- QueueRecords with a table at 0x50000: a record whose CTL is the queue's and one whose CTL is not; the record to write as it stands there, and not.
-/
theorem witness_QueueRecords_table :
    (let x := wQueue .disabled none false
     let at_ := fun (ws : List Nat) =>
       let s := wQ x
       { s with p := { s.p with regs := { s.p.regs with qtab := 0x50000 } }
                hbm := ws.zipIdx.foldl (fun m u => memPutNat m (0x50000 + 8 * u.2) 8 u.1) tB.hbm }
     ([[0x60000, 64, 8, 0x0101000C], [0x60000, 64, 8, 0x0101000D]].all fun ws =>
       let s := at_ ws
       decide (queue? s 0 = some x) && s.recs.isEmpty && s.dev.poison.isEmpty && s.dev.corrected.isEmpty &&
         decide (virtRead s (recordAt s 0) 32 = some (ws.flatMap (leBytes 8)))) = true ∧
     ([0, 1].all fun n =>
       let s := at_ [0, 0, 0, 0x0101000C, n]
       decide (virtRead s (recordAt s 0) 64 = some ([0, 0, 0, 0x0101000C, 0, 0, 0, 0].flatMap (leBytes 8))) == decide (n = 0)) = true) := by decide +kernel

/-- A packet's copy. -/
def wHub : HubCopy := ⟨0, [], [], 0, 0, none, 0, [⟨wPair.1, wPair.2, none⟩], none⟩
/-- A bobbin packet of three moves. -/
def wBobPkt : BobPkt := ⟨0, [], [], 0, 0, none, 0, 0, wMoves, false, [], none⟩
/-- A bundle of one member, whose launch has failed. -/
def wBundle : State :=
  { tB with l := { tB.l with bundle := some 0, code_ := some (BitVec.ofInt 64 (-1)) }
            p := { tB.p with bundles := [⟨0, 0, 0, none, 1, 1, none, false, false, []⟩] } }

/-- PacketEnds: a copy and a bobbin command under way, with and without an error in their source; a signal that translates; a failed member. -/
theorem witness_PacketEnds :
    (let s := { tB with p := { tB.p with copies := [wHub], bobs := [wBobPkt] } }
     s.p.live = true ∧ s.p.num = 0 ∧ s.p.tdisp = .run ∧ s.p.copies[0]? = some wHub ∧ s.p.bobs[0]? = some wBobPkt ∧ calm s ∧
      launch? s (agentGid 0 0).t.l = none ∧ launch? s (agentGid s.p.num 2).t.l = none ∧ virtByte s ⟨true, true, false⟩ 0x20000 8 = some 0x20000 ∧
      (wHub.pieces.all fun y => decide (y.src.loc.home = .phys ∧ y.dst.loc.home = .phys)) = true ∧
      (wMoves.all fun e => decide (e.src.home = .phys ∧ e.dst.home = .phys)) = true ∧ (wMoves.map fun e => (e.dst, e.dbit)).Nodup) ∧
    (let s := { tB with dev := { tB.dev with poison := [(.phys, 0x1000)] } }
     poisoned s (accLocs ((wHub.pieces.filter fun y => y.val.isNone).map HubPiece.src)) = true ∧ poisoned s (moveSrcs wBobPkt.moves) = true) ∧
    (wBundle.p.bundles.find? (fun y => y.id = 0)).map (fun x => (x.aborted, (failedMember wBundle x).failed)) =
      some (false, some (0, BitVec.ofInt 64 (-1))) := by unfold calm; decide +kernel

/-- A parked group whose record is in entry 0 of its core. -/
def wRec : Park := ⟨0x40000000, 0, 0, 0, none, 1, some 0, false⟩
/-- The state with it. -/
def wFb : State :=
  { tG (fun g => { g with park := some wRec }) with p := { tB.p with fb := [⟨0, 0, tB.g.id, 0, wRec⟩] } }

/-- A session of the partition's own, complete. -/
def wOpen (s : State) : State := { s with p := { s.p with sessions := [⟨2, 0, none, false, true, 0⟩] } }

/-- SystemRegisters: a range entry that covers an address after one that does not, and none; leaves of the page tables; a cached entry. -/
theorem witness_SystemRegisters_translation :
    (let m := [(0x300020, 0x20000), (0x300028, 0x21000), (0x300030, 0x10000), (0x300038, 2 ^ 56 + 9)].foldl
       (fun m (e : Nat × Nat) => memPutNat m e.1 8 e.2) tB.hbm
     let p := { tB.p with regs := { tB.p.regs with rtab := 0x300000 } }
     lookup m p 0x20008 = .leaf 0 (some 1) 0x30008 1 true false false ∧ rangeMatches (rangeEntry m 0x300000 0) 0x20008 = false) ∧
    (let m := memPutNat (memPutNat tB.hbm 0x400000 8 0x500001) 0x500000 8 (2 ^ 56 + 0x3D)
     let p := { tB.p with regs := { tB.p.regs with rtab := 0x300000, ptroot := 0x400001 } }
     (∀ e, e < 64 → rangeMatches (rangeEntry m 0x300000 e) 0x20000 = false) ∧ p.tlb = [] ∧
      lookup m p 0x20000 = .leaf 2 none 0x20000 1 true true true) := by decide +kernel

/-- SystemRegisters: a session of the owner's; values that keep a register's rules and values that do not; a record to write, and one to resolve; a
group in the vector. -/
theorem witness_SystemRegisters :
    ((ownerHere 0 (wOpen tB) ∧ ownerHere 0 (wOpen wFb)) ∧ fbEntry (wOpen wFb).p 0 = some ⟨0, 0, wFb.g.id, 0, wRec⟩) ∧
    fwValueOk 0x010 0x40 = true ∧ fwValueOk 0x010 1 = false ∧ fwValueOk 0x024 0x10000 = true ∧
    (let s := tG fun g => { g with park := some { wRec with entry := none } }
     inFocus s ∧ s.g.park = some { wRec with entry := none } ∧ s.p.fb = []) ∧
    (fbEntry wFb.p 0 = some ⟨0, 0, wFb.g.id, 0, wRec⟩ ∧ (group? wFb wFb.g.id).isSome = true ∧ inFocus wFb ∧ wFb.g.park = some wRec ∧
      waitsFrame wFb.g = false ∧ ((0x10 : W64).extractLsb' 4 2).toNat = 1 ∧ ((0x20 : W64).extractLsb' 4 2).toNat = 2) ∧
    (let s := tG fun g => { g with hmode := true, vec := true }
     inFocus s ∧ s.g.hmode = true ∧ s.g.vec = true) := by
  refine ⟨⟨⟨⟨by unfold partHere; decide +kernel, .inr rfl, _, .head _, rfl⟩, ⟨by unfold partHere; decide +kernel, .inr rfl, _, .head _, rfl⟩⟩, by decide +kernel⟩,
    by decide +kernel, by decide +kernel, by decide +kernel, ⟨tG_inFocus rfl rfl, rfl, by decide +kernel⟩,
    ⟨by decide +kernel, by decide +kernel, by unfold inFocus; decide +kernel, rfl, by decide +kernel, by decide +kernel, by decide +kernel⟩,
    tG_inFocus rfl rfl, rfl, rfl⟩
/-- A team of a small kernel, its save asked for or not, in a partition with a pool and a seal. -/
def wSave (r : Option SaveReq) : State :=
  { tB with
    t := { tB.t with save := r, regs := 16 }
    l := { tB.l with kern := { bootKernel with regs := 16, slots := 0, accs := 0, bench := 0, tags := 0 } }
    p := { tB.p with sealKey := some 1, regs := { tB.p.regs with spillbase := 0x100000, spillsize := 0x100000 } } }
/-- A saved team whose record in the pool is these bytes, all zero there. -/
def wSaved (bs : List Byte) : Saved := ⟨0, tB.t, [tB.g], bs, Config.sealDigest 1 bs⟩
/-- The state that holds it, with nothing of it resident. -/
def wRestore (bs : List Byte) : State :=
  let s := wSave none
  { s with g := { s.g with live := false }, t := { s.t with live := false }, p := { s.p with saved := [wSaved bs] } }

/-- Contexts: a team without a request, one whose deadline has passed, one whose deadline has not; a team that can be saved; a sealed record and
one that is not the sealed one. -/
theorem witness_Contexts :
    (∀ r, inFocus (wSave r) ∧ (wSave r).p.tdisp = .run ∧ (wSave r).t.save = r) ∧
    (let s := { wSave (some ⟨0, false⟩) with now := 100000 }
     0 + s.p.regs.pdeadline.toNat ≤ s.now) ∧
    (let s := wSave (some ⟨0, false⟩)
     s.now < 0 + s.p.regs.pdeadline.toNat ∧ s.l.code_ = none ∧
      ((teamGroups s s.t.id).all fun g => still false g && drained g) = true ∧ s.p.sealKey = some 1 ∧
      (let bytes := recAll s.l.kern { s.t with slots := (teamGroups s s.t.id).foldl (fun m g => dropPartial g m) s.t.slots, save := none } (teamGroups s s.t.id)
       recScratch s { s.t with save := none } = [] ∧ poolPlace s.p bytes.length = some 0 ∧ (virtWrite 0x100000 bytes s).isSome = true)) ∧
    (let s := wRestore [0, 0, 0, 0]
     launchHere tB.t.id.l s ∧ s.l.held = false ∧ s.l.code_ = none ∧ s.p.saved = [wSaved [0, 0, 0, 0]] ∧
      poisoned s (savedLocs s (wSaved [0, 0, 0, 0])) = false ∧ s.dev.corrected = [] ∧
      sealHolds s (wSaved [0, 0, 0, 0]) = true ∧ restoreCore s (wSaved [0, 0, 0, 0]) 0 = true ∧ restoreBlock s 0 256 = some 0) ∧
    (let s := { wRestore [0, 0, 0, 0] with dev := { tB.dev with poison := [(.phys, 0x8000)] } }
     s.p.saved = [wSaved [0, 0, 0, 0]] ∧ poisoned s (savedLocs s (wSaved [0, 0, 0, 0])) = true) ∧
    (let s := { wSave (some ⟨0, false⟩) with dev := { tB.dev with poison := [(.handler tB.g.id, 0)] } }
     s.dev.poison.any (saveLine s s.t) = true ∧ tB.dev.poison = []) ∧
    (let s := wRestore [1]
     s.p.saved = [wSaved [1]] ∧ sealHolds s (wSaved [1]) = false) := by
  have h : virtRead (wRestore [0, 0, 0, 0]) 0x100000 4 = some [0, 0, 0, 0] := by decide +kernel
  refine ⟨fun r => ⟨by obtain ⟨a, b, c, d, e, f, g⟩ := tB_inFocus; exact ⟨a, b, c, d, e, f, g⟩, rfl, rfl⟩, by decide +kernel, by decide +kernel,
    ⟨by unfold launchHere runsHere partHere; decide +kernel, rfl, by decide +kernel, rfl, by decide +kernel, by decide +kernel, ?_, by decide +kernel,
      by decide +kernel⟩, ⟨rfl, by decide +kernel⟩, by decide +kernel, rfl, by decide +kernel⟩
  simp only [sealHolds]
  rw [show (wRestore [0, 0, 0, 0]).p.regs.spillbase + BitVec.ofNat 64 (wSaved [0, 0, 0, 0]).at_ = 0x100000 from by decide +kernel,
    show (wSaved [0, 0, 0, 0]).record.length = 4 from rfl, h, show (wRestore [0, 0, 0, 0]).p.sealKey = some 1 from rfl]
  simp [wSaved]

/-- A module with the owner's hash and a session of the owner's, ready or not. -/
def wOwned (ready : Bool) : State :=
  { tB with dev := { tB.dev with ready := ready, ownerHash := some 5, sessions := [⟨1, 0xFFFF, some 5, false, true, 0⟩] } }
/-- Its partition in an interface state, with or without a scrub. -/
def wPart (d : Tdisp) (scrub : Option Bool) : State :=
  { wOwned true with p := { tB.p with tdisp := d, scrub := scrub, queues := [newQueue 3], sessions := [⟨2, 0, none, false, true, 0⟩, ⟨3, 0, none, false, false, 0⟩]
                                      nonce := some 7, grants := [⟨0, 2 ^ 30, 1, scrub.isSome⟩] } }

/-- Management: an owner's session and a session that is not, before and after READY; a number without a partition; resources free and taken; each
interface state; a register firmware writes and one it does not; the hash unwritten; scrubs under way. -/
theorem witness_Management :
    ((wOwned true).dev.ready = true ∧ (devSession (wOwned true) (some 1)).any (ownerSession (wOwned true)) = true ∧ (wOwned false).dev.ready = false ∧
      devSession (wOwned true) none = none) ∧
    (part? (wOwned true) 9).isNone = true ∧
    ([Tdisp.unlocked, .locked, .run, .error].all fun d =>
      let s := wPart d none
      s.p.live && decide (s.p.num = 0) && decide (s.p.tdisp = d) && s.dev.ready && decide (s.p.lockWait = 0) && decide (s.dev.waiting = [])) = true ∧
    (let s := { wPart .unlocked (some false) with p := { (wPart .unlocked (some false)).p with lockWait := 1 } }
     partHere 0 s ∧ 0 < s.p.lockWait ∧ { s.dev with waiting := [⟨.mgmtStatus, true⟩] }.waiting ≠ []) ∧
    (let s := wPart .unlocked none
     (∃ x ∈ allParts s, 0 ∈ x.halves) ∧ (∀ x ∈ allParts s, 5 ∉ x.halves) ∧ (∀ x ∈ allParts s, ∀ y ∈ x.queues, y.num ≠ 4) ∧
      ((freeKeys s).take 2).length = 2 ∧ 1 ∈ s.p.keys ∧ s.p.grants.length < 64 ∧
      ∀ x ∈ allParts s, ∀ g ∈ x.grants, meetR (g.base, g.size) (2 ^ 30, 2 ^ 30) = false) ∧
    (fwWritable 0x010 = true ∧ fwValueOk 0x010 16 = true ∧ fwValueOk 0x010 1 = false ∧ fwWritable 0x032 = false) ∧
    (let s := { wOwned true with dev := { (wOwned true).dev with ownerHash := none } }
     (devSession s (some 1)).isSome = true ∧ s.dev.ownerHash = none) ∧
    (let s := wPart .error (some true)
     s.p.grants[0]? = some ⟨0, 2 ^ 30, 1, true⟩ ∧ s.p.scrub = some true) := by unfold partHere; decide +kernel

/-- Interface: a completed session of the partition, one that is not, each interface state without a scrub and with one; no lock that waits, one and
two, with and without a command behind them, with a scrub and without; the lock's nonce and another; a module that is not ready. -/
theorem witness_Interface :
    ([Tdisp.unlocked, .locked, .run, .error].all fun d => [none, some false, some true].all fun sc =>
      let s := wPart d sc
      s.dev.ready && s.p.live && decide (s.p.num = 0) && decide (s.p.tdisp = d) && decide (s.p.scrub = sc) && decide (s.p.nonce = some 7) &&
        decide ((s.p.grants.any Grant.scrubbing) = sc.isSome) &&
        (s.p.sessions.any fun x => decide (x.id = 2) && x.fin) && !(s.p.sessions.any fun x => decide (x.id = 3) && x.fin)) = true ∧
    ([none, some false].all fun sc => [0, 1, 2].all fun n => [0, 1].all fun m =>
      let s := { wPart .unlocked sc with p := { (wPart .unlocked sc).p with lockWait := n }
                                         dev := { (wPart .unlocked sc).dev with waiting := List.replicate m ⟨.mgmtStatus, true⟩ } }
      decide (s.p.lockWait = n) && decide (s.dev.waiting.length = m) && decide (s.p.tdisp = .unlocked) && decide (s.p.scrub = sc)) = true ∧
    (some 7 ≠ (some 8 : Option (BitVec 256))) ∧ (wOwned false).dev.ready = false := by decide +kernel

/-- A responder that has negotiated and holds n sessions, the first complete. -/
def wResp (n : Nat) : State :=
  { tB with dev := { tB.dev with ready := true, negotiated := [0xFFFF]
                                 sessions := (List.range n).map fun i => ⟨i + 1, 0xFFFF, none, false, decide (i = 0), 0⟩ } }

/-- Responder: ready and not, negotiated and not, the key's length, seven sessions and eight, complete and incomplete, an owner's hash; a code that is
not listed; an accepted message of each kind. -/
theorem witness_Responder :
    ((wResp 7).dev.ready = true ∧ 0xFFFF ∈ (wResp 7).dev.negotiated ∧ (List.replicate 1568 (0 : Byte)).length = 1568 ∧ [(0 : Byte)].length ≠ 1568 ∧
      (wResp 7).dev.sessions.length < 8 ∧
      8 ≤ (wResp 8).dev.sessions.length ∧ (wResp 7).dev.ownerHash = none ∧ (wOwned true).dev.ownerHash = some 5) ∧
    0xFFFF ∉ tB.dev.negotiated ∧ State.reset.dev.ready = false ∧
    ((∃ x ∈ (wResp 7).dev.sessions, x.id = 1 ∧ x.fin = true) ∧ ∃ x ∈ (wResp 7).dev.sessions, x.id = 2 ∧ x.fin = false) ∧
    (¬∃ x ∈ (wResp 7).dev.sessions, x.id = 9 ∧ x.fin = true) ∧ 0x85 ∉ spdmCodes ∧ ({ deviceOffer with baseHash := 1 } : AlgOffer) ≠ deviceOffer ∧
    (let m : Nat → List Byte := fun k => [BitVec.ofNat 8 k, 0, 0xFF, 0xFF, 1, 0, 0, 0, 8]
     headerAccepted tB (m 1) = true ∧ headerAccepted tB (m 3) = true ∧ headerAccepted tB (m 4) = false ∧ nat_ (m 1) 0 1 ≠ 3 ∧
      devSession (wOwned true) (some 1) ≠ none) := by decide +kernel

/-- HostAccess: a running partition with a secure domain, an address that translates and one that does not, bytes that are written and read, a line
with an uncorrectable error; no domain. -/
theorem witness_HostAccess :
    (let s := { tB with p := { tB.p with secDomain := some 2 } }
     s.p.live = true ∧ s.p.num = 0 ∧ s.p.tdisp = .run ∧ s.p.secDomain ≠ none ∧ calm s ∧ launch? s (agentGid 0 1).t.l = none ∧
      (0x20000 : W64).toNat % 4096 ≤ 4088 ∧ virtByte s ⟨true, true, false⟩ 0x20000 8 = some 0x20000 ∧
      virtBad s ⟨false, true, false⟩ 0x20000 2 = none ∧ virtRead s 0x20000 2 = some [0, 0] ∧
      virtBad s ⟨false, true, false⟩ 0x40000000 2 ≠ none ∧ virtBad s ⟨true, false, false⟩ 0x40000000 2 ≠ none ∧
      virtBad s ⟨true, true, false⟩ 0x40000000 8 ≠ none) ∧
    (let s := { tB with p := { tB.p with secDomain := some 2 }, dev := { tB.dev with poison := [(.phys, 0x1000)] } }
     virtBad s ⟨true, false, false⟩ 0x20000 2 = none ∧ poisoned s (runLocs (virtRuns s ⟨true, false, false⟩ 0x20000 2)) = true ∧
      virtByte s ⟨true, true, false⟩ 0x20000 8 = some 0x20000 ∧ poisoned s (locsFrom ⟨.phys, 0x20000⟩ 8) = true) ∧ tB.p.secDomain = none := by
  unfold calm; decide +kernel

/-- ModuleEvents: 16 failed retries and fewer, a line with a corrected error, one with an uncorrectable one and one without, each stage of the
bring-up, a result that is a failure. -/
theorem witness_ModuleEvents :
    (let s := { tB with dev := { tB.dev with retries := [(0, 16)], corrected := [(.phys, 0x1000)], poison := [(.phys, 0x1001)] } }
     16 ≤ retriesOf s.dev 0 ∧ retriesOf s.dev 1 < 16 ∧ (Home.phys, 0x1000) ∈ s.dev.corrected ∧ (Home.phys, 0x1001) ∈ s.dev.poison ∧
      (Home.phys, 0x1002) ∉ s.dev.corrected ∧ (Home.phys, 0x1002) ∉ s.dev.poison) ∧
    ([1, 2, 3, 4].all fun n =>
      let d := { Module.reset with stage := n }
      decide (d.stage = n) && !d.ready && decide (d.fault = 0)) = true ∧ StageResult.rail ≠ .ok := by decide +kernel

end Sys2Proof.Tests
end

