-- ==== Sys2Proof/Proofs/MemKept.lean ====
section
/-!
The canonical form of every memory (StepKeepsMemory), first part: what an update of the state, the result of an op's body and the way an op
runs in its slot keep, and the ops that change their group alone.
-/
namespace Sys2Proof.Machine

variable {s : State}

/-! ### The memories of a state -/

theorem MemInv.hbm_wf (i : MemInv s) : memWf s.hbm = true := i.1
theorem MemInv.groups_wf (i : MemInv s) : (s.g :: s.groups).all groupMemWf = true := i.2.1
theorem MemInv.teams_wf (i : MemInv s) : (s.t :: s.teams).all teamMemWf = true := i.2.2.1
theorem MemInv.launches_wf (i : MemInv s) : (s.l :: s.launches).all launchMemWf = true := i.2.2.2.1
theorem MemInv.parts_wf (i : MemInv s) : (s.p :: s.parts).all partMemWf = true := i.2.2.2.2

theorem MemInv.g_wf (i : MemInv s) : groupMemWf s.g = true := List.all_eq_true.mp i.groups_wf _ (List.mem_cons_self ..)
theorem MemInv.t_wf (i : MemInv s) : teamMemWf s.t = true := List.all_eq_true.mp i.teams_wf _ (List.mem_cons_self ..)
theorem MemInv.l_wf (i : MemInv s) : launchMemWf s.l = true := List.all_eq_true.mp i.launches_wf _ (List.mem_cons_self ..)
theorem MemInv.p_wf (i : MemInv s) : partMemWf s.p = true := List.all_eq_true.mp i.parts_wf _ (List.mem_cons_self ..)

/-- A property of all stays one of all where the first is replaced by one that has it. -/
theorem all_cons_of {α : Type} {P : α → Bool} {x y : α} {l : List α} (h : (x :: l).all P = true) (hy : P y = true) :
    (y :: l).all P = true := by
  simp only [List.all_cons, Bool.and_eq_true] at h ⊢
  exact ⟨hy, h.2⟩

/-- The group in focus replaced. -/
theorem MemInv.setG (i : MemInv s) {g : Group} (h : groupMemWf g = true) : MemInv { s with g := g } :=
  ⟨i.hbm_wf, all_cons_of i.groups_wf h, i.teams_wf, i.launches_wf, i.parts_wf⟩

/-- The team in focus replaced. -/
theorem MemInv.setT (i : MemInv s) {t : Team} (h : teamMemWf t = true) : MemInv { s with t := t } :=
  ⟨i.hbm_wf, i.groups_wf, all_cons_of i.teams_wf h, i.launches_wf, i.parts_wf⟩

/-- The group and the team in focus replaced. -/
theorem MemInv.setGT (i : MemInv s) {g : Group} {t : Team} (h : groupMemWf g = true) (h' : teamMemWf t = true) : MemInv { s with g := g, t := t } :=
  (i.setG h).setT h'

/-- The launch in focus replaced. -/
theorem MemInv.setL (i : MemInv s) {l : Launch} (h : launchMemWf l = true) : MemInv { s with l := l } :=
  ⟨i.hbm_wf, i.groups_wf, i.teams_wf, all_cons_of i.launches_wf h, i.parts_wf⟩

/-- The partition in focus replaced. -/
theorem MemInv.setP (i : MemInv s) {p : Part} (h : partMemWf p = true) : MemInv { s with p := p } :=
  ⟨i.hbm_wf, i.groups_wf, i.teams_wf, i.launches_wf, all_cons_of i.parts_wf h⟩

/-- Physical memory replaced. -/
theorem MemInv.setHbm (i : MemInv s) {m : Mem} (h : memWf m = true) : MemInv { s with hbm := m } := ⟨h, i.2⟩

/-! Fields that hold no memory. -/

theorem MemInv.setRecs (i : MemInv s) {x : List WriteRec} : MemInv { s with recs := x } := i
theorem MemInv.setRels (i : MemInv s) {x : List RelTag} : MemInv { s with rels := x } := i
theorem MemInv.setDev (i : MemInv s) {x : Module} : MemInv { s with dev := x } := i
theorem MemInv.setTick (i : MemInv s) {x : Nat} : MemInv { s with tick := x } := i

/-- A fold of updates that each keep the form keeps it. -/
theorem MemInv.foldl {α : Type} {f : State → α → State} {l : List α} (i : MemInv s) (hf : ∀ s x, MemInv s → MemInv (f s x)) :
    MemInv (l.foldl f s) := by
  induction l generalizing s with
  | nil => exact i
  | cons x l ih => exact ih (hf s x i)

/-- An update of every group of a team. -/
theorem MemInv.updTeamGroups {k : Tid} {f : Group → Group} (i : MemInv s) (hf : ∀ g, groupMemWf g = true → groupMemWf (f g) = true) :
    MemInv (Machine.updTeamGroups k f s) := by
  have hg := i.groups_wf
  simp only [List.all_cons, Bool.and_eq_true, List.all_eq_true] at hg
  refine ⟨i.hbm_wf, ?_, i.teams_wf, i.launches_wf, i.parts_wf⟩
  simp only [Machine.updTeamGroups, List.all_cons, Bool.and_eq_true, List.all_eq_true]
  refine ⟨by split; exacts [hf _ hg.1, hg.1], fun x hx => ?_⟩
  obtain ⟨y, hy, rfl⟩ := List.mem_map.mp hx
  split
  · exact hf y (hg.2 y hy)
  · exact hg.2 y hy

/-! ### Focus -/

/-- The members of a list after one of them has come into focus. -/
theorem all_refocused {α : Type} {P : α → Bool} {x y : α} {l : List α} {b : Bool} {q : α → Bool} (h : (x :: l).all P = true) (hy : y ∈ l) :
    (y :: ((if b then [x] else []) ++ l.filter q)).all P = true := by
  simp only [List.all_cons, Bool.and_eq_true, List.all_eq_true] at h ⊢
  refine ⟨h.2 _ hy, fun z hz => ?_⟩
  rcases List.mem_append.mp hz with hz | hz
  · split at hz <;> simp at hz
    exact hz ▸ h.1
  · exact h.2 _ (List.mem_of_mem_filter hz)

theorem MemInv.focusTeam {k : Tid} (i : MemInv s) : MemInv (Machine.focusTeam k s) := by
  unfold Machine.focusTeam
  split
  · exact i
  · split
    · exact i
    · next t ht => exact ⟨i.hbm_wf, i.groups_wf, all_refocused i.teams_wf (List.mem_of_find?_eq_some ht), i.launches_wf, i.parts_wf⟩

theorem MemInv.focusLaunch {k : Lid} (i : MemInv s) : MemInv (Machine.focusLaunch k s) := by
  unfold Machine.focusLaunch
  split
  · exact i
  · split
    · exact i
    · next l hl => exact ⟨i.hbm_wf, i.groups_wf, i.teams_wf, all_refocused i.launches_wf (List.mem_of_find?_eq_some hl), i.parts_wf⟩

theorem MemInv.focusPart {n : Nat} (i : MemInv s) : MemInv (Machine.focusPart n s) := by
  unfold Machine.focusPart
  split
  · exact i
  · split
    · exact i
    · next p hp => exact ⟨i.hbm_wf, i.groups_wf, i.teams_wf, i.launches_wf, all_refocused i.parts_wf (List.mem_of_find?_eq_some hp)⟩

theorem MemInv.focus {k : Gid} (i : MemInv s) : MemInv (Machine.focus k s) := i.focusPart.focusLaunch.focusTeam.focusGroup

/-! ### Results -/

/-- The value that a body ends with has a property, and the state that it blocks in has its memories in canonical form. -/
def Res.Keeps {α : Type} (P : α → Prop) : Res α → Prop
  | .ok a => P a
  | .block t => MemInv t
  | _ => True

/-- A step's outcome has its memories in canonical form. -/
def MemOut (o : Out) : Prop := ∀ t, o = .next t → MemInv t

/-- An optional state has its memories in canonical form. -/
def MemOpt (o : Option State) : Prop := ∀ t, o = some t → MemInv t

theorem MemInv.next (i : MemInv s) : MemOut (.next s) := by rintro t ⟨⟩; exact i
theorem MemInv.some (i : MemInv s) : MemOpt (some s) := by rintro t ⟨⟩; exact i
theorem MemOut.next (i : MemInv s) : MemOut (.next s) := i.next
theorem MemOpt.some (i : MemInv s) : MemOpt (some s) := i.some
theorem MemOpt.none : MemOpt none := by rintro t ⟨⟩

theorem MemInv.ite {c : Prop} [Decidable c] {t : State} (h : MemInv s) (h' : MemInv t) : MemInv (if c then s else t) := by split <;> assumption
theorem MemOpt.ite {c : Prop} [Decidable c] {o p : Option State} (h : MemOpt o) (h' : MemOpt p) : MemOpt (if c then o else p) := by
  split <;> assumption

theorem Res.Keeps.bind {α β : Type} {P : α → Prop} {Q : β → Prop} {x : Res α} {k : α → Res β} (hx : x.Keeps P)
    (hk : ∀ a, P a → (k a).Keeps Q) : (x.bind k).Keeps Q := by
  cases x with
  | ok a => exact hk a hx
  | block t => exact hx
  | _ => trivial

/-- A check keeps whatever its success promises. -/
theorem Res.Keeps.require (b : Bool) : (Res.require b).Keeps fun _ => True := by cases b <;> trivial

/-- A body after a check. -/
theorem Res.Keeps.after {β : Type} {Q : β → Prop} {b : Bool} {k : Unit → Res β} (hk : (k ()).Keeps Q) : ((Res.require b).bind k).Keeps Q :=
  (Res.Keeps.require b).bind fun _ _ => hk

/-! ### Running an op -/

theorem MemInv.holdAt (i : MemInv s) : MemInv (Machine.holdAt s) := i.setG i.g_wf
theorem MemInv.parkAt (i : MemInv s) {p : Park} : MemInv (Machine.parkAt p s) := i.setG i.g_wf

theorem MemInv.endLaunch (i : MemInv s) {k : Lid} {c : W64} : MemInv (Machine.endLaunch k c s) :=
  i.updLaunch fun l hl => by split <;> exact hl

theorem MemInv.settled (i : MemInv s) (as : List Loc) : MemInv (Machine.settled as s) := by
  obtain ⟨rs, ts, h⟩ := settled_eq (s := s) as
  rw [h]
  exact i

theorem enterHandler_wf {l : Launch} {v : W64} {b : Bool} {w : W128} {x : TrapI} {g : Group} (h : groupMemWf g = true) :
    groupMemWf (enterHandler l v b w x g) = true := by
  simp only [groupMemWf, enterHandler, setS_harea]
  exact memWf_putBytes _ _ h

theorem MemInv.takeTrap (i : MemInv s) {b : Bool} {w : W128} {x : TrapI} : MemInv (Machine.takeTrap b w x s) := by
  unfold Machine.takeTrap
  split
  · exact i.endLaunch
  · exact (i.settled _).setG (enterHandler_wf i.g_wf)

theorem MemInv.trapAt (i : MemInv s) {x : TrapI} : MemInv (Machine.trapAt x s) := by
  unfold Machine.trapAt
  split
  · exact i.holdAt
  · refine MemInv.takeTrap ?_
    split
    · exact i.setG i.g_wf
    · exact i

theorem MemOut.finish (i : MemInv s) {r : Res State} (h : r.Keeps MemInv) : MemOut (finish s r) := by
  cases r with
  | ok t =>
    have h : MemInv t := h
    exact (h.setG (g := nextSlot t.g) h.g_wf).next
  | block t => exact MemInv.next h
  | trap x => exact i.trapAt.next
  | park p => exact i.parkAt.next
  | hold => exact i.holdAt.next

theorem MemOut.runWith {o : Op} {f : OpF} {off body : State → Res State} (i : MemInv s) (h : (off s).Keeps MemInv)
    (h' : (body s).Keeps MemInv) : MemOut (runWith o f off body s) := by
  rcases runWith_cases o f off body s with e | e | ⟨-, e⟩ | ⟨-, e⟩ <;> rw [e]
  · exact i.holdAt.next
  · exact i.trapAt.next
  · exact .finish i h'
  · exact .finish i h

theorem MemOut.runS {o : Op} {f : OpF} {body : State → Res State} (i : MemInv s) (h : (body s).Keeps MemInv) : MemOut (runS o f body s) :=
  .runWith i i h

/-- A body that leaves the handler area's form. -/
theorem onG_keeps {b : Group → Res Group} (i : MemInv s) (h : (b s.g).Keeps fun g => groupMemWf g = true) : (onG b s).Keeps MemInv :=
  h.bind fun _ hg => i.setG hg

theorem MemOut.runG {o : Op} {f : OpF} {b : Group → Res Group} (i : MemInv s) (h : ∀ g, groupMemWf g = true → (b g).Keeps fun g => groupMemWf g = true) :
    MemOut (runG o f b s) := .runS i (onG_keeps i (h _ i.g_wf))

/-! ### Updates of a group that leave its handler area -/

/-- A group with the handler area of another has it in canonical form too. -/
theorem groupMemWf_of_harea {g h : Group} (e : h.harea = g.harea) (w : groupMemWf g = true) : groupMemWf h = true := by
  rw [groupMemWf, e]; exact w

theorem foldl_harea {α : Type} {f : Group → α → Group} (hf : ∀ g x, (f g x).harea = g.harea) : ∀ (l : List α) (g : Group), (l.foldl f g).harea = g.harea
  | [], _ => rfl
  | x :: l, g => (foldl_harea hf l _).trans (hf g x)

theorem MemOut.runP {o : Op} {f : OpF} {b : Group → Group} (i : MemInv s) (h : ∀ g, (b g).harea = g.harea) : MemOut (runP o f b s) :=
  .runG i fun g w => groupMemWf_of_harea (h g) w

@[simp] theorem arithS_harea (f : OpF) (v : Int) (g : Group) : (arithS f v g).harea = g.harea := by unfold arithS; split <;> simp
@[simp] theorem setPair_harea (f : OpF) (x y : Bool) (g : Group) : (setPair f x y g).harea = g.harea := by simp [setPair]
@[simp] theorem setF_harea (f : OpF) (r : Nat × Flags) (g : Group) : (setF f r g).harea = g.harea := by simp [setF]
@[simp] theorem setPredPair_harea (f : OpF) (x y : W32) (g : Group) : (setPredPair f x y g).harea = g.harea := by simp [setPredPair]
@[simp] theorem setLanes_harea (t : Ty) (d : Nat) (act : W32) (rs : List (List (Nat × Flags))) (g : Group) :
    (setLanes t d act rs g).harea = g.harea := rfl
@[simp] theorem mapV_harea (t : Ty) (d : Nat) (fn : Nat → Nat → Nat → Nat × Flags) (v : VIn) (g : Group) : (mapV t d fn v g).harea = g.harea := rfl
@[simp] theorem putAcc_harea (n j : Nat) (r : W64 × Flags) (g : Group) : (putAcc n j r g).harea = g.harea := rfl

theorem overLanes_harea {act : W32} {n : Nat} {f : Nat → Nat → Group → Group} (hf : ∀ j k g, (f j k g).harea = g.harea) (g : Group) :
    (overLanes act n f g).harea = g.harea :=
  foldl_harea (fun g j => foldl_harea (fun g k => hf j k g) _ g) _ g

@[simp] theorem streamAdvance_harea (n : Nat) (g : Group) : (streamAdvance n g).harea = g.harea := by
  unfold streamAdvance
  split
  · rfl
  · dsimp only; split <;> simp

@[simp] theorem streamSeen_harea (n : Nat) (g : Group) : (streamSeen n g).harea = g.harea := by
  unfold streamSeen
  split
  · rfl
  · dsimp only; split <;> rfl

@[simp] theorem streamUse_harea (n : Nat) (g : Group) : (streamUse n g).harea = g.harea := by
  unfold streamUse
  dsimp only
  split
  · split <;> simp
  · rfl

@[simp] theorem afterMaps_harea (xs : List (Nat × Src)) (g : Group) : (afterMaps xs g).harea = g.harea := by
  unfold afterMaps
  split
  · rfl
  · have h := foldl_harea (f := fun g n => streamUse n g) (fun g n => streamUse_harea n g) (xs.map fun x => x.2.map.toNat).eraseDups g
    dsimp only
    split
    · exact h
    · exact h

/-! ### Vector ops -/

theorem mapChecks_keeps {act : W32} {t : Ty} {xs : List (Nat × Src)} : (mapChecks s act t xs).Keeps fun _ => True := by
  unfold mapChecks
  (repeat' split) <;> trivial

theorem vecBody_keeps {o : Op} {f : OpF} {t : Ty} {b : VIn → Group → Res Group} (i : MemInv s)
    (h : ∀ v g, ∃ g', b v g = .ok g' ∧ g'.harea = g.harea) : (vecBody o f t b s).Keeps MemInv := by
  unfold vecBody
  refine mapChecks_keeps.bind fun _ _ => ?_
  dsimp only
  obtain ⟨g', e, hg⟩ := h _ _
  rw [e]
  exact i.setG (groupMemWf_of_harea ((afterMaps_harea _ _).trans hg) i.g_wf)

theorem MemOut.runVecIf {ok : Bool} {o : Op} {f : OpF} {t : Ty} {b : VIn → Group → Res Group} (i : MemInv s)
    (h : ∀ v g, ∃ g', b v g = .ok g' ∧ g'.harea = g.harea) : MemOut (runVecIf ok o f t b s) := by
  refine .runS i ?_
  split
  · exact vecBody_keeps i h
  · trivial

theorem MemOut.runVec {o : Op} {f : OpF} {t : Ty} {b : VIn → Group → Res Group} (i : MemInv s)
    (h : ∀ v g, ∃ g', b v g = .ok g' ∧ g'.harea = g.harea) : MemOut (runVec o f t b s) := .runVecIf i h

theorem MemOut.vecMap {o : Op} {f : OpF} {t : Ty} {fn : Nat → Nat → Nat → Nat × Flags} (i : MemInv s) : MemOut (vecMap o f t fn s) :=
  .runVec i fun _ _ => ⟨_, rfl, rfl⟩

theorem MemOut.vecCmp {o : Op} {f : OpF} {rel : Nat → Nat → Bool × Flags} (i : MemInv s) : MemOut (vecCmp o f rel s) := by
  unfold Machine.vecCmp
  refine .runWith i (onG_keeps i ?_) ?_
  · exact groupMemWf_of_harea (setPredPair_harea f 0 0 s.g) i.g_wf
  split
  · trivial
  · exact vecBody_keeps i fun _ _ => ⟨_, rfl, by simp⟩

end Sys2Proof.Machine
end

