-- ==== Sys2Proof/Proofs/MemKeptLane.lean ====
section
/-!
The canonical form of every memory, second part: the lane path, its issue, performance and retirement, fences and promotions.
-/
namespace Sys2Proof.Machine

variable {s : State}

/-! ### Reads and releases -/

theorem MemInv.learnRead (i : MemInv s) {k : Gid} {p : Path} {q : Nat} {a : Loc} {w : Option WriteRec} : MemInv (Machine.learnRead k p q a w s) := by
  unfold Machine.learnRead
  split
  · exact i
  · exact i.updGroup fun g hg => by split <;> exact hg

theorem MemInv.learnNewest (i : MemInv s) {k : Gid} {p : Path} {q : Nat} {as : List Loc} : MemInv (Machine.learnNewest k p q as s) :=
  i.foldl fun _ _ i => i.learnRead

theorem MemInv.readByte (i : MemInv s) {k : Gid} {p : Path} {q : Nat} {a : Loc} : MemInv (Machine.readByte k p q a s).2 := by
  unfold Machine.readByte
  dsimp only
  split
  · exact i
  · exact i.setTick.learnRead

theorem MemInv.readSeen {k : Gid} {p : Path} {q : Nat} : ∀ (as : List Loc) {s : State}, MemInv s → MemInv (Machine.readSeen k p q as s).2
  | [], _, i => i
  | _ :: as, _, i => MemInv.readSeen as i.readByte

theorem MemInv.readBytes (i : MemInv s) {k : Gid} {p : Path} {q : Nat} {as : List Loc} : MemInv (Machine.readBytes k p q as s).2 := i.readSeen as

theorem MemInv.rmwAt (i : MemInv s) {know : List Crossing} {op : OpId} {p : Path} {as : List Loc} : MemInv (Machine.rmwAt know op p as s).2 := i

theorem MemInv.acquire (i : MemInv s) {k : Gid} {sc : Scope} {q : Nat} {rs : List RelTag} : MemInv (Machine.acquire k sc q rs s) :=
  i.updGroup fun g hg => by dsimp only; split <;> exact hg

theorem MemInv.releaseAt (i : MemInv s) {op : OpId} {rel : Option Scope} {a : Loc} {w : Nat} {ended : List (Loc × OpId)} :
    MemInv (Machine.releaseAt op rel a w ended s) := by
  unfold Machine.releaseAt
  split <;> exact i

theorem MemInv.addRed (i : MemInv s) {g : Group} {r : RedRec} : MemInv (Machine.addRed g r s) := i.updLaunch fun _ hl => hl

/-! ### Errors of memory -/

theorem addEcc_wf {p : Part} (h : partMemWf p = true) : partMemWf (addEcc p) = true := by
  unfold addEcc
  split <;> exact h

/-- Every member of a list mapped to one that has a property as well. -/
theorem all_map_of {α : Type} {P : α → Bool} {f : α → α} (hf : ∀ x, P x = true → P (f x) = true) {l : List α} (h : l.all P = true) :
    (l.map f).all P = true := by
  simp only [List.all_eq_true, List.mem_map] at h ⊢
  rintro x ⟨y, hy, rfl⟩
  exact hf y (h y hy)

theorem MemInv.countEcc (i : MemInv s) {l : Home × Nat} : MemInv (Machine.countEcc l s) :=
  ⟨i.hbm_wf, i.groups_wf, i.teams_wf, i.launches_wf,
    all_map_of (l := s.p :: s.parts) (f := fun (p : Part) => if p.live && linePart p l then addEcc p else p)
      (fun p hp => by split; exacts [addEcc_wf hp, hp]) i.parts_wf⟩

theorem MemInv.eccLines (i : MemInv s) {read : Home × Nat → Bool} : MemInv (Machine.eccLines read s) := i.foldl fun _ _ i => i.countEcc

theorem MemInv.eccRead (i : MemInv s) {as : List Loc} : MemInv (Machine.eccRead as s) := by
  unfold Machine.eccRead
  split
  · exact i
  · exact i.eccLines

theorem MemInv.correctedTurn (i : MemInv s) {k : Gid} : MemInv (Machine.correctedTurn k s) := by
  unfold Machine.correctedTurn
  split
  · exact i.updPart fun _ => addEcc_wf
  · exact i

theorem MemInv.memError (i : MemInv s) {k : Gid} : MemInv (Machine.memError k s) := i.endLaunch

/-! ### Tags and signals of commands -/

theorem MemInv.raiseSat (i : MemInv s) {k : Gid} : MemInv (Machine.raiseSat k s) := i.updGroup fun g hg => by split <;> exact hg

theorem MemInv.commandTag (i : MemInv s) {op : OpId} {tag : Option Nat} : MemInv (Machine.commandTag op tag s) := by
  unfold Machine.commandTag
  split
  · exact i
  · exact i.updTeam fun _ ht => ht

theorem MemInv.commandSignal (i : MemInv s) {op : OpId} {p : Path} {sig : Option SigRef} : MemInv (Machine.commandSignal op p sig s) := by
  unfold Machine.commandSignal
  split
  · exact i
  · next r =>
    dsimp only
    split
    · exact i
    · split
      · exact i.memError
      · have h := (i.eccRead (as := locsFrom r.loc 8)).rmwAt (know := []) (op := op) (p := p) (as := locsFrom r.loc 8)
        split
        · exact h.putAt.setRels.raiseSat
        · exact h.putAt.setRels

theorem MemInv.commandEnd (i : MemInv s) {op : OpId} {p : Path} {tag : Option Nat} {sig : Option SigRef} :
    MemInv (Machine.commandEnd op p tag sig s) := by
  unfold Machine.commandEnd
  split
  · exact i.memError
  · exact i.commandTag.commandSignal

/-! ### Performing -/

theorem MemInv.updLane (i : MemInv s) {k : Gid} {q : Nat} {f : LaneOp → LaneOp} : MemInv (Machine.updLane k q f s) := i.updGroup fun _ hg => hg

theorem MemInv.passEach (i : MemInv s) {know : List Crossing} {op : OpId} {p : Path} {as : List Loc} :
    MemInv (Machine.passEach know op p as s).2 := by
  rw [passEach_eq]
  exact i

theorem MemInv.putEach {op : OpId} {p : Path} {va : W64} : ∀ (xs : List ((Loc × List WriteRec) × Byte)) {n : Nat} {s : State}, MemInv s →
    MemInv (Machine.putEach op p va n xs s)
  | [], _, _, i => i
  | _ :: xs, _, _, i => MemInv.putEach xs i.putAt

theorem MemInv.putPlain (i : MemInv s) {op : OpId} {p : Path} {ps : List (List WriteRec)} {a : Loc} {va : W64} {bs : List Byte} :
    MemInv (Machine.putPlain op p ps a va bs s) := by
  unfold Machine.putPlain
  dsimp only
  split
  · exact i.endRelsOf.putAt
  · exact i.endRelsOf.putEach _

theorem MemInv.performRead (i : MemInv s) {op : OpId} {sgn : Bool} {a : Acc} : MemInv (Machine.performRead op sgn a s).2 := i.readSeen _

theorem MemInv.performWrite (i : MemInv s) {op : OpId} {rel : Option Scope} {a : Acc} : MemInv (Machine.performWrite op rel a s) := by
  unfold Machine.performWrite
  dsimp only
  exact i.passEach.putPlain.releaseAt

theorem MemInv.performRmw (i : MemInv s) {op : OpId} {rel : Option Scope} {new : Nat → Nat × Flags} {a : Acc} :
    MemInv (Machine.performRmw op rel new a s).2 := by
  unfold Machine.performRmw
  dsimp only
  exact i.rmwAt.putAt.releaseAt

theorem MemInv.performOn (i : MemInv s) {op : OpId} {o : LaneOp} {a : Acc} : MemInv (Machine.performOn op o a s).2 := by
  unfold Machine.performOn
  split
  · exact i
  · exact i.performRead
  · exact i.performWrite
  · exact i.performRmw
  · dsimp only
    exact i.performRmw
  · dsimp only
    exact i.performRmw

theorem MemInv.performAcc (i : MemInv s) {k : Gid} {q n : Nat} : MemInv (Machine.performAcc k q n s) := by
  unfold Machine.performAcc
  split
  · exact i
  · split
    · exact i
    · split
      · exact i
      · dsimp only
        split
        · exact i.updLane.memError
        · refine MemInv.updLane (MemInv.performOn ?_)
          split
          · exact i.eccRead
          · exact i

theorem MemInv.performEnd (i : MemInv s) {k : Gid} {q : Nat} : MemInv (Machine.performEnd k q s) := by
  unfold Machine.performEnd
  split
  · exact i
  · split
    · exact i
    · exact i.updLane.foldl fun _ _ i => i.acquire

theorem MemInv.performOne (i : MemInv s) {k : Gid} {o : LaneOp} : MemInv (Machine.performOne k o s) := by
  unfold Machine.performOne
  dsimp only
  split
  · exact i
  · exact MemInv.performEnd (i.foldl fun _ _ i => i.performAcc)

theorem MemInv.performList {k : Gid} : ∀ (ns : List Need) {s : State}, MemInv s → MemInv (Machine.performList k ns s)
  | [], _, i => i
  | n :: ns, s, i => by
    unfold Machine.performList
    split
    · dsimp only
      split
      · exact i.performOne
      · exact i.performOne.performList ns
    · exact MemInv.performList ns (i.foldl fun _ _ i => i.performAcc)

theorem MemInv.performTo (i : MemInv s) {k : Gid} {q : Nat} : MemInv (Machine.performTo k q s) := by
  unfold Machine.performTo
  split
  · exact i
  · split
    · exact i
    · exact i.performList _

theorem MemInv.performPart (i : MemInv s) {k : Gid} {q n : Nat} : MemInv (Machine.performPart k q n s) := by
  unfold Machine.performPart
  split
  · exact i
  · split
    · exact i
    · exact i.performList _

theorem MemInv.performOlder (i : MemInv s) {k : Gid} {q : Nat} : MemOpt (Machine.performOlder k q s) := by
  unfold Machine.performOlder
  split
  · exact i.some
  · dsimp only
    split
    · exact (i.performList _).some
    · exact .none

theorem MemInv.performAll (i : MemInv s) {k : Gid} : MemOpt (Machine.performAll k s) := i.performOlder

theorem MemInv.performAcquires (i : MemInv s) {k : Gid} {q : Nat} : MemOpt (Machine.performAcquires k q s) := by
  unfold Machine.performAcquires
  split
  · exact i.some
  · dsimp only
    split
    · exact .none
    · exact MemInv.some (i.foldl fun _ _ i => i.performTo)

theorem MemInv.afterAcquires (i : MemInv s) {k : Gid} {q : Nat} {next : State → State} (h : ∀ s, MemInv s → MemInv (next s)) :
    MemInv (Machine.afterAcquires k q next s) := by
  unfold Machine.afterAcquires
  cases e : Machine.performAcquires k q s with
  | none => exact i
  | some t => exact h t (i.performAcquires t e)

theorem MemInv.missTurn (i : MemInv s) {k : Gid} {q : Nat} : MemInv (Machine.missTurn k q s) := i.updLane

/-! ### Retirement -/

theorem MemInv.wake (i : MemInv s) {t : Tid} : MemInv (Machine.wake t s) := i.updTeamGroups fun g hg => by split <;> exact hg

@[simp] theorem deliver_harea (o : LaneOp) (g : Group) : (deliver o g).harea = g.harea := by
  unfold deliver
  split
  · rfl
  · exact foldl_harea (fun g _ => foldl_harea (fun g _ => setLane_harea ..) _ g) _ g
  · exact foldl_harea (fun g _ => setS_harea ..) _ g
  · exact foldl_harea (fun g _ => setA_harea ..) _ g

theorem retireOp_harea (still : Nat → Bool) (o : LaneOp) (g : Group) : (retireOp still o g).harea = g.harea := deliver_harea o g

theorem MemInv.retireHead (i : MemInv s) {k : Gid} {c : Ctr} : MemInv (Machine.retireHead k c s) := by
  unfold Machine.retireHead
  split
  · exact i
  · dsimp only
    split
    · exact i.performTo
    · split
      · exact (i.performTo.updGroup fun g hg => groupMemWf_of_harea (retireOp_harea ..) hg).wake
      · exact i.performTo

theorem accWake_wf {g : Group} (h : groupMemWf g = true) : groupMemWf (accWake g) = true := by
  unfold accWake
  split <;> exact h

/-! ### Issue -/

theorem checkForm_keeps {al : Req → Nat} {rs : List Req} : (checkForm al rs).Keeps fun _ => True := by
  unfold checkForm
  (repeat' split) <;> trivial

theorem checkReach_keeps {n : Nat} {rs : List Req} : (checkReach s n rs).Keeps fun _ => True := by
  unfold checkReach
  (repeat' split) <;> trivial

theorem checkReqs_keeps {n : Nat} {rs : List Req} : (checkReqs s n rs).Keeps fun _ => True := checkForm_keeps.bind fun _ _ => checkReach_keeps

theorem reserve_keeps {n m : Nat} {ws : List Acc} : (reserve s n ws m).Keeps fun _ => True := by
  unfold reserve
  dsimp only
  (repeat' split) <;> trivial

theorem needRoom_keeps {c : Ctr} : (needRoom c s).Keeps fun _ => True := by
  unfold needRoom
  split <;> trivial

theorem issueLane_keeps (i : MemInv s) {o : LaneOp} : (issueLane o s).Keeps MemInv := i.setG i.g_wf

theorem offLane_keeps (i : MemInv s) {c : Ctr} : (offLane c s).Keeps MemInv := by
  unfold offLane
  split
  · exact i.setG i.g_wf
  · trivial

theorem issueWith_keeps (i : MemInv s) {o : LaneOp} : (issueWith o s).Keeps MemInv := by
  unfold issueWith
  split
  · exact issueLane_keeps i
  · refine reserve_keeps.bind fun _ _ => (issueLane_keeps i).bind fun t ht => ?_
    dsimp only
    split
    · trivial
    · exact MemInv.performTo ht

theorem issueMem_keeps (i : MemInv s) {o : LaneOp} {rs : List Req} : (issueMem o rs s).Keeps MemInv :=
  needRoom_keeps.bind fun _ _ => checkReqs_keeps.bind fun _ _ => issueWith_keeps i

theorem issueAcc_keeps (i : MemInv s) {o : LaneOp} {rs : List Req} : (issueAcc o rs s).Keeps MemInv :=
  checkReqs_keeps.bind fun _ _ => issueWith_keeps i

theorem MemOut.execVld (i : MemInv s) {f : OpF} : MemOut (execVld f s) := .runWith i (offLane_keeps i) (.after (issueMem_keeps i))
theorem MemOut.execVst (i : MemInv s) {f : OpF} : MemOut (execVst f s) := .runWith i (offLane_keeps i) (.after (issueMem_keeps i))
theorem MemOut.execSld (i : MemInv s) {f : OpF} : MemOut (execSld f s) := .runWith i (offLane_keeps i) (.after (issueMem_keeps i))
theorem MemOut.execSst (i : MemInv s) {f : OpF} : MemOut (execSst f s) := .runWith i (offLane_keeps i) (.after (issueMem_keeps i))

/-! ### Atomics and their rounds -/

theorem ordWait_keeps (i : MemInv s) {o : LaneOp} : (ordWait o s).Keeps MemInv := by
  unfold ordWait ordTake
  dsimp only
  split
  · exact i.setG i.g_wf
  · exact (i.setT i.t_wf).setG i.g_wf

theorem atomOff_keeps (i : MemInv s) {f : OpF} : (atomOff f s).Keeps MemInv := by
  unfold atomOff
  split
  · refine needRoom_keeps.bind fun _ _ => ?_
    split
    · trivial
    · exact ordWait_keeps i
  · exact offLane_keeps i

theorem atomBody_keeps (i : MemInv s) {f : OpF} : (atomBody f s).Keeps MemInv := by
  refine .after ?_
  split
  · refine needRoom_keeps.bind fun _ _ => checkReqs_keeps.bind fun _ _ => ?_
    unfold atomIssue
    dsimp only
    split
    · exact ordWait_keeps i
    · exact issueLane_keeps i
  · trivial

theorem aredBody_keeps (i : MemInv s) {f : OpF} : (aredBody f s).Keeps MemInv := by
  refine .after (needRoom_keeps.bind fun _ _ => checkReqs_keeps.bind fun _ _ => ?_)
  split
  · exact reserve_keeps.bind fun _ _ => issueLane_keeps (i.foldl fun _ _ i => i.addRed)
  · exact issueLane_keeps i

theorem MemInv.ordPerform (i : MemInv s) {e : Nat} {o : LaneOp} : MemInv (Machine.ordPerform e o s) := by
  unfold Machine.ordPerform
  split
  · exact (i.setG (g := { s.g with wait := .none }) i.g_wf).parkAt
  · dsimp only
    split
    · exact i
    · exact MemInv.performTo ((i.setG (g := nextSlot (enqueue o s.g)) i.g_wf).setT (t := ordCount e s.g.id.num s.t) i.t_wf)

theorem MemOut.execAtomOrdRound (i : MemInv s) {k : Gid} : MemOut (execAtomOrdRound k s) := by
  have j := i.focus (k := k)
  unfold Machine.execAtomOrdRound
  dsimp only
  split
  · split
    · split
      · exact j.ordPerform.next
      · exact j.next
    · exact j.next
  · exact j.next

theorem MemOut.execOrdDeadlock (i : MemInv s) {t : Tid} : MemOut (execOrdDeadlock t s) := by
  have j := i.focusTeam (k := t).focusLaunch (k := t.l)
  unfold Machine.execOrdDeadlock
  dsimp only
  split
  · exact j.next
  · split
    · exact j.focus.trapAt.next
    · exact j.focus.next

/-! ### Fences and promotions -/

theorem lateAcquire_keeps (i : MemInv s) {sc : Scope} {q : Nat} {b : Bool} {rs : List RelTag} : MemOpt (lateAcquire sc q b rs s) := by
  unfold lateAcquire
  split
  · exact .none
  · exact i.acquire.some

theorem fenceAcq_keeps (i : MemInv s) {sc : Scope} : MemOpt (fenceAcq sc s) := by
  unfold fenceAcq
  split
  · split
    · exact lateAcquire_keeps i
    · exact MemInv.some (i.setG i.g_wf)
  · exact lateAcquire_keeps i

theorem fenceBody_keeps (i : MemInv s) {f : OpF} : (fenceBody f s).Keeps MemInv := by
  have h : MemOpt (if memAcq f then fenceAcq (scopeOf (memScope f)) s else some s) := by
    split
    · exact fenceAcq_keeps i
    · exact i.some
  unfold fenceBody
  split
  · next t e => exact (h t e).setG (h t e).g_wf
  · trivial

theorem MemInv.xfenceDo (i : MemInv s) {mask : W32} : MemInv (Machine.xfenceDo mask s) :=
  (i.setG (g := { s.g with crossed := (crossings mask s ++ s.g.crossed).eraseDups }) i.g_wf).setL
    (l := if s.l.replay then updTask s.g.id.t.team (fun t => { t with buf := t.buf.map (bufFence mask) }) s.l else s.l)
    (by split <;> exact i.l_wf)

theorem promoteBody_keeps (i : MemInv s) {f : OpF} : (promoteBody f s).Keeps MemInv := by
  refine .after ?_
  split
  · exact i
  · exact i.setG i.g_wf

theorem promoteWait_wf {g : Group} (h : groupMemWf g = true) : groupMemWf (promoteWait g) = true := by
  unfold promoteWait
  split <;> exact h

theorem promoteSaved_wf {t : Tid} {p : Part} (h : partMemWf p = true) : partMemWf (promoteSaved t p) = true := by
  unfold partMemWf at h ⊢
  refine all_map_of (l := p.saved) (fun x hx => ?_) h
  simp only [Bool.and_eq_true] at hx ⊢
  exact ⟨hx.1, all_map_of (P := groupMemWf) (f := promoteReads t) (fun g hg => hg) hx.2⟩

theorem promoteGroup_keeps (i : MemInv s) {g : Group} : MemOpt (promoteGroup g s) := by
  have h : MemInv ((g.lane.filter fun o => o.rel.any narrow).foldl (fun s o => Machine.performTo g.id o.seq s) s) :=
    i.foldl fun _ _ i => i.performTo
  unfold promoteGroup
  dsimp only
  split
  · exact .none
  · split
    · exact h.performAll
    · exact h.some

theorem MemOpt.bind {o : Option State} {f : State → Option State} (h : MemOpt o) (hf : ∀ s, MemInv s → MemOpt (f s)) : MemOpt (o.bind f) := by
  cases o with
  | none => exact .none
  | some t => exact hf t (h t rfl)

theorem MemOpt.foldl {α : Type} {f : Option State → α → Option State} (hf : ∀ o x, MemOpt o → MemOpt (f o x)) :
    ∀ (l : List α) {o : Option State}, MemOpt o → MemOpt (l.foldl f o)
  | [], _, h => h
  | x :: l, _, h => MemOpt.foldl hf l (hf _ x h)

theorem promoteTeam_keeps (i : MemInv s) {t : Tid} : MemOpt (promoteTeam t s) := by
  have h : MemOpt ((teamGroups s t).foldl (fun s g => s.bind (promoteGroup g)) (some s)) :=
    MemOpt.foldl (fun _ _ h => h.bind fun _ i => promoteGroup_keeps i) _ i.some
  unfold promoteTeam
  cases e : (teamGroups s t).foldl (fun s g => s.bind (promoteGroup g)) (some s) with
  | none => exact .none
  | some u =>
    have j := (h u e).updTeamGroups (k := t) (f := promoteWait) fun _ => promoteWait_wf
    rw [Option.map_some]
    refine MemInv.some ⟨j.hbm_wf, ?_, j.teams_wf, j.launches_wf, ?_⟩
    · exact all_map_of (P := groupMemWf) (f := promoteReads t) (l := _ :: _) (fun _ hg => hg) j.groups_wf
    · exact all_map_of (P := partMemWf) (f := promoteSaved t) (l := _ :: _) (fun _ => promoteSaved_wf) j.parts_wf

theorem MemOut.execPromoteComplete (i : MemInv s) {k : Gid} : MemOut (execPromoteComplete k s) := by
  have j := i.focus (k := k)
  unfold Machine.execPromoteComplete
  dsimp only
  split
  · split
    · split
      · next e =>
        have h := promoteTeam_keeps j _ e
        exact MemInv.next (h.setG h.g_wf)
      · exact j.next
    · exact j.next
  · exact j.next

end Sys2Proof.Machine
end

