-- ==== Sys2Proof/Proofs/MemKeptMaps.lean ====
section
/-!
The canonical form of every memory, third part: the copy path, and the map transfers and block fetches of the stream path.
-/
namespace Sys2Proof.Machine

variable {s : State}

/-! ### Copies -/

theorem compRead_keeps {b en : Bool} {n : Nat} : (compRead s b en n).Keeps fun _ => True := by
  unfold compRead
  split
  · exact .after trivial
  · exact .after trivial

theorem startTag_wf {tag : Option Nat} {t : Team} (h : teamMemWf t = true) : teamMemWf (startTag tag t) = true := by
  unfold startTag
  split <;> exact h

theorem MemInv.compStart (i : MemInv s) {c : Comp} {sig : Option SigRef} : MemInv (Machine.compStart c sig s) := by
  have h := i.setT (startTag_wf (tag := c.tag) i.t_wf)
  unfold Machine.compStart
  dsimp only
  split
  · exact h
  · split
    · exact h.addRed
    · exact h

theorem MemInv.copyIssue (i : MemInv s) {tile : Bool} {n : Nat} {c : Comp} {accs : List Acc} : MemInv (Machine.copyIssue tile n c accs s) :=
  i.compStart.setG i.compStart.g_wf

theorem copyBody_keeps (i : MemInv s) {tile : Bool} {f : OpF} : (copyBody tile f s).Keeps MemInv := by
  refine .after (compRead_keeps.bind fun _ _ => ?_)
  split
  · refine checkReqs_keeps.bind fun _ _ => ?_
    split
    · trivial
    · exact reserve_keeps.bind fun _ _ => i.copyIssue
  · trivial

theorem offCopy_keeps (i : MemInv s) : (offCopy s).Keeps MemInv := by
  unfold offCopy
  split
  · exact i.setG i.g_wf
  · trivial

theorem MemInv.updCopy (i : MemInv s) {k : Gid} {q : Nat} {f : CopyOp → CopyOp} : MemInv (Machine.updCopy k q f s) := i.updGroup fun _ hg => hg

theorem MemInv.copyPop (i : MemInv s) {k : Gid} {q : Nat} : MemInv (Machine.copyPop k q s) := by
  unfold Machine.copyPop
  refine (i.updGroup ?_).wake
  exact fun _ hg => hg

theorem MemInv.copyRead (i : MemInv s) {k : Gid} {o : CopyOp} {is : Option (List Nat)} : MemInv (Machine.copyRead k o is s) := by
  unfold Machine.copyRead
  split
  · exact i
  · refine i.afterAcquires fun s i => ?_
    dsimp only
    split
    · exact i.copyPop.memError
    · exact i.eccRead.readBytes.updCopy

theorem MemInv.endRels (i : MemInv s) {op : OpId} {a : Loc} {n : Nat} : MemInv (Machine.endRels op a n s) := i.endRelsOf

theorem MemInv.copyWrite {op : OpId} {tile : Bool} {src : List Loc} : ∀ (xs : List ((Loc × W64) × Byte)) {s : State}, MemInv s →
    MemInv (Machine.copyWrite op tile src xs s)
  | [], _, i => i
  | x :: xs, s, i => by
    unfold Machine.copyWrite
    split
    · refine MemInv.copyWrite xs ?_
      split
      · exact i.setTick.writeAt
      · exact i.setTick.endRels
    · exact i.writeAt.copyWrite xs

theorem MemInv.copyStep (i : MemInv s) {k : Gid} {q n : Nat} : MemInv (Machine.copyStep k q n s) := by
  unfold Machine.copyStep
  split
  · exact i
  · split
    · exact i
    · next o _ _ =>
      have h := i.copyRead (k := k) (o := o) (is := none)
      dsimp only
      split
      · exact h
      · split
        · exact h
        · split
          · exact (h.copyWrite _).updCopy
          · split
            · exact (h.copyWrite _).updCopy
            · exact ((h.copyWrite _).updCopy).updTeam fun _ ht => ht

theorem MemInv.copyEnd (i : MemInv s) {k : Gid} {q : Nat} : MemInv (Machine.copyEnd k q s) := by
  unfold Machine.copyEnd
  split
  · exact i
  · split
    · exact i
    · dsimp only
      split
      · exact i.copyStep
      · split
        · exact i.copyStep
        · exact i.copyStep.commandEnd.copyPop

theorem MemInv.copySome (i : MemInv s) {k : Gid} {q : Nat} {is : List Nat} : MemInv (Machine.copySome k q is s) := by
  unfold Machine.copySome
  split
  · exact i
  · split
    · exact i
    · exact i.copyRead

theorem MemInv.copyGo (i : MemInv s) {k : Gid} {x : Nat × CopyMove} : MemInv (Machine.copyGo k x s) := by
  unfold Machine.copyGo
  split
  · exact i.copySome
  · exact i.copyStep
  · exact i.copyEnd

theorem MemInv.copyAfter (i : MemInv s) {k : Gid} {n : Nat} {m : CopyMove} : MemInv (Machine.copyAfter k n m s) := by
  unfold Machine.copyAfter
  split
  · exact i
  · exact i.foldl fun _ _ i => i.copyGo

theorem MemInv.copyPart (i : MemInv s) {k : Gid} {m o n : Nat} : MemInv (Machine.copyPart k m o n s) := by
  unfold Machine.copyPart
  split
  · exact i.copyAfter
  · exact i

/-! ### Binding and issue of maps -/

@[simp] theorem mapRelease_harea (n : Nat) (g : Group) : (mapRelease n g).harea = g.harea := setMap_harea g n 0
@[simp] theorem mapBind_harea (n : Nat) (d : W64) (g : Group) : (mapBind n d g).harea = g.harea := by simp [mapBind]

theorem checkImage_keeps {rs : List Req} : (checkImage s rs).Keeps fun _ => True := checkForm_keeps.bind fun _ _ => checkReach_keeps

theorem needMp_keeps : (needMp s).Keeps fun _ => True := by
  unfold needMp
  split <;> trivial

theorem mapset_keeps (i : MemInv s) {n : Nat} {d : W64} : MemInv { s with g := mapBind n d s.g } := i.setG (groupMemWf_of_harea (mapBind_harea ..) i.g_wf)

theorem offMap_keeps (i : MemInv s) : (offMap s).Keeps MemInv := needMp_keeps.bind fun _ _ => i.setG i.g_wf

theorem mapldBody_keeps (i : MemInv s) {f : OpF} : (mapldBody f s).Keeps MemInv :=
  .after (needMp_keeps.bind fun _ _ => checkImage_keeps.bind fun _ _ => i.setG (groupMemWf_of_harea (mapBind_harea ..) i.g_wf))

theorem mapstBody_keeps (i : MemInv s) {f : OpF} : (mapstBody f s).Keeps MemInv := by
  refine .after (needMp_keeps.bind fun _ _ => checkImage_keeps.bind fun _ _ => ?_)
  split
  · trivial
  · exact reserve_keeps.bind fun _ _ => i.setG i.g_wf

theorem mapgenBody_keeps (i : MemInv s) {f : OpF} : (mapgenBody f s).Keeps MemInv :=
  .after (needMp_keeps.bind fun _ _ => i.setG (groupMemWf_of_harea (mapBind_harea ..) i.g_wf))

theorem mapstrBody_keeps (i : MemInv s) {f : OpF} : (mapstrBody f s).Keeps MemInv :=
  .after (checkImage_keeps.bind fun _ _ => i.setG (groupMemWf_of_harea (mapBind_harea ..) i.g_wf))

/-! ### Reading and filling -/

theorem teamMemWf_iff {t : Team} : teamMemWf t = true ↔ memWf t.bench = true ∧ memWf t.slots = true ∧ memWf t.tloft = true ∧ memWf t.tyard = true := by
  simp [teamMemWf, Bool.and_eq_true, and_assoc]

/-- The slot store of a team replaced. -/
theorem teamMemWf_slots {t : Team} {m : Mem} (h : teamMemWf t = true) (hm : memWf m = true) : teamMemWf { t with slots := m } = true := by
  obtain ⟨hb, -, hl, hy⟩ := teamMemWf_iff.mp h
  exact teamMemWf_iff.mpr ⟨hb, hm, hl, hy⟩

theorem slots_wf {t : Team} (h : teamMemWf t = true) : memWf t.slots = true := (teamMemWf_iff.mp h).2.1

theorem fillSlots_wf {n m : Nat} {bs : List Byte} {t : Team} (h : teamMemWf t = true) : teamMemWf (fillSlots n m bs t) = true :=
  teamMemWf_slots h (memWf_putBytes _ _ (slots_wf h))

theorem MemInv.streamRead (i : MemInv s) {k : Gid} {q : Nat} {xs : List (Nat × Loc)} {got got' : List (Nat × Byte)} {t : State}
    (e : Machine.streamRead k q xs got s = .some (got', t)) : MemInv t := by
  unfold Machine.streamRead at e
  dsimp only at e
  split at e
  · cases e
  · cases e
    exact i.eccRead.readBytes

theorem MemInv.fetchDo (i : MemInv s) {k : Gid} {m blk : Nat} : MemInv (Machine.fetchDo k m blk s) := by
  unfold Machine.fetchDo
  split
  · exact i
  · split
    · exact i.memError
    · next e =>
      dsimp only
      refine ((i.streamRead e).updGroup ?_).updTeam fun _ => fillSlots_wf
      exact fun _ hg => hg

theorem MemInv.fetchSome (i : MemInv s) {k : Gid} {m blk : Nat} {is : List Nat} : MemInv (Machine.fetchSome k m blk is s) := by
  unfold Machine.fetchSome
  split
  · exact i
  · split
    · exact i.memError
    · next e => exact (i.streamRead e).updGroup fun _ hg => hg

theorem MemInv.updMapop (i : MemInv s) {k : Gid} {q : Nat} {f : MapOp → MapOp} : MemInv (Machine.updMapop k q f s) := i.updGroup fun _ hg => hg

theorem MemInv.storeImage {op : OpId} : ∀ (as : List Acc) {bs : List Byte} {s : State}, MemInv s → MemInv (Machine.storeImage op as bs s)
  | [], _, _, i => i
  | _ :: as, _, _, i => i.writeAt.storeImage as

theorem MemInv.storeSome (i : MemInv s) {op : OpId} {o : MapOp} {is : List Nat} : MemInv (Machine.storeSome op o is s) :=
  i.foldl fun _ _ i => by dsimp only; split; exacts [i.writeAt, i]

theorem MemInv.markRivals (i : MemInv s) {k : Gid} {o : MapOp} : MemInv (Machine.markRivals k o s) :=
  i.updTeamGroups fun g hg => by split <;> exact hg

theorem MemInv.fillApart {n m r : Nat} {rival : List Nat} {k : Tid} : ∀ (xs : List (Nat × Byte)) {s : State}, MemInv s →
    MemInv (Machine.fillApart n m r rival k xs s)
  | [], _, i => i
  | x :: xs, s, i => by
    unfold Machine.fillApart
    dsimp only
    refine MemInv.fillApart xs ?_
    split
    · exact i.setTick
    · exact i.setTick.updTeam fun _ ht => teamMemWf_slots ht (memWf_put (slots_wf ht) ..)

theorem MemInv.fillFrom (i : MemInv s) {k : Gid} {o : MapOp} {bs : List Byte} : MemInv (Machine.fillFrom k o bs s) := by
  unfold Machine.fillFrom
  refine MemInv.markRivals ?_
  split
  · exact i.updTeam fun _ => fillSlots_wf
  · exact i.fillApart _

theorem MemInv.mapDo (i : MemInv s) {k : Gid} {q : Nat} : MemInv (Machine.mapDo k q s) := by
  unfold Machine.mapDo
  split
  · exact i
  · split
    · exact i
    · dsimp only
      split
      · split
        · exact i.updMapop.memError
        · next e => exact (i.streamRead e).updMapop.fillFrom
      · refine MemInv.updMapop ?_
        split
        · exact i.storeImage _
        · exact i.storeSome
      · exact i.updMapop.fillFrom
      · exact i.updMapop

theorem MemInv.mapSome (i : MemInv s) {k : Gid} {q : Nat} {is : List Nat} : MemInv (Machine.mapSome k q is s) := by
  unfold Machine.mapSome
  split
  · exact i
  · dsimp only
    split
    · exact i
    · split
      · split
        · exact i.updMapop.memError
        · next e => exact (i.streamRead e).updMapop
      · exact i.storeSome.updMapop
      · exact i

theorem MemInv.movingDo (i : MemInv s) {k : Gid} {n : MoveNeed} : MemInv (Machine.movingDo k n s) := by
  unfold Machine.movingDo
  split
  · exact i.afterAcquires fun _ i => i.mapDo
  · exact i.afterAcquires fun _ i => i.mapSome
  · exact i.afterAcquires fun _ i => i.fetchDo
  · exact i.afterAcquires fun _ i => i.fetchSome

theorem MemInv.movingTo (i : MemInv s) {k : Gid} {n : MoveNeed} : MemInv (Machine.movingTo k n s) := by
  unfold Machine.movingTo
  split
  · exact i
  · exact i.foldl fun _ _ i => i.movingDo

theorem MemInv.fetchPart (i : MemInv s) {k : Gid} {m blk o n : Nat} : MemInv (Machine.fetchPart k m blk o n s) := by
  unfold Machine.fetchPart
  split
  · exact i
  · exact i.movingTo

theorem MemInv.mapPart (i : MemInv s) {k : Gid} {m o n : Nat} : MemInv (Machine.mapPart k m o n s) := by
  unfold Machine.mapPart
  split
  · exact i
  · split
    · exact i
    · exact i.movingTo

theorem MemOut.execStreamBlockArrival (i : MemInv s) {k : Gid} {m blk : Nat} : MemOut (execStreamBlockArrival k m blk s) := by
  unfold Machine.execStreamBlockArrival
  split
  · exact i.next
  · exact i.movingTo.wake.next

theorem MemOut.execMapTransferComplete (i : MemInv s) {k : Gid} {n : Nat} : MemOut (execMapTransferComplete k n s) := by
  unfold Machine.execMapTransferComplete
  split
  · exact i.next
  · dsimp only
    refine (MemInv.wake (MemInv.updGroup ?_ ?_)).next
    · split
      · exact i
      · exact i.movingTo
    · exact fun _ hg => hg

end Sys2Proof.Machine
end

