-- ==== Sys2Proof/Proofs/MemKeptSync.lean ====
section
/-!
The canonical form of every memory, fourth part: fetching and sequencing, and the waiting ops with the events that end their waits.
-/
namespace Sys2Proof.Machine

variable {s : State}

/-! ### Fetching and sequencing -/

theorem satNow_wf {g : Group} (h : groupMemWf g = true) : groupMemWf (satNow g) = true := by
  unfold satNow
  split <;> exact h

theorem MemInv.fetchTrap (i : MemInv s) {w : W128} {x : TrapI} : MemInv (Machine.fetchTrap w x s) := by
  unfold Machine.fetchTrap
  split
  · exact i.holdAt
  · exact i.takeTrap

theorem MemOut.execWordFetch (i : MemInv s) : MemOut (execWordFetch s) := by
  have j := i.setG (satNow_wf i.g_wf)
  unfold Machine.execWordFetch
  dsimp only
  split
  · exact .next (j.setG j.g_wf)
  · split
    · exact j.fetchTrap.next
    · split
      · exact j.parkAt.next
      · split
        · exact j.endLaunch.next
        · split
          · exact j.eccRead.fetchTrap.next
          · exact .next (j.eccRead.setG j.eccRead.g_wf)

theorem MemOut.runSeq (i : MemInv s) {x : Instr} {next : Group → Group} (h : ∀ g, (next g).harea = g.harea) : MemOut (runSeq x next s) := by
  unfold Machine.runSeq
  split
  · exact i.holdAt.next
  · exact .next (i.setG (groupMemWf_of_harea (g := s.g) (h s.g) i.g_wf))

@[simp] theorem goto_harea (a : W64) (g : Group) : (goto a g).harea = g.harea := rfl
@[simp] theorem gotoReg_harea (x : W64) (g : Group) : (gotoReg x g).harea = g.harea := rfl

@[simp] theorem rfNext_harea (entry : W64) (g : Group) : (rfNext entry g).harea = g.harea := by
  unfold rfNext
  dsimp only
  split <;> rfl

theorem MemOut.execLoop (i : MemInv s) {n : BitVec 2} {ofs : BitVec 12} : MemOut (execLoop n ofs s) :=
  .runSeq i fun g => by dsimp only; split <;> simp

theorem MemOut.execRfnext (i : MemInv s) : MemOut (execRfnext s) := .runSeq i fun g => by split <;> simp

theorem MemOut.execUnassignedOpcode (i : MemInv s) {opc : BitVec 10} {f : OpF} : MemOut (execUnassignedOpcode opc f s) := by
  unfold Machine.execUnassignedOpcode
  dsimp only
  split
  · exact i.holdAt.next
  · split
    · exact .finish i trivial
    · exact .finish i i

/-! ### Waits -/

theorem MemOut.resume (i : MemInv s) {k : Gid} {act : State → State} (h : ∀ s, MemInv s → MemInv (act s)) : MemOut (resume k act s) := by
  have j := i.focus (k := k)
  unfold Machine.resume
  dsimp only
  split
  · exact .next (h _ j)
  · exact j.next

theorem tryOr_keeps (i : MemInv s) {w : Wait} {attempt : State → Option State} (h : MemOpt (attempt s)) : (tryOr w attempt s).Keeps MemInv := by
  unfold tryOr
  split
  · next e => exact h _ e
  · exact i.setG i.g_wf

theorem MemInv.ending (i : MemInv s) {attempt : State → Option State} (h : MemOpt (attempt s)) : MemInv (Machine.ending attempt s) := by
  unfold Machine.ending
  split
  · next e => exact (h _ e).setG (h _ e).g_wf
  · exact i

theorem MemOpt.map {o : Option State} (h : MemOpt o) {f : State → State} (hf : ∀ s, MemInv s → MemInv (f s)) : MemOpt (o.map f) := by
  cases o with
  | none => exact .none
  | some t => exact .some (hf t (h t rfl))

theorem waitTry_keeps (i : MemInv s) {a b c d : Nat} : MemOpt (waitTry a b c d s) := by
  unfold waitTry
  split
  · exact .some (i.setG i.g_wf)
  · exact .none

theorem tagTry_keeps (i : MemInv s) {all : Bool} {m : W64} : MemOpt (tagTry all m s) := by
  unfold tagTry
  exact .ite (.some (i.setG i.g_wf)) .none

theorem tfirstTry_keeps (i : MemInv s) {d : Nat} {m : W64} : MemOpt (tfirstTry d m s) := by
  unfold tfirstTry
  split
  · exact .none
  · split
    · exact .none
    · exact .some (i.setGT (groupMemWf_of_harea (g := s.g) (setS_harea ..) i.g_wf) i.t_wf)

theorem MemOut.execWaitResume (i : MemInv s) {k : Gid} : MemOut (execWaitResume k s) :=
  .resume i fun _ i => by split; exacts [i.ending (waitTry_keeps i), i]

theorem MemOut.execTagWaitResume (i : MemInv s) {k : Gid} : MemOut (execTagWaitResume k s) :=
  .resume i fun _ i => by split; exacts [i.ending (tagTry_keeps i), i.ending (tfirstTry_keeps i), i]

/-! ### Signals -/

theorem sigaddBody_keeps (i : MemInv s) {f : OpF} : (sigaddBody f s).Keeps MemInv := by
  refine .after (needRoom_keeps.bind fun _ _ => checkReqs_keeps.bind fun _ _ => ?_)
  split
  · exact reserve_keeps.bind fun _ _ => issueLane_keeps (i.foldl fun _ _ i => i.addRed)
  · exact issueLane_keeps i

theorem performFor_keeps (i : MemInv s) {as : List Acc} : MemOpt (performFor as s) := by
  unfold performFor
  dsimp only
  split
  · exact .some (i.performList _)
  · exact .none

theorem sigwaitTry_keeps (i : MemInv s) {d : Nat} {a : Acc} {x : W64} {sc : Scope} : MemOpt (sigwaitTry d a x sc s) := by
  unfold sigwaitTry
  dsimp only
  split
  · exact .none
  · next e =>
    have j := performFor_keeps i _ e
    split
    · refine .some (MemInv.acquire (MemInv.learnNewest ?_))
      exact j.setG (groupMemWf_of_harea (setS_harea _ d _) j.g_wf)
    · exact .none

theorem sigwaitBody_keeps (i : MemInv s) {f : OpF} : (sigwaitBody f s).Keeps MemInv := by
  refine .after (checkReqs_keeps.bind fun _ _ => ?_)
  split
  · exact i
  · split
    · exact i.memError
    · exact tryOr_keeps i.eccRead (sigwaitTry_keeps i.eccRead)

theorem MemOut.execSigwaitEnd (i : MemInv s) {k : Gid} : MemOut (execSigwaitEnd k s) := by
  refine .resume i fun s i => ?_
  split
  · split
    · exact i.memError
    · exact i.eccRead.ending (sigwaitTry_keeps i.eccRead)
  · exact i

/-! ### Stage rings -/

theorem ringexpTry_keeps (i : MemInv s) {r j n : Nat} : MemOpt (ringexpTry r j n s) := by
  unfold ringexpTry
  dsimp only
  split
  · exact .none
  · exact .some (i.setGT i.g_wf i.t_wf)

theorem ringputTry_keeps (i : MemInv s) {r j : Nat} : MemOpt (ringputTry r j s) := by
  unfold ringputTry
  dsimp only
  split
  · exact .none
  · exact i.performAll.map fun _ i => i.setGT i.g_wf i.t_wf

theorem ringgetTry_keeps (i : MemInv s) {d r j q : Nat} : MemOpt (ringgetTry d r j q s) := by
  have h : ∀ (x : W64) (f : Bool) (k : List Crossing) (ops : List OpId),
      groupMemWf (if f then raise flagOVERRUN (observe s ops (learn k (setS s.g d x))) else observe s ops (learn k (setS s.g d x))) = true := by
    intro x f k ops
    split <;> exact groupMemWf_of_harea (setS_harea s.g d x) i.g_wf
  unfold ringgetTry
  dsimp only
  split
  · exact .some (i.setGT (h _ _ _ _) i.t_wf)
  · exact .none

theorem ringFree_keeps (i : MemInv s) {r j n : Nat} : MemOpt (ringFree r j n s) := by
  unfold ringFree
  exact i.performOlder.map fun _ i => i.setT i.t_wf

theorem MemOut.execRingputFree (i : MemInv s) {f : OpF} : MemOut (execRingputFree f s) := by
  refine .runS i (.after ?_)
  split
  · next e =>
    split at e
    · exact ringFree_keeps i _ e
    · cases e
  · exact i.setG i.g_wf

theorem MemOut.execRinggetEnd (i : MemInv s) {k : Gid} : MemOut (execRinggetEnd k s) :=
  .resume i fun _ i => by split; exacts [i.ending (ringgetTry_keeps i), i]

theorem MemOut.execRingexpResume (i : MemInv s) {k : Gid} : MemOut (execRingexpResume k s) :=
  .resume i fun _ i => by split; exacts [i.ending (ringexpTry_keeps i), i]

theorem MemOut.execRingputResume (i : MemInv s) {k : Gid} : MemOut (execRingputResume k s) :=
  .resume i fun _ i => by split; exacts [i.ending (ringputTry_keeps i), i]

theorem MemOpt.getD {o : Option State} (h : MemOpt o) (i : MemInv s) : MemInv (o.getD s) := by
  cases o with
  | none => exact i
  | some t => exact h t rfl

theorem MemInv.freeDo (i : MemInv s) : MemInv (Machine.freeDo s) := by
  unfold Machine.freeDo
  split
  · exact i
  · split
    · refine MemOpt.getD (ringFree_keeps ?_) i
      exact i.setG i.g_wf
    · exact i

theorem MemOut.execRingputFreeEffect (i : MemInv s) {k : Gid} : MemOut (execRingputFreeEffect k s) := .resume i fun _ i => i.freeDo

/-! ### Barriers and register quota -/

theorem barArrive_keeps (i : MemInv s) {id : Nat} : MemOpt (barArrive id s) := by
  unfold barArrive
  exact i.performAll.map fun _ i => i.setGT i.g_wf i.t_wf

theorem MemOut.execBar (i : MemInv s) {f : OpF} : MemOut (execBar f s) := by
  refine .runS i ?_
  split
  · next e => exact barArrive_keeps i _ e
  · trivial

theorem barGo_wf {id : Nat} {b : Bar} {g : Group} (h : groupMemWf g = true) : groupMemWf (barGo id b g) = true := by
  unfold barGo
  split <;> exact h

theorem MemOut.execBarDepart (i : MemInv s) {t : Tid} {id : Nat} : MemOut (execBarDepart t id s) := by
  have j := i.focusTeam (k := t).focusLaunch (k := t.l)
  unfold Machine.execBarDepart
  dsimp only
  split
  · refine .next (MemInv.updTeamGroups ?_ fun _ => barGo_wf)
    exact j.setT j.t_wf
  · exact j.next

theorem setBound_harea (b : Nat) (g : Group) : (setBound b g).harea = g.harea :=
  (foldl_harea (f := fun g n => spillIn (_ + n) g) (fun _ _ => rfl) _ _).trans (foldl_harea (f := fun g n => spillOut (b + n) g) (fun _ _ => rfl) _ _)

theorem MemInv.rebase (i : MemInv s) {t : Team} : MemInv (Machine.rebase t s) := i.updTeamGroups fun _ hg => hg

theorem MemInv.roleqMove (i : MemInv s) {d r k : Nat} : MemInv (Machine.roleqMove d r k s) := by
  unfold Machine.roleqMove
  dsimp only
  exact ((i.updGroup fun g hg => groupMemWf_of_harea (setBound_harea _ g) hg).updGroup
    fun g hg => groupMemWf_of_harea (setBound_harea _ g) hg).rebase

theorem MemOut.execRoleq (i : MemInv s) {f : OpF} : MemOut (execRoleq f s) := by
  refine .runS i (.after (tryOr_keeps i ?_))
  split
  · exact i.roleqMove.some
  · exact .none

theorem MemOut.execRoleqMove (i : MemInv s) {k : Gid} : MemOut (execRoleqMove k s) := by
  have j := i.focus (k := k)
  unfold Machine.execRoleqMove
  dsimp only
  split
  · split
    · split
      · exact j.next
      · split
        · exact .next (j.roleqMove.setG j.roleqMove.g_wf)
        · exact j.trapAt.next
    · exact j.next
  · exact j.next

theorem MemOut.execRegisterSpill (i : MemInv s) {k : Gid} {n : Nat} : MemOut (execRegisterSpill k n s) :=
  (i.updGroup fun _ hg => by split <;> exact hg).next

end Sys2Proof.Machine
end

