-- ==== Sys2Proof/Proofs/MemKeptEngine.lean ====
section
/-!
The canonical form of every memory, fifth part: bobbin commands, the refinement controller and image stores.
-/
namespace Sys2Proof.Machine

variable {s : State}

/-! ### Reads of an engine's block -/

theorem MemInv.laneRead (i : MemInv s) {accs : List Acc} : MemInv (Machine.laneRead accs s).2 := by
  have j := i.readSeen (k := s.g.id) (p := .lane) (q := s.g.seqn) (accLocs accs)
  exact j.setG j.g_wf

theorem laneThen_keeps (i : MemInv s) {accs : List Acc} {next : List Byte → State → Res State} (h : ∀ b s, MemInv s → (next b s).Keeps MemInv) :
    (laneThen accs next s).Keeps MemInv := by
  unfold laneThen
  split
  · exact i.memError
  · split
    · trivial
    · next e => exact h _ _ (performFor_keeps i.eccRead _ e).laneRead

/-! ### Bobbin commands -/

theorem bobCheck_keeps {b : List Byte} {sig : List Req} : (bobCheck s b sig).Keeps fun _ => True := by
  unfold bobCheck
  split
  · trivial
  · dsimp only
    refine checkForm_keeps.bind fun _ _ => checkReach_keeps.bind fun _ _ => ?_
    split <;> trivial

theorem MemInv.movesKeep : ∀ (as : List Loc) {s : State}, MemInv s → MemInv (Machine.movesKeep as s).2
  | [], _, i => i
  | _ :: as, _, i => i.setTick.movesKeep as

theorem MemInv.bobIssue (i : MemInv s) {c : Comp} {moves : List BitMove} {sig : List Acc} : MemInv (Machine.bobIssue c moves sig s) := by
  have j := (i.compStart (c := c) (sig := compSig c sig)).movesKeep (movesShared moves).eraseDups
  exact j.setG j.g_wf

theorem bobBody_keeps (i : MemInv s) {f : OpF} : (bobBody f s).Keeps MemInv := by
  refine .after (compRead_keeps.bind fun _ _ => checkForm_keeps.bind fun _ _ => checkReach_keeps.bind fun _ _ => laneThen_keeps i fun _ _ i => ?_)
  refine bobCheck_keeps.bind fun _ _ => ?_
  split
  · exact reserve_keeps.bind fun _ _ => i.bobIssue
  · trivial

/-! ### The bobbin path -/

/-- A way to read bytes that keeps the memories' form. -/
def KeptRead (rd : ReadFn) : Prop := ∀ as s, MemInv s → MemInv (rd as s).2

theorem keptRead_bobRead (op : OpId) : KeptRead (bobRead op) := fun _ _ i => i.readBytes

theorem MemInv.moveVal (i : MemInv s) {rd : ReadFn} (h : KeptRead rd) {m : BitMove} : MemInv (Machine.moveVal rd m s).2 := by
  unfold Machine.moveVal
  split
  · exact i
  · exact h _ _ i

theorem MemInv.moveVals {rd : ReadFn} (h : KeptRead rd) : ∀ (ms : List BitMove) {s : State}, MemInv s → MemInv (Machine.moveVals rd ms s).2
  | [], _, i => i
  | _ :: ms, _, i => (i.moveVal h).moveVals h ms

theorem MemInv.moveWrite {know : List Crossing} {op : OpId} {keep : List Loc} {va : W64} {a : Loc} (bs : List Byte) (i : MemInv s) :
    MemInv (Machine.moveWrite know op keep va a bs s) := by
  induction bs generalizing a va s with
  | nil => exact i
  | cons b bs ih =>
    unfold Machine.moveWrite
    refine ih ?_
    split
    · exact i
    · exact i.writeKnown

theorem MemInv.movesWrite {know : List Crossing} {op : OpId} {keep : List Loc} (xs : List (BitMove × Nat)) {seen : List (Loc × Nat)} (i : MemInv s) :
    MemInv (Machine.movesWrite know op keep seen xs s) := by
  induction xs generalizing seen s with
  | nil => exact i
  | cons x xs ih =>
    unfold Machine.movesWrite
    dsimp only
    split
    · refine ih ?_
      split
      · exact i.setTick.moveWrite _
      · exact i.setTick
    · exact ih (i.moveWrite _)

theorem MemInv.movesDo (i : MemInv s) {know : List Crossing} {op : OpId} {rd : ReadFn} (h : KeptRead rd) {keep : List Loc} {ms : List BitMove} :
    MemInv (Machine.movesDo know op rd keep ms s) := (i.eccRead.moveVals h ms).movesWrite _

theorem MemInv.bobFinish (i : MemInv s) {k : Gid} : MemInv (Machine.bobFinish k s) := by
  unfold Machine.bobFinish
  split
  · exact i
  · next c _ =>
    refine i.afterAcquires fun s i => ?_
    dsimp only
    have pop : ∀ s, MemInv s → MemInv (Machine.updGroup k (fun g => { g with bobs := g.bobs.tail }) s) := by
      intro s i
      refine i.updGroup ?_
      exact fun _ hg => hg
    split
    · exact (pop s i).memError
    · exact (pop _ (i.movesDo (keptRead_bobRead _)).commandEnd).wake

theorem MemInv.moveSome (i : MemInv s) {know : List Crossing} {op : OpId} {rd : ReadFn} (h : KeptRead rd) {keep : List Loc} {only : Bool}
    {x : List BitMove × BitMove × List BitMove} : MemInv (Machine.moveSome know op rd keep only x s).2 := by
  unfold Machine.moveSome
  split
  · exact i.eccRead.moveVal h
  · exact i.movesDo h

theorem MemInv.bobPart (i : MemInv s) {k : Gid} {j o n : Nat} {only : Bool} : MemInv (Machine.bobPart k j o n only s) := by
  unfold Machine.bobPart
  split
  · exact i
  · split
    · exact i
    · split
      · exact i
      · refine i.afterAcquires fun s i => ?_
        dsimp only
        split
        · refine (i.updGroup ?_).memError
          exact fun _ hg => hg
        · refine (i.moveSome (keptRead_bobRead _)).updGroup ?_
          exact fun _ hg => hg

theorem bobqTry_keeps (i : MemInv s) {d : Nat} {lim : W64} : MemOpt (bobqTry d lim s) := by
  unfold bobqTry
  dsimp only
  split
  · exact .some (i.setG (groupMemWf_of_harea (g := s.g) (setS_harea ..) i.g_wf))
  · exact .none

theorem MemOut.execBobqResume (i : MemInv s) {k : Gid} : MemOut (execBobqResume k s) :=
  .resume i fun _ i => by split; exacts [i.ending (bobqTry_keeps i), i]

/-! ### The refinement controller -/

theorem rfbeginBody_keeps (i : MemInv s) {f : OpF} : (rfbeginBody f s).Keeps MemInv := by
  refine .after (checkReqs_keeps.bind fun _ _ => laneThen_keeps i fun _ s i => ?_)
  dsimp only
  split
  · trivial
  · exact i.setG i.g_wf

theorem MemOut.execRftest (i : MemInv s) {f : OpF} : MemOut (execRftest f s) := by
  refine .runG i fun g hg => .after ?_
  dsimp only
  split
  · trivial
  · exact groupMemWf_of_harea (g := g) (setS_harea ..) hg

/-! ### Symmetric stores -/

theorem MemInv.imgIssue (i : MemInv s) {c : Comp} {writes sig : List Acc} : MemInv (Machine.imgIssue c writes sig s) :=
  i.compStart.setG i.compStart.g_wf

theorem imgstBody_keeps (i : MemInv s) {f : OpF} : (imgstBody f s).Keeps MemInv := by
  refine .after (compRead_keeps.bind fun _ _ => ?_)
  split
  · trivial
  · refine checkReqs_keeps.bind fun _ _ => ?_
    split
    · exact reserve_keeps.bind fun _ _ => i.imgIssue
    · trivial

theorem MemInv.imgWrite (i : MemInv s) {op : OpId} {a : Acc} : MemInv (Machine.imgWrite op a s) := i.writeAt

theorem MemInv.imgPop (i : MemInv s) {k : Gid} : MemInv (Machine.imgPop k s) := by
  unfold Machine.imgPop
  split
  · exact i
  · refine (i.commandEnd.updGroup ?_).wake
    exact fun _ hg => hg

theorem MemInv.imgBefore (i : MemInv s) {op : OpId} {ws : List Acc} : MemInv (Machine.imgBefore op ws s) := i.foldl fun _ _ i => i.imgPop

theorem MemInv.imgWrites (i : MemInv s) {op : OpId} {n : Nat} : MemInv (Machine.imgWrites op n s) := by
  unfold Machine.imgWrites
  split
  · exact i
  · refine (i.imgBefore.foldl fun _ _ i => i.imgWrite).updGroup ?_
    exact fun _ hg => hg

theorem MemInv.imgReach : ∀ (fuel : Nat) {op : OpId} {n : Option Nat} {s : State}, MemInv s → MemInv (Machine.imgReach fuel op n s)
  | 0, _, _, _, i => i
  | fuel + 1, op, n, s, i => by
    unfold Machine.imgReach
    split
    · exact i
    · refine (i.foldl fun _ _ i => i.imgReach fuel).afterAcquires fun s i => ?_
      split
      · exact i
      · dsimp only
        split
        · exact i.imgWrites
        · split
          · exact i.imgWrites.foldl fun _ _ i => i.imgReach fuel
          · exact MemInv.imgWrites (i.imgWrites.foldl fun _ _ i => i.imgReach fuel)

theorem MemInv.imgFinish (i : MemInv s) {k : Gid} : MemInv (Machine.imgFinish k s) := by
  unfold Machine.imgFinish
  split
  · exact i
  · dsimp only
    split
    · exact (i.imgReach _).imgPop
    · exact i.imgReach _

theorem MemInv.imgPart (i : MemInv s) {k : Gid} {byte : Option Nat} : MemInv (Machine.imgPart k byte s) := by
  unfold Machine.imgPart
  split
  · exact i
  · refine MemInv.imgReach _ (i.updGroup ?_)
    exact fun _ hg => hg

theorem symqTry_keeps (i : MemInv s) {d : Nat} {lim : W64} : MemOpt (symqTry d lim s) := by
  unfold symqTry
  dsimp only
  split
  · exact .some (i.setG (groupMemWf_of_harea (g := s.g) (setS_harea ..) i.g_wf))
  · exact .none

theorem MemOut.execSymqResume (i : MemInv s) {k : Gid} : MemOut (execSymqResume k s) :=
  .resume i fun _ i => by split; exacts [i.ending (symqTry_keeps i), i]

end Sys2Proof.Machine
end

