-- ==== Sys2Proof/Proofs/MemKeptVirt.lean ====
section
/-!
The canonical form of every memory, sixth part: fault records, the accesses of parties that are no group, the event ring, completion signals
and the host path.
-/
namespace Sys2Proof.Machine

variable {s : State}

/-! ### Firmware writes and fault records -/

/-- An update of the partition in focus that leaves its saved contexts. -/
theorem MemInv.setPSaved (i : MemInv s) {p : Part} (h : p.saved = s.p.saved) : MemInv { s with p := p } :=
  i.setP (by rw [partMemWf, h]; exact i.p_wf)

/-- The group and the partition in focus replaced. -/
theorem MemInv.setGP (i : MemInv s) {g : Group} {p : Part} (h : groupMemWf g = true) (h' : p.saved = s.p.saved) : MemInv { s with g := g, p := p } :=
  (i.setG h).setPSaved h'

theorem fwWrite_saved (n : Nat) (v : W64) (p : Part) : (fwWrite n v p).saved = p.saved := by
  unfold fwWrite
  split
  · unfold tinvDo
    split <;> rfl
  · split <;> rfl

theorem MemInv.onPartWrite (i : MemInv s) {n : Nat} {v : W64} : MemInv (onPart (fwWrite n v) s) := i.setPSaved (fwWrite_saved ..)

theorem MemInv.ownerWrite (i : MemInv s) {n : Nat} {act : State → State} (h : ∀ s, MemInv s → MemInv (act s)) :
    MemInv (Machine.ownerWrite n act s) := by
  unfold Machine.ownerWrite
  dsimp only
  split
  · exact h _ i.focusPart
  · exact i.focusPart

theorem MemInv.recordWrite (i : MemInv s) : MemInv (Machine.recordWrite s) := by
  unfold Machine.recordWrite
  split
  · exact i
  · split
    · exact i
    · split
      · exact i
      · exact i.setGP i.g_wf rfl

theorem MemInv.failNow (i : MemInv s) : MemInv (Machine.failNow s) := by
  unfold Machine.failNow
  split
  · exact i
  · split
    · exact i
    · split
      · exact i
      · exact i.takeTrap

theorem MemInv.fbResolve (i : MemInv s) {n : Nat} {act : FbEntry → State → State} {v : W64} (h : ∀ x s, MemInv s → MemInv (act x s)) :
    MemInv (Machine.fbResolve n act v s) := by
  unfold Machine.fbResolve
  split
  · split
    · exact i
    · exact h _ _ (i.setPSaved rfl)
  · exact i

theorem MemInv.fbRetry (i : MemInv s) {x : FbEntry} : MemInv (Machine.fbRetry x s) := by
  unfold Machine.fbRetry
  refine i.updGroup ?_
  exact fun _ hg => hg

theorem MemInv.fbFail (i : MemInv s) {x : FbEntry} : MemInv (Machine.fbFail x s) := by
  unfold Machine.fbFail
  dsimp only
  have j : MemInv (Machine.focus x.k (Machine.updGroup x.k (fun g => { g with park := g.park.map fun r => { r with failed := true, entry := none } }) s)) := by
    refine (i.updGroup ?_).focus
    exact fun _ hg => hg
  split
  · exact j.failNow
  · exact j

/-! ### Accesses of parties that are no group -/

theorem putRuns_wf : ∀ (rs : List (W64 × Nat × Nat)) {bs : List Byte} {m : Mem}, memWf m = true → memWf (putRuns rs bs m) = true
  | [], _, _, h => h
  | _ :: rs, _, _, h => putRuns_wf rs (memWf_putBytes _ _ h)

theorem MemInv.agentOp (i : MemInv s) {n : Nat} : MemInv (Machine.agentOp n s).2 := i.setPSaved rfl

theorem virtWrite_keeps (i : MemInv s) {va : W64} {bs : List Byte} : MemOpt (virtWrite va bs s) := by
  unfold virtWrite
  dsimp only
  split
  · exact .none
  · exact .some ((i.settled _).setHbm (putRuns_wf _ (i.settled _).hbm_wf))

theorem MemInv.virtWriteD (i : MemInv s) {va : W64} {bs : List Byte} : MemInv ((virtWrite va bs s).getD s) := (virtWrite_keeps i).getD i

theorem MemInv.runsWrite {know : List Crossing} {op : OpId} {p : Path} : ∀ (rs : List (W64 × Nat × Nat)) {bs : List Byte} {s : State}, MemInv s →
    MemInv (Machine.runsWrite know op p rs bs s)
  | [], _, _, i => i
  | _ :: rs, _, _, i => i.writeKnown.runsWrite rs

theorem MemInv.runsRmw {op : OpId} {p : Path} {ps : List WriteRec} : ∀ (rs : List (W64 × Nat × Nat)) {bs : List Byte} {s : State}, MemInv s →
    MemInv (Machine.runsRmw op p ps rs bs s)
  | [], _, _, i => i
  | _ :: rs, _, _, i => i.putAt.runsRmw rs

theorem MemInv.sysRelease (i : MemInv s) {n : Nat} {op : OpId} {know : List Crossing} {seen : List OpId} {as : List Loc} {ended : List (Loc × OpId)} :
    MemInv (Machine.sysRelease n op know seen as ended s) := i.setRels

theorem MemInv.settle (i : MemInv s) {as : List Loc} : MemInv (Machine.settle as s) := by
  unfold Machine.settle
  split
  · exact i
  · exact i

theorem MemInv.signalAt (i : MemInv s) {path : Option Path} {know : List Crossing} {va : W64} {pa : Nat} {d : W64} :
    MemInv (Machine.signalAt path know va pa d s) := by
  have j := (i.eccRead (as := locsFrom ⟨.phys, pa⟩ 8)).agentOp (n := 2)
  unfold Machine.signalAt
  dsimp only
  split
  · exact j.rmwAt.putAt.sysRelease
  · refine MemInv.sysRelease (MemInv.setHbm j.settle (memWf_putBytes _ _ ?_))
    exact j.hbm_wf

/-! ### Queues and the event ring -/

theorem MemInv.updQueue (i : MemInv s) {q : Nat} {f : Queue → Queue} : MemInv (Machine.updQueue q f s) := i.setPSaved rfl

/-- EVWR incremented. -/
theorem MemInv.evwrNext (i : MemInv s) : MemInv { s with p := { s.p with regs := { s.p.regs with evwr := s.p.regs.evwr + 1 } } } := i.setPSaved rfl

theorem MemInv.evPut (i : MemInv s) {code q : Nat} {pkt value data : W64} : MemInv (Machine.evPut code q pkt value data s) := by
  unfold Machine.evPut
  exact i.virtWriteD.evwrNext

theorem MemInv.sysEvent (i : MemInv s) {q code : Nat} {pkt value data : W64} {dest : QState} {err : W64} :
    MemInv (Machine.sysEvent q code pkt value data dest err s) := by
  unfold Machine.sysEvent
  split
  · exact i
  · dsimp only
    split
    · exact i.updQueue
    · split
      · exact i.evPut.updQueue
      · split
        · exact i.evPut.updQueue
        · exact i.updQueue

theorem MemInv.sysNote (i : MemInv s) {q code : Nat} {pkt value data : W64} : MemInv (Machine.sysNote q code pkt value data s) := by
  unfold Machine.sysNote
  split
  · exact i
  · exact i.sysEvent

theorem MemInv.packetFailed (i : MemInv s) {q : Nat} {pkt value data : W64} : MemInv (Machine.packetFailed q pkt value data s) := i.sysNote

theorem MemInv.postHeld {q : Nat} : ∀ (hs : List HeldEvent) {s : State}, MemInv s → MemInv (Machine.postHeld q hs s)
  | [], _, i => i
  | h :: hs, s, i => by
    unfold Machine.postHeld
    split
    · dsimp only
      split
      · exact i.evPut.updQueue.updQueue
      · exact i.evPut.updQueue.postHeld hs
    · exact i

theorem MemInv.postAll (i : MemInv s) : MemInv (Machine.postAll s) := i.foldl fun _ _ i => by
  split
  · exact i
  · exact i.postHeld _

theorem MemInv.packetSignal (i : MemInv s) {path : Option Path} {know : List Crossing} {q : Nat} {pkt addr d : W64} :
    MemInv (Machine.packetSignal path know q pkt addr d s) := by
  unfold Machine.packetSignal
  split
  · split
    · exact i.packetFailed
    · exact i.signalAt
  · exact i.packetFailed

theorem MemInv.csigDone (i : MemInv s) {path : Option Path} {know : List Crossing} {q : Nat} {pkt : W64} {csig : Option (W64 × W64)}
    {code : Option W64} : MemInv (Machine.csigDone path know q pkt csig code s) := by
  unfold Machine.csigDone
  split
  · exact i
  · exact i.packetSignal

/-! ### The host path -/

theorem MemInv.reply (i : MemInv s) {r : Reply} : MemInv (Machine.reply r s) := i.setDev

theorem MemInv.hostAccess (i : MemInv s) {dom : Option Nat} {w : Want} {va : W64} {n : Nat} {act : State → State}
    (h : ∀ s, MemInv s → MemInv (act s)) : MemInv (Machine.hostAccess dom w va n act s) := by
  unfold Machine.hostAccess
  split
  · exact i.reply
  · dsimp only
    split
    · split
      · exact i.focusPart.reply
      · exact h _ i.focusPart
    · exact i.focusPart.reply

theorem MemInv.hostLearn (i : MemInv s) {as : List Loc} {xs : List Seen} : MemInv (Machine.hostLearn as xs s) := i.setPSaved rfl

theorem MemInv.hostWrite (i : MemInv s) {rs : List (W64 × Nat × Nat)} {bs : List Byte} : MemInv (Machine.hostWrite rs bs s) := by
  have j := i.agentOp (n := 1)
  exact j.runsWrite _

theorem MemInv.hostAtomic (i : MemInv s) {dom : Option Nat} {va : W64} {new : W64 → W64} : MemInv (Machine.hostAtomic dom va new s) := by
  refine i.hostAccess fun s i => ?_
  dsimp only
  split
  · exact i.reply
  · exact ((i.eccRead.rmwAt.hostLearn.agentOp.runsRmw _).sysRelease).reply

theorem MemOut.execRmaWrite (i : MemInv s) {dom : Option Nat} {va : BitVec 64} {data : List (BitVec 8)} : MemOut (execRmaWrite dom va data s) :=
  .next (i.hostAccess fun _ i => (i.hostWrite).reply)

theorem MemOut.execRmaRead (i : MemInv s) {dom : Option Nat} {va : BitVec 64} {n : Nat} : MemOut (execRmaRead dom va n s) :=
  .next (i.hostAccess fun _ i => by
    dsimp only
    split
    · exact i.reply
    · exact i.eccRead.hostLearn.reply)

end Sys2Proof.Machine
end

