-- ==== Sys2Proof/Proofs/MemKeptPlace.lean ====
section
/-!
The canonical form of every memory, seventh part: placement, the end of groups and teams, and the seam.
-/
namespace Sys2Proof.Machine

variable {s : State}

/-! ### Teams and groups that join or leave -/

/-- An update of the launch in focus that leaves its instances. -/
theorem MemInv.setLInst (i : MemInv s) {l : Launch} (h : l.loft = s.l.loft) (h' : l.yard = s.l.yard) : MemInv { s with l := l } :=
  i.setL (by rw [launchMemWf, h, h']; exact i.l_wf)

theorem updDist_mem (d : Nat) (f : Dist → Dist) (l : Launch) : launchMemWf (updDist d f l) = launchMemWf l := rfl

theorem MemInv.setDist (i : MemInv s) {d : Nat} {f : Dist → Dist} : MemInv { s with l := updDist d f s.l } := i.setL i.l_wf

/-- New teams and groups at the end of the lists. -/
theorem MemInv.join (i : MemInv s) {ts : List Team} {gs : List Group} (ht : ∀ t ∈ ts, teamMemWf t = true) (hg : ∀ g ∈ gs, groupMemWf g = true) :
    MemInv { s with teams := s.teams ++ ts, groups := s.groups ++ gs } := by
  obtain ⟨hm, hgs, hts, hls, hps⟩ := i
  refine ⟨hm, ?_, ?_, hls, hps⟩
  · rw [← List.cons_append, List.all_append, hgs]
    exact List.all_eq_true.mpr hg
  · rw [← List.cons_append, List.all_append, hts]
    exact List.all_eq_true.mpr ht

/-- Teams and groups left out. -/
theorem MemInv.leave (i : MemInv s) {g : Group} {t : Team} {p : Group → Bool} {q : Team → Bool} (hg : groupMemWf g = true)
    (ht : teamMemWf t = true) : MemInv { s with g := g, groups := s.groups.filter p, t := t, teams := s.teams.filter q } := by
  obtain ⟨hm, hgs, hts, hls, hps⟩ := i
  simp only [List.all_cons, Bool.and_eq_true, List.all_eq_true] at hgs hts
  refine ⟨hm, ?_, ?_, hls, hps⟩
  · simp only [List.all_cons, Bool.and_eq_true, List.all_eq_true]
    exact ⟨hg, fun x hx => hgs.2 x (List.mem_of_mem_filter hx)⟩
  · simp only [List.all_cons, Bool.and_eq_true, List.all_eq_true]
    exact ⟨ht, fun x hx => hts.2 x (List.mem_of_mem_filter hx)⟩

/-! ### Placement -/

theorem newGroup_wf (l : Launch) (t : Tid) (block regs slot tick n : Nat) : groupMemWf (newGroup l t block regs slot tick n) = true := rfl
theorem newTeam_wf (l : Launch) (t : Tid) (core block regs : Nat) : teamMemWf (newTeam l t core block regs) = true := rfl

theorem MemInv.placeTeam (i : MemInv s) {n core : Nat} {b : Nat × Nat} : MemInv (Machine.placeTeam n core b s) := by
  refine i.join (fun t ht => ?_) fun g hg => ?_
  · rw [List.mem_singleton.mp ht]
    exact newTeam_wf ..
  · obtain ⟨_, -, rfl⟩ := List.mem_map.mp hg
    exact newGroup_wf ..

theorem placeAll_keeps {floor : Bool} : ∀ (xs : List (Nat × Nat)) {s : State}, MemInv s → MemOpt (placeAll floor xs s)
  | [], _, i => i.some
  | _ :: xs, _, i => by
    unfold placeAll
    split
    · exact .none
    · exact placeAll_keeps xs i.placeTeam

theorem placeCohort_keeps (i : MemInv s) {xs : List (Nat × Nat)} : MemOpt (placeCohort xs s) := by
  unfold placeCohort
  split
  · next e => exact .some (placeAll_keeps xs i _ e)
  · exact placeAll_keeps xs i

theorem MemInv.passedOver (i : MemInv s) {die : Nat} : MemInv (Machine.passedOver die s) := i.foldl fun s x i => by
  cases distOn s die x with
  | none => exact i
  | some e => exact i.updLaunch fun _ hl => hl

theorem MemInv.placed (i : MemInv s) {d : Nat} : MemInv (Machine.placed d s) := i.passedOver.setL i.passedOver.l_wf

theorem MemOut.execTeamPlace (i : MemInv s) {k : Lid} {d core : Nat} : MemOut (execTeamPlace k d core s) := by
  have j := i.focusPart (n := k.part).focusLaunch (k := k)
  unfold Machine.execTeamPlace
  dsimp only
  split
  · split
    · exact .next j.placeTeam.placed
    · refine .next (j.setL ?_)
      split <;> exact j.l_wf
  · exact j.next

theorem MemOut.execCohortPlacement (i : MemInv s) {k : Lid} {cores : List Nat} : MemOut (execCohortPlacement k cores s) := by
  have j := i.focusPart (n := k.part).focusLaunch (k := k)
  unfold Machine.execCohortPlacement
  dsimp only
  split
  · split
    · exact j.next
    · next u e =>
      have h := (placeCohort_keeps j u e).foldl (f := fun s c => Machine.passedOver (dieOf c) s) (l := cores) fun _ _ i => i.passedOver
      exact .next (h.setL h.l_wf)
  · exact j.next

theorem MemOut.execLoftYardReserve (i : MemInv s) {k : Lid} : MemOut (execLoftYardReserve k s) := by
  have j := i.focusPart (n := k.part).focusLaunch (k := k)
  unfold Machine.execLoftYardReserve
  dsimp only
  split
  · exact .next (j.setL j.l_wf)
  · exact j.next

theorem MemOut.execDistributorSteal (i : MemInv s) {k : Lid} {thief : Nat} : MemOut (execDistributorSteal k thief s) := by
  have j := i.focusLaunch (k := k)
  unfold Machine.execDistributorSteal
  dsimp only
  split
  · split
    · exact .next (j.setL j.l_wf)
    · split
      · exact j.next
      · exact .next (j.setL j.l_wf)
  · exact j.next

theorem MemOut.execPlacementStarvation (i : MemInv s) {k : Lid} {d : Nat} : MemOut (execPlacementStarvation k d s) := by
  have j := i.focusPart (n := k.part).focusLaunch (k := k)
  unfold Machine.execPlacementStarvation
  dsimp only
  split
  · exact .next (j.setL j.l_wf)
  · exact j.next

/-! ### The end of groups and teams -/

theorem MemInv.settleTeam (i : MemInv s) {t : Tid} : MemInv (Machine.settleTeam t s) := by
  unfold Machine.settleTeam
  exact i

theorem MemInv.endTeam (i : MemInv s) {t : Tid} : MemInv (Machine.endTeam t s) := by
  unfold Machine.endTeam
  dsimp only
  refine MemInv.settleTeam ?_
  have j : MemInv (Machine.updPart t.l.part (fun p => { p with fb := p.fb.filter fun e => e.k.t ≠ t }) (Machine.updLaunch t.l (fun l =>
      { updTask t.team (fun k => { k with ended := true }) l with ended := t.team :: l.ended, endKnow :=
        ((teamGroups s t).flatMap (groupKnow s) ++ l.endKnow).eraseDups }) s)) := by
    refine (i.updLaunch ?_).updPart ?_
    · exact fun _ hl => hl
    · exact fun _ hp => hp
  refine j.leave ?_ ?_
  · split <;> exact j.g_wf
  · split <;> exact j.t_wf

theorem MemInv.freeSlot (i : MemInv s) {k : Gid} : MemInv (Machine.freeSlot k s) := by
  unfold Machine.freeSlot
  have j : MemInv (Machine.updGroup k (fun g => { g with freed := true, exited := true, wait := .none, park := none }) s) := by
    refine i.updGroup ?_
    exact fun _ hg => hg
  dsimp only
  split
  · exact j.endTeam
  · exact j

theorem MemOut.execGroupSlotFree (i : MemInv s) {k : Gid} : MemOut (execGroupSlotFree k s) := by
  unfold Machine.execGroupSlotFree
  split
  · exact i.next
  · split
    · exact .next i.freeSlot
    · exact i.next

/-! ### The seam -/

theorem MemInv.report (i : MemInv s) {ts : List Task} {bad : List Nat} : MemInv (Machine.report ts bad s) := by
  unfold Machine.report
  dsimp only
  refine MemInv.sysNote (MemInv.packetFailed ?_)
  split
  · exact i
  · exact i.virtWriteD

theorem MemInv.applyBuf {know : List Crossing} {op : OpId} : ∀ (bs : List BufByte) {s : State}, MemInv s → MemInv (Machine.applyBuf know op bs s)
  | [], _, i => i
  | _ :: bs, _, i => i.writeKnown.applyBuf bs

theorem MemInv.applyRec (i : MemInv s) {know : List Crossing} {op : OpId} {r : RedRec} : MemInv (Machine.applyRec know op r s) := i.rmwAt.putAt

theorem MemInv.applyAll (i : MemInv s) {know : List Crossing} {op : OpId} {ts : List Task} : MemInv (Machine.applyAll know op ts s) :=
  i.foldl fun _ _ i => (i.applyBuf _).foldl fun _ _ i => i.applyRec

theorem MemInv.seamNext (i : MemInv s) {op : OpId} : MemInv { s with l := nextPhase op s.l } := i.setL i.l_wf
theorem MemInv.seamReported (i : MemInv s) : MemInv { s with l := { s.l with reported := true } } := i.setL i.l_wf

theorem MemInv.seamDo (i : MemInv s) : MemInv (Machine.seamDo s) := by
  unfold Machine.seamDo
  dsimp only
  split
  · exact i.endLaunch
  · split
    · exact i.eccRead.agentOp.applyAll.seamNext
    · exact i.eccRead.report.endLaunch.seamReported

theorem MemOut.execSeam (i : MemInv s) {k : Lid} : MemOut (execSeam k s) := by
  have j := i.focusPart (n := k.part).focusLaunch (k := k)
  unfold Machine.execSeam
  dsimp only
  split
  · exact j.seamDo.next
  · exact j.next

end Sys2Proof.Machine
end

