-- ==== Sys2Proof/Proofs/MemKeptQueue.lean ====
section
/-!
The canonical form of every memory, eighth part: the queue engines, and the copies and bobbin commands of packets.
-/
namespace Sys2Proof.Machine

variable {s : State}

/-! ### Sweep and control -/

theorem MemInv.advance (i : MemInv s) {q len : Nat} : MemInv (Machine.advance q len s) := i.updQueue

theorem MemInv.sweep {q : Nat} : ∀ (fuel : Nat) {s : State}, MemInv s → MemInv (Machine.sweep q fuel s)
  | 0, _, i => i
  | fuel + 1, s, i => by
    rw [Machine.sweep]
    split
    · exact i
    · split
      · exact i
      · split
        · exact i.updQueue
        · exact i.eccRead.advance.csigDone.sweep fuel

theorem MemInv.sweepLane (i : MemInv s) {q : Nat} : MemInv (Machine.sweepLane q s) := by
  unfold Machine.sweepLane
  split
  · exact i
  · exact i.sweep _

theorem MemInv.freeLaunches (i : MemInv s) {q : Nat} : MemInv (Machine.freeLaunches q s) := i.foldl fun _ _ i => i.updLaunch fun _ hl => hl

theorem MemInv.sweepStep (i : MemInv s) {q : Nat} : MemInv (Machine.sweepStep q s) := by
  unfold Machine.sweepStep
  dsimp only
  split
  · exact i.sweepLane
  · split
    · exact i.sweepLane.updQueue.freeLaunches
    · exact i.sweepLane

theorem askSave_wf {n : Nat} {t : Team} (h : teamMemWf t = true) : teamMemWf (askSave n t) = true := by
  unfold askSave
  split <;> exact h

theorem MemInv.holdLaunches (i : MemInv s) {q : Nat} : MemInv (Machine.holdLaunches q s) := i.foldl fun s l i => by
  refine MemInv.foldl (i.updLaunch ?_) fun _ _ i => i.updTeam fun _ => askSave_wf
  exact fun _ hl => hl

theorem MemInv.ctlEffect (i : MemInv s) {v : W64} {x : Queue} : MemInv (Machine.ctlEffect v x s) := by
  unfold Machine.ctlEffect
  dsimp only
  have j := MemInv.ite (c := v.getLsbD 16 = true) (i.updQueue (q := x.num) (f := enabling)) i
  have h := MemInv.ite (c := v.getLsbD 18 = true) (j.sweepStep (q := x.num)) j
  exact MemInv.ite h.holdLaunches h.updQueue

theorem MemInv.ctlWrite (i : MemInv s) {q : Nat} {v : W64} : MemInv (Machine.ctlWrite q v s) := by
  unfold Machine.ctlWrite
  split
  · exact i
  · split
    · exact i.sysNote
    · exact i.updQueue.ctlEffect

theorem MemInv.storeRecord (i : MemInv s) {q : Nat} : MemInv (Machine.storeRecord q s) := by
  rw [Machine.storeRecord]
  cases queue? s q with
  | none => exact i
  | some x => exact MemInv.ite i i.virtWriteD

theorem MemInv.loadRecord (i : MemInv s) {q : Nat} : MemInv (Machine.loadRecord q s) := by
  -- opaque: the kernel would unfold the read of the record to see whether a match on it reduces
  obtain ⟨r, hr⟩ : ∃ r, virtRead s (recordAt s q) 32 = r := ⟨_, rfl⟩
  obtain ⟨ls, hls⟩ : ∃ ls, virtLocs s (recordAt s q) 32 = ls := ⟨_, rfl⟩
  rw [Machine.loadRecord, hr, hls]
  split
  · exact i
  · dsimp only
    split
    · exact i
    · exact MemInv.ite i.eccRead.updQueue i.eccRead.updQueue.ctlWrite

/-! ### Starting work -/

/-- Checked work whose launch, where it is one, has its instances in canonical form. -/
def StartedWf : Started → Prop
  | .launch l => launchMemWf l = true
  | _ => True

/-- Work that passes its checks is so. -/
def StartOk (r : Except W64 Started) : Prop := ∀ x, r = .ok x → StartedWf x

theorem StartOk.error {c : W64} : StartOk (.error c) := fun _ h => nomatch h
theorem StartOk.ok {x : Started} (h : StartedWf x) : StartOk (.ok x) := by rintro _ ⟨⟩; exact h
theorem StartOk.ite {c : Prop} [Decidable c] {a b : Except W64 Started} (h : StartOk a) (h' : StartOk b) : StartOk (if c then a else b) := by
  split <;> assumption

theorem checkCopy_ok {src dst : W64} {n : Nat} : StartOk (checkCopy s src dst n) := .ite .error (.ok trivial)

theorem checkBob_ok {c : Nat} {blk : W64} : StartOk (checkBob s c blk) := by
  rw [checkBob]
  cases virtRead s blk 256 with
  | none => exact .error
  | some b => exact .ite .error (.ite (.ok trivial) .error)

/-- The dispatch checks leave a launch's instances. -/
theorem dispatchCheck_mem {l m : Launch} (h : dispatchCheck s l = .ok m) : launchMemWf m = launchMemWf l := by
  unfold dispatchCheck at h
  dsimp only at h
  split at h
  · cases h
  · split at h
    · cases h
    · split at h
      · cases h
      · split at h <;> cases h
        rfl

theorem launchOf_wf (q : Queue) (pkt : W64) (mem : Nat) (b : Option Nat) (csig : Option (W64 × W64)) (x : Loaded) (gx gy gz : Nat) (args : W64)
    (mode : Nat) (table : Option W64) : launchMemWf (launchOf s q pkt mem b csig x gx gy gz args mode table) = true := rfl

theorem checkWork_ok {q : Queue} {pkt : W64} {mem : Nat} {b : Option Nat} {csig : Option (W64 × W64)} :
    ∀ w : Work, StartOk (checkWork s q pkt mem b csig w)
  | .copy .. => checkCopy_ok
  | .bob .. => checkBob_ok
  | .launch image idx gx gy gz args mode table => by
    rw [checkWork]
    split
    · exact .error
    · split
      · exact .error
      · next e => exact .ok ((dispatchCheck_mem e).trans (launchOf_wf ..))

theorem startCheck_wf {q : Queue} {pkt : W64} {mem : Nat} {b : Option Nat} {csig : Option (W64 × W64)} {w : Work} {x : Started}
    (h : startCheck s q pkt mem b csig w = .ok x) : StartedWf x :=
  StartOk.ite StartOk.error (checkWork_ok w) x h

theorem checkMembers_wf {q : Queue} {pkt : W64} {id : Nat} : ∀ {ws : List Work} {mem : Nat} {xs : List Started},
    checkMembers s q pkt id mem ws = .ok xs → ∀ x ∈ xs, StartedWf x
  | [], _, _, h => by
    cases h
    exact fun _ hx => nomatch hx
  | w :: ws, mem, xs, h => by
    unfold checkMembers at h
    split at h
    · cases h
    · next e =>
      split at h
      · cases h
      · next e' =>
        cases h
        rintro x (_ | ⟨_, hx⟩)
        · exact startCheck_wf e
        · exact checkMembers_wf e' x hx

/-- A launch that joins the others. -/
theorem MemInv.addLaunch (i : MemInv s) {l : Launch} {p : Part} {n : Nat} (h : launchMemWf l = true) (h' : p.saved = s.p.saved) :
    MemInv { s with launches := s.launches ++ [l], p := p, tick := n } := by
  obtain ⟨hm, hgs, hts, hls, hps⟩ := i.setPSaved h'
  refine ⟨hm, hgs, hts, ?_, hps⟩
  rw [← List.cons_append, List.all_append, hls]
  simpa using h

/-- A bobbin packet that joins the others. -/
theorem MemInv.addBob (i : MemInv s) {bs : List BobPkt} : MemInv { s with p := { s.p with bobs := s.p.bobs ++ bs } } := i.setPSaved rfl

theorem MemInv.startWork (i : MemInv s) {q : Nat} {pkt : W64} {b : Option Nat} {mem : Nat} {csig : Option (W64 × W64)} {x : Started}
    (h : StartedWf x) : MemInv (Machine.startWork q pkt b mem csig x s) := by
  unfold Machine.startWork
  dsimp only
  split
  · exact i.addLaunch h rfl
  · exact i.agentOp.setPSaved rfl
  · exact (i.agentOp.movesKeep _).addBob

/-! ### Retirement -/

theorem MemInv.bundleRetire (i : MemInv s) {b : Bundle} : MemInv (Machine.bundleRetire b s) := by
  have j : MemInv { s with p := { s.p with bundles := s.p.bundles.filter fun x => x.id ≠ b.id } } := i.setPSaved rfl
  unfold Machine.bundleRetire
  dsimp only
  split
  · exact j.csigDone
  · split
    · exact j.csigDone
    · exact j.csigDone.packetFailed

theorem MemInv.memberEnd (i : MemInv s) {id mem : Nat} {know : List Crossing} {code : Option W64} {r : Bool} :
    MemInv (Machine.memberEnd id mem know code r s) := by
  unfold Machine.memberEnd
  split
  · exact i
  · exact MemInv.ite i.bundleRetire (i.setPSaved rfl)

theorem MemInv.workRetire (i : MemInv s) {path : Option Path} {know : List Crossing} {q : Nat} {pkt : W64} {b : Option Nat} {mem : Nat}
    {csig : Option (W64 × W64)} {code : Option W64} {r : Bool} : MemInv (Machine.workRetire path know q pkt b mem csig code r s) := by
  unfold Machine.workRetire
  split
  · exact i.memberEnd
  · dsimp only
    split
    · exact i.csigDone
    · split
      · exact i.csigDone
      · exact i.csigDone.packetFailed

/-- Launches left out, and the saved contexts with them. -/
theorem MemInv.leaveLaunch (i : MemInv s) {l : Launch} {p : Launch → Bool} {q : Saved → Bool} (hl : launchMemWf l = true) :
    MemInv { s with l := l, launches := s.launches.filter p, p := { s.p with saved := s.p.saved.filter q } } := by
  have hp := i.p_wf
  have hls := i.launches_wf
  have j := i.setP (p := { s.p with saved := s.p.saved.filter q }) (by
    simp only [partMemWf, List.all_eq_true] at hp ⊢
    exact fun x hx => hp x (List.mem_of_mem_filter hx))
  simp only [List.all_cons, Bool.and_eq_true, List.all_eq_true] at hls
  refine ⟨j.hbm_wf, j.groups_wf, j.teams_wf, ?_, j.parts_wf⟩
  simp only [List.all_cons, Bool.and_eq_true, List.all_eq_true]
  exact ⟨hl, fun x hx => hls.2 x (List.mem_of_mem_filter hx)⟩

theorem MemInv.launchRetire (i : MemInv s) {l : Launch} : MemInv (Machine.launchRetire l s) := by
  unfold Machine.launchRetire
  dsimp only
  refine MemInv.workRetire (i.leaveLaunch ?_)
  split <;> exact i.l_wf

theorem MemInv.retireAll (i : MemInv s) {lanes : List Nat} : MemInv (Machine.retireAll lanes s) := i.foldl fun _ _ i => i.launchRetire

theorem MemInv.draw (i : MemInv s) {n : Nat} : MemInv (Machine.draw n s) := by
  unfold Machine.draw
  dsimp only
  split
  · exact i
  · exact i.setPSaved rfl

/-! ### Passes -/

theorem MemInv.signalFailed (i : MemInv s) {q : Nat} {pkt a : W64} {len : Nat} : MemInv (Machine.signalFailed q pkt a len s) := i.advance.packetFailed

theorem MemInv.barEnd (i : MemInv s) {q : Nat} {b : Barrier} : MemInv (Machine.barEnd q b s) := i.updQueue.csigDone

theorem MemInv.evalBars {q : Nat} : ∀ (bs : List Barrier) {s : State}, MemInv s → MemInv (Machine.evalBars q bs s)
  | [], _, i => i
  | b :: bs, s, i => by
    unfold Machine.evalBars
    dsimp only
    split
    · exact i.eccRead.csigDone.updQueue.sysEvent
    · exact i.eccRead.barEnd.evalBars bs
    · exact i.eccRead.evalBars bs

theorem MemInv.passBarrier (i : MemInv s) {q : Nat} : MemInv (Machine.passBarrier q s) := by
  have j : MemInv (match queue? s q with
    | none => s
    | Option.some x => Machine.evalBars q x.bars s) := by
    split
    · exact i
    · exact i.evalBars _
  unfold Machine.passBarrier
  dsimp only
  split
  · exact j
  · split
    · split
      · exact j.signalFailed
      · exact j.advance.updQueue.evalBars _
    · exact j

theorem MemInv.passSignal (i : MemInv s) {q : Nat} : MemInv (Machine.passSignal q s) := by
  unfold Machine.passSignal
  split
  · exact i
  · split
    · split
      · exact i.signalFailed
      · exact i.advance.packetSignal
    · exact i

theorem MemInv.passWork (i : MemInv s) {n q : Nat} : MemInv (Machine.passWork n q s) := by
  unfold Machine.passWork
  split
  · exact i
  · split
    · split
      · exact i.signalFailed
      · dsimp only
        split
        · exact i.eccRead.advance.csigDone.packetFailed
        · next e => exact i.eccRead.advance.startWork (startCheck_wf e)
    · exact i

/-- A bundle's members started one after another. -/
theorem MemInv.startMembers {q : Nat} {pkt : W64} {b : Option Nat} : ∀ (xs : List (Started × Nat)) {s : State}, (∀ x ∈ xs, StartedWf x.1) → MemInv s →
    MemInv (xs.foldl (fun s st => Machine.startWork q pkt b (st.2 + 1) none st.1 s) s)
  | [], _, _, i => i
  | x :: xs, _, h, i => MemInv.startMembers xs (fun y hy => h y (List.mem_cons_of_mem x hy)) (i.startWork (h x (List.mem_cons_self ..)))

theorem MemInv.passBundle (i : MemInv s) {q : Nat} : MemInv (Machine.passBundle q s) := by
  unfold Machine.passBundle
  split
  · exact i
  · split
    · split
      · exact i.signalFailed
      · dsimp only
        split
        · exact i.eccRead.advance.csigDone.packetFailed
        · next e =>
          refine MemInv.startMembers _ (fun x hx => checkMembers_wf e _ (List.fst_mem_of_mem_zipIdx hx)) ?_
          exact i.eccRead.advance.setPSaved rfl
    · exact i

theorem MemInv.passEvent (i : MemInv s) {q : Nat} : MemInv (Machine.passEvent q s) := by
  unfold Machine.passEvent
  split
  · exact i
  · split
    · exact i.advance.evPut
    · exact i

theorem MemInv.passNop (i : MemInv s) {q : Nat} : MemInv (Machine.passNop q s) := by
  unfold Machine.passNop
  split
  · exact i
  · split
    · exact i.advance
    · exact i

theorem MemInv.parseLane (i : MemInv s) {q : Nat} : MemInv (Machine.parseLane q s) := by
  unfold Machine.parseLane
  split
  · exact i
  · split
    · dsimp only
      split
      · exact i.eccRead.updQueue
      · exact i.eccRead.sysEvent
    · exact i

theorem MemInv.pass (i : MemInv s) {lanes : List Nat} {act : Nat → State → State} (h : ∀ q s, MemInv s → MemInv (act q s)) :
    MemInv (Machine.pass lanes act s) := i.foldl fun s q => h q s

theorem MemInv.engineStep (i : MemInv s) {e : Nat} : MemInv (Machine.engineStep e s) := by
  unfold Machine.engineStep
  dsimp only
  refine MemInv.pass (MemInv.pass (MemInv.pass (MemInv.pass ?_ ?_) ?_) ?_) fun _ _ i => i.storeRecord
  · refine MemInv.pass (MemInv.pass (MemInv.pass (MemInv.pass (MemInv.pass (MemInv.draw (MemInv.draw (MemInv.draw ?_))) ?_) ?_) ?_) ?_) ?_
    · refine MemInv.pass (MemInv.pass (MemInv.retireAll (i.pass ?_)) ?_) fun _ _ i => i.parseLane
      · exact fun _ _ i => i.loadRecord
      · exact fun _ _ i => i.sweepStep
    · exact fun _ _ i => i.passBarrier
    · exact fun _ _ i => i.passSignal
    all_goals exact fun _ _ i => i.passWork
  · exact fun _ _ i => i.passBundle
  · exact fun _ _ i => i.passEvent
  · exact fun _ _ i => i.passNop

theorem MemOut.execQueueEngineStep (i : MemInv s) {p : Nat} {e : Fin 4} : MemOut (execQueueEngineStep p e s) := by
  unfold Machine.execQueueEngineStep
  dsimp only
  split
  · exact .next i.focusPart.engineStep
  · exact .next i.focusPart

/-! ### Writes of the queue records -/

theorem MemInv.onQueue (i : MemInv s) {p q : Nat} {act : State → State} (h : ∀ s, MemInv s → MemInv (act s)) : MemInv (Machine.onQueue p q act s) := by
  unfold Machine.onQueue
  dsimp only
  split
  · exact (h _ i.focusPart.loadRecord).storeRecord
  · exact i.focusPart

/-- A control write made in one case of two. -/
theorem MemInv.ctlWriteIf (i : MemInv s) {c : Prop} [Decidable c] {q : Nat} {v : W64} : MemInv (if c then Machine.ctlWrite q v s else s) :=
  MemInv.ite i.ctlWrite i

theorem MemOut.execQueueDisabled (i : MemInv s) {p q : Nat} : MemOut (execQueueDisabled p q s) := .next (i.onQueue fun _ i => by
  split
  · exact i
  · exact MemInv.ite i.updQueue i)

theorem MemOut.execQueuePreempted (i : MemInv s) {p q : Nat} : MemOut (execQueuePreempted p q s) := .next (i.onQueue fun _ i => by
  split
  · exact i
  · exact MemInv.ite i.updQueue i)

/-! ### Bundles, copies and bobbin commands that end -/

theorem MemInv.abortBundle (i : MemInv s) {b : Bundle} : MemInv (Machine.abortBundle b s) := by
  unfold Machine.abortBundle
  refine MemInv.foldl (i.setPSaved rfl) fun _ _ i => i.endLaunch.updLaunch ?_
  exact fun _ hl => hl

theorem MemOut.execBundleAbort (i : MemInv s) {p b : Nat} : MemOut (execBundleAbort p b s) := by
  have j := i.focusPart (n := p)
  unfold Machine.execBundleAbort
  dsimp only
  split
  · split
    · exact j.next
    · split
      · exact j.next
      · exact j.abortBundle.next
  · exact j.next

theorem MemInv.updHub (i : MemInv s) {n : Nat} {f : HubCopy → HubCopy} : MemInv (Machine.updHub n f s) := i.setPSaved rfl

theorem MemInv.hubRead (i : MemInv s) {n : Nat} {c : HubCopy} {x : HubPiece} : MemInv (Machine.hubRead n c x s).2 := by
  unfold Machine.hubRead
  split
  · exact i
  · exact i.eccRead.updHub

theorem MemInv.hubMove (i : MemInv s) {p n : Nat} {c : HubCopy} {x : HubPiece} : MemInv (Machine.hubMove p n c x s) := i.hubRead.writeKnown

theorem MemInv.hubEnd (i : MemInv s) {p n : Nat} {code : Option W64} : MemInv (Machine.hubEnd p n code s) := by
  unfold Machine.hubEnd
  split
  · exact i
  · refine MemInv.workRetire (i.setPSaved ?_)
    rfl

theorem MemOut.execHubCopyComplete (i : MemInv s) {p n : Nat} : MemOut (execHubCopyComplete p n s) := by
  have j := i.focusPart (n := p)
  unfold Machine.execHubCopyComplete
  dsimp only
  split
  · exact j.next
  · split
    · exact j.hubEnd.next
    · exact .next (j.foldl fun _ _ i => i.hubMove).hubEnd

theorem MemInv.hubPart (i : MemInv s) {p n j o m : Nat} {only : Bool} : MemInv (Machine.hubPart p n j o m only s) := by
  have h := i.focusPart (n := p)
  unfold Machine.hubPart
  dsimp only
  split
  · exact h
  · split
    · exact h
    · split
      · exact h
      · split
        · exact h.hubEnd
        · split
          · exact h.hubRead.updHub
          · exact h.hubMove.updHub

theorem MemInv.updPkt (i : MemInv s) {n : Nat} {f : BobPkt → BobPkt} : MemInv (Machine.updPkt n f s) := i.setPSaved rfl

theorem keptRead_pktRead (n : Nat) (c : BobPkt) : KeptRead (pktRead n c) := fun _ _ i => i.updPkt

theorem MemInv.pktEnd (i : MemInv s) {p n : Nat} {code : Option W64} : MemInv (Machine.pktEnd p n code s) := by
  unfold Machine.pktEnd
  split
  · exact i
  · refine MemInv.workRetire (i.setPSaved ?_)
    rfl

theorem MemInv.bobPacketFinish (i : MemInv s) {p n : Nat} : MemInv (Machine.bobPacketFinish p n s) := by
  have h := i.focusPart (n := p)
  unfold Machine.bobPacketFinish
  dsimp only
  split
  · exact h
  · split
    · exact h.pktEnd
    · exact (h.movesDo (keptRead_pktRead _ _)).pktEnd

theorem MemInv.bobPacketPart (i : MemInv s) {p n j o m : Nat} {only : Bool} : MemInv (Machine.bobPacketPart p n j o m only s) := by
  have h := i.focusPart (n := p)
  unfold Machine.bobPacketPart
  dsimp only
  split
  · exact h
  · split
    · exact h
    · split
      · exact h
      · split
        · exact h.pktEnd
        · exact (h.moveSome (keptRead_pktRead _ _)).updPkt

theorem MemInv.packetParity (i : MemInv s) {bob : Bool} {p n : Nat} : MemInv (Machine.packetParity bob p n s) := by
  have h := i.focusPart (n := p)
  unfold Machine.packetParity
  dsimp only
  split
  · cases pktAt (Machine.focusPart p s) p n with
    | none => exact h
    | some c => exact h.pktEnd
  · cases hubAt (Machine.focusPart p s) p n with
    | none => exact h
    | some c => exact h.hubEnd

theorem MemOut.execBobCommandComplete (i : MemInv s) {r : BobRef} : MemOut (execBobCommandComplete r s) := by
  unfold Machine.execBobCommandComplete
  split
  · exact i.bobFinish.next
  · exact i.bobPacketFinish.next

end Sys2Proof.Machine
end

