-- ==== Sys2Proof/Proofs/MemKeptSave.lean ====
section
/-!
The canonical form of every memory, ninth part: the save and the restore of a team.
-/
namespace Sys2Proof.Machine

variable {s : State}

/-! ### Saves -/

theorem dropPartial_wf {g : Group} {m : Mem} (h : memWf m = true) : memWf (dropPartial g m) = true := by
  unfold dropPartial
  generalize g.streams = xs
  induction xs generalizing m with
  | nil => exact h
  | cons e xs ih =>
    refine ih ?_
    dsimp only
    split
    · split
      · exact h
      · exact memWf_clear h ..
    · split
      · exact memWf_clear h ..
      · exact memWf_clear (memWf_clear h ..) ..

theorem dropPartials_wf : ∀ (gs : List Group) {m : Mem}, memWf m = true → memWf (gs.foldl (fun m g => dropPartial g m) m) = true
  | [], _, h => h
  | _ :: gs, _, h => dropPartials_wf gs (dropPartial_wf h)

@[simp] theorem asleep_harea (g : Group) : (asleep g).harea = g.harea := by
  unfold asleep
  dsimp only
  split <;> rfl

theorem teamGroups_wf (i : MemInv s) {t : Tid} : ∀ g ∈ teamGroups s t, groupMemWf g = true := by
  intro g h
  obtain ⟨n, -, hn⟩ := List.mem_filterMap.mp h
  have hg : g ∈ s.g :: s.groups := List.mem_of_mem_filter (List.mem_of_find?_eq_some hn)
  exact List.all_eq_true.mp i.groups_wf g hg

/-- The contexts of a partition are in canonical form where those of it so far and a new one are. -/
theorem partMemWf_add {p : Part} {x : Saved} {fb : List FbEntry} (h : partMemWf p = true) (ht : teamMemWf x.team = true)
    (hg : ∀ g ∈ x.groups, groupMemWf g = true) : partMemWf { p with saved := p.saved ++ [x], fb := fb } = true := by
  unfold partMemWf at h ⊢
  simp only [List.all_append, h, List.all_cons, List.all_nil, ht, Bool.true_and, Bool.and_true]
  exact List.all_eq_true.mpr hg

/-- A team that leaves its groups and its core for a context of its partition. -/
theorem MemInv.suspend (i : MemInv s) {p : Part} {g : Group} {q : Group → Bool} {t : Team} (hp : partMemWf p = true) (hg : groupMemWf g = true)
    (ht : teamMemWf t = true) : MemInv { s with p := p, g := g, groups := s.groups.filter q, t := t } := by
  obtain ⟨hm, hgs, hts, hls, hps⟩ := i
  refine ⟨hm, ?_, all_cons_of hts ht, hls, all_cons_of hps hp⟩
  simp only [List.all_cons, Bool.and_eq_true, List.all_eq_true] at hgs ⊢
  exact ⟨hg, fun x hx => hgs.2 x (List.mem_of_mem_filter hx)⟩

theorem MemInv.saveTeam (i : MemInv s) : MemInv (Machine.saveTeam s) := by
  -- opaque: the kernel would unfold the write of the record to see whether a match on it reduces
  obtain ⟨write, hw, keeps⟩ : ∃ f, virtWrite = f ∧ ∀ va bs s, MemInv s → MemOpt (f va bs s) := ⟨_, rfl, fun _ _ _ i => virtWrite_keeps i⟩
  unfold Machine.saveTeam
  rw [hw]
  split
  · exact i.endLaunch
  · have j := i.eccLines (read := saveLine s s.t)
    dsimp only
    split
    · split
      · exact j
      · next e =>
        have w := keeps _ _ _ j _ e
        refine w.suspend (partMemWf_add w.p_wf (teamMemWf_slots j.t_wf (dropPartials_wf _ (slots_wf j.t_wf))) fun g hg => ?_) ?_ w.t_wf
        · obtain ⟨h, hh, rfl⟩ := List.mem_map.mp hg
          exact groupMemWf_of_harea (asleep_harea h) (teamGroups_wf j h hh)
        · split <;> exact w.g_wf
    · exact j

theorem MemInv.focusAll (i : MemInv s) {t : Tid} : MemInv (Machine.focusAll t s) := i.focusPart.focusLaunch.focusTeam

theorem MemOut.execTeamSave (i : MemInv s) {t : Tid} : MemOut (execTeamSave t s) := by
  have j := i.focusAll (t := t)
  unfold Machine.execTeamSave
  dsimp only
  split
  · exact j.saveTeam.next
  · exact j.next

theorem MemOut.execPdeadlineExpiry (i : MemInv s) {t : Tid} : MemOut (execPdeadlineExpiry t s) := by
  have j := i.focusAll (t := t)
  unfold Machine.execPdeadlineExpiry
  dsimp only
  split
  · exact j.next
  · split
    · exact .next (j.setT j.t_wf)
    · exact j.next

theorem MemOut.execFirmwareSaveRequest (i : MemInv s) {t : Tid} : MemOut (execFirmwareSaveRequest t s) := by
  have j := i.focusAll (t := t)
  unfold Machine.execFirmwareSaveRequest
  dsimp only
  split
  · exact .next (j.setT j.t_wf)
  · exact j.next

/-! ### Restores -/

theorem partMemWf_filter {p : Part} {q : Saved → Bool} (h : partMemWf p = true) : partMemWf { p with saved := p.saved.filter q } = true := by
  unfold partMemWf at h ⊢
  exact List.all_eq_true.mpr fun x hx => List.all_eq_true.mp h x (List.mem_of_mem_filter hx)

theorem MemInv.wakeTeam (i : MemInv s) {x : Saved} {core block : Nat} (h : x ∈ s.p.saved) : MemInv (Machine.wakeTeam x core block s) := by
  have hx := List.all_eq_true.mp i.p_wf x h
  simp only [Bool.and_eq_true, List.all_eq_true] at hx
  refine MemInv.rebase (MemInv.join (i.setP (partMemWf_filter i.p_wf)) (fun t ht => ?_) fun g hg => ?_)
  · rw [List.mem_singleton.mp ht]
    exact hx.1
  · obtain ⟨e, he, rfl⟩ := List.mem_map.mp hg
    exact hx.2 e.1 (List.fst_mem_of_mem_zipIdx he)

@[simp] theorem addEcc_saved (p : Part) : (addEcc p).saved = p.saved := by
  unfold addEcc
  split <;> rfl

@[simp] theorem countEcc_saved (l : Home × Nat) : (countEcc l s).p.saved = s.p.saved := by
  unfold countEcc
  dsimp only
  split
  · exact addEcc_saved _
  · rfl

theorem eccLines_saved (read : Home × Nat → Bool) : (eccLines read s).p.saved = s.p.saved := by
  unfold eccLines
  generalize s.dev.corrected.filter read = ls
  induction ls generalizing s with
  | nil => rfl
  | cons l ls ih => exact ih.trans (countEcc_saved l)

@[simp] theorem eccRead_saved (as : List Loc) : (eccRead as s).p.saved = s.p.saved := by
  unfold eccRead
  split
  · rfl
  · exact eccLines_saved _

theorem MemOut.execRestore (i : MemInv s) {t : Tid} {core : Nat} : MemOut (execRestore t core s) := by
  have j := i.focusPart (n := t.l.part).focusLaunch (k := t.l)
  unfold Machine.execRestore
  dsimp only
  split
  · split
    · exact j.next
    · next x hx =>
      split
      · exact j.endLaunch.next
      · split
        · exact j.eccRead.endLaunch.next
        · split
          · split
            · exact j.eccRead.next
            · refine .next (j.eccRead.wakeTeam ?_)
              rw [eccRead_saved]
              exact List.mem_of_find?_eq_some hx
          · exact j.eccRead.next
  · exact j.next

end Sys2Proof.Machine
end

