-- ==== Sys2Proof/Proofs/MemKeptModule.lean ====
section
/-!
The canonical form of every memory, tenth part: management, the module and its conversations, and the class 7 ops.
-/
namespace Sys2Proof.Machine

variable {s : State}

/-! ### Halting and scrubbing -/

theorem MemInv.times {f : State → State} (hf : ∀ s, MemInv s → MemInv (f s)) : ∀ (n : Nat) {s : State}, MemInv s → MemInv (Machine.times f n s)
  | 0, _, i => i
  | n + 1, s, i => MemInv.times hf n (hf s i)

theorem MemInv.status (i : MemInv s) {c : Nat} : MemInv (Machine.status c s) := i.setDev
theorem MemInv.wrongState (i : MemInv s) : MemInv (Machine.wrongState s) := i.setDev

/-- The partition in focus changed but for its contexts, and a status answered. -/
theorem MemInv.statusP (i : MemInv s) {p : Part} {c : Nat} (h : p.saved = s.p.saved) : MemInv (Machine.status c { s with p := p }) := i.setPSaved h

/-- The partition in focus changed but for its contexts, and the module with it. -/
theorem MemInv.setPDev (i : MemInv s) {p : Part} {d : Module} (h : p.saved = s.p.saved) : MemInv { s with p := p, dev := d } := (i.setPSaved h).setDev

/-- Launches left out. -/
theorem MemInv.leaveL (i : MemInv s) {l : Launch} {q : Launch → Bool} (h : launchMemWf l = true) :
    MemInv { s with l := l, launches := s.launches.filter q } := by
  obtain ⟨hm, hgs, hts, hls, hps⟩ := i
  refine ⟨hm, hgs, hts, ?_, hps⟩
  simp only [List.all_cons, Bool.and_eq_true, List.all_eq_true] at hls ⊢
  exact ⟨h, fun x hx => hls.2 x (List.mem_of_mem_filter hx)⟩

theorem MemInv.haltPart (i : MemInv s) {n : Nat} : MemInv (Machine.haltPart n s) := by
  have hg : groupMemWf (if s.g.id.t.l.part = n then { s.g with live := false } else s.g) = true := by split <;> exact i.g_wf
  have ht : teamMemWf (if s.t.id.l.part = n then { s.t with live := false } else s.t) = true := by split <;> exact i.t_wf
  have hl : launchMemWf (if s.l.id.part = n then { s.l with live := false } else s.l) = true := by split <;> exact i.l_wf
  exact ((i.leave (p := fun g => g.id.t.l.part ≠ n) (q := fun t => t.id.l.part ≠ n) hg ht).leaveL (q := fun l => l.id.part ≠ n) hl).setRecs.setRels

theorem MemInv.toError (i : MemInv s) : MemInv (Machine.toError s) := i.haltPart.setP rfl

theorem MemInv.refuseWaiting (i : MemInv s) : MemInv (Machine.refuseWaiting s) := i.times (fun _ i => i.wrongState) _

theorem MemInv.startScrub (i : MemInv s) {b : Bool} : MemInv (Machine.startScrub b s) :=
  i.refuseWaiting.toError.setPSaved rfl

theorem clearGrants_wf : ∀ (gs : List Grant) {m : Mem}, memWf m = true → memWf (gs.foldl (fun m g => memClear m g.base g.size) m) = true
  | [], _, h => h
  | _ :: gs, _, h => clearGrants_wf gs (memWf_clear h ..)

theorem MemInv.scrubPart (i : MemInv s) : MemInv (Machine.scrubPart s) := by
  unfold Machine.scrubPart
  dsimp only
  exact ((i.setHbm (clearGrants_wf s.p.grants i.hbm_wf)).setP rfl).setDev

theorem MemOut.execPartitionScrubComplete (i : MemInv s) {p : Nat} : MemOut (execPartitionScrubComplete p s) := by
  have j := i.focusPart (n := p)
  unfold Machine.execPartitionScrubComplete
  dsimp only
  split
  · split
    · exact j.next
    · split
      · exact .next (j.scrubPart.setPSaved rfl)
      · exact j.scrubPart.next
  · exact j.next

theorem MemOut.execGrantScrubComplete (i : MemInv s) {p n : Nat} : MemOut (execGrantScrubComplete p n s) := by
  have j := i.focusPart (n := p)
  unfold Machine.execGrantScrubComplete
  dsimp only
  split
  · exact j.next
  · split
    · exact .next (((j.setHbm (memWf_clear j.hbm_wf ..)).setDev).setPSaved rfl)
    · exact j.next

/-! ### Conversations -/

theorem MemInv.updTranscript (i : MemInv s) {n : Nat} {f : List SpdmMsg → List SpdmMsg} : MemInv (Machine.updTranscript n f s) := i.setDev

theorem MemInv.heard (i : MemInv s) {tgt code n : Nat} : MemInv (Machine.heard tgt code n s) := by
  unfold Machine.heard
  split
  · exact i
  · exact i.updTranscript

theorem MemInv.converse (i : MemInv s) {tgt code : Nat} {body : List Byte} {act : State → State} (h : ∀ s, MemInv s → MemInv (act s)) :
    MemInv (Machine.converse tgt code body act s) := (h _ i.updTranscript).heard

/-! ### Management commands -/

theorem onState_keeps (i : MemInv s) {act : State → State} (h : ∀ s, MemInv s → MemInv (act s)) : MemOpt (onState act s) := by
  unfold onState
  split
  · exact .none
  · split
    · exact .some (h s i)
    · exact .some i.toError.status
    · exact .some i.toError.status
    · exact .some i.status

theorem onUnlocked_keeps (i : MemInv s) {n : Nat} {act : State → State} (h : ∀ s, MemInv s → MemInv (act s)) : MemOpt (onUnlocked n act s) := by
  have j := i.focusPart (n := n)
  exact .ite (.some j.status) (.ite (onState_keeps j h) (.some j.status))

theorem MemInv.createPart (i : MemInv s) {n : Nat} : MemInv (Machine.createPart n s) := by
  obtain ⟨hm, hgs, hts, hls, hps⟩ := i
  refine ⟨hm, hgs, hts, hls, ?_⟩
  have e : s.p :: (Machine.createPart n s).parts = (s.p :: s.parts) ++ [{ Part.idle with num := n, live := true }] := rfl
  show (s.p :: (Machine.createPart n s).parts).all partMemWf = true
  rw [e, List.all_append, hps]
  rfl

theorem partCreate_keeps (i : MemInv s) {n : Nat} : MemOpt (partCreate n s) := by
  have j := i.focusPart (n := n)
  exact .ite (.some j.status) (.ite (onState_keeps j fun _ i => i.status) (.some j.createPart.status))

theorem MemInv.setOwnerhash (i : MemInv s) {h : BitVec 512} : MemInv (Machine.setOwnerhash h s) := MemInv.ite i.status (MemInv.setDev i).status

theorem MemInv.partDestroy (i : MemInv s) {n : Nat} : MemInv (Machine.partDestroy n s) := by
  have j := i.focusPart (n := n)
  exact MemInv.ite j.status (MemInv.ite j.startScrub.status j.status)

theorem partAddHalf_keeps (i : MemInv s) {p h : Nat} : MemOpt (partAddHalf p h s) := onUnlocked_keeps i fun _ i => by
  split
  · exact i.status
  · exact MemInv.ite i.status (i.statusP rfl)

theorem partAddQueue_keeps (i : MemInv s) {p q : Nat} : MemOpt (partAddQueue p q s) := onUnlocked_keeps i fun _ i => by
  split
  · exact i.status
  · exact MemInv.ite i.status (i.statusP rfl)

theorem partAddKeys_keeps (i : MemInv s) {p n : Nat} : MemOpt (partAddKeys p n s) := onUnlocked_keeps i fun _ i => by
  dsimp only
  split
  · exact i.status
  · refine MemInv.status (i.setPDev ?_)
    rfl

theorem partAddMem_keeps (i : MemInv s) {p base size slot : Nat} : MemOpt (partAddMem p base size slot s) := onUnlocked_keeps i fun _ i => by
  split
  · exact i.status
  · exact MemInv.ite i.status (i.statusP rfl)

theorem partSetReg_keeps (i : MemInv s) {p n : Nat} {v : BitVec 64} : MemOpt (partSetReg p n v s) :=
  onUnlocked_keeps i fun _ i => MemInv.ite i.onPartWrite.status i.status

theorem doCommand_keeps (i : MemInv s) (c : Instr) : MemOpt (doCommand c s) := by
  unfold doCommand
  split
  · exact partCreate_keeps i
  · exact partAddHalf_keeps i
  · exact partAddQueue_keeps i
  · exact partAddKeys_keeps i
  · exact partAddMem_keeps i
  · exact partSetReg_keeps i
  · exact i.partDestroy.some
  · exact i.reply.some
  · exact i.setOwnerhash.some
  · exact i.some

theorem doReceived_keeps (i : MemInv s) (c : Received) : MemOpt (doReceived c s) := .ite (doCommand_keeps i _) i.status.some

theorem MemInv.executeAll : ∀ (cs : List Received) {s : State}, MemInv s → MemInv (Machine.executeAll cs s)
  | [], _, i => i.setDev
  | c :: cs, s, i => by
    unfold Machine.executeAll
    split
    · next e => exact (doReceived_keeps i c _ e).executeAll cs
    · exact i.setDev

theorem MemInv.drainCommands (i : MemInv s) : MemInv (Machine.drainCommands s) := MemInv.ite (i.executeAll _) i

theorem MemInv.receive (i : MemInv s) {c : Received} : MemInv (Machine.receive c s) :=
  MemInv.ite ((doReceived_keeps i c).getD i.setDev) i.setDev

theorem MemInv.command (i : MemInv s) {ses : Option Nat} {c : Instr} : MemInv (Machine.command ses c s) := MemInv.ite i i.receive

theorem MemInv.askStatus (i : MemInv s) : MemInv (Machine.askStatus s) := MemInv.ite i.receive i.reply

theorem MemInv.keySlotError (i : MemInv s) {p slot : Nat} : MemInv (Machine.keySlotError p slot s) := by
  have j := i.focusPart (n := p)
  exact MemInv.ite j.toError j

/-! ### The interface -/

theorem MemInv.tdisp (i : MemInv s) {n ses : Nat} {r : TdispReq} {act : State → State} (h : ∀ s, MemInv s → MemInv (act s)) :
    MemInv (Machine.tdisp n ses r act s) := by
  have j := i.focusPart (n := n)
  exact MemInv.ite i (MemInv.ite (j.converse fun s i => MemInv.ite (h s i) i.reply) j)

theorem MemInv.lockDone (i : MemInv s) : MemInv (Machine.lockDone s) := by
  unfold Machine.lockDone
  dsimp only
  split
  · refine MemInv.times (fun _ i => i.wrongState) _ (MemInv.reply (i.setPDev ?_))
    rfl
  · exact i

theorem MemInv.tdispLock (i : MemInv s) : MemInv (Machine.tdispLock s) := MemInv.ite (MemInv.lockDone (i.setPSaved rfl)) i.wrongState

theorem MemInv.tdispStart (i : MemInv s) {n : BitVec 256} : MemInv (Machine.tdispStart n s) := by
  unfold Machine.tdispStart
  split
  · exact i.wrongState
  · split
    · refine MemInv.reply (i.setPSaved ?_)
      rfl
    · exact i.reply

theorem MemInv.tdispStop (i : MemInv s) : MemInv (Machine.tdispStop s) :=
  MemInv.ite i.wrongState (MemInv.ite i.wrongState i.startScrub.reply)

theorem MemInv.tdispGetState (i : MemInv s) : MemInv (Machine.tdispGetState s) := i.reply

theorem MemInv.tdispReport (i : MemInv s) : MemInv (Machine.tdispReport s) := MemInv.ite i.wrongState i.reply

theorem MemOut.execLockCompletion (i : MemInv s) {p : Nat} : MemOut (execLockCompletion p s) := by
  have j := i.focusPart (n := p)
  unfold Machine.execLockCompletion
  dsimp only
  split
  · exact .next j.lockDone.heard.drainCommands
  · exact j.next

theorem MemInv.tdispCarried (i : MemInv s) {p ses : Nat} {r : TdispReq} : MemInv (Machine.tdispCarried p ses r s) := by
  unfold Machine.tdispCarried
  split
  · exact (i.tdisp fun _ i => i.tdispLock).drainCommands
  · exact i.tdisp fun _ i => i.tdispStart
  · exact i.tdisp fun _ i => i.tdispStop
  · exact i.tdisp fun _ i => i.tdispGetState
  · exact i.tdisp fun _ i => i.tdispReport

/-! ### The module -/

theorem MemInv.errorAll (i : MemInv s) : MemInv (Machine.errorAll s) := i.foldl fun _ n i => by
  have j := i.focusPart (n := n)
  exact MemInv.ite j.toError j

theorem MemInv.moduleFault (i : MemInv s) {c : Nat} : MemInv (Machine.moduleFault c s) := (MemInv.setDev i).errorAll

theorem MemOut.execLinkRetrain (i : MemInv s) {l : Fin 8} {ok : Bool} : MemOut (execLinkRetrain l ok s) := by
  unfold Machine.execLinkRetrain
  split
  · exact i.next
  · split
    · exact .next i.setDev
    · exact i.moduleFault.next

theorem MemInv.stage (i : MemInv s) {n : Nat} {r : StageResult} {act : State → State} (h : ∀ s, MemInv s → MemInv (act s)) :
    MemInv (Machine.stage n r act s) := MemInv.ite (MemInv.ite (h _ i.setDev) i.setDev) i

theorem MemOut.execModuleReset (i : MemInv s) {r : StageResult} : MemOut (execModuleReset r s) := .next ⟨i.hbm_wf, rfl, rfl, rfl, rfl⟩

theorem MemOut.execMemoryInitialisation (i : MemInv s) {r : StageResult} : MemOut (execMemoryInitialisation r s) :=
  .next (i.stage fun _ i => ⟨rfl, i.groups_wf, i.teams_wf, i.launches_wf, i.parts_wf⟩)

/-! ### The SPDM responder -/

theorem MemInv.request (i : MemInv s) {tgt code : Nat} {body : List Byte} {act : State → State} (h : ∀ s, MemInv s → MemInv (act s)) :
    MemInv (Machine.request tgt code body act s) := MemInv.ite (i.converse h) i

theorem MemInv.standardReply (i : MemInv s) {code : Nat} : MemInv (Machine.standardReply code s) := i.setTick.reply

theorem MemInv.negotiate (i : MemInv s) {tgt : Nat} {o : AlgOffer} : MemInv (Machine.negotiate tgt o s) :=
  MemInv.ite (MemInv.setDev i).reply (MemInv.setDev i).reply

theorem MemInv.updSessions (i : MemInv s) {tgt : Nat} {f : List Session → List Session} : MemInv (Machine.updSessions tgt f s) :=
  MemInv.ite i.setDev (i.updPart fun _ hp => hp)

theorem MemInv.openSession (i : MemInv s) {tgt : Nat} {req : Option (BitVec 512)} {ek : List (BitVec 8)} :
    MemInv (Machine.openSession tgt req ek s) :=
  MemInv.ite i.reply (MemInv.ite i.reply (MemInv.ite i.reply ((MemInv.setDev i.setTick).updSessions).reply))

theorem MemInv.inSession (i : MemInv s) {tgt ses : Nat} {ok : Session → Bool} {act : State → State} (h : ∀ s, MemInv s → MemInv (act s)) :
    MemInv (Machine.inSession tgt ses ok act s) := MemInv.ite (h s i) i.reply

theorem MemInv.exportKeys (i : MemInv s) {tgt ses : Nat} : MemInv (Machine.exportKeys tgt ses s) := MemInv.ite i (i.updPart fun _ hp => hp)

theorem MemOut.execVendorDefinedRequest (i : MemInv s) {tgt ses : Nat} {r : TdispReq} : MemOut (execVendorDefinedRequest tgt ses r s) := by
  unfold Machine.execVendorDefinedRequest
  split
  · exact .next (i.request fun _ i => i.inSession fun _ i => i.standardReply)
  · exact i.tdispCarried.next

theorem MemOut.execSend (i : MemInv s) {job : Nat} {rud : Bool} {ses : Option Nat} {msg : List (BitVec 8)} : MemOut (execSend job rud ses msg s) := by
  unfold Machine.execSend
  split
  · exact .next i.setDev
  · split
    · exact .next (MemInv.ite i.askStatus (MemInv.ite i.receive i))
    · exact i.next

/-! ### Class 7 ops and register writes -/

theorem needHandler_keeps {r : Res State} (h : r.Keeps MemInv) : (needHandler s r).Keeps MemInv := by
  unfold needHandler
  split
  · exact h
  · trivial

theorem srdBody_keeps (i : MemInv s) {f : OpF} : (srdBody f s).Keeps MemInv := by
  refine needHandler_keeps ?_
  dsimp only
  split
  · exact i.setG (groupMemWf_of_harea (setS_harea s.g _ _) i.g_wf)
  · trivial

theorem MemInv.launchEnd (i : MemInv s) {k : Lid} {v : W64} : MemInv (Machine.launchEnd k v s) := MemInv.ite i.endLaunch i

theorem swrBody_keeps (i : MemInv s) {f : OpF} : (swrBody f s).Keeps MemInv := by
  refine needHandler_keeps ?_
  dsimp only
  split
  · exact i.launchEnd
  · trivial

theorem replayqBody_keeps (i : MemInv s) {f : OpF} : (replayqBody f s).Keeps MemInv := by
  refine needHandler_keeps ?_
  dsimp only
  split
  · exact i.setG (groupMemWf_of_harea (setS_harea s.g _ _) i.g_wf)
  · trivial

theorem returnFromHandler_harea (g : Group) : (returnFromHandler g).harea = g.harea := by
  unfold returnFromHandler
  dsimp only
  rw [foldl_harea fun _ _ => setV_harea ..]
  simp only [setP_harea, setS_harea]
  exact foldl_harea (fun _ _ => setS_harea ..) _ g

theorem returned_wf {g : Group} {n : Nat} (h : groupMemWf g = true) : groupMemWf { returnFromHandler g with wait := .none, since := n } = true := by
  rw [groupMemWf, returnFromHandler_harea]
  exact h

theorem MemInv.performHandler (i : MemInv s) : MemInv (Machine.performHandler s) := i.foldl fun _ _ i => i.performTo

theorem rteBody_keeps (i : MemInv s) : (rteBody s).Keeps MemInv := by
  have j := i.performHandler
  refine needHandler_keeps ?_
  dsimp only
  split
  · trivial
  · split
    · trivial
    · split
      · exact j.memError
      · exact j.eccRead.setG (returned_wf j.eccRead.g_wf)

theorem MemOut.execLaunchend (i : MemInv s) {k : Gid} {v : BitVec 64} : MemOut (execLaunchend k v s) := by
  have j := i.focus (k := k)
  unfold Machine.execLaunchend
  dsimp only
  split
  · exact j.launchEnd.next
  · exact j.next

theorem tinvDo_saved (v : W64) (p : Part) : (tinvDo v p).saved = p.saved := by
  unfold tinvDo
  split <;> rfl

theorem MemInv.onTinv (i : MemInv s) {v : W64} : MemInv (onPart (tinvDo v) s) := i.setPSaved (tinvDo_saved ..)

theorem MemOut.execFaultRecordWrite (i : MemInv s) {k : Gid} : MemOut (execFaultRecordWrite k s) := by
  have j := i.focus (k := k)
  unfold Machine.execFaultRecordWrite
  dsimp only
  split
  · exact j.recordWrite.next
  · exact j.next

/-! ### Vector registers of a handler's frame -/

theorem vrdxBody_keeps (i : MemInv s) {f : OpF} : (vrdxBody f s).Keeps MemInv := by
  refine .after ?_
  split
  · exact i.memError
  · exact i.eccRead.setG (groupMemWf_of_harea (setV_harea _ _ _) i.eccRead.g_wf)

theorem setRegX_wf {n : Nat} {v : VReg} {g : Group} (h : groupMemWf g = true) : groupMemWf (setRegX g n v) = true := by
  unfold setRegX
  split
  · simp only [groupMemWf] at h ⊢
    exact memWf_putBytes _ _ h
  · exact groupMemWf_of_harea (setV_harea ..) h

end Sys2Proof.Machine
end

