-- ==== Sys2Proof/Proofs/StepKeepsMemory.lean ====
section
/-!
The canonical form of every memory, last part: every instruction and event, every turn and the step.
-/
namespace Sys2Proof.Machine

variable {s : State}

/-! ### Ops that change their group alone -/

/-- An op that writes one scalar register. -/
theorem MemOut.writesS (i : MemInv s) {o : Op} {f : OpF} {d : Nat} {x : Group → W64} : MemOut (Machine.runP o f (fun g => setS g d (x g)) s) :=
  .runP i fun _ => setS_harea ..

/-- An op that does nothing. -/
theorem MemOut.retires (i : MemInv s) : MemOut (Machine.finish s (.ok s)) := .finish i i

/-- An op that updates its group where its fields are legal. -/
theorem MemOut.writesIf (i : MemInv s) {o : Op} {f : OpF} {c : Group → Bool} {b : Group → Group} (h : ∀ g, (b g).harea = g.harea) :
    MemOut (Machine.runG o f (fun g => (Res.require (c g)).bind fun _ => .ok (b g)) s) :=
  .runG i fun g w => .after (groupMemWf_of_harea (h g) w)


theorem MemOut.execSdiv (i : MemInv s) {f : OpF} : MemOut (execSdiv f s) := .runP i fun _ => by dsimp only; split <;> simp
theorem MemOut.execSrem (i : MemInv s) {f : OpF} : MemOut (execSrem f s) := .runP i fun _ => by dsimp only; split <;> simp
theorem MemOut.execVinsr (i : MemInv s) {f : OpF} : MemOut (execVinsr f s) := .runP i fun _ => by dsimp only; split <;> simp
theorem MemOut.execRfend (i : MemInv s) {f : OpF} : MemOut (execRfend f s) := .runP i fun _ => by split <;> rfl

theorem MemOut.execScmp (i : MemInv s) {f : OpF} : MemOut (execScmp f s) :=
  .runWith i (onG_keeps i (groupMemWf_of_harea (setPair_harea ..) i.g_wf)) (onG_keeps i (groupMemWf_of_harea (setPair_harea ..) i.g_wf))

theorem MemOut.execSfcmp (i : MemInv s) {f : OpF} : MemOut (execSfcmp f s) := by
  refine .runWith i (onG_keeps i (groupMemWf_of_harea (setPair_harea ..) i.g_wf)) (onG_keeps i (.after ?_))
  exact groupMemWf_of_harea (g := s.g) (by simp) i.g_wf

theorem MemOut.execVballot (i : MemInv s) {f : OpF} : MemOut (execVballot f s) := by
  refine .runWith i ?_ (onG_keeps i (groupMemWf_of_harea (setS_harea ..) i.g_wf))
  unfold ballotOff
  split
  · trivial
  · exact i.setG (groupMemWf_of_harea (setS_harea s.g _ _) i.g_wf)

theorem amacBody_keeps (i : MemInv s) {f : OpF} : (amacBody f s).Keeps MemInv :=
  mapChecks_keeps.bind fun _ _ =>
    i.setG (groupMemWf_of_harea ((afterMaps_harea _ _).trans (overLanes_harea (fun _ _ _ => putAcc_harea ..) s.g)) i.g_wf)

theorem MemOut.execAout (i : MemInv s) {f : OpF} : MemOut (execAout f s) := by
  refine .runG i fun g h => .after ?_
  dsimp only
  split
  · exact groupMemWf_of_harea ((overLanes_harea (fun _ _ _ => setA_harea ..) _).trans (setLanes_harea _ _ _ _ g)) h
  · exact h

theorem MemOut.execQscan (i : MemInv s) {f : OpF} : MemOut (execQscan f s) := by
  refine .runG i fun g h => .after ?_
  dsimp only
  split
  · exact groupMemWf_of_harea (setV_harea g _ _) h
  · exact groupMemWf_of_harea (setV_harea g _ _) h

theorem MemOut.execQpack (i : MemInv s) {f : OpF} : MemOut (execQpack f s) := by
  refine .runG i fun g h => .after ?_
  dsimp only
  refine groupMemWf_of_harea (g := g) ?_ h
  rw [raise_harea, setV_harea]
  exact foldl_harea (fun g _ => foldl_harea (fun g _ => by split <;> simp) _ g) _ g


/-! Sequencing -/

theorem MemOut.execNext (i : MemInv s) : MemOut (execNext s) := .runSeq i fun _ => rfl
theorem MemOut.execJump (i : MemInv s) {ofs : BitVec 12} : MemOut (execJump ofs s) := .runSeq i fun _ => rfl
theorem MemOut.execJumpc (i : MemInv s) {neg : Bool} {k : BitVec 3} {ofs : BitVec 12} : MemOut (execJumpc neg k ofs s) := .runSeq i fun _ => rfl
theorem MemOut.execCall (i : MemInv s) {ofs : BitVec 12} : MemOut (execCall ofs s) := .runSeq i fun _ => by simp
theorem MemOut.execRet (i : MemInv s) : MemOut (execRet s) := .runSeq i fun _ => rfl
theorem MemOut.execJumpx (i : MemInv s) {r : BitVec 6} : MemOut (execJumpx r s) := .runSeq i fun _ => rfl
theorem MemOut.execExit (i : MemInv s) : MemOut (execExit s) := .runSeq i fun _ => by rfl
theorem MemOut.execCallx (i : MemInv s) {r : BitVec 6} : MemOut (execCallx r s) := .runSeq i fun _ => by simp

/-! Scalar ops -/

theorem MemOut.execSli (i : MemInv s) {f : OpF} : MemOut (execSli f s) := .writesS i
theorem MemOut.execSlih (i : MemInv s) {f : OpF} : MemOut (execSlih f s) := .writesS i
theorem MemOut.execSmov (i : MemInv s) {f : OpF} : MemOut (execSmov f s) := .writesS i
theorem MemOut.execSadd (i : MemInv s) {f : OpF} : MemOut (execSadd f s) := .runP i fun _ => by simp
theorem MemOut.execSsub (i : MemInv s) {f : OpF} : MemOut (execSsub f s) := .runP i fun _ => by simp
theorem MemOut.execSmul (i : MemInv s) {f : OpF} : MemOut (execSmul f s) := .runP i fun _ => by simp
theorem MemOut.execSmulhi (i : MemInv s) {f : OpF} : MemOut (execSmulhi f s) := .writesS i
theorem MemOut.execSmin (i : MemInv s) {f : OpF} : MemOut (execSmin f s) := .writesS i
theorem MemOut.execSmax (i : MemInv s) {f : OpF} : MemOut (execSmax f s) := .writesS i
theorem MemOut.execSand (i : MemInv s) {f : OpF} : MemOut (execSand f s) := .writesS i
theorem MemOut.execSor (i : MemInv s) {f : OpF} : MemOut (execSor f s) := .writesS i
theorem MemOut.execSxor (i : MemInv s) {f : OpF} : MemOut (execSxor f s) := .writesS i
theorem MemOut.execSshl (i : MemInv s) {f : OpF} : MemOut (execSshl f s) := .writesS i
theorem MemOut.execSshr (i : MemInv s) {f : OpF} : MemOut (execSshr f s) := .writesS i
theorem MemOut.execSrot (i : MemInv s) {f : OpF} : MemOut (execSrot f s) := .writesS i
theorem MemOut.execSsel (i : MemInv s) {f : OpF} : MemOut (execSsel f s) := .writesS i
theorem MemOut.execSbfx (i : MemInv s) {f : OpF} : MemOut (execSbfx f s) := .writesIf i fun _ => by simp
theorem MemOut.execSbfi (i : MemInv s) {f : OpF} : MemOut (execSbfi f s) := .writesIf i fun _ => by simp
theorem MemOut.execSpopc (i : MemInv s) {f : OpF} : MemOut (execSpopc f s) := .writesS i
theorem MemOut.execSclz (i : MemInv s) {f : OpF} : MemOut (execSclz f s) := .writesS i
theorem MemOut.execSctz (i : MemInv s) {f : OpF} : MemOut (execSctz f s) := .writesS i
theorem MemOut.execSadda (i : MemInv s) {f : OpF} : MemOut (execSadda f s) := .writesIf i fun _ => by simp
theorem MemOut.execSfadd (i : MemInv s) {f : OpF} : MemOut (execSfadd f s) := .runP i fun _ => by simp
theorem MemOut.execSfmul (i : MemInv s) {f : OpF} : MemOut (execSfmul f s) := .runP i fun _ => by simp
theorem MemOut.execSfma (i : MemInv s) {f : OpF} : MemOut (execSfma f s) := .runP i fun _ => by simp
theorem MemOut.execScvt (i : MemInv s) {f : OpF} : MemOut (execScvt f s) := .writesIf i fun _ => by simp
theorem MemOut.execKand (i : MemInv s) {f : OpF} : MemOut (execKand f s) := .runP i fun _ => by simp
theorem MemOut.execKor (i : MemInv s) {f : OpF} : MemOut (execKor f s) := .runP i fun _ => by simp
theorem MemOut.execKxor (i : MemInv s) {f : OpF} : MemOut (execKxor f s) := .runP i fun _ => by simp
theorem MemOut.execNset (i : MemInv s) {f : OpF} : MemOut (execNset f s) := .runP i fun _ => by simp
theorem MemOut.execNget (i : MemInv s) {f : OpF} : MemOut (execNget f s) := .writesS i
theorem MemOut.execClkr (i : MemInv s) {f : OpF} : MemOut (execClkr f s) := .writesS i
theorem MemOut.execIdr (i : MemInv s) {f : OpF} : MemOut (execIdr f s) := .writesIf i fun _ => by simp
theorem MemOut.execTrap (i : MemInv s) {f : OpF} : MemOut (execTrap f s) := .runG i fun _ _ => .after trivial
theorem MemOut.execBkpt (i : MemInv s) {f : OpF} : MemOut (execBkpt f s) := .runG i fun _ _ => trivial

/-! Vector ops -/

theorem MemOut.execVmov (i : MemInv s) {f : OpF} : MemOut (execVmov f s) := .vecMap i
theorem MemOut.execVli (i : MemInv s) {f : OpF} : MemOut (execVli f s) := .runVec i fun _ _ => ⟨_, rfl, rfl⟩
theorem MemOut.execVlane (i : MemInv s) {f : OpF} : MemOut (execVlane f s) := .runVec i fun _ _ => ⟨_, rfl, rfl⟩
theorem MemOut.execVadd (i : MemInv s) {f : OpF} : MemOut (execVadd f s) := .vecMap i
theorem MemOut.execVsub (i : MemInv s) {f : OpF} : MemOut (execVsub f s) := .vecMap i
theorem MemOut.execVmul (i : MemInv s) {f : OpF} : MemOut (execVmul f s) := .vecMap i
theorem MemOut.execVmulhi (i : MemInv s) {f : OpF} : MemOut (execVmulhi f s) := .vecMap i
theorem MemOut.execVmad (i : MemInv s) {f : OpF} : MemOut (execVmad f s) := .vecMap i
theorem MemOut.execVmin (i : MemInv s) {f : OpF} : MemOut (execVmin f s) := .vecMap i
theorem MemOut.execVmax (i : MemInv s) {f : OpF} : MemOut (execVmax f s) := .vecMap i
theorem MemOut.execVabsdiff (i : MemInv s) {f : OpF} : MemOut (execVabsdiff f s) := .vecMap i
theorem MemOut.execVand (i : MemInv s) {f : OpF} : MemOut (execVand f s) := .vecMap i
theorem MemOut.execVor (i : MemInv s) {f : OpF} : MemOut (execVor f s) := .vecMap i
theorem MemOut.execVxor (i : MemInv s) {f : OpF} : MemOut (execVxor f s) := .vecMap i
theorem MemOut.execVshl (i : MemInv s) {f : OpF} : MemOut (execVshl f s) := .vecMap i
theorem MemOut.execVshr (i : MemInv s) {f : OpF} : MemOut (execVshr f s) := .vecMap i
theorem MemOut.execVrot (i : MemInv s) {f : OpF} : MemOut (execVrot f s) := .vecMap i
theorem MemOut.execVbfx (i : MemInv s) {f : OpF} : MemOut (execVbfx f s) := .runVecIf i fun _ _ => ⟨_, rfl, rfl⟩
theorem MemOut.execVbfi (i : MemInv s) {f : OpF} : MemOut (execVbfi f s) := .runVecIf i fun _ _ => ⟨_, rfl, rfl⟩
theorem MemOut.execVpopc (i : MemInv s) {f : OpF} : MemOut (execVpopc f s) := .vecMap i
theorem MemOut.execVclz (i : MemInv s) {f : OpF} : MemOut (execVclz f s) := .vecMap i
theorem MemOut.execVcmp (i : MemInv s) {f : OpF} : MemOut (execVcmp f s) := .vecCmp i
theorem MemOut.execVsel (i : MemInv s) {f : OpF} : MemOut (execVsel f s) := .runVec i fun _ _ => ⟨_, rfl, rfl⟩
theorem MemOut.execVfadd (i : MemInv s) {f : OpF} : MemOut (execVfadd f s) := .vecMap i
theorem MemOut.execVfsub (i : MemInv s) {f : OpF} : MemOut (execVfsub f s) := .vecMap i
theorem MemOut.execVfmul (i : MemInv s) {f : OpF} : MemOut (execVfmul f s) := .vecMap i
theorem MemOut.execVfma (i : MemInv s) {f : OpF} : MemOut (execVfma f s) := .vecMap i
theorem MemOut.execVfmin (i : MemInv s) {f : OpF} : MemOut (execVfmin f s) := .vecMap i
theorem MemOut.execVfmax (i : MemInv s) {f : OpF} : MemOut (execVfmax f s) := .vecMap i
theorem MemOut.execVfcmp (i : MemInv s) {f : OpF} : MemOut (execVfcmp f s) := .vecCmp i
theorem MemOut.execVfrnd (i : MemInv s) {f : OpF} : MemOut (execVfrnd f s) := .vecMap i
theorem MemOut.execVfclass (i : MemInv s) {f : OpF} : MemOut (execVfclass f s) := .vecMap i
theorem MemOut.execVfscale (i : MemInv s) {f : OpF} : MemOut (execVfscale f s) := .vecMap i
theorem MemOut.execVcvt (i : MemInv s) {f : OpF} : MemOut (execVcvt f s) := .runVecIf i fun _ _ => ⟨_, rfl, rfl⟩
theorem MemOut.execVpack (i : MemInv s) {f : OpF} : MemOut (execVpack f s) := .runVecIf i fun _ _ => ⟨_, rfl, by simp⟩
theorem MemOut.execVunpack (i : MemInv s) {f : OpF} : MemOut (execVunpack f s) := .runVecIf i fun _ _ => ⟨_, rfl, rfl⟩
theorem MemOut.execVexp2 (i : MemInv s) {f : OpF} : MemOut (execVexp2 f s) := .vecMap i
theorem MemOut.execVlog2 (i : MemInv s) {f : OpF} : MemOut (execVlog2 f s) := .vecMap i
theorem MemOut.execVrcp (i : MemInv s) {f : OpF} : MemOut (execVrcp f s) := .vecMap i
theorem MemOut.execVrsq (i : MemInv s) {f : OpF} : MemOut (execVrsq f s) := .vecMap i
theorem MemOut.execVsqrt (i : MemInv s) {f : OpF} : MemOut (execVsqrt f s) := .vecMap i
theorem MemOut.execVdiv (i : MemInv s) {f : OpF} : MemOut (execVdiv f s) := .vecMap i
theorem MemOut.execVtanh (i : MemInv s) {f : OpF} : MemOut (execVtanh f s) := .vecMap i
theorem MemOut.execVsin (i : MemInv s) {f : OpF} : MemOut (execVsin f s) := .vecMap i
theorem MemOut.execVcos (i : MemInv s) {f : OpF} : MemOut (execVcos f s) := .vecMap i
theorem MemOut.execVlred (i : MemInv s) {f : OpF} : MemOut (execVlred f s) := .runVecIf i fun _ _ => ⟨_, rfl, rfl⟩
theorem MemOut.execVlscan (i : MemInv s) {f : OpF} : MemOut (execVlscan f s) := .runVecIf i fun _ _ => ⟨_, rfl, rfl⟩
theorem MemOut.execVpermx (i : MemInv s) {f : OpF} : MemOut (execVpermx f s) := .runVec i fun _ _ => ⟨_, rfl, rfl⟩
theorem MemOut.execVextr (i : MemInv s) {f : OpF} : MemOut (execVextr f s) := .writesS i
theorem MemOut.execVrdx (i : MemInv s) {f : OpF} : MemOut (execVrdx f s) := .runS i (vrdxBody_keeps i)
theorem MemOut.execVwrx (i : MemInv s) {f : OpF} : MemOut (execVwrx f s) := .runG i fun _ h => .after (setRegX_wf h)
theorem MemOut.execPand (i : MemInv s) {f : OpF} : MemOut (execPand f s) := .runP i fun _ => by simp
theorem MemOut.execPor (i : MemInv s) {f : OpF} : MemOut (execPor f s) := .runP i fun _ => by simp
theorem MemOut.execPxor (i : MemInv s) {f : OpF} : MemOut (execPxor f s) := .runP i fun _ => by simp

/-! Maps -/

theorem MemOut.execMapld (i : MemInv s) {f : OpF} : MemOut (execMapld f s) := .runWith i (offMap_keeps i) (mapldBody_keeps i)
theorem MemOut.execMapst (i : MemInv s) {f : OpF} : MemOut (execMapst f s) := .runWith i (offMap_keeps i) (mapstBody_keeps i)
theorem MemOut.execMapgen (i : MemInv s) {f : OpF} : MemOut (execMapgen f s) := .runWith i (offMap_keeps i) (mapgenBody_keeps i)
theorem MemOut.execMapset (i : MemInv s) {f : OpF} : MemOut (execMapset f s) := .runS i (.after (mapset_keeps i))
theorem MemOut.execMapbind (i : MemInv s) {f : OpF} : MemOut (execMapbind f s) := .runS i (.after (mapset_keeps i))
theorem MemOut.execMapstr (i : MemInv s) {f : OpF} : MemOut (execMapstr f s) := .runS i (mapstrBody_keeps i)
theorem MemOut.execMapadv (i : MemInv s) {f : OpF} : MemOut (execMapadv f s) := .writesIf i fun _ => by simp
theorem MemOut.execMaprel (i : MemInv s) {f : OpF} : MemOut (execMaprel f s) := .runP i fun _ => mapRelease_harea ..

/-! Accumulators and blocks -/

theorem MemOut.execAclr (i : MemInv s) {f : OpF} : MemOut (execAclr f s) := .runP i fun _ => overLanes_harea (fun _ _ _ => setA_harea ..) _
theorem MemOut.execAmac (i : MemInv s) {f : OpF} : MemOut (execAmac f s) := .runS i (amacBody_keeps i)
theorem MemOut.execAadd (i : MemInv s) {f : OpF} : MemOut (execAadd f s) := .runP i fun _ => overLanes_harea (fun _ _ _ => putAcc_harea ..) _
theorem MemOut.execAin (i : MemInv s) {f : OpF} : MemOut (execAin f s) :=
  .runVec i fun _ _ => ⟨_, rfl, overLanes_harea (fun _ _ _ => putAcc_harea ..) _⟩
theorem MemOut.execAscale (i : MemInv s) {f : OpF} : MemOut (execAscale f s) :=
  .runVec i fun _ _ => ⟨_, rfl, overLanes_harea (fun _ _ _ => putAcc_harea ..) _⟩
theorem MemOut.execAsave (i : MemInv s) {f : OpF} : MemOut (execAsave f s) := .runS i (issueAcc_keeps i)
theorem MemOut.execAload (i : MemInv s) {f : OpF} : MemOut (execAload f s) := .runS i (issueAcc_keeps i)
theorem MemOut.execQunpack (i : MemInv s) {f : OpF} : MemOut (execQunpack f s) := .runG i fun _ h => .after h

/-! Copies, atomics and fences -/

theorem MemOut.execCpy (i : MemInv s) {f : OpF} : MemOut (execCpy f s) := .runWith i (offCopy_keeps i) (copyBody_keeps i)
theorem MemOut.execTmov (i : MemInv s) {f : OpF} : MemOut (execTmov f s) := .runWith i (offCopy_keeps i) (copyBody_keeps i)
theorem MemOut.execAtom (i : MemInv s) {f : OpF} : MemOut (execAtom f s) := .runWith i (atomOff_keeps i) (atomBody_keeps i)
theorem MemOut.execAred (i : MemInv s) {f : OpF} : MemOut (execAred f s) := .runWith i (offLane_keeps i) (aredBody_keeps i)
theorem MemOut.execFence (i : MemInv s) {f : OpF} : MemOut (execFence f s) := .runS i (.after (fenceBody_keeps i))
theorem MemOut.execXfence (i : MemInv s) {f : OpF} : MemOut (execXfence f s) := .runS i (.after i.xfenceDo)
theorem MemOut.execPromote (i : MemInv s) {f : OpF} : MemOut (execPromote f s) := .runS i (promoteBody_keeps i)

/-! Waits, signals and rings -/

theorem MemOut.execWait (i : MemInv s) {f : OpF} : MemOut (execWait f s) := .runS i (.after (tryOr_keeps i (waitTry_keeps i)))
theorem MemOut.execTwany (i : MemInv s) {f : OpF} : MemOut (execTwany f s) := .runS i (.after (tryOr_keeps i (tagTry_keeps i)))
theorem MemOut.execTwall (i : MemInv s) {f : OpF} : MemOut (execTwall f s) := .runS i (.after (tryOr_keeps i (tagTry_keeps i)))
theorem MemOut.execTfirst (i : MemInv s) {f : OpF} : MemOut (execTfirst f s) := .runS i (.after (tryOr_keeps i (tfirstTry_keeps i)))
theorem MemOut.execSigadd (i : MemInv s) {f : OpF} : MemOut (execSigadd f s) := .runWith i (offLane_keeps i) (sigaddBody_keeps i)
theorem MemOut.execSigwait (i : MemInv s) {f : OpF} : MemOut (execSigwait f s) := .runS i (sigwaitBody_keeps i)
theorem MemOut.execRingput (i : MemInv s) {f : OpF} : MemOut (execRingput f s) := .runS i (.after (tryOr_keeps i (ringputTry_keeps i)))
theorem MemOut.execRingget (i : MemInv s) {f : OpF} : MemOut (execRingget f s) := .runS i (.after (tryOr_keeps i (ringgetTry_keeps i)))
theorem MemOut.execRingexp (i : MemInv s) {f : OpF} : MemOut (execRingexp f s) := .runS i (.after (tryOr_keeps i (ringexpTry_keeps i)))

/-! Engines -/

theorem MemOut.execBob (i : MemInv s) {f : OpF} : MemOut (execBob f s) := .runS i (bobBody_keeps i)
theorem MemOut.execBobq (i : MemInv s) {f : OpF} : MemOut (execBobq f s) := .runS i (tryOr_keeps i (bobqTry_keeps i))
theorem MemOut.execRfbegin (i : MemInv s) {f : OpF} : MemOut (execRfbegin f s) := .runS i (rfbeginBody_keeps i)
theorem MemOut.execImgst (i : MemInv s) {f : OpF} : MemOut (execImgst f s) := .runS i (imgstBody_keeps i)
theorem MemOut.execSymq (i : MemInv s) {f : OpF} : MemOut (execSymq f s) := .runS i (tryOr_keeps i (symqTry_keeps i))

/-! Class 7 and the empty ops -/

theorem MemOut.execRte (i : MemInv s) {f : OpF} : MemOut (execRte f s) := .runS i (rteBody_keeps i)
theorem MemOut.execSrd (i : MemInv s) {f : OpF} : MemOut (execSrd f s) := .runS i (srdBody_keeps i)
theorem MemOut.execSwr (i : MemInv s) {f : OpF} : MemOut (execSwr f s) := .runS i (swrBody_keeps i)
theorem MemOut.execReplayq (i : MemInv s) {f : OpF} : MemOut (execReplayq f s) := .runS i (replayqBody_keeps i)

/-! Events of a group -/

theorem MemOut.execDeferredIssue (i : MemInv s) {k : Gid} : MemOut (execDeferredIssue k s) := .next (i.updGroup fun _ h => by split <;> exact h)
theorem MemOut.execLoadRetire (i : MemInv s) {k : Gid} : MemOut (execLoadRetire k s) := .next i.retireHead
theorem MemOut.execStoreRetire (i : MemInv s) {k : Gid} : MemOut (execStoreRetire k s) := .next i.retireHead
theorem MemOut.execCopyComplete (i : MemInv s) {k : Gid} {n : Nat} : MemOut (execCopyComplete k n s) := .next i.copyAfter
theorem MemOut.execRingByteCount (i : MemInv s) {k : Gid} {n m : Nat} : MemOut (execRingByteCount k n m s) := .next i.copyAfter
theorem MemOut.execImgstComplete (i : MemInv s) {k : Gid} : MemOut (execImgstComplete k s) := .next i.imgFinish
theorem MemOut.execAccumulatorTransferComplete (i : MemInv s) {k : Gid} : MemOut (execAccumulatorTransferComplete k s) :=
  .next (i.retireHead.updGroup fun _ => accWake_wf)

/-! Queues and registers -/

theorem MemOut.execQueueDoorbell (i : MemInv s) {p q : Nat} {v : BitVec 64} : MemOut (execQueueDoorbell p q v s) :=
  .next (i.onQueue fun _ i => i.updQueue)
theorem MemOut.execQueueEnable (i : MemInv s) {p q : Nat} {v : BitVec 64} : MemOut (execQueueEnable p q v s) :=
  .next (i.onQueue fun _ i => MemInv.ite i.ctlWrite i)
theorem MemOut.execQueueDisable (i : MemInv s) {p q : Nat} {v : BitVec 64} : MemOut (execQueueDisable p q v s) :=
  .next (i.onQueue fun _ i => MemInv.ite i i.ctlWrite)
theorem MemOut.execQueuePreempt (i : MemInv s) {p q : Nat} {v : BitVec 64} : MemOut (execQueuePreempt p q v s) :=
  .next (i.onQueue fun _ i => MemInv.ite i.ctlWrite i)
theorem MemOut.execQueueResume (i : MemInv s) {p q : Nat} {v : BitVec 64} : MemOut (execQueueResume p q v s) :=
  .next (i.onQueue fun _ i => MemInv.ite i.ctlWrite i)
theorem MemOut.execEvrdWrite (i : MemInv s) {p : Nat} {v : BitVec 64} : MemOut (execEvrdWrite p v s) :=
  .next (i.ownerWrite fun _ i => i.onPartWrite.postAll)
theorem MemOut.execFbresRetry (i : MemInv s) {p : Nat} {v : BitVec 64} : MemOut (execFbresRetry p v s) :=
  .next (i.ownerWrite fun _ i => i.fbResolve fun _ _ i => i.fbRetry)
theorem MemOut.execFbresFail (i : MemInv s) {p : Nat} {v : BitVec 64} : MemOut (execFbresFail p v s) :=
  .next (i.ownerWrite fun _ i => i.fbResolve fun _ _ i => i.fbFail)
theorem MemOut.execTinvAll (i : MemInv s) {p : Nat} {v : BitVec 64} : MemOut (execTinvAll p v s) :=
  .next (i.ownerWrite fun _ i => MemInv.ite i.onTinv i)
theorem MemOut.execTinvPage (i : MemInv s) {p : Nat} {v : BitVec 64} : MemOut (execTinvPage p v s) :=
  .next (i.ownerWrite fun _ i => MemInv.ite i i.onTinv)
theorem MemOut.execEcccntClear (i : MemInv s) {p : Nat} {v : BitVec 64} : MemOut (execEcccntClear p v s) :=
  .next (i.ownerWrite fun _ i => i.onPartWrite)
theorem MemOut.execRegisterWrite (i : MemInv s) {p num : Nat} {v : BitVec 64} : MemOut (execRegisterWrite p num v s) :=
  .next (i.ownerWrite fun _ i => MemInv.ite i.onPartWrite i)

/-! Management -/

theorem MemOut.execPartCreate (i : MemInv s) {ses : Option Nat} {p : Nat} : MemOut (execPartCreate ses p s) := .next i.command
theorem MemOut.execPartAddHalf (i : MemInv s) {ses : Option Nat} {p h : Nat} : MemOut (execPartAddHalf ses p h s) := .next i.command
theorem MemOut.execPartAddQueue (i : MemInv s) {ses : Option Nat} {p q : Nat} : MemOut (execPartAddQueue ses p q s) := .next i.command
theorem MemOut.execPartAddKeys (i : MemInv s) {ses : Option Nat} {p n : Nat} : MemOut (execPartAddKeys ses p n s) := .next i.command
theorem MemOut.execPartAddMem (i : MemInv s) {ses : Option Nat} {p base size slot : Nat} : MemOut (execPartAddMem ses p base size slot s) :=
  .next i.command
theorem MemOut.execPartSetReg (i : MemInv s) {ses : Option Nat} {p num : Nat} {v : BitVec 64} : MemOut (execPartSetReg ses p num v s) :=
  .next i.command
theorem MemOut.execPartDestroy (i : MemInv s) {ses : Option Nat} {p : Nat} : MemOut (execPartDestroy ses p s) := .next i.command
theorem MemOut.execMgmtStatus (i : MemInv s) : MemOut (execMgmtStatus s) := .next i.askStatus
theorem MemOut.execSetOwnerhash (i : MemInv s) {ses : Option Nat} {h : BitVec 512} : MemOut (execSetOwnerhash ses h s) :=
  .next (MemInv.ite i i.receive)
theorem MemOut.execLockInterfaceRequest (i : MemInv s) {p ses : Nat} : MemOut (execLockInterfaceRequest p ses s) :=
  .next (i.tdisp fun _ i => i.tdispLock).drainCommands
theorem MemOut.execStartInterfaceRequest (i : MemInv s) {p ses : Nat} {nonce : BitVec 256} : MemOut (execStartInterfaceRequest p ses nonce s) :=
  .next (i.tdisp fun _ i => i.tdispStart)
theorem MemOut.execStopInterfaceRequest (i : MemInv s) {p ses : Nat} : MemOut (execStopInterfaceRequest p ses s) :=
  .next (i.tdisp fun _ i => i.tdispStop)
theorem MemOut.execGetDeviceInterfaceState (i : MemInv s) {p ses : Nat} : MemOut (execGetDeviceInterfaceState p ses s) :=
  .next (i.tdisp fun _ i => i.tdispGetState)
theorem MemOut.execGetDeviceInterfaceReport (i : MemInv s) {p ses : Nat} {nonce : BitVec 256} : MemOut (execGetDeviceInterfaceReport p ses nonce s) :=
  .next (i.tdisp fun _ i => i.tdispReport)

/-! The SPDM responder -/

theorem MemOut.execGetVersion (i : MemInv s) {tgt : Nat} : MemOut (execGetVersion tgt s) := .next (i.request fun _ i => i.standardReply)
theorem MemOut.execGetCapabilities (i : MemInv s) {tgt : Nat} : MemOut (execGetCapabilities tgt s) := .next (i.request fun _ i => i.standardReply)
theorem MemOut.execNegotiateAlgorithms (i : MemInv s) {tgt : Nat} {o : AlgOffer} : MemOut (execNegotiateAlgorithms tgt o s) :=
  .next (i.request fun _ i => i.negotiate)
theorem MemOut.execGetDigests (i : MemInv s) {tgt : Nat} : MemOut (execGetDigests tgt s) := .next (i.request fun _ i => i.reply)
theorem MemOut.execGetCertificate (i : MemInv s) {tgt : Nat} : MemOut (execGetCertificate tgt s) := .next (i.request fun _ i => i.reply)
theorem MemOut.execChallenge (i : MemInv s) {tgt : Nat} {nonce : BitVec 256} : MemOut (execChallenge tgt nonce s) :=
  .next (i.request fun _ i => i.setTick.reply)
theorem MemOut.execGetMeasurements (i : MemInv s) {tgt : Nat} {nonce : BitVec 256} : MemOut (execGetMeasurements tgt nonce s) :=
  .next (i.request fun _ i => i.reply)
theorem MemOut.execKeyExchange (i : MemInv s) {tgt : Nat} {req : Option (BitVec 512)} {ek : List (BitVec 8)} : MemOut (execKeyExchange tgt req ek s) :=
  .next (i.request fun _ i => i.openSession)
theorem MemOut.execFinish (i : MemInv s) {tgt ses : Nat} : MemOut (execFinish tgt ses s) :=
  .next (i.request fun _ i => i.inSession fun _ i => i.updSessions.exportKeys.reply)
theorem MemOut.execHeartbeat (i : MemInv s) {tgt ses : Nat} : MemOut (execHeartbeat tgt ses s) :=
  .next (i.request fun _ i => i.inSession fun _ i => i.reply)
theorem MemOut.execKeyUpdate (i : MemInv s) {tgt ses : Nat} : MemOut (execKeyUpdate tgt ses s) :=
  .next (i.request fun _ i => i.inSession fun _ i => i.updSessions.reply)
theorem MemOut.execEndSession (i : MemInv s) {tgt ses : Nat} : MemOut (execEndSession tgt ses s) :=
  .next (i.request fun _ i => i.inSession fun _ i => i.updSessions.reply)
theorem MemOut.execUnsupportedRequest (i : MemInv s) {tgt code : Nat} : MemOut (execUnsupportedRequest tgt code s) :=
  .next (MemInv.ite i (i.request fun _ i => i.reply))

/-! The host path -/

theorem MemOut.execAtomicAdd (i : MemInv s) {dom : Option Nat} {va d : BitVec 64} : MemOut (execAtomicAdd dom va d s) := .next i.hostAtomic
theorem MemOut.execSwap (i : MemInv s) {dom : Option Nat} {va d : BitVec 64} : MemOut (execSwap dom va d s) := .next i.hostAtomic
theorem MemOut.execCompareAndSwap (i : MemInv s) {dom : Option Nat} {va e d : BitVec 64} : MemOut (execCompareAndSwap dom va e d s) :=
  .next i.hostAtomic

/-! The module -/

theorem MemOut.execPatrolScrub (i : MemInv s) {line : Nat} : MemOut (execPatrolScrub line s) := .next (MemInv.ite i.countEcc i)
theorem MemOut.execCriticalTemperature (i : MemInv s) : MemOut (execCriticalTemperature s) := .next i.moduleFault
theorem MemOut.execThrottle (i : MemInv s) : MemOut (execThrottle s) := .next i.setDev
theorem MemOut.execThrottleRestore (i : MemInv s) : MemOut (execThrottleRestore s) := .next i.setDev
theorem MemOut.execMeasurement (i : MemInv s) {r : StageResult} : MemOut (execMeasurement r s) := .next (i.stage fun _ i => i.setDev)
theorem MemOut.execFirmwareLoad (i : MemInv s) {r : StageResult} : MemOut (execFirmwareLoad r s) := .next (i.stage fun _ i => i)
theorem MemOut.execSelfCalibration (i : MemInv s) {r : StageResult} {deadPorts : List (Fin 12)} : MemOut (execSelfCalibration r deadPorts s) :=
  .next (i.stage fun _ i => i.setDev)
theorem MemOut.execSeloreMemoryError (i : MemInv s) : MemOut (execSeloreMemoryError s) := .next i.moduleFault
theorem MemOut.execFlitRetry (i : MemInv s) {link : Fin 8} : MemOut (execFlitRetry link s) := .next i.setDev

/-! ### Every instruction and event -/

theorem MemInv.exec (i : MemInv s) : ∀ x : Instr, MemOut (exec x s)
  | .wordFetch => .execWordFetch i
  | .next => .execNext i
  | .jump .. => .execJump i
  | .jumpc .. => .execJumpc i
  | .call .. => .execCall i
  | .ret => .execRet i
  | .loop .. => .execLoop i
  | .jumpx .. => .execJumpx i
  | .exit => .execExit i
  | .rfnext => .execRfnext i
  | .callx .. => .execCallx i
  | .sli .. => .execSli i
  | .slih .. => .execSlih i
  | .smov .. => .execSmov i
  | .sadd .. => .execSadd i
  | .ssub .. => .execSsub i
  | .smul .. => .execSmul i
  | .smulhi .. => .execSmulhi i
  | .sdiv .. => .execSdiv i
  | .srem .. => .execSrem i
  | .smin .. => .execSmin i
  | .smax .. => .execSmax i
  | .sand .. => .execSand i
  | .sor .. => .execSor i
  | .sxor .. => .execSxor i
  | .sshl .. => .execSshl i
  | .sshr .. => .execSshr i
  | .srot .. => .execSrot i
  | .scmp .. => .execScmp i
  | .ssel .. => .execSsel i
  | .sbfx .. => .execSbfx i
  | .sbfi .. => .execSbfi i
  | .spopc .. => .execSpopc i
  | .sclz .. => .execSclz i
  | .sctz .. => .execSctz i
  | .sadda .. => .execSadda i
  | .sld .. => .execSld i
  | .sst .. => .execSst i
  | .sfadd .. => .execSfadd i
  | .sfmul .. => .execSfmul i
  | .sfma .. => .execSfma i
  | .sfcmp .. => .execSfcmp i
  | .scvt .. => .execScvt i
  | .kand .. => .execKand i
  | .kor .. => .execKor i
  | .kxor .. => .execKxor i
  | .nset .. => .execNset i
  | .nget .. => .execNget i
  | .clkr .. => .execClkr i
  | .idr .. => .execIdr i
  | .trap .. => .execTrap i
  | .bkpt .. => .execBkpt i
  | .vmov .. => .execVmov i
  | .vli .. => .execVli i
  | .vlane .. => .execVlane i
  | .vadd .. => .execVadd i
  | .vsub .. => .execVsub i
  | .vmul .. => .execVmul i
  | .vmulhi .. => .execVmulhi i
  | .vmad .. => .execVmad i
  | .vmin .. => .execVmin i
  | .vmax .. => .execVmax i
  | .vabsdiff .. => .execVabsdiff i
  | .vand .. => .execVand i
  | .vor .. => .execVor i
  | .vxor .. => .execVxor i
  | .vshl .. => .execVshl i
  | .vshr .. => .execVshr i
  | .vrot .. => .execVrot i
  | .vbfx .. => .execVbfx i
  | .vbfi .. => .execVbfi i
  | .vpopc .. => .execVpopc i
  | .vclz .. => .execVclz i
  | .vcmp .. => .execVcmp i
  | .vsel .. => .execVsel i
  | .vfadd .. => .execVfadd i
  | .vfsub .. => .execVfsub i
  | .vfmul .. => .execVfmul i
  | .vfma .. => .execVfma i
  | .vfmin .. => .execVfmin i
  | .vfmax .. => .execVfmax i
  | .vfcmp .. => .execVfcmp i
  | .vfrnd .. => .execVfrnd i
  | .vfclass .. => .execVfclass i
  | .vfscale .. => .execVfscale i
  | .vcvt .. => .execVcvt i
  | .vpack .. => .execVpack i
  | .vunpack .. => .execVunpack i
  | .vexp2 .. => .execVexp2 i
  | .vlog2 .. => .execVlog2 i
  | .vrcp .. => .execVrcp i
  | .vrsq .. => .execVrsq i
  | .vsqrt .. => .execVsqrt i
  | .vdiv .. => .execVdiv i
  | .vtanh .. => .execVtanh i
  | .vsin .. => .execVsin i
  | .vcos .. => .execVcos i
  | .vlred .. => .execVlred i
  | .vlscan .. => .execVlscan i
  | .vballot .. => .execVballot i
  | .vpermx .. => .execVpermx i
  | .vextr .. => .execVextr i
  | .vinsr .. => .execVinsr i
  | .vrdx .. => .execVrdx i
  | .vwrx .. => .execVwrx i
  | .pand .. => .execPand i
  | .por .. => .execPor i
  | .pxor .. => .execPxor i
  | .mapld .. => .execMapld i
  | .mapst .. => .execMapst i
  | .mapgen .. => .execMapgen i
  | .mapset .. => .execMapset i
  | .mapbind .. => .execMapbind i
  | .mapstr .. => .execMapstr i
  | .mapadv .. => .execMapadv i
  | .maprel .. => .execMaprel i
  | .aclr .. => .execAclr i
  | .amac .. => .execAmac i
  | .aadd .. => .execAadd i
  | .ain .. => .execAin i
  | .aout .. => .execAout i
  | .ascale .. => .execAscale i
  | .asave .. => .execAsave i
  | .aload .. => .execAload i
  | .qscan .. => .execQscan i
  | .qpack .. => .execQpack i
  | .qunpack .. => .execQunpack i
  | .vld .. => .execVld i
  | .vst .. => .execVst i
  | .cpy .. => .execCpy i
  | .tmov .. => .execTmov i
  | .atom .. => .execAtom i
  | .ared .. => .execAred i
  | .fence .. => .execFence i
  | .xfence .. => .execXfence i
  | .promote .. => .execPromote i
  | .promoteComplete .. => .execPromoteComplete i
  | .wait .. => .execWait i
  | .twany .. => .execTwany i
  | .twall .. => .execTwall i
  | .tfirst .. => .execTfirst i
  | .sigadd .. => .execSigadd i
  | .sigwait .. => .execSigwait i
  | .ringput .. => .execRingput i
  | .ringputFree .. => .execRingputFree i
  | .ringget .. => .execRingget i
  | .ringexp .. => .execRingexp i
  | .bar .. => .execBar i
  | .roleq .. => .execRoleq i
  | .bob .. => .execBob i
  | .bobq .. => .execBobq i
  | .rfbegin .. => .execRfbegin i
  | .rftest .. => .execRftest i
  | .rfend .. => .execRfend i
  | .imgst .. => .execImgst i
  | .symq .. => .execSymq i
  | .rte .. => .execRte i
  | .srd .. => .execSrd i
  | .swr .. => .execSwr i
  | .replayq .. => .execReplayq i
  | .nop .. => .retires i
  | .yield .. => .retires i
  | .unassignedOpcode .. => .execUnassignedOpcode i
  | .deferredIssue .. => .execDeferredIssue i
  | .loadRetire .. => .execLoadRetire i
  | .storeRetire .. => .execStoreRetire i
  | .copyComplete .. => .execCopyComplete i
  | .ringByteCount .. => .execRingByteCount i
  | .mapTransferComplete .. => .execMapTransferComplete i
  | .streamBlockArrival .. => .execStreamBlockArrival i
  | .bobCommandComplete .. => .execBobCommandComplete i
  | .imgstComplete .. => .execImgstComplete i
  | .accumulatorTransferComplete .. => .execAccumulatorTransferComplete i
  | .waitResume .. => .execWaitResume i
  | .tagWaitResume .. => .execTagWaitResume i
  | .sigwaitEnd .. => .execSigwaitEnd i
  | .ringgetEnd .. => .execRinggetEnd i
  | .ringexpResume .. => .execRingexpResume i
  | .ringputResume .. => .execRingputResume i
  | .ringputFreeEffect .. => .execRingputFreeEffect i
  | .barDepart .. => .execBarDepart i
  | .roleqMove .. => .execRoleqMove i
  | .bobqResume .. => .execBobqResume i
  | .symqResume .. => .execSymqResume i
  | .atomOrdRound .. => .execAtomOrdRound i
  | .ordDeadlock .. => .execOrdDeadlock i
  | .registerSpill .. => .execRegisterSpill i
  | .groupSlotFree .. => .execGroupSlotFree i
  | .teamPlace .. => .execTeamPlace i
  | .cohortPlacement .. => .execCohortPlacement i
  | .loftYardReserve .. => .execLoftYardReserve i
  | .distributorSteal .. => .execDistributorSteal i
  | .placementStarvation .. => .execPlacementStarvation i
  | .seam .. => .execSeam i
  | .queueEngineStep .. => .execQueueEngineStep i
  | .bundleAbort .. => .execBundleAbort i
  | .hubCopyComplete .. => .execHubCopyComplete i
  | .queueDoorbell .. => .execQueueDoorbell i
  | .queueEnable .. => .execQueueEnable i
  | .queueDisable .. => .execQueueDisable i
  | .queueDisabled .. => .execQueueDisabled i
  | .queuePreempt .. => .execQueuePreempt i
  | .queuePreempted .. => .execQueuePreempted i
  | .queueResume .. => .execQueueResume i
  | .evrdWrite .. => .execEvrdWrite i
  | .faultRecordWrite .. => .execFaultRecordWrite i
  | .fbresRetry .. => .execFbresRetry i
  | .fbresFail .. => .execFbresFail i
  | .tinvAll .. => .execTinvAll i
  | .tinvPage .. => .execTinvPage i
  | .launchend .. => .execLaunchend i
  | .ecccntClear .. => .execEcccntClear i
  | .registerWrite .. => .execRegisterWrite i
  | .teamSave .. => .execTeamSave i
  | .pdeadlineExpiry .. => .execPdeadlineExpiry i
  | .restore .. => .execRestore i
  | .partCreate .. => .execPartCreate i
  | .partAddHalf .. => .execPartAddHalf i
  | .partAddQueue .. => .execPartAddQueue i
  | .partAddKeys .. => .execPartAddKeys i
  | .partAddMem .. => .execPartAddMem i
  | .partSetReg .. => .execPartSetReg i
  | .partDestroy .. => .execPartDestroy i
  | .mgmtStatus => .execMgmtStatus i
  | .setOwnerhash .. => .execSetOwnerhash i
  | .grantScrubComplete .. => .execGrantScrubComplete i
  | .partitionScrubComplete .. => .execPartitionScrubComplete i
  | .lockInterfaceRequest .. => .execLockInterfaceRequest i
  | .lockCompletion .. => .execLockCompletion i
  | .startInterfaceRequest .. => .execStartInterfaceRequest i
  | .stopInterfaceRequest .. => .execStopInterfaceRequest i
  | .getDeviceInterfaceState .. => .execGetDeviceInterfaceState i
  | .getDeviceInterfaceReport .. => .execGetDeviceInterfaceReport i
  | .getVersion .. => .execGetVersion i
  | .getCapabilities .. => .execGetCapabilities i
  | .negotiateAlgorithms .. => .execNegotiateAlgorithms i
  | .getDigests .. => .execGetDigests i
  | .getCertificate .. => .execGetCertificate i
  | .challenge .. => .execChallenge i
  | .getMeasurements .. => .execGetMeasurements i
  | .keyExchange .. => .execKeyExchange i
  | .finish .. => .execFinish i
  | .heartbeat .. => .execHeartbeat i
  | .keyUpdate .. => .execKeyUpdate i
  | .endSession .. => .execEndSession i
  | .vendorDefinedRequest .. => .execVendorDefinedRequest i
  | .unsupportedRequest .. => .execUnsupportedRequest i
  | .rmaWrite .. => .execRmaWrite i
  | .rmaRead .. => .execRmaRead i
  | .atomicAdd .. => .execAtomicAdd i
  | .swap .. => .execSwap i
  | .compareAndSwap .. => .execCompareAndSwap i
  | .send .. => .execSend i
  | .patrolScrub .. => .execPatrolScrub i
  | .linkRetrain .. => .execLinkRetrain i
  | .railOutOfRange .. => .next i.moduleFault
  | .criticalTemperature => .execCriticalTemperature i
  | .throttle => .execThrottle i
  | .throttleRestore => .execThrottleRestore i
  | .moduleReset .. => .execModuleReset i
  | .measurement .. => .execMeasurement i
  | .firmwareLoad .. => .execFirmwareLoad i
  | .selfCalibration .. => .execSelfCalibration i
  | .memoryInitialisation .. => .execMemoryInitialisation i
  | .seloreMemoryError => .execSeloreMemoryError i
  | .firmwareSaveRequest .. => .execFirmwareSaveRequest i
  | .otherModePacket .. => .next i.setDev
  | .flitRetry .. => .execFlitRetry i

/-! ### Turns -/

theorem MemInv.runSlot (i : MemInv s) : MemOut (runSlot s) := by
  unfold Machine.runSlot
  split
  · exact i.next
  · exact i.exec _

theorem MemInv.afterFetch (i : MemInv s) : MemOut (afterFetch s) := by
  unfold Machine.afterFetch
  split
  · exact i.next
  · exact i.runSlot

theorem MemInv.groupAct (i : MemInv s) : MemOut (groupAct s) := by
  unfold Machine.groupAct
  split
  · exact .next i.failNow
  · split
    · have h := i.exec .wordFetch
      split
      · next e => exact (h _ e).afterFetch
      · rintro _ ⟨⟩
      · rintro _ ⟨⟩
    · exact i.runSlot

theorem MemInv.groupTurn (i : MemInv s) {k : Gid} : MemOut (groupTurn k s) := by
  have j := i.focus (k := k)
  unfold Machine.groupTurn
  dsimp only
  split
  · exact j.groupAct
  · exact j.next

theorem MemInv.cacheTurn (i : MemInv s) {p : Nat} {va : W64} : MemInv (Machine.cacheTurn p va s) := by
  have j := i.focusPart (n := p)
  unfold Machine.cacheTurn
  dsimp only
  split
  · split
    · exact j
    · exact j.setPSaved rfl
  · exact j

theorem MemInv.bringUpTurn (i : MemInv s) : MemOut (bringUpTurn s) := by
  unfold Machine.bringUpTurn
  split
  · exact i.next
  · split
    · exact .execModuleReset i
    · exact i.exec (.measurement .ok)
    · exact i.exec (.firmwareLoad .ok)
    · exact i.exec (.selfCalibration .ok [])
    · exact .execMemoryInitialisation i
    · exact i.next

theorem MemInv.doTurn (i : MemInv s) : ∀ t : Turn, MemOut (doTurn t s)
  | .event x => by
    unfold Machine.doTurn
    dsimp only
    split
    · exact i.exec x
    · exact i.next
  | .group _ => i.groupTurn
  | .perform .. => .next i.performTo
  | .performPart .. => .next i.performPart
  | .miss .. => .next i.missTurn
  | .copyPart .. => .next i.copyPart
  | .mapPart .. => .next i.mapPart
  | .fetchPart .. => .next i.fetchPart
  | .bobPart (.op _) .. => .next i.bobPart
  | .bobPart (.packet ..) .. => .next i.bobPacketPart
  | .imgPart .. => .next i.imgPart
  | .hubPart .. => .next i.hubPart
  | .time _ => MemInv.next (s := { s with now := _ }) i
  | .cache .. => .next i.cacheTurn
  | .residue .. => .next (i.updGroup fun _ hg => hg)
  | .poison .. => .next i.setDev
  | .correctable .. => .next i.setDev
  | .parity _ => .next i.memError
  | .packetParity .. => .next i.packetParity
  | .corrected _ => .next i.correctedTurn
  | .keyError .. => .next i.keySlotError
  | .bringUp => i.bringUpTurn

/-- Settles O37: every instruction, event and turn keeps the form, by one lemma for each function of the model that changes the state. -/
theorem stepKeepsMemory : Obligations.StepKeepsMemory := by
  intro s t i
  have j : MemInv { s with tick := s.tick + tickStride } := i.setTick
  unfold step
  dsimp only
  split
  · exact j.doTurn _ t
  · next r _ => exact MemInv.doTurn (s := { s with tick := s.tick + tickStride, agenda := r }) j _ t

end Sys2Proof.Machine
end

