-- ==== Sys2Proof/Proofs/Focus.lean ====
section
/-!
SUPPORT. The focus changes no lookup, is idempotent, and passes through an update of the agenda and the tick (O35).
-/
namespace Sys2Proof.Machine

/-! ### One list: the entry in focus and the others -/

section List
variable {α ι : Type} [DecidableEq ι] (live : α → Bool) (id : α → ι)

/-- A lookup by name, before and after the entry of the name `k` is brought to the front. -/
theorem find?_brought {x g : α} {xs : List α} {k : ι} (hx : (live x && decide (id x = k)) = false)
    (hg : xs.find? (fun y => live y && decide (id y = k)) = some g) (j : ι) :
    ((g :: ((if live x then [x] else []) ++ xs.filter fun y => id y ≠ k)).filter live).find? (fun y => decide (id y = j)) =
      ((x :: xs).filter live).find? fun y => decide (id y = j) := by
  have hgl := List.find?_some hg
  simp only [Bool.and_eq_true, decide_eq_true_eq] at hgl
  obtain ⟨hlive, hid⟩ := hgl
  simp only [List.find?_filter]
  by_cases hj : j = k
  · subst hj
    simp [hlive, hid, hx, hg]
  · have hne : (fun y => !decide (id y = k) && (live y && decide (id y = j))) = fun y => live y && decide (id y = j) := by
      funext y
      by_cases h : id y = j
      · simp [h, hj]
      · simp [h]
    have hg' : ¬ id g = j := fun e => hj (e ▸ hid)
    cases hl : live x
    · simp [hg', hl, hne]
    · by_cases hxj : id x = j <;> simp [hg', hxj, hl, hne]

/-- The entry that a lookup finds is the one in front, or the first of that name among the others. -/
theorem find?_front (x : α) (xs : List α) (k : ι) :
    ((x :: xs).filter live).find? (fun y => decide (id y = k)) =
      if live x && decide (id x = k) then some x else xs.find? fun y => live y && decide (id y = k) := by
  simp only [List.find?_filter, List.find?_cons, Bool.decide_and, Bool.decide_eq_true]
  cases live x && decide (id x = k) <;> rfl

end List

/-! ### Lookups -/

section Lookups
variable (s : State)

theorem group?_eq (k : Gid) :
    group? s k = if s.g.live && decide (s.g.id = k) then some s.g else s.groups.find? fun y => y.live && decide (y.id = k) :=
  find?_front Group.live Group.id s.g s.groups k

theorem team?_eq (k : Tid) :
    team? s k = if s.t.live && decide (s.t.id = k) then some s.t else s.teams.find? fun y => y.live && decide (y.id = k) :=
  find?_front Team.live Team.id s.t s.teams k

theorem launch?_eq (k : Lid) :
    launch? s k = if s.l.live && decide (s.l.id = k) then some s.l else s.launches.find? fun y => y.live && decide (y.id = k) :=
  find?_front Launch.live Launch.id s.l s.launches k

theorem part?_eq (n : Nat) :
    part? s n = if s.p.live && decide (s.p.num = n) then some s.p else s.parts.find? fun y => y.live && decide (y.num = n) :=
  find?_front Part.live Part.num s.p s.parts n

/-- The group found stands in focus. -/
theorem focusGroup_g_of_found {k : Gid} {x : Group} (h : group? s k = some x) : (focusGroup k s).g = x := by
  rw [group?_eq] at h
  rw [focusGroup]
  split at h
  · next c => rw [if_pos c]; exact Option.some.inj h
  · next c => rw [if_neg c, h]

/-- The team found stands in focus. -/
theorem focusTeam_t_of_found {k : Tid} {x : Team} (h : team? s k = some x) : (focusTeam k s).t = x := by
  rw [team?_eq] at h
  rw [focusTeam]
  split at h
  · next c => rw [if_pos c]; exact Option.some.inj h
  · next c => rw [if_neg c, h]

/-- The launch found stands in focus. -/
theorem focusLaunch_l_of_found {k : Lid} {x : Launch} (h : launch? s k = some x) : (focusLaunch k s).l = x := by
  rw [launch?_eq] at h
  rw [focusLaunch]
  split at h
  · next c => rw [if_pos c]; exact Option.some.inj h
  · next c => rw [if_neg c, h]

/-- The partition found stands in focus. -/
theorem focusPart_p_of_found {n : Nat} {x : Part} (h : part? s n = some x) : (focusPart n s).p = x := by
  rw [part?_eq] at h
  rw [focusPart]
  split at h
  · next c => rw [if_pos c]; exact Option.some.inj h
  · next c => rw [if_neg c, h]

/-- Bringing a group into focus changes no lookup of a group. -/
@[simp] theorem group?_focusGroup (k j : Gid) : group? (focusGroup k s) j = group? s j := by
  rw [focusGroup]
  split
  · rfl
  · next c =>
    split
    · rfl
    · next g hg => exact find?_brought Group.live Group.id (Bool.eq_false_iff.2 c) hg j

/-- Bringing a team into focus changes no lookup of a team. -/
@[simp] theorem team?_focusTeam (k j : Tid) : team? (focusTeam k s) j = team? s j := by
  rw [focusTeam]
  split
  · rfl
  · next c =>
    split
    · rfl
    · next g hg => exact find?_brought Team.live Team.id (Bool.eq_false_iff.2 c) hg j

/-- Bringing a launch into focus changes no lookup of a launch. -/
@[simp] theorem launch?_focusLaunch (k j : Lid) : launch? (focusLaunch k s) j = launch? s j := by
  rw [focusLaunch]
  split
  · rfl
  · next c =>
    split
    · rfl
    · next g hg => exact find?_brought Launch.live Launch.id (Bool.eq_false_iff.2 c) hg j

/-- Bringing a partition into focus changes no lookup of a partition. -/
@[simp] theorem part?_focusPart (n j : Nat) : part? (focusPart n s) j = part? s j := by
  rw [focusPart]
  split
  · rfl
  · next c =>
    split
    · rfl
    · next g hg => exact find?_brought Part.live Part.num (Bool.eq_false_iff.2 c) hg j

@[simp] theorem group?_focusTeam (k : Tid) (j : Gid) : group? (focusTeam k s) j = group? s j := by simp [group?, allGroups]
@[simp] theorem group?_focusLaunch (k : Lid) (j : Gid) : group? (focusLaunch k s) j = group? s j := by simp [group?, allGroups]
@[simp] theorem group?_focusPart (n : Nat) (j : Gid) : group? (focusPart n s) j = group? s j := by simp [group?, allGroups]
@[simp] theorem team?_focusGroup (k : Gid) (j : Tid) : team? (focusGroup k s) j = team? s j := by simp [team?, allTeams]
@[simp] theorem team?_focusLaunch (k : Lid) (j : Tid) : team? (focusLaunch k s) j = team? s j := by simp [team?, allTeams]
@[simp] theorem team?_focusPart (n : Nat) (j : Tid) : team? (focusPart n s) j = team? s j := by simp [team?, allTeams]
@[simp] theorem launch?_focusGroup (k : Gid) (j : Lid) : launch? (focusGroup k s) j = launch? s j := by simp [launch?, allLaunches]
@[simp] theorem launch?_focusTeam (k : Tid) (j : Lid) : launch? (focusTeam k s) j = launch? s j := by simp [launch?, allLaunches]
@[simp] theorem launch?_focusPart (n : Nat) (j : Lid) : launch? (focusPart n s) j = launch? s j := by simp [launch?, allLaunches]
@[simp] theorem part?_focusGroup (k : Gid) (j : Nat) : part? (focusGroup k s) j = part? s j := by simp [part?, allParts]
@[simp] theorem part?_focusTeam (k : Tid) (j : Nat) : part? (focusTeam k s) j = part? s j := by simp [part?, allParts]
@[simp] theorem part?_focusLaunch (k : Lid) (j : Nat) : part? (focusLaunch k s) j = part? s j := by simp [part?, allParts]

@[simp] theorem group?_focus_eq (k j : Gid) : group? (focus k s) j = group? s j := by simp [focus]
@[simp] theorem team?_focus_eq (k : Gid) (j : Tid) : team? (focus k s) j = team? s j := by simp [focus]
@[simp] theorem launch?_focus_eq (k : Gid) (j : Lid) : launch? (focus k s) j = launch? s j := by simp [focus]
@[simp] theorem part?_focus_eq (k : Gid) (j : Nat) : part? (focus k s) j = part? s j := by simp [focus]

/-- The group found stands in focus after its group is brought there. -/
theorem focus_g_of_found {k : Gid} {x : Group} (h : group? s k = some x) : (focus k s).g = x :=
  focusGroup_g_of_found _ (by simpa using h)

/-- The team found stands in focus after a group of it is brought there. -/
theorem focus_t_of_found {k : Gid} {x : Team} (h : team? s k.t = some x) : (focus k s).t = x := by
  rw [focus, focusGroup_t]
  exact focusTeam_t_of_found _ (by simpa using h)

/-- The launch found stands in focus after a group of it is brought there. -/
theorem focus_l_of_found {k : Gid} {x : Launch} (h : launch? s k.t.l = some x) : (focus k s).l = x := by
  rw [focus, focusGroup_l, focusTeam_l]
  exact focusLaunch_l_of_found _ (by simpa using h)

/-- The partition found stands in focus after a group of it is brought there. -/
theorem focus_p_of_found {k : Gid} {x : Part} (h : part? s k.t.l.part = some x) : (focus k s).p = x := by
  rw [focus, focusGroup_p, focusTeam_p, focusLaunch_p]
  exact focusPart_p_of_found _ h

/-! ### Bringing the same into focus again -/

/-- A lookup that finds none leaves the focus. -/
theorem focusGroup_of_none {k : Gid} (h : group? s k = none) : focusGroup k s = s := by
  rw [group?_eq] at h
  rw [focusGroup]
  split at h
  · cases h
  · next c => rw [if_neg c, h]

theorem focusTeam_of_none {k : Tid} (h : team? s k = none) : focusTeam k s = s := by
  rw [team?_eq] at h
  rw [focusTeam]
  split at h
  · cases h
  · next c => rw [if_neg c, h]

theorem focusLaunch_of_none {k : Lid} (h : launch? s k = none) : focusLaunch k s = s := by
  rw [launch?_eq] at h
  rw [focusLaunch]
  split at h
  · cases h
  · next c => rw [if_neg c, h]

theorem focusPart_of_none {n : Nat} (h : part? s n = none) : focusPart n s = s := by
  rw [part?_eq] at h
  rw [focusPart]
  split at h
  · cases h
  · next c => rw [if_neg c, h]

/-- What a lookup by name finds is live and has the name. -/
theorem live_id_of_group? {k : Gid} {x : Group} (h : group? s k = some x) : x.live = true ∧ x.id = k :=
  ⟨(List.mem_filter.1 (List.mem_of_find?_eq_some h)).2, by simpa using List.find?_some h⟩

theorem live_id_of_team? {k : Tid} {x : Team} (h : team? s k = some x) : x.live = true ∧ x.id = k :=
  ⟨(List.mem_filter.1 (List.mem_of_find?_eq_some h)).2, by simpa using List.find?_some h⟩

theorem live_id_of_launch? {k : Lid} {x : Launch} (h : launch? s k = some x) : x.live = true ∧ x.id = k :=
  ⟨(List.mem_filter.1 (List.mem_of_find?_eq_some h)).2, by simpa using List.find?_some h⟩

theorem live_num_of_part? {n : Nat} {x : Part} (h : part? s n = some x) : x.live = true ∧ x.num = n :=
  ⟨(List.mem_filter.1 (List.mem_of_find?_eq_some h)).2, by simpa using List.find?_some h⟩

end Lookups

/-- A group already brought into focus, with its team, launch and partition, stays there. -/
theorem focusGroup_again {s u : State} {k : Gid} (hg : u.g = (focusGroup k s).g) (hl : ∀ j, group? u j = group? s j) : focusGroup k u = u := by
  cases h : group? s k with
  | none => exact focusGroup_of_none _ (by rw [hl, h])
  | some x =>
    obtain ⟨h1, h2⟩ := live_id_of_group? s h
    rw [← focusGroup_g_of_found s h, ← hg] at h1 h2
    exact focusGroup_here h1 h2

theorem focusTeam_again {s u : State} {k : Tid} (ht : u.t = (focusTeam k s).t) (hl : ∀ j, team? u j = team? s j) : focusTeam k u = u := by
  cases h : team? s k with
  | none => exact focusTeam_of_none _ (by rw [hl, h])
  | some x =>
    obtain ⟨h1, h2⟩ := live_id_of_team? s h
    rw [← focusTeam_t_of_found s h, ← ht] at h1 h2
    exact focusTeam_here h1 h2

theorem focusLaunch_again {s u : State} {k : Lid} (hx : u.l = (focusLaunch k s).l) (hl : ∀ j, launch? u j = launch? s j) :
    focusLaunch k u = u := by
  cases h : launch? s k with
  | none => exact focusLaunch_of_none _ (by rw [hl, h])
  | some x =>
    obtain ⟨h1, h2⟩ := live_id_of_launch? s h
    rw [← focusLaunch_l_of_found s h, ← hx] at h1 h2
    exact focusLaunch_here h1 h2

theorem focusPart_again {s u : State} {n : Nat} (hp : u.p = (focusPart n s).p) (hl : ∀ j, part? u j = part? s j) : focusPart n u = u := by
  cases h : part? s n with
  | none => exact focusPart_of_none _ (by rw [hl, h])
  | some x =>
    obtain ⟨h1, h2⟩ := live_num_of_part? s h
    rw [← focusPart_p_of_found s h, ← hp] at h1 h2
    exact focusPart_here ⟨h1, h2⟩

/-- The focus is idempotent. -/
@[simp] theorem focus_focus (k : Gid) (s : State) : focus k (focus k s) = focus k s := by
  have hp : focusPart k.t.l.part (focus k s) = focus k s := focusPart_again (by simp [focus]) (part?_focus_eq s k)
  have hl : focusLaunch k.t.l (focus k s) = focus k s :=
    focusLaunch_again (s := focusPart k.t.l.part s) (by simp [focus]) (by simp)
  have ht : focusTeam k.t (focus k s) = focus k s :=
    focusTeam_again (s := focusLaunch k.t.l (focusPart k.t.l.part s)) (by simp [focus]) (by simp)
  have hg : focusGroup k (focus k s) = focus k s :=
    focusGroup_again (s := focusTeam k.t (focusLaunch k.t.l (focusPart k.t.l.part s))) rfl (by simp)
  rw [focus, hp, hl, ht, hg]

/-! ### The other fields -/

section Frame
variable (s : State) (r : List Turn) (n : Nat)

theorem focusGroup_setTurn (k : Gid) :
    focusGroup k { s with agenda := r, tick := n } = { focusGroup k s with agenda := r, tick := n } := by
  rw [focusGroup, focusGroup]; split
  · rfl
  · dsimp only; split <;> rfl

theorem focusTeam_setTurn (k : Tid) :
    focusTeam k { s with agenda := r, tick := n } = { focusTeam k s with agenda := r, tick := n } := by
  rw [focusTeam, focusTeam]; split
  · rfl
  · dsimp only; split <;> rfl

theorem focusLaunch_setTurn (k : Lid) :
    focusLaunch k { s with agenda := r, tick := n } = { focusLaunch k s with agenda := r, tick := n } := by
  rw [focusLaunch, focusLaunch]; split
  · rfl
  · dsimp only; split <;> rfl

theorem focusPart_setTurn (k : Nat) :
    focusPart k { s with agenda := r, tick := n } = { focusPart k s with agenda := r, tick := n } := by
  rw [focusPart, focusPart]; split
  · rfl
  · dsimp only; split <;> rfl

/-- The focus passes through an update of the agenda and the tick. -/
theorem focus_setTurn (k : Gid) : focus k { s with agenda := r, tick := n } = { focus k s with agenda := r, tick := n } := by
  simp only [focus, focusPart_setTurn, focusLaunch_setTurn, focusTeam_setTurn, focusGroup_setTurn]

theorem focusGroup_frame (k : Gid) : { focusGroup k s with g := s.g, groups := s.groups } = s := by
  rw [focusGroup]; split
  · rfl
  · split <;> rfl

theorem focusTeam_frame (k : Tid) : { focusTeam k s with t := s.t, teams := s.teams } = s := by
  rw [focusTeam]; split
  · rfl
  · split <;> rfl

theorem focusLaunch_frame (k : Lid) : { focusLaunch k s with l := s.l, launches := s.launches } = s := by
  rw [focusLaunch]; split
  · rfl
  · split <;> rfl

theorem focusPart_frame (k : Nat) : { focusPart k s with p := s.p, parts := s.parts } = s := by
  rw [focusPart]; split
  · rfl
  · split <;> rfl

/-- The focus changes no field but the entries in focus and the lists of the others. -/
theorem focus_frame (k : Gid) :
    { focus k s with g := s.g, groups := s.groups, t := s.t, teams := s.teams, l := s.l, launches := s.launches, p := s.p,
                     parts := s.parts } = s := by
  have hg := focusGroup_frame (focusTeam k.t (focusLaunch k.t.l (focusPart k.t.l.part s))) k
  have ht := focusTeam_frame (focusLaunch k.t.l (focusPart k.t.l.part s)) k.t
  have hl := focusLaunch_frame (focusPart k.t.l.part s) k.t.l
  have hp := focusPart_frame s k.t.l.part
  conv_rhs => rw [← hp, ← hl, ← ht, ← hg]
  simp [focus]

end Frame

/-! ### A group's turn and its events -/

/-- A group's turn depends on the state through the focus only. -/
theorem groupTurn_congr {k : Gid} {s u : State} (h : focus k u = focus k s) : groupTurn k u = groupTurn k s := by
  simp only [groupTurn, h]

/-- The step of a group's turn is the same from the state with the group in focus. -/
theorem step_focus {s : State} {k : Gid} {r : List Turn} (h : s.agenda = .group k :: r) : step (focus k s) = step s := by
  have ha : (focus k s).agenda = .group k :: r := by simp [focus, h]
  have ht : (focus k s).tick = s.tick := by simp [focus]
  have turn : ∀ {u : State}, u.agenda = .group k :: r →
      step u = groupTurn k { u with agenda := r, tick := u.tick + tickStride } := by
    intro u hu
    rw [step]; dsimp only; rw [hu]; rfl
  rw [turn ha, turn h]
  rw [ht]
  exact groupTurn_congr ((focus_setTurn (focus k s) r _ k).trans (by rw [focus_focus]; exact (focus_setTurn s r _ k).symm))

/-- An event that resumes a group begins by bringing it into focus. -/
theorem resume_focus (k : Gid) (act : State → State) (s : State) : resume k act (focus k s) = resume k act s := by
  simp only [resume, focus_focus]

section Events
variable (k : Gid) (s : State)

theorem execWaitResume_focus : execWaitResume k (focus k s) = execWaitResume k s := resume_focus k _ s
theorem execTagWaitResume_focus : execTagWaitResume k (focus k s) = execTagWaitResume k s := resume_focus k _ s
theorem execSigwaitEnd_focus : execSigwaitEnd k (focus k s) = execSigwaitEnd k s := resume_focus k _ s
theorem execRinggetEnd_focus : execRinggetEnd k (focus k s) = execRinggetEnd k s := resume_focus k _ s
theorem execRingexpResume_focus : execRingexpResume k (focus k s) = execRingexpResume k s := resume_focus k _ s
theorem execRingputResume_focus : execRingputResume k (focus k s) = execRingputResume k s := resume_focus k _ s
theorem execBobqResume_focus : execBobqResume k (focus k s) = execBobqResume k s := resume_focus k _ s
theorem execSymqResume_focus : execSymqResume k (focus k s) = execSymqResume k s := resume_focus k _ s
theorem execRingputFreeEffect_focus : execRingputFreeEffect k (focus k s) = execRingputFreeEffect k s := resume_focus k _ s
theorem execRoleqMove_focus : execRoleqMove k (focus k s) = execRoleqMove k s := by simp only [execRoleqMove, focus_focus]
theorem execPromoteComplete_focus : execPromoteComplete k (focus k s) = execPromoteComplete k s := by
  simp only [execPromoteComplete, focus_focus]
theorem execAtomOrdRound_focus : execAtomOrdRound k (focus k s) = execAtomOrdRound k s := by simp only [execAtomOrdRound, focus_focus]
theorem execFaultRecordWrite_focus : execFaultRecordWrite k (focus k s) = execFaultRecordWrite k s := by
  simp only [execFaultRecordWrite, focus_focus]
theorem execLaunchend_focus (v : W64) : execLaunchend k v (focus k s) = execLaunchend k v s := by simp only [execLaunchend, focus_focus]

end Events

/-- Settles O35: a group's turn and its events begin by bringing the group into focus, which a second time changes nothing. -/
theorem focusing : Obligations.Focusing := by
  intro s k v
  refine ⟨group?_focus_eq s k, team?_focus_eq s k, launch?_focus_eq s k, part?_focus_eq s k, fun _ => focus_g_of_found s,
    fun _ => focus_t_of_found s, fun _ => focus_l_of_found s, fun _ => focus_p_of_found s, focus_frame s k, fun _ => step_focus, ?_⟩
  simp only [List.forall_mem_cons]
  exact ⟨execWaitResume_focus k s, execTagWaitResume_focus k s, execSigwaitEnd_focus k s, execRinggetEnd_focus k s,
    execRingexpResume_focus k s, execRingputResume_focus k s, execRingputFreeEffect_focus k s, execRoleqMove_focus k s,
    execBobqResume_focus k s, execSymqResume_focus k s, execPromoteComplete_focus k s, execAtomOrdRound_focus k s, execFaultRecordWrite_focus k s,
    execLaunchend_focus k s v, List.forall_mem_nil _⟩

end Sys2Proof.Machine
end

