-- ==== Sys2Proof/Proofs/Reset.lean ====
section
/-!
SUPPORT. The machine right after reset (O36).
-/
namespace Sys2Proof.Machine

/-- The system registers that reset leaves at a value other than zero are R_PDEADLINE and the time (R307). -/
theorem fwRead_reset {n : Nat} (h1 : n ≠ 0x011) (h2 : n ≠ 0x000) : fwRead State.reset State.reset.p n = 0 := by
  unfold fwRead
  split
  case h_1 => exact absurd rfl h2
  case h_3 => exact absurd rfl h1
  all_goals rfl

/-- Every memory is empty at reset, hence in canonical form. -/
theorem memInv_reset : MemInv State.reset := ⟨reset_memWf, rfl, rfl, rfl, rfl⟩

/-- READY is 0 at reset. -/
theorem readyInv_reset : ReadyInv State.reset := ⟨Nat.zero_le 6, fun h => Bool.noConfusion h⟩

/-- Settles O36: reset is the state of the text, read field by field. -/
theorem resetState : Obligations.ResetState := by
  exact ⟨rfl, rfl, rfl, rfl, rfl, rfl, rfl, rfl, rfl,
    fun j => Vector.getElem_replicate j.isLt, rfl, fun _ => fwRead_reset, rfl, fun _ => rfl, memInv_reset, readyInv_reset⟩

end Sys2Proof.Machine
end

