-- ==== Sys2Proof/Proofs/Ordered.lean ====
section
/-!
SUPPORT. Rounds of .ord ops: whose turn it is, what a completed round counts, and which group the deadlock rule names (O46).
-/
namespace Sys2Proof.Machine

/-! ### A group that has exited -/

theorem hasExited_iff {g : Group} :
    hasExited g = true ↔ g.exited = true ∨ (g.pos = .seq ∧ ∃ d, g.dec = some d ∧ d.seq = .exit) := by
  simp [hasExited, Option.any_eq_true]

theorem hasExited_eq_false_iff {g : Group} :
    hasExited g = false ↔ ¬(g.exited = true ∨ (g.pos = .seq ∧ ∃ d, g.dec = some d ∧ d.seq = .exit)) := by
  rw [← hasExited_iff, Bool.not_eq_true]

/-! ### The turn -/

theorem ordTurn_iff {s : State} {t : Team} {num e r : Nat} :
    ordTurn s t num e r = true ↔ ∀ n, n < num → ∀ h, group? s ⟨t.id, n⟩ = some h → hasExited h = true ∨ r < ordDone t e n := by
  simp only [ordTurn, List.all_eq_true, List.mem_range]
  refine forall₂_congr fun n _ => ?_
  cases group? s ⟨t.id, n⟩ <;> simp

/-! ### Rounds counted -/

/-- An update of the entry at one index of a list. -/
theorem getElem?_zipIdx_map {α : Type} (l : List α) (e : Nat) (f : α → α) (a : Nat) :
    (l.zipIdx.map fun x => if x.2 = e then f x.1 else x.1)[a]? = if a = e then l[a]?.map f else l[a]? := by
  simp only [List.getElem?_map, List.getElem?_zipIdx, Option.map_map]
  by_cases h : a = e <;> cases l[a]? <;> simp [h]

theorem ordDone_eq (t : Team) (e n : Nat) : ordDone t e n = (t.seqr[e]?.bind fun y => y.done[n]?).getD 0 := by
  rw [ordDone, List.getD_eq_getElem?_getD, List.getD_eq_getElem?_getD]
  cases t.seqr[e]? <;> simp

/-- The entries after a round is counted. -/
theorem ordCount_seqr (e n : Nat) (t : Team) (a : Nat) :
    (ordCount e n t).seqr[a]? =
      if a = e then t.seqr[a]?.map fun y => { y with done := y.done.zipIdx.map fun d => if d.2 = n then d.1 + 1 else d.1 } else t.seqr[a]? :=
  getElem?_zipIdx_map t.seqr e (fun y => { y with done := y.done.zipIdx.map fun d => if d.2 = n then d.1 + 1 else d.1 }) a

/-- A round counted adds one to its group's number, where the entry holds the group. -/
theorem ordDone_ordCount_same {e n : Nat} {t : Team} {y : OrdEntry} (he : t.seqr[e]? = some y) (hn : n < y.done.length) :
    ordDone (ordCount e n t) e n = ordDone t e n + 1 := by
  have hd : (y.done.zipIdx.map fun d => if d.2 = n then d.1 + 1 else d.1)[n]? = (y.done[n]?).map (· + 1) := by
    rw [getElem?_zipIdx_map y.done n (· + 1) n, if_pos rfl]
  rw [ordDone_eq, ordDone_eq, ordCount_seqr, if_pos rfl, he]
  simp [hd, List.getElem?_eq_getElem hn]

/-- A round counted changes no other number. -/
theorem ordDone_ordCount_other {e n a m : Nat} {t : Team} (h : a ≠ e ∨ m ≠ n) : ordDone (ordCount e n t) a m = ordDone t a m := by
  rw [ordDone_eq, ordDone_eq, ordCount_seqr]
  by_cases ha : a = e
  · have hm : m ≠ n := h.resolve_left (not_not_intro ha)
    rw [if_pos ha]
    cases t.seqr[a]? with
    | none => rfl
    | some y => simp [getElem?_zipIdx_map y.done n (· + 1) m, hm]
  · rw [if_neg ha]

/-! ### The event -/

section Event
variable {s : State} {e r : Nat} {o : LaneOp}

/-- ATOM_ORD_ROUND for the group in focus. -/
theorem execAtomOrdRound_focused (hf : inFocus s) (hw : s.g.wait = .ord e r o) :
    execAtomOrdRound s.g.id s = if ordTurn s s.t s.g.id.num e r then .next (ordPerform e o s) else .next s := by
  rw [execAtomOrdRound, focus_here hf]
  simp [hf.1, hw]

/-- ORD_DEADLOCK where the rule names the group in focus. -/
theorem execOrdDeadlock_focused (hf : inFocus s) (hw : s.g.wait = .ord e r o) (hv : ordVictim s s.t s.l.kern.groups = some s.g.id) :
    execOrdDeadlock s.t.id s = .next (trapAt (trapOrder r) s) := by
  obtain ⟨-, ht, htg, hl, hlg, -, -⟩ := id hf
  rw [execOrdDeadlock, focusTeam_here ht rfl, focusLaunch_here hl (htg ▸ hlg)]
  simp only [hv, focus_here hf, hw]

end Event

/-! ### The group that the deadlock rule names -/

/-- Whether a group waits in a round of an .ord op. -/
def inRound (g : Group) : Bool :=
  match g.wait with
  | .ord _ _ _ => true
  | _ => false

theorem inRound_iff {g : Group} : inRound g = true ↔ ∃ e r o, g.wait = .ord e r o := by
  unfold inRound
  split
  · next h => simp [h]
  · next h => exact ⟨fun c => Bool.noConfusion c, fun ⟨e, r, o, c⟩ => absurd c (h e r o)⟩

/-- A group that is stuck and in no round waits at a barrier. -/
theorem bar_of_ordStuck {s : State} {t : Team} {n : Nat} {g : Group} (h : ordStuck s t n g = true) (hr : inRound g = false) :
    ∃ id gen, g.wait = .bar id gen := by
  unfold ordStuck at h
  split at h
  · next hw => simp [inRound, hw] at hr
  · exact ⟨_, _, ‹_›⟩
  · cases h

/-- The rule names the first group in a round of those that have not exited, all of which are stuck. -/
theorem ordVictim_eq_some {s : State} {t : Team} {n : Nat} {v : Gid} (h : ordVictim s t n = some v) :
    (∀ g ∈ teamGroups s t.id, hasExited g = false → ordStuck s t n g = true) ∧
      ∃ g, (teamGroups s t.id).find? (fun g => !hasExited g && inRound g) = some g ∧ g.id = v := by
  unfold ordVictim at h
  dsimp only at h
  split at h
  · cases h
  · next hc =>
    obtain ⟨-, hall⟩ : (∃ g ∈ teamGroups s t.id, hasExited g = false) ∧
        ∀ g ∈ teamGroups s t.id, hasExited g = false → ordStuck s t n g = true := by simpa using hc
    refine ⟨hall, ?_⟩
    have h' : (((teamGroups s t.id).filter fun g => !hasExited g).find? inRound).map Group.id = some v := h
    obtain ⟨g, hg, hv⟩ := Option.map_eq_some_iff.1 h'
    exact ⟨g, by simpa [List.find?_filter] using hg, hv⟩

/-- The first group of a team with a property has the lowest number of those with it. -/
theorem teamGroups_find? {s : State} {k : Tid} {p : Group → Bool} {g : Group} (h : (teamGroups s k).find? p = some g) :
    group? s g.id = some g ∧ ∀ n, n < g.id.num → ∀ x, group? s ⟨k, n⟩ = some x → x ∈ teamGroups s k ∧ p x = false := by
  rw [teamGroups, List.find?_filterMap] at h
  obtain ⟨m, hm, hg⟩ := Option.bind_eq_some_iff.1 h
  obtain ⟨-, hr, hlow⟩ := List.find?_range_eq_some.1 hm
  obtain ⟨-, hid⟩ := live_id_of_group? s hg
  rw [hid]
  refine ⟨hg, fun n hn x hx => ⟨List.mem_filterMap.2 ⟨n, ?_, hx⟩, ?_⟩⟩
  · exact List.mem_range.2 (hn.trans (List.mem_range.1 hr))
  · simpa [hx] using hlow n hn

/-- Settles O46: the turn, the count of the round, the park and the deadlock rule, each from its lemma. -/
theorem orderedRounds : Obligations.OrderedRounds := by
  intro s e r o
  dsimp only
  have hturn : (∀ n, n < s.g.id.num → ∀ h, group? s ⟨s.t.id, n⟩ = some h →
      (h.exited = true ∨ (h.pos = .seq ∧ ∃ d, h.dec = some d ∧ d.seq = .exit)) ∨ r < ordDone s.t e n) ↔
      ordTurn s s.t s.g.id.num e r = true := by
    simp only [ordTurn_iff, hasExited_iff]
  rw [hturn]
  refine ⟨?_, ?_, ?_, ?_, ?_⟩
  · rintro p ⟨hf, hw⟩ ht hr
    show execAtomOrdRound s.g.id s = _
    rw [execAtomOrdRound_focused hf hw, if_pos ht, ordPerform, hr]
    rfl
  · rintro ⟨hf, hw⟩ ht hr
    refine ⟨ordCount e s.g.id.num s.t, ?_, fun y => ordDone_ordCount_same, fun a n => ordDone_ordCount_other, rfl⟩
    show execAtomOrdRound s.g.id s = _
    rw [execAtomOrdRound_focused hf hw, if_pos ht, ordPerform, hr]
  · rintro ⟨hf, hw⟩ ht
    show execAtomOrdRound s.g.id s = _
    rw [execAtomOrdRound_focused hf hw, if_neg ht]
  · rintro ⟨hf, hw⟩ hv hfr
    show execOrdDeadlock s.t.id s = _
    rw [execOrdDeadlock_focused hf hw hv, trapAt_takes (.inl hfr) (by simp [trapOrder])]
    rfl
  · intro v hv
    obtain ⟨hall, g, hg, rfl⟩ := ordVictim_eq_some hv
    obtain ⟨hfound, hlow⟩ := teamGroups_find? hg
    have hp := List.find?_some hg
    obtain ⟨hout, hround⟩ := Bool.and_eq_true_iff.1 hp
    obtain ⟨e', r', o', hw⟩ := inRound_iff.1 hround
    refine ⟨g, e', r', o', hfound, hasExited_eq_false_iff.1 (by simpa using hout), hw, fun n hn x hx => ?_⟩
    obtain ⟨hmem, hp⟩ := hlow n hn x hx
    rw [← hasExited_iff]
    by_cases he : hasExited x = true
    · exact .inl he
    · rw [Bool.not_eq_true] at he
      exact .inr (bar_of_ordStuck (hall x hmem he) (by simpa [he] using hp))

end Sys2Proof.Machine
end

