-- ==== Sys2Proof/Proofs/Waits.lean ====
section
/-!
SUPPORT. WAIT and the tag waits: when they end at once, when they wait, and how their events end them (O25).
-/
namespace Sys2Proof.Machine

section Rules
variable {s t : State} {f : OpF} {o : Op} {w : Wait} {attempt : State → Option State}

/-! ### A blocking op and its event -/

/-- A blocking op whose condition holds goes on at once. -/
theorem runS_tryOr_some {r : Bool} (hi : issues o f s = true) (hr : r = true) (ha : attempt s = some t) :
    runS o f (fun s => (Res.require r).bind fun _ => tryOr w attempt s) s = goesOnWith t := by
  rw [runS_issues hi, hr, Res.require_true]
  simp [Res.bind, tryOr, ha]

/-- A blocking op whose condition does not hold waits. -/
theorem runS_tryOr_none {r : Bool} (hi : issues o f s = true) (hr : r = true) (ha : attempt s = none) :
    runS o f (fun s => (Res.require r).bind fun _ => tryOr w attempt s) s = .next { s with g := { s.g with wait := w } } := by
  rw [runS_issues hi, hr, Res.require_true]
  simp [Res.bind, tryOr, ha]

/-- An event of the group in focus does its act there. -/
theorem resume_focused (hf : inFocus s) (act : State → State) : resume s.g.id act s = .next (act s) := by
  rw [resume, focus_here hf]
  simp [hf.1]

/-- A wait whose condition holds is ended. -/
theorem ending_some (ha : attempt s = some t) : Host.Outcome.next (ending attempt s) = goesOnWith t := by
  rw [ending, ha, goesOnWith]

/-- WAIT_RESUME tries the limits again. -/
theorem execWaitResume_wait {ld st cp mp : Nat} (hf : inFocus s) (hw : s.g.wait = .wait ld st cp mp) :
    execWaitResume s.g.id s = .next (ending (waitTry ld st cp mp) s) := by
  rw [execWaitResume, resume_focused hf, hw]

/-- TAG_WAIT_RESUME tries the tags of TWANY or TWALL again. -/
theorem execTagWaitResume_tags {all : Bool} {m : W64} (hf : inFocus s) (hw : s.g.wait = .tags all m) :
    execTagWaitResume s.g.id s = .next (ending (tagTry all m) s) := by
  rw [execTagWaitResume, resume_focused hf, hw]

/-- TAG_WAIT_RESUME tries the tags of TFIRST again. -/
theorem execTagWaitResume_tfirst {d : Nat} {m : W64} (hf : inFocus s) (hw : s.g.wait = .tfirst d m) :
    execTagWaitResume s.g.id s = .next (ending (tfirstTry d m) s) := by
  rw [execTagWaitResume, resume_focused hf, hw]

/-! ### Limits and tags -/

theorem limitsHold_iff {g : Group} {ld st cp mp : Nat} :
    limitsHold g ld st cp mp = true ↔ ctrCount g .ld ≤ ld ∧ ctrCount g .st ≤ st ∧ g.copies.length ≤ cp ∧ g.mapops.length ≤ mp := by
  simp [limitsHold, and_assoc]

theorem mem_tagsSet {t : Team} {m : W64} {n : Nat} :
    n ∈ tagsSet t m ↔ n < 64 ∧ m.getLsbD n = true ∧ ∃ x, t.tags[n]? = some x ∧ x.set = true := by
  simp [tagsSet, Option.any_eq_true]

theorem tagsSet_eq_nil_iff {t : Team} {m : W64} :
    tagsSet t m = [] ↔ ¬∃ n, n < 64 ∧ m.getLsbD n = true ∧ ∃ x, t.tags[n]? = some x ∧ x.set = true := by
  simp only [List.eq_nil_iff_forall_not_mem, mem_tagsSet, not_exists]

/-- The lowest set tag of a mask comes first. -/
theorem head?_tagsSet {t : Team} {m : W64} {n : Nat} (hn : n < 64) (hm : m.getLsbD n = true) (hs : ∃ x, t.tags[n]? = some x ∧ x.set = true)
    (hlow : ∀ j, j < n → m.getLsbD j = true → ¬∃ x, t.tags[j]? = some x ∧ x.set = true) : (tagsSet t m).head? = some n := by
  rw [tagsSet, List.head?_filter, List.find?_range_eq_some]
  refine ⟨by simp [hm, Option.any_eq_true, hs], List.mem_range.2 hn, fun j hj => ?_⟩
  rw [Bool.not_eq_true', ← Bool.not_eq_true, Bool.and_eq_true, Option.any_eq_true]
  exact fun ⟨hb, hs⟩ => hlow j hj hb hs

/-- TWANY ends where one tag of its mask is set. -/
theorem tagTry_any_of {m : W64} (h : ∃ n, n < 64 ∧ m.getLsbD n = true ∧ ∃ x, s.t.tags[n]? = some x ∧ x.set = true) :
    tagTry false m s = some { s with g := observe s (tagOps s.t m) s.g } := by
  have : tagsSet s.t m ≠ [] := fun e => tagsSet_eq_nil_iff.1 e h
  simp [tagTry, this]

theorem tagTry_any_eq_none {m : W64} (h : ¬∃ n, n < 64 ∧ m.getLsbD n = true ∧ ∃ x, s.t.tags[n]? = some x ∧ x.set = true) :
    tagTry false m s = none := by simp [tagTry, tagsSet_eq_nil_iff.2 h]

/-- Whether every tag of a mask is among those that are set. -/
theorem all_tagsSet_iff {t : Team} {m : W64} :
    ((List.range 64).all fun n => !m.getLsbD n || (tagsSet t m).contains n) = true ↔
      ∀ n, n < 64 → m.getLsbD n = true → ∃ x, t.tags[n]? = some x ∧ x.set = true := by
  simp only [List.all_eq_true, List.mem_range, Bool.or_eq_true, Bool.not_eq_true', List.contains_iff_mem, mem_tagsSet]
  refine forall₂_congr fun n hn => ?_
  cases m.getLsbD n <;> simp [hn]

/-- TWALL ends where every tag of its mask is set. -/
theorem tagTry_all_of {m : W64} (h : ∀ n, n < 64 → m.getLsbD n = true → ∃ x, s.t.tags[n]? = some x ∧ x.set = true) :
    tagTry true m s = some { s with g := observe s (tagOps s.t m) s.g } := by
  simp only [tagTry, if_pos, all_tagsSet_iff.2 h]

theorem tagTry_all_eq_none {m : W64} (h : ¬∀ n, n < 64 → m.getLsbD n = true → ∃ x, s.t.tags[n]? = some x ∧ x.set = true) :
    tagTry true m s = none := by
  have : ¬((List.range 64).all fun n => !m.getLsbD n || (tagsSet s.t m).contains n) = true := fun e => h (all_tagsSet_iff.1 e)
  simp only [tagTry, if_true, if_neg this]

/-- The tags with one of them cleared, as an update at an index. -/
theorem clearTag_eq_modify (l : List Tag) (n : Nat) :
    (l.zipIdx.map fun e => if e.2 = n then { e.1 with set := false } else e.1) = l.modify n fun t => { t with set := false } := by
  refine List.ext_getElem? fun i => ?_
  rw [getElem?_zipIdx_map l n (fun t : Tag => { t with set := false }) i, List.getElem?_modify]
  by_cases h : i = n
  · simp [h]
  · simp [h, Ne.symm h]

/-- TFIRST takes the lowest set tag of its mask where no lower-numbered group of the team takes it. -/
theorem tfirstTry_of_head {d n : Nat} {m : W64} (hh : (tagsSet s.t m).head? = some n) (hr : tfirstRival s n = false) :
    tfirstTry d m s = some { s with
      g := setS (observe s (s.t.tags.getD n ⟨0, false, []⟩).ops s.g) d (BitVec.ofNat 64 n)
      t := { s.t with tags := s.t.tags.modify n fun t => { t with set := false } } } := by
  obtain ⟨ns, hns⟩ := List.head?_eq_some_iff.1 hh
  rw [tfirstTry, hns, ← clearTag_eq_modify]
  simp only [hr]
  rfl

theorem tfirstTry_eq_none {d : Nat} {m : W64} (h : tagsSet s.t m = []) : tfirstTry d m s = none := by rw [tfirstTry, h]

/-- A mask is legal where it is not zero and names no tag at or above T. -/
theorem tagMaskOk_of {l : Launch} {m : W64} (h : m ≠ 0 ∧ m.toNat < 2 ^ l.kern.tags) : tagMaskOk l m = true :=
  Bool.and_eq_true_iff.2 ⟨decide_eq_true h.1, decide_eq_true h.2⟩

/-- WAIT ends where its limits hold. -/
theorem waitTry_of {ld st cp mp : Nat}
    (h : ctrCount s.g .ld ≤ ld ∧ ctrCount s.g .st ≤ st ∧ s.g.copies.length ≤ cp ∧ s.g.mapops.length ≤ mp) :
    waitTry ld st cp mp s = some { s with g := observe s (waitSeen s ld st cp mp) s.g } := by
  rw [waitTry, limitsHold_iff.2 h, if_pos rfl]

theorem waitTry_eq_none {ld st cp mp : Nat}
    (h : ¬(ctrCount s.g .ld ≤ ld ∧ ctrCount s.g .st ≤ st ∧ s.g.copies.length ≤ cp ∧ s.g.mapops.length ≤ mp)) :
    waitTry ld st cp mp s = none := by rw [waitTry, if_neg (mt limitsHold_iff.1 h)]

end Rules

/-- Settles O25: each op is a condition and an effect, tried at issue and again by its event. -/
theorem waits : Obligations.Waits := by
  intro f s
  dsimp only
  refine ⟨?_, ?_, ?_, ?_, ?_, ?_, ?_, ?_, ?_, ?_, ?_, ?_⟩
  · exact fun hi hok h => runS_tryOr_some hi (by simp [limOk, hok.1, hok.2]) (waitTry_of h)
  · exact fun hi hok h => runS_tryOr_none hi (by simp [limOk, hok.1, hok.2]) (waitTry_eq_none h)
  · exact fun ld st cp mp hf hw h1 h2 h3 h4 => (execWaitResume_wait hf hw).trans (ending_some (waitTry_of ⟨h1, h2, h3, h4⟩))
  · exact fun hi hl h => runS_tryOr_some hi (tagMaskOk_of hl) (tagTry_any_of h)
  · exact fun hi hl h => runS_tryOr_none hi (tagMaskOk_of hl) (tagTry_any_eq_none h)
  · exact fun hi hl h => runS_tryOr_some hi (tagMaskOk_of hl) (tagTry_all_of h)
  · exact fun hi hl h => runS_tryOr_none hi (tagMaskOk_of hl) (tagTry_all_eq_none h)
  · exact fun hi hl n hm hs hlow hn hr => runS_tryOr_some hi (tagMaskOk_of hl) (tfirstTry_of_head (head?_tagsSet hn hm hs hlow) hr)
  · exact fun hi hl h => runS_tryOr_none hi (tagMaskOk_of hl) (tfirstTry_eq_none (tagsSet_eq_nil_iff.2 h))
  · exact fun m hf hw h => (execTagWaitResume_tags hf hw).trans (ending_some (tagTry_any_of h))
  · exact fun m hf hw h => (execTagWaitResume_tags hf hw).trans (ending_some (tagTry_all_of h))
  · exact fun d m hf hw n hm hs hlow hn hr =>
      (execTagWaitResume_tfirst hf hw).trans (ending_some (tfirstTry_of_head (head?_tagsSet hn hm hs hlow) hr))

end Sys2Proof.Machine
end

