-- ==== Sys2Proof/Proofs/Ends.lean ====
section
/-!
SUPPORT. The end of a group and of its team: what the lookups find after it (O47).
-/
namespace Sys2Proof.Machine

/-! ### Lookups after an update by name -/

section Update
variable {α ι : Type} [DecidableEq ι] {live : α → Bool} {id : α → ι} {f : α → α}

/-- A lookup by name among the others, after an update by name that keeps the name and life of an entry. -/
theorem find?_updated (hl : ∀ x, live (f x) = live x) (hi : ∀ x, id (f x) = id x) (xs : List α) (k j : ι) :
    (xs.map fun x => if live x && decide (id x = k) then f x else x).find? (fun y => live y && decide (id y = j)) =
      (xs.find? fun y => live y && decide (id y = j)).map fun x => if j = k then f x else x := by
  have hp : (fun y => live y && decide (id y = j)) ∘ (fun x => if live x && decide (id x = k) then f x else x) =
      fun y => live y && decide (id y = j) := by
    funext x
    rw [Function.comp_apply]
    split
    · rw [hl, hi]
    · rfl
  rw [List.find?_map, hp]
  cases hx : xs.find? fun y => live y && decide (id y = j) with
  | none => rfl
  | some x =>
    have hs := List.find?_some hx
    simp only [Bool.and_eq_true, decide_eq_true_eq] at hs
    obtain ⟨hlx, hid⟩ := hs
    simp [hlx, hid]

end Update

section Lookups
variable {s : State}

/-- A lookup of a group after an update of one that keeps its name and life. -/
theorem group?_updGroup {f : Group → Group} (hl : ∀ x, (f x).live = x.live) (hi : ∀ x, (f x).id = x.id) (k j : Gid) :
    group? (updGroup k f s) j = (group? s j).map fun x => if j = k then f x else x := by
  rw [group?_eq, group?_eq, updGroup]
  split
  · next h =>
    obtain ⟨hlive, hid⟩ : s.g.live = true ∧ s.g.id = k := by simpa using h
    by_cases hj : s.g.id = j
    · have hjk : j = k := hj ▸ hid
      simp [hl, hi, hlive, hj, hjk]
    · have hjk : ¬ j = k := fun e => hj (hid.trans e.symm)
      simp [hl, hi, hj, hjk]
  · next h =>
    by_cases hc : (s.g.live && decide (s.g.id = j)) = true
    · have hjk : ¬ j = k := fun e => h (e ▸ hc)
      simp only [hc, if_true, Option.map_some, if_neg hjk]
    · simp only [if_neg hc]
      exact find?_updated hl hi s.groups k j

/-- A lookup of a launch after an update of one that keeps its name and life. -/
theorem launch?_updLaunch {f : Launch → Launch} (hl : ∀ x, (f x).live = x.live) (hi : ∀ x, (f x).id = x.id) (k j : Lid) :
    launch? (updLaunch k f s) j = (launch? s j).map fun x => if j = k then f x else x := by
  rw [launch?_eq, launch?_eq, updLaunch]
  split
  · next h =>
    obtain ⟨hlive, hid⟩ : s.l.live = true ∧ s.l.id = k := by simpa using h
    by_cases hj : s.l.id = j
    · have hjk : j = k := hj ▸ hid
      simp [hl, hi, hlive, hj, hjk]
    · have hjk : ¬ j = k := fun e => hj (hid.trans e.symm)
      simp [hl, hi, hj, hjk]
  · next h =>
    by_cases hc : (s.l.live && decide (s.l.id = j)) = true
    · have hjk : ¬ j = k := fun e => h (e ▸ hc)
      simp only [hc, if_true, Option.map_some, if_neg hjk]
    · simp only [if_neg hc]
      exact find?_updated hl hi s.launches k j

@[simp] theorem team?_updGroup (k : Gid) (f : Group → Group) (j : Tid) : team? (updGroup k f s) j = team? s j := by simp [team?, allTeams]
@[simp] theorem launch?_updGroup (k : Gid) (f : Group → Group) (j : Lid) : launch? (updGroup k f s) j = launch? s j := by
  simp [launch?, allLaunches]
@[simp] theorem team?_updLaunch (k : Lid) (f : Launch → Launch) (j : Tid) : team? (updLaunch k f s) j = team? s j := by
  simp [team?, allTeams]
@[simp] theorem group?_updLaunch (k : Lid) (f : Launch → Launch) (j : Gid) : group? (updLaunch k f s) j = group? s j := by
  simp [group?, allGroups]

end Lookups

/-! ### A team's end -/

/-- No record of the team is left once all it wrote is performed (R125). -/
theorem recsPast_team {t : Tid} {real : Loc → Bool} {seen : List Loc} {rs : List WriteRec} {r : WriteRec} (h : r ∈ recsPast t real seen rs) :
    r.op.k.t ≠ t := by
  induction rs generalizing seen with
  | nil => cases h
  | cons x xs ih =>
    rw [recsPast] at h
    split at h
    · exact ih h
    · next hx =>
      rcases List.mem_cons.1 h with rfl | h
      · exact hx
      · exact ih h

section EndTeam
variable (t : Tid) (s : State)

/-- What the launch of a team keeps of its end. -/
def teamEnded (t : Tid) (s : State) (l : Launch) : Launch :=
  { updTask t.team (fun k => { k with ended := true }) l with
    ended := t.team :: l.ended
    endKnow := ((teamGroups s t).flatMap (groupKnow s) ++ l.endKnow).eraseDups }

/-- The groups left are those of the other teams. -/
theorem allGroups_endTeam : allGroups (endTeam t s) = (allGroups s).filter fun g => g.id.t ≠ t := by
  have h : allGroups (endTeam t s) =
      ((if s.g.id.t = t then { s.g with live := false } else s.g) :: s.groups.filter fun g => g.id.t ≠ t).filter Group.live := by
    simp [allGroups, endTeam, settleTeam]
  rw [h, allGroups]
  by_cases hg : s.g.id.t = t <;> cases hl : s.g.live <;> simp [hg, hl, List.filter_filter, Bool.and_comm]

/-- The teams left are the others. -/
theorem allTeams_endTeam : allTeams (endTeam t s) = (allTeams s).filter fun x => x.id ≠ t := by
  have h : allTeams (endTeam t s) =
      ((if s.t.id = t then { s.t with live := false } else s.t) :: s.teams.filter fun x => x.id ≠ t).filter Team.live := by
    simp [allTeams, endTeam, settleTeam]
  rw [h, allTeams]
  by_cases ht : s.t.id = t <;> cases hl : s.t.live <;> simp [ht, hl, List.filter_filter, Bool.and_comm]

theorem group?_endTeam (j : Gid) : group? (endTeam t s) j = if j.t = t then none else group? s j := by
  rw [group?, allGroups_endTeam, List.find?_filter, group?]
  split
  · next h =>
    rw [List.find?_eq_none]
    rintro x -
    by_cases hx : x.id = j <;> simp [hx, h]
  · next h =>
    congr 1
    funext x
    by_cases hx : x.id = j <;> simp [hx, h]

theorem team?_endTeam (j : Tid) : team? (endTeam t s) j = if j = t then none else team? s j := by
  rw [team?, allTeams_endTeam, List.find?_filter, team?]
  split
  · next h =>
    rw [List.find?_eq_none]
    rintro x -
    by_cases hx : x.id = j <;> simp [hx, h]
  · next h =>
    congr 1
    funext x
    by_cases hx : x.id = j <;> simp [hx, h]

theorem launch?_endTeam (j : Lid) : launch? (endTeam t s) j = (launch? s j).map fun l => if j = t.l then teamEnded t s l else l := by
  have h : allLaunches (endTeam t s) = allLaunches (updLaunch t.l (teamEnded t s) s) := by
    simp only [allLaunches, endTeam, settleTeam, updPart_l, updPart_launches]
    rfl
  rw [launch?, h]
  exact launch?_updLaunch (f := teamEnded t s) (fun _ => rfl) (fun _ => rfl) t.l j

theorem recs_endTeam {r : WriteRec} (h : r ∈ (endTeam t s).recs) : r.op.k.t ≠ t := recsPast_team h

/-- The task of an ended team has ended. -/
theorem teamEnded_tasks {l : Launch} {x : Task} (h : x ∈ (teamEnded t s l).tasks) (hx : x.team = t.team) : x.ended = true := by
  obtain ⟨y, -, rfl⟩ := List.mem_map.1 h
  by_cases hy : y.team = t.team
  · simp [hy]
  · simp [hy] at hx

end EndTeam

/-! ### A group's end -/

/-- A group whose slot has been freed. -/
def slotFreed (g : Group) : Group := { g with freed := true, exited := true, wait := .none, park := none }

theorem group?_slotFreed (s : State) (k j : Gid) :
    group? (updGroup k slotFreed s) j = (group? s j).map fun x => if j = k then slotFreed x else x :=
  group?_updGroup (f := slotFreed) (fun _ => rfl) (fun _ => rfl) k j

theorem mem_teamGroups {s : State} {t : Tid} {g : Group} : g ∈ teamGroups s t ↔ ∃ n, n < 32 ∧ group? s ⟨t, n⟩ = some g := by
  simp [teamGroups]

/-- The team of a freed group ends where every other group of it is freed. -/
theorem teamGroups_slotFreed_iff {s : State} {k : Gid} :
    (teamGroups (updGroup k slotFreed s) k.t).all Group.freed = true ↔
      ∀ n h, n < 32 → n ≠ k.num → group? s ⟨k.t, n⟩ = some h → h.freed = true := by
  simp only [List.all_eq_true, mem_teamGroups, group?_slotFreed]
  constructor
  · intro hall n h hn hk hg
    have hne : (⟨k.t, n⟩ : Gid) ≠ k := fun e => hk (congrArg Gid.num e)
    exact hall h ⟨n, hn, by simp [hg, hne]⟩
  · rintro hlast g ⟨n, hn, hg⟩
    obtain ⟨x, hx, rfl⟩ := Option.map_eq_some_iff.1 hg
    split
    · rfl
    · next hne => exact hlast n x hn (fun e => hne (by rw [e])) hx

/-- A group's slot may be freed once all it issued is complete and it has exited or its launch has ended. -/
theorem mayFree_iff {s : State} {g : Group} :
    mayFree s g = true ↔ (g.lane = [] ∧ g.copies = [] ∧ g.mapops = [] ∧ g.bobs = [] ∧ g.imgs = [] ∧ g.frees = []) ∧
      (g.exited = true ∨ ∃ l, launch? s g.id.t.l = some l ∧ l.code_ ≠ none) ∧ g.freed = false := by
  simp only [mayFree, drained, Bool.and_eq_true, Bool.or_eq_true, Bool.not_eq_true', List.isEmpty_iff, Option.any_eq_true,
    Option.isSome_iff_ne_none, and_assoc]
  tauto

/-- Settles O47: the lookups after the slot is freed, and after the team has ended with its last group. -/
theorem groupEnd : Obligations.GroupEnd := by
  intro s k g
  dsimp only
  have hexec : exec (.groupSlotFree k) s = execGroupSlotFree k s := rfl
  refine ⟨fun hg hidle hend hfr => ?_, fun hg hno => ?_⟩
  · have hid := (live_id_of_group? s hg).2
    have hmay : mayFree s g = true := mayFree_iff.2 ⟨hidle, by rw [hid]; exact hend, hfr⟩
    refine ⟨freeSlot k s, by rw [hexec, execGroupSlotFree, hg]; exact if_pos hmay, ?_⟩
    have hother : ∀ j : Gid, j.t ≠ k.t → group? (updGroup k slotFreed s) j = group? s j := fun j hj => by
      have hne : j ≠ k := fun e => hj (by rw [e])
      simp [group?_slotFreed, hne]
    by_cases hlast : (teamGroups (updGroup k slotFreed s) k.t).all Group.freed = true
    · have hu : freeSlot k s = endTeam k.t (updGroup k slotFreed s) := if_pos hlast
      rw [teamGroups_slotFreed_iff] at hlast
      rw [hu]
      refine ⟨fun j hj => by rw [group?_endTeam, if_neg hj, hother j hj], fun h => absurd hlast h, fun _ =>
        ⟨by rw [team?_endTeam, if_pos rfl], fun n => by rw [group?_endTeam, if_pos rfl], fun r => recs_endTeam _ _,
          fun t ht => by rw [team?_endTeam, if_neg ht, team?_updGroup], fun l hl => ?_⟩⟩
      refine ⟨teamEnded k.t (updGroup k slotFreed s) l, ?_, rfl, fun x => teamEnded_tasks _ _⟩
      rw [launch?_endTeam, launch?_updGroup, hl, Option.map_some, if_pos rfl]
    · have hu : freeSlot k s = updGroup k slotFreed s := if_neg hlast
      rw [teamGroups_slotFreed_iff] at hlast
      rw [hu]
      refine ⟨hother, fun _ => ⟨?_, team?_updGroup _ _ _⟩, fun h => absurd h hlast⟩
      rw [group?_slotFreed, hg, Option.map_some, if_pos rfl]
      rfl
  · have hid := (live_id_of_group? s hg).2
    have hmay : ¬mayFree s g = true := fun h => hno (by rw [mayFree_iff, hid] at h; exact h)
    rw [hexec, execGroupSlotFree, hg]
    exact if_neg hmay

end Sys2Proof.Machine
end

