-- ==== Sys2Proof/Proofs/Seams.lean ====
section
/-!
SUPPORT. The seam: what pass 2 writes in memory, what the report leaves alone, and the launch at its next phase (O48).
-/
namespace Sys2Proof.Machine

/-! ### Pass 2 in a memory where no write but the seam's own is recorded -/

/-- A state in which an agent has written on the copy path: the memory, its own records and the release tags have changed, nothing else. -/
def CopyWrote (op : OpId) (s : State) (m : Mem) (u : State) : Prop :=
  ∃ rs rels, (∀ r ∈ rs, r.op = op ∧ r.path = .copy) ∧ u = { s with recs := rs, rels := rels, hbm := m }

section Pass2
variable {s u : State} {op : OpId} {m : Mem}

/-- A record of old bytes is its op's, beside those that stand. -/
theorem addRec_own {p : Path} {rmw : Bool} {old : List (Loc × Byte)} (h : ∀ r ∈ s.recs, r.op = op ∧ r.path = p) :
    ∀ r ∈ (addRec op p rmw old s).recs, r.op = op ∧ r.path = p := by
  unfold addRec
  split
  · next x xs hx =>
    rw [hx] at h
    obtain ⟨hx1, hxs⟩ := List.forall_mem_cons.1 h
    split
    · exact List.forall_mem_cons.2 ⟨hx1, hxs⟩
    · exact List.forall_mem_cons.2 ⟨⟨rfl, rfl⟩, by rw [hx]; exact h⟩
  · exact List.forall_mem_singleton.2 ⟨rfl, rfl⟩

/-- Bytes that a party without a launch of its own writes at a physical address go to memory. -/
theorem writeBytesFrom_phys {p : Path} {va : W64} (h : launch? s op.k.t.l = none) (bs : List Byte) (n a : Nat) :
    writeBytesFrom op p va n ⟨.phys, a⟩ bs s = { s with hbm := memPutBytes s.hbm a bs } := by
  induction bs generalizing s n a with
  | nil => rfl
  | cons b bs ih =>
    have hb : writeByte op.k p ⟨.phys, a⟩ (va + BitVec.ofNat 64 n) b s = { s with hbm := memPut s.hbm a b } := by
      simp [writeByte, h, updHome]
    rw [writeBytesFrom, hb, memPutBytes]
    exact ih (s := { s with hbm := memPut s.hbm a b }) h (n + 1) (a + 1)

/-- The bytes that a party without a launch of its own sees at a physical address are those of memory. -/
theorem viewByte_phys (h : launch? s op.k.t.l = none) (a n : Nat) :
    (locsFrom ⟨.phys, a⟩ n).map (fun x => viewByte s op.k x) = memBytes s.hbm a n := by
  simp [locsFrom, memBytes, viewByte, h]

/-- Only release tags change where a plain write ends release sequences. -/
theorem endRels_eq (op : OpId) (a : Loc) (n : Nat) (s : State) : ∃ rels, endRels op a n s = { s with rels := rels } := by
  unfold endRels endRelsOf
  split
  · exact ⟨s.rels, rfl⟩
  · exact ⟨_, rfl⟩

variable (hl : launch? s op.k.t.l = none)
include hl

/-- Bytes written behind no other write. -/
theorem CopyWrote.put (h : CopyWrote op s m u) (rmw : Bool) (a : Nat) (va : W64) (bs : List Byte) :
    CopyWrote op s (memPutBytes m a bs) (putAt op .copy rmw [] ⟨.phys, a⟩ va bs u) := by
  obtain ⟨rs, rels, hrs, rfl⟩ := h
  rw [putAt_nil, addRec_eq, writeBytesFrom_phys (s := { s with recs := _, rels := rels, hbm := m }) hl]
  exact ⟨_, rels, addRec_own hrs, rfl⟩

/-- A plain write of the seam. -/
theorem CopyWrote.writeKnown (h : CopyWrote op s m u) (know : List Crossing) (a : Nat) (va : W64) (bs : List Byte) :
    CopyWrote op s (memPutBytes m a bs) (writeKnown know op .copy ⟨.phys, a⟩ va bs u) := by
  obtain ⟨rs, rels, hrs, rfl⟩ := h
  rw [writeKnown_same fun r hr => (hrs r hr).2]
  obtain ⟨rels', he⟩ := endRels_eq op ⟨.phys, a⟩ bs.length { s with recs := rs, rels := rels, hbm := m }
  rw [he]
  exact CopyWrote.put hl ⟨rs, rels', hrs, rfl⟩ false a va bs

/-- A task's masked bytes applied. -/
theorem CopyWrote.applyBuf (know : List Crossing) (bs : List BufByte) (h : CopyWrote op s m u) :
    CopyWrote op s (bs.foldl (fun m b => memPut m b.addr b.data) m) (applyBuf know op bs u) := by
  induction bs generalizing m u with
  | nil => exact h
  | cons b bs ih => exact ih (h.writeKnown hl know b.addr b.va [b.data])

/-- The number that a record leaves at its place. -/
def recNew (r : RedRec) (old : Nat) : Nat :=
  if r.aop = 16 then (signalNew (BitVec.ofNat 64 old) r.data).1.toNat else (atomNew r.aop r.sgn r.w old r.data.toNat 0).1

/-- One record applied. -/
theorem CopyWrote.applyRec (know : List Crossing) (r : RedRec) (h : CopyWrote op s m u) :
    CopyWrote op s (memPutNat m r.addr r.w (recNew r (memNat m r.addr r.w))) (applyRec know op r u) := by
  obtain ⟨rs, rels, hrs, rfl⟩ := id h
  have hu : launch? { s with recs := rs, rels := rels, hbm := m } op.k.t.l = none := hl
  rw [Machine.applyRec, rmwAt_same fun r hr => (hrs r hr).2]
  dsimp only
  rw [viewByte_phys hu]
  exact h.put hl true r.addr r.va (leBytes r.w (recNew r (memNat m r.addr r.w)))

/-- A task's records applied. -/
theorem CopyWrote.applyRecs (know : List Crossing) (rs : List RedRec) (h : CopyWrote op s m u) :
    CopyWrote op s (rs.foldl (fun m r => memPutNat m r.addr r.w (recNew r (memNat m r.addr r.w))) m)
      (rs.foldl (fun s r => Machine.applyRec know op r s) u) := by
  induction rs generalizing m u with
  | nil => exact h
  | cons r rs ih => exact ih (h.applyRec hl know r)

/-- Every task applied. -/
theorem CopyWrote.applyAll (know : List Crossing) (ts : List Task) (h : CopyWrote op s m u) :
    CopyWrote op s (ts.foldl (fun m t => t.recs.foldl (fun m r => memPutNat m r.addr r.w (recNew r (memNat m r.addr r.w)))
      (t.buf.foldl (fun m b => memPut m b.addr b.data) m)) m) (applyAll know op ts u) := by
  induction ts generalizing m u with
  | nil => exact h
  | cons t ts ih => exact ih ((h.applyBuf hl know t.buf).applyRecs hl know t.recs)

end Pass2

/-! ### The report leaves the launch in focus -/

section Report
variable (s : State)

theorem virtWrite_getD_l (va : W64) (bs : List Byte) : ((virtWrite va bs s).getD s).l = s.l := by
  unfold virtWrite
  dsimp only
  split
  · rfl
  · obtain ⟨rs, ts, h⟩ := settled_eq (s := s) (runLocs (virtRuns s ⟨false, true, false⟩ va bs.length))
    rw [h]
    rfl

theorem updQueue_l (q : Nat) (f : Queue → Queue) : (updQueue q f s).l = s.l := rfl

theorem evwrNext_l : ({ s with p := { s.p with regs := { s.p.regs with evwr := s.p.regs.evwr + 1 } } } : State).l = s.l := rfl

theorem evPut_l (code q : Nat) (pkt value data : W64) : (evPut code q pkt value data s).l = s.l := by
  unfold evPut
  exact (evwrNext_l _).trans (virtWrite_getD_l s _ _)

theorem sysEvent_l (q code : Nat) (pkt value data : W64) (dest : QState) (err : W64) :
    (sysEvent q code pkt value data dest err s).l = s.l := by
  rw [sysEvent]
  split
  · rfl
  · dsimp only
    split
    · rw [updQueue_l]
    · split
      · rw [updQueue_l, evPut_l]
      · split
        · rw [updQueue_l, evPut_l]
        · rw [updQueue_l]

theorem sysNote_l (q code : Nat) (pkt value data : W64) : (sysNote q code pkt value data s).l = s.l := by
  unfold sysNote
  split
  · rfl
  · exact sysEvent_l s _ _ _ _ _ _ _

theorem report_l (ts : List Task) (bad : List Nat) : (report ts bad s).l = s.l := by
  unfold report
  dsimp only
  rw [sysNote_l, packetFailed, sysNote_l]
  split
  · rfl
  · exact virtWrite_getD_l s _ _

end Report

/-! ### Conflicts -/

theorem reduces_iff {t : Task} {a : Nat} : reduces t a = true ↔ ∃ r ∈ t.recs, r.addr ≤ a ∧ a < r.addr + r.w := by
  simp [reduces]

theorem mem_conflicts {ts : List Task} {a : Nat} :
    a ∈ conflicts ts ↔ ∃ t ∈ ts, ∃ b ∈ t.buf, b.addr = a ∧
      (b.bad = true ∨ (∃ u ∈ ts, ∃ r ∈ u.recs, r.addr ≤ a ∧ a < r.addr + r.w) ∨ 1 < (ts.filter fun u => masks u a).length) := by
  simp only [conflicts, List.mem_eraseDups, List.mem_flatMap, List.mem_map, List.mem_filter, Bool.or_eq_true, List.any_eq_true, reduces_iff,
    decide_eq_true_eq, or_assoc]
  refine exists_congr fun t => and_congr_right fun _ => exists_congr fun b => ?_
  constructor
  · rintro ⟨⟨hb, h⟩, rfl⟩
    exact ⟨hb, rfl, h⟩
  · rintro ⟨hb, rfl, h⟩
    exact ⟨⟨hb, h⟩, rfl⟩

/-! ### The next phase -/

/-- The chunks of a list that have a team to issue now. -/
theorem mem_chunksNow {l : Launch} {own : List Nat} {c : Nat} : c ∈ chunksNow l own ↔ c ∈ own ∧ chunkTeams l c ≠ [] := by
  simp only [chunksNow, List.mem_filter, List.mem_range, Bool.and_eq_true, List.contains_iff_mem, Bool.not_eq_true', List.isEmpty_eq_false_iff]
  refine ⟨fun ⟨_, h⟩ => h, fun h => ⟨?_, h⟩⟩
  obtain ⟨i, hi⟩ := List.exists_mem_of_ne_nil _ h.2
  simp only [chunkTeams, List.mem_filter, List.mem_map, List.mem_range, Bool.and_eq_true, decide_eq_true_eq] at hi
  obtain ⟨⟨j, -, rfl⟩, ⟨hlt, -⟩, -⟩ := hi
  rw [chunkCount]
  omega

/-- Each distributor at the next phase offers the chunks that it owns by now. -/
theorem nextPhase_dists {op : OpId} {l : Launch} {i : Nat} {x : Dist} (h : l.dists[i]? = some x) :
    ∃ y : Dist, (nextPhase op l).dists[i]? = some y ∧ y.own = x.own ∧ y.stopped = x.stopped ∧ y.now = [] ∧
      ∀ c, c ∈ y.chunks ↔ c ∈ x.own ∧ chunkTeams (nextPhase op l) c ≠ [] := by
  refine ⟨{ x with chunks := chunksNow (nextPhase op l) x.own, now := [], passed := 0, blocks := false }, ?_, rfl, rfl, rfl,
    fun _ => mem_chunksNow⟩
  rw [nextPhase, phaseDists, List.getElem?_map]
  dsimp only
  rw [h]
  rfl

/-- The tasks of the applied phase hold nothing any more. -/
theorem nextPhase_tasks {op : OpId} {l : Launch} {t : Task} (h : t ∈ (nextPhase op l).tasks) (hp : t.phase = l.phase) :
    t.buf = [] ∧ t.recs = [] := by
  obtain ⟨y, -, rfl⟩ := List.mem_map.1 h
  by_cases hy : y.phase = l.phase
  · simp [hy]
  · simp [hy] at hp

/-! ### The event -/

section Seam
variable {k : Lid} {s : State}

/-- SEAM where it is due. -/
theorem execSeam_due (hh : launchHere k s) (hd : seamDue s.l = true) : execSeam k s = .next (seamDo s) := by
  obtain ⟨hl, hk, hp, hr⟩ := hh
  rw [execSeam, focusPart_here hp, focusLaunch_here hl hk]
  simp [hl, hk, hp.1, hp.2, hr, hd]

theorem eccRead_calm (hc : calm s) (as : List Loc) : eccRead as s = s := by simp [eccRead, hc.2.2]

theorem poisoned_calm (hc : calm s) (as : List Loc) : poisoned s as = false := by simp [poisoned, hc.2.1]

/-- A seam in calm memory with a conflict. -/
theorem seamDo_conflict (hc : calm s) (hb : conflicts (phaseTasks s.l) ≠ []) :
    seamDo s = { endLaunch s.l.id mergeCode (report (phaseTasks s.l) (conflicts (phaseTasks s.l)) s) with
      l := { (endLaunch s.l.id mergeCode (report (phaseTasks s.l) (conflicts (phaseTasks s.l)) s)).l with reported := true } } := by
  rw [seamDo]
  simp only [poisoned_calm hc, eccRead_calm hc, List.isEmpty_iff, hb, if_false]
  rfl

/-- A seam in calm memory without a conflict. -/
theorem seamDo_clean (hc : calm s) (hb : conflicts (phaseTasks s.l) = []) :
    seamDo s =
      let t := applyAll (agentOrder (s.l.know ++ s.l.endKnow)) (agentOp 3 s).1 (phaseTasks s.l) (agentOp 3 s).2
      { t with l := nextPhase (agentOp 3 s).1 t.l } := by
  rw [seamDo]
  simp only [poisoned_calm hc, eccRead_calm hc, hb]
  rfl

end Seam

/-- Settles O48: what pass 2 writes is a fold over the tasks, and the report leaves the launch in focus. -/
theorem seams : Obligations.Seams := by
  intro k s
  dsimp only
  refine ⟨?_, ?_, ?_, fun a => mem_conflicts, rfl, List.mem_cons_self, ?_, ?_, fun t => nextPhase_tasks, fun i x => nextPhase_dists⟩
  · rintro ⟨hh, hd⟩ hc hb hl
    have hstart : CopyWrote (agentOp 3 s).1 (agentOp 3 s).2 s.hbm (agentOp 3 s).2 :=
      ⟨[], s.rels, List.forall_mem_nil _, by rw [← hc.1]; rfl⟩
    obtain ⟨rs, rels, hrs, hu⟩ := hstart.applyAll hl (agentOrder (s.l.know ++ s.l.endKnow)) (phaseTasks s.l)
    refine ⟨rs, rels, hrs, (execSeam_due hh hd).trans ?_⟩
    rw [seamDo_clean hc hb, hu]
    rfl
  · rintro ⟨hh, hd⟩ hc hb
    have hlive : (report (phaseTasks s.l) (conflicts (phaseTasks s.l)) s).l = s.l := report_l s _ _
    have hnone : s.l.code_ = none := by
      simp only [seamDue, Bool.and_eq_true, Option.isNone_iff_eq_none] at hd
      exact hd.1.1.2
    have hend : (endLaunch s.l.id mergeCode (report (phaseTasks s.l) (conflicts (phaseTasks s.l)) s)).l =
        { s.l with code_ := some mergeCode } := by
      rw [endLaunch, updLaunch, hlive]
      simp [hh.1, hnone]
    refine ⟨seamDo s, execSeam_due hh hd, ?_, ?_⟩
    · rw [seamDo_conflict hc hb, hend]
      rfl
    · rw [seamDo_conflict hc hb, ← hh.2.1]
      rfl
  · rintro ⟨hh, hd⟩ hp
    refine (execSeam_due hh hd).trans ?_
    rw [seamDo]
    simp only [hp, if_true, hh.2.1]
    rfl
  · exact fun x hx => List.mem_cons_of_mem _ (List.mem_append_left _ hx)
  · exact fun x hx => List.mem_cons_of_mem _ (List.mem_append_right _ hx)

end Sys2Proof.Machine
end

