-- ==== Sys2Proof/Proofs/Turns.lean ====
section
/-!
SUPPORT. Whose turn it is on a die, and what being passed over changes (R284, R288).
-/
namespace Sys2Proof.Machine

/-! ### Blocks and turns -/

/-- A team of another launch keeps a launch off a die, and is no cohort's that the launch goes before. -/
def Kept (s : State) (die : Nat) (x : Launch) : Prop :=
  ∃ b, blocker s die = some b ∧ b ≠ x.id ∧
    ¬(x.cohort = true ∧ x.dists.any Dist.blocks = true ∧ ∃ y, launch? s b = some y ∧ y.cohort = true ∧ startedBefore x y = true)

/-- A launch's next team could be placed on a die, blocks counted. -/
def Could (s : State) (die : Nat) (x : Launch) : Prop :=
  ¬Kept s die x ∧ (x.cohort = true → ∀ p, part? s x.id.part = some p → ∀ y ∈ distDies p, ¬Kept s y x) ∧
    ∃ e, distOn s die x = some e ∧ placeable (focusPart x.id.part s) e x = true

/-- A launch is the one to be offered a die. -/
def OnTurn (s : State) (die : Nat) (x : Launch) : Prop :=
  blocker s die = some x.id ∨ (¬Kept s die x ∧ ∀ y ∈ waitsBefore s die x, ¬Could s die y)

section OnTurns
variable {s : State} {die : Nat} {x : Launch}

theorem keptOff_iff : keptOff s die x = true ↔ Kept s die x := by
  simp only [keptOff, Kept, Option.any_eq_true, Bool.and_eq_true, decide_eq_true_eq, Bool.not_eq_true', ← Bool.not_eq_true, and_assoc]

theorem unblocked_iff : unblocked s die x = true ↔
    ¬Kept s die x ∧ (x.cohort = true → ∀ p, part? s x.id.part = some p → ∀ y ∈ distDies p, ¬Kept s y x) := by
  have hcohort : (!x.cohort || ((part? s x.id.part).elim [] distDies).all fun y => !keptOff s y x) = true ↔
      (x.cohort = true → ∀ p, part? s x.id.part = some p → ∀ y ∈ distDies p, ¬Kept s y x) := by
    simp only [← keptOff_iff]
    cases x.cohort <;> cases part? s x.id.part <;> simp
  rw [unblocked, Bool.and_eq_true, hcohort, ← keptOff_iff, Bool.not_eq_true', Bool.not_eq_true]

theorem placeableOn_iff : placeableOn s die x = true ↔ Could s die x := by
  rw [placeableOn, Bool.and_eq_true, unblocked_iff, Option.any_eq_true, Could, and_assoc]

theorem turnOn_iff : turnOn s die x = true ↔ OnTurn s die x := by
  have hearlier : (!(waitsBefore s die x).any (placeableOn s die)) = true ↔ ∀ y ∈ waitsBefore s die x, ¬Could s die y := by
    simp only [← placeableOn_iff, Bool.not_eq_true', List.any_eq_false]
  rw [turnOn, Bool.or_eq_true, decide_eq_true_eq, Bool.and_eq_true, hearlier, OnTurn, ← keptOff_iff, Bool.not_eq_true', Bool.not_eq_true]

/-- The launch that blocks a die started first of those that do. -/
theorem blocker_first {b : Lid} (h : blocker s die = some b) :
    ∃ x ∈ blocking s die, x.id = b ∧ ∀ y ∈ blocking s die, y.id = b ∨ startedBefore x y = true := by
  obtain ⟨x, hx, rfl⟩ := Option.map_eq_some_iff.1 h
  have hfirst := List.find?_some hx
  simp only [List.all_eq_true, Bool.or_eq_true, decide_eq_true_eq] at hfirst
  exact ⟨x, List.mem_of_find?_eq_some hx, rfl, hfirst⟩

theorem mem_waitsBefore {y : Launch} (h : y ∈ waitsBefore s die x) : y ∈ allLaunches s ∧ y.id ≠ x.id := by
  obtain ⟨hmem, hy⟩ := List.mem_filter.1 h
  simp only [startedBefore, Bool.and_eq_true, decide_eq_true_eq] at hy
  exact ⟨hmem, hy.1.1⟩

end OnTurns

/-! ### An update of one distributor -/

section Dist
variable {l : Launch} {d : Nat} {f g : Dist → Dist}

theorem updDist_dists (e : Nat) : (updDist d f l).dists[e]? = if e = d then l.dists[e]?.map f else l.dists[e]? :=
  getElem?_zipIdx_map l.dists d f e

/-- An update of one distributor depends on what it does to that distributor alone. -/
theorem updDist_congr (h : ∀ x, l.dists[d]? = some x → f x = g x) : updDist d f l = updDist d g l := by
  have hd : (updDist d f l).dists = (updDist d g l).dists := by
    refine List.ext_getElem? fun e => ?_
    rw [updDist_dists, updDist_dists]
    split
    · next he =>
      subst he
      cases hx : l.dists[e]? with
      | none => rfl
      | some x => rw [Option.map_some, Option.map_some, h x hx]
    · rfl
  calc updDist d f l = { l with dists := (updDist d f l).dists } := rfl
    _ = updDist d g l := by rw [hd]; rfl

theorem offered_passed (x : Dist) : (offered l x).passed = x.passed := by
  unfold offered
  split <;> rfl

/-- A distributor passed over counts it, and its team blocks the die from the 4096th time on. -/
theorem passOver_dists {x : Dist} (h : l.dists[d]? = some x) :
    (passOver d l).dists[d]? = some { offered l x with passed := x.passed + 1, blocks := x.blocks || decide (4096 ≤ x.passed + 1) } := by
  rw [passOver, updDist_dists, if_pos rfl, h]
  rfl

end Dist

/-! ### Lookups of launches -/

section Launches
variable {s : State}

/-- Where no two live launches share an id, a launch is the one its id names. -/
theorem launch?_of_mem (hn : ((allLaunches s).map Launch.id).Nodup) {x : Launch} (h : x ∈ allLaunches s) : launch? s x.id = some x := by
  cases hf : launch? s x.id with
  | none => exact absurd (List.find?_eq_none.1 hf x h) (by simp)
  | some y =>
    have hy : y.id = x.id := (live_id_of_launch? s hf).2
    rw [List.inj_on_of_nodup_map hn (List.mem_of_find?_eq_some hf) h hy]

/-- The launch in focus may change where its name and life stay. -/
theorem launch?_setFocused {l : Launch} (hi : l.id = s.l.id) {j : Lid} (h : j ≠ s.l.id) :
    launch? { s with l := l } j = launch? s j := by
  rw [launch?_eq, launch?_eq]
  simp [hi, Ne.symm h]

/-- An update of a launch that is not in focus changes the others alone. -/
theorem updLaunch_other {k : Lid} {f : Launch → Launch} (h : k ≠ s.l.id) :
    updLaunch k f s = { s with launches := (updLaunch k f s).launches } := by
  have hc : ¬(s.l.live && decide (s.l.id = k)) = true := by simp [Ne.symm h]
  rw [updLaunch, if_neg hc]

/-! ### Launches passed over -/

/-- A waiting launch passed over on a die. -/
def passedOne (die : Nat) (s : State) (x : Launch) : State := (distOn s die x).elim s fun e => updLaunch x.id (passOver e) s

theorem passedOver_eq_foldl (die : Nat) (s : State) : passedOver die s = (waitsBefore s die s.l).foldl (passedOne die) s := rfl

theorem passedOne_other {die : Nat} {x : Launch} (h : x.id ≠ s.l.id) : ∃ ls, passedOne die s x = { s with launches := ls } := by
  unfold passedOne
  cases distOn s die x with
  | none => exact ⟨s.launches, rfl⟩
  | some e => exact ⟨_, updLaunch_other h⟩

/-- Launches that are not in focus, passed over: the others change alone. -/
theorem foldl_passedOne_other {die : Nat} (xs : List Launch) (h : ∀ x ∈ xs, x.id ≠ s.l.id) :
    ∃ ls, xs.foldl (passedOne die) s = { s with launches := ls } := by
  induction xs generalizing s with
  | nil => exact ⟨s.launches, rfl⟩
  | cons x xs ih =>
    obtain ⟨hx, hxs⟩ := List.forall_mem_cons.1 h
    obtain ⟨ls, hls⟩ := passedOne_other (die := die) hx
    rw [List.foldl_cons, hls]
    exact ih (s := { s with launches := ls }) hxs

/-- The launch in focus is never among those it passes over. -/
theorem passedOver_other (die : Nat) (s : State) : ∃ ls, passedOver die s = { s with launches := ls } :=
  foldl_passedOne_other _ fun _ hx => (mem_waitsBefore hx).2

/-- A launch as a die's placement by a later one leaves it. -/
def passedLaunch (s : State) (die : Nat) (x l : Launch) : Launch := (distOn s die x).elim l fun e => passOver e l

theorem launch?_passedOne (die : Nat) (x : Launch) (j : Lid) :
    launch? (passedOne die s x) j = (launch? s j).map fun l => if j = x.id then passedLaunch s die x l else l := by
  unfold passedOne passedLaunch
  cases distOn s die x with
  | none => simp
  | some e => exact launch?_updLaunch (f := passOver e) (fun _ => rfl) (fun _ => rfl) x.id j

/-- A launch that is not passed over stays as it is. -/
theorem launch?_foldl_passedOne_not_mem {die : Nat} {j : Lid} (xs : List Launch) (h : ∀ x ∈ xs, x.id ≠ s.l.id) (hj : j ∉ xs.map Launch.id) :
    launch? (xs.foldl (passedOne die) s) j = launch? s j := by
  induction xs generalizing s with
  | nil => rfl
  | cons x xs ih =>
    obtain ⟨hx, hxs⟩ := List.forall_mem_cons.1 h
    obtain ⟨hjx, hjxs⟩ := not_or.1 (mt List.mem_cons.2 hj)
    obtain ⟨ls, hls⟩ := passedOne_other (die := die) hx
    rw [List.foldl_cons, ih (by rw [hls]; exact hxs) hjxs, launch?_passedOne]
    simp [hjx]

/-- A launch passed over is passed over once. -/
theorem launch?_foldl_passedOne_mem {die : Nat} {x : Launch} (xs : List Launch) (h : ∀ x ∈ xs, x.id ≠ s.l.id)
    (hn : (xs.map Launch.id).Nodup) (hx : x ∈ xs) :
    launch? (xs.foldl (passedOne die) s) x.id = (launch? s x.id).map (passedLaunch s die x) := by
  induction xs generalizing s with
  | nil => cases hx
  | cons y ys ih =>
    obtain ⟨hy, hys⟩ := List.forall_mem_cons.1 h
    obtain ⟨hny, hnys⟩ := List.nodup_cons.1 hn
    obtain ⟨ls, hls⟩ := passedOne_other (die := die) hy
    have hfocus : ∀ z ∈ ys, z.id ≠ (passedOne die s y).l.id := by rw [hls]; exact hys
    rw [List.foldl_cons]
    rcases List.mem_cons.1 hx with rfl | hx
    · rw [launch?_foldl_passedOne_not_mem ys hfocus hny, launch?_passedOne]
      simp only [if_true]
    · have hne : x.id ≠ y.id := fun e => hny (e ▸ List.mem_map_of_mem hx)
      have hdist : passedLaunch (passedOne die s y) die x = passedLaunch s die x := by rw [hls]; rfl
      rw [ih hfocus hnys hx, hdist, launch?_passedOne]
      simp [hne]

/-- Each launch that waits on the die before the one in focus is passed over once, and no other. -/
theorem launch?_passedOver (hn : ((allLaunches s).map Launch.id).Nodup) (die : Nat) {x : Launch} (hx : x ∈ allLaunches s) :
    launch? (passedOver die s) x.id = some
      (if (waitsBefore s die s.l).contains x then (distOn s die x).elim x fun e => passOver e x else x) := by
  have hfocus : ∀ y ∈ waitsBefore s die s.l, y.id ≠ s.l.id := fun y hy => (mem_waitsBefore hy).2
  rw [passedOver_eq_foldl]
  by_cases hw : x ∈ waitsBefore s die s.l
  · have hnw : ((waitsBefore s die s.l).map Launch.id).Nodup := hn.sublist (List.filter_sublist.map _)
    rw [launch?_foldl_passedOne_mem _ hfocus hnw hw, launch?_of_mem hn hx, if_pos (List.contains_iff_mem.2 hw)]
    rfl
  · have hid : x.id ∉ (waitsBefore s die s.l).map Launch.id := by
      intro h
      obtain ⟨y, hy, hyx⟩ := List.mem_map.1 h
      exact hw (List.inj_on_of_nodup_map hn (mem_waitsBefore hy).1 hx hyx ▸ hy)
    rw [launch?_foldl_passedOne_not_mem _ hfocus hid, launch?_of_mem hn hx, if_neg (mt List.contains_iff_mem.1 hw)]

/-- Several placements, one after another. -/
theorem foldl_passedOver_other (cores : List Nat) (s : State) :
    ∃ ls, cores.foldl (fun s c => passedOver (dieOf c) s) s = { s with launches := ls } := by
  induction cores generalizing s with
  | nil => exact ⟨s.launches, rfl⟩
  | cons c cores ih =>
    obtain ⟨ls, hls⟩ := passedOver_other (dieOf c) s
    rw [List.foldl_cons, hls]
    exact ih { s with launches := ls }

end Launches

end Sys2Proof.Machine
end

