-- ==== Sys2Proof/Proofs/Placements.lean ====
section
/-!
SUPPORT. Placement, reservation and stealing: what each event does where its conditions hold (O49).
-/
namespace Sys2Proof.Machine

/-! ### A group as it starts -/

theorem getElem!_replicate {α : Type} [Inhabited α] {n i : Nat} (x : α) (h : i < n) : (Vector.replicate n x)[i]! = x := by
  rw [getElem!_pos (Vector.replicate n x) i h, Vector.getElem_replicate]

section Start
variable (l : Launch) (t : Tid) (block regs slot tick n : Nat)

/-- The scalar registers of a group that starts: s0 holds the arguments, s62 every lane (R16). -/
theorem newGroup_s : (newGroup l t block regs slot tick n).s = ((Vector.replicate 64 0).set! 0 l.args).set! 62 0xFFFFFFFF := rfl

theorem getS_newGroup_zero : getS (newGroup l t block regs slot tick n) 0 = l.args := by
  rw [getS, if_neg (by decide), newGroup_s]
  simp

theorem exm_newGroup : exm (newGroup l t block regs slot tick n) = 0xFFFFFFFF := by
  rw [exm, newGroup_s]
  simp

theorem getS_newGroup_other {j : Nat} (h0 : 0 < j) (h : j < 62) : getS (newGroup l t block regs slot tick n) j = 0 := by
  have hj : j % 64 = j := Nat.mod_eq_of_lt (by omega)
  rw [getS, hj, if_neg (by omega), newGroup_s, getElem!_pos _ _ (by omega)]
  simp [h0.ne, h.ne']

theorem getP_newGroup {j : Nat} (h : j < 7) : getP (newGroup l t block regs slot tick n) j = 0 := by
  have hj : j % 8 = j := Nat.mod_eq_of_lt (by omega)
  rw [getP, hj, if_neg (by omega)]
  exact getElem!_replicate 0 (by omega)

theorem getK_newGroup {j : Nat} (h : j < 7) : getK (newGroup l t block regs slot tick n) j = false := by
  have hj : j % 8 = j := Nat.mod_eq_of_lt (by omega)
  rw [getK, hj, if_neg (by omega)]
  exact getElem!_replicate false (by omega)

theorem getN_newGroup (j : Nat) : getN (newGroup l t block regs slot tick n) j = 0 := getElem!_replicate 0 (Nat.mod_lt j (by decide))

theorem getLane_newGroup (j i : Nat) : getLane (newGroup l t block regs slot tick n) j i = 0 := by
  have hv : getV (newGroup l t block regs slot tick n) j = Vector.replicate 32 0 := getElem!_replicate _ (Nat.mod_lt j (by decide))
  rw [getLane, hv]
  exact getElem!_replicate 0 (Nat.mod_lt i (by decide))

theorem getA_newGroup (j i : Nat) : getA (newGroup l t block regs slot tick n) j i = 0 := by
  have ha : (newGroup l t block regs slot tick n).acc[j % 64]! = Vector.replicate 32 0 := getElem!_replicate _ (Nat.mod_lt j (by decide))
  rw [getA, ha]
  exact getElem!_replicate 0 (Nat.mod_lt i (by decide))

theorem getMap_newGroup (j : Nat) : getMap (newGroup l t block regs slot tick n) j = 0 := by
  rw [getMap]
  split
  · rfl
  · split
    · next h => exact getElem!_replicate 0 h
    · rfl

end Start

/-! ### A team placed -/

section Place
variable {k : Lid} {s : State} {d core : Nat}

/-- TEAM_PLACE for the launch in focus. -/
theorem execTeamPlace_here (hh : launchHere k s) : execTeamPlace k d core s =
    if offers s.l && !s.l.cohort && turnOn s (dieOfDist s d) s.l then
      match nextTeam s.l d, (if heldBack s s.l then none else blockFor s s.l (distCores s.p d) core) with
      | some i, some b => .next (placed d (placeTeam i core b s))
      | _, _ => .next { s with l := if placeable s d s.l then s.l else updDist d (offered s.l) s.l }
    else .next s := by
  obtain ⟨hl, hk, hp, hr⟩ := hh
  rw [execTeamPlace, focusPart_here hp, focusLaunch_here hl hk]
  exact if_congr (by simp only [hl, hk, hp.1, hp.2, hr, decide_true, Bool.and_self, Bool.true_and]) rfl rfl

/-- A launch held back by one that waits for its reservation places no team; its distributor may have offered one. -/
theorem execTeamPlace_heldBack (hh : launchHere k s) (hb : heldBack s s.l = true) :
    ∃ l, execTeamPlace k d core s = .next { s with l := l } ∧ (l = s.l ∨ l = updDist d (offered s.l) s.l) := by
  rw [execTeamPlace_here hh, if_pos hb]
  split
  · refine ⟨if placeable s d s.l then s.l else updDist d (offered s.l) s.l, ?_, ?_⟩
    · cases nextTeam s.l d <;> rfl
    · split
      · exact .inl rfl
      · exact .inr rfl
  · exact ⟨s.l, rfl, .inl rfl⟩

/-- The bookkeeping of a placement: the launch's distributor moves on, and the launches that it passed over have changed. -/
theorem placed_eq (d : Nat) (s : State) : ∃ ls, placed d s = { s with launches := ls, l := updDist d (tookTeam s.l) s.l } := by
  obtain ⟨ls, hls⟩ := passedOver_other (dieOfDist s d) s
  refine ⟨ls, ?_⟩
  rw [placed, hls]

theorem launch?_placed {x : Launch} (h : x.id ≠ s.l.id) (d : Nat) : launch? (placed d s) x.id = launch? (passedOver (dieOfDist s d) s) x.id := by
  obtain ⟨ls, hls⟩ := passedOver_other (dieOfDist s d) s
  rw [placed, hls]
  exact launch?_setFocused (s := { s with launches := ls }) (l := updDist d (tookTeam s.l) s.l) rfl h

/-! ### A cohort placed -/

/-- The teams of a cohort placed one by one: the teams and groups change alone, the teams by those placed. -/
theorem placeAll_eq {floor : Bool} {xs : List (Nat × Nat)} {s u : State} (h : placeAll floor xs s = some u) :
    ∃ ts gs, u = { s with teams := ts, groups := gs } ∧
      ts.map (fun t => (t.id, t.core)) = s.teams.map (fun t => (t.id, t.core)) ++ xs.map fun x => (⟨s.l.id, x.1⟩, x.2) := by
  induction xs generalizing s with
  | nil => exact ⟨s.teams, s.groups, (Option.some.inj h).symm, by simp⟩
  | cons x xs ih =>
    obtain ⟨i, c⟩ := x
    rw [placeAll] at h
    cases hb : cohortBlock floor s c with
    | none => simp [hb] at h
    | some b =>
      simp only [hb] at h
      obtain ⟨ts, gs, hu, hts⟩ := ih h
      refine ⟨ts, gs, hu, hts.trans ?_⟩
      simp [placeTeam, newTeam]

theorem placeCohort_eq {xs : List (Nat × Nat)} {s u : State} (h : placeCohort xs s = some u) :
    ∃ ts gs, u = { s with teams := ts, groups := gs } ∧
      ts.map (fun t => (t.id, t.core)) = s.teams.map (fun t => (t.id, t.core)) ++ xs.map fun x => (⟨s.l.id, x.1⟩, x.2) := by
  rw [placeCohort] at h
  split at h
  · next hp => exact placeAll_eq (hp.trans h)
  · exact placeAll_eq h

/-- COHORT_PLACEMENT where the launch in focus takes its turn on every die of its partition. -/
theorem execCohortPlacement_here {cores : List Nat} (hh : launchHere k s) (hc : s.l.code_ = none) (hd : s.l.held = false)
    (hr : s.l.reserved = true) (hco : s.l.cohort = true) (hpl : s.l.placedAll = false) (ht : ∀ x ∈ distDies s.p, turnOn s x s.l = true)
    (hlen : cores.length = (domainTeams s.l).length) (hmem : ∀ x ∈ (domainTeams s.l).zip cores, x.2 ∈ cohortCores s.p s.l x.1) {u : State}
    (hu : placeCohort ((domainTeams s.l).zip cores) s = some u) :
    execCohortPlacement k cores s =
      let v := cores.foldl (fun s c => passedOver (dieOf c) s) u
      .next { v with l := { v.l with
        placedAll := true, dists := v.l.dists.map fun d => { d with chunks := [], now := [], passed := 0, blocks := false } } } := by
  obtain ⟨hl, hk, hp, hrun⟩ := hh
  have hzip : (((domainTeams s.l).zip cores).all fun x => (cohortCores s.p s.l x.1).contains x.2) = true :=
    List.all_eq_true.2 fun x hx => List.contains_iff_mem.2 (hmem x hx)
  have hturn : ((distDies s.p).all fun x => turnOn s x s.l) = true := List.all_eq_true.2 ht
  rw [execCohortPlacement, focusPart_here hp, focusLaunch_here hl hk]
  simp only [hl, hk, hp.1, hp.2, hrun, hco, hpl, hr, hd, hc, hlen, hzip, hturn, hu, decide_true, Bool.and_self, Bool.not_false,
    Option.isNone_none, if_true]

/-! ### Reservation -/

/-- LOFT_YARD_RESERVE for the launch in focus. -/
theorem execLoftYardReserve_here (hh : launchHere k s) : execLoftYardReserve k s =
    if waitsReserve s.l && !heldBack s s.l && ((partClusters s.p).all fun c => decide (loftUsed s k.part c + s.l.kern.loft ≤ loftCap)) &&
        ((distDies s.p).all fun x => decide (yardUsed s k.part x + s.l.kern.yard ≤ yardCap s.p x)) then
      .next { s with l := { s.l with reserved := true } }
    else .next s := by
  obtain ⟨hl, hk, hp, -⟩ := hh
  rw [execLoftYardReserve, focusPart_here hp, focusLaunch_here hl hk]
  simp only [hl, hk, hp.1, hp.2, decide_true, Bool.and_self, Bool.true_and]

/-! ### Stealing -/

/-- A victim grants chunks where it has at least two. -/
theorem stealFrom_eq {y : Dist} (h : 2 ≤ y.chunks.length) : stealFrom y =
    some (y.chunks.drop (y.chunks.length - y.chunks.length / 2),
      { y with chunks := y.chunks.take (y.chunks.length - y.chunks.length / 2),
               own := y.own.filter fun c => !(y.chunks.drop (y.chunks.length - y.chunks.length / 2)).contains c }) := if_pos h

theorem two_le_of_stealVictim {ds : List Dist} {v : Nat} {y : Dist} (h : stealVictim ds d = some v) (hy : ds[v]? = some y) :
    2 ≤ y.chunks.length := by
  have hs := List.find?_some h
  rw [hy, Option.any_some, stealFrom] at hs
  split at hs
  · assumption
  · cases hs

/-- DISTRIBUTOR_STEAL for an idle distributor of the launch in focus. -/
theorem execDistributorSteal_here {x : Dist} (hh : launchHere k s) (hx : s.l.dists[d]? = some x) (he : x.chunks = []) (hst : x.stopped = false)
    (ha : allIssued s.l = false) : execDistributorSteal k d s =
    match stealVictim s.l.dists d with
    | none => .next { s with l := updDist d (fun x => { x with stopped := true }) s.l }
    | some v =>
      match (s.l.dists[v]?).bind stealFrom with
      | none => .next s
      | some (got, rest) =>
        .next { s with l := updDist d (fun x => { x with chunks := got, own := x.own ++ got }) (updDist v (fun _ => rest) s.l) } := by
  obtain ⟨hl, hk, -⟩ := hh
  rw [execDistributorSteal, focusLaunch_here hl hk]
  exact if_pos (by simp [hl, hk, hx, he, hst, ha])

/-- The thief and the victim after a steal. -/
theorem execDistributorSteal_victim {x y : Dist} {v : Nat} (hh : launchHere k s) (hx : s.l.dists[d]? = some x) (he : x.chunks = [])
    (hst : x.stopped = false) (ha : allIssued s.l = false) (hv : stealVictim s.l.dists d = some v) (hy : s.l.dists[v]? = some y) :
    let n := y.chunks.length - y.chunks.length / 2
    let l := updDist v (fun z => { z with chunks := y.chunks.take n, own := y.own.filter fun c => !(y.chunks.drop n).contains c }) s.l
    execDistributorSteal k d s =
      .next { s with l := updDist d (fun z => { z with chunks := y.chunks.drop n, own := x.own ++ y.chunks.drop n }) l } := by
  have h2 := two_le_of_stealVictim hv hy
  have hvd : d ≠ v := by
    rintro rfl
    obtain rfl : x = y := Option.some.inj (hx.symm.trans hy)
    simp [he] at h2
  rw [execDistributorSteal_here hh hx he hst ha, hv]
  dsimp only
  rw [hy, Option.bind_some, stealFrom_eq h2]
  dsimp only
  congr 2
  rw [updDist_congr (d := v) (l := s.l) (f := fun _ => _) (g := fun z => { z with
    chunks := y.chunks.take (y.chunks.length - y.chunks.length / 2)
    own := y.own.filter fun c => !(y.chunks.drop (y.chunks.length - y.chunks.length / 2)).contains c })
    (fun z hz => by rw [Option.some.inj (hz.symm.trans hy)])]
  refine updDist_congr fun z hz => ?_
  rw [updDist_dists, if_neg hvd] at hz
  rw [Option.some.inj (hz.symm.trans hx)]

/-! ### Starvation -/

/-- PLACEMENT_STARVATION for the launch in focus. -/
theorem execPlacementStarvation_here {x : Dist} (hh : launchHere k s) (hw : waitsHere d s.l = true) (hx : s.l.dists[d]? = some x)
    (hp : 4096 ≤ x.passed) :
    execPlacementStarvation k d s = .next { s with l := updDist d (fun x => { x with blocks := true }) s.l } := by
  obtain ⟨hl, hk, hpart, -⟩ := hh
  rw [execPlacementStarvation, focusPart_here hpart, focusLaunch_here hl hk]
  simp only [hl, hk, hpart.1, hpart.2, hw, hx, hp, decide_true, Bool.and_self, Option.any_some, if_true]

end Place

/-- Settles O49: the turn on a die, the lookups after a launch is passed over, and one lemma for each event. -/
theorem placement : Obligations.Placement := by
  intro k s d here die kept could turn
  have hturn : launchHere k s → ∀ x, turnOn s x s.l = true ↔ turn x := by
    intro hh x
    have hk : s.l.id = k := hh.2.1
    rw [turnOn_iff, OnTurn, hk]
    rfl
  refine ⟨?_, ?_, ?_, ?_, ?_, fun _ _ => blocker_first, fun hn die x hx _ => launch?_passedOver hn die hx, ?_, ?_, ?_, ?_, ?_⟩
  · rintro i core b ⟨hh, hc, hd, hr⟩ hco ht hb hi hbl
    obtain ⟨ls, hls⟩ := placed_eq d (placeTeam i core b s)
    have hk : s.l.id = k := hh.2.1
    refine ⟨placed d (placeTeam i core b s), ?_, ?_, ?_, ?_, ?_, ?_⟩
    · have ht' : turnOn s (dieOfDist s d) s.l = true := (hturn hh die).2 ht
      refine (execTeamPlace_here hh).trans ?_
      simp only [offers, hh.1, hr, hd, hc, hco, ht', hb, hi, hbl, Bool.and_self, Bool.not_false, Option.isNone_none, if_true]
      rfl
    · rw [hls, ← hk]
      rfl
    · rw [hls, ← hk]
      rfl
    · rw [hls]
      rfl
    · rw [hls]
      rfl
    · intro hn x hx hne
      rw [← hk] at hne
      rw [launch?_placed (s := placeTeam i core b s) hne]
      exact launch?_passedOver (s := placeTeam i core b s) hn die hx
  · intro l e x hx
    rw [passOver_dists hx]
    simp only [Option.any_some, decide_eq_true_eq, Bool.or_eq_true, true_and]
    exact ⟨Or.inr, Or.inl⟩
  · intro core hh ht
    refine (execTeamPlace_here hh).trans ?_
    rw [← hturn hh, Bool.not_eq_true] at ht
    simp only [show turnOn s (dieOfDist s d) s.l = false from ht, Bool.and_false]
    rfl
  · rintro core ⟨hh, -⟩ hb
    exact execTeamPlace_heldBack hh hb
  · intro n t block regs slot
    exact ⟨getS_newGroup_zero .., exm_newGroup .., fun j h0 h => getS_newGroup_other _ _ _ _ _ _ _ h0 h,
      fun j hj => ⟨getP_newGroup _ _ _ _ _ _ _ hj, getK_newGroup _ _ _ _ _ _ _ hj⟩, getN_newGroup _ _ _ _ _ _ _,
      fun j i => ⟨getLane_newGroup .., getA_newGroup ..⟩, getMap_newGroup _ _ _ _ _ _ _, rfl, rfl, rfl, rfl, rfl, rfl, rfl⟩
  · rintro cores u ⟨hh, hc, hd, hr⟩ hco hpl ht hlen hmem hu
    have hk : s.l.id = k := hh.2.1
    obtain ⟨ts, gs, hus, hts⟩ := placeCohort_eq hu
    obtain ⟨ls, hls⟩ := foldl_passedOver_other cores u
    refine ⟨?_, ?_, ?_, ?_⟩
    · refine (execCohortPlacement_here hh hc hd hr hco hpl (fun x hx => (hturn hh x).2 (ht x hx)) hlen hmem hu).trans ?_
      rw [hls]
    · rw [hls]
    · rw [hus]
    · rw [hus, ← hk]
      exact hts
  · intro hh hw hb hloft hyard
    refine (execLoftYardReserve_here hh).trans (if_pos ?_)
    simp only [hw, hb, Bool.and_eq_true, List.all_eq_true, decide_eq_true_eq, Bool.not_false, true_and]
    exact ⟨hloft, hyard⟩
  · intro hh hb
    refine (execLoftYardReserve_here hh).trans (if_neg ?_)
    simp [hb]
  · intro x v y hh hx he hst ha
    refine ⟨fun hv => ?_, fun hv hy => ⟨two_le_of_stealVictim hv hy, execDistributorSteal_victim hh hx he hst ha hv hy⟩⟩
    refine (execDistributorSteal_here hh hx he hst ha).trans ?_
    rw [hv]
  · exact fun x hh hw hx hp => execPlacementStarvation_here hh hw hx hp

end Sys2Proof.Machine
end

