-- ==== Sys2Proof/Proofs/Registers.lean ====
section
/-!
SUPPORT. What a register reads after a write to it and after a write to another one (R44, R45, R47, R64), and the registers that discard writes
(O39). Register numbers count modulo the size of their file, as the accessors take them.
-/
namespace Sys2Proof.Machine

/-! ### An entry of a register file -/

theorem getElem!_set!_self {α : Type} [Inhabited α] {n i : Nat} (v : Vector α n) (x : α) (h : i < n) : (v.set! i x)[i]! = x := by
  rw [getElem!_pos _ i h, Vector.getElem_set!_self h]

theorem getElem!_set!_ne {α : Type} [Inhabited α] {n i j : Nat} (v : Vector α n) (x : α) (h : j ≠ i) : (v.set! i x)[j]! = v[j]! := by
  rw [getElem!_def, getElem!_def, Vector.getElem?_set!_ne h.symm]

/-- Numbers within a file of `k` registers name different ones where they differ. -/
theorem mod_ne_mod {k m n : Nat} (hm : m < k) (hn : n < k) (h : m ≠ n) : m % k ≠ n % k := by
  rwa [Nat.mod_eq_of_lt hm, Nat.mod_eq_of_lt hn]

variable (g : Group) {m n i j : Nat}

/-! ### Scalars -/

/-- The bits of a written value that a scalar register keeps: 31:0 of s62, 8:0 of s60 and all of the others. -/
def keptS (n : Nat) (x : W64) : W64 := if n = 62 then x &&& 0xFFFFFFFF else if n = 60 then x &&& 0x1FF else x

theorem getS_wired (h : n % 64 = 63) : getS g n = 0 := if_pos h

theorem setS_wired (h : n % 64 = 63) (x : W64) : setS g n x = g := if_pos h

theorem setS_unwired (h : n % 64 ≠ 63) (x : W64) : setS g n x = { g with s := g.s.set! (n % 64) (keptS (n % 64) x) } := if_neg h

theorem getS_setS_self (h : n % 64 ≠ 63) (x : W64) : getS (setS g n x) n = keptS (n % 64) x := by
  rw [getS, if_neg h, setS_unwired g h]
  exact getElem!_set!_self _ _ (Nat.mod_lt n (by decide))

theorem getS_setS_ne (h : m % 64 ≠ n % 64) (x : W64) : getS (setS g n x) m = getS g m := by
  by_cases hn : n % 64 = 63
  · rw [setS_wired g hn]
  · rw [setS_unwired g hn, getS, getS]
    dsimp only
    rw [getElem!_set!_ne _ _ h]

/-! ### Predicates -/

theorem getP_wired (h : n % 8 = 7) : getP g n = 0xFFFFFFFF := if_pos h

theorem setP_wired (h : n % 8 = 7) (x : W32) : setP g n x = g := if_pos h

theorem setP_unwired (h : n % 8 ≠ 7) (x : W32) : setP g n x = { g with p := g.p.set! (n % 8) x } := if_neg h

theorem getP_setP_self (h : n % 8 ≠ 7) (x : W32) : getP (setP g n x) n = x := by
  rw [getP, if_neg h, setP_unwired g h]
  exact getElem!_set!_self _ _ (Nat.mod_lt n (by decide))

theorem getP_setP_ne (h : m % 8 ≠ n % 8) (x : W32) : getP (setP g n x) m = getP g m := by
  by_cases hn : n % 8 = 7
  · rw [setP_wired g hn]
  · rw [setP_unwired g hn, getP, getP]
    dsimp only
    rw [getElem!_set!_ne _ _ h]

/-! ### Conditions -/

theorem getK_wired (h : n % 8 = 7) : getK g n = true := if_pos h

theorem setK_wired (h : n % 8 = 7) (x : Bool) : setK g n x = g := if_pos h

theorem setK_unwired (h : n % 8 ≠ 7) (x : Bool) : setK g n x = { g with k := g.k.set! (n % 8) x } := if_neg h

theorem getK_setK_self (h : n % 8 ≠ 7) (x : Bool) : getK (setK g n x) n = x := by
  rw [getK, if_neg h, setK_unwired g h]
  exact getElem!_set!_self _ _ (Nat.mod_lt n (by decide))

theorem getK_setK_ne (h : m % 8 ≠ n % 8) (x : Bool) : getK (setK g n x) m = getK g m := by
  by_cases hn : n % 8 = 7
  · rw [setK_wired g hn]
  · rw [setK_unwired g hn, getK, getK]
    dsimp only
    rw [getElem!_set!_ne _ _ h]

/-! ### Loop counters, vectors and accumulators: none is wired -/

@[simp] theorem getN_setN_self (n : Nat) (x : W32) : getN (setN g n x) n = x := getElem!_set!_self _ _ (Nat.mod_lt n (by decide))

theorem getN_setN_ne (h : m % 4 ≠ n % 4) (x : W32) : getN (setN g n x) m = getN g m := getElem!_set!_ne _ _ h

@[simp] theorem getV_setV_self (n : Nat) (x : VReg) : getV (setV g n x) n = x := getElem!_set!_self _ _ (Nat.mod_lt n (by decide))

theorem getV_setV_ne (h : m % 256 ≠ n % 256) (x : VReg) : getV (setV g n x) m = getV g m := getElem!_set!_ne _ _ h

/-- The accumulator that a write of one of its containers leaves. -/
theorem setA_acc_self (n i : Nat) (x : W64) : (setA g n i x).acc[n % 64]! = (g.acc[n % 64]!).set! (i % 32) x :=
  getElem!_set!_self _ _ (Nat.mod_lt n (by decide))

@[simp] theorem getA_setA_self (n i : Nat) (x : W64) : getA (setA g n i x) n i = x := by
  rw [getA, setA_acc_self]
  exact getElem!_set!_self _ _ (Nat.mod_lt i (by decide))

theorem getA_setA_ne_acc (h : m % 64 ≠ n % 64) (i j : Nat) (x : W64) : getA (setA g n i x) m j = getA g m j := by
  have hacc : (setA g n i x).acc[m % 64]! = g.acc[m % 64]! := getElem!_set!_ne _ _ h
  rw [getA, hacc, getA]

theorem getA_setA_ne_container (n : Nat) (h : j % 32 ≠ i % 32) (x : W64) : getA (setA g n i x) n j = getA g n j := by
  rw [getA, setA_acc_self, getElem!_set!_ne _ _ h, getA]

/-! ### The statement -/

/-- Settles O39, by the rules of each register file: the wired ones, the register written and the others. -/
theorem wiredRegisters : Obligations.WiredRegisters := by
  unfold Obligations.WiredRegisters
  intro g
  refine ⟨getS_wired g rfl, setS_wired g rfl, getP_wired g rfl, setP_wired g rfl, getK_wired g rfl, setK_wired g rfl, ?_⟩
  refine ⟨?s_self, ?s_ne, ?p_self, ?p_ne, ?k_self, ?k_ne, ?n_self, ?n_ne, ?v_self, ?v_ne, ?a_self, ?a_ne⟩
  case s_self =>
    intro n x hn
    have h := getS_setS_self g (n := n) (by omega) x
    rwa [Nat.mod_eq_of_lt (show n < 64 by omega)] at h
  case s_ne => exact fun _ _ x hm hn h => getS_setS_ne g (mod_ne_mod hm hn h) x
  case p_self => exact fun _ x hn => getP_setP_self g (by omega) x
  case p_ne => exact fun _ _ x hm hn h => getP_setP_ne g (mod_ne_mod hm hn h) x
  case k_self => exact fun _ x hn => getK_setK_self g (by omega) x
  case k_ne => exact fun _ _ x hm hn h => getK_setK_ne g (mod_ne_mod hm hn h) x
  case n_self => exact fun n x _ => getN_setN_self g n x
  case n_ne => exact fun _ _ x hm hn h => getN_setN_ne g (mod_ne_mod hm hn h) x
  case v_self => exact fun n x _ => getV_setV_self g n x
  case v_ne => exact fun _ _ x hm hn h => getV_setV_ne g (mod_ne_mod hm hn h) x
  case a_self => exact fun n i x _ _ => getA_setA_self g n i x
  case a_ne =>
    intro n i m j x hn hi hm hj h
    by_cases hmn : m = n
    · subst hmn
      have hji : j ≠ i := h.resolve_left (not_not_intro rfl)
      exact getA_setA_ne_container g m (mod_ne_mod hj hi hji) x
    · exact getA_setA_ne_acc g (mod_ne_mod hm hn hmn) i j x

end Sys2Proof.Machine
end

