-- ==== Sys2Proof/Proofs/IntegerReductions.lean ====
section
/-!
SUPPORT. Reductions and scans over the lane tree, for the operations that associate (R91): every node has the join of the lanes it spans, so that
the tree's shape does not show (O15).
-/
namespace Sys2Proof.Machine

/-! ### The integer operations associate -/

/-- Reading a wrapped pattern gives the integer back up to a multiple of 2^w. -/
theorem intRead_intWrap_emod (w : Nat) (sgn : Bool) (v : Int) : intRead w sgn (intWrap w v) % (2 ^ w : Nat) = v % (2 ^ w : Nat) := by
  have hpos : (0 : Int) < (2 ^ w : Nat) := by positivity
  have hwrap : ((intWrap w v % 2 ^ w : Nat) : Int) = v % (2 ^ w : Nat) := by
    rw [Int.natCast_mod, intWrap, Int.toNat_of_nonneg (Int.emod_nonneg v hpos.ne'), Int.emod_emod]
  unfold intRead
  dsimp only
  rw [hwrap]
  split
  · rw [Int.sub_emod_right, Int.emod_emod]
  · exact Int.emod_emod v _

/-- Sums that agree modulo 2^w wrap to one pattern. -/
theorem intWrap_congr {w : Nat} {u v : Int} (h : u % (2 ^ w : Nat) = v % (2 ^ w : Nat)) : intWrap w u = intWrap w v := by
  rw [intWrap, intWrap, h]

theorem intWrap_add_assoc (w : Nat) (sgn : Bool) (a b c : Int) :
    intWrap w (intRead w sgn (intWrap w (a + b)) + c) = intWrap w (a + intRead w sgn (intWrap w (b + c))) := by
  apply intWrap_congr
  rw [Int.add_emod, intRead_intWrap_emod, ← Int.add_emod, Int.add_emod a, intRead_intWrap_emod, ← Int.add_emod, Int.add_assoc]

/-- The value of a combination of two operands, without its flags. -/
def opVal (op : Nat → Nat → Nat × Flags) (x y : Nat) : Nat := (op x y).1

/-- Every integer operation associates without saturation: the wrapped sum, the first of the least and the last of the greatest, and the
bitwise ones. -/
theorem opVal_combineI_assoc (t : Ty) (op : Nat) : Std.Associative (opVal (combineI t false op)) where
  assoc x y z :=
    match op with
    | 0 => intWrap_add_assoc t.bits t.signed _ _ _
    | 1 | 2 => by
      simp only [opVal, combineI, apply_ite (intRead t.bits t.signed)]
      grind
    | 3 => Nat.land_assoc x y z
    | 4 => Nat.lor_assoc x y z
    | _ + 5 => Nat.xor_assoc x y z

/-! ### The tree's nodes are joins of runs of lanes -/

section Tree

variable (f : Nat → Nat → Nat)

/-- The present ones of some values, joined in ascending order. -/
def joinVals (vs : List (Option Nat)) : Option Nat := vs.foldl (Option.merge f) none

/-- The values that node `j` of level `l` stands for: 2^l lanes from j · 2^l on (R91). -/
def nodeSpan (vs : List (Option Nat)) (l j : Nat) : List (Option Nat) := (vs.drop (j * 2 ^ l)).take (2 ^ l)

/-- The value of a node, without its flags. -/
def nodeVal (x : Node) : Option Nat := x.map Prod.fst

theorem joinVals_append [Std.Associative f] (us vs : List (Option Nat)) :
    joinVals f (us ++ vs) = Option.merge f (joinVals f us) (joinVals f vs) := by
  calc (us ++ vs).foldl (Option.merge f) none
    _ = vs.foldl (Option.merge f) (Option.merge f (joinVals f us) none) := by rw [List.foldl_append, Option.merge_none_right, joinVals]
    _ = Option.merge f (joinVals f us) (joinVals f vs) := List.foldl_assoc

/-- A span of level l + 1 is the two spans of level l below it, one after the other. -/
theorem nodeSpan_succ (vs : List (Option Nat)) (l j : Nat) :
    nodeSpan vs (l + 1) j = nodeSpan vs l (2 * j) ++ nodeSpan vs l (2 * j + 1) := by
  have hfirst : j * 2 ^ (l + 1) = 2 * j * 2 ^ l := by ring
  have hlen : 2 ^ (l + 1) = 2 ^ l + 2 ^ l := by ring
  have hsecond : (2 * j + 1) * 2 ^ l = 2 * j * 2 ^ l + 2 ^ l := by ring
  rw [nodeSpan, nodeSpan, nodeSpan, hfirst, hsecond, hlen, List.take_add, List.drop_drop]

/-- The lanes before a span, and then the span. -/
theorem take_append_nodeSpan (vs : List (Option Nat)) (l j : Nat) :
    vs.take (j * 2 ^ l) ++ nodeSpan vs l j = vs.take ((j + 1) * 2 ^ l) := by
  rw [nodeSpan, ← List.take_add, Nat.succ_mul]

/-- A lane's value is the join of the run of that one lane. -/
theorem joinVals_take_one_drop (vs : List (Option Nat)) (j : Nat) : joinVals f ((vs.drop j).take 1) = vs.getD j none := by
  induction vs generalizing j with
  | nil => rw [List.drop_nil]; rfl
  | cons v vs ih =>
    cases j with
    | zero => exact Option.merge_none_left
    | succ j => exact ih j

/-- The fold over the values present, as the obligation writes it, is the join. -/
theorem foldl_present (vs : List (Option Nat)) (a : Option Nat) :
    (vs.filterMap id).foldl (fun a x => some (a.elim x fun b => f b x)) a = vs.foldl (Option.merge f) a := by
  induction vs generalizing a with
  | nil => rfl
  | cons v vs ih =>
    cases v with
    | none => rw [List.filterMap_cons_none rfl, ih, List.foldl_cons, Option.merge_none_right]
    | some x =>
      have hstep : some (a.elim x fun b => f b x) = Option.merge f a (some x) := by cases a <;> rfl
      rw [List.filterMap_cons_some (f := id) rfl, List.foldl_cons, hstep, ih, List.foldl_cons]

end Tree

section Levels

variable (op : Nat → Nat → Nat × Flags)

@[simp] theorem nodeVal_nodeCombine (l r : Node) :
    nodeVal (nodeCombine op l r) = Option.merge (opVal op) (nodeVal l) (nodeVal r) := by
  cases l <;> cases r <;> rfl

/-- A node of the next level combines the nodes 2j and 2j + 1 of this one (R91). -/
theorem nodeVal_treeLevel (xs : List Node) (j : Nat) : nodeVal ((treeLevel op xs).getD j none) =
    Option.merge (opVal op) (nodeVal (xs.getD (2 * j) none)) (nodeVal (xs.getD (2 * j + 1) none)) := by
  induction xs using treeLevel.induct generalizing j with
  | case1 a b rest ih =>
    cases j with
    | zero => exact nodeVal_nodeCombine op a b
    | succ j => exact ih j
  | case2 a =>
    cases j with
    | zero => exact (Option.merge_none_right).symm
    | succ j => rfl
  | case3 => rfl

/-- Level l of the tree is the step from level to level, taken l times. -/
theorem treeLevels_getD {n l : Nat} (h : l ≤ n) (xs : List Node) : (treeLevels op n xs).getD l [] = (treeLevel op)^[l] xs := by
  induction l generalizing n xs with
  | zero => cases n <;> rfl
  | succ l ih =>
    obtain ⟨n, rfl⟩ : ∃ k, n = k + 1 := ⟨n - 1, by omega⟩
    exact ih (by omega) (treeLevel op xs)

variable [Std.Associative (opVal op)]

/-- A node of the tree has the join of the lanes that it spans. -/
theorem nodeVal_level (xs : List Node) (l j : Nat) :
    nodeVal (((treeLevel op)^[l] xs).getD j none) = joinVals (opVal op) (nodeSpan (xs.map nodeVal) l j) := by
  induction l generalizing j with
  | zero =>
    rw [nodeSpan, pow_zero, mul_one, joinVals_take_one_drop]
    exact (List.getD_map xs none nodeVal).symm
  | succ l ih => rw [Function.iterate_succ_apply', nodeVal_treeLevel, ih, ih, nodeSpan_succ, joinVals_append]

/-- The root spans all 32 lanes. -/
theorem nodeVal_treeReduce {xs : List Node} (h : xs.length = 32) : nodeVal (treeReduce op xs) = joinVals (opVal op) (xs.map nodeVal) := by
  have hall : nodeSpan (xs.map nodeVal) 5 0 = xs.map nodeVal :=
    (congrArg _ List.drop_zero).trans (List.take_of_length_le (by simp [h]))
  rw [treeReduce, treeLevels_getD op le_rfl, nodeVal_level, hall]

/-- One node taken into a scan extends the lanes joined by the node's span. -/
theorem nodeVal_scan_take (xs : List Node) {l j : Nat} (hl : l ≤ 5) {res : Node}
    (hres : nodeVal res = joinVals (opVal op) ((xs.map nodeVal).take (j * 2 ^ l))) :
    nodeVal (nodeCombine op res (((treeLevels op 5 xs).getD l []).getD j none)) =
      joinVals (opVal op) ((xs.map nodeVal).take ((j + 1) * 2 ^ l)) := by
  rw [nodeVal_nodeCombine, treeLevels_getD op hl, nodeVal_level, hres, ← joinVals_append, take_append_nodeSpan]

/-- The scan loop at level l has joined the lanes below the first multiple of 2^(l + 1) at or under i + 1; it ends with the join of lanes 0 to i. -/
theorem nodeVal_treeScanFrom (xs : List Node) (i l : Nat) {base : Nat} {res : Node} (hl : l ≤ 5)
    (hbase : base = (i + 1) / 2 ^ (l + 1) * 2 ^ (l + 1))
    (hres : nodeVal res = joinVals (opVal op) ((xs.map nodeVal).take base)) :
    nodeVal (treeScanFrom op (treeLevels op 5 xs) i l base res) = joinVals (opVal op) ((xs.map nodeVal).take (i + 1)) := by
  induction l generalizing base res with
  | zero =>
    rw [treeScanFrom]
    split
    · have hnext : i + 1 = (base + 1) * 2 ^ 0 := by omega
      rw [hnext]
      exact nodeVal_scan_take op xs hl (by simpa using hres)
    · have hall : i + 1 = base := by omega
      rw [hall, hres]
  | succ l ih =>
    have hquot : (i + 1) / 2 ^ (l + 2) = (i + 1) / 2 ^ (l + 1) / 2 := by rw [pow_succ 2 (l + 1), Nat.div_div_eq_div_mul]
    have hpow : 2 ^ (l + 2) = 2 * 2 ^ (l + 1) := by ring
    rw [hquot, hpow, ← mul_assoc] at hbase
    have hnode : base / 2 ^ (l + 1) = (i + 1) / 2 ^ (l + 1) / 2 * 2 := by rw [hbase, Nat.mul_div_cancel _ (by positivity)]
    rw [← hnode] at hbase
    rw [treeScanFrom]
    split
    · next hbit =>
      have hnext : base + 2 ^ (l + 1) = (base / 2 ^ (l + 1) + 1) * 2 ^ (l + 1) := by rw [Nat.succ_mul, ← hbase]
      refine ih (by omega) ?_ ?_
      · rw [hnext]
        congr 1
        omega
      · rw [hnext]
        exact nodeVal_scan_take op xs hl (hbase ▸ hres)
    · next hbit =>
      refine ih (by omega) ?_ hres
      rw [hbase]
      congr 1
      omega

/-- tree_scan joins the lanes up to its own. -/
theorem nodeVal_treeScan (xs : List Node) {i : Nat} (h : i < 32) :
    nodeVal (treeScan op xs i) = joinVals (opVal op) ((xs.map nodeVal).take (i + 1)) := by
  refine nodeVal_treeScanFrom op xs i 5 le_rfl ?_ rfl
  omega

end Levels

/-! ### The statement -/

/-- Settles O15: every integer operation associates, so a node of the tree has the join of the lanes it spans. -/
theorem integerReductions : Obligations.IntegerReductions := by
  unfold Obligations.IntegerReductions
  intro t op xs _ _ hlen _ fold
  have := opVal_combineI_assoc t op
  have hfold : ∀ ys, fold ys = joinVals (opVal (combineI t false op)) (ys.map nodeVal) := fun ys => by
    rw [joinVals, ← foldl_present, List.filterMap_map]
    rfl
  refine ⟨?_, fun i hi => ?_⟩
  · rw [hfold, ← nodeVal_treeReduce _ hlen, nodeVal]
  · rw [hfold, List.map_take, ← nodeVal_treeScan _ _ hi, nodeVal]

end Sys2Proof.Machine
end

