-- ==== Sys2Proof/Proofs/ExactSums.lean ====
section
/-!
SUPPORT. Exact sums: a map row's sum does not depend on the order of its columns (R84), and the arithmetic of containers is exact where it raises
neither NX nor SAT (R87, R88, O16).
-/
namespace Sys2Proof.Machine

/-! ### A row's sum under a permutation of its columns -/

/-- The exponent of a nonzero finite value. -/
def topOf : XV → Option Int
  | .fin _ m e => if m = 0 then none else some (e + (Nat.log2 m : Int))
  | _ => none

/-- maxTop is the greatest of the exponents that there are. -/
theorem maxTop_eq (ps : List XV) : maxTop ps = (ps.map topOf).foldl (Option.merge max) none := by
  rw [List.foldl_map, maxTop]
  congr 1
  funext acc p
  match p with
  | .nan | .inf _ => exact (Option.merge_none_right).symm
  | .fin _ m e =>
    by_cases hm : m = 0
    · simp only [topOf, hm, if_true, Option.merge_none_right]
    · simp only [topOf, hm, if_false]
      cases acc <;> rfl

theorem maxTop_perm {ps qs : List XV} (h : ps.Perm qs) : maxTop ps = maxTop qs := by
  rw [maxTop_eq, maxTop_eq]
  exact (h.map topOf).foldl_eq none

/-- The sum of a row and its flags do not depend on the order of its columns (R84). -/
theorem orderFreeRow_perm {ps qs : List ((XV × Bool) × (XV × Bool))} (h : ps.Perm qs) :
    orderFreeRow (ps.map Prod.fst) (ps.map Prod.snd) = orderFreeRow (qs.map Prod.fst) (qs.map Prod.snd) := by
  have hops : (ps.map Prod.fst ++ ps.map Prod.snd).Perm (qs.map Prod.fst ++ qs.map Prod.snd) := (h.map _).append (h.map _)
  have hzip : ∀ rs : List ((XV × Bool) × (XV × Bool)), (rs.map Prod.fst).zip (rs.map Prod.snd) = rs := fun rs => by
    rw [List.zip_map', List.map_id']
  have hprod : (ps.map fun p => xMul p.1.1 p.2.1).Perm (qs.map fun p => xMul p.1.1 p.2.1) := h.map _
  have hmax := maxTop_perm (hprod.map Prod.fst)
  have hfixed := fun w => hprod.map fun p => toFixed48 w p.1
  have hsum := fun w => (hfixed w).foldl_eq' (f := fun (a : Int) (t : Int × Bool) => a + t.1) (fun x _ y _ z => add_right_comm z x.1 y.1) 0
  have hcut := fun w => (hfixed w).any_eq (f := Prod.snd)
  simp only [orderFreeRow, hzip, hops.any_eq, hprod.any_eq, hmax, hsum, hcut]

/-! ### Containers written and read back -/

/-- The bits of a finite container as a number: the sum below the exponent below the SATD mark (R64). -/
theorem accBits_fin_toNat {s : Int} {e : Nat} (satd : Bool) (he : e < 4096) :
    (accBits (.fin s e satd)).toNat = (if satd then 2 ^ 60 else 0) + e * 2 ^ 48 + (BitVec.ofInt 48 s).toNat := by
  have hs := (BitVec.ofInt 48 s).isLt
  have hmark : (if satd then 0x1000000000000000 else 0 : W64).toNat = if satd then 2 ^ 60 else 0 := by cases satd <;> rfl
  have hle : (if satd then 2 ^ 60 else 0) ≤ 2 ^ 60 := by cases satd <;> decide
  rw [accBits, BitVec.toNat_add, BitVec.toNat_add, hmark, BitVec.toNat_ofNat, BitVec.toNat_setWidth]
  omega

/-- A finite container is read back as it was written (R64, R209). -/
theorem accRead_accBits_fin {s : Int} {e : Nat} (satd : Bool) (hs : -2 ^ 47 ≤ s ∧ s < 2 ^ 47) (he : e < 4096) :
    accRead (accBits (.fin s e satd)) = .fin s e satd := by
  have hx := accBits_fin_toNat (s := s) satd he
  have hlt := (BitVec.ofInt 48 s).isLt
  set x := accBits (.fin s e satd)
  have hmark : (if satd then 2 ^ 60 else 0 : Nat) = satd.toNat * 2 ^ 60 := by cases satd <;> rfl
  have hbool := satd.toNat_le
  have hbit : ∀ i, x.getLsbD i = decide (x.toNat / 2 ^ i % 2 = 1) := fun i => by
    rw [BitVec.getLsbD, Nat.testBit_eq_decide_div_mod_eq]
  have hsum : x.extractLsb' 0 48 = BitVec.ofInt 48 s := by
    apply BitVec.eq_of_toNat_eq
    rw [BitVec.extractLsb'_toNat, Nat.shiftRight_zero]
    omega
  have hexp : (x.extractLsb' 48 12).toNat = e := by
    rw [BitVec.extractLsb'_toNat, Nat.shiftRight_eq_div_pow]
    omega
  have h63 : x.getLsbD 63 = false := by rw [hbit, decide_eq_false_iff_not]; omega
  have h62 : x.getLsbD 62 = false := by rw [hbit, decide_eq_false_iff_not]; omega
  have h61 : x.getLsbD 61 = false := by rw [hbit, decide_eq_false_iff_not]; omega
  have h60 : x.getLsbD 60 = satd := by rw [hbit, hx]; cases satd <;> simp <;> omega
  have hint : (BitVec.ofInt 48 s).toInt = s := BitVec.toInt_ofInt_eq_self (by decide) (by omega) (by omega)
  simp only [accRead, h63, h62, h61, h60, hsum, hexp, hint, Bool.false_and, Bool.false_eq_true, if_false]

/-- Every container that a container can hold is read back as it was written (R64). -/
theorem accRead_accBits {c : CV} (h : ∀ s e q, c = .fin s e q → -2 ^ 47 ≤ s ∧ s < 2 ^ 47 ∧ e < 4096) : accRead (accBits c) = c := by
  match c with
  | .nan | .inf false | .inf true => decide
  | .fin s e q =>
    obtain ⟨hlo, hhi, he⟩ := h s e q rfl
    exact accRead_accBits_fin q ⟨hlo, hhi⟩ he

/-- The exponent that a container reads has 12 bits. -/
theorem accRead_exp_lt {x : W64} {s : Int} {e : Nat} {q : Bool} (h : accRead x = .fin s e q) : e < 4096 := by
  unfold accRead at h
  split_ifs at h
  cases h
  exact (x.extractLsb' 48 12).isLt

/-! ### Normalising and adding exactly -/

/-- A set of flags with neither NX nor SAT: nothing was lost. -/
def NoLoss (f : Flags) : Prop := f &&& (flagNX ||| flagSAT) = 0

theorem noLoss_or {f g : Flags} : NoLoss (f ||| g) ↔ NoLoss f ∧ NoLoss g := by
  unfold NoLoss
  rw [BitVec.and_comm, BitVec.and_or_distrib_left, BitVec.and_comm f, BitVec.and_comm g]
  exact BitVec.or_eq_zero_iff

theorem noLoss_flagIf_NX {b : Bool} : NoLoss (flagIf b flagNX) ↔ b = false := by
  cases b with
  | false => exact iff_of_true rfl rfl
  | true => exact iff_of_false (by unfold NoLoss; decide) (by decide)

/-- A sum aligned to a greater exponent keeps its value where the shift discards nothing (R88). -/
theorem floorShift_exact {s : Int} {e m : Nat} (he : e ≤ m) (hm : m < 4096) (h : (floorShift s (m - e)).2 = false) :
    ((floorShift s (m - e)).1 : ℚ) * 2 ^ m = s * 2 ^ e := by
  have hd : m - e ≤ 4096 := by omega
  rw [floorShift, min_eq_left hd] at h ⊢
  have hmod : s.fmod (2 ^ (m - e) : Nat) = 0 := by simpa using h
  have hdiv := Int.fmod_add_fdiv_mul s (2 ^ (m - e) : Nat)
  rw [hmod, zero_add] at hdiv
  have hdiv : (s.fdiv (2 ^ (m - e) : Nat) : ℚ) * 2 ^ (m - e) = s := by exact_mod_cast hdiv
  rw [← hdiv, mul_assoc, ← pow_add, Nat.sub_add_cancel he]

theorem leadBit_le_iff {t : Int} {n : Nat} : leadBit t ≤ n ↔ t.natAbs < 2 ^ (n + 1) := by
  rw [leadBit, ← Nat.lt_succ_iff]
  by_cases ht : t.natAbs = 0
  · simp [ht]
  · exact Nat.log2_lt ht

/-- The shifting loop ends with its leading bit at 46 or below; where it discards nothing, the value stays (R87). -/
theorem normDown_spec (fuel : Nat) (t e : Int) (nx : Bool) (ht : t.natAbs ≤ 2 ^ (46 + fuel)) :
    leadBit (normDown fuel t e nx).1 ≤ 46 ∧ ((normDown fuel t e nx).2.2 = false → nx = false ∧
      ∃ k : Nat, (normDown fuel t e nx).1 * 2 ^ k = t ∧ (normDown fuel t e nx).2.1 = e + k) := by
  induction fuel generalizing t e nx with
  | zero =>
    have hlt : 2 ^ (46 + 0) < 2 ^ (46 + 1) := by decide
    exact ⟨leadBit_le_iff.2 (ht.trans_lt hlt), fun h => ⟨h, 0, by simp [normDown], by simp [normDown]⟩⟩
  | succ fuel ih =>
    rw [normDown]
    split
    · have hpow : 2 ^ (46 + (fuel + 1)) = 2 * 2 ^ (46 + fuel) := by ring
      have hhalf : (t.fdiv 2).natAbs ≤ 2 ^ (46 + fuel) := by rw [Int.fdiv_eq_ediv_of_nonneg _ (by decide)]; omega
      obtain ⟨hlead, hexact⟩ := ih (t.fdiv 2) (e + 1) (nx || t.fmod 2 = 1) hhalf
      refine ⟨hlead, fun h => ?_⟩
      obtain ⟨hnx, k, hval, hexp⟩ := hexact h
      rw [Bool.or_eq_false_iff, decide_eq_false_iff_not] at hnx
      obtain ⟨hnx, heven⟩ := hnx
      refine ⟨hnx, k + 1, ?_, by push_cast; omega⟩
      rw [pow_succ, ← mul_assoc, hval]
      rw [Int.fdiv_eq_ediv_of_nonneg _ (by decide)]
      rw [Int.fmod_eq_emod_of_nonneg _ (by decide)] at heven
      omega
    · next hle => exact ⟨not_lt.1 hle, fun h => ⟨h, 0, by simp, by simp⟩⟩

/-- Where normalise raises neither NX nor SAT it gives a finite container, within its bounds, of the exact value (R87). -/
theorem accNormalise_exact {t : Int} {e : Nat} (h : NoLoss (accNormalise t e).2) : ∃ u g, (accNormalise t e).1 = .fin u g false ∧
    u.natAbs < 2 ^ 47 ∧ g < 4096 ∧ (u : ℚ) * 2 ^ (g : Int) = t * 2 ^ (e : Int) := by
  rw [accNormalise] at h ⊢
  split at h
  · next h0 => exact ⟨0, 0, by rw [if_pos h0], by decide, by decide, by simp [h0]⟩
  · next h0 =>
    rw [if_neg h0]
    obtain ⟨hlead, hexact⟩ := normDown_spec (leadBit t + 2) t e false (by
      have := leadBit_le_iff.1 (le_refl (leadBit t))
      exact this.le.trans (Nat.pow_le_pow_right (by decide) (by omega)))
    generalize normDown (leadBit t + 2) t e false = r at h hlead hexact ⊢
    obtain ⟨t', e', nx⟩ := r
    dsimp only at h hlead hexact ⊢
    generalize hk : (if leadBit t' < 45 then min (45 - leadBit t') e'.toNat else 0) = k at h ⊢
    have hkle : k ≤ 45 - leadBit t' ∧ k ≤ e'.toNat := by rw [← hk]; split <;> omega
    split at h
    · exact absurd h (show ¬NoLoss (flagSAT ||| flagNX) by unfold NoLoss; decide)
    · next hle =>
      rw [if_neg hle]
      obtain ⟨-, j, rfl, rfl⟩ := hexact (noLoss_flagIf_NX.1 h)
      refine ⟨_, _, rfl, ?_, by omega, ?_⟩
      · have hmul : t'.natAbs * 2 ^ k < 2 ^ (leadBit t' + 1) * 2 ^ k :=
          Nat.mul_lt_mul_of_pos_right (leadBit_le_iff.1 le_rfl) (by positivity)
        rw [Int.natAbs_mul, Int.natAbs_natCast]
        rw [← pow_add] at hmul
        exact hmul.trans_le (Nat.pow_le_pow_right (by decide) (by omega))
      · have hexp : k + ((e : Int) + j - k).toNat = j + e := by omega
        push_cast
        rw [zpow_natCast, zpow_natCast, mul_assoc, mul_assoc, ← pow_add, ← pow_add, hexp]

/-- A sum of finite containers that raises neither NX nor SAT is exact (R88). -/
theorem accSum_exact {s t : Int} {e f : Nat} (he : e < 4096) (hf : f < 4096) (h : NoLoss (accSum s e t f).2) :
    ∃ u g, (accSum s e t f).1 = .fin u g false ∧ u.natAbs < 2 ^ 47 ∧ g < 4096 ∧
      (u : ℚ) * 2 ^ (g : Int) = s * 2 ^ (e : Int) + t * 2 ^ (f : Int) := by
  rw [accSum] at h ⊢
  split at h
  · next hs =>
    rw [if_pos hs]
    simpa [hs] using accNormalise_exact h
  · next hs =>
    rw [if_neg hs]
    split at h
    · next ht =>
      rw [if_pos ht]
      simpa [ht] using accNormalise_exact h
    · next ht =>
      rw [if_neg ht]
      obtain ⟨hnorm, hnx⟩ := noLoss_or.1 h
      obtain ⟨ha, hb⟩ := Bool.or_eq_false_iff.1 (noLoss_flagIf_NX.1 hnx)
      have ha := floorShift_exact (le_max_left e f) (by omega) ha
      have hb := floorShift_exact (le_max_right e f) (by omega) hb
      obtain ⟨u, g, hc, hu, hg, hval⟩ := accNormalise_exact hnorm
      refine ⟨u, g, hc, hu, hg, hval.trans ?_⟩
      rw [zpow_natCast, zpow_natCast, zpow_natCast, Int.cast_add, add_mul, ha, hb]

/-! ### The statement -/

/-- Settles O16: the row's sum is a fold of columns that commute; normalising and aligning are exact where nothing is discarded. -/
theorem exactSums : Obligations.ExactSums := by
  unfold Obligations.ExactSums
  refine ⟨fun ps qs h => orderFreeRow_perm h, ⟨fun c => accRead_accBits, ?_⟩, fun x y a b s k e q => ⟨?_, ?_, ?_, ?_⟩⟩
  · intro x y s t e f hx hy r h
    have hr : r = (accBits ((accSum s e t f).1.orSatd false), (accSum s e t f).2) := by
      simp only [r, accAdd, hx, hy, Bool.or_self]
    rw [hr] at h ⊢
    obtain ⟨u, g, hc, hu, hg, hval⟩ := accSum_exact (accRead_exp_lt hx) (accRead_exp_lt hy) h
    refine ⟨u, g, ?_, hu, hval⟩
    rw [hc]
    exact accRead_accBits_fin false (by omega) hg
  · rintro (h | h)
    · simp only [accAdd, h]
      rfl
    · cases hx : accRead x <;> simp only [accAdd, hx, h] <;> rfl
  · intro hx hy
    simp only [accAdd, hx, hy, and_self]
  · intro hx hy hab
    simp only [accAdd, hx, hy, hab, if_false]
    rfl
  · intro h
    rcases h with h | h <;> simp only [accScale, h]

end Sys2Proof.Machine
end

