-- ==== Sys2Proof/Proofs/FloatRounding.lean ====
section
/-!
SUPPORT. Rounding into a float format (R68, R74, R75, R83). The encodings without a sign bit, taken in ascending order, have ascending values;
a rounding takes one of the two encodings on either side of the exact value, by its mode (O13).
-/
namespace Sys2Proof.Machine

/-! ### Signed values -/

/-- A magnitude with its sign. -/
def withSign (n : Bool) (x : ℚ) : ℚ := if n then -x else x

theorem abs_withSign (n : Bool) {x : ℚ} (hx : 0 ≤ x) : |withSign n x| = x := by
  cases n
  · exact abs_of_nonneg hx
  · rw [withSign, if_pos rfl, abs_neg, abs_of_nonneg hx]

theorem withSign_inj (n : Bool) {x y : ℚ} : withSign n x = withSign n y ↔ x = y := by
  cases n
  · exact Iff.rfl
  · exact neg_inj

/-- A magnitude above zero shows its sign. -/
theorem sign_eq_of_withSign {n n' : Bool} {x : ℚ} (hx : 0 < x) (h : withSign n x = withSign n' x) : n = n' := by
  have hne : x ≠ -x := by linarith
  match n, n' with
  | false, false | true, true => rfl
  | false, true => exact absurd h hne
  | true, false => exact absurd h hne.symm

/-- The exact value (−1)^n · k · 2^q (R83). -/
def signedVal (n : Bool) (k : Nat) (q : Int) : ℚ := (if n then -1 else 1) * k * 2 ^ q

theorem signedVal_eq (n : Bool) (k : Nat) (q : Int) : signedVal n k q = withSign n (k * 2 ^ q) := by
  cases n <;> simp [signedVal, withSign]

theorem abs_signedVal (n : Bool) (k : Nat) (q : Int) : |signedVal n k q| = k * 2 ^ q := by
  rw [signedVal_eq, abs_withSign n (by positivity)]

/-! ### The encodings in ascending order -/

/-- The exponent of a format's least subnormal value, in whose multiples its subnormals count (R68). -/
def FFmt.lsb (t : FFmt) : Int := 1 - t.bias - t.fb

/-- By how many binades an encoding without its sign bit counts in a greater unit than the least subnormal value. -/
def encStep (t : FFmt) (x : Nat) : Nat := x / 2 ^ t.fb - 1

/-- How many of its units an encoding without its sign bit counts: the fraction with the hidden bit. -/
def encCount (t : FFmt) (x : Nat) : Nat := x - encStep t x * 2 ^ t.fb

/-- The value of an encoding without its sign bit; past the largest finite encoding the formula goes on. -/
def magValue (t : FFmt) (x : Nat) : ℚ := encCount t x * 2 ^ (t.lsb + encStep t x)

theorem magValue_nonneg (t : FFmt) (x : Nat) : 0 ≤ magValue t x := by unfold magValue; positivity

/-- The step and the count of an encoding, put together from them. -/
theorem encStep_encCount {t : FFmt} {g n : Nat} (hg : g = 0 ∨ 2 ^ t.fb ≤ n) (hn : n < 2 ^ (t.fb + 1)) :
    encStep t (g * 2 ^ t.fb + n) = g ∧ encCount t (g * 2 ^ t.fb + n) = n := by
  have hpos : 0 < 2 ^ t.fb := by positivity
  have hdiv : (g * 2 ^ t.fb + n) / 2 ^ t.fb = g + n / 2 ^ t.fb := by rw [add_comm, Nat.add_mul_div_right _ _ hpos, add_comm]
  have hstep : encStep t (g * 2 ^ t.fb + n) = g := by
    rw [encStep, hdiv]
    rcases lt_or_ge n (2 ^ t.fb) with hlt | hge
    · rw [Nat.div_eq_of_lt hlt, hg.resolve_right (not_le.2 hlt)]
    · rw [Nat.div_eq_of_lt_le (k := 1) (by omega) (by rw [pow_succ] at hn; omega)]
      rfl
  exact ⟨hstep, by rw [encCount, hstep, Nat.add_sub_cancel_left]⟩

/-- Every encoding splits into its step and its count. -/
theorem enc_split (t : FFmt) (x : Nat) : encStep t x * 2 ^ t.fb + encCount t x = x ∧
    (encStep t x = 0 ∨ 2 ^ t.fb ≤ encCount t x) ∧ encCount t x < 2 ^ (t.fb + 1) := by
  have hdm := Nat.div_add_mod' x (2 ^ t.fb)
  have hmod : x % 2 ^ t.fb < 2 ^ t.fb := Nat.mod_lt _ (by positivity)
  rw [encCount, encStep, pow_succ]
  rcases hq : x / 2 ^ t.fb with _ | g
  · rw [hq] at hdm
    omega
  · rw [hq, Nat.succ_mul] at hdm
    rw [Nat.add_sub_cancel]
    omega

/-- A count of units, up to the first of the next binade, encodes its own value. -/
theorem magValue_of_count {t : FFmt} {g n : Nat} (hg : g = 0 ∨ 2 ^ t.fb ≤ n) (hn : n ≤ 2 ^ (t.fb + 1)) :
    magValue t (g * 2 ^ t.fb + n) = n * 2 ^ (t.lsb + g) := by
  rcases hn.lt_or_eq with hlt | rfl
  · obtain ⟨hstep, hcount⟩ := encStep_encCount hg hlt
    rw [magValue, hstep, hcount]
  · have hnext : g * 2 ^ t.fb + 2 ^ (t.fb + 1) = (g + 1) * 2 ^ t.fb + 2 ^ t.fb := by ring
    obtain ⟨hstep, hcount⟩ := encStep_encCount (t := t) (g := g + 1) (Or.inr le_rfl) (Nat.pow_lt_pow_succ (by decide))
    rw [hnext, magValue, hstep, hcount]
    push_cast
    rw [← add_assoc, zpow_add_one₀ (by norm_num), pow_succ]
    ring

/-- The encodings without a sign bit have ascending values. -/
theorem magValue_strictMono (t : FFmt) : StrictMono (magValue t) := by
  refine strictMono_nat_of_lt_succ fun x => ?_
  obtain ⟨hsplit, hg, hn⟩ := enc_split t x
  have hnext := magValue_of_count (n := encCount t x + 1) (hg.imp_right fun h => h.trans (Nat.le_succ _)) hn
  rw [← add_assoc, hsplit] at hnext
  rw [hnext, magValue]
  push_cast
  gcongr
  linarith

@[simp] theorem magValue_zero (t : FFmt) : magValue t 0 = 0 := by simp [magValue, encCount]

/-! ### Decoding -/

/-- An encoding without its sign bit. -/
def fMag (t : FFmt) (x : Nat) : Nat := x % 2 ^ (t.eb + t.fb)

theorem fExp_eq (t : FFmt) (x : Nat) : fExp t x = fMag t x / 2 ^ t.fb := by
  rw [fExp, fMag, add_comm t.eb, pow_add, Nat.mod_mul_right_div_self]

theorem fFrac_eq (t : FFmt) (x : Nat) : fFrac t x = fMag t x % 2 ^ t.fb := by
  rw [fFrac, fMag, Nat.mod_mod_of_dvd _ (pow_dvd_pow 2 (Nat.le_add_left _ _))]

/-- An encoding is its sign bit and the rest. -/
theorem signBit_add_mag {t : FFmt} {x : Nat} (h : x < 2 ^ (t.eb + t.fb + 1)) : fSignBit t (fSign t x) + fMag t x = x := by
  have hdm := Nat.div_add_mod' x (2 ^ (t.eb + t.fb))
  have hq : x / 2 ^ (t.eb + t.fb) < 2 := Nat.div_lt_of_lt_mul (by rwa [pow_succ] at h)
  unfold fSignBit fSign fMag
  rcases hb : x / 2 ^ (t.eb + t.fb) with _ | _ | _
  · rw [hb] at hdm; simpa using hdm
  · rw [hb] at hdm; simpa using hdm
  · omega

/-- What an encoding that is neither NaN nor an infinity decodes to (R68, R83). -/
theorem fDecode_of_finite {t : FFmt} {x : Nat} (hnan : fIsNaN t x = false) (hinf : fIsInf t x = false) :
    fDecode t x = .fin (fSign t x) (encCount t (fMag t x)) (t.lsb + encStep t (fMag t x)) := by
  obtain ⟨hsplit, -, -⟩ := enc_split t (fMag t x)
  have hdm := Nat.div_add_mod' (fMag t x) (2 ^ t.fb)
  rw [fDecode, hnan, hinf, if_neg (by decide), if_neg (by decide), fExp_eq, fFrac_eq]
  rcases hq : fMag t x / 2 ^ t.fb with _ | g
  · have hstep : encStep t (fMag t x) = 0 := by rw [encStep, hq]
    rw [hq] at hdm
    rw [if_pos rfl, hstep, FFmt.lsb, Nat.cast_zero, add_zero]
    congr 1
    rw [hstep] at hsplit
    omega
  · have hstep : encStep t (fMag t x) = g := by rw [encStep, hq, Nat.add_sub_cancel]
    rw [hq, Nat.succ_mul] at hdm
    rw [if_neg (Nat.succ_ne_zero g), hstep, FFmt.lsb]
    congr 1
    · rw [hstep] at hsplit
      omega
    · push_cast
      ring

/-- An encoding that decodes to a finite value is neither NaN nor an infinity. -/
theorem finite_of_fDecode {t : FFmt} {x k : Nat} {n : Bool} {q : Int} (h : fDecode t x = .fin n k q) :
    fIsNaN t x = false ∧ fIsInf t x = false := by
  unfold fDecode at h
  split_ifs at h with hnan hinf <;> simp_all

/-- The sign and the magnitude of a decoded value. -/
theorem sign_mag_of_fDecode {t : FFmt} {x k : Nat} {n : Bool} {q : Int} (h : fDecode t x = .fin n k q) :
    n = fSign t x ∧ (k : ℚ) * 2 ^ q = magValue t (fMag t x) := by
  obtain ⟨hnan, hinf⟩ := finite_of_fDecode h
  rw [fDecode_of_finite hnan hinf] at h
  cases h
  exact ⟨rfl, rfl⟩

/-! ### The formats -/

/-- What rounding needs of a format: a fraction of at least one bit, and finite encodings that end at the largest one (R68). -/
structure FFmt.Wf (t : FFmt) : Prop where
  fb_pos : 0 < t.fb
  big_lt : t.big < 2 ^ (t.eb + t.fb)
  finite_iff : ∀ x, fIsNaN t x = false ∧ fIsInf t x = false ↔ fMag t x ≤ t.big

/-- The four formats whose greatest exponent field holds the infinities and the NaNs. -/
theorem wf_of_ieee {t : FFmt} (h : t.e4m3 = false) (hfb : 0 < t.fb) (hbig : t.big + 1 = (2 ^ t.eb - 1) * 2 ^ t.fb) : t.Wf where
  fb_pos := hfb
  big_lt := by
    rw [pow_add]
    exact (Nat.lt_of_succ_le hbig.le).trans_le (Nat.mul_le_mul_right _ (Nat.sub_le _ _))
  finite_iff x := by
    have hspecial : fIsNaN t x = false ∧ fIsInf t x = false ↔ fExp t x ≠ 2 ^ t.eb - 1 := by
      by_cases hf : fFrac t x = 0 <;> simp [fIsNaN, fIsInf, h, hf]
    have hlt : fExp t x < 2 ^ t.eb := Nat.mod_lt _ (by positivity)
    have hmag : fExp t x < 2 ^ t.eb - 1 ↔ fMag t x < t.big + 1 := by
      rw [hbig, fExp_eq]
      exact Nat.div_lt_iff_lt_mul (by positivity)
    rw [hspecial]
    omega

theorem wf_fmtE4M3 : fmtE4M3.Wf where
  fb_pos := by decide
  big_lt := by decide
  finite_iff x := by
    have hmag : fMag fmtE4M3 x = x % 128 := rfl
    have hexp : fExp fmtE4M3 x = x / 8 % 16 := rfl
    have hfrac : fFrac fmtE4M3 x = x % 8 := rfl
    have hbig : fmtE4M3.big = 126 := rfl
    have hinf : fIsInf fmtE4M3 x = false := rfl
    have hnan : fIsNaN fmtE4M3 x = false ↔ ¬(fExp fmtE4M3 x = 15 ∧ fFrac fmtE4M3 x = 7) := decide_eq_false_iff_not
    rw [and_iff_left hinf, hnan, hmag, hexp, hfrac, hbig]
    omega

/-- The five float formats of R68. -/
theorem wf_of_mem {t : FFmt} (h : t ∈ [fmtF32, fmtF16, fmtBF16, fmtE4M3, fmtE5M2]) : t.Wf := by
  simp only [List.mem_cons, List.not_mem_nil, or_false] at h
  rcases h with rfl | rfl | rfl | rfl | rfl
  case inr.inr.inr.inl => exact wf_fmtE4M3
  all_goals exact wf_of_ieee rfl (by decide) (by decide)

/-! ### Rounding a count -/

/-- Whether a mode raises a count `n` from which a part `r` of a unit was cut off (R74). -/
def risesBy (mode : Nat) (neg : Bool) (n : Nat) (r : ℚ) : Bool :=
  match mode with
  | 0 => 1 / 2 < r ∨ (r = 1 / 2 ∧ n % 2 = 1)
  | 1 => false
  | 2 => neg && r ≠ 0
  | _ => !neg && r ≠ 0

@[simp] theorem risesBy_zero (mode : Nat) (neg : Bool) (n : Nat) : risesBy mode neg n 0 = false := by
  unfold risesBy
  split <;> simp

/-- Only the last bit of the count matters. -/
theorem risesBy_congr {n n' : Nat} (h : n % 2 = n' % 2) (mode : Nat) (neg : Bool) (r : ℚ) : risesBy mode neg n r = risesBy mode neg n' r := by
  unfold risesBy
  rw [h]

/-- Parts below one half round alike where they are zero alike. -/
theorem risesBy_below_half {r r' : ℚ} (hr : r < 1 / 2) (hr' : r' < 1 / 2) (h : r = 0 ↔ r' = 0) (mode : Nat) (neg : Bool) (n : Nat) :
    risesBy mode neg n r = risesBy mode neg n r' := by
  unfold risesBy
  simp only [ne_eq, h, hr.ne, hr'.ne, hr.le.not_gt, hr'.le.not_gt]

/-- The model's test on the bits cut off is the test on the part of a unit that they are. -/
theorem roundsUp_eq (mode : Nat) (neg : Bool) (n r d : Nat) : roundsUp mode neg n r d = risesBy mode neg n ((r : ℚ) / 2 ^ d) := by
  have hpos : (0 : ℚ) < 2 ^ d := by positivity
  have hzero : (r : ℚ) / 2 ^ d = 0 ↔ r = 0 := by simp
  have hgt : 1 / 2 < (r : ℚ) / 2 ^ d ↔ 2 ^ d < 2 * r := by
    rw [lt_div_iff₀ hpos, ← @Nat.cast_lt ℚ]
    push_cast
    constructor <;> intro h <;> linarith
  have heq : (r : ℚ) / 2 ^ d = 1 / 2 ↔ 2 * r = 2 ^ d := by
    rw [div_eq_iff hpos.ne', ← @Nat.cast_inj ℚ]
    push_cast
    constructor <;> intro h <;> linarith
  have hd : 2 * r = 2 ^ d → d ≠ 0 := by rintro h rfl; omega
  unfold roundsUp risesBy
  match mode with
  | 0 =>
    simp only [hgt, heq, gt_iff_lt]
    congr 1
    exact propext (or_congr_right ⟨fun ⟨h, hn, _⟩ => ⟨h, hn⟩, fun ⟨h, hn⟩ => ⟨h, hn, hd h⟩⟩)
  | 1 => rfl
  | 2 => simp only [ne_eq, hzero]
  | _ + 3 => simp only [ne_eq, hzero]

/-- A shift that is cut short at two bits past the top of m leaves the count, the mark and the rounding as they were. -/
theorem roundsUp_min (mode : Nat) (neg : Bool) (m k : Nat) :
    let d := min k (Nat.log2 m + 2)
    m / 2 ^ d = m / 2 ^ k ∧ (m % 2 ^ d = 0 ↔ m % 2 ^ k = 0) ∧
      roundsUp mode neg (m / 2 ^ d) (m % 2 ^ d) d = risesBy mode neg (m / 2 ^ k) ((m % 2 ^ k : Nat) / 2 ^ k) := by
  intro d
  rcases le_or_gt k (Nat.log2 m + 2) with hle | hlt
  · have hd : d = k := min_eq_left hle
    rw [hd]
    exact ⟨rfl, Iff.rfl, roundsUp_eq ..⟩
  · have hd : d = Nat.log2 m + 2 := min_eq_right hlt.le
    have htop : 2 * m < 2 ^ d := by
      rw [hd, pow_succ, mul_comm]
      exact Nat.mul_lt_mul_of_pos_right Nat.lt_log2_self (by decide)
    have hpow : 2 ^ d ≤ 2 ^ k := Nat.pow_le_pow_right (by decide) (hd ▸ hlt.le)
    have hhalf : ∀ j, 2 * m < 2 ^ j → (m : ℚ) / 2 ^ j < 1 / 2 := fun j hj => by
      have hj : 2 * (m : ℚ) < 2 ^ j := by exact_mod_cast hj
      rw [div_lt_iff₀ (by positivity)]
      linarith
    rw [Nat.div_eq_of_lt (show m < 2 ^ d by omega), Nat.div_eq_of_lt (show m < 2 ^ k by omega),
      Nat.mod_eq_of_lt (show m < 2 ^ d by omega), Nat.mod_eq_of_lt (show m < 2 ^ k by omega), roundsUp_eq]
    exact ⟨rfl, Iff.rfl, risesBy_below_half (hhalf d htop) (hhalf k (by omega)) (by simp) mode neg 0⟩

/-- A count of units of 2^q is cut to the whole units and raised by its mode; it is inexact where a part was cut off (R74, R75). -/
theorem roundAt_spec (mode : Nat) (neg : Bool) (m : Nat) (e q : Int) :
    ∃ (n : Nat) (r : ℚ), (m : ℚ) * 2 ^ e = (n + r) * 2 ^ q ∧ 0 ≤ r ∧ r < 1 ∧
    roundAt mode neg m e q = (if risesBy mode neg n r then n + 1 else n, decide (r ≠ 0)) := by
  rw [roundAt]
  split
  · next hle =>
    obtain ⟨k, hk⟩ := Int.eq_ofNat_of_zero_le (sub_nonneg.2 hle)
    have hunit : (2 : ℚ) ^ e = 2 ^ k * 2 ^ q := by rw [← zpow_natCast, ← hk, ← zpow_add₀ (by norm_num), sub_add_cancel]
    refine ⟨m * 2 ^ k, 0, ?_, le_rfl, one_pos, by simp [hk]⟩
    rw [hunit]
    push_cast
    ring
  · next hlt =>
    obtain ⟨k, hk⟩ := Int.eq_ofNat_of_zero_le (show 0 ≤ q - e by omega)
    have hunit : (2 : ℚ) ^ q = 2 ^ k * 2 ^ e := by rw [← zpow_natCast, ← hk, ← zpow_add₀ (by norm_num), sub_add_cancel]
    have hdm : ((m / 2 ^ k : Nat) : ℚ) * 2 ^ k + (m % 2 ^ k : Nat) = m := by exact_mod_cast Nat.div_add_mod' m (2 ^ k)
    have hpart : ((m % 2 ^ k : Nat) : ℚ) / 2 ^ k < 1 := by
      rw [div_lt_one (by positivity)]
      exact_mod_cast Nat.mod_lt m (by positivity)
    obtain ⟨hdiv, hmod, hup⟩ := roundsUp_min mode neg m k
    refine ⟨m / 2 ^ k, (m % 2 ^ k : Nat) / 2 ^ k, ?_, by positivity, hpart, ?_⟩
    · rw [hunit, ← mul_assoc, add_mul, div_mul_cancel₀ _ (by positivity), hdm]
    · have hzero : ((m % 2 ^ k : Nat) : ℚ) / 2 ^ k = 0 ↔ m % 2 ^ k = 0 := by simp
      simp only [hk, Int.toNat_natCast]
      rw [hup, hdiv]
      simp only [ne_eq, hmod, hzero]

/-! ### Rounding into a format -/

/-- A magnitude x cut to an encoding: `a` is the last at or below it, and `r` the part of the way to the next one. -/
structure Cut (t : FFmt) (x : ℚ) (a : Nat) (r : ℚ) : Prop where
  nonneg : 0 ≤ r
  lt_one : r < 1
  eq : x = magValue t a + r * (magValue t (a + 1) - magValue t a)

/-- The encoding, without its sign bit, that a mode takes of the two on either side. -/
def roundedEnc (mode : Nat) (neg : Bool) (a : Nat) (r : ℚ) : Nat := if risesBy mode neg a r then a + 1 else a

@[simp] theorem roundedEnc_zero (mode : Nat) (neg : Bool) (a : Nat) : roundedEnc mode neg a 0 = a := by
  rw [roundedEnc, risesBy_zero, if_neg (by decide)]

/-- The binary exponent of a nonzero magnitude. -/
theorem pow_log2_le {m : Nat} (hm : m ≠ 0) (e : Int) : (2 : ℚ) ^ (e + Nat.log2 m) ≤ m * 2 ^ e := by
  rw [add_comm, zpow_add₀ (by norm_num), zpow_natCast]
  gcongr
  exact_mod_cast Nat.log2_self_le hm

theorem lt_pow_log2 (m : Nat) (e : Int) : (m : ℚ) * 2 ^ e < 2 ^ (e + Nat.log2 m + 1) := by
  rw [add_assoc, add_comm, zpow_add₀ (by norm_num)]
  gcongr
  exact_mod_cast (Nat.lt_log2_self : m < 2 ^ (m.log2 + 1))

/-- Whether rounding with an unbounded exponent stays below the least normal value (R75). -/
def fTiny (t : FFmt) (mode : Nat) (neg : Bool) (m : Nat) (e : Int) : Bool :=
  let top : Int := e + Nat.log2 m
  let emin : Int := 1 - (t.bias : Int)
  top < emin && !(top = emin - 1 && (roundAt mode neg m e (top - t.fb)).1 = 2 ^ (t.fb + 1))

/-- A nonzero magnitude, counted in the unit of its binade or in the least subnormal value where that is greater, has the hidden bit in every binade
but the first, and no bit above it. -/
theorem count_bounds {t : FFmt} {m n g : Nat} {e : Int} {r : ℚ} (hm : m ≠ 0) (hg : max (e + Nat.log2 m - t.fb) t.lsb = t.lsb + g)
    (hval : (m : ℚ) * 2 ^ e = (n + r) * 2 ^ (t.lsb + g)) (hr0 : 0 ≤ r) (hr1 : r < 1) :
    n < 2 ^ (t.fb + 1) ∧ (g = 0 ∨ 2 ^ t.fb ≤ n) := by
  have hpos : (0 : ℚ) < 2 ^ (t.lsb + g) := by positivity
  constructor
  · have hlt := lt_pow_log2 m e
    have hle : (2 : ℚ) ^ (e + Nat.log2 m + 1) ≤ 2 ^ ((t.fb : Int) + 1) * 2 ^ (t.lsb + g) := by
      rw [← zpow_add₀ (by norm_num)]
      exact zpow_le_zpow_right₀ (by norm_num) (by omega)
    rw [hval] at hlt
    have hlt := lt_of_mul_lt_mul_right (hlt.trans_le hle) hpos.le
    have hn : (n : ℚ) < 2 ^ (t.fb + 1) := by
      rw [← zpow_natCast]
      push_cast
      linarith
    exact_mod_cast hn
  · refine or_iff_not_imp_left.2 fun hg0 => ?_
    have hle := pow_log2_le hm e
    have htop : e + Nat.log2 m = t.fb + (t.lsb + g) := by omega
    rw [hval, htop, zpow_add₀ (by norm_num)] at hle
    have hle := le_of_mul_le_mul_right hle hpos
    have hn : (2 : ℚ) ^ t.fb < n + 1 := by
      rw [← zpow_natCast]
      linarith
    exact Nat.lt_succ_iff.1 (by exact_mod_cast hn)

/-- Rounding a nonzero finite value takes one of the two encodings on either side of its magnitude, with NX where a part was cut off, or gives the
overflow result past the largest one (R74, R75). -/
theorem fRound_fin {t : FFmt} (hfb : 0 < t.fb) (mode : Nat) (sat neg : Bool) {m : Nat} (hm : m ≠ 0) (e : Int) :
    ∃ (a : Nat) (r : ℚ), Cut t (m * 2 ^ e) a r ∧ fRound t mode sat (.fin neg m e) =
      if t.big < roundedEnc mode neg a r then fOverflow t mode sat neg
      else (fSignBit t neg + roundedEnc mode neg a r, flagIf (r ≠ 0) flagNX ||| flagIf (decide (r ≠ 0) && fTiny t mode neg m e) flagUF) := by
  have hlsb : 1 - (t.bias : Int) - t.fb = t.lsb := rfl
  obtain ⟨g, hg⟩ := Int.eq_ofNat_of_zero_le (sub_nonneg.2 (le_max_right (e + Nat.log2 m - t.fb) t.lsb))
  have hq : max (e + Nat.log2 m - t.fb) t.lsb = t.lsb + g := by omega
  obtain ⟨n, r, hval, hr0, hr1, hround⟩ := roundAt_spec mode neg m e (t.lsb + g)
  obtain ⟨hn, hcount⟩ := count_bounds hm hq hval hr0 hr1
  have hlow := magValue_of_count hcount hn.le
  have hhigh := magValue_of_count (t := t) (n := n + 1) (hcount.imp_right fun h => h.trans n.le_succ) hn
  rw [← add_assoc] at hhigh
  have hparity : (g * 2 ^ t.fb + n) % 2 = n % 2 := by
    obtain ⟨k, hk⟩ : ∃ k, t.fb = k + 1 := ⟨t.fb - 1, by omega⟩
    rw [hk, pow_succ, ← mul_assoc]
    omega
  have hrisen : g * 2 ^ t.fb + (if risesBy mode neg n r then n + 1 else n) = roundedEnc mode neg (g * 2 ^ t.fb + n) r := by
    rw [roundedEnc, risesBy_congr hparity]
    split <;> rfl
  refine ⟨g * 2 ^ t.fb + n, r, ⟨hr0, hr1, ?_⟩, ?_⟩
  · rw [hlow, hhigh, hval]
    push_cast
    ring
  · rw [fRound, if_neg hm]
    simp only [hlsb, hq, add_sub_cancel_left, Int.toNat_natCast, hround, hrisen, gt_iff_lt]
    rfl

/-! ### What each mode selects -/

section Selects

variable {t : FFmt} {x : ℚ} {a : Nat} {r : ℚ}

/-- The encodings on either side of a magnitude. -/
theorem Cut.bounds (h : Cut t x a r) : magValue t a ≤ x ∧ x < magValue t (a + 1) := by
  have hlt : magValue t a < magValue t (a + 1) := magValue_strictMono t a.lt_succ_self
  have h0 := mul_nonneg h.nonneg (sub_pos.2 hlt).le
  have h1 := mul_lt_mul_of_pos_right h.lt_one (sub_pos.2 hlt)
  have hx := h.eq
  constructor <;> linarith

theorem Cut.magValue_le_iff (h : Cut t x a r) {y : Nat} : magValue t y ≤ x ↔ y ≤ a := by
  obtain ⟨hlow, hhigh⟩ := h.bounds
  refine ⟨fun hy => Nat.lt_succ_iff.1 ((magValue_strictMono t).lt_iff_lt.1 (hy.trans_lt hhigh)), fun hy => ?_⟩
  exact ((magValue_strictMono t).monotone hy).trans hlow

/-- Nothing is cut off exactly where the magnitude has an encoding. -/
theorem Cut.part_eq_zero_iff (h : Cut t x a r) : r = 0 ↔ magValue t a = x := by
  have hlt : magValue t a < magValue t (a + 1) := magValue_strictMono t a.lt_succ_self
  rw [h.eq, left_eq_add, mul_eq_zero, or_iff_left (sub_pos.2 hlt).ne']

/-- A magnitude that has an encoding is cut to it. -/
theorem Cut.of_magValue {y : Nat} (h : Cut t (magValue t y) a r) : a = y ∧ r = 0 := by
  have hya : y ≤ a := h.magValue_le_iff.1 le_rfl
  have hay : a ≤ y := (magValue_strictMono t).le_iff_le.1 h.bounds.1
  have hay := le_antisymm hay hya
  exact ⟨hay, h.part_eq_zero_iff.2 (by rw [hay])⟩

/-- The mark of inexactness of a rounding: the magnitude taken is not the magnitude given. -/
theorem Cut.roundedEnc_eq_iff (h : Cut t x a r) (mode : Nat) (neg : Bool) : magValue t (roundedEnc mode neg a r) = x ↔ r = 0 := by
  constructor
  · intro he
    unfold roundedEnc at he
    split at he
    · exact absurd he h.bounds.2.ne'
    · exact h.part_eq_zero_iff.2 he
  · rintro rfl
    rw [roundedEnc_zero]
    exact h.part_eq_zero_iff.1 rfl

/-- The modes that cut a magnitude take the greatest encoding that is not above it. -/
theorem Cut.greatest_below (h : Cut t x a r) {mode : Nat} {neg : Bool} (hmode : mode = 1 ∨ mode = 2 ∧ neg = false ∨ mode = 3 ∧ neg = true) :
    magValue t (roundedEnc mode neg a r) ≤ x ∧ ∀ y, magValue t y ≤ x → magValue t y ≤ magValue t (roundedEnc mode neg a r) := by
  have hcut : roundedEnc mode neg a r = a := by
    rcases hmode with rfl | ⟨rfl, rfl⟩ | ⟨rfl, rfl⟩ <;> rfl
  rw [hcut]
  exact ⟨h.bounds.1, fun y hy => (magValue_strictMono t).monotone (h.magValue_le_iff.1 hy)⟩

/-- The modes that raise a magnitude take the least encoding that is not below it. -/
theorem Cut.least_above (h : Cut t x a r) {mode : Nat} {neg : Bool} (hmode : mode = 2 ∧ neg = true ∨ mode = 3 ∧ neg = false) :
    x ≤ magValue t (roundedEnc mode neg a r) ∧ ∀ y, x ≤ magValue t y → magValue t (roundedEnc mode neg a r) ≤ magValue t y := by
  by_cases hr : r = 0
  · have hexact := (h.roundedEnc_eq_iff mode neg).2 hr
    exact ⟨hexact.ge, fun y hy => hexact.le.trans hy⟩
  · have hraise : roundedEnc mode neg a r = a + 1 := by
      rw [roundedEnc, if_pos]
      rcases hmode with ⟨rfl, rfl⟩ | ⟨rfl, rfl⟩ <;> simpa [risesBy] using hr
    have hne : magValue t a ≠ x := mt h.part_eq_zero_iff.2 hr
    rw [hraise]
    refine ⟨h.bounds.2.le, fun y hy => (magValue_strictMono t).monotone ?_⟩
    exact (magValue_strictMono t).lt_iff_lt.1 ((h.bounds.1.lt_of_ne hne).trans_le hy)

/-- The part cut off is compared with one half as the distances to both sides are compared. -/
theorem Cut.half_iff (h : Cut t x a r) : (1 / 2 < r ↔ magValue t (a + 1) - x < x - magValue t a) ∧
    (r = 1 / 2 ↔ magValue t (a + 1) - x = x - magValue t a) := by
  have hw : 0 < magValue t (a + 1) - magValue t a := sub_pos.2 (magValue_strictMono t a.lt_succ_self)
  have hx := h.eq
  have hdiff : x - magValue t a - (magValue t (a + 1) - x) = (2 * r - 1) * (magValue t (a + 1) - magValue t a) := by rw [hx]; ring
  constructor
  · rw [← sub_pos (b := magValue t (a + 1) - x), hdiff, mul_pos_iff_of_pos_right hw]
    constructor <;> intro hr <;> linarith
  · rw [eq_comm (a := magValue t (a + 1) - x), ← sub_eq_zero (b := magValue t (a + 1) - x), hdiff, mul_eq_zero, or_iff_left hw.ne']
    constructor <;> intro hr <;> linarith

/-- No encoding has a value between those of two that follow each other. -/
theorem magValue_sides (t : FFmt) (a y : Nat) : magValue t y ≤ magValue t a ∨ magValue t (a + 1) ≤ magValue t y :=
  (le_or_gt y a).imp (fun hy => (magValue_strictMono t).monotone hy) fun hy => (magValue_strictMono t).monotone hy

/-- Rounding to nearest takes the nearest encoding, and the even one where two are as near. -/
theorem Cut.nearest (h : Cut t x a r) (neg : Bool) (y : Nat) :
    |magValue t (roundedEnc 0 neg a r) - x| ≤ |magValue t y - x| ∧
      (|magValue t y - x| = |magValue t (roundedEnc 0 neg a r) - x| → magValue t y ≠ magValue t (roundedEnc 0 neg a r) →
        roundedEnc 0 neg a r % 2 = 0) := by
  obtain ⟨hlow, hhigh⟩ := h.bounds
  obtain ⟨hgt, heq⟩ := h.half_iff
  have hrises : risesBy 0 neg a r = true ↔ 1 / 2 < r ∨ r = 1 / 2 ∧ a % 2 = 1 := decide_eq_true_iff
  rw [hgt, heq] at hrises
  have hy : |magValue t y - x| = x - magValue t y ∧ magValue t y ≤ magValue t a ∨
      |magValue t y - x| = magValue t y - x ∧ magValue t (a + 1) ≤ magValue t y :=
    (magValue_sides t a y).imp (fun hy => ⟨by rw [abs_of_nonpos (by linarith), neg_sub], hy⟩) fun hy => ⟨abs_of_nonneg (by linarith), hy⟩
  by_cases hup : risesBy 0 neg a r = true
  · rw [roundedEnc, if_pos hup, abs_of_nonneg (sub_nonneg.2 hhigh.le)]
    rw [hrises] at hup
    rcases hy with ⟨hy, hside⟩ | ⟨hy, hside⟩ <;> rw [hy]
    · refine ⟨by rcases hup with hup | ⟨hup, -⟩ <;> linarith, fun htie _ => ?_⟩
      obtain ⟨-, hodd⟩ := hup.resolve_left (by linarith)
      omega
    · exact ⟨by linarith, fun htie hne => absurd (by linarith) hne⟩
  · rw [roundedEnc, if_neg hup, abs_of_nonpos (sub_nonpos.2 hlow), neg_sub]
    rw [hrises] at hup
    push Not at hup
    obtain ⟨hle, heven⟩ := hup
    rcases hy with ⟨hy, hside⟩ | ⟨hy, hside⟩ <;> rw [hy]
    · exact ⟨by linarith, fun htie hne => absurd (by linarith) hne⟩
    · refine ⟨by linarith, fun htie _ => ?_⟩
      have := heven (by linarith)
      omega

end Selects

/-! ### Encoding -/

theorem fMag_add_signBit {t : FFmt} {x : Nat} (neg : Bool) (h : x < 2 ^ (t.eb + t.fb)) : fMag t (fSignBit t neg + x) = x := by
  cases neg
  · simp [fMag, fSignBit, Nat.mod_eq_of_lt h]
  · simp [fMag, fSignBit, Nat.mod_eq_of_lt h]

theorem fSign_add_signBit {t : FFmt} {x : Nat} (neg : Bool) (h : x < 2 ^ (t.eb + t.fb)) : fSign t (fSignBit t neg + x) = neg := by
  cases neg
  · simp [fSign, fSignBit, Nat.div_eq_of_lt h]
  · simp [fSign, fSignBit, Nat.div_eq_of_lt h, Nat.add_div_left]

theorem signBit_add_lt {t : FFmt} {x : Nat} (neg : Bool) (h : x < 2 ^ (t.eb + t.fb)) : fSignBit t neg + x < 2 ^ (t.eb + t.fb + 1) := by
  have hle : fSignBit t neg ≤ 2 ^ (t.eb + t.fb) := by cases neg <;> simp [fSignBit]
  rw [pow_succ]
  omega

theorem signBit_even {t : FFmt} (hfb : 0 < t.fb) (neg : Bool) : fSignBit t neg % 2 = 0 := by
  have hdvd : 2 ∣ 2 ^ (t.eb + t.fb) := dvd_pow_self 2 (by omega)
  cases neg
  · rfl
  · exact Nat.mod_eq_zero_of_dvd hdvd

/-- A sign and a magnitude up to the largest finite one encode a finite value. -/
theorem fDecode_signBit_add {t : FFmt} (ht : t.Wf) {x : Nat} (neg : Bool) (h : x ≤ t.big) :
    fDecode t (fSignBit t neg + x) = .fin neg (encCount t x) (t.lsb + encStep t x) := by
  have hlt := h.trans_lt ht.big_lt
  have hmag := fMag_add_signBit neg hlt
  obtain ⟨hnan, hinf⟩ := (ht.finite_iff (fSignBit t neg + x)).2 (hmag.trans_le h)
  rw [fDecode_of_finite hnan hinf, hmag, fSign_add_signBit neg hlt]

/-- The overflow result raises OF or SAT (R75, R76). -/
theorem fOverflow_flags (t : FFmt) (mode : Nat) (sat neg : Bool) : (fOverflow t mode sat neg).2 &&& (flagOF ||| flagSAT) ≠ 0 := by
  have hflags : (fOverflow t mode sat neg).2 = flagSAT ||| flagNX ∨ (fOverflow t mode sat neg).2 = flagOF ||| flagNX := by
    unfold fOverflow
    split
    · exact Or.inl rfl
    · exact Or.inr rfl
  rcases hflags with h | h <;> rw [h] <;> decide

/-- A finite value that an encoding has is rounded to that encoding, under every mode and with no flag. -/
theorem fRound_of_encoded {t : FFmt} (ht : t.Wf) (mode : Nat) (sat : Bool) {neg n : Bool} {m k x : Nat} {e q : Int} (hm : m ≠ 0)
    (hx : x < 2 ^ (t.eb + t.fb + 1)) (hdec : fDecode t x = .fin n k q) (hval : signedVal neg m e = signedVal n k q) :
    fRound t mode sat (.fin neg m e) = (x, 0) := by
  obtain ⟨hsign, hmag⟩ := sign_mag_of_fDecode hdec
  have habs : (m : ℚ) * 2 ^ e = magValue t (fMag t x) := by rw [← hmag, ← abs_signedVal neg, hval, abs_signedVal]
  have hpos : (0 : ℚ) < m * 2 ^ e := by positivity
  have hneg : neg = n := by
    rw [signedVal_eq, signedVal_eq, hmag, ← habs] at hval
    exact sign_eq_of_withSign hpos hval
  obtain ⟨a, r, hcut, hround⟩ := fRound_fin ht.fb_pos mode sat neg hm e
  rw [habs] at hcut
  obtain ⟨rfl, rfl⟩ := hcut.of_magValue
  have hbig : ¬t.big < fMag t x := not_lt.2 ((ht.finite_iff x).1 (finite_of_fDecode hdec))
  rw [hround, roundedEnc_zero, if_neg hbig, hneg, hsign, signBit_add_mag hx]
  simp [flagIf]

/-- A zero is rounded to the zero of its sign. -/
theorem fRound_zero (t : FFmt) (mode : Nat) (sat neg : Bool) (e : Int) : fRound t mode sat (.fin neg 0 e) = (fSignBit t neg, 0) := by
  rw [fRound, if_pos rfl]

/-- An encoding without its sign bit counts no unit only where it is zero. -/
theorem encCount_eq_zero_iff {t : FFmt} {x : Nat} : encCount t x = 0 ↔ x = 0 := by
  rw [← (magValue_strictMono t).injective.eq_iff (a := x), magValue_zero, magValue, mul_eq_zero, Nat.cast_eq_zero, or_iff_left (by positivity)]

/-- A finite encoding, decoded and rounded again, is itself. -/
theorem fRound_fDecode {t : FFmt} (ht : t.Wf) (mode : Nat) (sat : Bool) {x : Nat} (hx : x < 2 ^ (t.eb + t.fb + 1)) (hnan : fIsNaN t x = false)
    (hinf : fIsInf t x = false) : fRound t mode sat (fDecode t x) = (x, 0) := by
  have hdec := fDecode_of_finite hnan hinf
  by_cases hk : encCount t (fMag t x) = 0
  · have hmag := signBit_add_mag hx
    rw [encCount_eq_zero_iff.1 hk, add_zero] at hmag
    rw [hdec, hk, fRound_zero, hmag]
  · have hround := fRound_of_encoded ht mode sat hk hx hdec rfl
    rwa [← hdec] at hround

/-! ### What each mode selects among signed values -/

section Signed

variable {t : FFmt} {x : ℚ} {a : Nat} {r : ℚ}

/-- A magnitude lies no nearer to another one with the opposite sign. -/
theorem abs_sub_le_of_signs {x y : ℚ} (hx : 0 < x) (hy : 0 ≤ y) (neg n : Bool) : |y - x| ≤ |withSign n y - withSign neg x| ∧
    (|withSign n y - withSign neg x| = |y - x| → withSign n y = withSign neg y) := by
  have hopp : |y - x| ≤ y + x ∧ (y + x = |y - x| → y = 0) := by
    rcases le_total x y with h | h
    · rw [abs_of_nonneg (sub_nonneg.2 h)]
      exact ⟨by linarith, fun he => by linarith⟩
    · rw [abs_of_nonpos (sub_nonpos.2 h)]
      exact ⟨by linarith, fun he => by linarith⟩
  obtain ⟨hle, hzero⟩ := hopp
  have hsum : |y + x| = y + x := abs_of_nonneg (by linarith)
  cases neg <;> cases n <;> simp only [withSign, if_true, if_false, Bool.false_eq_true]
  · exact ⟨le_rfl, fun _ => trivial⟩
  · rw [← neg_add', abs_neg, hsum]
    exact ⟨hle, fun he => by rw [hzero he, neg_zero]⟩
  · rw [sub_neg_eq_add, hsum]
    exact ⟨hle, fun he => by rw [hzero he, neg_zero]⟩
  · rw [neg_sub_neg, abs_sub_comm]
    exact ⟨le_rfl, fun _ => trivial⟩

/-- To nearest, among the signed values. -/
theorem Cut.nearest_signed (h : Cut t x a r) (hx : 0 < x) (neg n : Bool) (y : Nat) :
    let E := magValue t (roundedEnc 0 neg a r)
    |withSign neg E - withSign neg x| ≤ |withSign n (magValue t y) - withSign neg x| ∧
      (|withSign n (magValue t y) - withSign neg x| = |withSign neg E - withSign neg x| → withSign n (magValue t y) ≠ withSign neg E →
        roundedEnc 0 neg a r % 2 = 0) := by
  intro E
  obtain ⟨hnear, heven⟩ := h.nearest neg y
  obtain ⟨hle, hsame⟩ := abs_sub_le_of_signs hx (magValue_nonneg t y) neg n
  have hE : |withSign neg E - withSign neg x| = |E - x| := by
    cases neg
    · rfl
    · exact (congrArg abs (neg_sub_neg E x)).trans (abs_sub_comm x E)
  rw [hE]
  refine ⟨hnear.trans hle, fun htie hne => ?_⟩
  have hmag : |magValue t y - x| = |E - x| := le_antisymm (hle.trans htie.le) hnear
  refine heven hmag fun hy => hne ?_
  rw [hsame (htie.trans hmag.symm), hy]

/-- Toward −∞, among the signed values. -/
theorem Cut.downward_signed (h : Cut t x a r) (hx : 0 < x) (neg n : Bool) (y : Nat) :
    let E := magValue t (roundedEnc 2 neg a r)
    withSign neg E ≤ withSign neg x ∧ (withSign n (magValue t y) ≤ withSign neg x → withSign n (magValue t y) ≤ withSign neg E) := by
  have hy := magValue_nonneg t y
  cases neg
  · obtain ⟨hle, hmax⟩ := h.greatest_below (mode := 2) (neg := false) (by decide)
    have hE := magValue_nonneg t (roundedEnc 2 false a r)
    cases n
    · exact ⟨hle, hmax y⟩
    · exact ⟨hle, fun _ => (neg_nonpos.2 hy).trans hE⟩
  · obtain ⟨hle, hmin⟩ := h.least_above (mode := 2) (neg := true) (by decide)
    refine ⟨neg_le_neg hle, fun hyx => ?_⟩
    cases n
    · exact absurd (hy.trans hyx) (not_le.2 (neg_neg_of_pos hx))
    · exact neg_le_neg (hmin y (neg_le_neg_iff.1 hyx))

/-- Toward +∞, among the signed values. -/
theorem Cut.upward_signed (h : Cut t x a r) (hx : 0 < x) (neg n : Bool) (y : Nat) :
    let E := magValue t (roundedEnc 3 neg a r)
    withSign neg x ≤ withSign neg E ∧ (withSign neg x ≤ withSign n (magValue t y) → withSign neg E ≤ withSign n (magValue t y)) := by
  have hy := magValue_nonneg t y
  cases neg
  · obtain ⟨hle, hmin⟩ := h.least_above (mode := 3) (neg := false) (by decide)
    refine ⟨hle, fun hyx => ?_⟩
    cases n
    · exact hmin y hyx
    · exact absurd (hx.trans_le hyx) (not_lt.2 (neg_nonpos.2 hy))
  · obtain ⟨hle, hmax⟩ := h.greatest_below (mode := 3) (neg := true) (by decide)
    have hE := magValue_nonneg t (roundedEnc 3 true a r)
    refine ⟨neg_le_neg hle, fun hyx => ?_⟩
    cases n
    · exact (neg_nonpos.2 hE).trans hy
    · exact neg_le_neg (hmax y (neg_le_neg_iff.1 hyx))

end Signed

/-! ### The statement -/

/-- What rounding gives where it raises neither OF nor SAT: a sign and one of the encodings on either side, with NX where a part was cut off. -/
theorem fRound_no_overflow {t : FFmt} (ht : t.Wf) (mode : Nat) (neg : Bool) {m : Nat} (hm : m ≠ 0) (e : Int)
    (h : (fRound t mode false (.fin neg m e)).2 &&& (flagOF ||| flagSAT) = 0) :
    ∃ a r, Cut t (m * 2 ^ e) a r ∧ roundedEnc mode neg a r ≤ t.big ∧
      (fRound t mode false (.fin neg m e)).1 = fSignBit t neg + roundedEnc mode neg a r ∧
      ((fRound t mode false (.fin neg m e)).2 &&& flagNX ≠ 0 ↔ r ≠ 0) := by
  obtain ⟨a, r, hcut, hround⟩ := fRound_fin ht.fb_pos mode false neg hm e
  rw [hround] at h ⊢
  split at h
  · exact absurd h (fOverflow_flags t mode false neg)
  · next hle =>
    rw [if_neg hle]
    refine ⟨a, r, hcut, not_lt.1 hle, rfl, ?_⟩
    by_cases hr : r = 0 <;> cases fTiny t mode neg m e <;> simp [hr] <;> decide

/-- Settles O13: a rounding takes one of the two encodings on either side of the exact value, by its mode. -/
theorem floatRounding : Obligations.FloatRounding := by
  unfold Obligations.FloatRounding
  refine ⟨?_, fun t ht mode x sat hx hnan hinf => fRound_fDecode (wf_of_mem ht) mode sat hx hnan hinf⟩
  intro t ht mode neg m e val v r hmode hm hflags
  have hwf := wf_of_mem ht
  have hx : (0 : ℚ) < m * 2 ^ e := by positivity
  obtain ⟨a, p, hcut, hbig, henc, hnx⟩ := fRound_no_overflow hwf mode neg hm e hflags
  have hlt := hbig.trans_lt hwf.big_lt
  have hv : v = withSign neg (m * 2 ^ e) := signedVal_eq neg m e
  have hr : val neg (encCount t (roundedEnc mode neg a p)) (t.lsb + encStep t (roundedEnc mode neg a p)) =
      withSign neg (magValue t (roundedEnc mode neg a p)) := signedVal_eq ..
  refine ⟨henc ▸ signBit_add_lt neg hlt, neg, _, _, henc ▸ fDecode_signBit_add hwf neg hbig, ?_, ?_⟩
  · rw [hr, hv, (withSign_inj neg).ne, (hcut.roundedEnc_eq_iff mode neg).ne]
    exact hnx
  · intro y n' k' q' _ hdec
    obtain ⟨-, hmag⟩ := sign_mag_of_fDecode hdec
    have hw : val n' k' q' = withSign n' (magValue t (fMag t y)) := (signedVal_eq n' k' q').trans (by rw [hmag])
    rw [hr, hv, hw]
    refine ⟨?_, ?_, ?_, ?_⟩ <;> rintro rfl
    · obtain ⟨hle, heven⟩ := hcut.nearest_signed hx neg n' (fMag t y)
      refine ⟨hle, fun htie hne => ?_⟩
      have hbit := signBit_even hwf.fb_pos neg
      have := heven htie hne
      rw [henc]
      omega
    · obtain ⟨hle, hmax⟩ := hcut.greatest_below (mode := 1) (neg := neg) (Or.inl rfl)
      rw [abs_withSign _ (magValue_nonneg ..), abs_withSign _ hx.le, abs_withSign _ (magValue_nonneg ..)]
      exact ⟨hle, hmax _⟩
    · exact hcut.downward_signed hx neg n' (fMag t y)
    · exact hcut.upward_signed hx neg n' (fMag t y)

end Sys2Proof.Machine
end

