-- ==== Sys2Proof/Proofs/SpecialValues.lean ====
section
/-!
SUPPORT. The fixed results of the special functions (R81, O12). Each is an exact value that the function gives without its series; where that value
has an encoding, the one rounding gives it under every mode.
-/
namespace Sys2Proof.Machine

/-! ### The three formats of the special functions -/

/-- What the special functions need of a format: infinities at the greatest exponent field, a one among its normal values, and a range within
the exponents that the functions take as small. -/
structure FFmt.Special (t : FFmt) : Prop where
  ieee : t.e4m3 = false
  fb_pos : 0 < t.fb
  big_eq : t.big + 1 = (2 ^ t.eb - 1) * 2 ^ t.fb
  bias_pos : 0 < t.bias
  bias_lt : t.bias < 2 ^ t.eb - 1
  lsb_ge : -640 ≤ t.lsb
  top_le : t.fb + 1 + (t.lsb + 2 ^ t.eb) ≤ 4096

theorem special_of_mem {t : FFmt} (h : t ∈ [fmtF32, fmtF16, fmtBF16]) : t.Special := by
  simp only [List.mem_cons, List.not_mem_nil, or_false] at h
  rcases h with rfl | rfl | rfl <;> exact ⟨rfl, by decide, by decide, by decide, by decide, by decide, by decide⟩

theorem FFmt.Special.wf {t : FFmt} (h : t.Special) : t.Wf := wf_of_ieee h.ieee h.fb_pos h.big_eq

/-! ### The encodings that R81 names -/

section Encodings

variable {t : FFmt} (ht : t.Special)
include ht

theorem fDecode_signBit (neg : Bool) : fDecode t (fSignBit t neg) = .fin neg 0 t.lsb := by
  have hdec := fDecode_signBit_add ht.wf neg (Nat.zero_le t.big)
  simpa [encCount, encStep] using hdec

theorem fDecode_fInf (neg : Bool) : fDecode t (fInf t neg) = .inf neg := by
  have hlt : (2 ^ t.eb - 1) * 2 ^ t.fb < 2 ^ (t.eb + t.fb) := by
    rw [pow_add]
    exact Nat.mul_lt_mul_of_pos_right (Nat.sub_lt (by positivity) one_pos) (by positivity)
  have hinf : fInf t neg = fSignBit t neg + (2 ^ t.eb - 1) * 2 ^ t.fb := by rw [fInf, ht.ieee, if_neg (by decide)]
  have hmag : fMag t (fInf t neg) = (2 ^ t.eb - 1) * 2 ^ t.fb := by rw [hinf, fMag_add_signBit neg hlt]
  have hexp : fExp t (fInf t neg) = 2 ^ t.eb - 1 := by rw [fExp_eq, hmag, Nat.mul_div_cancel _ (by positivity)]
  have hfrac : fFrac t (fInf t neg) = 0 := by rw [fFrac_eq, hmag, Nat.mul_mod_left]
  have hsign : fSign t (fInf t neg) = neg := by rw [hinf, fSign_add_signBit neg hlt]
  simp [fDecode, fIsNaN, fIsInf, ht.ieee, hexp, hfrac, hsign]

/-- 1 and −1 are encoded with a zero fraction. -/
theorem fDecode_one (neg : Bool) : fDecode t (fSignBit t neg + t.bias * 2 ^ t.fb) = .fin neg (2 ^ t.fb) (-t.fb) := by
  have hbig : t.bias * 2 ^ t.fb ≤ t.big := by
    have hle : (t.bias + 1) * 2 ^ t.fb ≤ t.big + 1 := ht.big_eq ▸ Nat.mul_le_mul_right _ ht.bias_lt
    have hpos : 0 < 2 ^ t.fb := by positivity
    rw [Nat.succ_mul] at hle
    omega
  obtain ⟨b, hb⟩ : ∃ b, t.bias = b + 1 := ⟨t.bias - 1, by have := ht.bias_pos; omega⟩
  have hone : t.bias * 2 ^ t.fb = b * 2 ^ t.fb + 2 ^ t.fb := by rw [hb, Nat.succ_mul]
  obtain ⟨hstep, hcount⟩ := encStep_encCount (t := t) (g := b) (Or.inr le_rfl) (Nat.pow_lt_pow_succ (by decide))
  rw [← hone] at hstep hcount
  have hunit : t.lsb + b = -t.fb := by rw [FFmt.lsb, hb]; push_cast; ring
  rw [fDecode_signBit_add ht.wf neg hbig, hstep, hcount, hunit]

end Encodings

/-! ### Results that are rounded to themselves -/

theorem fFinish_nan (t : FFmt) (mode : Nat) (sat : Bool) (f : Flags) : fFinish t mode sat (.nan, f) = (fCanon t, f) := by
  simp [fFinish, fRound]

theorem fFinish_zero (t : FFmt) (mode : Nat) (sat neg : Bool) (e : Int) (f : Flags) :
    fFinish t mode sat (.fin neg 0 e, f) = (fSignBit t neg, f) := by
  simp [fFinish, fRound_zero]

section Results

variable {t : FFmt} (ht : t.Special) (mode : Nat) (sat : Bool)
include ht

theorem fFinish_inf (neg : Bool) (f : Flags) : fFinish t mode sat (.inf neg, f) = (fInf t neg, f) := by
  simp [fFinish, fRound, ht.ieee, flagIf]

/-- A finite value that an encoding has is given as that encoding. -/
theorem fFinish_of_encoded {neg n : Bool} {m k y : Nat} {e q : Int} (hm : m ≠ 0) (hy : y < 2 ^ (t.eb + t.fb + 1)) (hdec : fDecode t y = .fin n k q)
    (hval : signedVal neg m e = signedVal n k q) : fFinish t mode sat (.fin neg m e, 0) = (y, 0) := by
  simp [fFinish, fRound_of_encoded ht.wf mode sat hm hy hdec hval]

theorem fFinish_one (neg : Bool) : fFinish t mode sat (.fin neg 1 0, 0) = (fSignBit t neg + t.bias * 2 ^ t.fb, 0) := by
  have hlt : t.bias * 2 ^ t.fb < 2 ^ (t.eb + t.fb) := by
    rw [pow_add]
    exact Nat.mul_lt_mul_of_pos_right (ht.bias_lt.trans_le (Nat.sub_le _ _)) (by positivity)
  refine fFinish_of_encoded ht mode sat one_ne_zero (signBit_add_lt neg hlt) (fDecode_one ht neg) ?_
  rw [signedVal_eq, signedVal_eq]
  simp

end Results

/-! ### Operands -/

section Operands

variable {t : FFmt} (mode : Nat) (sat : Bool)

theorem notNaN_of_fDecode {x : Nat} (h : fDecode t x ≠ .nan) : fIsNaN t x = false := by
  by_contra hnan
  rw [Bool.not_eq_false] at hnan
  exact h (by rw [fDecode, hnan, if_pos rfl])

/-- A special function of an operand that is no NaN rounds its value once (R192). -/
theorem spUnary_of_decode (fn : XV → SpecialR) {x : Nat} {v : XV} (hx : fDecode t x = v) (hv : v ≠ .nan) :
    spUnary fn t mode sat x = fFinish t mode sat (fn v) := by
  have hnan : fIsNaN t x = false := notNaN_of_fDecode (hx ▸ hv)
  simp [spUnary, nanSelect, hnan, hx]

/-- A quotient of operands that are no NaN rounds its value once (R192). -/
theorem spBinary_of_decode {x y : Nat} {v w : XV} (hx : fDecode t x = v) (hv : v ≠ .nan) (hy : fDecode t y = w) (hw : w ≠ .nan) :
    spBinary t mode sat x y = fFinish t mode sat (spDiv v w) := by
  have hnx : fIsNaN t x = false := notNaN_of_fDecode (hx ▸ hv)
  have hny : fIsNaN t y = false := notNaN_of_fDecode (hy ▸ hw)
  simp [spBinary, nanSelect, hnx, hny, hx, hy]

/-- A finite encoding other than a zero has a count of units other than zero. -/
theorem fDecode_nonzero {x : Nat} (hnan : fIsNaN t x = false) (hinf : fIsInf t x = false) (hx : x % 2 ^ (t.eb + t.fb) ≠ 0) :
    ∃ m e, fDecode t x = .fin (fSign t x) m e ∧ m ≠ 0 :=
  ⟨_, _, fDecode_of_finite hnan hinf, mt encCount_eq_zero_iff.1 hx⟩

/-- An encoding below zero decodes to −∞ or to a negative number. -/
theorem fDecode_below {x : Nat} (hnan : fIsNaN t x = false) (hsign : fSign t x = true) (hx : x % 2 ^ (t.eb + t.fb) ≠ 0) :
    fDecode t x = .inf true ∨ ∃ m e, fDecode t x = .fin true m e ∧ m ≠ 0 := by
  cases hinf : fIsInf t x
  · exact Or.inr (hsign ▸ fDecode_nonzero hnan hinf hx)
  · left
    simp [fDecode, hnan, hinf, hsign]

/-- A function that is invalid below zero gives NaN and NV there. -/
theorem spUnary_below {fn : XV → SpecialR} (hinf : fn (.inf true) = (.nan, flagNV)) (hfin : ∀ m e, m ≠ 0 → fn (.fin true m e) = (.nan, flagNV))
    {x : Nat} (hnan : fIsNaN t x = false) (hsign : fSign t x = true) (hx : x % 2 ^ (t.eb + t.fb) ≠ 0) :
    spUnary fn t mode sat x = (fCanon t, flagNV) := by
  rcases fDecode_below hnan hsign hx with h | ⟨m, e, h, hm⟩
  · rw [spUnary_of_decode mode sat fn h (by simp), hinf, fFinish_nan]
  · rw [spUnary_of_decode mode sat fn h (by simp), hfin m e hm, fFinish_nan]

end Operands

/-! ### Powers of two and their logarithms -/

theorem fxOne_pos : 0 < fxOne := Nat.two_pow_pos fxBits

/-- The fixed-point value of an integer has no fraction bits. -/
theorem fxOf_of_int {m k : Nat} {e : Int} (he : -640 ≤ e) (h : (m : ℚ) * 2 ^ e = k) : fxOf m e = k * fxOne := by
  obtain ⟨j, hj⟩ := Int.eq_ofNat_of_zero_le (show 0 ≤ e + fxBits by rw [fxBits]; omega)
  have hpow : (2 : ℚ) ^ e * 2 ^ fxBits = 2 ^ j := by rw [← zpow_natCast, ← zpow_natCast, ← hj, zpow_add₀ (by norm_num)]
  rw [fxOf, hj, if_pos (Int.natCast_nonneg j), Int.toNat_natCast, fxOne, ← @Nat.cast_inj ℚ]
  push_cast
  rw [← hpow, ← mul_assoc, h]

/-- 2^x of an integer x that is small enough is exact. -/
theorem spExp2_of_int {n : Bool} {m : Nat} {e k : Int} (he : -640 ≤ e) (hk : k.natAbs < 4096) (h : signedVal n m e = k) :
    spExp2 (.fin n m e) = (.fin false 1 k, 0) := by
  have habs : (m : ℚ) * 2 ^ e = k.natAbs := by rw [← abs_signedVal n, h, Nat.cast_natAbs, Int.cast_abs]
  rw [spExp2]
  split
  · next hm =>
    have hk0 : k = 0 := by simpa [signedVal, hm] using h.symm
    rw [hk0]
  · next hm =>
    have htop : ¬12 ≤ e + (Nat.log2 m : Int) := fun h12 => by
      have hle := (zpow_le_zpow_right₀ (one_le_two (α := ℚ)) h12).trans (pow_log2_le hm e)
      have hlt : (k.natAbs : ℚ) < 2 ^ (12 : Int) := by
        norm_num only
        exact_mod_cast hk
      exact absurd (habs ▸ hle) hlt.not_ge
    have hdiv : k.natAbs * fxOne / fxOne = k.natAbs := Nat.mul_div_cancel _ fxOne_pos
    have hmod : k.natAbs * fxOne % fxOne = 0 := Nat.mul_mod_left _ _
    rw [if_neg htop, fxOf_of_int he habs]
    dsimp only
    rw [hdiv, hmod]
    rw [signedVal_eq, habs] at h
    cases n
    · have hk : (k.natAbs : Int) = k := (Int.cast_inj (α := ℚ)).1 (by rw [Int.cast_natCast]; exact h)
      simp only [Bool.false_eq_true, if_false, if_true, hk]
    · have hk : -(k.natAbs : Int) = k := (Int.cast_inj (α := ℚ)).1 (by rw [Int.cast_neg, Int.cast_natCast]; exact h)
      simp only [if_true, hk]

/-- The logarithm of a power of two is exact. -/
theorem spLog2_of_pow {n : Bool} {m : Nat} {e k : Int} (h : signedVal n m e = 2 ^ k) :
    spLog2 (.fin n m e) = (.fin (k < 0) k.natAbs 0, 0) := by
  have hpos : (0 : ℚ) < 2 ^ k := by positivity
  have habs : (m : ℚ) * 2 ^ e = 2 ^ k := by rw [← abs_signedVal n, h, abs_of_pos hpos]
  have hm : m ≠ 0 := by
    rintro rfl
    simp at habs
    exact hpos.ne habs
  have hn : n = false := by
    rw [signedVal_eq, habs] at h
    cases n
    · rfl
    · exact absurd h (by simp only [withSign, if_true]; linarith)
  have hk : e + (Nat.log2 m : Int) = k := by
    have hle := pow_log2_le hm e
    have hlt := lt_pow_log2 m e
    rw [habs] at hle hlt
    have hle := (zpow_le_zpow_iff_right₀ (one_lt_two (α := ℚ))).1 hle
    have hlt := (zpow_lt_zpow_iff_right₀ (one_lt_two (α := ℚ))).1 hlt
    omega
  have hpow : m = 2 ^ Nat.log2 m := by
    have he : (0 : ℚ) < 2 ^ e := by positivity
    rw [← hk, add_comm e, zpow_add₀ (by norm_num), zpow_natCast] at habs
    exact_mod_cast mul_right_cancel₀ he.ne' habs
  rw [spLog2, if_neg hm, hn, if_neg (by decide)]
  simp only [hk, ← hpow, if_true]

/-- The nonzero values of a format lie between its least subnormal value and the end of its greatest binade. -/
theorem magValue_bounds {t : FFmt} {x : Nat} (hx : x < 2 ^ (t.eb + t.fb)) (h0 : x ≠ 0) :
    (2 : ℚ) ^ t.lsb ≤ magValue t x ∧ magValue t x < 2 ^ (t.fb + 1 + (t.lsb + 2 ^ t.eb)) := by
  constructor
  · have hone := magValue_of_count (t := t) (g := 0) (n := 1) (Or.inl rfl) Nat.one_le_two_pow
    have hle := (magValue_strictMono t).monotone (Nat.one_le_iff_ne_zero.2 h0)
    rw [zero_mul, zero_add] at hone
    simpa using hone.symm.trans_le hle
  · obtain ⟨-, -, hcount⟩ := enc_split t x
    have hstep : encStep t x ≤ 2 ^ t.eb := by
      rw [pow_add] at hx
      exact (Nat.sub_le _ _).trans (Nat.div_lt_of_lt_mul (mul_comm (2 ^ t.eb) _ ▸ hx)).le
    have hcount : (encCount t x : ℚ) < 2 ^ ((t.fb : Int) + 1) := by exact_mod_cast hcount
    have hstep : (encStep t x : Int) ≤ 2 ^ t.eb := by exact_mod_cast hstep
    have hunit : (2 : ℚ) ^ (t.lsb + encStep t x) ≤ 2 ^ (t.lsb + 2 ^ t.eb) := zpow_le_zpow_right₀ one_le_two (by omega)
    rw [magValue, zpow_add₀ (by norm_num) (t.fb + 1 : Int)]
    exact mul_lt_mul hcount hunit (by positivity) (by positivity)

/-- A value with an encoding, as R81 speaks of it. -/
def Encodes (t : FFmt) (x : Nat) (v : ℚ) : Prop := x < 2 ^ (t.eb + t.fb + 1) ∧ ∃ n k q, fDecode t x = .fin n k q ∧ signedVal n k q = v

/-- A power of two that has an encoding is of a small exponent. -/
theorem natAbs_lt_of_encodes_pow {t : FFmt} (ht : t.Special) {y : Nat} {k : Int} (hy : Encodes t y (2 ^ k)) : k.natAbs < 4096 := by
  obtain ⟨-, n, m, q, hdec, hval⟩ := hy
  obtain ⟨-, hmag⟩ := sign_mag_of_fDecode hdec
  have hpos : (0 : ℚ) < 2 ^ k := by positivity
  have hpow : magValue t (fMag t y) = 2 ^ k := by rw [← hmag, ← abs_signedVal n, hval, abs_of_pos hpos]
  have h0 : fMag t y ≠ 0 := fun h => hpos.ne (by rw [← hpow, h, magValue_zero])
  obtain ⟨hlow, hhigh⟩ := magValue_bounds (Nat.mod_lt y (by positivity)) h0
  have hlow := (zpow_le_zpow_iff_right₀ (one_lt_two (α := ℚ))).1 (hlow.trans_eq hpow)
  have hhigh := (zpow_lt_zpow_iff_right₀ (one_lt_two (α := ℚ))).1 (hpow.symm.trans_lt hhigh)
  have := ht.lsb_ge
  have := ht.top_le
  omega

section Powers

variable {t : FFmt} (ht : t.Special) (mode : Nat) (sat : Bool)
include ht

theorem fDecode_exp_ge {x m : Nat} {n : Bool} {e : Int} (h : fDecode t x = .fin n m e) : -640 ≤ e := by
  obtain ⟨hnan, hinf⟩ := finite_of_fDecode h
  rw [fDecode_of_finite hnan hinf] at h
  cases h
  have := ht.lsb_ge
  omega

/-- VEXP2 of an integer whose power has an encoding is that encoding. -/
theorem spUnary_spExp2 {x y : Nat} {k : Int} (hx : Encodes t x k) (hy : Encodes t y (2 ^ k)) : spUnary spExp2 t mode sat x = (y, 0) := by
  have hk := natAbs_lt_of_encodes_pow ht hy
  obtain ⟨-, n, m, e, hdx, hvx⟩ := hx
  obtain ⟨hlt, n', m', q, hdy, hvy⟩ := hy
  rw [spUnary_of_decode mode sat _ hdx (by simp), spExp2_of_int (fDecode_exp_ge ht hdx) hk hvx]
  refine fFinish_of_encoded ht mode sat one_ne_zero hlt hdy ?_
  rw [hvy]
  simp [signedVal]

/-- VLOG2 of a power of two whose exponent has an encoding, other than −0, is that encoding. -/
theorem spUnary_spLog2 {x y : Nat} {k : Int} (hx : Encodes t x (2 ^ k)) (hy : Encodes t y k) (hne : y ≠ fSignBit t true) :
    spUnary spLog2 t mode sat x = (y, 0) := by
  obtain ⟨-, n, m, e, hdx, hvx⟩ := hx
  obtain ⟨hlt, n', m', q, hdy, hvy⟩ := hy
  rw [spUnary_of_decode mode sat _ hdx (by simp), spLog2_of_pow hvx]
  by_cases hk : k = 0
  · obtain ⟨-, hmag⟩ := sign_mag_of_fDecode hdy
    have hzero : magValue t (fMag t y) = magValue t 0 := by rw [← hmag, ← abs_signedVal n', hvy, hk, magValue_zero]; simp
    have hmag := (magValue_strictMono t).injective hzero
    have hsplit := signBit_add_mag hlt
    rw [hmag, add_zero] at hsplit
    have hsign : fSign t y = false := by
      by_contra h
      rw [Bool.not_eq_false] at h
      exact hne (by rw [← hsplit, h])
    rw [hsign] at hsplit
    rw [hk, Int.natAbs_zero, fFinish_zero, ← hsplit]
    rfl
  · refine fFinish_of_encoded ht mode sat (Int.natAbs_ne_zero.2 hk) hlt hdy ?_
    have habs : ((k.natAbs : Nat) : ℚ) = |(k : ℚ)| := by rw [Nat.cast_natAbs, Int.cast_abs]
    rw [hvy, signedVal_eq, zpow_zero, mul_one, habs, withSign]
    split
    · next hneg => rw [abs_of_neg (by exact_mod_cast of_decide_eq_true hneg), neg_neg]
    · next hpos => exact abs_of_nonneg (by exact_mod_cast not_lt.1 (of_decide_eq_false (Bool.eq_false_iff.2 hpos)))

end Powers

/-! ### The statement -/

/-- Settles O12: each fixed result is an exact value that the one rounding gives as its encoding. -/
theorem specialValues : Obligations.SpecialValues := by
  unfold Obligations.SpecialValues
  intro t hmem mode sat at_ zero inf nan one below is
  have ht := special_of_mem hmem
  have hdz := fDecode_signBit ht
  have hdi := fDecode_fInf ht
  have hzero : ∀ fn neg, at_ fn (zero neg) = fFinish t mode sat (fn (.fin neg 0 t.lsb)) := fun fn neg =>
    spUnary_of_decode mode sat fn (hdz neg) (by simp)
  have hinf : ∀ fn neg, at_ fn (inf neg) = fFinish t mode sat (fn (.inf neg)) := fun fn neg =>
    spUnary_of_decode mode sat fn (hdi neg) (by simp)
  have hfinf := fFinish_inf ht mode sat
  have hfzero := fFinish_zero t mode sat
  have hfnan := fFinish_nan t mode sat flagNV
  have hfone := fFinish_one ht mode sat
  refine ⟨fun x y k => spUnary_spExp2 ht mode sat, fun x y k => spUnary_spLog2 ht mode sat, ?exp2_neg, ?exp2_pos, ?log2_zero, ?log2_inf,
    ?log2_below, ?rcp_zero, ?rcp_inf, ?rsq_zero, ?rsq_inf, ?rsq_below, ?sqrt_zero, ?sqrt_inf, ?sqrt_below, ?div_zeros, ?div_infs, ?div_by_zero,
    ?tanh_zero, ?tanh_inf, ?sin_zero, ?sin_inf, ?cos_zero, ?cos_inf⟩
  case exp2_neg => exact (hinf _ true).trans (hfzero false 0 0)
  case exp2_pos => exact (hinf _ false).trans (hfinf false 0)
  case log2_zero => exact fun neg => (hzero _ neg).trans (hfinf true flagDZ)
  case log2_inf => exact (hinf _ false).trans (hfinf false 0)
  case log2_below => exact fun x ⟨h1, h2, h3⟩ => spUnary_below mode sat rfl (fun m e hm => by simp [spLog2, hm]) h1 h2 h3
  case rcp_zero => exact fun neg => (hzero _ neg).trans (hfinf neg flagDZ)
  case rcp_inf => exact fun neg => (hinf _ neg).trans (hfzero neg 0 0)
  case rsq_zero => exact fun neg => (hzero _ neg).trans (hfinf neg flagDZ)
  case rsq_inf => exact (hinf _ false).trans (hfzero false 0 0)
  case rsq_below => exact fun x ⟨h1, h2, h3⟩ => spUnary_below mode sat rfl (fun m e hm => by simp [spRsq, hm]) h1 h2 h3
  case sqrt_zero => exact fun neg => (hzero _ neg).trans (hfzero neg 0 0)
  case sqrt_inf => exact (hinf _ false).trans (hfinf false 0)
  case sqrt_below => exact fun x ⟨h1, h2, h3⟩ => spUnary_below mode sat rfl (fun m e hm => by simp [spSqrt, hm]) h1 h2 h3
  case div_zeros => exact fun a b => (spBinary_of_decode mode sat (hdz a) (by simp) (hdz b) (by simp)).trans hfnan
  case div_infs => exact fun a b => (spBinary_of_decode mode sat (hdi a) (by simp) (hdi b) (by simp)).trans hfnan
  case div_by_zero =>
    intro x b h1 h2 h3
    obtain ⟨m, e, hx, hm⟩ := fDecode_nonzero h1 h2 h3
    rw [spBinary_of_decode mode sat hx (by simp) (hdz b) (by simp), spDiv, if_pos rfl, if_neg hm, hfinf, Bool.bne_eq_xor]
  case tanh_zero => exact fun neg => (hzero _ neg).trans (hfzero neg 0 0)
  case tanh_inf => exact fun neg => (hinf _ neg).trans (hfone neg)
  case sin_zero => exact fun neg => (hzero _ neg).trans (hfzero neg 0 0)
  case sin_inf => exact fun neg => (hinf _ neg).trans hfnan
  case cos_zero => exact fun neg => (hzero _ neg).trans ((hfone false).trans (by simp [fSignBit, one]))
  case cos_inf => exact fun neg => (hinf _ neg).trans hfnan

end Sys2Proof.Machine
end

