-- ==== Sys2Proof/Proofs/CopyIssue.lean ====
section
/-!
SUPPORT. signal_add on a value (O26), and the issue of CPY and TMOV (O23).
-/
namespace Sys2Proof.Machine

/-- Settles O26: the four cases are those of the definition, and a sum that is not clamped wraps nowhere. -/
theorem signalAdd : Obligations.SignalAdd := by
  unfold Obligations.SignalAdd
  intro v d
  refine ⟨?kept, ?taken, ?added, ?clamped⟩
  case kept => exact fun hv => if_pos hv
  case taken => exact fun hv hd => by rw [signalNew, if_neg (not_lt.2 hv), if_pos hd]
  case added =>
    intro hv hd hsum
    rw [signalNew, if_neg (not_lt.2 hv), if_neg (not_lt.2 hd)]
    simp only [if_neg (not_lt.2 hsum), BitVec.ofInt_add, BitVec.ofInt_toInt]
  case clamped =>
    intro hv hd hsum
    rw [signalNew, if_neg (not_lt.2 hv), if_neg (not_lt.2 hd)]
    simp only [if_pos hsum]

section Issue
variable {s : State} {f : OpF} {tile : Bool} {c : Comp} {accs : List Acc} {rs : List Req × List Req}

/-- What a copy checks before it issues: its word, its completion word, room, and its accesses. -/
structure CopyReady (tile : Bool) (f : OpF) (s : State) (rs : List Req × List Req) (c : Comp) (accs : List Acc) : Prop where
  pair : (if tile then tmovPair s.g f else cpyPair s.g f) = rs
  word : copyOk tile f = true
  comp : compRead s true (copyCwen f) (copyCreg f) = .ok c
  room : s.g.copies.length < 63
  tag : tagRoom c.tag s.t = true
  checks : checkReqs s 1 (rs.1 ++ rs.2 ++ compReqs c) = .ok accs

/-- Past its checks a copy raises COPY_OVERLAP where it is a tile that overlaps, and else reserves its lines and issues. -/
theorem CopyReady.body (h : CopyReady tile f s rs c accs) :
    copyBody tile f s = if tile && tileOverlap s.g f then .trap (.plain 11) else
      (reserve s 1 ((accs.drop rs.1.length).take rs.1.length) (compRecs s c)).bind fun _ => .ok (copyIssue tile rs.1.length c accs s) := by
  obtain ⟨rfl, hword, hcomp, hlen, htag, hchecks⟩ := h
  have hroom : copyRoom s c = true := by simp [copyRoom, hlen, htag]
  simp only [copyBody, hword, hcomp, hroom, hchecks, Res.require_true, Res.bind_ok, if_true]

/-- A copy that overlaps nothing issues once its lines are reserved. -/
theorem CopyReady.body_ok (h : CopyReady tile f s rs c accs) (ho : (tile && tileOverlap s.g f) = false)
    (hres : reserve s 1 ((accs.drop rs.1.length).take rs.1.length) (compRecs s c) = .ok ()) :
    copyBody tile f s = .ok (copyIssue tile rs.1.length c accs s) := by
  rw [h.body, ho, hres]
  rfl

/-- What a command does at issue leaves its group. -/
@[simp] theorem compStart_g (sig : Option SigRef) : (compStart c sig s).g = s.g := by
  unfold compStart
  split
  · rfl
  · dsimp only
    split
    · exact updLaunch_g _ _ _
    · rfl

end Issue

/-- Settles O23: both ops are the one body of copies, whose checks pass. -/
theorem copyIssues : Obligations.CopyIssue := by
  unfold Obligations.CopyIssue
  intro f s c accs
  dsimp only
  simp only [compStart_g]
  refine ⟨?cpy, ?tmov, ?overlap⟩
  case cpy =>
    rintro hi ⟨hword, hcomp, hroom, htag, hchecks, hres⟩
    have h : CopyReady false f s (cpyPair s.g f) c accs := ⟨rfl, hword, hcomp, hroom, htag, hchecks⟩
    refine (runWith_issues hi).trans ?_
    rw [h.body_ok rfl hres, finish_ok, goesOnWith, copyIssue]
    simp only [compStart_g]
  case tmov =>
    rintro hi ⟨hword, hcomp, hroom, htag, hchecks, hres⟩ ho
    have h : CopyReady true f s (tmovPair s.g f) c accs := ⟨rfl, hword, hcomp, hroom, htag, hchecks⟩
    refine (runWith_issues hi).trans ?_
    rw [h.body_ok ho hres, finish_ok, goesOnWith, copyIssue]
    simp only [compStart_g]
  case overlap =>
    rintro hi ⟨hword, hcomp, hroom, htag, hchecks, -⟩ ho
    have h : CopyReady true f s (tmovPair s.g f) c accs := ⟨rfl, hword, hcomp, hroom, htag, hchecks⟩
    refine (runWith_issues hi).trans ?_
    rw [h.body, ho]
    rfl

end Sys2Proof.Machine
end

