-- ==== Sys2Proof/Proofs/SlotChecks.lean ====
section
/-!
SUPPORT. Every op but the hints runs in its slot as R136, R139 and R140 have it, and a counted op that would not execute is an empty op of its
counter (O40).
-/
namespace Sys2Proof.Machine

/-! ### Every op is run by the one runner -/

/-- The ops that act where they would not execute: the compares and VBALLOT write, and the counted ops are empty ops (R99, R168, R185). -/
def offActs : List Op :=
  [.scmp, .sfcmp, .sld, .sst, .vld, .vst, .atom, .ared, .sigadd, .cpy, .tmov, .mapld, .mapst, .mapgen, .vcmp, .vfcmp, .vballot]

/-- A result is what the runner gives for an op, for something that it does where it would not execute: nothing, but for those of `offActs`. -/
def RunsOp (r : Out) (o : Op) (f : OpF) (s : State) : Prop :=
  ∃ off body, r = runWith o f off body s ∧ (o ∉ offActs → off = .ok)

section
variable (o : Op) (f : OpF) (s : State)

theorem runsOp_runS (body : State → Res State) : RunsOp (runS o f body s) o f s := ⟨.ok, body, rfl, fun _ => rfl⟩

theorem runsOp_runG (body : Group → Res Group) : RunsOp (runG o f body s) o f s := runsOp_runS o f s _

theorem runsOp_runP (body : Group → Group) : RunsOp (runP o f body s) o f s := runsOp_runG o f s _

theorem runsOp_runVecIf (ok : Bool) (t : Ty) (body : VIn → Group → Res Group) : RunsOp (runVecIf ok o f t body s) o f s := runsOp_runS o f s _

theorem runsOp_runVec (t : Ty) (body : VIn → Group → Res Group) : RunsOp (runVec o f t body s) o f s := runsOp_runVecIf o f s true t body

theorem runsOp_vecMap (t : Ty) (fn : Nat → Nat → Nat → Nat × Flags) : RunsOp (vecMap o f t fn s) o f s := runsOp_runVec o f s t _

theorem runsOp_vecInt (fn : Int → Int → Int → Int) : RunsOp (vecInt o f fn s) o f s := runsOp_vecMap o f s _ _

theorem runsOp_vecBits (fn : Nat → Nat → Nat) : RunsOp (vecBits o f fn s) o f s := runsOp_vecMap o f s _ _

theorem runsOp_vecFlt (fn : FFmt → Nat → Nat → Nat → Nat × Flags) : RunsOp (vecFlt o f fn s) o f s := runsOp_vecMap o f s _ _

theorem runsOp_vecSp (fn : XV → SpecialR) : RunsOp (vecSp o f fn s) o f s := runsOp_vecFlt o f s _

theorem runsOp_runWith (off body : State → Res State) (h : o ∈ offActs) : RunsOp (runWith o f off body s) o f s :=
  ⟨off, body, rfl, fun hn => absurd h hn⟩

theorem runsOp_vecCmp (rel : Nat → Nat → Bool × Flags) (h : o ∈ offActs) : RunsOp (vecCmp o f rel s) o f s := by
  unfold vecCmp; exact runsOp_runWith o f s _ _ h

end

/-- Every op but the hints is run by the one runner. -/
theorem exec_runsOp {i : Instr} {o : Op} {f : OpF} (h : i.op? = some (o, f)) (hh : isHint o = false) (s : State) : RunsOp (exec i s) o f s := by
  cases i
  all_goals cases h
  case nop | yield => cases hh
  all_goals rw [exec]
  case sli | slih | smov | sadd | ssub | smul | smulhi | sdiv | srem | smin | smax | sand | sor | sxor | sshl | sshr | srot | ssel | spopc | sclz
    | sctz | sfadd | sfmul | sfma | kand | kor | kxor | nset | nget | clkr | vextr | vinsr | pand | por | pxor | maprel | aclr | aadd | rfend =>
    exact runsOp_runP ..
  case sbfx | sbfi | sadda | scvt | idr | trap | bkpt | vwrx | mapadv | aout | qscan | qpack | qunpack | rftest => exact runsOp_runG ..
  case scmp | sfcmp | sld | sst | vld | vst | atom | ared | sigadd | cpy | tmov | mapld | mapst | mapgen | vballot =>
    exact runsOp_runWith _ _ _ _ _ (by decide)
  case vcmp | vfcmp => exact runsOp_vecCmp _ _ _ _ (by decide)
  case vmov => exact runsOp_vecMap ..
  case vadd | vsub | vmul | vmulhi | vmad | vmin | vmax | vabsdiff => exact runsOp_vecInt ..
  case vand | vor | vxor | vshl | vshr | vrot | vpopc | vclz => exact runsOp_vecBits ..
  case vfadd | vfsub | vfmul | vfma | vfmin | vfmax | vfrnd | vfclass | vfscale | vdiv => exact runsOp_vecFlt ..
  case vexp2 | vlog2 | vrcp | vrsq | vsqrt | vtanh | vsin | vcos => exact runsOp_vecSp ..
  case vbfx | vbfi | vcvt | vpack | vunpack | vlred | vlscan => exact runsOp_runVecIf ..
  case vli | vlane | vsel | vpermx | ain | ascale => exact runsOp_runVec ..
  all_goals exact runsOp_runS ..

/-! ### The empty ops -/

section
variable {s : State}

/-- A counter with room takes an empty op. -/
theorem offLane_room {c : Ctr} (h : ctrCount s.g c < 63) :
    finish s (offLane c s) =
      goesOn s { s.g with lane := s.g.lane ++ [⟨s.g.seqn, c, .empty, 0, [], .none, [], false, none, true, [], [], 0, []⟩], seqn := s.g.seqn + 1 } := by
  simp [offLane, ctrRoom, h]
  rfl

/-- A counter with 63 unretired ops holds the next. -/
theorem offLane_full {c : Ctr} (h : 63 ≤ ctrCount s.g c) : finish s (offLane c s) = .next { s with g := { s.g with wait := .hold } } := by
  simp [offLane, ctrRoom, Nat.not_lt.mpr h, holdAt]

/-- CP with room takes an empty op. -/
theorem offCopy_room (h : s.g.copies.length < 63) :
    finish s (offCopy s) = goesOn s { s.g with
      copies := (s.g.copies ++ [(⟨s.g.seqn, false, [], [], none, 0, none, none, none, true⟩ : CopyOp)]).dropWhile CopyOp.done, seqn := s.g.seqn + 1 } := by
  simp [offCopy, h]
  rfl

/-- CP with 63 unretired ops holds the next. -/
theorem offCopy_full (h : 63 ≤ s.g.copies.length) : finish s (offCopy s) = .next { s with g := { s.g with wait := .hold } } := by
  simp [offCopy, Nat.not_lt.mpr h, holdAt]

/-- MP with room takes an empty op. -/
theorem offMap_room (h : s.g.mapops.length < 63) :
    finish s (offMap s) = goesOn s { s.g with
      mapops := (s.g.mapops ++ [(⟨s.g.seqn, .empty, 0, 0, 0, [], none, [], [], true⟩ : MapOp)]).dropWhile MapOp.done, seqn := s.g.seqn + 1 } := by
  simp [offMap, needMp, h]
  rfl

/-- MP with 63 unretired ops holds the next. -/
theorem offMap_full (h : 63 ≤ s.g.mapops.length) : finish s (offMap s) = .next { s with g := { s.g with wait := .hold } } := by
  simp [offMap, needMp, Nat.not_lt.mpr h, holdAt]

/-- A counted lane op that would not execute: an empty op of its counter. -/
theorem exec_offLane {o : Op} {f : OpF} {i : Instr} {c : Ctr}
    (hi : (o, i, c) ∈ [(Op.vld, Instr.vld f, Ctr.ld), (.sld, .sld f, .ld), (.vst, .vst f, .st), (.sst, .sst f, .st), (.ared, .ared f, .st),
      (.sigadd, .sigadd f, .st), (.atom, .atom f, .ld)])
    (he : waitsExm o s.g = false) (hw : would o f s.g = false) (ha : o = .atom → memOrd f = false) :
    exec i s = finish s (offLane c s) := by
  simp only [List.mem_cons, Prod.mk.injEq, List.not_mem_nil, or_false] at hi
  obtain ⟨rfl, rfl, rfl⟩ | ⟨rfl, rfl, rfl⟩ | ⟨rfl, rfl, rfl⟩ | ⟨rfl, rfl, rfl⟩ | ⟨rfl, rfl, rfl⟩ | ⟨rfl, rfl, rfl⟩ |
    ⟨rfl, rfl, rfl⟩ := hi
  iterate 6 exact runWith_off he hw
  have hoff : atomOff f s = offLane .ld s := by simp [atomOff, ha rfl]
  exact hoff ▸ runWith_off (off := atomOff f) he hw

/-- A copy that would not execute. -/
theorem exec_offCopy {o : Op} {f : OpF} {i : Instr} (hi : (o, i) ∈ [(Op.cpy, Instr.cpy f), (.tmov, .tmov f)])
    (he : waitsExm o s.g = false) (hw : would o f s.g = false) : exec i s = finish s (offCopy s) := by
  simp only [List.mem_cons, Prod.mk.injEq, List.not_mem_nil, or_false] at hi
  obtain ⟨rfl, rfl⟩ | ⟨rfl, rfl⟩ := hi <;> exact runWith_off he hw

/-- A map transfer that would not execute. -/
theorem exec_offMap {o : Op} {f : OpF} {i : Instr} (hi : (o, i) ∈ [(Op.mapld, Instr.mapld f), (.mapst, .mapst f), (.mapgen, .mapgen f)])
    (he : waitsExm o s.g = false) (hw : would o f s.g = false) : exec i s = finish s (offMap s) := by
  simp only [List.mem_cons, Prod.mk.injEq, List.not_mem_nil, or_false] at hi
  obtain ⟨rfl, rfl⟩ | ⟨rfl, rfl⟩ | ⟨rfl, rfl⟩ := hi <;> exact runWith_off he hw

end

/-- Settles O40: every op but the hints is run by the one runner, whose waits, guard and legality come before the op's own body. -/
theorem slotChecks : Obligations.SlotChecks := by
  refine ⟨fun i o f s h hh => ?_, fun o f i c s hi he hw ha => ?_, fun o f i s hi he hw => ?_, fun o f i s hi he hw => ?_⟩
  · obtain ⟨off, body, hr, hoff⟩ := exec_runsOp h hh s
    rw [hr]
    refine ⟨runWith_exm, runWith_regs, runWith_illegal, fun he hw hn => ?_⟩
    rw [runWith_off he hw, hoff hn]
    rfl
  · rw [exec_offLane hi he hw ha]
    exact ⟨offLane_room, offLane_full⟩
  · rw [exec_offCopy hi he hw]
    exact ⟨offCopy_room, offCopy_full⟩
  · rw [exec_offMap hi he hw]
    exact ⟨offMap_room, offMap_full⟩

end Sys2Proof.Machine
end

