-- ==== Sys2Proof/Proofs/RingsAndBarriers.lean ====
section
/-!
SUPPORT. The stage rings and the barriers: when their ops end at once, when they wait, and how their events end them (O28).
-/
namespace Sys2Proof.Machine

section Rules
variable {s : State} {r j n : Nat}

/-! ### Selectors -/

/-- A selector below 256 of a declared slot is legal, and names the ring of its upper four bits and the slot of its lower four. -/
theorem sel_of {l : Launch} {x : W64} (h : x.toNat < 256 ∧ r = x.toNat / 16 ∧ j = x.toNat % 16 ∧ ringDeclared l r j = true) :
    selOk l x = true ∧ selRing x = r ∧ selSlot x = j := by
  obtain ⟨hx, rfl, rfl, hd⟩ := h
  have hr : selRing x = x.toNat / 16 := by
    simp only [selRing, BitVec.extractLsb'_toNat, Nat.shiftRight_eq_div_pow]
    omega
  have hj : selSlot x = x.toNat % 16 := by simp [selSlot, BitVec.extractLsb'_toNat]
  have hu : x.extractLsb' 8 56 = 0 := by
    apply BitVec.eq_of_toNat_eq
    simp only [BitVec.extractLsb'_toNat, Nat.shiftRight_eq_div_pow, BitVec.ofNat_eq_ofNat, BitVec.toNat_ofNat]
    omega
  exact ⟨by rw [selOk, hu, hr, hj, hd]; rfl, hr, hj⟩

/-! ### A group without queued ops -/

/-- Nothing is performed for a group whose queue is empty. -/
theorem performOlder_idle (hl : s.g.lane = []) (hg : group? s s.g.id = some s.g) (seq : Nat) : performOlder s.g.id seq s = some s := by
  simp [performOlder, hg, hl, performList, allDone]

theorem performAll_idle (hl : s.g.lane = []) (hg : group? s s.g.id = some s.g) : performAll s.g.id s = some s :=
  performOlder_idle hl hg _

/-! ### The conditions of the ring ops -/

/-- An update of a slot is what it makes of that slot alone. -/
theorem updSlot_congr {f g : RingSlot → RingSlot} {t : Team} (h : f (slotAt t r j) = g (slotAt t r j)) : updSlot r j f t = updSlot r j g t := by
  have slot : ∀ row, t.rings[r]? = some row → ∀ y, row[j]? = some y → slotAt t r j = y := fun row hrow y hy => by
    simp [slotAt, hrow, hy]
  unfold updSlot
  congr 1
  refine List.map_congr_left fun e he => ?_
  split
  · next hr =>
    refine List.map_congr_left fun y hy => ?_
    split
    · next hj =>
      rw [← slot e.1 (hr ▸ List.mem_zipIdx_iff_getElem?.1 he) y.1 (hj ▸ List.mem_zipIdx_iff_getElem?.1 hy), h]
    · rfl
  · rfl

theorem ringexpTry_of (h : (slotAt s.t r j).full = false) :
    ringexpTry r j n s = some { s with
      g := learn (slotAt s.t r j).know s.g
      t := updSlot r j (fun x => { x with
        remain := min (x.remain + n) (2 ^ 24 - 1), ovr := x.ovr || decide (2 ^ 24 - 1 < (slotAt s.t r j).remain + n) }) s.t } := by
  rw [ringexpTry, if_neg (by simp [h])]
  simp only [Option.some.injEq, State.mk.injEq, true_and, and_true]
  exact updSlot_congr rfl

theorem ringexpTry_eq_none (h : (slotAt s.t r j).full = true) : ringexpTry r j n s = none := by simp [ringexpTry, h]

/-- A slot that is empty and waits for nothing is filled. -/
theorem ringputTry_of (hl : s.g.lane = []) (hg : group? s s.g.id = some s.g) (hf : (slotAt s.t r j).full = false)
    (hr : (slotAt s.t r j).remain = 0) :
    ringputTry r j s = some { s with
      g := learn (slotAt s.t r j).know s.g
      t := updSlot r j (fun x => { x with
        phase := !x.phase, full := true, know := knowOf s (learn (slotAt s.t r j).know s.g) s.g.seqn }) s.t } := by
  simp [ringputTry, hf, hr, performAll_idle hl hg]
  rfl

theorem ringputTry_eq_none (h : (slotAt s.t r j).full = true ∨ (slotAt s.t r j).remain ≠ 0) : ringputTry r j s = none := by
  simp [ringputTry, h]

/-- What a RINGGET that ends leaves: OVR returned and cleared, and the completions of the slot observed. -/
def ringGot (d r j : Nat) (s : State) : State :=
  let x := slotAt s.t r j
  let g := observe s x.ops (learn x.know (setS s.g d (if x.ovr then 1 else 0)))
  { s with g := if x.ovr then raise flagOVERRUN g else g, t := updSlot r j (fun x => { x with ovr := false }) s.t }

/-- A RINGGET ends on a full slot of its phase. -/
theorem ringgetTry_of {d q : Nat} (hf : (slotAt s.t r j).full = true) (hp : (slotAt s.t r j).phase = true ↔ q = 1) :
    ringgetTry d r j q s = some (ringGot d r j s) := by
  simp only [ringgetTry, hf, hp, ringGot]
  simp

theorem ringgetTry_eq_none {d q : Nat} (h : (slotAt s.t r j).full = false ∨ ¬((slotAt s.t r j).phase = true ↔ q = 1)) :
    ringgetTry d r j q s = none := by
  rcases h with h | h <;> simp [ringgetTry, h]

/-- A RINGPUT.free with nothing queued before it empties its slot, if it is full. -/
theorem ringFree_idle (hl : s.g.lane = []) (hg : group? s s.g.id = some s.g) (seq : Nat) :
    ringFree r j seq s = some { s with t := updSlot r j (fun x => if x.full then { x with
      full := false, ops := [], know := knowOf s s.g seq } else x) s.t } := by
  rw [ringFree, performOlder_idle hl hg]
  rfl

/-! ### The ring ops past their legality -/

theorem finish_tryOr_some {t : State} {w : Wait} {attempt : State → Option State} (h : attempt s = some t) :
    finish s (tryOr w attempt s) = goesOnWith t := by simp [tryOr, h]

theorem finish_tryOr_none {w : Wait} {attempt : State → Option State} (h : attempt s = none) :
    finish s (tryOr w attempt s) = .next { s with g := { s.g with wait := w } } := by simp [tryOr, h]

section
variable {f : OpF}
  (hsel : (intS s.g f f.a).toNat < 256 ∧ r = (intS s.g f f.a).toNat / 16 ∧ j = (intS s.g f f.a).toNat % 16 ∧ ringDeclared s.l r j = true)
include hsel

/-- A legal expect is tried. -/
theorem execRingexp_issues (hi : issues .ringexp f s = true) (h1 : 1 ≤ (intS s.g f f.b).toNat) (h2 : (intS s.g f f.b).toNat < 2 ^ 24) :
    execRingexp f s = finish s (tryOr (.ringexp r j (intS s.g f f.b).toNat) (ringexpTry r j (intS s.g f f.b).toNat) s) := by
  obtain ⟨hok, rfl, rfl⟩ := sel_of hsel
  rw [execRingexp, runS_issues hi]
  simp only [hok, h1, h2, decide_true, Bool.and_self, Res.require_true, Res.bind_ok]

/-- A legal fill is tried. -/
theorem execRingput_issues (hi : issues .ringput f s = true) :
    execRingput f s = finish s (tryOr (.ringput r j) (ringputTry r j) s) := by
  obtain ⟨hok, rfl, rfl⟩ := sel_of hsel
  rw [execRingput, runS_issues hi]
  simp only [hok, Res.require_true, Res.bind_ok]

/-- A legal wait is tried. -/
theorem execRingget_issues (hi : issues .ringget f s = true) (hn : (intS s.g f f.b).toNat ≤ 1) :
    execRingget f s = finish s (tryOr (.ringget f.dst.toNat r j (intS s.g f f.b).toNat)
      (ringgetTry f.dst.toNat r j (intS s.g f f.b).toNat) s) := by
  obtain ⟨hok, rfl, rfl⟩ := sel_of hsel
  rw [execRingget, runS_issues hi]
  simp only [hok, hn, decide_true, Bool.and_self, Res.require_true, Res.bind_ok]

/-- A legal release with nothing queued before it takes effect at once. -/
theorem execRingputFree_idle (hi : issues .ringputFree f s = true) (hl : s.g.lane = []) (hg : group? s s.g.id = some s.g)
    (hq : s.g.frees = []) :
    execRingputFree f s = goesOnWith { s with t := updSlot r j (fun x => if x.full then { x with
      full := false, ops := [], know := knowOf s s.g s.g.seqn } else x) s.t } := by
  obtain ⟨hok, rfl, rfl⟩ := sel_of hsel
  have hld : ctrCount s.g .ld = 0 := by simp [ctrCount, hl]
  rw [execRingputFree, runS_issues hi]
  simp only [hok, hld, hq, and_self, if_true, ringFree_idle hl hg, Res.require_true, Res.bind_ok, finish_ok]

/-- A legal release behind loads or other releases is pending. -/
theorem execRingputFree_pending (hi : issues .ringputFree f s = true) (h : ctrCount s.g .ld ≠ 0 ∨ s.g.frees ≠ []) :
    execRingputFree f s = goesOn s { s.g with frees := s.g.frees ++ [⟨s.g.seqn, r, j⟩], seqn := s.g.seqn + 1 } := by
  obtain ⟨hok, rfl, rfl⟩ := sel_of hsel
  rw [execRingputFree, runS_issues hi]
  simp only [hok, if_neg (by tauto : ¬(ctrCount s.g .ld = 0 ∧ s.g.frees = [])), Res.require_true, Res.bind_ok, finish_ok]
  rfl

end

/-! ### The ring events -/

theorem execRingexpResume_waiting (hf : inFocus s) (hw : s.g.wait = .ringexp r j n) :
    execRingexpResume s.g.id s = .next (ending (ringexpTry r j n) s) := by
  rw [execRingexpResume, resume_focused hf, hw]

theorem execRingputResume_waiting (hf : inFocus s) (hw : s.g.wait = .ringput r j) :
    execRingputResume s.g.id s = .next (ending (ringputTry r j) s) := by
  rw [execRingputResume, resume_focused hf, hw]

theorem execRinggetEnd_waiting {d q : Nat} (hf : inFocus s) (hw : s.g.wait = .ringget d r j q) :
    execRinggetEnd s.g.id s = .next (ending (ringgetTry d r j q) s) := by
  rw [execRinggetEnd, resume_focused hf, hw]

/-- The only pending release of a group with nothing queued takes effect. -/
theorem execRingputFreeEffect_idle {q : Nat} (hf : inFocus s) (hl : s.g.lane = []) (hq : s.g.frees = [⟨q, r, j⟩]) :
    execRingputFreeEffect s.g.id s = .next { s with g := { s.g with frees := [] }, t := updSlot r j (fun x => if x.full then { x with
      full := false, ops := [], know := knowOf s s.g q } else x) s.t } := by
  have hready : freeReady s.g = true := by simp [freeReady, hq, hl]
  have hdo : freeDo s = (ringFree r j q { s with g := { s.g with frees := [] } }).getD s := by simp only [freeDo, hready, hq, if_true]
  have hstep : execRingputFreeEffect s.g.id s = .next (freeDo s) := by
    rw [execRingputFreeEffect, focus_here hf]
    simp [hf.1]
  have hfree := ringFree_idle (s := { s with g := { s.g with frees := [] } }) (r := r) (j := j) hl (group?_focus hf.1) q
  rw [hstep, hdo, hfree]
  rfl

/-! ### Barriers -/

/-- The barriers with one of them changed. -/
theorem zipIdx_map_eq_set {bs : List Bar} {id : Nat} (hid : id < bs.length) (f : Bar → Bar) :
    (bs.zipIdx.map fun e => if e.2 = id then f e.1 else e.1) = bs.set id (f (bs.getD id ⟨0, [], []⟩)) := by
  refine List.ext_getElem? fun i => ?_
  rw [getElem?_zipIdx_map, List.getElem?_set]
  by_cases h : i = id
  · subst h
    simp [hid]
  · simp [h, Ne.symm h]

/-- A group with nothing queued arrives and waits. -/
theorem barArrive_idle {id : Nat} (hl : s.g.lane = []) (hg : group? s s.g.id = some s.g) (hid : id < s.t.bars.length) :
    let bar := s.t.bars.getD id ⟨0, [], []⟩
    barArrive id s = some { s with
      g := { s.g with wait := .bar id bar.gen }
      t := { s.t with bars := s.t.bars.set id ⟨bar.gen, s.g.id.num :: bar.arrived, knowOf s s.g s.g.seqn ++ bar.know⟩ } } := by
  rw [barArrive, performAll_idle hl hg]
  simp only [Option.map_some, zipIdx_map_eq_set hid fun b : Bar =>
    { b with arrived := s.g.id.num :: b.arrived, know := knowOf s s.g s.g.seqn ++ b.know }]
  simp [hid]

theorem barReady_iff {t : Team} {id groups : Nat} :
    barReady s t id groups = true ↔ ∀ n, n < groups → n ∈ (t.bars.getD id ⟨0, [], []⟩).arrived ∨ ∀ h, group? s ⟨t.id, n⟩ = some h →
      h.exited = true ∨ (h.pos = .seq ∧ ∃ d, h.dec = some d ∧ d.seq = .exit) := by
  simp only [barReady, List.all_eq_true, List.mem_range, Bool.or_eq_true, List.contains_iff_mem]
  refine forall₂_congr fun n _ => or_congr_right ?_
  cases group? s ⟨t.id, n⟩ <;> simp [hasExited_iff]

/-- A BAR of a group with nothing queued arrives and waits. -/
theorem execBar_idle {f : OpF} (hi : issues .bar f s = true) (hl : s.g.lane = []) (hg : group? s s.g.id = some s.g)
    (hid : f.dst.toNat < s.t.bars.length) :
    let bar := s.t.bars.getD f.dst.toNat ⟨0, [], []⟩
    execBar f s = .next { s with
      g := { s.g with wait := .bar f.dst.toNat bar.gen }
      t := { s.t with bars := s.t.bars.set f.dst.toNat ⟨bar.gen, s.g.id.num :: bar.arrived, knowOf s s.g s.g.seqn ++ bar.know⟩ } } := by
  rw [execBar, runS_issues hi, barArrive_idle hl hg hid]
  rfl

/-- A group in focus is one of those of the team in focus. -/
theorem mem_teamGroups_focus (hf : inFocus s) (hn : s.g.id.num < 32) : s.g ∈ teamGroups s s.t.id := by
  obtain ⟨hlive, -, ht, -⟩ := hf
  exact mem_teamGroups.2 ⟨_, hn, ht ▸ group?_focus hlive⟩

/-- Where every group has arrived or exited, those that wait depart. -/
theorem execBarDepart_ready {id gen : Nat} (hf : inFocus s) (hid : id < s.t.bars.length) (hw : s.g.wait = .bar id gen)
    (hr : barReady s s.t id s.l.kern.groups = true) (hn : s.g.id.num < 32) :
    let bar := s.t.bars.getD id ⟨0, [], []⟩
    execBarDepart s.t.id id s =
      .next (updTeamGroups s.t.id (barGo id bar) { s with t := { s.t with bars := s.t.bars.set id ⟨bar.gen + 1, [], []⟩ } }) := by
  have hmem := mem_teamGroups_focus hf hn
  obtain ⟨-, htl, ht, hll, hl, -⟩ := hf
  rw [execBarDepart, focusTeam_here htl rfl, focusLaunch_here hll (hl.trans (congrArg Tid.l ht.symm))]
  refine (if_pos ?_).trans ?_
  · simp only [htl, hr, decide_true, Bool.and_true, Bool.true_and, List.any_eq_true]
    exact ⟨s.g, hmem, by simp [hw]⟩
  · simp only [zipIdx_map_eq_set hid fun b : Bar => ⟨b.gen + 1, [], []⟩]

/-- Before that the event changes nothing. -/
theorem execBarDepart_notReady {id : Nat} (hf : inFocus s) (hr : barReady s s.t id s.l.kern.groups = false) :
    execBarDepart s.t.id id s = .next s := by
  obtain ⟨-, htl, ht, hll, hl, -⟩ := hf
  rw [execBarDepart, focusTeam_here htl rfl, focusLaunch_here hll (hl.trans (congrArg Tid.l ht.symm))]
  simp [hr]

/-- A group that waits at the generation departs. -/
theorem barGo_waits {id : Nat} {b : Bar} {g : Group} (h : g.wait = .bar id b.gen) : barGo id b g = nextSlot (learn b.know g) := if_pos h

/-- Every other group stays as it is. -/
theorem barGo_other {id : Nat} {b : Bar} {g : Group} (h : g.wait ≠ .bar id b.gen) : barGo id b g = g := if_neg h

end Rules

/-- Settles O28: each ring op is a condition and an effect, tried at issue and again by its event; a barrier's departure is one update of the
groups of its team. -/
theorem ringsAndBarriers : Obligations.RingsAndBarriers := by
  unfold Obligations.RingsAndBarriers
  refine ⟨fun f s r j => ?rings, fun f s id => ?bars, fun op n x => ?count⟩
  case rings =>
    dsimp only
    refine ⟨?_, ?_, ?_, ?_, ?_, ?_, ?_, ?_, ?_, ?_, ?_, ?_⟩
    · exact fun hi hsel h1 h2 hf => (execRingexp_issues hsel hi h1 h2).trans (finish_tryOr_some (ringexpTry_of hf))
    · exact fun hi hsel h1 h2 hf => (execRingexp_issues hsel hi h1 h2).trans (finish_tryOr_none (ringexpTry_eq_none hf))
    · exact fun n hfoc hw hf => (execRingexpResume_waiting hfoc hw).trans (ending_some (ringexpTry_of hf))
    · exact fun hi hsel ⟨hl, hg⟩ hf hr => (execRingput_issues hsel hi).trans (finish_tryOr_some (ringputTry_of hl hg hf hr))
    · exact fun hi hsel h => (execRingput_issues hsel hi).trans (finish_tryOr_none (ringputTry_eq_none h))
    · exact fun hfoc ⟨hl, hg⟩ hw hf hr => (execRingputResume_waiting hfoc hw).trans (ending_some (ringputTry_of hl hg hf hr))
    · exact fun hi hsel hn hf hp => (execRingget_issues hsel hi hn).trans (finish_tryOr_some (ringgetTry_of hf hp))
    · exact fun hi hsel hn h => (execRingget_issues hsel hi hn).trans (finish_tryOr_none (ringgetTry_eq_none h))
    · exact fun d q hfoc hw hf hp => (execRinggetEnd_waiting hfoc hw).trans (ending_some (ringgetTry_of hf hp))
    · exact fun hi hsel ⟨hl, hg⟩ hq => execRingputFree_idle hsel hi hl hg hq
    · exact fun hi hsel h => execRingputFree_pending hsel hi h
    · exact fun q hfoc ⟨hl, _⟩ hq => execRingputFreeEffect_idle hfoc hl hq
  case bars =>
    dsimp only
    refine ⟨?arrive, ?depart, ?notReady, fun G => barReady_iff⟩
    case arrive =>
      rintro hi ⟨hl, hg⟩ rfl hid
      exact execBar_idle hi hl hg hid
    case depart =>
      intro hf hid hw hr hn
      refine ⟨_, execBarDepart_ready hf hid hw hr hn, rfl, ?focus, ?waits, ?others, rfl⟩
      case focus =>
        have hcond : (s.g.live && s.g.id.t = s.t.id) = true := by simp [hf.1, hf.2.2.1]
        exact (if_pos hcond).trans (barGo_waits hw)
      case waits =>
        intro g hg hlive ht hwait
        have hcond : (g.live && g.id.t = s.t.id) = true := by simp [hlive, ht]
        exact List.mem_map.2 ⟨g, hg, (if_pos hcond).trans (barGo_waits hwait)⟩
      case others =>
        intro g hg h
        refine List.mem_map.2 ⟨g, hg, ?_⟩
        split
        · next hcond =>
          have ht : g.id.t = s.t.id := by simpa using (Bool.and_eq_true_iff.1 hcond).2
          exact barGo_other (h.resolve_left (not_not.2 ht))
        · rfl
    case notReady => exact execBarDepart_notReady
  case count =>
    dsimp only
    by_cases hlt : n < x.remain
    · simp [ringCount, hlt]
    · by_cases h0 : x.remain = 0
      · simp [ringCount, h0]
      · simp [ringCount, hlt, h0, Nat.pos_of_ne_zero h0]

end Sys2Proof.Machine
end

