-- ==== Sys2Proof/Proofs/LaneQueue.lean ====
section
/-!
SUPPORT. A lane-path op alone in its group's queue: what performing its accesses leaves of the queue, and its retirement (O44).
-/
namespace Sys2Proof.Machine

/-! ### Registers -/

/-- A change of a group's registers alone: on any group with the registers of g it gives the registers that it gives on g. -/
def RegsOp (f : Group → Group) : Prop :=
  ∀ g h : Group, f { h with s := g.s, v := g.v, acc := g.acc } = { h with s := (f g).s, v := (f g).v, acc := (f g).acc }

theorem regsOp_id : RegsOp id := fun _ _ => rfl

theorem regsOp_foldl {α : Type} {f : Group → α → Group} (h : ∀ x, RegsOp fun g => f g x) (xs : List α) : RegsOp fun g => xs.foldl f g := by
  induction xs with
  | nil => exact regsOp_id
  | cons x xs ih =>
    intro g k
    exact (congrArg (fun g => xs.foldl f g) (h x g k)).trans (ih (f g x) k)

theorem regsOp_setS (n : Nat) (x : W64) : RegsOp fun g => setS g n x := by
  intro g h
  by_cases hn : n % 64 = 63 <;> simp [setS, hn]

theorem regsOp_setLane (n i : Nat) (x : W32) : RegsOp fun g => setLane g n i x := fun _ _ => rfl

theorem regsOp_setA (n i : Nat) (x : W64) : RegsOp fun g => setA g n i x := fun _ _ => rfl

/-- What a retiring op delivers goes to registers alone. -/
theorem regsOp_deliver (o : LaneOp) : RegsOp (deliver o) := by
  unfold deliver
  cases o.dst with
  | none => exact regsOp_id
  | vec d n => exact regsOp_foldl (fun r => regsOp_foldl (fun j => regsOp_setLane _ _ _) _) _
  | scl d => exact regsOp_foldl (fun r => regsOp_setS _ _) _
  | acc d => exact regsOp_foldl (fun r => regsOp_setA _ _ _) _

theorem deliver_eq (o : LaneOp) (g : Group) : deliver o g = { g with s := (deliver o g).s, v := (deliver o g).v, acc := (deliver o g).acc } :=
  regsOp_deliver o g g

/-- Delivery does not see the queue. -/
theorem deliver_lane (o : LaneOp) (g : Group) (l : List LaneOp) : deliver o { g with lane := l } = { deliver o g with lane := l } := by
  rw [deliver_eq o g]
  exact regsOp_deliver o g { g with lane := l }

/-- A group after its only op has retired. -/
def soleRetired (still : Nat → Bool) (o : LaneOp) (g : Group) : Group :=
  let newest := o.kind.reads && decide (g.lastSeq ≤ o.seq)
  { raise o.flags (deliver o g) with
    lane := []
    retired := ((o.ctr, o.seq) :: g.retired).filter fun x => x.1 ≠ .acc && still x.2
    observed := if o.ctr = .acc && still o.seq then ⟨⟨g.id, o.seq⟩, g.seqn⟩ :: g.observed else g.observed
    lastRead := if newest then o.tags else g.lastRead
    lastSeq := if newest then o.seq else g.lastSeq
    lastBound := if newest then o.bound else g.lastBound }

theorem retireOp_sole (still : Nat → Bool) (o : LaneOp) (g : Group) : retireOp still o { g with lane := [o] } = soleRetired still o g := by
  have hl : ([o].filter fun p => p.seq ≠ o.seq) = [] := by simp
  rw [retireOp, deliver_lane, soleRetired, deliver_eq o g]
  simp only [raise]
  rw [hl]
  rfl

/-! ### The queue and the state beside it -/

/-- A state whose group in focus has one op in its queue. -/
def queued (o : LaneOp) (s : State) : State := { s with g := { s.g with lane := [o] } }

section Queued
variable {s : State} {o o' : LaneOp}

theorem queued_self (h : s.g.lane = [o]) : queued o s = s := by
  rw [queued, ← h]

theorem group?_queued (hg : s.g.live = true) : group? (queued o s) s.g.id = some { s.g with lane := [o] } :=
  group?_focus (s := queued o s) hg

theorem laneOp?_queued (hg : s.g.live = true) : laneOp? (queued o s) s.g.id o.seq = some o := by
  simp [laneOp?, group?_queued hg]

theorem updLane_queued (hg : s.g.live = true) (f : LaneOp → LaneOp) : updLane s.g.id o.seq f (queued o s) = queued (f o) s := by
  rw [updLane]
  refine (updGroup_focus (s := queued o s) hg).trans ?_
  simp [queued]

/-- The queue decides nothing that a read of memory finds. -/
theorem group?_queued_harea (k : Gid) : (group? (queued o s) k).elim [] Group.harea = (group? s k).elim [] Group.harea := by
  by_cases hg : s.g.live = true
  · by_cases hk : s.g.id = k <;> simp [group?, allGroups, queued, hg, hk]
  · simp [group?, allGroups, queued, hg]

theorem homeMem_queued (h : Home) : homeMem (queued o s) h = homeMem s h := by
  cases h with
  | handler k => exact group?_queued_harea k
  | _ => rfl

theorem viewByte_queued (k : Gid) (a : Loc) : viewByte (queued o s) k a = viewByte s k a := by
  unfold viewByte
  rw [homeMem_queued]
  rfl

theorem noted_queued (op : OpId) : noted (queued o s) op = noted s op := by
  by_cases hg : s.g.live = true <;> simp [noted, allGroups, queued, hg]

/-! ### Performing an access does not see the queue -/

theorem updLaunch_queued (k : Lid) (f : Launch → Launch) : updLaunch k f (queued o s) = queued o (updLaunch k f s) := by
  unfold updLaunch
  rw [apply_ite (queued o)]
  rfl

theorem updTeam_queued (k : Tid) (f : Team → Team) : updTeam k f (queued o s) = queued o (updTeam k f s) := by
  unfold updTeam
  rw [apply_ite (queued o)]
  rfl

/-- The homes that ops write here: memory and the benches of teams. -/
def Home.plain : Home → Prop
  | .phys | .bench _ => True
  | _ => False

theorem updHome_queued {h : Home} (hh : h.plain) (f : Mem → Mem) : updHome h f (queued o s) = queued o (updHome h f s) := by
  cases h with
  | phys => rfl
  | bench t => exact updTeam_queued t _
  | _ => cases hh

theorem writeByte_queued {k : Gid} {p : Path} {a : Loc} {va : W64} {b : Byte} (ha : a.home.plain) :
    writeByte k p a va b (queued o s) = queued o (writeByte k p a va b s) := by
  unfold writeByte
  rw [apply_ite (queued o), ← updLaunch_queued, ← updHome_queued ha]
  rfl

theorem writeBytesFrom_queued {op : OpId} {p : Path} {va : W64} (bs : List Byte) {n : Nat} {a : Loc} (ha : a.home.plain) :
    writeBytesFrom op p va n a bs (queued o s) = queued o (writeBytesFrom op p va n a bs s) := by
  induction bs generalizing n a s with
  | nil => rfl
  | cons b bs ih =>
    rw [writeBytesFrom, writeByte_queued ha, writeBytesFrom]
    exact ih ha

theorem addRec_queued (op : OpId) (p : Path) (rmw : Bool) (old : List (Loc × Byte)) :
    addRec op p rmw old (queued o s) = queued o (addRec op p rmw old s) := by
  obtain ⟨_, _, _, _, _, _, _, _, _, _ | ⟨r, rs⟩, _⟩ := s
  · rfl
  · simp only [addRec, queued]
    split <;> rfl

/-- A release after a plain write of n bytes from a location, after all other writes of them, by an op of a replay task or not. -/
def endTag (rep : Bool) (op : OpId) (a : Loc) (n : Nat) (r : RelTag) : RelTag :=
  let as := plainly (locsFrom a n)
  if rep && r.by_.all (fun b => b.t ≠ op.k.t) then r.endAt op (as.filter fun x => x.1.home ≠ .phys) else r.endAt op as

theorem endRels_rels (op : OpId) (a : Loc) (n : Nat) (s : State) :
    endRels op a n s = { s with rels := s.rels.map (endTag (replays s op.k.t.l) op a n) } := by
  obtain ⟨_, _, _, _, _, _, _, _, _, _, _ | ⟨r, rs⟩, _⟩ := s <;> rfl

theorem endRels_queued (op : OpId) (a : Loc) (n : Nat) : endRels op a n (queued o s) = queued o (endRels op a n s) := by
  rw [endRels_rels, endRels_rels]
  rfl

/-- The release that an access leaves where no write stands before it. -/
def releasedTags (op : OpId) (rel : Option Scope) (a : Acc) (s : State) : List RelTag :=
  rel.toList.map fun sc => { bytes := locsFrom a.loc a.w, ended := [], scope := sc, by_ := some op.k, op := op, core := coreOf s op.k,
                             know := (group? s op.k).elim [] fun g => knowOf s g op.seq, seen := [], at_ := s.tick }

theorem releaseAt_eq (op : OpId) (rel : Option Scope) (a : Acc) (s : State) :
    releaseAt op rel a.loc a.w [] s = { s with rels := releasedTags op rel a s ++ s.rels } := by
  cases rel <;> rfl

theorem releasedTags_queued {op : OpId} (hg : s.g.live = true) (hk : s.g.id = op.k) (rel : Option Scope) (a : Acc) :
    releasedTags op rel a (queued o s) = releasedTags op rel a s := by
  rw [releasedTags, releasedTags, ← hk, group?_queued hg, group?_focus hg]
  rfl

theorem releaseAt_queued {op : OpId} (hg : s.g.live = true) (hk : s.g.id = op.k) (rel : Option Scope) (a : Acc) :
    releaseAt op rel a.loc a.w [] (queued o s) = queued o (releaseAt op rel a.loc a.w [] s) := by
  rw [releaseAt_eq, releaseAt_eq, releasedTags_queued hg hk]
  rfl

/-- The bytes of one access written after all others, with what they held recorded, and its release. -/
def putAccess (op : OpId) (rmw : Bool) (rel : Option Scope) (a : Acc) (bs : List Byte) (s : State) : State :=
  releaseAt op rel a.loc a.w [] (writeBytesFrom op .lane a.va 0 a.loc bs
    (addRec op .lane rmw ((locsFrom a.loc bs.length).map fun x => (x, viewByte s op.k x)) s))

theorem zip_map_nil (ls : List Loc) : (ls.zip (ls.map fun _ => ([] : List OpId))) = plainly ls := by
  induction ls with
  | nil => rfl
  | cons l ls ih => exact congrArg (_ :: ·) ih

theorem passedPlain_nil (ls : List Loc) : passedPlain [] ls = [] := List.flatMap_eq_nil_iff.2 fun _ _ => rfl

/-- A store's access where only writes of the lane path are recorded. -/
theorem performWrite_same {op : OpId} {rel : Option Scope} {a : Acc} (h : ∀ r ∈ s.recs, r.path = .lane) :
    performWrite op rel a s = putAccess op false rel a (leBytes a.w a.data.toNat) (endRels op a.loc a.w s) := by
  have hall : ((locsFrom a.loc a.w).map fun _ => ([] : List WriteRec)).all List.isEmpty = true := by simp
  have hended : (((locsFrom a.loc a.w).zip ((locsFrom a.loc a.w).map fun _ => ([] : List WriteRec))).flatMap fun x => passedPlain x.2 [x.1]) = [] := by
    refine List.flatMap_eq_nil_iff.2 fun x hx => ?_
    obtain ⟨_, -, hnil⟩ := List.mem_map.1 (List.of_mem_zip hx).2
    rw [← hnil, passedPlain_nil]
  simp only [performWrite, passEach_same _ h, putPlain, putAccess, endRels, leBytes_length, putAt_nil, hall, hended, if_true]

/-- A read-modify-write where only writes of the lane path are recorded. -/
theorem performRmw_same {op : OpId} {rel : Option Scope} {new : Nat → Nat × Flags} {a : Acc} (h : ∀ r ∈ s.recs, r.path = .lane) :
    performRmw op rel new a s =
      let x := leNat (bytesAt s op.k (locsFrom a.loc a.w))
      (⟨some (BitVec.ofNat 128 x), (new x).2, relsAt s op.k (plainly (locsFrom a.loc a.w))⟩,
        putAccess op true rel a (leBytes a.w (new x).1) s) := by
  simp only [performRmw, rmwAt_same h, putAt_nil, putAccess, passedPlain_nil]
  rfl

/-- A load's access where no write is recorded. -/
theorem performRead_calm {op : OpId} {sgn : Bool} {a : Acc} (h : s.recs = []) :
    performRead op sgn a s =
      (⟨some (loadVal sgn a.w (bytesAt s op.k (locsFrom a.loc a.w))), 0, relsAt s op.k (plainly (locsFrom a.loc a.w))⟩, s) := by
  simp only [performRead, readSeen_calm h, bytesAt, List.map_map]
  rw [← zip_map_nil]
  rfl

theorem addRec_g (op : OpId) (p : Path) (rmw : Bool) (old : List (Loc × Byte)) : (addRec op p rmw old s).g = s.g := by
  rw [addRec_eq]

theorem writeByte_g {k : Gid} {p : Path} {a : Loc} {va : W64} {b : Byte} (ha : a.home.plain) : (writeByte k p a va b s).g = s.g := by
  unfold writeByte
  split
  · exact updLaunch_g _ _ _
  · cases h : a.home with
    | phys => rfl
    | bench t => exact updTeam_g _ _ _
    | _ => exact False.elim (by rw [h] at ha; exact ha)

theorem writeBytesFrom_g {op : OpId} {p : Path} {va : W64} (bs : List Byte) {n : Nat} {a : Loc} (ha : a.home.plain) :
    (writeBytesFrom op p va n a bs s).g = s.g := by
  induction bs generalizing n a s with
  | nil => rfl
  | cons b bs ih => exact (ih (a := { a with addr := a.addr + 1 }) ha).trans (writeByte_g ha)

/-- The bytes of one access put do not see the queue. -/
theorem putAccess_queued {op : OpId} (hg : s.g.live = true) (hk : s.g.id = op.k) {rmw : Bool} {rel : Option Scope} {a : Acc} {bs : List Byte}
    (ha : a.loc.home.plain) : putAccess op rmw rel a bs (queued o s) = queued o (putAccess op rmw rel a bs s) := by
  unfold putAccess
  simp only [viewByte_queued]
  rw [addRec_queued, writeBytesFrom_queued _ ha]
  have hw := fun old => (writeBytesFrom_g (s := addRec op .lane rmw old s) (op := op) (p := .lane) (va := a.va) bs (n := 0) ha).trans
    (addRec_g op .lane rmw old)
  exact releaseAt_queued (by rw [hw]; exact hg) (by rw [hw]; exact hk) rel a

theorem bytesAt_queued (k : Gid) (ls : List Loc) : bytesAt (queued o s) k ls = bytesAt s k ls := by
  exact List.map_congr_left fun a _ => viewByte_queued k a

/-- What an access of an op finds where nothing stands in its way: its group in focus, memory without errors, where only writes of the lane path
are recorded (of what only reads, none), and a home that the op may write. -/
structure Quiet (s : State) (o : LaneOp) (a : Acc) : Prop where
  live : s.g.live = true
  poison : s.dev.poison = []
  corrected : s.dev.corrected = []
  recs : ∀ r ∈ s.recs, r.path = .lane
  read : o.kind.writes = false → s.recs = []
  home : o.kind.writes = true → a.loc.home.plain

theorem performWrite_queued {op : OpId} (hg : s.g.live = true) (hk : s.g.id = op.k) {rel : Option Scope} {a : Acc}
    (hr : ∀ r ∈ s.recs, r.path = .lane) (ha : a.loc.home.plain) :
    performWrite op rel a (queued o s) = queued o (performWrite op rel a s) := by
  have he : (endRels op a.loc a.w s).g = s.g := by rw [endRels_rels]
  rw [performWrite_same hr, performWrite_same (s := queued o s) hr, endRels_queued]
  exact putAccess_queued (by rw [he]; exact hg) (by rw [he]; exact hk) ha

theorem performRmw_queued {op : OpId} (hg : s.g.live = true) (hk : s.g.id = op.k) {rel : Option Scope} {new : Nat → Nat × Flags} {a : Acc}
    (hr : ∀ r ∈ s.recs, r.path = .lane) (ha : a.loc.home.plain) :
    performRmw op rel new a (queued o s) = ((performRmw op rel new a s).1, queued o (performRmw op rel new a s).2) := by
  rw [performRmw_same hr, performRmw_same (s := queued o s) hr, bytesAt_queued]
  exact congrArg (Prod.mk _) (putAccess_queued hg hk ha)

/-- An access of an op performed leaves the queue to itself. -/
theorem performOn_queued {op : OpId} (hk : s.g.id = op.k) {a : Acc} (q : Quiet s o a) :
    performOn op o a (queued o' s) = ((performOn op o a s).1, queued o' (performOn op o a s).2) := by
  obtain ⟨hg, -, -, hr, hl, ha⟩ := q
  unfold performOn
  cases hkind : o.kind with
  | empty => rfl
  | load sgn =>
    have hs : s.recs = [] := hl (by simp [hkind, LaneKind.writes])
    simp only [performRead_calm hs, performRead_calm (s := queued o' s) hs, bytesAt_queued]
    rfl
  | store => exact congrArg (Prod.mk _) (performWrite_queued hg hk hr (ha (by simp [hkind, LaneKind.writes])))
  | atom aop sgn => exact performRmw_queued hg hk hr (ha (by simp [hkind, LaneKind.writes]))
  | ared aop sgn => simp only [performRmw_queued hg hk hr (ha (by simp [hkind, LaneKind.writes]))]
  | sigadd => simp only [performRmw_queued hg hk hr (ha (by simp [hkind, LaneKind.writes]))]

theorem putAccess_g {op : OpId} {rmw : Bool} {rel : Option Scope} {a : Acc} {bs : List Byte} (ha : a.loc.home.plain) :
    (putAccess op rmw rel a bs s).g = s.g := by
  rw [putAccess, releaseAt_eq]
  exact (writeBytesFrom_g bs ha).trans (addRec_g op .lane rmw _)

/-- An access performed leaves its group as it was. -/
theorem performOn_g {op : OpId} {a : Acc} (q : Quiet s o a) : (performOn op o a s).2.g = s.g := by
  obtain ⟨-, -, -, hr, hl, ha⟩ := q
  unfold performOn
  cases hkind : o.kind with
  | empty => rfl
  | load sgn => simp only [performRead_calm (hl (by simp [hkind, LaneKind.writes]))]
  | store =>
    simp only [performWrite_same hr]
    rw [putAccess_g (ha (by simp [hkind, LaneKind.writes])), endRels_rels]
  | atom aop sgn => simp only [performRmw_same hr, putAccess_g (ha (by simp [hkind, LaneKind.writes]))]
  | ared aop sgn => simp only [performRmw_same hr, putAccess_g (ha (by simp [hkind, LaneKind.writes]))]
  | sigadd => simp only [performRmw_same hr, putAccess_g (ha (by simp [hkind, LaneKind.writes]))]

/-! ### The accesses of an op performed in order -/

/-- One access of the only op in a queue. -/
theorem performAcc_queued {a : Acc} {i : Nat} (q : Quiet s o a) (hd : o.done = false) (hp : i ∉ o.parts) (hi : o.accs[i]? = some a) :
    performAcc s.g.id o.seq i (queued o s) =
      queued (noteDone i a (performOn ⟨s.g.id, o.seq⟩ o a s).1 o) (performOn ⟨s.g.id, o.seq⟩ o a s).2 := by
  have hpois : poisoned (queued o s) (locsFrom a.loc a.w) = false := by simp [poisoned, queued, q.poison]
  have hecc : eccRead (locsFrom a.loc a.w) (queued o s) = queued o s := by simp [eccRead, queued, q.corrected]
  have hg := performOn_g (op := ⟨s.g.id, o.seq⟩) q
  have hupd := updLane_queued (s := (performOn ⟨s.g.id, o.seq⟩ o a s).2) (o := o) (by rw [hg]; exact q.live)
    (noteDone i a (performOn ⟨s.g.id, o.seq⟩ o a s).1)
  rw [hg] at hupd
  simp only [performAcc, laneOp?_queued q.live, hi, hd, hp, hpois, hecc, performOn_queued (op := ⟨s.g.id, o.seq⟩) rfl q,
    hupd, List.contains_iff_mem, Bool.and_false, Bool.false_or, if_false, ite_self, Bool.false_eq_true]

/-- An op as its accesses leave it. -/
def LaneOp.progress (o : LaneOp) (ps : List Nat) (res : List Got) (fl : Flags) (tags : List RelTag) : LaneOp :=
  { o with parts := ps, res := res, flags := fl, tags := tags }

/-- Progress leaves what an access depends on. -/
theorem Quiet.progress {a : Acc} {ps : List Nat} {res : List Got} {fl : Flags} {tags : List RelTag} (q : Quiet s o a) :
    Quiet s (o.progress ps res fl tags) a := ⟨q.live, q.poison, q.corrected, q.recs, q.read, q.home⟩

/-- What holds before the first access and is kept by each holds after the last, with what the op has then found. -/
theorem foldl_performAcc {J : List Acc → List Got → Flags → List RelTag → State → Prop} (hd : o.done = false)
    (h0 : J [] [] 0 [] s)
    (hJ : ∀ {pre res fl tags v}, J pre res fl tags v → v.g = s.g)
    (quiet : ∀ {pre res fl tags v a}, J pre res fl tags v → a ∈ o.accs → Quiet v o a)
    (step : ∀ {pre res fl tags v a}, J pre res fl tags v → a ∈ o.accs →
      let x := performOn ⟨s.g.id, o.seq⟩ o a v
      J (pre ++ [a]) (res ++ x.1.got.toList.map fun y => ⟨a.lane, a.sub, y⟩) (x.1.flags ||| fl)
        (tags ++ x.1.tags.filter fun t => !tags.contains t) x.2) :
    ∃ ps res fl tags v, J o.accs res fl tags v ∧
      (List.range o.accs.length).foldl (fun u i => performAcc s.g.id o.seq i u) (queued (o.progress [] [] 0 []) s) =
        queued (o.progress ps res fl tags) v := by
  have upTo : ∀ n, n ≤ o.accs.length → ∃ res fl tags v, J (o.accs.take n) res fl tags v ∧
      (List.range n).foldl (fun u i => performAcc s.g.id o.seq i u) (queued (o.progress [] [] 0 []) s) =
        queued (o.progress (List.range n).reverse res fl tags) v := by
    intro n
    induction n with
    | zero => exact fun _ => ⟨[], 0, [], s, h0, rfl⟩
    | succ n ih =>
      intro hn
      obtain ⟨res, fl, tags, v, hv, he⟩ := ih (by omega)
      have hmem : o.accs[n] ∈ o.accs := List.getElem_mem _
      have hstep := step hv hmem
      have hperf := performAcc_queued (o := o.progress (List.range n).reverse res fl tags) (i := n)
        (quiet hv hmem).progress hd (by simp [LaneOp.progress]) (List.getElem?_eq_getElem _)
      rw [hJ hv] at hperf
      have hparts : (List.range (n + 1)).reverse = n :: (List.range n).reverse := by simp [List.range_succ]
      have htake : o.accs.take n ++ [o.accs[n]] = o.accs.take (n + 1) := List.take_append_getElem (by omega)
      refine ⟨_, _, _, _, htake ▸ step hv hmem, ?_⟩
      rw [List.range_succ, List.foldl_append, he, List.foldl_cons, List.foldl_nil, ← List.range_succ, hparts]
      exact hperf
  obtain ⟨res, fl, tags, v, hv, he⟩ := upTo _ le_rfl
  exact ⟨_, res, fl, tags, v, by rwa [List.take_length] at hv, he⟩

/-! ### Acquires -/

/-- What an acquire with a program-order number that found some releases makes of its group. -/
def acquired (s : State) (k : Gid) (sc : Scope) (n : Nat) (tags : List RelTag) (g : Group) : Group :=
  let good := tags.filter fun r => included r k (coreOf s k) sc
  let g := { g with crossed := (learnAt (n + 1) (good.flatMap RelTag.know) ++ g.crossed).eraseDups,
                    observed := ((good.flatMap RelTag.seen).map (fun op => (⟨op, n + 1⟩ : Observed)) ++ g.observed).eraseDups }
  if missed s k sc tags then raise flagSCOPE g else g

theorem acquire_focus (hg : s.g.live = true) (sc : Scope) (n : Nat) (tags : List RelTag) :
    acquire s.g.id sc n tags s = { s with g := acquired s s.g.id sc n tags s.g } := updGroup_focus hg

theorem acquired_lane (k : Gid) (sc : Scope) (n : Nat) (tags : List RelTag) (g : Group) (l : List LaneOp) :
    acquired s k sc n tags { g with lane := l } = { acquired s k sc n tags g with lane := l } := by
  simp only [acquired]
  split <;> rfl

theorem acquired_id (k : Gid) (sc : Scope) (n : Nat) (tags : List RelTag) (g : Group) : (acquired s k sc n tags g).id = g.id := by
  simp only [acquired]
  split <;> rfl

theorem acquired_live (k : Gid) (sc : Scope) (n : Nat) (tags : List RelTag) (g : Group) : (acquired s k sc n tags g).live = g.live := by
  simp only [acquired]
  split <;> rfl

theorem acquire_queued (hg : s.g.live = true) (sc : Scope) (n : Nat) (tags : List RelTag) :
    acquire s.g.id sc n tags (queued o s) = queued o (acquire s.g.id sc n tags s) := by
  refine (acquire_focus (s := queued o s) hg sc n tags).trans ?_
  rw [acquire_focus hg]
  exact congrArg (fun g => { s with g := g }) (acquired_lane s.g.id sc n tags s.g [o])

/-- A state with the groups of another, the devices' errors, and the team and launch in focus but for what memory and tasks hold. -/
structure Alike (s v : State) : Prop where
  g : v.g = s.g
  groups : v.groups = s.groups
  p : v.p = s.p
  dev : v.dev = s.dev
  team : v.t.live = s.t.live ∧ v.t.id = s.t.id ∧ v.t.core = s.t.core
  launch : v.l.live = s.l.live ∧ v.l.id = s.l.id ∧ v.l.begun = s.l.begun ∧ v.l.replay = s.l.replay

theorem coreOf_focus (hf : inFocus s) : coreOf s s.g.id = s.t.core := by
  obtain ⟨hg, ht, hti, -⟩ := hf
  rw [coreOf, ← hti, team?_focus ht]
  rfl

theorem launch?_inFocus (hf : inFocus s) : launch? s s.g.id.t.l = some s.l := by
  obtain ⟨-, -, -, hl, hli, -⟩ := hf
  exact hli ▸ launch?_focus hl

theorem replays_focus (hf : inFocus s) : replays s s.g.id.t.l = s.l.replay := by
  rw [replays, launch?_inFocus hf]
  rfl

variable {v : State}

theorem Alike.inFocus (h : Alike s v) (hf : inFocus s) : Machine.inFocus v := by
  obtain ⟨hg, ht, hti, hl, hli, hpl, hpn⟩ := hf
  obtain ⟨eg, -, hp, -, ⟨et, eti, -⟩, ⟨el, eli, -, -⟩⟩ := h
  exact ⟨by rw [eg, hg], by rw [et, ht], by rw [eti, eg, hti], by rw [el, hl], by rw [eli, eg, hli], by rw [hp, hpl], by rw [hp, eg, hpn]⟩

/-- Whether an acquire synchronises depends on where its group runs and on when its launch began. -/
theorem Alike.acquired (h : Alike s v) (hf : Machine.inFocus s) (sc : Scope) (n : Nat) (tags : List RelTag) (g : Group) :
    acquired v s.g.id sc n tags g = Machine.acquired s s.g.id sc n tags g := by
  have hv := h.inFocus hf
  have hcore : coreOf v s.g.id = coreOf s s.g.id := by rw [coreOf_focus hf, ← h.g, coreOf_focus hv, h.team.2.2]
  have hmiss : missed v s.g.id sc tags = missed s s.g.id sc tags := by
    have hlv : launch? v s.g.id.t.l = some v.l := h.g ▸ launch?_inFocus hv
    simp only [missed, beforeLaunch, hcore, hlv, launch?_inFocus hf, Option.elim_some, h.launch.2.2.1]
  simp only [Machine.acquired, hcore, hmiss]

/-- All the acquires of an op. -/
theorem Alike.acquires (h : Alike s v) (hf : Machine.inFocus s) (acq : List Scope) (n : Nat) (tags : List RelTag) :
    acq.foldl (fun u sc => acquire s.g.id sc n tags u) v = { v with g := (acq.foldl (fun u sc => acquire s.g.id sc n tags u) s).g } := by
  induction acq generalizing s v with
  | nil =>
    rw [List.foldl_nil, List.foldl_nil, ← h.g]
  | cons sc acq ih =>
    have hv := h.inFocus hf
    have hgv : acquire s.g.id sc n tags v = { v with g := Machine.acquired s s.g.id sc n tags s.g } := by
      rw [← h.g, acquire_focus hv.1, h.g, h.acquired hf]
    generalize he : Machine.acquired s s.g.id sc n tags s.g = g at hgv
    have hid : g.id = s.g.id := he ▸ acquired_id s.g.id sc n tags s.g
    have hlive : g.live = s.g.live := he ▸ acquired_live s.g.id sc n tags s.g
    have hf' : Machine.inFocus { s with g := g } := by
      obtain ⟨h1, h2, h3, h4, h5, h6, h7⟩ := hf
      exact ⟨hlive.trans h1, h2, h3.trans (congrArg Gid.t hid.symm), h4, h5.trans (congrArg (·.t.l) hid.symm), h6,
        h7.trans (congrArg (·.t.l.part) hid.symm)⟩
    have hrest := ih (s := { s with g := g }) (v := { v with g := g }) ⟨rfl, h.groups, h.p, h.dev, h.team, h.launch⟩ hf'
    rw [List.foldl_cons, List.foldl_cons, hgv, acquire_focus hf.1, he, ← hid]
    exact hrest

theorem acquires_queued (hg : s.g.live = true) (acq : List Scope) (n : Nat) (tags : List RelTag) :
    acq.foldl (fun u sc => acquire s.g.id sc n tags u) (queued o s) = queued o (acq.foldl (fun u sc => acquire s.g.id sc n tags u) s) := by
  induction acq generalizing s with
  | nil => rfl
  | cons sc acq ih =>
    have hid : (acquire s.g.id sc n tags s).g.id = s.g.id := by rw [acquire_focus hg, acquired_id]
    have hlive : (acquire s.g.id sc n tags s).g.live = true := by rw [acquire_focus hg, acquired_live, hg]
    rw [List.foldl_cons, List.foldl_cons, acquire_queued hg]
    have hrest := ih hlive
    rw [hid] at hrest
    exact hrest

/-! ### Retirement -/

/-- The only op of a queue performed whole. -/
theorem performTo_sole (hg : s.g.live = true) (hl : s.g.lane = [o]) : performTo s.g.id o.seq s = performOne s.g.id o s := by
  have hbefore : opsBefore s.g (.all o) = [] := by simp [opsBefore, hl, Need.all, laneClosure]
  have hfind : (s.g.lane.find? fun p => p.seq = o.seq) = some o := by simp [hl]
  simp only [performTo, group?_focus hg, hfind, hbefore, List.nil_append, performList, ite_self]
  rfl

/-- The only op of a queue retires once it is performed. -/
theorem retireHead_sole {o₁ : LaneOp} (hg : s.g.live = true) (hl : s.g.lane = [o]) (hv : v.g.live = true) (hk : v.g.id = s.g.id)
    (hperf : performOne s.g.id o s = queued o₁ v) (hq : o₁.seq = o.seq) (hd : o₁.done = true) :
    retireHead s.g.id o.ctr s = wake s.g.id.t { v with g := soleRetired (fun q => noted v ⟨s.g.id, q⟩) o₁ v.g } := by
  have hhead : ((group? s s.g.id).bind fun g => g.lane.find? fun p => p.ctr = o.ctr) = some o := by simp [group?_focus hg, hl]
  have hop : ((group? (queued o₁ v) s.g.id).bind fun g => g.lane.find? fun p => p.seq = o.seq) = some o₁ := by
    rw [← hk, group?_queued hv]
    simp [hq]
  have hupd : updGroup s.g.id (retireOp (fun q => noted (queued o₁ v) ⟨s.g.id, q⟩) o₁) (queued o₁ v) =
      { v with g := soleRetired (fun q => noted v ⟨s.g.id, q⟩) o₁ v.g } := by
    rw [← hk]
    refine (updGroup_focus (s := queued o₁ v) hv).trans ?_
    simp only [noted_queued]
    exact congrArg (fun g => { v with g := g }) (retireOp_sole _ o₁ v.g)
  simp only [retireHead, hhead, performTo_sole hg hl, hperf, hop, hd, if_true, hupd]

/-- The only op of a queue performed with what its accesses found. -/
theorem performOne_sole {ps : List Nat} {res : List Got} {fl : Flags} {tags : List RelTag} (hf : Machine.inFocus s) (ha : Alike s v)
    (hb : o.bound = false) (hd : o.done = false)
    (hfold : (List.range o.accs.length).foldl (fun u i => performAcc s.g.id o.seq i u) s = queued (o.progress ps res fl tags) v) :
    performOne s.g.id o s = queued { o.progress ps res fl tags with done := true }
      { v with g := (o.acq.foldl (fun u sc => acquire s.g.id sc o.seq tags u) s).g } := by
  have hgv : v.g.live = true := ha.g ▸ hf.1
  have hop : laneOp? (queued (o.progress ps res fl tags) v) s.g.id o.seq = some (o.progress ps res fl tags) := by
    rw [← ha.g]
    exact laneOp?_queued hgv
  have hupd := updLane_queued (o := o.progress ps res fl tags) hgv fun o => { o with done := true }
  have hacq := acquires_queued (o := { o.progress ps res fl tags with done := true }) hgv o.acq o.seq tags
  have hseq : (o.progress ps res fl tags).seq = o.seq := rfl
  have hdone : (o.progress ps res fl tags).done = false := hd
  rw [ha.g] at hupd hacq
  rw [hseq] at hupd
  rw [performOne, hfold, hb]
  simp only [performEnd, hop, hupd, hdone]
  rw [ha.acquires hf] at hacq
  exact hacq

/-- The group once its only op, which had still to be performed, has retired: what it returned delivered, and the releases that it found
learned of. -/
def laneEnded (s : State) (o : LaneOp) (rs : List WriteRec) (res : List Got) (fl : Flags) (tags : List RelTag) : Group :=
  let g := (o.acq.foldl (fun u sc => acquire s.g.id sc o.seq tags u) s).g
  let still := fun (q : Nat) => noted { s with g := g, recs := rs } ⟨s.g.id, q⟩
  let newest := o.kind.reads && decide (s.g.lastSeq ≤ o.seq)
  { raise fl (deliver { o with res := res } g) with
    lane := []
    retired := ((o.ctr, o.seq) :: g.retired).filter fun x => x.1 ≠ .acc && still x.2
    observed := if o.ctr = .acc && still o.seq then ⟨⟨s.g.id, o.seq⟩, g.seqn⟩ :: g.observed else g.observed
    lastRead := if newest then tags else s.g.lastRead
    lastSeq := if newest then o.seq else s.g.lastSeq
    lastBound := if newest then false else s.g.lastBound }

/-- Acquires change what their group has crossed and observed, and its flags, alone. -/
theorem acquires_frame (k : Gid) (acq : List Scope) (n : Nat) (tags : List RelTag) (hg : s.g.live = true) (hk : s.g.id = k) :
    ∃ cs os x, (acq.foldl (fun u sc => acquire k sc n tags u) s).g = { s.g with crossed := cs, observed := os, s := x } := by
  induction acq generalizing s with
  | nil => exact ⟨_, _, _, rfl⟩
  | cons sc acq ih =>
    subst hk
    have hone : ∃ cs os x, acquired s s.g.id sc n tags s.g = { s.g with crossed := cs, observed := os, s := x } := by
      simp only [acquired]
      split <;> exact ⟨_, _, _, rfl⟩
    obtain ⟨cs, os, x, he⟩ := hone
    rw [List.foldl_cons, acquire_focus hg, he]
    obtain ⟨cs', os', x', he'⟩ := ih (s := { s with g := { s.g with crossed := cs, observed := os, s := x } }) hg rfl
    exact ⟨cs', os', x', he'⟩

/-- The only op of a queue, still to be performed, retires with what its accesses found. -/
theorem retireHead_performs {ps : List Nat} {res : List Got} {fl : Flags} {tags : List RelTag} (hf : Machine.inFocus s) (ha : Alike s v)
    (hl : s.g.lane = [o]) (hb : o.bound = false) (hd : o.done = false)
    (hfold : (List.range o.accs.length).foldl (fun u i => performAcc s.g.id o.seq i u) s = queued (o.progress ps res fl tags) v) :
    retireHead s.g.id o.ctr s = wake s.g.id.t { v with g := laneEnded s o v.recs res fl tags } := by
  obtain ⟨cs, os, x, hacq⟩ := acquires_frame s.g.id o.acq o.seq tags hf.1 rfl
  have hlive : (o.acq.foldl (fun u sc => acquire s.g.id sc o.seq tags u) s).g.live = true := by rw [hacq]; exact hf.1
  have hid : (o.acq.foldl (fun u sc => acquire s.g.id sc o.seq tags u) s).g.id = s.g.id := by rw [hacq]
  have hnoted : ∀ g op, noted { v with g := g } op = noted { s with g := g, recs := v.recs } op := by
    intro g op
    simp only [noted, allGroups, ha.groups]
  refine (retireHead_sole (v := { v with g := _ }) hf.1 hl hlive hid (performOne_sole hf ha hb hd hfold) rfl rfl).trans ?_
  simp only [hnoted, laneEnded, hacq, soleRetired, LaneOp.progress, hb]
  rfl

end Queued

end Sys2Proof.Machine
end

