-- ==== Sys2Proof/Proofs/LaneRetirement.lean ====
section
/-!
SUPPORT. What loads, stores, atomics and signal updates leave when they retire (O44).
-/
namespace Sys2Proof.Machine

section Ops
variable {s v : State} {o : LaneOp}

/-! ### Loads -/

/-- The releases that some accesses find, each once. -/
def foundBy (s : State) (accs : List Acc) : List RelTag :=
  accs.foldl (fun ts a => ts ++ (relsAt s s.g.id (plainly (locsFrom a.loc a.w))).filter fun t => !ts.contains t) []

theorem foundBy_concat (accs : List Acc) (a : Acc) :
    foundBy s (accs ++ [a]) =
      foundBy s accs ++ (relsAt s s.g.id (plainly (locsFrom a.loc a.w))).filter fun t => !(foundBy s accs).contains t := by
  simp [foundBy]

/-- An op none of whose accesses has been performed, alone in the queue of a group in focus, in memory without errors and writes recorded. -/
structure Alone (s : State) (o : LaneOp) : Prop where
  focus : inFocus s
  calm : calm s
  lane : s.g.lane = [o]
  done : o.done = false
  bound : o.bound = false
  parts : o.parts = []
  res : o.res = []
  flags : o.flags = 0
  tags : o.tags = []

theorem Alone.queued_progress (h : Alone s o) : queued (o.progress [] [] 0 []) s = s := by
  have ho : o.progress [] [] 0 [] = o := by rw [LaneOp.progress, ← h.parts, ← h.res, ← h.flags, ← h.tags]
  rw [ho, queued_self h.lane]

/-- Such an op retires with what its accesses have found, by an invariant of them. -/
theorem Alone.retires (h : Alone s o) {J : List Acc → List Got → Flags → List RelTag → State → Prop} (h0 : J [] [] 0 [] s)
    (alike : ∀ {pre res fl tags v}, J pre res fl tags v → Alike s v ∧ (∀ r ∈ v.recs, r.path = .lane) ∧ (o.kind.writes = false → v.recs = []))
    (home : o.kind.writes = true → ∀ a ∈ o.accs, a.loc.home.plain)
    (step : ∀ {pre res fl tags v a}, J pre res fl tags v → a ∈ o.accs →
      let x := performOn ⟨s.g.id, o.seq⟩ o a v
      J (pre ++ [a]) (res ++ x.1.got.toList.map fun y => ⟨a.lane, a.sub, y⟩) (x.1.flags ||| fl)
        (tags ++ x.1.tags.filter fun t => !tags.contains t) x.2) :
    ∃ res fl tags v, J o.accs res fl tags v ∧ retireHead s.g.id o.ctr s = wake s.g.id.t { v with g := laneEnded s o v.recs res fl tags } := by
  obtain ⟨ps, res, fl, tags, v, hv, hfold⟩ := foldl_performAcc (J := J) h.done h0 (fun hj => (alike hj).1.g)
    (fun {pre res fl tags v a} hj ha => by
      obtain ⟨he, hr, hl⟩ := alike hj
      exact ⟨he.g ▸ h.focus.1, he.dev ▸ h.calm.2.1, he.dev ▸ h.calm.2.2, hr, hl, fun hw => home hw a ha⟩) step
  rw [h.queued_progress] at hfold
  exact ⟨res, fl, tags, v, hv, retireHead_performs h.focus (alike hv).1 h.lane h.bound h.done hfold⟩

theorem Alike.refl : Alike s s := ⟨rfl, rfl, rfl, rfl, ⟨rfl, rfl, rfl⟩, ⟨rfl, rfl, rfl, rfl⟩⟩

/-- What a load's access delivers. -/
def gotBy (s : State) (sgn : Bool) (a : Acc) : Got := ⟨a.lane, a.sub, loadVal sgn a.w (bytesAt s s.g.id (locsFrom a.loc a.w))⟩

/-- A load alone retires. -/
theorem Alone.retires_load (h : Alone s o) {sgn : Bool} (hk : o.kind = .load sgn) :
    retireHead s.g.id o.ctr s = wake s.g.id.t { s with g := laneEnded s o [] (o.accs.map (gotBy s sgn)) 0 (foundBy s o.accs) } := by
  obtain ⟨res, fl, tags, v, ⟨rfl, rfl, rfl, rfl⟩, hret⟩ := h.retires
    (J := fun pre res fl tags v => v = s ∧ res = pre.map (gotBy s sgn) ∧ fl = 0 ∧ tags = foundBy s pre)
    ⟨rfl, rfl, rfl, rfl⟩
    (fun hj => by
      obtain ⟨rfl, -⟩ := hj
      exact ⟨.refl, by simp [h.calm.1], fun _ => h.calm.1⟩)
    (by simp [hk, LaneKind.writes])
    (fun {pre res fl tags v a} hj ha => by
      obtain ⟨rfl, rfl, rfl, rfl⟩ := hj
      simp only [performOn, hk, performRead_calm h.calm.1]
      exact ⟨trivial, by simp [gotBy], by simp, (foundBy_concat pre a).symm⟩)
  exact hret.trans (by rw [h.calm.1])

/-! ### Writes to memory -/

/-- The state with the memory at a home, the records and the release tags replaced. -/
def wroteAt (h : Home) (m : Mem) (rs : List WriteRec) (rels : List RelTag) (s : State) : State :=
  { updHome h (fun _ => m) s with recs := rs, rels := rels }

/-- The homes whose memory an op of a group writes: physical memory outside replay mode, and its team's bench. -/
def WritesAt (s : State) (h : Home) : Prop := h = .phys ∧ s.l.replay = false ∨ h = .bench s.t.id

theorem WritesAt.plain {h : Home} (hw : WritesAt s h) : h.plain := by
  rcases hw with ⟨rfl, -⟩ | rfl <;> trivial

section Wrote
variable {h : Home} {m : Mem} {rs : List WriteRec} {rels : List RelTag} (hf : inFocus s) (hw : WritesAt s h)
include hf hw

theorem alike_wroteAt : Alike s (wroteAt h m rs rels s) := by
  rcases hw with ⟨rfl, -⟩ | rfl
  · exact ⟨rfl, rfl, rfl, rfl, ⟨rfl, rfl, rfl⟩, ⟨rfl, rfl, rfl, rfl⟩⟩
  · rw [wroteAt, updHome, updTeam_focus hf.2.1]
    exact ⟨rfl, rfl, rfl, rfl, ⟨rfl, rfl, rfl⟩, ⟨rfl, rfl, rfl, rfl⟩⟩

theorem wroteAt_self : wroteAt h (homeMem s h) s.recs s.rels s = s := by
  rcases hw with ⟨rfl, -⟩ | rfl
  · rfl
  · rw [wroteAt, updHome, updTeam_focus hf.2.1, homeMem, team?_focus hf.2.1]
    rfl

theorem updHome_wroteAt (f : Mem → Mem) : updHome h f (wroteAt h m rs rels s) = wroteAt h (f m) rs rels s := by
  rcases hw with ⟨rfl, -⟩ | rfl
  · rfl
  · have ht : ∀ u, updTeam s.t.id u s = { s with t := u s.t } := fun u => updTeam_focus hf.2.1
    simp only [wroteAt, updHome, ht]
    exact updTeam_focus (s := { s with t := { s.t with bench := m }, recs := rs, rels := rels }) hf.2.1

theorem homeMem_wroteAt : homeMem (wroteAt h m rs rels s) h = m := by
  rcases hw with ⟨rfl, -⟩ | rfl
  · rfl
  · have ht : ∀ u, updTeam s.t.id u s = { s with t := u s.t } := fun u => updTeam_focus hf.2.1
    simp only [wroteAt, updHome, ht, homeMem]
    rw [show s.t.id = ({ s with t := { s.t with bench := m }, recs := rs, rels := rels } : State).t.id from rfl,
      team?_focus (s := { s with t := { s.t with bench := m }, recs := rs, rels := rels }) hf.2.1]
    rfl

/-- Nothing of a home that is written stands in a merge buffer. -/
theorem not_buffered_wroteAt : ¬(h = .phys ∧ replays (wroteAt h m rs rels s) s.g.id.t.l = true) := by
  rintro ⟨rfl, hr⟩
  have ha : Alike s (wroteAt .phys m rs rels s) := alike_wroteAt hf hw
  have hrep : replays (wroteAt .phys m rs rels s) s.g.id.t.l = s.l.replay := by
    rw [← ha.launch.2.2.2, ← replays_focus (ha.inFocus hf), ha.g]
  rcases hw with ⟨-, hn⟩ | hb
  · rw [hrep, hn] at hr
    cases hr
  · cases hb

/-- A group sees the memory at such a home as it is. -/
theorem viewByte_wroteAt (x : Nat) : viewByte (wroteAt h m rs rels s) s.g.id ⟨h, x⟩ = memGet m x := by
  have hmem := homeMem_wroteAt (m := m) (rs := rs) (rels := rels) hf hw
  have ha : Alike s (wroteAt h m rs rels s) := alike_wroteAt hf hw
  rcases hw with ⟨rfl, hn⟩ | rfl
  · have hl : launch? (wroteAt .phys m rs rels s) s.g.id.t.l = some (wroteAt .phys m rs rels s).l := by
      rw [← launch?_inFocus (ha.inFocus hf), ha.g]
    have htask : taskOf (wroteAt .phys m rs rels s).l s.g.id.t = none := by simp [taskOf, ha.launch.2.2.2, hn]
    simp only [viewByte, if_true, hl, Option.bind_some, htask]
    rfl
  · simp only [viewByte, hmem]
    rfl

theorem bytesAt_wroteAt {a : Loc} (ha : a.home = h) (n : Nat) :
    bytesAt (wroteAt h m rs rels s) s.g.id (locsFrom a n) = memBytes m a.addr n := by
  subst ha
  simp only [bytesAt, locsFrom, memBytes, List.map_map]
  exact List.map_congr_left fun i _ => viewByte_wroteAt hf hw _

theorem writeBytesFrom_wroteAt {op : OpId} (hk : op.k = s.g.id) {p : Path} {va : W64} (bs : List Byte) {n : Nat} {a : Loc} (ha : a.home = h) :
    writeBytesFrom op p va n a bs (wroteAt h m rs rels s) = wroteAt h (memPutBytes m a.addr bs) rs rels s := by
  induction bs generalizing n a m with
  | nil => rfl
  | cons b bs ih =>
    have hbuf : ¬(a.home = .phys ∧ replays (wroteAt h m rs rels s) op.k.t.l = true) := by
      rw [ha, hk]
      exact not_buffered_wroteAt hf hw
    have hb : writeByte op.k p a (va + BitVec.ofNat 64 n) b (wroteAt h m rs rels s) = wroteAt h (memPut m a.addr b) rs rels s := by
      rw [← updHome_wroteAt (m := m) hf hw fun m => memPut m a.addr b, ← ha]
      rw [← ha] at hbuf
      exact if_neg hbuf
    rw [writeBytesFrom, hb]
    exact ih (a := { a with addr := a.addr + 1 }) ha

theorem endRels_wroteAt (q : Nat) (a : Loc) (n : Nat) :
    endRels ⟨s.g.id, q⟩ a n (wroteAt h m rs rels s) = wroteAt h m rs (rels.map (endTag s.l.replay ⟨s.g.id, q⟩ a n)) s := by
  have ha : Alike s (wroteAt h m rs rels s) := alike_wroteAt hf hw
  have hrep : replays (wroteAt h m rs rels s) s.g.id.t.l = s.l.replay := by
    rw [← ha.launch.2.2.2, ← replays_focus (ha.inFocus hf), ha.g]
  rw [endRels_rels, hrep]
  rfl

end Wrote

/-! ### Releases -/

/-- A release by an access of an op of the group in focus, of no less than the group knows. -/
structure Released (s : State) (q : Nat) (sc : Scope) (a : Acc) (r : RelTag) : Prop where
  bytes : r.bytes = locsFrom a.loc a.w
  ended : r.ended = []
  scope : r.scope = sc
  by_ : r.by_ = some s.g.id
  op : r.op = ⟨s.g.id, q⟩
  core : r.core = s.t.core
  know : knowOf s s.g q ⊆ r.know

/-- What an op with a scope or without leaves among the release tags: without one the old tags, else its own beside them, one of each of its
accesses where their bytes are apart. -/
def Publishes (s : State) (o : LaneOp) (accs : List Acc) (old rels : List RelTag) (apart : Prop) : Prop :=
  (o.rel = none → rels = old) ∧
    ∀ sc, o.rel = some sc →
      (∀ r ∈ rels, r.op = ⟨s.g.id, o.seq⟩ ∨ r ∈ old) ∧ (apart → ∀ a ∈ accs, ∃ r ∈ rels, Released s o.seq sc a r)

theorem publishes_nil (s : State) (o : LaneOp) (rels : List RelTag) (apart : Prop) : Publishes s o [] rels rels apart :=
  ⟨fun _ => rfl, fun _ _ => ⟨fun _ h => .inr h, fun _ => List.forall_mem_nil _⟩⟩

section Wrote
variable {h : Home} {m : Mem} {rs : List WriteRec} {rels : List RelTag} (hf : inFocus s) (hc : s.recs = []) (hw : WritesAt s h)
include hf hc hw

/-- A group's knowledge has not shrunk where it has written. -/
theorem knowOf_wroteAt (q : Nat) : knowOf s s.g q ⊆ knowOf (wroteAt h m rs rels s) s.g q := by
  have hhost : knowHost s s.g q = [] := by simp [knowHost, hc]
  have hrecs : knowRecs (wroteAt h m rs rels s) s.g q = knowRecs s s.g q := by
    rcases hw with ⟨rfl, -⟩ | rfl
    · rfl
    · rw [wroteAt, updHome, updTeam_focus hf.2.1]
      rfl
  rw [knowOf, knowOf, hhost, hrecs, List.append_nil]
  exact List.subset_append_left _ _

theorem released_of_wroteAt {q : Nat} {sc : Scope} {a : Acc} :
    ∃ r, releasedTags ⟨s.g.id, q⟩ (some sc) a (wroteAt h m rs rels s) = [r] ∧ Released s q sc a r := by
  have ha : Alike s (wroteAt h m rs rels s) := alike_wroteAt hf hw
  have hv := ha.inFocus hf
  have hcore : coreOf (wroteAt h m rs rels s) s.g.id = s.t.core := by rw [← ha.team.2.2, ← coreOf_focus hv, ha.g]
  have hgroup : group? (wroteAt h m rs rels s) s.g.id = some s.g := by rw [← ha.g, group?_focus hv.1]
  refine ⟨_, rfl, rfl, rfl, rfl, rfl, rfl, hcore, ?_⟩
  rw [hgroup]
  exact knowOf_wroteAt hf hc hw q

/-- The bytes of one access written at such a home. -/
theorem putAccess_wroteAt {rmw : Bool} {a : Acc} {bs : List Byte} (ha : a.loc.home = h)
    (hr : ∀ r ∈ rs, r.op = ⟨s.g.id, o.seq⟩ ∧ r.path = .lane) :
    ∃ rs' ts, (∀ r ∈ rs', r.op = ⟨s.g.id, o.seq⟩ ∧ r.path = .lane) ∧
      putAccess ⟨s.g.id, o.seq⟩ rmw o.rel a bs (wroteAt h m rs rels s) = wroteAt h (memPutBytes m a.loc.addr bs) rs' (ts ++ rels) s ∧
      (o.rel = none → ts = []) ∧ ∀ sc, o.rel = some sc → ∃ r, ts = [r] ∧ Released s o.seq sc a r := by
  obtain ⟨rs', hown, he⟩ : ∃ rs', (∀ r ∈ rs', r.op = ⟨s.g.id, o.seq⟩ ∧ r.path = .lane) ∧
      addRec ⟨s.g.id, o.seq⟩ .lane rmw ((locsFrom a.loc bs.length).map fun x => (x, viewByte (wroteAt h m rs rels s) s.g.id x))
        (wroteAt h m rs rels s) = wroteAt h m rs' rels s := ⟨_, addRec_own hr, addRec_eq _ _ _ _ _⟩
  refine ⟨rs', releasedTags ⟨s.g.id, o.seq⟩ o.rel a (wroteAt h (memPutBytes m a.loc.addr bs) rs' rels s), hown, ?_, ?_, ?_⟩
  · rw [putAccess, he, writeBytesFrom_wroteAt hf hw rfl bs ha, releaseAt_eq]
    rfl
  · intro hn
    rw [hn]
    rfl
  · intro sc hsc
    rw [hsc]
    exact released_of_wroteAt hf hc hw

end Wrote

section Publish
variable {accs : List Acc} {a : Acc} {old rels ts : List RelTag} {apart apart' : Prop}

/-- One more access with its release, if the op has one. -/
theorem Publishes.concat (h : Publishes s o accs old rels apart) (hn : o.rel = none → ts = [])
    (hs : ∀ sc, o.rel = some sc → ∃ r, ts = [r] ∧ Released s o.seq sc a r) : Publishes s o (accs ++ [a]) old (ts ++ rels) apart := by
  refine ⟨fun e => by rw [hn e, h.1 e, List.nil_append], fun sc e => ?_⟩
  obtain ⟨r, rfl, hr⟩ := hs sc e
  obtain ⟨hmem, hall⟩ := h.2 sc e
  refine ⟨List.forall_mem_cons.2 ⟨.inl hr.op, hmem⟩, fun hap => List.forall_mem_append.2 ⟨fun b hb => ?_, ?_⟩⟩
  · obtain ⟨x, hx, hxr⟩ := hall hap b hb
    exact ⟨x, List.mem_cons_of_mem _ hx, hxr⟩
  · exact List.forall_mem_singleton.2 ⟨r, List.mem_cons_self, hr⟩

theorem Publishes.mono (h : Publishes s o accs old rels apart) (hap : apart' → apart) : Publishes s o accs old rels apart' :=
  ⟨h.1, fun sc e => ⟨(h.2 sc e).1, fun h' => (h.2 sc e).2 (hap h')⟩⟩

/-- A plain write ends no release sequence of bytes that it leaves alone. -/
theorem endTag_apart {rep : Bool} {op : OpId} {l : Loc} {n : Nat} {r : RelTag} (h : ∀ x ∈ locsFrom l n, x ∉ r.bytes) :
    endTag rep op l n r = r := by
  have hall : ∀ as : List (Loc × List OpId), (∀ x ∈ as, x.1 ∉ r.bytes) → r.endAt op as = r := by
    intro as has
    have hnil : (as.filter fun x => r.bytes.contains x.1 && !x.2.contains r.op && !(r.ended.any fun e => e.1 = x.1 && !x.2.contains e.2)) = [] :=
      List.filter_eq_nil_iff.2 fun x hx => by simp [has x hx]
    rw [RelTag.endAt, hnil]
    rfl
  have hplain : ∀ x ∈ plainly (locsFrom l n), x.1 ∉ r.bytes := by
    intro x hx
    obtain ⟨y, hy, rfl⟩ := List.mem_map.1 hx
    exact h y hy
  simp only [endTag]
  split
  · exact hall _ fun x hx => hplain x (List.mem_of_mem_filter hx)
  · exact hall _ hplain

theorem endTag_op (rep : Bool) (op : OpId) (l : Loc) (n : Nat) (r : RelTag) : (endTag rep op l n r).op = r.op := by
  simp only [endTag]
  split <;> rfl

/-- Accesses that do not meet share no byte. -/
theorem not_mem_locsFrom_of_apart {b : Acc} (h : accMeet b a = false) {x : Loc} (hx : x ∈ locsFrom a.loc a.w) : x ∉ locsFrom b.loc b.w := by
  intro hb
  obtain ⟨i, hi, rfl⟩ := List.mem_map.1 hx
  obtain ⟨j, hj, he⟩ := List.mem_map.1 hb
  obtain ⟨hhome, haddr⟩ := Loc.mk.inj he
  have hi := List.mem_range.1 hi
  have hj := List.mem_range.1 hj
  have hmeet : accMeet b a = true := by
    simp only [accMeet, hhome, decide_true, Bool.true_and, Bool.and_eq_true, decide_eq_true_eq]
    omega
  rw [h] at hmeet
  cases hmeet

/-- A plain write ends the sequences of the old releases, and of the op's own where its accesses meet. -/
theorem Publishes.endTags (h : Publishes s o accs old rels apart) (rep : Bool) (op : OpId)
    (hap : apart' → apart ∧ ∀ b ∈ accs, accMeet b a = false) :
    Publishes s o accs (old.map (endTag rep op a.loc a.w)) (rels.map (endTag rep op a.loc a.w)) apart' := by
  refine ⟨fun e => by rw [h.1 e], fun sc e => ?_⟩
  obtain ⟨hmem, hall⟩ := h.2 sc e
  refine ⟨fun r hr => ?_, fun h' b hb => ?_⟩
  · obtain ⟨x, hx, rfl⟩ := List.mem_map.1 hr
    rw [endTag_op]
    exact (hmem x hx).imp_right List.mem_map_of_mem
  · obtain ⟨hap, hapart⟩ := hap h'
    obtain ⟨r, hr, hrel⟩ := hall hap b hb
    have hsame : endTag rep op a.loc a.w r = r := endTag_apart fun x hx => hrel.bytes ▸ not_mem_locsFrom_of_apart (hapart b hb) hx
    exact ⟨r, hsame ▸ List.mem_map_of_mem hr, hrel⟩

end Publish

/-! ### Stores -/

/-- What a store's accesses leave of a memory. -/
def storedBy (accs : List Acc) (m : Mem) : Mem := accs.foldl (fun m a => memPutBytes m a.loc.addr (leBytes a.w a.data.toNat)) m

theorem storedBy_concat (accs : List Acc) (a : Acc) (m : Mem) :
    storedBy (accs ++ [a]) m = memPutBytes (storedBy accs m) a.loc.addr (leBytes a.w a.data.toNat) := by simp [storedBy]

/-- What a store's accesses leave of the release tags that stood before it. -/
def keptBy (s : State) (q : Nat) (accs : List Acc) : List RelTag :=
  accs.foldl (fun rs a => rs.map (endTag s.l.replay ⟨s.g.id, q⟩ a.loc a.w)) s.rels

theorem foldl_endRels (hf : inFocus s) (q : Nat) (accs : List Acc) :
    accs.foldl (fun u a => endRels ⟨s.g.id, q⟩ a.loc a.w u) s = { s with rels := keptBy s q accs } := by
  have hrep := replays_focus hf
  have hfrom : ∀ rels, accs.foldl (fun u a => endRels ⟨s.g.id, q⟩ a.loc a.w u) { s with rels := rels } =
      { s with rels := accs.foldl (fun rs a => rs.map (endTag s.l.replay ⟨s.g.id, q⟩ a.loc a.w)) rels } := by
    induction accs with
    | nil => exact fun _ => rfl
    | cons a accs ih =>
      intro rels
      have hone : endRels ⟨s.g.id, q⟩ a.loc a.w { s with rels := rels } =
          { s with rels := rels.map (endTag s.l.replay ⟨s.g.id, q⟩ a.loc a.w) } := by
        rw [endRels_rels, ← hrep]
        rfl
      rw [List.foldl_cons, hone]
      exact ih _
  exact hfrom s.rels

/-- A store alone retires: the bytes of its accesses replaced in lane order. -/
theorem Alone.retires_store (h : Alone s o) {hm : Home} (hw : WritesAt s hm) (ha : ∀ a ∈ o.accs, a.loc.home = hm) (hk : o.kind = .store) :
    ∃ rs rels, retireHead s.g.id o.ctr s = wake s.g.id.t { updHome hm (fun _ => storedBy o.accs (homeMem s hm)) s with
        g := laneEnded s o rs [] 0 [], recs := rs, rels := rels } ∧
      Publishes s o o.accs (keptBy s o.seq o.accs) rels (o.accs.Pairwise fun a b => accMeet a b = false) := by
  obtain ⟨res, fl, tags, v, ⟨rfl, rfl, rfl, rs, rels, hrs, rfl, hpub⟩, hret⟩ := h.retires
    (J := fun pre res fl tags v => res = [] ∧ fl = 0 ∧ tags = [] ∧ ∃ rs rels, (∀ r ∈ rs, r.op = ⟨s.g.id, o.seq⟩ ∧ r.path = .lane) ∧
      v = wroteAt hm (storedBy pre (homeMem s hm)) rs rels s ∧
      Publishes s o pre (keptBy s o.seq pre) rels (pre.Pairwise fun a b => accMeet a b = false))
    ⟨rfl, rfl, rfl, s.recs, s.rels, by simp [h.calm.1], (wroteAt_self h.focus hw).symm, publishes_nil s o s.rels _⟩
    (fun hj => by
      obtain ⟨-, -, -, rs, rels, hrs, rfl, -⟩ := hj
      exact ⟨alike_wroteAt h.focus hw, fun r hr => (hrs r hr).2, by simp [hk, LaneKind.writes]⟩)
    (fun _ a hmem => ha a hmem ▸ hw.plain)
    (fun {pre res fl tags v a} hj hmem => by
      obtain ⟨rfl, rfl, rfl, rs, rels, hrs, rfl, hpub⟩ := hj
      obtain ⟨rs', ts, hown, he, hn, hs⟩ := putAccess_wroteAt (m := storedBy pre (homeMem s hm))
        (rels := rels.map (endTag s.l.replay ⟨s.g.id, o.seq⟩ a.loc a.w)) (rmw := false) (bs := leBytes a.w a.data.toNat)
        h.focus h.calm.1 hw (ha a hmem) hrs
      have happart : ((pre ++ [a]).Pairwise fun a b => accMeet a b = false) →
          (pre.Pairwise fun a b => accMeet a b = false) ∧ ∀ b ∈ pre, accMeet b a = false := by
        simp [List.pairwise_append]
      have hperf : performOn ⟨s.g.id, o.seq⟩ o a (wroteAt hm (storedBy pre (homeMem s hm)) rs rels s) =
          (⟨none, 0, []⟩, wroteAt hm (storedBy (pre ++ [a]) (homeMem s hm)) rs' (ts ++ rels.map (endTag s.l.replay ⟨s.g.id, o.seq⟩ a.loc a.w)) s) := by
        have hlane : ∀ r ∈ (wroteAt hm (storedBy pre (homeMem s hm)) rs rels s).recs, r.path = .lane := fun r hr => (hrs r hr).2
        simp only [performOn, hk, performWrite_same hlane, endRels_wroteAt h.focus hw, he, storedBy_concat]
      dsimp only
      rw [hperf]
      refine ⟨rfl, by simp, rfl, rs', _, hown, rfl, ?_⟩
      rw [keptBy, List.foldl_append]
      exact (hpub.endTags _ _ happart).concat hn hs)
  exact ⟨rs, rels, hret, hpub⟩

/-- A store leaves every byte that its accesses do not cover. -/
theorem memGet_storedBy_other {accs : List Acc} {addr : Nat} (h : ¬covered accs addr) (m : Mem) :
    memGet (storedBy accs m) addr = memGet m addr := by
  induction accs generalizing m with
  | nil => rfl
  | cons a accs ih =>
    have hrest : ¬covered accs addr := fun ⟨b, hb, hc⟩ => h ⟨b, List.mem_cons_of_mem _ hb, hc⟩
    have ha : addr < a.loc.addr ∨ a.loc.addr + (leBytes a.w a.data.toNat).length ≤ addr := by
      rw [leBytes_length]
      by_contra hn
      exact h ⟨a, List.mem_cons_self, by omega, by omega⟩
    exact (ih hrest _).trans (memGet_putBytes_other _ _ ha)

/-! ### Read-modify-writes -/

/-- What read-modify-writes in order leave: the memory, the old values, and the flags. -/
def rmwBy (new : Acc → Nat → Nat × Flags) (accs : List Acc) (m : Mem) : Mem × List Got × Flags :=
  accs.foldl (fun x a =>
    let old := memNat x.1 a.loc.addr a.w
    (memPutNat x.1 a.loc.addr a.w (new a old).1, x.2.1 ++ [⟨a.lane, a.sub, BitVec.ofNat 128 old⟩], (new a old).2 ||| x.2.2)) (m, [], 0)

theorem rmwBy_concat (new : Acc → Nat → Nat × Flags) (accs : List Acc) (a : Acc) (m : Mem) :
    rmwBy new (accs ++ [a]) m =
      let x := rmwBy new accs m
      let old := memNat x.1 a.loc.addr a.w
      (memPutNat x.1 a.loc.addr a.w (new a old).1, x.2.1 ++ [⟨a.lane, a.sub, BitVec.ofNat 128 old⟩], (new a old).2 ||| x.2.2) := by
  simp [rmwBy]

/-- A reader finds what it found before among tags that hold the old ones, and nothing else where they are the old ones. -/
theorem relsAt_alike (hf : inFocus s) (ha : Alike s v) (as : List (Loc × List OpId)) (hsub : s.rels ⊆ v.rels) :
    relsAt s s.g.id as ⊆ relsAt v s.g.id as ∧ (v.rels = s.rels → relsAt v s.g.id as = relsAt s s.g.id as) := by
  have hl : launch? v s.g.id.t.l = some v.l := ha.g ▸ launch?_inFocus (ha.inFocus hf)
  have hhid : ∀ r, relHidden v s.g.id r = relHidden s s.g.id r := fun r => by
    simp only [relHidden, hl, launch?_inFocus hf, Option.elim_some, ha.launch.2.2.2]
  simp only [relsAt, hhid]
  exact ⟨List.filter_subset _ hsub, fun e => by rw [e]⟩

/-- Adding what is found, each once, to more tags leaves more tags. -/
theorem foundBy_subset_step {ts tags xs ys : List RelTag} (h : ts ⊆ tags) (hx : xs ⊆ ys) :
    (ts ++ xs.filter fun t => !ts.contains t) ⊆ tags ++ ys.filter fun t => !tags.contains t := by
  intro t ht
  rcases List.mem_append.1 ht with ht | ht
  · exact List.mem_append_left _ (h ht)
  · by_cases hm : t ∈ tags
    · exact List.mem_append_left _ hm
    · exact List.mem_append_right _ (List.mem_filter.2 ⟨hx (List.mem_of_mem_filter ht), by simpa using hm⟩)

/-- An atomic, a reduction or a signal update alone retires: each value replaced by its new one, in lane order. -/
theorem Alone.retires_rmw (h : Alone s o) {hm : Home} (hw : WritesAt s hm) (ha : ∀ a ∈ o.accs, a.loc.home = hm) (hk : o.kind.writes = true)
    {new : Acc → Nat → Nat × Flags} {gives raises : Bool}
    (hon : ∀ a u, performOn ⟨s.g.id, o.seq⟩ o a u =
      let x := performRmw ⟨s.g.id, o.seq⟩ o.rel (new a) a u
      (⟨if gives then x.1.got else none, if raises then x.1.flags else 0, x.1.tags⟩, x.2)) :
    let x := rmwBy new o.accs (homeMem s hm)
    ∃ tags rs rels, retireHead s.g.id o.ctr s = wake s.g.id.t { updHome hm (fun _ => x.1) s with
        g := laneEnded s o rs (if gives then x.2.1 else []) (if raises then x.2.2 else 0) tags, recs := rs, rels := rels } ∧
      foundBy s o.accs ⊆ tags ∧ (o.rel = none → tags = foundBy s o.accs) ∧ Publishes s o o.accs s.rels rels True := by
  obtain ⟨res, fl, tags, v, ⟨rs, rels, hrs, rfl, rfl, rfl, hsub, hfound, hsame, hpub⟩, hret⟩ := h.retires
    (J := fun pre res fl tags v => ∃ rs rels, (∀ r ∈ rs, r.op = ⟨s.g.id, o.seq⟩ ∧ r.path = .lane) ∧
      v = wroteAt hm (rmwBy new pre (homeMem s hm)).1 rs rels s ∧
      res = (if gives then (rmwBy new pre (homeMem s hm)).2.1 else []) ∧ fl = (if raises then (rmwBy new pre (homeMem s hm)).2.2 else 0) ∧
      s.rels ⊆ rels ∧ foundBy s pre ⊆ tags ∧ (o.rel = none → tags = foundBy s pre) ∧ Publishes s o pre s.rels rels True)
    ⟨s.recs, s.rels, by simp [h.calm.1], (wroteAt_self h.focus hw).symm, by simp [rmwBy], by simp [rmwBy], List.Subset.refl _,
      List.Subset.refl _, fun _ => rfl, publishes_nil s o s.rels _⟩
    (fun hj => by
      obtain ⟨rs, rels, hrs, rfl, -⟩ := hj
      exact ⟨alike_wroteAt h.focus hw, fun r hr => (hrs r hr).2, by simp [hk]⟩)
    (fun _ a hmem => ha a hmem ▸ hw.plain)
    (fun {pre res fl tags v a} hj hmem => by
      obtain ⟨rs, rels, hrs, rfl, rfl, rfl, hsub, hfound, hsame, hpub⟩ := hj
      generalize hx : rmwBy new pre (homeMem s hm) = x at *
      have hbytes : leNat (bytesAt (wroteAt hm x.1 rs rels s) s.g.id (locsFrom a.loc a.w)) = memNat x.1 a.loc.addr a.w := by
        rw [bytesAt_wroteAt h.focus hw (ha a hmem)]
        rfl
      obtain ⟨rs', ts, hown, he, hn, hs⟩ := putAccess_wroteAt (m := x.1) (rels := rels) (rmw := true)
        (bs := leBytes a.w (new a (memNat x.1 a.loc.addr a.w)).1) h.focus h.calm.1 hw (ha a hmem) hrs
      obtain ⟨hrsub, hrsame⟩ := relsAt_alike h.focus (alike_wroteAt (m := x.1) (rs := rs) (rels := rels) h.focus hw)
        (plainly (locsFrom a.loc a.w)) hsub
      have hlane : ∀ r ∈ (wroteAt hm x.1 rs rels s).recs, r.path = .lane := fun r hr => (hrs r hr).2
      simp only [hon, performRmw_same hlane, hbytes, he, rmwBy_concat, hx, foundBy_concat]
      refine ⟨rs', ts ++ rels, hown, rfl, by cases gives <;> simp, by cases raises <;> simp, List.subset_append_of_subset_right _ hsub, ?_, ?_,
        hpub.concat hn hs⟩
      · exact foundBy_subset_step hfound hrsub
      · intro e
        rw [hsame e, hrsame (hpub.1 e)])
  exact ⟨tags, rs, rels, hret, hfound, hsame, hpub⟩

/-! ### Writes of a replay task -/

/-- A merge buffer once bytes of an access of the lane path are written to it. -/
def bufferedBy (a : Acc) (bs : List Byte) (buf : List BufByte) : List BufByte :=
  bs.zipIdx.foldl (fun b y => bufWrite b (a.loc.addr + y.2) (a.va + BitVec.ofNat 64 y.2) .lane y.1) buf

/-- The state with the merge buffer of the task in focus changed, and with records and release tags replaced. -/
def wroteBuffer (f : List BufByte → List BufByte) (rs : List WriteRec) (rels : List RelTag) (s : State) : State :=
  { s with l := updTask s.g.id.t.team (fun t => { t with buf := f t.buf }) s.l, recs := rs, rels := rels }

theorem alike_wroteBuffer (f : List BufByte → List BufByte) (rs : List WriteRec) (rels : List RelTag) (s : State) :
    Alike s (wroteBuffer f rs rels s) := ⟨rfl, rfl, rfl, rfl, ⟨rfl, rfl, rfl⟩, ⟨rfl, rfl, rfl, rfl⟩⟩

theorem wroteBuffer_self (s : State) : wroteBuffer id s.recs s.rels s = s := by
  have htask : updTask s.g.id.t.team (fun t => { t with buf := id t.buf }) s.l = s.l := by simp [updTask]
  rw [wroteBuffer, htask]

theorem updTask_updTask (n : Nat) (f g : List BufByte → List BufByte) (l : Launch) :
    updTask n (fun t => { t with buf := g t.buf }) (updTask n (fun t => { t with buf := f t.buf }) l) =
      updTask n (fun t => { t with buf := g (f t.buf) }) l := by
  simp only [updTask, List.map_map]
  congr 1
  refine List.map_congr_left fun t _ => ?_
  by_cases h : t.team = n <;> simp [h]

section Buffer
variable (hf : inFocus s) (hrep : s.l.replay = true) {f : List BufByte → List BufByte} {rs : List WriteRec} {rels : List RelTag}
include hf hrep

theorem writeByte_wroteBuffer {a : Loc} (ha : a.home = .phys) (va : W64) (b : Byte) :
    writeByte s.g.id .lane a va b (wroteBuffer f rs rels s) = wroteBuffer (fun x => bufWrite (f x) a.addr va .lane b) rs rels s := by
  have hv := (alike_wroteBuffer f rs rels s).inFocus hf
  have hbuf : a.home = .phys ∧ replays (wroteBuffer f rs rels s) s.g.id.t.l = true := ⟨ha, (replays_focus hv).trans hrep⟩
  refine (if_pos hbuf).trans ?_
  have hid : s.g.id.t.l = (wroteBuffer f rs rels s).l.id := hf.2.2.2.2.1.symm
  rw [hid, updLaunch_focus hv.2.2.2.1]
  exact congrArg (fun l => { s with l := l, recs := rs, rels := rels })
    (updTask_updTask s.g.id.t.team f (fun x => bufWrite x a.addr va .lane b) s.l)

theorem writeBytesFrom_wroteBuffer {op : OpId} (hk : op.k = s.g.id) {va : W64} (bs : List Byte) {n addr : Nat} :
    writeBytesFrom op .lane va n ⟨.phys, addr + n⟩ bs (wroteBuffer f rs rels s) =
      wroteBuffer (fun x => (bs.zipIdx n).foldl (fun b y => bufWrite b (addr + y.2) (va + BitVec.ofNat 64 y.2) .lane y.1) (f x)) rs rels s := by
  induction bs generalizing n f with
  | nil => rfl
  | cons b bs ih =>
    rw [writeBytesFrom, hk, writeByte_wroteBuffer hf hrep rfl]
    exact ih (n := n + 1)

/-- The bytes of one access written to the merge buffer. -/
theorem putAccess_wroteBuffer {rmw : Bool} {a : Acc} {bs : List Byte} (ha : a.loc.home = .phys)
    (hr : ∀ r ∈ rs, r.op = ⟨s.g.id, o.seq⟩ ∧ r.path = .lane) :
    ∃ rs' rels', (∀ r ∈ rs', r.op = ⟨s.g.id, o.seq⟩ ∧ r.path = .lane) ∧
      putAccess ⟨s.g.id, o.seq⟩ rmw o.rel a bs (wroteBuffer f rs rels s) = wroteBuffer (fun x => bufferedBy a bs (f x)) rs' rels' s := by
  obtain ⟨rs', hown, he⟩ : ∃ rs', (∀ r ∈ rs', r.op = ⟨s.g.id, o.seq⟩ ∧ r.path = .lane) ∧
      addRec ⟨s.g.id, o.seq⟩ .lane rmw ((locsFrom a.loc bs.length).map fun x => (x, viewByte (wroteBuffer f rs rels s) s.g.id x))
        (wroteBuffer f rs rels s) = wroteBuffer f rs' rels s := ⟨_, addRec_own hr, addRec_eq _ _ _ _ _⟩
  refine ⟨rs', releasedTags ⟨s.g.id, o.seq⟩ o.rel a (wroteBuffer (fun x => bufferedBy a bs (f x)) rs' rels s) ++ rels, hown, ?_⟩
  have hloc : a.loc = ⟨.phys, a.loc.addr + 0⟩ := by rw [← ha]; rfl
  rw [putAccess, he, releaseAt_eq]
  have hwrite := writeBytesFrom_wroteBuffer (f := f) (rs := rs') (rels := rels) hf hrep (op := ⟨s.g.id, o.seq⟩) rfl (va := a.va) bs (n := 0)
    (addr := a.loc.addr)
  rw [← hloc] at hwrite
  rw [hwrite]
  rfl

theorem endRels_wroteBuffer (q : Nat) (a : Loc) (n : Nat) :
    endRels ⟨s.g.id, q⟩ a n (wroteBuffer f rs rels s) = wroteBuffer f rs (rels.map (endTag true ⟨s.g.id, q⟩ a n)) s := by
  have hv := (alike_wroteBuffer f rs rels s).inFocus hf
  have hr : replays (wroteBuffer f rs rels s) s.g.id.t.l = true := (replays_focus hv).trans hrep
  rw [endRels_rels, hr]
  rfl

end Buffer

/-- A store of a replay task alone retires: its bytes go to the merge buffer in lane order. -/
theorem Alone.retires_bufferedStore (h : Alone s o) (hrep : s.l.replay = true) (ha : ∀ a ∈ o.accs, a.loc.home = .phys) (hk : o.kind = .store) :
    ∃ rs rels, retireHead s.g.id o.ctr s = wake s.g.id.t { wroteBuffer
        (fun b => o.accs.foldl (fun b a => bufferedBy a (leBytes a.w a.data.toNat) b) b) rs rels s with g := laneEnded s o rs [] 0 [] } := by
  obtain ⟨res, fl, tags, v, ⟨rfl, rfl, rfl, rs, rels, hrs, rfl⟩, hret⟩ := h.retires
    (J := fun pre res fl tags v => res = [] ∧ fl = 0 ∧ tags = [] ∧ ∃ rs rels, (∀ r ∈ rs, r.op = ⟨s.g.id, o.seq⟩ ∧ r.path = .lane) ∧
      v = wroteBuffer (fun b => pre.foldl (fun b a => bufferedBy a (leBytes a.w a.data.toNat) b) b) rs rels s)
    ⟨rfl, rfl, rfl, s.recs, s.rels, by simp [h.calm.1], (wroteBuffer_self s).symm⟩
    (fun hj => by
      obtain ⟨-, -, -, rs, rels, hrs, rfl⟩ := hj
      exact ⟨alike_wroteBuffer _ _ _ _, fun r hr => (hrs r hr).2, by simp [hk, LaneKind.writes]⟩)
    (fun _ a hmem => by rw [ha a hmem]; trivial)
    (fun {pre res fl tags v a} hj hmem => by
      obtain ⟨rfl, rfl, rfl, rs, rels, hrs, rfl⟩ := hj
      obtain ⟨rs', rels', hown, he⟩ := putAccess_wroteBuffer (f := fun b => pre.foldl (fun b a => bufferedBy a (leBytes a.w a.data.toNat) b) b)
        (rels := rels.map (endTag true ⟨s.g.id, o.seq⟩ a.loc a.w)) (rmw := false) (bs := leBytes a.w a.data.toNat)
        h.focus hrep (ha a hmem) hrs
      have hlane : ∀ r ∈ (wroteBuffer (fun b => pre.foldl (fun b a => bufferedBy a (leBytes a.w a.data.toNat) b) b) rs rels s).recs,
          r.path = .lane := fun r hr => (hrs r hr).2
      simp only [performOn, hk, performWrite_same hlane, endRels_wroteBuffer h.focus hrep, he]
      exact ⟨rfl, by simp, rfl, rs', rels', hown, by simp only [List.foldl_append, List.foldl_cons, List.foldl_nil]⟩)
  exact ⟨rs, rels, hret⟩

/-- An atomic of a replay task with one access, alone, retires: it returns what the task sees, and its new value goes to the merge buffer. -/
theorem Alone.retires_bufferedAtom (h : Alone s o) (hrep : s.l.replay = true) {a : Acc} (hacc : o.accs = [a]) (ha : a.loc.home = .phys)
    {aop : Nat} {sgn : Bool} (hk : o.kind = .atom aop sgn) :
    let old := leNat (bytesAt s s.g.id (locsFrom a.loc a.w))
    let new := atomNew aop sgn a.w old a.data.toNat a.exp.toNat
    ∃ rs rels, retireHead s.g.id o.ctr s = wake s.g.id.t { wroteBuffer (bufferedBy a (leBytes a.w new.1)) rs rels s with
      g := laneEnded s o rs [⟨a.lane, a.sub, BitVec.ofNat 128 old⟩] new.2 (foundBy s o.accs) } := by
  intro old new
  have hrecs : ∀ r ∈ s.recs, r.op = ⟨s.g.id, o.seq⟩ ∧ r.path = .lane := by simp [h.calm.1]
  have hq : Quiet s o a := ⟨h.focus.1, h.calm.2.1, h.calm.2.2, fun r hr => (hrecs r hr).2, fun _ => h.calm.1, fun _ => by rw [ha]; trivial⟩
  obtain ⟨rs, rels, -, he⟩ := putAccess_wroteBuffer (o := o) (f := id) (rs := s.recs) (rels := s.rels) (rmw := true) (bs := leBytes a.w new.1)
    h.focus hrep ha hrecs
  rw [wroteBuffer_self] at he
  have hon : performOn ⟨s.g.id, o.seq⟩ o a s =
      (⟨some (BitVec.ofNat 128 old), new.2, relsAt s s.g.id (plainly (locsFrom a.loc a.w))⟩, wroteBuffer (bufferedBy a (leBytes a.w new.1)) rs rels s) := by
    simp only [performOn, hk, performRmw_same hq.recs]
    exact congrArg (Prod.mk _) he
  have hperf := performAcc_queued (i := 0) hq h.done (by simp [h.parts]) (by simp [hacc])
  rw [hon, queued_self h.lane] at hperf
  have hfold : (List.range o.accs.length).foldl (fun u i => performAcc s.g.id o.seq i u) s =
      queued (o.progress [0] [⟨a.lane, a.sub, BitVec.ofNat 128 old⟩] new.2 (foundBy s o.accs))
        (wroteBuffer (bufferedBy a (leBytes a.w new.1)) rs rels s) := by
    have hnote : noteDone 0 a ⟨some (BitVec.ofNat 128 old), new.2, relsAt s s.g.id (plainly (locsFrom a.loc a.w))⟩ o =
        o.progress [0] [⟨a.lane, a.sub, BitVec.ofNat 128 old⟩] new.2 (foundBy s o.accs) := by
      simp [noteDone, LaneOp.progress, foundBy, hacc, h.parts, h.res, h.flags, h.tags]
    rw [← hnote, ← hperf, hacc]
    rfl
  exact ⟨rs, rels, retireHead_performs h.focus (alike_wroteBuffer _ _ _ _) h.lane h.bound h.done hfold⟩

/-! ### Empty ops -/

theorem raise_zero (g : Group) : raise 0 g = g := by
  have hs : g.s.set! 60 (g.s[60]! ||| (0 : Flags).setWidth 64) = g.s := by
    apply Vector.ext
    intro i hi
    by_cases h : 60 = i
    · subst h
      simp
    · simp [h]
  rw [raise, hs]

/-- An empty op alone retires. -/
theorem retires_empty (hf : inFocus s) (hl : s.g.lane = [o]) (hd : o.done = true) (hk : o.kind = .empty) (hdst : o.dst = .none)
    (hflags : o.flags = 0) (hctr : o.ctr ≠ .acc) :
    retireHead s.g.id o.ctr s = wake s.g.id.t { s with g := { s.g with
      lane := [], retired := ((o.ctr, o.seq) :: s.g.retired).filter fun x => x.1 ≠ .acc && noted s ⟨s.g.id, x.2⟩ } } := by
  have hop : laneOp? s s.g.id o.seq = some o := by
    have hq := laneOp?_queued (o := o) hf.1
    rwa [queued_self hl] at hq
  have hacc : ∀ i, performAcc s.g.id o.seq i s = s := by
    intro i
    simp only [performAcc, hop, hd, Bool.true_or, if_true]
    split <;> rfl
  have hfold : ∀ is : List Nat, is.foldl (fun u i => performAcc s.g.id o.seq i u) s = s := by
    intro is
    induction is with
    | nil => rfl
    | cons i is ih => rw [List.foldl_cons, hacc, ih]
  have hperf : performOne s.g.id o s = queued o s := by
    simp only [performOne, hfold, performEnd, hop, hd, Bool.not_true, Bool.and_false, Bool.false_and, if_true, Bool.false_eq_true, if_false]
    exact (queued_self hl).symm
  rw [retireHead_sole hf.1 hl hf.1 rfl hperf rfl hd]
  have hdel : raise o.flags (deliver o s.g) = s.g := by
    rw [hflags, raise_zero, deliver, hdst]
  simp only [soleRetired, hdel, hk, LaneKind.reads, hctr, decide_false, Bool.false_and, Bool.false_eq_true, if_false]

end Ops

/-- Settles O44: an op alone in its queue retires with what an invariant of its accesses says they have found. -/
theorem laneRetirement : Obligations.LaneRetirement := by
  unfold Obligations.LaneRetirement
  intro s o sgn aop h a k fresh alone place bufd got found ended kept published stored storeEnds rmw rmwEnds atom sig buffer buffered
  have start : alone → Alone s o := fun ⟨⟨hf, hc, hl, hres, hfl⟩, hd, hb, hp, ht⟩ => ⟨hf, hc, hl, hd, hb, hp, hres, hfl, ht⟩
  have spelled : ∀ {rels old : List RelTag} {apart : Prop}, Publishes s o o.accs old rels apart → published rels old apart := by
    intro rels old apart hp
    simp only [published]
    split
    · next hrel => exact hp.1 hrel
    · next sc hrel =>
      obtain ⟨hmem, hall⟩ := hp.2 sc hrel
      refine ⟨hmem, fun hap a ha => ?_⟩
      obtain ⟨r, hr, hrel⟩ := hall hap a ha
      exact ⟨r, hr, hrel.bytes, hrel.ended, hrel.scope, hrel.by_, hrel.op, hrel.core, hrel.know⟩
  have keeps : ∀ {rels : List RelTag}, Alone s o →
      Publishes s o o.accs (keptBy s o.seq o.accs) rels (o.accs.Pairwise fun a b => accMeet a b = false) →
      published rels kept ((o.accs.Pairwise fun a b => accMeet a b = false) ∧ ∀ a ∈ o.accs, 0 < a.w) := by
    intro rels hal hp
    have hkept : keptBy s o.seq o.accs = kept := by rw [show kept = _ from congrArg State.rels (foldl_endRels hal.focus o.seq o.accs)]
    exact spelled (hkept ▸ hp.mono And.left)
  refine ⟨?load, ?aload, ?store, ?asave, ?other, ?atom, ?ared, ?sigadd, ?bufStore, ?bufAtom, ?empty, ?deferred⟩
  case load =>
    intro hal hc hk
    have hret := (start hal).retires_load hk
    rw [hc] at hret
    exact congrArg Host.Outcome.next hret
  case aload =>
    intro hal hc hk
    have hret := (start hal).retires_load hk
    rw [hc] at hret
    exact congrArg (fun u => Host.Outcome.next (updGroup k accWake u)) hret
  case store =>
    intro hal ⟨hhome, hw⟩ hc hk
    obtain ⟨rs, rels, hret, hpub⟩ := (start hal).retires_store hw hhome hk
    rw [hc] at hret
    exact ⟨rs, rels, congrArg Host.Outcome.next hret, keeps (start hal) hpub⟩
  case asave =>
    intro hal ⟨hhome, hw⟩ hc hk
    obtain ⟨rs, rels, hret, hpub⟩ := (start hal).retires_store hw hhome hk
    rw [hc] at hret
    exact ⟨rs, rels, congrArg (fun u => Host.Outcome.next (updGroup k accWake u)) hret, keeps (start hal) hpub⟩
  case other => exact fun addr hn => memGet_storedBy_other hn _
  case atom =>
    intro hal ⟨hhome, hw⟩ hc hk
    obtain ⟨tags, rs, rels, hret, hfound, hsame, hpub⟩ := (start hal).retires_rmw hw hhome (by simp [hk, LaneKind.writes])
      (new := fun a x => atomNew aop sgn a.w x a.data.toNat a.exp.toNat) (gives := true) (raises := true)
      (fun a u => by simp only [performOn, hk]; rfl)
    rw [hc] at hret
    exact ⟨tags, rs, rels, congrArg Host.Outcome.next hret, hfound, hsame, spelled hpub⟩
  case ared =>
    intro hal ⟨hhome, hw⟩ hc hk
    obtain ⟨tags, rs, rels, hret, hfound, hsame, hpub⟩ := (start hal).retires_rmw hw hhome (by simp [hk, LaneKind.writes])
      (new := fun a x => atomNew aop sgn a.w x a.data.toNat a.exp.toNat) (gives := false) (raises := false)
      (fun a u => by simp only [performOn, hk]; rfl)
    rw [hc] at hret
    exact ⟨tags, rs, rels, congrArg Host.Outcome.next hret, hfound, hsame, spelled hpub⟩
  case sigadd =>
    intro hal ⟨hhome, hw⟩ hc hk
    obtain ⟨tags, rs, rels, hret, hfound, hsame, hpub⟩ := (start hal).retires_rmw hw hhome (by simp [hk, LaneKind.writes])
      (new := fun a x => ((signalNew (BitVec.ofNat 64 x) (a.data.setWidth 64)).1.toNat,
        flagIf (signalNew (BitVec.ofNat 64 x) (a.data.setWidth 64)).2 flagSAT)) (gives := false) (raises := true)
      (fun a u => by simp only [performOn, hk]; rfl)
    rw [hc] at hret
    exact ⟨tags, rs, rels, congrArg Host.Outcome.next hret, hfound, hsame, spelled hpub⟩
  case bufStore =>
    intro hal ⟨hhome, hrep⟩ hc hk
    obtain ⟨rs, rels, hret⟩ := (start hal).retires_bufferedStore hrep hhome hk
    rw [hc] at hret
    exact ⟨rs, rels, congrArg Host.Outcome.next hret⟩
  case bufAtom =>
    intro hal ⟨hhome, hrep⟩ hc hk hacc
    obtain ⟨rs, rels, hret⟩ := (start hal).retires_bufferedAtom hrep hacc (hhome a (by simp [hacc])) hk
    rw [hc] at hret
    exact ⟨rs, rels, congrArg Host.Outcome.next hret⟩
  case empty =>
    rintro ⟨hf, -, hl, -, hflags⟩ hd hk hdst
    refine ⟨fun hc => ?_, fun hc => ?_⟩
    · have hret := retires_empty hf hl hd hk hdst hflags (by simp [hc])
      rw [hc] at hret ⊢
      exact congrArg Host.Outcome.next hret
    · have hret := retires_empty hf hl hd hk hdst hflags (by simp [hc])
      rw [hc] at hret ⊢
      exact congrArg Host.Outcome.next hret
  case deferred =>
    intro hf hw
    refine congrArg Host.Outcome.next ((updGroup_focus hf.1).trans ?_)
    rw [if_pos hw]

end Sys2Proof.Machine
end

