-- ==== Sys2Proof/Proofs/HostPath.lean ====
section
/-!
SUPPORT. The host path (O59): what a write, a read and an atomic of a running partition's secure domain do, clause by clause, and why the statement
needs the canonical form of memory.
-/
namespace Sys2Proof.Machine

/-! ### Which accesses are performed (R330, R348) -/

section Access
variable {s : State} {n k : Nat} {w : Want} {va : W64} {act : State → State}

/-- A running partition in focus with a secure domain of its own. -/
def Serves (n : Nat) (s : State) : Prop := runsHere n s ∧ s.p.secDomain ≠ none

theorem hostAccess_serves (h : Serves n s) :
    hostAccess (some n) w va k act s = (virtBad s w va k).elim (act s) fun r => refuse (virtReason s w r.1 r.2) s := by
  obtain ⟨⟨hp, hrun⟩, hdom⟩ := h
  have hopen : (s.p.live && s.p.num = n && s.p.secDomain.isSome && s.p.tdisp = .run) = true := by
    simp [hp.1, hp.2, hrun, Option.isSome_iff_ne_none.2 hdom]
  simp only [hostAccess, focusPart_here hp, hopen, if_true]
  cases virtBad s w va k <;> rfl

/-- An access that translates is performed. -/
theorem hostAccess_translates (h : Serves n s) (ht : virtBad s w va k = none) : hostAccess (some n) w va k act s = act s := by
  rw [hostAccess_serves h, ht, Option.elim_none]

/-- An access that does not is answered with the REASON of its lowest page that fails, and nothing of it is performed. -/
theorem hostAccess_untranslated (h : Serves n s) {r : W64 × Nat} (ht : virtBad s w va k = some r) :
    hostAccess (some n) w va k act s = reply (.nack (virtReason s w r.1 r.2)) s := by
  rw [hostAccess_serves h, ht, Option.elim_some, refuse]

/-- A partition without a domain, or in another state, serves no access. -/
theorem hostAccess_closed (h : partHere n s) (hc : s.p.secDomain = none ∨ s.p.tdisp ≠ .run) :
    hostAccess (some n) w va k act s = reply (.nack none) s := by
  have hclosed : (s.p.live && s.p.num = n && s.p.secDomain.isSome && s.p.tdisp = .run) = false := by
    rcases hc with hc | hc <;> simp [hc]
  simp only [hostAccess, focusPart_here h, hclosed, refuse]
  rfl

/-- An unprotected access is refused. -/
theorem hostAccess_unprotected : hostAccess none w va k act s = reply (.nack none) s := rfl

end Access

/-! ### Runs of bytes -/

/-- The pages of a run hold all its bytes. -/
theorem sum_pageRuns (va : W64) (n : Nat) : ((pageRuns va n).map Prod.snd).sum = n := by
  have hoff : va.toNat % 4096 < 4096 := Nat.mod_lt _ (by decide)
  have upto : ∀ k, ((List.range k).map fun i => if i = 0 then min n (4096 - va.toNat % 4096)
      else min 4096 (va.toNat % 4096 + n - 4096 * i)).sum = min n (4096 * k - va.toNat % 4096) := by
    intro k
    induction k with
    | zero => simp
    | succ k ih =>
      rw [List.range_succ, List.map_append, List.sum_append, ih, List.map_singleton, List.sum_singleton]
      split <;> omega
  have hsnd : (pageRuns va n).map Prod.snd = (List.range ((va.toNat % 4096 + n + 4095) / 4096)).map fun i =>
      if i = 0 then min n (4096 - va.toNat % 4096) else min 4096 (va.toNat % 4096 + n - 4096 * i) := by
    simp only [pageRuns, List.map_map]
    exact List.map_congr_left fun i _ => by simp only [Function.comp_apply]; split <;> rfl
  rw [hsnd, upto]
  omega

theorem sum_virtRuns (s : State) (w : Want) (va : W64) (n : Nat) : ((virtRuns s w va n).map fun r => r.2.2).sum = n := by
  rw [virtRuns, List.map_map]
  exact sum_pageRuns va n

/-- Bytes that cross no page are one run. -/
theorem virtRuns_within {s : State} {w : Want} {va : W64} {pa : Nat} (hva : va.toNat % 4096 ≤ 4088) (hpa : virtByte s w va 8 = some pa) :
    virtBad s w va 8 = none ∧ virtRuns s w va 8 = [(va, pa, 8)] := by
  have hone : (va.toNat % 4096 + 8 + 4095) / 4096 = 1 := by omega
  have hruns : pageRuns va 8 = [(va, 8)] := by simp [pageRuns, hone]; omega
  simp [virtBad, virtRuns, hruns, hpa]

theorem runLocs_single (va : W64) (pa n : Nat) : runLocs [(va, pa, n)] = locsFrom ⟨.phys, pa⟩ n := by simp [runLocs]

theorem memGet_runLocs (m : Mem) (rs : List (W64 × Nat × Nat)) :
    (runLocs rs).map (fun a => memGet m a.addr) = rs.flatMap fun r => memBytes m r.2.1 r.2.2 := by
  simp only [runLocs, List.map_flatMap, locsFrom, memBytes, List.map_map]
  rfl

theorem home_of_mem_runLocs {rs : List (W64 × Nat × Nat)} {a : Loc} (h : a ∈ runLocs rs) : a.home = .phys := by
  obtain ⟨r, -, h⟩ := List.mem_flatMap.1 h
  obtain ⟨i, -, rfl⟩ := List.mem_map.1 h
  rfl

theorem length_locsFrom (a : Loc) (n : Nat) : (locsFrom a n).length = n := by simp [locsFrom]

theorem locsFrom_succ (a : Loc) (n : Nat) : locsFrom a (n + 1) = a :: locsFrom { a with addr := a.addr + 1 } n := by
  simp only [locsFrom, List.range_succ_eq_map, List.map_cons, List.map_map, Nat.add_zero]
  exact congrArg _ (List.map_congr_left fun i _ => by simp [Nat.add_comm, Nat.add_left_comm])

/-- Runs that hold just as many bytes as the data. -/
def Fits (rs : List (W64 × Nat × Nat)) (bs : List Byte) : Prop := (rs.map fun r => r.2.2).sum = bs.length

section Fits
variable {r : W64 × Nat × Nat} {rs : List (W64 × Nat × Nat)} {bs : List Byte} (h : Fits (r :: rs) bs)
include h

theorem Fits.length_take : (bs.take r.2.2).length = r.2.2 := by
  simp only [Fits, List.map_cons, List.sum_cons] at h
  rw [List.length_take]
  omega

theorem Fits.tail : Fits rs (bs.drop r.2.2) := by
  simp only [Fits, List.map_cons, List.sum_cons] at h
  rw [Fits, List.length_drop]
  omega

/-- The first run takes the first bytes of the data, the others the rest. -/
theorem Fits.zip_cons : (runLocs (r :: rs)).zip bs =
    (locsFrom ⟨.phys, r.2.1⟩ (bs.take r.2.2).length).zip (bs.take r.2.2) ++ (runLocs rs).zip (bs.drop r.2.2) := by
  rw [← List.zip_append (length_locsFrom _ _), h.length_take, List.take_append_drop]
  rfl

end Fits

theorem fits_virtRuns (s : State) (w : Want) (va : W64) (bs : List Byte) : Fits (virtRuns s w va bs.length) bs := sum_virtRuns s w va _

/-! ### A write among writes on other paths (R120) -/

/-- A state in which a party has put some of the given bytes: memory keeps its canonical form, each byte of it is as before or one of these, and
beside it only records, release tags and the free-value counter have changed. -/
def HasPut (xs : List (Loc × Byte)) (s u : State) : Prop :=
  ∃ m rs ts i, u = { s with hbm := m, recs := rs, rels := ts, tick := i } ∧ memWf m = true ∧
    ∀ a, memGet m a = memGet s.hbm a ∨ ∃ y ∈ xs, y.1.addr = a ∧ memGet m a = y.2

section HasPut
variable {xs : List (Loc × Byte)} {s u : State} {op : OpId} {p : Path} {know : List Crossing}

theorem HasPut.refl (hm : memWf s.hbm = true) : HasPut xs s s := ⟨s.hbm, s.recs, s.rels, s.tick, rfl, hm, fun _ => .inl rfl⟩

theorem HasPut.aside (h : HasPut xs s u) (rs : List WriteRec) (ts : List RelTag) (i : Nat) :
    HasPut xs s { u with recs := rs, rels := ts, tick := i } := by
  obtain ⟨m, _, _, _, rfl, hm, hb⟩ := h
  exact ⟨m, rs, ts, i, rfl, hm, hb⟩

theorem HasPut.put (h : HasPut xs s u) {y : Loc × Byte} (hy : y ∈ xs) : HasPut xs s { u with hbm := memPut u.hbm y.1.addr y.2 } := by
  obtain ⟨m, rs, ts, i, rfl, hm, hb⟩ := h
  refine ⟨memPut m y.1.addr y.2, rs, ts, i, rfl, memWf_put hm _ _, fun a => ?_⟩
  rw [memGet_put hm]
  split
  · next ha => exact .inr ⟨y, hy, ha.symm, rfl⟩
  · exact hb a

theorem HasPut.endRelsOf (h : HasPut xs s u) (as : List (Loc × List OpId)) : HasPut xs s (endRelsOf op as u) := by
  unfold Machine.endRelsOf
  split
  · exact h
  · exact h.aside u.recs _ u.tick

variable (hl : launch? s op.k.t.l = none) (hx : ∀ y ∈ xs, y.1.home = .phys)
include hl

theorem HasPut.no_launch (h : HasPut xs s u) : launch? u op.k.t.l = none := by
  obtain ⟨m, rs, ts, i, rfl, -⟩ := h
  exact hl

theorem HasPut.hideByte (h : HasPut xs s u) (a : Loc) (va : W64) : HasPut xs s (hideByte op.k p a va u) := by
  have hrep : replays u op.k.t.l = false := by simp [replays, h.no_launch hl]
  simpa [Machine.hideByte, hrep] using h

include hx

theorem HasPut.writeByte (h : HasPut xs s u) {y : Loc × Byte} (hy : y ∈ xs) (va : W64) : HasPut xs s (writeByte op.k p y.1 va y.2 u) := by
  have hw : Machine.writeByte op.k p y.1 va y.2 u = { u with hbm := memPut u.hbm y.1.addr y.2 } := by
    simp [Machine.writeByte, h.no_launch hl, hx y hy, updHome]
  rw [hw]
  exact h.put hy

theorem HasPut.writeBytesFrom {va : W64} {bs : List Byte} : ∀ {n : Nat} {a : Loc} {u : State}, HasPut xs s u →
    (∀ y ∈ (locsFrom a bs.length).zip bs, y ∈ xs) → HasPut xs s (writeBytesFrom op p va n a bs u) := by
  induction bs with
  | nil => exact fun h _ => h
  | cons b bs ih =>
    intro n a u h hs
    rw [List.length_cons, locsFrom_succ, List.zip_cons_cons, List.forall_mem_cons] at hs
    exact ih (h.writeByte hl hx hs.1 _) hs.2

/-- A contiguous access behind no other write. -/
theorem HasPut.putAt_nil (h : HasPut xs s u) {va : W64} {a : Loc} {bs : List Byte} (hs : ∀ y ∈ (locsFrom a bs.length).zip bs, y ∈ xs) :
    HasPut xs s (putAt op p false [] a va bs u) := by
  rw [Machine.putAt_nil, addRec_eq]
  exact (h.aside _ u.rels u.tick).writeBytesFrom hl hx hs

/-- One byte where it stands before other writes: it is put, or a newer write hides it. -/
theorem HasPut.putAt_one (h : HasPut xs s u) {y : Loc × Byte} (hy : y ∈ xs) (va : W64) (ps : List WriteRec) :
    HasPut xs s (putAt op p false ps y.1 va [y.2] u) := by
  have hone : locsFrom y.1 1 = [y.1] := by simp [locsFrom]
  unfold Machine.putAt
  simp only [List.length_singleton, hone]
  split
  · rw [addRec_eq]
    exact (h.aside _ u.rels u.tick).writeByte hl hx hy _
  · have hrec := fun rs => h.aside rs u.rels u.tick
    simp only [List.range_one, List.map_singleton, List.zip_cons_cons, List.zip_nil_left, writeHidden]
    split
    · exact (hrec _).hideByte hl _ _
    · exact (hrec _).writeByte hl hx hy _

theorem HasPut.putEach {va : W64} (zs : List ((Loc × List WriteRec) × Byte)) : ∀ {n : Nat} {u : State}, HasPut xs s u →
    (∀ z ∈ zs, (z.1.1, z.2) ∈ xs) → HasPut xs s (putEach op p va n zs u) := by
  induction zs with
  | nil => exact fun h _ => h
  | cons z zs ih =>
    intro n u h hs
    rw [List.forall_mem_cons] at hs
    exact ih (h.putAt_one hl hx hs.1 _ _) hs.2

theorem HasPut.writeKnown (h : HasPut xs s u) {va : W64} {a : Loc} {bs : List Byte} (hs : ∀ y ∈ (locsFrom a bs.length).zip bs, y ∈ xs) :
    HasPut xs s (writeKnown know op p a va bs u) := by
  unfold Machine.writeKnown
  have hpass : HasPut xs s (passEach know op p (locsFrom a bs.length) u).2 := by
    rw [passEach_eq]
    exact h.aside u.recs u.rels _
  unfold putPlain
  dsimp only
  split
  · exact (hpass.endRelsOf _).putAt_nil hl hx hs
  · refine (hpass.endRelsOf _).putEach hl hx _ fun z hz => hs _ ?_
    obtain ⟨i, hi⟩ := List.mem_iff_getElem?.1 hz
    obtain ⟨hloc, hbyte⟩ := List.getElem?_zip_eq_some.1 hi
    exact List.mem_iff_getElem?.2 ⟨i, List.getElem?_zip_eq_some.2 ⟨(List.getElem?_zip_eq_some.1 hloc).1, hbyte⟩⟩

theorem HasPut.runsWrite (rs : List (W64 × Nat × Nat)) : ∀ {bs : List Byte} {u : State}, HasPut xs s u → Fits rs bs →
    (∀ y ∈ (runLocs rs).zip bs, y ∈ xs) → HasPut xs s (runsWrite know op p rs bs u) := by
  induction rs with
  | nil => exact fun h _ _ => h
  | cons r rs ih =>
    intro bs u h hfit hs
    rw [hfit.zip_cons, List.forall_mem_append] at hs
    exact ih (h.writeKnown hl hx hs.1) hfit.tail hs.2

end HasPut

/-! ### A write where only the host's own writes are recorded -/

/-- A record of old bytes is on its path, as those are that stand. -/
theorem addRec_path {s : State} {op : OpId} {p : Path} {rmw : Bool} {old : List (Loc × Byte)} (h : ∀ r ∈ s.recs, r.path = p) :
    ∀ r ∈ (addRec op p rmw old s).recs, r.path = p := by
  unfold addRec
  split
  · next x xs hx =>
    rw [hx] at h
    obtain ⟨hx1, hxs⟩ := List.forall_mem_cons.1 h
    split
    · exact List.forall_mem_cons.2 ⟨hx1, hxs⟩
    · exact List.forall_mem_cons.2 ⟨rfl, hx ▸ h⟩
  · exact List.forall_mem_singleton.2 rfl

section Newest
variable {s : State} {op : OpId} (hl : launch? s op.k.t.l = none)
include hl

theorem endRels_no_launch (a : Loc) (n : Nat) : endRels op a n s = { s with rels := s.rels.map (endTag false op a n) } := by
  rw [endRels_rels, replays, hl]
  rfl

/-- The release tags after plain writes of runs. -/
def endedBy (op : OpId) (rs : List (W64 × Nat × Nat)) (ts : List RelTag) : List RelTag :=
  rs.foldl (fun ts r => ts.map (endTag false op ⟨.phys, r.2.1⟩ r.2.2)) ts

theorem foldl_endRels_no_launch (rs : List (W64 × Nat × Nat)) :
    rs.foldl (fun u r => endRels op ⟨.phys, r.2.1⟩ r.2.2 u) s = { s with rels := endedBy op rs s.rels } := by
  induction rs generalizing s with
  | nil => rfl
  | cons r rs ih =>
    rw [List.foldl_cons, endRels_no_launch hl]
    exact ih (s := { s with rels := _ }) hl

/-- A plain write of physical bytes where only writes of its own path are recorded. -/
theorem writeKnown_newest {know : List Crossing} {p : Path} (hr : ∀ r ∈ s.recs, r.path = p) (a : Nat) (va : W64) (bs : List Byte) :
    ∃ recs, (∀ r ∈ recs, r.path = p) ∧ writeKnown know op p ⟨.phys, a⟩ va bs s = { s with
      hbm := memPutBytes s.hbm a bs, recs := recs, rels := s.rels.map (endTag false op ⟨.phys, a⟩ bs.length) } := by
  rw [writeKnown_same hr, endRels_no_launch hl, putAt_nil, addRec_eq, writeBytesFrom_phys (by exact hl)]
  exact ⟨_, addRec_path (by exact hr), rfl⟩

/-- Runs written where only writes of their own path are recorded: their bytes stand in memory and end their release sequences. -/
theorem runsWrite_newest {know : List Crossing} {p : Path} (rs : List (W64 × Nat × Nat)) {bs : List Byte} (hr : ∀ r ∈ s.recs, r.path = p)
    (hfit : Fits rs bs) :
    ∃ recs, runsWrite know op p rs bs s = { s with hbm := putRuns rs bs s.hbm, recs := recs, rels := endedBy op rs s.rels } := by
  induction rs generalizing s bs with
  | nil => exact ⟨s.recs, rfl⟩
  | cons r rs ih =>
    obtain ⟨recs, hrecs, hw⟩ := writeKnown_newest hl (know := know) hr r.2.1 r.1 (bs.take r.2.2)
    obtain ⟨recs', hw'⟩ := ih (s := { s with hbm := _, recs := recs, rels := _ }) hl hrecs hfit.tail
    rw [hfit.length_take] at hw
    rw [runsWrite, hw, hw']
    exact ⟨recs', rfl⟩

end Newest

/-! ### The operations of the host path (R122, R348) -/

section Ops
variable {s : State} {n : Nat} {va : W64} {data : List Byte}

theorem execRmaWrite_translates (h : Serves n s) (ht : virtBad s ⟨false, true, false⟩ va data.length = none) :
    exec (.rmaWrite (some n) va data) s = .next (reply .ack (hostWrite (virtRuns s ⟨false, true, false⟩ va data.length) data s)) :=
  congrArg Host.Outcome.next (hostAccess_translates h ht)

/-- A host write where only the host's own writes are recorded stands in memory. -/
theorem execRmaWrite_newest (h : Serves n s) (hl : launch? s (agentGid n 1).t.l = none) (hr : ∀ r ∈ s.recs, r.path = .host)
    (ht : virtBad s ⟨false, true, false⟩ va data.length = none) :
    ∃ recs, exec (.rmaWrite (some n) va data) s = .next (reply .ack { s with
      hbm := putRuns (virtRuns s ⟨false, true, false⟩ va data.length) data s.hbm
      p := { s.p with seqn := s.p.seqn + 1 }
      recs := recs
      rels := ((virtRuns s ⟨false, true, false⟩ va data.length).foldl
        (fun u r => endRels ⟨agentGid n 1, s.p.seqn⟩ ⟨.phys, r.2.1⟩ r.2.2 u) s).rels }) := by
  obtain rfl : s.p.num = n := h.1.1.2
  obtain ⟨recs, hw⟩ := runsWrite_newest (s := (agentOp 1 s).2) (op := (agentOp 1 s).1) (know := agentOrder s.p.hostKnow) hl _ hr
    (fits_virtRuns s ⟨false, true, false⟩ va data)
  refine ⟨recs, (execRmaWrite_translates h ht).trans ?_⟩
  rw [foldl_endRels_no_launch hl]
  exact congrArg (fun u => Host.Outcome.next (reply .ack u)) hw

/-- A host write among writes on other paths, in a memory of canonical form: each byte of memory is as before or is written. -/
theorem execRmaWrite_puts (hm : memWf s.hbm = true) (h : Serves n s) (hl : launch? s (agentGid n 1).t.l = none)
    (ht : virtBad s ⟨false, true, false⟩ va data.length = none) :
    ∃ m rs ts i, exec (.rmaWrite (some n) va data) s = .next (reply .ack { s with
        hbm := m, p := { s.p with seqn := s.p.seqn + 1 }, recs := rs, rels := ts, tick := i }) ∧
      ∀ a, memGet m a = memGet s.hbm a ∨
        ∃ y ∈ (runLocs (virtRuns s ⟨false, true, false⟩ va data.length)).zip data, y.1.addr = a ∧ memGet m a = y.2 := by
  obtain rfl : s.p.num = n := h.1.1.2
  have hput : HasPut ((runLocs (virtRuns s ⟨false, true, false⟩ va data.length)).zip data) (agentOp 1 s).2
      (hostWrite (virtRuns s ⟨false, true, false⟩ va data.length) data s) :=
    HasPut.runsWrite (s := (agentOp 1 s).2) (op := (agentOp 1 s).1) (know := agentOrder s.p.hostKnow) (p := .host) hl
      (fun y hy => home_of_mem_runLocs (List.of_mem_zip hy).1) _ (.refl hm) (fits_virtRuns s _ va data) fun _ hy => hy
  obtain ⟨m, rs, ts, i, hu, -, hb⟩ := hput
  exact ⟨m, rs, ts, i, (execRmaWrite_translates h ht).trans (by rw [hu]; rfl), hb⟩

/-- What the host knows once it has found bytes that no other write may hide. -/
def hostFound (s : State) (as : List Loc) : List Crossing := (agentKnow s true (plainly as) ++ s.p.hostKnow).eraseDups

/-- A read-modify-write of eight physical bytes where no write is recorded. -/
theorem runsRmw_one {op : OpId} (hl : launch? s op.k.t.l = none) (hr : s.recs = []) (p : Path) (pa x : Nat) :
    runsRmw op p [] [(va, pa, 8)] (leBytes 8 x) s = { s with
      hbm := memPutNat s.hbm pa 8 x
      recs := [⟨op, p, true, (locsFrom ⟨.phys, pa⟩ 8).map fun a => (a, viewByte s op.k a)⟩] } := by
  have htake : (leBytes 8 x).take 8 = leBytes 8 x := List.take_of_length_le (leBytes_length 8 x).le
  have hrec : ∀ old, addRec op p true old s = { s with recs := [⟨op, p, true, old⟩] } := by simp [addRec, hr]
  simp only [runsRmw, htake, putAt_nil, hrec, leBytes_length]
  exact writeBytesFrom_phys (by exact hl) _ _ _

/-- The host's one recorded write. -/
theorem hostOps_single {r : WriteRec} (hr : s.recs = [r]) (hk : r.op.k = agentGid s.p.num 1) : hostOps s = [r.op] := by
  simp only [hostOps, hr, List.filter_cons, hk, decide_true, if_true, List.filter_nil, List.map_singleton]
  rfl

theorem hostLearn_plain {as : List Loc} {f : Loc → Seen} (hp : ∀ a, (f a).passed = []) (ht : ∀ a, (f a).took = none) :
    hostLearn as (as.map f) s = { s with p := { s.p with hostKnow := hostFound s as } } := by
  have hzip : as.zip (as.map f) = as.map fun a => (a, f a) := List.map_prod_left_eq_zip.symm
  have htook : seenReads s.p.hostKnow (as.zip (as.map f)) = [] := by
    rw [hzip, seenReads, List.foldl_map]
    simp [ht]
  have hpassed : (as.map f).map Seen.passed = as.map fun _ => [] := by
    rw [List.map_map]
    exact List.map_congr_left fun a _ => hp a
  rw [hostLearn, htook, hpassed, zip_map_nil]
  simp [hostFound]

/-- A host read in calm memory delivers its bytes. -/
theorem execRmaRead_calm (h : Serves n s) (hc : calm s) {len : Nat} {bs : List Byte} (hb : virtRead s va len = some bs) :
    exec (.rmaRead (some n) va len) s = .next (reply (.data bs) { s with
      p := { s.p with hostKnow := hostFound s (runLocs (virtRuns s ⟨true, false, false⟩ va len)) } }) := by
  obtain ⟨ht, rfl⟩ : virtBad s ⟨true, false, false⟩ va len = none ∧
      (runLocs (virtRuns s ⟨true, false, false⟩ va len)).map (fun a => memGet s.hbm a.addr) = bs := by
    rw [memGet_runLocs]
    simpa [virtRead] using hb
  refine congrArg Host.Outcome.next ((hostAccess_translates h ht).trans ?_)
  have hbyte : ∀ a, agentByte s (some .host) s.p.hostKnow a = ⟨memGet s.hbm a.addr, s.tick + (a.addr + 1) * 2 ^ 20, [], none⟩ := by
    simp [agentByte, hc.1]
  simp only [poisoned_calm hc, eccRead_calm hc, hostRead]
  rw [hostLearn_plain (by simp [hbyte]) (by simp [hbyte])]
  simp [Function.comp_def, hbyte]

theorem execRmaRead_poisoned (h : Serves n s) {len : Nat} (ht : virtBad s ⟨true, false, false⟩ va len = none)
    (hp : poisoned s (runLocs (virtRuns s ⟨true, false, false⟩ va len)) = true) :
    exec (.rmaRead (some n) va len) s = .next (reply (.nack none) s) := by
  refine congrArg Host.Outcome.next ((hostAccess_translates h ht).trans ?_)
  simp only [hp, if_true]
  rfl

variable {pa : Nat} {new : W64 → W64} (hva : va.toNat % 4096 ≤ 4088) (hpa : virtByte s ⟨true, true, false⟩ va 8 = some pa)
include hva hpa

theorem hostAtomic_poisoned (h : Serves n s) (hp : poisoned s (locsFrom ⟨.phys, pa⟩ 8) = true) :
    hostAtomic (some n) va new s = reply (.nack none) s := by
  obtain ⟨ht, hruns⟩ := virtRuns_within hva hpa
  refine (hostAccess_translates h ht).trans ?_
  simp only [hruns, runLocs_single, hp, if_true]
  rfl

/-- A remote atomic in calm memory returns the old value and releases at .sys all the host has written and acquired. -/
theorem hostAtomic_calm (h : Serves n s) (hc : calm s) (hl : launch? s (agentGid n 1).t.l = none) :
    let old := BitVec.ofNat 64 (memNat s.hbm pa 8)
    let word := locsFrom ⟨.phys, pa⟩ 8
    let op : OpId := ⟨agentGid n 1, s.p.seqn⟩
    ∃ recs, hostAtomic (some n) va new s = reply (.data (leBytes 8 old.toNat)) { s with
      hbm := memPutNat s.hbm pa 8 (new old).toNat
      p := { s.p with seqn := s.p.seqn + 1, hostKnow := hostFound s word }
      recs := recs
      rels := ⟨word, [], .sys, none, op, 0, hostFound s word, [op], s.tick⟩ :: s.rels } := by
  obtain rfl : s.p.num = n := h.1.1.2
  obtain ⟨ht, hruns⟩ := virtRuns_within hva hpa
  have hrecs : ∀ r ∈ s.recs, r.path = .host := by simp [hc.1]
  intro old word op
  refine ⟨[⟨op, .host, true, word.map fun x => (x, viewByte s op.k x)⟩], (hostAccess_translates h ht).trans ?_⟩
  have hlearn : hostLearn word (word.zipWith (fun a b => ⟨b, 0, (passedOps [] a).2, none⟩) (word.map fun a => viewByte s op.k a)) s =
      { s with p := { s.p with hostKnow := hostFound s word } } := by
    rw [List.zipWith_map_right, List.zipWith_self]
    exact hostLearn_plain (fun _ => rfl) fun _ => rfl
  have hold : BitVec.ofNat 64 (leNat (word.map fun a => viewByte s op.k a)) = old :=
    congrArg (fun bs => BitVec.ofNat 64 (leNat bs)) (viewByte_phys (op := op) hl pa 8)
  simp only [hruns, runLocs_single, poisoned_calm hc, eccRead_calm hc, rmwAt_same hrecs]
  rw [hold, hlearn]
  simp only [agentOp]
  rw [runsRmw_one (by exact hl) (by exact hc.1)]
  rw [hostOps_single rfl rfl, passedPlain_nil]
  rfl

end Ops

/-! ### A memory in no canonical form -/

/-- A running partition with a secure domain, in a memory that lists one address twice. -/
def twiceListed : State :=
  let s := bootState State.reset
  { s with p := { s.p with secDomain := some 2 }, hbm := (0x20000, 1) :: (0x20000, 2) :: s.hbm }

theorem serves_twiceListed : Serves 0 twiceListed := by
  unfold Serves runsHere partHere
  decide +kernel

/-- A zero that the host writes there takes the first cell away and uncovers the second. -/
theorem twiceListed_rmaWrite {u : State} (h : exec (.rmaWrite (some 0) 0x20000 [0]) twiceListed = .next u) : memGet u.hbm 0x20000 = 2 := by
  have hrun : (match exec (.rmaWrite (some 0) 0x20000 [0]) twiceListed with
    | .next t => memGet t.hbm 0x20000
    | _ => 0) = 2 := by decide +kernel
  rwa [h] at hrun

/-- Refutes O59: its second clause, that after a host write each byte of memory is as before or is written, is asked of every state, and a memory that
lists an address twice lets a written zero uncover a byte that is neither. A memory of canonical form, which every step keeps (O37), has the clause
(`execRmaWrite_puts`). -/
theorem not_hostAccess : ¬ Obligations.HostAccess := by
  unfold Obligations.HostAccess
  intro h
  obtain ⟨-, hwrite, -⟩ := h twiceListed 0 0x20000 0 0 [0] 0 0
  have alone : launch? twiceListed (agentGid 0 1).t.l = none := by decide +kernel
  have translates : virtBad twiceListed ⟨false, true, false⟩ 0x20000 1 = none := by decide +kernel
  obtain ⟨m, rs, ts, i, hexec, hbyte⟩ := hwrite serves_twiceListed alone translates
  have found : memGet m 0x20000 = 2 := twiceListed_rmaWrite hexec
  rcases hbyte 0x20000 with hkept | ⟨y, hy, -, hput⟩
  · have before : memGet twiceListed.hbm 0x20000 = 1 := rfl
    rw [found, before] at hkept
    exact absurd hkept (by decide)
  · have zero : y.2 = 0 := List.mem_singleton.1 (List.of_mem_zip hy).2
    rw [found, zero] at hput
    exact absurd hput (by decide)

end Sys2Proof.Machine
end

