-- ==== Sys2Proof/Proofs/Opcodes.lean ====
section
/-!
SUPPORT. The opcode map read both ways (R141 to R148): which opcode names which op, as a relation that the decoder's and
the encoder's tables agree with.
-/
namespace Sys2Proof

/-! ### Tables -/

theorem mem_of_opIn {t : List (Nat × Op)} {n : Nat} {o : Op} (h : opIn t n = some o) : (n, o) ∈ t := by
  obtain ⟨e, he, rfl⟩ := Option.map_eq_some_iff.1 h
  have hn : e.1 = n := by simpa using List.find?_some he
  exact hn ▸ List.mem_of_find?_eq_some he

theorem mem_of_opcodeIn {t : List (Nat × Op)} {n : Nat} {o : Op} (h : opcodeIn t o = some n) : (n, o) ∈ t := by
  obtain ⟨e, he, rfl⟩ := Option.map_eq_some_iff.1 h
  have ho : e.2 = o := by simpa using List.find?_some he
  exact ho ▸ List.mem_of_find?_eq_some he

theorem getElem?_of_rowIn {t : List Op} {k : Nat} {o : Op} (h : rowIn t o = some k) : t[k]? = some o := by
  obtain ⟨hk, he, -⟩ := List.findIdx?_eq_some_iff_getElem.1 h
  exact List.getElem?_eq_some_iff.2 ⟨hk, by simpa using he⟩

theorem lt_of_getElem?_eq {t : List Op} {k : Nat} {o : Op} (h : t[k]? = some o) : k < t.length := (List.getElem?_eq_some_iff.1 h).1

/-! ### The opcode map as a relation (R141 to R148) -/

/-- The op that an op's opcode names: RINGPUT.free has the opcode of RINGPUT (R230). -/
def tableOp (o : Op) : Op := if o = .ringputFree then .ringput else o

/-- The short opcodes, each with its op and its selector bits (R142 to R147). -/
inductive ShortCode : Nat → Op → Nat → Prop where
  | nop {j : Nat} (hj : j < 16) (hne : j ≠ 1) : ShortCode (0x1F0 + j) .nop j
  | yield : ShortCode 0x1F1 .yield 1
  | int {k j : Nat} {o : Op} (hk : intRows[k]? = some o) (hj : j < 8) : ShortCode (0x040 + 8 * k + j) o (8 + j)
  | float {k j : Nat} {o : Op} (hk : floatRows[k]? = some o) (hj : j < 5) : ShortCode (0x080 + 8 * k + j) o j
  | special {k j : Nat} {o : Op} (hk : specialRows[k]? = some o) (hj : j < 3) : ShortCode (0x080 + 8 * k + (5 + j)) o j
  | amac {j : Nat} (hj : j < 5 ∨ (8 ≤ j ∧ j < 16)) : ShortCode (0x130 + j) .amac j
  | vld {j : Nat} (hj : j < 20) : ShortCode (0x140 + j) .vld j
  | vst {j : Nat} (hj : j < 20) : ShortCode (0x160 + j) .vst j
  | table {n : Nat} {o : Op} (h : (n, o) ∈ shortTable) : ShortCode n o 0

/-- The long opcodes, each with its op and its selector bits (R141 to R147). -/
inductive LongCode : Nat → Op → Nat → Prop where
  | nop {j : Nat} (hj : j < 16) (hne : j ≠ 1) : LongCode (0x3F0 + j) .nop j
  | yield : LongCode 0x3F1 .yield 1
  | table {n : Nat} {o : Op} (h : (n, o) ∈ longTable) : LongCode n o 0

/-! ### The tables' rows, both ways -/

theorem shortOp_of_mem : ∀ e ∈ shortTable, shortOp e.1 = some (e.2, 0) := by decide +kernel
theorem longOp_of_mem : ∀ e ∈ longTable, longOp e.1 = some (e.2, 0) := by decide +kernel
theorem shortOpcode_of_mem : ∀ e ∈ shortTable, shortOpcode e.2 0 = some e.1 := by decide +kernel
theorem longOpcode_of_mem : ∀ e ∈ longTable, longOpcode e.2 0 = some e.1 := by decide +kernel
theorem shortTable_lt : ∀ e ∈ shortTable, e.1 < 512 := by decide +kernel
theorem longTable_lt : ∀ e ∈ longTable, e.1 < 1024 := by decide +kernel

/-! ### The short opcodes -/

theorem shortOpcode_int {k j : Nat} {o : Op} (hk : intRows[k]? = some o) (hj : j < 8) : shortOpcode o (8 + j) = some (0x040 + 8 * k + j) := by
  obtain ⟨hlt, rfl⟩ := List.getElem?_eq_some_iff.1 hk
  have row : shortOpcode intRows[k] (8 + j) = if 8 ≤ 8 + j ∧ 8 + j < 16 then some (0x040 + 8 * k + (8 + j - 8)) else none := by
    change k < 8 at hlt
    interval_cases k <;> rfl
  rw [row, if_pos (by omega), Nat.add_sub_cancel_left]

theorem shortOpcode_float {k j : Nat} {o : Op} (hk : floatRows[k]? = some o) (hj : j < 5) : shortOpcode o j = some (0x080 + 8 * k + j) := by
  obtain ⟨hlt, rfl⟩ := List.getElem?_eq_some_iff.1 hk
  have row : shortOpcode floatRows[k] j = if j < 5 then some (0x080 + 8 * k + j) else none := by
    change k < 8 at hlt
    interval_cases k <;> rfl
  rw [row, if_pos hj]

theorem shortOpcode_special {k j : Nat} {o : Op} (hk : specialRows[k]? = some o) (hj : j < 3) : shortOpcode o j = some (0x080 + 8 * k + (5 + j)) := by
  obtain ⟨hlt, rfl⟩ := List.getElem?_eq_some_iff.1 hk
  have row : shortOpcode specialRows[k] j = if j < 3 then some (0x080 + 8 * k + 5 + j) else none := by
    change k < 8 at hlt
    interval_cases k <;> rfl
  rw [row, if_pos hj, Nat.add_assoc _ 5 j]

/-- Each short opcode is the one of its op and selector bits. -/
theorem ShortCode.shortOpcode_eq {n sub : Nat} {o : Op} (h : ShortCode n o sub) : shortOpcode o sub = some n := by
  cases h with
  | nop hj hne => exact if_pos ⟨hj, hne⟩
  | yield => rfl
  | int hk hj => exact shortOpcode_int hk hj
  | float hk hj => exact shortOpcode_float hk hj
  | special hk hj => exact shortOpcode_special hk hj
  | amac hj => exact if_pos hj
  | vld hj => exact if_pos hj
  | vst hj => exact if_pos hj
  | table h => exact shortOpcode_of_mem _ h

/-- A short opcode fits 9 bits and its selector bits 5 (R131). -/
theorem ShortCode.lt {n sub : Nat} {o : Op} (h : ShortCode n o sub) : n < 512 ∧ sub < 32 := by
  cases h with
  | int hk hj | float hk hj | special hk hj =>
    have : _ < 8 := lt_of_getElem?_eq hk
    omega
  | table h => exact ⟨shortTable_lt _ h, by omega⟩
  | _ => omega

/-- RINGPUT.free has no opcode of its own (R230). -/
theorem ShortCode.ne_ringputFree {n sub : Nat} {o : Op} (h : ShortCode n o sub) : o ≠ .ringputFree := by
  cases h with
  | int hk hj => exact (by decide : ∀ o ∈ intRows, o ≠ .ringputFree) _ (List.mem_of_getElem? hk)
  | float hk hj => exact (by decide : ∀ o ∈ floatRows, o ≠ .ringputFree) _ (List.mem_of_getElem? hk)
  | special hk hj => exact (by decide : ∀ o ∈ specialRows, o ≠ .ringputFree) _ (List.mem_of_getElem? hk)
  | table h => exact (by decide +kernel : ∀ e ∈ shortTable, e.2 ≠ .ringputFree) _ h
  | _ => decide

/-- An op with a short opcode has it in the map. -/
theorem ShortCode.of_shortOpcode {n sub : Nat} {o : Op} (h : shortOpcode o sub = some n) (ho : o ≠ .ringputFree) : ShortCode n o sub := by
  unfold shortOpcode at h
  split at h
  case h_1 => obtain ⟨⟨hj, hne⟩, ⟨⟩⟩ := Option.ite_none_right_eq_some.1 h; exact .nop hj hne
  case h_2 => obtain ⟨rfl, ⟨⟩⟩ := Option.ite_none_right_eq_some.1 h; exact .yield
  case h_3 => obtain ⟨hj, ⟨⟩⟩ := Option.ite_none_right_eq_some.1 h; exact .amac hj
  case h_4 => obtain ⟨hj, ⟨⟩⟩ := Option.ite_none_right_eq_some.1 h; exact .vld hj
  case h_5 => obtain ⟨hj, ⟨⟩⟩ := Option.ite_none_right_eq_some.1 h; exact .vst hj
  case h_6 => exact absurd rfl ho
  case h_7 =>
    split at h
    case h_1 hrow =>
      obtain ⟨⟨h8, h16⟩, hn⟩ := Option.ite_none_right_eq_some.1 h
      obtain ⟨j, rfl⟩ := Nat.exists_eq_add_of_le h8
      rw [Nat.add_sub_cancel_left] at hn
      exact Option.some.inj hn ▸ .int (getElem?_of_rowIn hrow) (by omega)
    case h_2 hrow _ => obtain ⟨hj, ⟨⟩⟩ := Option.ite_none_right_eq_some.1 h; exact .float (getElem?_of_rowIn hrow) hj
    case h_3 hrow _ _ =>
      obtain ⟨hj, ⟨⟩⟩ := Option.ite_none_right_eq_some.1 h
      rw [Nat.add_assoc]
      exact .special (getElem?_of_rowIn hrow) hj
    case h_4 => obtain ⟨rfl, hn⟩ := Option.ite_none_right_eq_some.1 h; exact .table (mem_of_opcodeIn hn)

/-- Each short opcode names its op and selector bits. -/
theorem ShortCode.shortOp_eq {n sub : Nat} {o : Op} (h : ShortCode n o sub) : shortOp n = some (o, sub) := by
  cases h with
  | @nop j hj hne =>
    unfold shortOp
    rw [if_pos (by omega), if_neg (by omega)]
    congr 2; omega
  | yield => rfl
  | @int k j o hk hj =>
    have : k < 8 := lt_of_getElem?_eq hk
    unfold shortOp
    rw [if_neg (by omega), if_pos (by omega), show (0x040 + 8 * k + j - 0x040) / 8 = k by omega, hk]
    show some (o, _) = _
    congr 2; omega
  | @float k _ _ hk hj =>
    have : k < 8 := lt_of_getElem?_eq hk
    unfold shortOp
    rw [if_neg (by omega), if_neg (by omega), if_pos (by omega), if_pos (by omega), show (0x080 + 8 * k + sub - 0x080) / 8 = k by omega, hk]
    show some (o, _) = _
    congr 2; omega
  | @special k _ _ hk hj =>
    have : k < 8 := lt_of_getElem?_eq hk
    unfold shortOp
    rw [if_neg (by omega), if_neg (by omega), if_pos (by omega), if_neg (by omega), show (0x080 + 8 * k + (5 + sub) - 0x080) / 8 = k by omega, hk]
    show some (o, _) = _
    congr 2; omega
  | @amac j hj =>
    unfold shortOp
    rw [if_neg (by omega), if_neg (by omega), if_neg (by omega), if_pos (by omega), if_pos (by omega)]
    congr 2; omega
  | @vld j hj =>
    unfold shortOp
    rw [if_neg (by omega), if_neg (by omega), if_neg (by omega), if_neg (by omega), if_pos (by omega), Nat.add_sub_cancel_left]
  | @vst j hj =>
    unfold shortOp
    rw [if_neg (by omega), if_neg (by omega), if_neg (by omega), if_neg (by omega), if_neg (by omega), if_pos (by omega),
      Nat.add_sub_cancel_left]
  | table h => exact shortOp_of_mem _ h

/-- An opcode at or above the first one of some rows of eight stands in a row, at a place of it. -/
theorem exists_row (b n : Nat) (hb : b % 8 = 0) (hn : b ≤ n) : ∃ k j, j < 8 ∧ n = b + 8 * k + j :=
  ⟨(n - b) / 8, n % 8, by omega, by omega⟩

/-- A 9-bit opcode that names an op is in the map. -/
theorem ShortCode.of_shortOp {n sub : Nat} {o : Op} (h : shortOp n = some (o, sub)) (hn : n < 512) : ShortCode n o sub := by
  unfold shortOp at h
  split at h
  case isTrue hhint =>
    obtain ⟨j, rfl⟩ := Nat.exists_eq_add_of_le hhint
    split at h
    case isTrue hj => obtain ⟨⟩ := h; rw [hj]; exact .yield
    case isFalse hj =>
      rw [show (0x1F0 + j) % 16 = j by omega] at h
      obtain ⟨⟩ := h
      exact .nop (by omega) (by omega)
  split at h
  case isTrue hint =>
    obtain ⟨k, j, hj, rfl⟩ := exists_row 0x040 n rfl hint.1
    rw [show (0x040 + 8 * k + j - 0x040) / 8 = k by omega, show (0x040 + 8 * k + j) % 8 = j by omega] at h
    obtain ⟨o, hk, ⟨⟩⟩ := Option.map_eq_some_iff.1 h
    exact .int hk hj
  split at h
  case isTrue hflt =>
    obtain ⟨k, j, hj, rfl⟩ := exists_row 0x080 n rfl hflt.1
    rw [show (0x080 + 8 * k + j - 0x080) / 8 = k by omega, show (0x080 + 8 * k + j) % 8 = j by omega] at h
    split at h
    case isTrue h5 => obtain ⟨o, hk, ⟨⟩⟩ := Option.map_eq_some_iff.1 h; exact .float hk h5
    case isFalse h5 =>
      obtain ⟨i, rfl⟩ := Nat.exists_eq_add_of_le (Nat.not_lt.1 h5)
      have hi : i < 3 := by omega
      rw [Nat.add_sub_cancel_left] at h
      obtain ⟨o, hk, ⟨⟩⟩ := Option.map_eq_some_iff.1 h
      exact .special hk hi
  split at h
  case isTrue hamac =>
    obtain ⟨j, rfl⟩ := Nat.exists_eq_add_of_le hamac.1
    rw [show (0x130 + j) % 16 = j by omega] at h
    obtain ⟨hj, ⟨⟩⟩ := Option.ite_none_right_eq_some.1 h
    exact .amac (by omega)
  split at h
  case isTrue hvld =>
    obtain ⟨j, rfl⟩ := Nat.exists_eq_add_of_le hvld.1
    rw [Nat.add_sub_cancel_left] at h
    obtain ⟨⟩ := h
    exact .vld (by omega)
  split at h
  case isTrue hvst =>
    obtain ⟨j, rfl⟩ := Nat.exists_eq_add_of_le hvst.1
    rw [Nat.add_sub_cancel_left] at h
    obtain ⟨⟩ := h
    exact .vst (by omega)
  case isFalse =>
    obtain ⟨o, ho, ⟨⟩⟩ := Option.map_eq_some_iff.1 h
    exact .table (mem_of_opIn ho)

/-! ### The long opcodes -/

/-- Each long opcode is the one of its op and selector bits. -/
theorem LongCode.longOpcode_eq {n sub : Nat} {o : Op} (h : LongCode n o sub) : longOpcode o sub = some n := by
  cases h with
  | nop hj hne => exact if_pos ⟨hj, hne⟩
  | yield => rfl
  | table h => exact longOpcode_of_mem _ h

/-- A long opcode fits 10 bits and its selector bits 5 (R132). -/
theorem LongCode.lt {n sub : Nat} {o : Op} (h : LongCode n o sub) : n < 1024 ∧ sub < 32 := by
  cases h with
  | table h => exact ⟨longTable_lt _ h, by omega⟩
  | _ => omega

theorem LongCode.ne_ringputFree {n sub : Nat} {o : Op} (h : LongCode n o sub) : o ≠ .ringputFree := by
  cases h with
  | table h => exact (by decide +kernel : ∀ e ∈ longTable, e.2 ≠ .ringputFree) _ h
  | _ => decide

/-- An op with a long opcode has it in the map. -/
theorem LongCode.of_longOpcode {n sub : Nat} {o : Op} (h : longOpcode o sub = some n) (ho : o ≠ .ringputFree) : LongCode n o sub := by
  unfold longOpcode at h
  split at h
  case h_1 => obtain ⟨⟨hj, hne⟩, ⟨⟩⟩ := Option.ite_none_right_eq_some.1 h; exact .nop hj hne
  case h_2 => obtain ⟨rfl, ⟨⟩⟩ := Option.ite_none_right_eq_some.1 h; exact .yield
  case h_3 => exact absurd rfl ho
  case h_4 => obtain ⟨rfl, hn⟩ := Option.ite_none_right_eq_some.1 h; exact .table (mem_of_opcodeIn hn)

/-- Each long opcode names its op and selector bits. -/
theorem LongCode.longOp_eq {n sub : Nat} {o : Op} (h : LongCode n o sub) : longOp n = some (o, sub) := by
  cases h with
  | nop hj hne =>
    unfold longOp
    rw [if_pos (by omega), if_neg (by omega)]
    congr 2; omega
  | yield => rfl
  | table h => exact longOp_of_mem _ h

/-- A 10-bit opcode that names an op is in the map. -/
theorem LongCode.of_longOp {n sub : Nat} {o : Op} (h : longOp n = some (o, sub)) (hn : n < 1024) : LongCode n o sub := by
  unfold longOp at h
  split at h
  case isTrue hhint =>
    obtain ⟨j, rfl⟩ := Nat.exists_eq_add_of_le hhint
    split at h
    case isTrue hj => obtain ⟨⟩ := h; rw [hj]; exact .yield
    case isFalse hj =>
      rw [show (0x3F0 + j) % 16 = j by omega] at h
      obtain ⟨⟩ := h
      exact .nop (by omega) (by omega)
  case isFalse =>
    obtain ⟨o, ho, ⟨⟩⟩ := Option.map_eq_some_iff.1 h
    exact .table (mem_of_opIn ho)

/-! ### RINGPUT.free (R230) -/

theorem shortOpcode_tableOp (o : Op) (sub : Nat) : shortOpcode (tableOp o) sub = shortOpcode o sub := by
  unfold tableOp; split
  · subst o; rfl
  · rfl

theorem longOpcode_tableOp (o : Op) (sub : Nat) : longOpcode (tableOp o) sub = longOpcode o sub := by
  unfold tableOp; split
  · subst o; rfl
  · rfl

theorem tableOp_ne_ringputFree (o : Op) : tableOp o ≠ .ringputFree := by
  unfold tableOp; split
  · decide
  · assumption

/-! ### Ops and instructions -/

@[simp] theorem op?_ofOp (o : Op) (f : OpF) : (Instr.ofOp o f).op? = some (o, f) := by cases o <;> rfl

theorem ofOp_of_op? {i : Instr} {o : Op} {f : OpF} (h : i.op? = some (o, f)) : i = Instr.ofOp o f := by
  cases i
  all_goals cases h
  all_goals rfl

theorem wf_ofOp (o : Op) (f : OpF) : (Instr.ofOp o f).wf = opWf o f := by unfold Instr.wf; rw [op?_ofOp]

/-- DST bit 0 gives RINGPUT and RINGPUT.free their row back (R230). -/
theorem instrOfOp_tableOp {o : Op} {f : OpF} (h : ringBit o f = true) : instrOfOp (tableOp o) f = Instr.ofOp o f := by
  by_cases ho : o = .ringputFree
  · subst o
    exact if_pos ⟨rfl, h⟩
  · rw [tableOp, if_neg ho, instrOfOp, if_neg]
    rintro ⟨rfl, hdst⟩
    rw [ringBit, hdst] at h
    exact absurd h (by decide)

/-- What a decoded opcode stands for is an op with that opcode and the ring bit it asks for. -/
theorem instrOfOp_cases {o : Op} (ho : o ≠ .ringputFree) (f : OpF) :
    ∃ x, instrOfOp o f = Instr.ofOp x f ∧ tableOp x = o ∧ ringBit x f = true := by
  unfold instrOfOp
  split
  next h => exact ⟨.ringputFree, rfl, h.1.symm, h.2⟩
  next h =>
    refine ⟨o, rfl, if_neg ho, ?_⟩
    unfold ringBit
    split
    · simpa using h
    · exact absurd rfl ho
    · rfl

theorem shortOpcode_eq_some_iff {o : Op} {sub n : Nat} : shortOpcode o sub = some n ↔ ShortCode n (tableOp o) sub := by
  rw [← shortOpcode_tableOp]
  exact ⟨fun h => .of_shortOpcode h (tableOp_ne_ringputFree o), fun h => h.shortOpcode_eq⟩

theorem longOpcode_eq_some_iff {o : Op} {sub n : Nat} : longOpcode o sub = some n ↔ LongCode n (tableOp o) sub := by
  rw [← longOpcode_tableOp]
  exact ⟨fun h => .of_longOpcode h (tableOp_ne_ringputFree o), fun h => h.longOpcode_eq⟩

/-- The opcodes of a form. -/
def FormCode (form : Form) : Nat → Op → Nat → Prop :=
  match form with
  | .long => LongCode
  | _ => ShortCode

theorem formCode_short {form : Form} (hform : form ≠ .long) : FormCode form = ShortCode := by
  cases form
  case long => exact absurd rfl hform
  case short | literal => rfl

theorem opcodeOf_eq_some_iff {o : Op} {f : OpF} {n : Nat} : opcodeOf o f = some n ↔ FormCode f.form n (tableOp o) f.sub.toNat := by
  unfold opcodeOf FormCode
  cases f.form
  case long => exact longOpcode_eq_some_iff
  case short | literal => exact shortOpcode_eq_some_iff

/-- What an opcode of the map stands for, with fields that fit its form, is well formed. -/
theorem wf_instrOfOp {o : Op} {f : OpF} {n : Nat} (hf : f.fits = true) (ho : o ≠ .ringputFree) (hc : FormCode f.form n o f.sub.toNat) :
    (instrOfOp o f).wf = true := by
  obtain ⟨x, hx, rfl, hring⟩ := instrOfOp_cases ho f
  rw [hx, wf_ofOp, opWf, hf, opcodeOf_eq_some_iff.2 hc, hring]; rfl

end Sys2Proof
end

