-- ==== Sys2Proof/Proofs/SequencingField.lean ====
section
/-!
SUPPORT. The sequencing field (R128, R129): decoding and encoding undo each other.
-/
namespace Sys2Proof

theorem boolBit_getLsbD (b : Bool) : (boolBit b).getLsbD 0 = b := by cases b <;> rfl

/-! ### The field from its parts -/

/-- A sequencing field from its selector, negate bit, register and offset (R128). -/
def seqWord (sel : BitVec 4) (neg : Bool) (reg : BitVec 3) (ofs : BitVec 12) : BitVec 20 := sel ++ boolBit neg ++ reg ++ ofs

/-- Where its parts stand (R128). -/
theorem seq_layout (sel : BitVec 4) (neg : BitVec 1) (reg : BitVec 3) (ofs : BitVec 12) :
    let x := sel ++ neg ++ reg ++ ofs
    x.extractLsb' 16 4 = sel ∧ x.getLsbD 15 = neg.getLsbD 0 ∧ x.extractLsb' 12 3 = reg ∧ x.extractLsb' 0 12 = ofs ∧
      x.extractLsb' 6 6 = ofs.extractLsb' 6 6 ∧ x.extractLsb' 0 6 = ofs.extractLsb' 0 6 := by
  simp (disch := decide) only [BitVec.extractLsb'_append_eq_of_le, BitVec.extractLsb'_append_eq_of_add_le, BitVec.getLsbD_append,
    BitVec.extractLsb'_eq_self, Nat.reduceSub, Nat.reduceLT, -Nat.reduceAdd, and_self, if_true, if_false]

section
variable (sel : BitVec 4) (neg : Bool) (reg : BitVec 3) (ofs : BitVec 12)

@[simp] theorem seqWord_sel : (seqWord sel neg reg ofs).extractLsb' 16 4 = sel := by
  obtain ⟨h, -⟩ := seq_layout sel (boolBit neg) reg ofs
  exact h
@[simp] theorem seqWord_neg : (seqWord sel neg reg ofs)[15] = neg := by
  obtain ⟨-, h, -⟩ := seq_layout sel (boolBit neg) reg ofs
  exact h.trans (boolBit_getLsbD neg)
@[simp] theorem seqWord_reg : (seqWord sel neg reg ofs).extractLsb' 12 3 = reg := by
  obtain ⟨-, -, h, -⟩ := seq_layout sel (boolBit neg) reg ofs
  exact h
@[simp] theorem seqWord_ofs : (seqWord sel neg reg ofs).extractLsb' 0 12 = ofs := by
  obtain ⟨-, -, -, h, -⟩ := seq_layout sel (boolBit neg) reg ofs
  exact h
@[simp] theorem seqWord_high : (seqWord sel neg reg ofs).extractLsb' 6 6 = ofs.extractLsb' 6 6 := by
  obtain ⟨-, -, -, -, h, -⟩ := seq_layout sel (boolBit neg) reg ofs
  exact h
@[simp] theorem seqWord_low : (seqWord sel neg reg ofs).extractLsb' 0 6 = ofs.extractLsb' 0 6 := by
  obtain ⟨-, -, -, -, -, h⟩ := seq_layout sel (boolBit neg) reg ofs
  exact h

end

/-- Every field is made of its parts. -/
theorem eq_seqWord (x : BitVec 20) : x = seqWord (x.extractLsb' 16 4) (x.getLsbD 15) (x.extractLsb' 12 3) (x.extractLsb' 0 12) := by
  have hbit : boolBit (x.getLsbD 15) = x.extractLsb' 15 1 := by
    refine BitVec.eq_of_getLsbD_eq fun i hi => ?_
    obtain rfl : i = 0 := by omega
    rw [boolBit_getLsbD, BitVec.getLsbD_extractLsb']
    rfl
  unfold seqWord
  rw [hbit, BitVec.extractLsb'_append_extractLsb'_eq_extractLsb' (by decide),
    BitVec.extractLsb'_append_extractLsb'_eq_extractLsb' (by decide), BitVec.extractLsb'_append_extractLsb'_eq_extractLsb' (by decide)]
  exact BitVec.extractLsb'_eq_self.symm

theorem seqWord_offset (sel : BitVec 4) (ofs : BitVec 12) : sel ++ 0#4 ++ ofs = seqWord sel false 0#3 ofs := by
  unfold seqWord
  congr 1
  revert sel; decide

theorem seqWord_target (sel : BitVec 4) (r : BitVec 6) : sel ++ 0#10 ++ r = seqWord sel false 0#3 (0#6 ++ r) := by
  unfold seqWord
  rw [BitVec.append_assoc' (x₃ := r)]
  congr 1
  revert sel; decide

theorem seqWord_loop (sel : BitVec 4) (n : BitVec 2) (ofs : BitVec 12) :
    sel ++ 0#2 ++ n ++ ofs = seqWord sel false (0#1 ++ n) ofs := by
  unfold seqWord
  congr 1
  revert sel n; decide

theorem seqWord_zero (sel : BitVec 4) : sel ++ 0#16 = seqWord sel false 0#3 0#12 := by revert sel; decide

/-! ### The selectors' fields (R129) -/

theorem encodeSeq_jump (o : BitVec 12) : encodeSeq (.jump o) = some (seqWord 1#4 false 0#3 o) := congrArg some (seqWord_offset 1 o)
theorem encodeSeq_jumpc (n : Bool) (k : BitVec 3) (o : BitVec 12) : encodeSeq (.jumpc n k o) = some (seqWord 2#4 n k o) := rfl
theorem encodeSeq_call (o : BitVec 12) : encodeSeq (.call o) = some (seqWord 3#4 false 0#3 o) := congrArg some (seqWord_offset 3 o)
theorem encodeSeq_ret : encodeSeq .ret = some (seqWord 4#4 false 0#3 0#12) := congrArg some (seqWord_zero 4)
theorem encodeSeq_loop (n : BitVec 2) (o : BitVec 12) : encodeSeq (.loop n o) = some (seqWord 5#4 false (0#1 ++ n) o) :=
  congrArg some (seqWord_loop 5 n o)
theorem encodeSeq_jumpx (r : BitVec 6) : encodeSeq (.jumpx r) = some (seqWord 6#4 false 0#3 (0#6 ++ r)) :=
  congrArg some (seqWord_target 6 r)
theorem encodeSeq_exit : encodeSeq .exit = some (seqWord 7#4 false 0#3 0#12) := congrArg some (seqWord_zero 7)
theorem encodeSeq_rfnext : encodeSeq .rfnext = some (seqWord 8#4 false 0#3 0#12) := congrArg some (seqWord_zero 8)
theorem encodeSeq_callx (r : BitVec 6) : encodeSeq (.callx r) = some (seqWord 9#4 false 0#3 (0#6 ++ r)) :=
  congrArg some (seqWord_target 9 r)

/-! ### Decoding and encoding -/

theorem zero_append_high (r : BitVec 6) : (0#6 ++ r).extractLsb' 6 6 = 0#6 := BitVec.extractLsb'_append_eq_left
theorem zero_append_low (r : BitVec 6) : (0#6 ++ r).extractLsb' 0 6 = r := BitVec.extractLsb'_append_eq_right
theorem zero_append_top (n : BitVec 2) : (0#1 ++ n)[2] = false := by revert n; decide
theorem zero_append_pair (n : BitVec 2) : (0#1 ++ n).extractLsb' 0 2 = n := by revert n; decide

/-- A selector's field decodes to it. -/
theorem decodeSeq_encodeSeq {i : Instr} {q : BitVec 20} (h : encodeSeq i = some q) : decodeSeq q = some i := by
  cases i
  case next => obtain ⟨⟩ := h; rfl
  case jump o => rw [encodeSeq_jump] at h; obtain ⟨⟩ := h; simp [decodeSeq]
  case jumpc n k o => rw [encodeSeq_jumpc] at h; obtain ⟨⟩ := h; simp [decodeSeq]
  case call o => rw [encodeSeq_call] at h; obtain ⟨⟩ := h; simp [decodeSeq]
  case ret => rw [encodeSeq_ret] at h; obtain ⟨⟩ := h; simp [decodeSeq]
  case loop n o => rw [encodeSeq_loop] at h; obtain ⟨⟩ := h; simp [decodeSeq, zero_append_top, zero_append_pair]
  case jumpx r => rw [encodeSeq_jumpx] at h; obtain ⟨⟩ := h; simp [decodeSeq, zero_append_high, zero_append_low]
  case exit => rw [encodeSeq_exit] at h; obtain ⟨⟩ := h; simp [decodeSeq]
  case rfnext => rw [encodeSeq_rfnext] at h; obtain ⟨⟩ := h; simp [decodeSeq]
  case callx r => rw [encodeSeq_callx] at h; obtain ⟨⟩ := h; simp [decodeSeq, zero_append_high, zero_append_low]
  all_goals cases h

theorem zero_append_of_high {o : BitVec 12} (h : o.extractLsb' 6 6 = 0#6) : 0#6 ++ o.extractLsb' 0 6 = o := by
  rw [← h, BitVec.extractLsb'_append_extractLsb'_eq_extractLsb' (by decide)]
  exact BitVec.extractLsb'_eq_self

theorem zero_append_of_top {k : BitVec 3} (h : k[2] = false) : 0#1 ++ k.extractLsb' 0 2 = k := by
  revert k; decide

/-- A field that decodes is the field of its selector. -/
theorem encodeSeq_decodeSeq {x : BitVec 20} {i : Instr} (h : decodeSeq x = some i) : encodeSeq i = some x := by
  rw [eq_seqWord x] at h ⊢
  generalize x.extractLsb' 16 4 = sel at *
  generalize x.getLsbD 15 = neg at *
  generalize x.extractLsb' 12 3 = reg at *
  generalize x.extractLsb' 0 12 = ofs at *
  unfold decodeSeq at h
  simp only [seqWord_sel, Nat.reduceLT, BitVec.getLsbD_eq_getElem, seqWord_neg, seqWord_reg, BitVec.ofNat_eq_ofNat, seqWord_ofs,
    Nat.lt_add_one, seqWord_high, seqWord_low] at h
  split at h
  case h_1 hsel =>
    obtain rfl := BitVec.eq_of_toNat_eq (y := 0#4) hsel
    obtain ⟨⟨⟨rfl, rfl⟩, rfl⟩, ⟨⟩⟩ := Option.ite_none_right_eq_some.1 h
    rfl
  case h_2 hsel =>
    obtain rfl := BitVec.eq_of_toNat_eq (y := 1#4) hsel
    obtain ⟨⟨rfl, rfl⟩, ⟨⟩⟩ := Option.ite_none_right_eq_some.1 h
    exact encodeSeq_jump ofs
  case h_3 hsel =>
    obtain rfl := BitVec.eq_of_toNat_eq (y := 2#4) hsel
    obtain ⟨⟩ := h
    exact encodeSeq_jumpc neg reg ofs
  case h_4 hsel =>
    obtain rfl := BitVec.eq_of_toNat_eq (y := 3#4) hsel
    obtain ⟨⟨rfl, rfl⟩, ⟨⟩⟩ := Option.ite_none_right_eq_some.1 h
    exact encodeSeq_call ofs
  case h_5 hsel =>
    obtain rfl := BitVec.eq_of_toNat_eq (y := 4#4) hsel
    obtain ⟨⟨⟨rfl, rfl⟩, rfl⟩, ⟨⟩⟩ := Option.ite_none_right_eq_some.1 h
    exact encodeSeq_ret
  case h_6 hsel =>
    obtain rfl := BitVec.eq_of_toNat_eq (y := 5#4) hsel
    obtain ⟨⟨rfl, htop⟩, ⟨⟩⟩ := Option.ite_none_right_eq_some.1 h
    rw [encodeSeq_loop, zero_append_of_top htop]
  case h_7 hsel =>
    obtain rfl := BitVec.eq_of_toNat_eq (y := 6#4) hsel
    obtain ⟨⟨⟨rfl, rfl⟩, hhigh⟩, ⟨⟩⟩ := Option.ite_none_right_eq_some.1 h
    rw [encodeSeq_jumpx, zero_append_of_high hhigh]
  case h_8 hsel =>
    obtain rfl := BitVec.eq_of_toNat_eq (y := 7#4) hsel
    obtain ⟨⟨⟨rfl, rfl⟩, rfl⟩, ⟨⟩⟩ := Option.ite_none_right_eq_some.1 h
    exact encodeSeq_exit
  case h_9 hsel =>
    obtain rfl := BitVec.eq_of_toNat_eq (y := 8#4) hsel
    obtain ⟨⟨⟨rfl, rfl⟩, rfl⟩, ⟨⟩⟩ := Option.ite_none_right_eq_some.1 h
    exact encodeSeq_rfnext
  case h_10 hsel =>
    obtain rfl := BitVec.eq_of_toNat_eq (y := 9#4) hsel
    obtain ⟨⟨⟨rfl, rfl⟩, hhigh⟩, ⟨⟩⟩ := Option.ite_none_right_eq_some.1 h
    rw [encodeSeq_callx, zero_append_of_high hhigh]
  case h_11 => cases h

end Sys2Proof
end

