-- ==== Sys2Proof/Proofs/InstructionWords.lean ====
section
/-!
SUPPORT. Instruction words (R126 to R148): the round trip of ops, unassigned opcodes and selectors (O33), and the words that the manual encodes (O32).
-/
namespace Sys2Proof

/-! ### The fields of an op (R131 to R133) -/

/-- Where the fields of a source stand (R133). -/
theorem src_layout (reg : BitVec 8) (map : BitVec 4) (neg abs : BitVec 1) :
    (reg ++ map ++ neg ++ abs).extractLsb' 6 8 = reg ∧ (reg ++ map ++ neg ++ abs).extractLsb' 2 4 = map ∧
      (reg ++ map ++ neg ++ abs).getLsbD 1 = neg.getLsbD 0 ∧ (reg ++ map ++ neg ++ abs).getLsbD 0 = abs.getLsbD 0 := by
  simp (disch := decide) only [BitVec.extractLsb'_append_eq_of_le, BitVec.extractLsb'_append_eq_of_add_le, BitVec.getLsbD_append,
    BitVec.extractLsb'_eq_self, Nat.reduceSub, Nat.reduceLT, -Nat.reduceAdd, and_self, if_true, if_false]

/-- Where the fields of a short op stand (R131). -/
theorem short_layout (opc : BitVec 9) (guard : BitVec 4) (dst : BitVec 8) (a b : BitVec 14) (opt : BitVec 1) :
    let x := opc ++ guard ++ dst ++ a ++ b ++ opt
    x.extractLsb' 41 9 = opc ∧ x.extractLsb' 37 4 = guard ∧ x.extractLsb' 29 8 = dst ∧ x.extractLsb' 15 14 = a ∧
      x.extractLsb' 1 14 = b ∧ x.getLsbD 0 = opt.getLsbD 0 := by
  simp (disch := decide) only [BitVec.extractLsb'_append_eq_of_le, BitVec.extractLsb'_append_eq_of_add_le, BitVec.getLsbD_append,
    BitVec.extractLsb'_eq_self, Nat.reduceSub, Nat.reduceLT, -Nat.reduceAdd, and_self, if_true]

/-- Where the fields of a long op stand (R132). -/
theorem long_layout (opc : BitVec 10) (guard : BitVec 4) (dst : BitVec 8) (a b c : BitVec 14) (rsv sat : BitVec 1) (rnd : BitVec 2)
    (imm : BitVec 32) :
    let x := opc ++ guard ++ dst ++ a ++ b ++ c ++ rsv ++ sat ++ rnd ++ imm
    x.extractLsb' 90 10 = opc ∧ x.extractLsb' 86 4 = guard ∧ x.extractLsb' 78 8 = dst ∧ x.extractLsb' 64 14 = a ∧
      x.extractLsb' 50 14 = b ∧ x.extractLsb' 36 14 = c ∧ x.getLsbD 35 = rsv.getLsbD 0 ∧ x.getLsbD 34 = sat.getLsbD 0 ∧
      x.extractLsb' 32 2 = rnd ∧ x.extractLsb' 0 32 = imm := by
  simp (disch := decide) only [BitVec.extractLsb'_append_eq_of_le, BitVec.extractLsb'_append_eq_of_add_le, BitVec.getLsbD_append,
    BitVec.extractLsb'_eq_self, Nat.reduceSub, Nat.reduceLT, -Nat.reduceAdd, and_self, if_true, if_false]

@[simp] theorem decodeSrc_encodeSrc (s : Src) : decodeSrc (encodeSrc s) = s := by
  obtain ⟨hreg, hmap, hneg, habs⟩ := src_layout s.reg s.map (boolBit s.neg) (boolBit s.abs)
  unfold decodeSrc encodeSrc
  rw [hreg, hmap, hneg, habs, boolBit_getLsbD, boolBit_getLsbD]

/-- The fields of a short op in a slot of a paired or a literal word (R131). -/
def shortFieldsOf (form : Form) (lit x : BitVec 50) : OpF :=
  { form := form, guard := x.extractLsb' 37 4, dst := x.extractLsb' 29 8, a := decodeSrc (x.extractLsb' 15 14),
    b := decodeSrc (x.extractLsb' 1 14), c := .none, opt := x.getLsbD 0, rsv := false, sat := false, rnd := 0,
    imm := 0, lit := lit, sub := 0 }

/-- The fields of a long op (R132). -/
def longFieldsOf (x : BitVec 100) : OpF :=
  { form := .long, guard := x.extractLsb' 86 4, dst := x.extractLsb' 78 8, a := decodeSrc (x.extractLsb' 64 14),
    b := decodeSrc (x.extractLsb' 50 14), c := decodeSrc (x.extractLsb' 36 14), opt := false, rsv := x.getLsbD 35,
    sat := x.getLsbD 34, rnd := x.extractLsb' 32 2, imm := x.extractLsb' 0 32, lit := 0, sub := 0 }

theorem encodeShortFields_opcode (n : Nat) (f : OpF) : (encodeShortFields n f).extractLsb' 41 9 = BitVec.ofNat 9 n :=
  (short_layout ..).1

theorem encodeLongFields_opcode (n : Nat) (f : OpF) : (encodeLongFields n f).extractLsb' 90 10 = BitVec.ofNat 10 n :=
  (long_layout ..).1

/-- The fields that a short form does not have. -/
theorem fits_short {f : OpF} (hf : f.fits = true) (hform : f.form ≠ .long) :
    f.c = .none ∧ f.rsv = false ∧ f.sat = false ∧ f.rnd = 0 ∧ f.imm = 0 := by
  cases hk : f.form
  case long => exact absurd hk hform
  case short | literal => simp [OpF.fits, hk] at hf; simp [hf]

theorem fits_short_lit {f : OpF} (hf : f.fits = true) (hform : f.form = .short) : f.lit = 0 := by
  simp [OpF.fits, hform] at hf
  exact hf.2

/-- The fields that a long form does not have. -/
theorem fits_long {f : OpF} (hf : f.fits = true) (hform : f.form = .long) : f.opt = false ∧ f.lit = 0 := by
  simpa [OpF.fits, hform] using hf

/-- The bits of a short op give its fields back. -/
theorem shortFieldsOf_encode {f : OpF} (n : Nat) (hf : f.fits = true) (hform : f.form ≠ .long) :
    shortFieldsOf f.form f.lit (encodeShortFields n f) = { f with sub := 0 } := by
  obtain ⟨-, hguard, hdst, ha, hb, hopt⟩ :=
    short_layout (BitVec.ofNat 9 n) f.guard f.dst (encodeSrc f.a) (encodeSrc f.b) (boolBit f.opt)
  obtain ⟨hc, hrsv, hsat, hrnd, himm⟩ := fits_short hf hform
  unfold shortFieldsOf encodeShortFields
  rw [hguard, hdst, ha, hb, hopt, decodeSrc_encodeSrc, decodeSrc_encodeSrc, boolBit_getLsbD, hc, hrsv, hsat, hrnd, himm]

/-- The bits of a long op give its fields back. -/
theorem longFieldsOf_encode {f : OpF} (n : Nat) (hf : f.fits = true) (hform : f.form = .long) :
    longFieldsOf (encodeLongFields n f) = { f with sub := 0 } := by
  obtain ⟨-, hguard, hdst, ha, hb, hc, hrsv, hsat, hrnd, himm⟩ := long_layout (BitVec.ofNat 10 n) f.guard f.dst (encodeSrc f.a)
    (encodeSrc f.b) (encodeSrc f.c) (boolBit f.rsv) (boolBit f.sat) f.rnd f.imm
  obtain ⟨hopt, hlit⟩ := fits_long hf hform
  unfold longFieldsOf encodeLongFields
  rw [hguard, hdst, ha, hb, hc, hrsv, hsat, hrnd, himm, decodeSrc_encodeSrc, decodeSrc_encodeSrc, decodeSrc_encodeSrc, boolBit_getLsbD,
    boolBit_getLsbD, hform, hopt, hlit]

/-! ### Slots -/

theorem decodeShort_some {form : Form} {lit x : BitVec 50} {o : Op} {sub : Nat} (h : shortOp (x.extractLsb' 41 9).toNat = some (o, sub)) :
    decodeShort form lit x = instrOfOp o { shortFieldsOf form lit x with sub := BitVec.ofNat 5 sub } := by
  simp only [decodeShort, h]; rfl

theorem decodeShort_none {form : Form} {lit x : BitVec 50} (h : shortOp (x.extractLsb' 41 9).toNat = none) :
    decodeShort form lit x = .unassignedOpcode ((x.extractLsb' 41 9).setWidth 10) (shortFieldsOf form lit x) := by
  simp only [decodeShort, h]; rfl

theorem decodeLong_some {x : BitVec 100} {o : Op} {sub : Nat} (h : longOp (x.extractLsb' 90 10).toNat = some (o, sub)) :
    decodeLong x = instrOfOp o { longFieldsOf x with sub := BitVec.ofNat 5 sub } := by
  simp only [decodeLong, h]; rfl

theorem decodeLong_none {x : BitVec 100} (h : longOp (x.extractLsb' 90 10).toNat = none) :
    decodeLong x = .unassignedOpcode (x.extractLsb' 90 10) (longFieldsOf x) := by
  simp only [decodeLong, h]; rfl

/-- A short op's fields decode to it. -/
theorem decodeShort_encode {f : OpF} {n : Nat} {o : Op} (hf : f.fits = true) (hform : f.form ≠ .long) (hc : ShortCode n o f.sub.toNat) :
    decodeShort f.form f.lit (encodeShortFields n f) = instrOfOp o f := by
  have hcode : shortOp ((encodeShortFields n f).extractLsb' 41 9).toNat = some (o, f.sub.toNat) := by
    rw [encodeShortFields_opcode, BitVec.toNat_ofNat, Nat.mod_eq_of_lt hc.lt.1, hc.shortOp_eq]
  rw [decodeShort_some hcode, shortFieldsOf_encode n hf hform, BitVec.ofNat_toNat, BitVec.setWidth_eq]

/-- A long op's fields decode to it. -/
theorem decodeLong_encode {f : OpF} {n : Nat} {o : Op} (hf : f.fits = true) (hform : f.form = .long) (hc : LongCode n o f.sub.toNat) :
    decodeLong (encodeLongFields n f) = instrOfOp o f := by
  have hcode : longOp ((encodeLongFields n f).extractLsb' 90 10).toNat = some (o, f.sub.toNat) := by
    rw [encodeLongFields_opcode, BitVec.toNat_ofNat, Nat.mod_eq_of_lt hc.lt.1, hc.longOp_eq]
  rw [decodeLong_some hcode, longFieldsOf_encode n hf hform, BitVec.ofNat_toNat, BitVec.setWidth_eq]

/-- The fields of an unassigned short opcode decode to it (R148). -/
theorem decodeShort_encode_free {f : OpF} {n : BitVec 10} (hf : f.fits = true) (hform : f.form ≠ .long) (hn : n.toNat < 512)
    (hfree : shortOp n.toNat = none) (hsub : f.sub = 0) :
    decodeShort f.form f.lit (encodeShortFields n.toNat f) = .unassignedOpcode n f := by
  have hopc : ((encodeShortFields n.toNat f).extractLsb' 41 9).toNat = n.toNat := by
    rw [encodeShortFields_opcode, BitVec.toNat_ofNat, Nat.mod_eq_of_lt hn]
  have hcode : ((encodeShortFields n.toNat f).extractLsb' 41 9).setWidth 10 = n := by
    rw [← BitVec.ofNat_toNat, hopc, BitVec.ofNat_toNat, BitVec.setWidth_eq]
  rw [decodeShort_none (by rw [hopc, hfree]), hcode, shortFieldsOf_encode _ hf hform, ← hsub]

/-- The fields of an unassigned long opcode decode to it (R148). -/
theorem decodeLong_encode_free {f : OpF} {n : BitVec 10} (hf : f.fits = true) (hform : f.form = .long) (hfree : longOp n.toNat = none)
    (hsub : f.sub = 0) : decodeLong (encodeLongFields n.toNat f) = .unassignedOpcode n f := by
  have hopc : (encodeLongFields n.toNat f).extractLsb' 90 10 = n := by
    rw [encodeLongFields_opcode, BitVec.ofNat_toNat, BitVec.setWidth_eq]
  rw [decodeLong_none (hopc.symm ▸ hfree), hopc, longFieldsOf_encode _ hf hform, ← hsub]

/-! ### Every slot is well formed -/

theorem freeOpcode_iff {n : BitVec 10} {f : OpF} :
    freeOpcode n f = true ↔ assigned f.form n.toNat = false ∧ f.sub = 0 ∧ (f.form = .long ∨ n.toNat < 512) := by
  simp [freeOpcode, and_assoc]

theorem wf_unassigned (n : BitVec 10) (f : OpF) : (Instr.unassignedOpcode n f).wf = (f.fits && freeOpcode n f) := rfl

theorem assigned_short {form : Form} (hform : form ≠ .long) (n : Nat) : assigned form n = (shortOp n).isSome := by
  cases form
  case long => exact absurd rfl hform
  case short | literal => rfl

theorem fits_shortFieldsOf {form : Form} (hform : form ≠ .long) {lit : BitVec 50} (hlit : form = .short → lit = 0) (x : BitVec 50)
    (sub : BitVec 5) : OpF.fits { shortFieldsOf form lit x with sub := sub } = true := by
  cases form
  case short => simp [OpF.fits, shortFieldsOf, hlit rfl]
  case literal => simp [OpF.fits, shortFieldsOf]
  case long => exact absurd rfl hform

theorem fits_longFieldsOf (x : BitVec 100) (sub : BitVec 5) : OpF.fits { longFieldsOf x with sub := sub } = true := by
  simp [OpF.fits, longFieldsOf]

/-- A short slot of any word is well formed. -/
theorem wf_decodeShort {form : Form} (hform : form ≠ .long) {lit : BitVec 50} (hlit : form = .short → lit = 0) (x : BitVec 50) :
    (decodeShort form lit x).wf = true := by
  have hfits := fits_shortFieldsOf hform hlit x
  have hlt := (x.extractLsb' 41 9).isLt
  cases hcode : shortOp (x.extractLsb' 41 9).toNat with
  | some e =>
    have hc := ShortCode.of_shortOp hcode hlt
    have hsub : (BitVec.ofNat 5 e.2).toNat = e.2 := Nat.mod_eq_of_lt hc.lt.2
    rw [decodeShort_some hcode]
    refine wf_instrOfOp (n := (x.extractLsb' 41 9).toNat) (hfits _) hc.ne_ringputFree ?_
    rwa [hsub, show (shortFieldsOf form lit x).form = form from rfl, formCode_short hform]
  | none =>
    have hopc : ((x.extractLsb' 41 9).setWidth 10).toNat = (x.extractLsb' 41 9).toNat :=
      BitVec.toNat_setWidth_of_le (by decide)
    have hfree : assigned form (x.extractLsb' 41 9).toNat = false := by rw [assigned_short hform, hcode]; rfl
    rw [decodeShort_none hcode, wf_unassigned, Bool.and_eq_true]
    exact ⟨hfits 0, freeOpcode_iff.2 ⟨hopc.symm ▸ hfree, rfl, .inr (hopc.symm ▸ hlt)⟩⟩

/-- The op of a long word is well formed. -/
theorem wf_decodeLong (x : BitVec 100) : (decodeLong x).wf = true := by
  have hfits := fits_longFieldsOf x
  have hlt := (x.extractLsb' 90 10).isLt
  cases hcode : longOp (x.extractLsb' 90 10).toNat with
  | some e =>
    have hc := LongCode.of_longOp hcode hlt
    have hsub : (BitVec.ofNat 5 e.2).toNat = e.2 := Nat.mod_eq_of_lt hc.lt.2
    rw [decodeLong_some hcode]
    refine wf_instrOfOp (n := (x.extractLsb' 90 10).toNat) (hfits _) hc.ne_ringputFree ?_
    rw [hsub]
    exact hc
  | none =>
    have hfree : assigned .long (x.extractLsb' 90 10).toNat = false := by rw [assigned, hcode]; rfl
    rw [decodeLong_none hcode, wf_unassigned, Bool.and_eq_true]
    exact ⟨hfits 0, freeOpcode_iff.2 ⟨hfree, rfl, .inl rfl⟩⟩

/-! ### Words -/

section Word
variable {w : W128} {i : Instr}

theorem decodeWord_paired (hk : w.extractLsb' 106 2 = 0#2) (hr : w.extractLsb' 100 6 = 0#6) (hq : decodeSeq (w.extractLsb' 108 20) = some i) :
    decodeWord w = .ok ⟨decodeShort .short 0 (w.extractLsb' 50 50), some (decodeShort .short 0 (w.extractLsb' 0 50)), i⟩ := by
  simp [decodeWord, hk, hr, hq]

theorem decodeWord_long (hk : w.extractLsb' 106 2 = 1#2) (hr : w.extractLsb' 100 6 = 0#6) (hq : decodeSeq (w.extractLsb' 108 20) = some i) :
    decodeWord w = .ok ⟨decodeLong (w.extractLsb' 0 100), none, i⟩ := by
  simp [decodeWord, hk, hr, hq]

theorem decodeWord_literal (hk : w.extractLsb' 106 2 = 2#2) (hr : w.extractLsb' 100 6 = 0#6) (hq : decodeSeq (w.extractLsb' 108 20) = some i) :
    decodeWord w = .ok ⟨decodeShort .literal (w.extractLsb' 0 50) (w.extractLsb' 50 50), none, i⟩ := by
  simp [decodeWord, hk, hr, hq]

/-- A word that decodes is paired, long or literal (R127). -/
theorem decodeWord_cases {d : WordD} (h : decodeWord w = .ok d) : decodeSeq (w.extractLsb' 108 20) = some d.seq ∧
    (d.a = decodeShort .short 0 (w.extractLsb' 50 50) ∧ d.b = some (decodeShort .short 0 (w.extractLsb' 0 50)) ∨
      d.a = decodeLong (w.extractLsb' 0 100) ∧ d.b = none ∨
      d.a = decodeShort .literal (w.extractLsb' 0 50) (w.extractLsb' 50 50) ∧ d.b = none) := by
  unfold decodeWord at h
  dsimp only at h
  split at h
  · cases h
  split at h
  · cases h
  next hq =>
    split at h
    · cases h; exact ⟨hq, .inl ⟨rfl, rfl⟩⟩
    split at h
    · cases h; exact ⟨hq, .inr (.inl ⟨rfl, rfl⟩)⟩
    · cases h; exact ⟨hq, .inr (.inr ⟨rfl, rfl⟩)⟩

end Word

/-- Where the parts of a word of two short slots, or of one and a literal, stand (R127). -/
theorem paired_layout (q : BitVec 20) (k : BitVec 8) (a b : BitVec 50) :
    let x := q ++ (k ++ a ++ b)
    x.extractLsb' 108 20 = q ∧ x.extractLsb' 106 2 = k.extractLsb' 6 2 ∧ x.extractLsb' 100 6 = k.extractLsb' 0 6 ∧
      x.extractLsb' 50 50 = a ∧ x.extractLsb' 0 50 = b := by
  refine ⟨BitVec.extractLsb'_append_eq_left, ?_⟩
  simp (disch := decide) only [BitVec.extractLsb'_append_eq_of_le, BitVec.extractLsb'_append_eq_of_add_le,
    BitVec.extractLsb'_eq_self, Nat.reduceSub, -Nat.reduceAdd, and_self]

/-- Where the parts of a long word stand (R127). -/
theorem whole_layout (q : BitVec 20) (k : BitVec 8) (x : BitVec 100) :
    let y := q ++ (k ++ x)
    y.extractLsb' 108 20 = q ∧ y.extractLsb' 106 2 = k.extractLsb' 6 2 ∧ y.extractLsb' 100 6 = k.extractLsb' 0 6 ∧ y.extractLsb' 0 100 = x := by
  refine ⟨BitVec.extractLsb'_append_eq_left, ?_⟩
  simp (disch := decide) only [BitVec.extractLsb'_append_eq_of_le, BitVec.extractLsb'_append_eq_of_add_le,
    BitVec.extractLsb'_eq_self, Nat.reduceSub, -Nat.reduceAdd, and_self]

/-- NOP in a slot (R147). -/
theorem decodeShort_nop : ∃ f, decodeShort .short 0 nopShort = .nop f := by
  have hcode : shortOp (nopShort.extractLsb' 41 9).toNat = some (.nop, 0) := by decide
  exact ⟨_, decodeShort_some hcode⟩

/-- What the slot encoded around an opcode and an op's fields decodes to. -/
def decodedSlot (n : Nat) (f : OpF) : Instr :=
  if f.form = .long then decodeLong (encodeLongFields n f) else decodeShort f.form f.lit (encodeShortFields n f)

/-- A word that decodes to one instruction, beside nothing or a NOP, with SEQ NEXT. -/
def DecodesTo (w : W128) (i : Instr) : Prop := ∃ b, decodeWord w = .ok ⟨i, b, .next⟩ ∧ (b = none ∨ ∃ f, b = some (.nop f))

/-- The word around an op decodes to what its slot does. -/
theorem decodesTo_encodeBody (n : Nat) (f : OpF) (hf : f.fits = true) : DecodesTo ((0 : BitVec 20) ++ encodeBody n f) (decodedSlot n f) := by
  have hseq : decodeSeq 0 = some .next := rfl
  unfold encodeBody
  split
  case h_1 hform =>
    obtain ⟨hq, hk, hr, ha, hb⟩ := paired_layout 0 0 (encodeShortFields n f) nopShort
    obtain ⟨g, hg⟩ := decodeShort_nop
    refine ⟨_, (decodeWord_paired hk hr (hq.symm ▸ hseq)).trans ?_, .inr ⟨g, rfl⟩⟩
    rw [ha, hb, hg, decodedSlot, hform, fits_short_lit hf hform, if_neg (by decide)]
  case h_2 hform =>
    obtain ⟨hq, hk, hr, ha, hb⟩ := paired_layout 0 0x80 (encodeShortFields n f) f.lit
    refine ⟨_, (decodeWord_literal hk hr (hq.symm ▸ hseq)).trans ?_, .inl rfl⟩
    rw [ha, hb, decodedSlot, hform, if_neg (by decide)]
  case h_3 hform =>
    obtain ⟨hq, hk, hr, hx⟩ := whole_layout 0 0x40 (encodeLongFields n f)
    refine ⟨_, (decodeWord_long hk hr (hq.symm ▸ hseq)).trans ?_, .inl rfl⟩
    rw [hx, decodedSlot, if_pos hform]

/-- The bits of a selector's word (R128, R150). -/
theorem selectorWord_eq (q : BitVec 20) : q ++ (0 : BitVec 8) ++ nopShort ++ nopShort = q ++ ((0 : BitVec 8) ++ nopShort ++ nopShort) := by
  rw [BitVec.append_assoc' (x₃ := nopShort), BitVec.append_assoc' (x₃ := nopShort)]
  rfl

/-- The slot around an op decodes to the op. -/
theorem decodedSlot_encode {f : OpF} {n : Nat} {o : Op} (hf : f.fits = true) (hc : FormCode f.form n o f.sub.toNat) :
    decodedSlot n f = instrOfOp o f := by
  unfold decodedSlot
  split
  next hform => exact decodeLong_encode hf hform (by rwa [hform] at hc)
  next hform => exact decodeShort_encode hf hform (by rwa [formCode_short hform] at hc)

/-- The slot around an unassigned opcode decodes to it. -/
theorem decodedSlot_encode_free {f : OpF} {n : BitVec 10} (hf : f.fits = true) (hn : freeOpcode n f = true) :
    decodedSlot n.toNat f = .unassignedOpcode n f := by
  obtain ⟨hfree, hsub, hlt⟩ := freeOpcode_iff.1 hn
  unfold decodedSlot
  split
  next hform => exact decodeLong_encode_free hf hform (by simpa [assigned, hform] using hfree) hsub
  next hform =>
    rw [assigned_short hform] at hfree
    exact decodeShort_encode_free hf hform (hlt.resolve_left hform) (by simpa using hfree) hsub

theorem encode_ofOp (o : Op) (f : OpF) : encode (Instr.ofOp o f) = (opcodeOf o f).map fun n => (0 : BitVec 20) ++ encodeBody n f := by
  unfold encode; rw [op?_ofOp]

/-- A well-formed op has a word, which decodes to it. -/
theorem decodesTo_encode_ofOp {o : Op} {f : OpF} (h : opWf o f = true) :
    ∃ w, encode (Instr.ofOp o f) = some w ∧ DecodesTo w (Instr.ofOp o f) := by
  simp only [opWf, Bool.and_eq_true, Option.isSome_iff_exists] at h
  obtain ⟨⟨hf, n, hn⟩, hring⟩ := h
  have hslot : decodedSlot n f = Instr.ofOp o f := by rw [decodedSlot_encode hf (opcodeOf_eq_some_iff.1 hn), instrOfOp_tableOp hring]
  exact ⟨_, by rw [encode_ofOp, hn]; rfl, hslot ▸ decodesTo_encodeBody n f hf⟩

/-- A well-formed unassigned opcode has a word, which decodes to it. -/
theorem decodesTo_encode_free {n : BitVec 10} {f : OpF} (h : (Instr.unassignedOpcode n f).wf = true) :
    ∃ w, encode (.unassignedOpcode n f) = some w ∧ DecodesTo w (.unassignedOpcode n f) := by
  rw [wf_unassigned, Bool.and_eq_true] at h
  obtain ⟨hf, hn⟩ := h
  exact ⟨_, rfl, decodedSlot_encode_free hf hn ▸ decodesTo_encodeBody n.toNat f hf⟩

theorem encode_of_encodeSeq {i : Instr} {q : BitVec 20} (h : encodeSeq i = some q) :
    encode i = some (q ++ ((0 : BitVec 8) ++ nopShort ++ nopShort)) := by
  have hmap : encode i = (encodeSeq i).map fun q => q ++ (0 : BitVec 8) ++ nopShort ++ nopShort := by
    cases i
    case next | jump | jumpc | call | ret | loop | jumpx | exit | rfnext | callx => rfl
    all_goals cases h
  rw [hmap, h, Option.map_some, selectorWord_eq]

/-- A selector has a word, which decodes to it between two NOPs. -/
theorem decodeWord_encode_selector {i : Instr} {q : BitVec 20} (h : encodeSeq i = some q) : ∃ w, encode i = some w ∧ w.extractLsb' 108 20 = q ∧
    ∃ f g, decodeWord w = .ok ⟨.nop f, some (.nop g), i⟩ := by
  obtain ⟨hq, hk, hr, ha, hb⟩ := paired_layout q 0 nopShort nopShort
  obtain ⟨f, hf⟩ := decodeShort_nop
  refine ⟨_, encode_of_encodeSeq h, hq, f, f, (decodeWord_paired hk hr (hq.symm ▸ decodeSeq_encodeSeq h)).trans ?_⟩
  rw [ha, hb, hf]

/-- The slots of a word that decodes are well formed. -/
theorem wf_decodeWord {w : W128} {d : WordD} (h : decodeWord w = .ok d) : d.a.wf = true ∧ ∀ b, d.b = some b → b.wf = true := by
  obtain ⟨-, ⟨ha, hb⟩ | ⟨ha, hb⟩ | ⟨ha, hb⟩⟩ := decodeWord_cases h
  · rw [ha, hb]
    refine ⟨wf_decodeShort (by decide) (fun _ => rfl) _, ?_⟩
    rintro _ ⟨⟩
    exact wf_decodeShort (by decide) (fun _ => rfl) _
  · rw [ha, hb]
    exact ⟨wf_decodeLong _, by rintro _ ⟨⟩⟩
  · rw [ha, hb]
    exact ⟨wf_decodeShort (by decide) (by rintro ⟨⟩) _, by rintro _ ⟨⟩⟩

/-- Settles O33: ops and unassigned opcodes by the layouts of their forms and the opcode map read both ways, selectors by the layout of their
field; a word that decodes has its slots from the map and its field from the selector. -/
theorem encodingRoundTrip : Obligations.EncodingRoundTrip := by
  unfold Obligations.EncodingRoundTrip
  refine ⟨?_, fun i q => decodeWord_encode_selector, ?_⟩
  · rintro i hwf (hop | ⟨n, f, rfl⟩)
    · obtain ⟨⟨o, f⟩, hop⟩ := Option.isSome_iff_exists.1 hop
      obtain rfl := ofOp_of_op? hop
      exact decodesTo_encode_ofOp (wf_ofOp o f ▸ hwf)
    · exact decodesTo_encode_free hwf
  · intro w d h
    obtain ⟨ha, hb⟩ := wf_decodeWord h
    exact ⟨ha, hb, encodeSeq_decodeSeq (decodeWord_cases h).1⟩

/-- Settles O32: each word by its kind and its sequencing field, then its slots. -/
theorem decodedWords : Obligations.DecodedWords := by
  refine ⟨?_, ?_, ?_, ?_, ?_, ?_⟩
  · exact (decodeWord_paired (i := .jumpc true 2 0xFFD) rfl rfl rfl).trans rfl
  · exact (decodeWord_long (i := .exit) rfl rfl rfl).trans rfl
  · exact (decodeWord_literal (i := .next) rfl rfl rfl).trans rfl
  · exact (decodeWord_literal (i := .next) rfl rfl rfl).trans rfl
  · exact (decodeWord_literal (i := .loop 0 0xFFF) rfl rfl rfl).trans rfl
  · rfl

end Sys2Proof
end

