-- ==== Sys2Proof/Proofs/FetchAndStep.lean ====
section
/-!
SUPPORT. The slots and the sequencing field of a word, its fetch (O43), and the step that runs what stands decoded (O34).
-/
namespace Sys2Proof.Machine

variable {s : State}

/-! ### The sequencing selectors (R130, R159 to R162) -/

/-- A selector that names no register waits for none. -/
theorem waitsSeq_of_seqRegs {i : Instr} (h : seqRegs i = []) (g : Group) : waitsSeq i g = false := by
  simp [waitsSeq, h, rgMeet]

theorem runSeq_ends {i : Instr} (next : Group → Group) (h : waitsSeq i s.g = false) : runSeq i next s = wordEnds s (next s.g) := by
  simp [runSeq, h, wordEnds]

theorem runSeq_waits {i : Instr} (next : Group → Group) (h : waitsSeq i s.g = true) :
    runSeq i next s = .next { s with g := { s.g with wait := .hold } } := by
  simp [runSeq, h, holdAt]

theorem runSeq_free {i : Instr} (next : Group → Group) (h : seqRegs i = []) : runSeq i next s = wordEnds s (next s.g) :=
  runSeq_ends next (waitsSeq_of_seqRegs h s.g)

theorem exec_next : exec .next s = wordEnds s (goto (nextPc s.g) s.g) := runSeq_free (fun g => goto (nextPc g) g) rfl

theorem exec_jump (ofs : BitVec 12) : exec (.jump ofs) s = wordEnds s (goto (target s.g ofs) s.g) :=
  runSeq_free (fun g => goto (target g ofs) g) rfl

theorem exec_jumpc (neg : Bool) (k : BitVec 3) (ofs : BitVec 12) :
    exec (.jumpc neg k ofs) s = wordEnds s (goto (if xor (getK s.g k.toNat) neg then target s.g ofs else nextPc s.g) s.g) :=
  runSeq_free (fun g => goto (if getK g k.toNat != neg then target g ofs else nextPc g) g) rfl

theorem exec_exit : exec .exit s = wordEnds s { s.g with exited := true } := runSeq_free (fun g => { g with exited := true }) rfl

theorem exec_loop (n : BitVec 2) (ofs : BitVec 12) : exec (.loop n ofs) s = wordEnds s
    (if 1 < (getN s.g n.toNat).toNat then goto (target s.g ofs) (setN s.g n.toNat (getN s.g n.toNat - 1))
      else goto (nextPc s.g) (setN s.g n.toNat 0)) :=
  runSeq_free (i := .loop n ofs) (fun g => if 1 < (getN g n.toNat).toNat then goto (target g ofs) (setN g n.toNat (getN g n.toNat - 1))
    else goto (nextPc g) (setN g n.toNat 0)) rfl

theorem exec_call {ofs : BitVec 12} (h : waitsSeq (.call ofs) s.g = false) :
    exec (.call ofs) s = wordEnds s (goto (target s.g ofs) (setS s.g 61 (nextPc s.g))) :=
  runSeq_ends (fun g => goto (target g ofs) (setS g 61 (nextPc g))) h

theorem exec_ret (h : waitsSeq .ret s.g = false) : exec .ret s = wordEnds s (gotoReg (getS s.g 61) s.g) :=
  runSeq_ends (fun g => gotoReg (getS g 61) g) h

theorem exec_jumpx {r : BitVec 6} (h : waitsSeq (.jumpx r) s.g = false) :
    exec (.jumpx r) s = wordEnds s (gotoReg (getS s.g r.toNat) s.g) :=
  runSeq_ends (fun g => gotoReg (getS g r.toNat) g) h

theorem exec_callx {r : BitVec 6} (h : waitsSeq (.callx r) s.g = false) :
    exec (.callx r) s = wordEnds s (gotoReg (getS s.g r.toNat) (setS s.g 61 (nextPc s.g))) :=
  runSeq_ends (fun g => gotoReg (getS g r.toNat) (setS g 61 (nextPc g))) h

/-- A selector held back by an unretired load of its register (R130). -/
theorem exec_selector_waits {i : Instr} {ofs : BitVec 12} {r : BitVec 6} (hi : i ∈ [Instr.call ofs, .ret, .jumpx r, .callx r])
    (h : waitsSeq i s.g = true) : exec i s = .next { s with g := { s.g with wait := .hold } } := by
  simp only [List.mem_cons, List.not_mem_nil, or_false] at hi
  obtain rfl | rfl | rfl | rfl := hi
  · rw [exec, execCall, runSeq_waits _ h]
  · rw [exec, execRet, runSeq_waits _ h]
  · rw [exec, execJumpx, runSeq_waits _ h]
  · rw [exec, execCallx, runSeq_waits _ h]

/-! ### The slots of a word (R26, R140) -/

theorem retireWord_user {g : Group} (n : Nat) (h : g.hmode = false) :
    retireWord n g = { g with clkr := g.clkr + 1, pos := .fetch, wait := .none, since := n } := by simp [retireWord, h]

theorem retireWord_handler {g : Group} (n : Nat) (h : g.hmode = true) :
    retireWord n g = { g with pos := .fetch, wait := .none, since := n } := by simp [retireWord, h]

theorem nextSlot_pair {g : Group} {d : WordD} (hp : g.pos = .a) (hd : g.dec = some d) (hb : d.b ≠ none) :
    nextSlot g = { g with pos := .b, wait := .none } := by
  simp [nextSlot, nextPos, hp, hd, Option.isSome_iff_ne_none, hb]

theorem nextSlot_single {g : Group} {d : WordD} (hp : g.pos = .a) (hd : g.dec = some d) (hb : d.b = none) :
    nextSlot g = { g with pos := .seq, wait := .none } := by
  simp [nextSlot, nextPos, hp, hd, hb]

theorem nextSlot_b {g : Group} (hp : g.pos = .b) : nextSlot g = { g with pos := .seq, wait := .none } := by
  simp [nextSlot, nextPos, hp]

/-! ### The fetch -/

/-- A field that counting a corrected error keeps is kept by a read. -/
theorem eccRead_kept {α : Type} {field : State → α} (h : ∀ l u, field (countEcc l u) = field u) (as : List Loc) (s : State) :
    field (eccRead as s) = field s := by
  have counted (ls : List (Home × Nat)) (u : State) : field (ls.foldl (fun u l => countEcc l u) u) = field u := by
    induction ls generalizing u with
    | nil => rfl
    | cons l ls ih => exact (ih (countEcc l u)).trans (h l u)
  unfold eccRead
  split
  · rfl
  · exact counted _ s

@[simp] theorem eccRead_g (as : List Loc) : (eccRead as s).g = s.g := eccRead_kept (fun _ _ => rfl) as s
@[simp] theorem eccRead_hbm (as : List Loc) : (eccRead as s).hbm = s.hbm := eccRead_kept (fun _ _ => rfl) as s

@[simp] theorem satNow_pc (g : Group) : (satNow g).pc = g.pc := by unfold satNow; split <;> rfl
@[simp] theorem satNow_slotB (g : Group) : (satNow g).slotB = g.slotB := by unfold satNow; split <;> rfl
@[simp] theorem satNow_park (g : Group) : (satNow g).park = g.park := by unfold satNow; split <;> rfl
@[simp] theorem satNow_accBusy (g : Group) : accBusy (satNow g) = accBusy g := by unfold satNow; split <;> rfl
@[simp] theorem satNow_waitsFrame (g : Group) : waitsFrame (satNow g) = waitsFrame g := by unfold satNow; split <;> rfl

/-- The state in which a fetch looks for its word: a SAT that waited stands in s60 (R107). -/
def satState (s : State) : State := { s with g := satNow s.g }

/-- The state in which a fetched word is checked: the corrected errors of its bytes are counted (R299). -/
def readWord (pa : Nat) (s : State) : State := eccRead (wordLocs pa) (satState s)

theorem readWord_g (pa : Nat) (s : State) : (readWord pa s).g = satNow s.g := eccRead_g (s := satState s) _

theorem readWord_wordAt (pa : Nat) (s : State) : wordAt (readWord pa s).hbm pa = wordAt s.hbm pa :=
  congrArg (wordAt · pa) (eccRead_hbm (s := satState s) _)

/-- A SAT that waited changes no translation of the fetch. -/
theorem fetchXlat_satState (s : State) : fetchXlat { s with g := satNow s.g } = fetchXlat s := by
  show xlat _ _ _ (satNow s.g).pc 16 = _
  rw [satNow_pc]; rfl

theorem fetchTrap_takes {w : W128} {i : TrapI} (h : waitsFrame s.g = false) : fetchTrap w i s = takeTrap s.g.slotB w i s := by
  simp [fetchTrap, h]

/-- An ASAVE or ALOAD holds the fetch back (R211). -/
theorem execWordFetch_busy (h : accBusy s.g = true) : execWordFetch s = .next { s with g := { satNow s.g with wait := .acc } } := by
  simp [execWordFetch, h]

/-- A malformed PC raises ADDRESS_FORM (R161). -/
theorem execWordFetch_malformed (hb : accBusy s.g = false) (hpc : wellFormed s.g.pc = false) (hw : waitsFrame s.g = false) :
    execWordFetch s = .next (takeTrap s.g.slotB 0 (.at_ 9 0 s.g.pc) (satState s)) := by
  simp [execWordFetch, hb, hpc, fetchTrap_takes, hw, satState]

/-- A group that may fetch: no accumulator transfer of it is under way, and its PC has the form of an address (R161, R211). -/
def Fetches (s : State) : Prop := accBusy s.g = false ∧ wellFormed s.g.pc = true

/-- What a fetch does with the word that it has read. -/
def checkedWord (pa : Nat) (s : State) : Out :=
  match checkWord (wordAt s.hbm pa) with
  | .error i => .next (fetchTrap (wordAt s.hbm pa) i s)
  | .ok d => .next { s with g := gotWord (wordAt s.hbm pa) d s.g }

section Fetched
variable {pa : Nat}

/-- A fetch that does not translate parks the group (R296). -/
theorem execWordFetch_fault (h : Fetches s) {level : Nat} {range : Option Nat} {reason : Nat} (hx : fetchXlat s = .fault level range reason) :
    execWordFetch s = .next (parkAt (parkOf 7 3 s.g.pc level range reason) (satState s)) := by
  rw [← fetchXlat_satState] at hx
  simp [execWordFetch, h.1, h.2, hx, satState]

/-- An uncorrectable error in the word ends the launch (R299). -/
theorem execWordFetch_poisoned (h : Fetches s) (hx : fetchXlat s = .ok pa) (hp : poisoned s (wordLocs pa) = true) :
    execWordFetch s = .next (endLaunch s.l.id (trapCode 19) (satState s)) := by
  rw [← fetchXlat_satState] at hx
  have hpoison : poisoned { s with g := satNow s.g } (wordLocs pa) = true := hp
  simp [execWordFetch, h.1, h.2, hx, hpoison, satState]

/-- Else the word is read and checked. -/
theorem execWordFetch_reads (h : Fetches s) (hx : fetchXlat s = .ok pa) (hp : poisoned s (wordLocs pa) = false) :
    execWordFetch s = checkedWord pa (readWord pa s) := by
  rw [← fetchXlat_satState] at hx
  have hclean : poisoned { s with g := satNow s.g } (wordLocs pa) = false := hp
  simp only [execWordFetch, satNow_accBusy, satNow_pc, h.1, h.2, hx, hclean, Bool.not_true, Bool.false_eq_true, if_false]
  rfl

/-- A word that fails a check raises its class (R139). -/
theorem execWordFetch_illegal (h : Fetches s) (hx : fetchXlat s = .ok pa) (hp : poisoned s (wordLocs pa) = false)
    {i : TrapI} (hc : checkWord (wordAt s.hbm pa) = .error i) (hw : waitsFrame s.g = false) :
    execWordFetch s = .next (takeTrap (readWord pa s).g.slotB (wordAt s.hbm pa) i (readWord pa s)) := by
  have hread : waitsFrame (readWord pa s).g = false := by rw [readWord_g, satNow_waitsFrame, hw]
  rw [execWordFetch_reads h hx hp, checkedWord, readWord_wordAt, hc, ← fetchTrap_takes hread]

/-- A word that passes the checks stands decoded where the PC names its slot (R140). -/
theorem execWordFetch_legal (h : Fetches s) (hx : fetchXlat s = .ok pa) (hp : poisoned s (wordLocs pa) = false)
    {d : WordD} (hc : checkWord (wordAt s.hbm pa) = .ok d) :
    execWordFetch s = .next { readWord pa s with g := gotWord (wordAt s.hbm pa) d (readWord pa s).g } := by
  rw [execWordFetch_reads h hx hp, checkedWord, readWord_wordAt, hc]

end Fetched

/-! ### The word checks (R139) -/

theorem checkWord_ok {w : W128} {d : WordD} (h : decodeWord w = .ok d) (hp : pairIllegal d = false) : checkWord w = .ok d := by
  simp [checkWord, h, hp]

theorem checkWord_pair {w : W128} {d : WordD} (h : decodeWord w = .ok d) (hp : pairIllegal d = true) : checkWord w = .error (.plain 3) := by
  simp [checkWord, h, hp]

theorem checkWord_error {w : W128} {e : WordErr} (h : decodeWord w = .error e) : checkWord w = .error (.plain (errClass e)) := by
  simp [checkWord, h]

theorem startPos_eq (b : Bool) (d : WordD) : startPos b d = if b = false then .a else if d.b = none then .seq else .b := by
  unfold startPos
  cases b
  · rfl
  · cases d.b <;> rfl

/-- Settles O43: the selectors by their one runner, the fetch by what can end it, in the order of its checks. -/
theorem sequencingAndFetch : Obligations.SequencingAndFetch := by
  unfold Obligations.SequencingAndFetch
  refine ⟨fun n g => ⟨retireWord_user n, retireWord_handler n, fun d => nextSlot_pair, fun d => nextSlot_single, nextSlot_b⟩, ?_, ?_⟩
  case refine_1 =>
    intro s ofs r k n neg go w target reg link c on
    refine ⟨exec_next, exec_jump ofs, exec_jumpc neg k ofs, exec_call, exec_ret, ?again, ?done, exec_jumpx, exec_callx, exec_exit, ?waits⟩
    case again => intro hc; rw [exec_loop, if_pos hc]; rfl
    case done => intro hc; rw [exec_loop, if_neg (Nat.not_lt.2 hc)]; rfl
    case waits => intro i hi hw; exact exec_selector_waits hi (Bool.eq_true_of_not_eq_false hw)
  case refine_2 =>
    intro s pc ready now raised slot
    refine ⟨?read, fun pa h hx hp => execWordFetch_poisoned h hx hp, ?fault, fun hb hpc hw => execWordFetch_malformed hb hpc hw,
      execWordFetch_busy⟩
    case read =>
      intro pa h hx hp u w
      refine ⟨?legal, fun d hd hpair hw => ?pair, fun hd hw => ?word, fun hd hw => ?seq⟩
      case legal =>
        intro d hd hpair
        have hslot : slot d = startPos u.g.slotB d := by
          rw [startPos_eq, show u.g = satNow s.g from readWord_g pa s, satNow_slotB]
        rw [hslot]
        exact execWordFetch_legal h hx hp (checkWord_ok hd hpair)
      case pair => exact execWordFetch_illegal h hx hp (checkWord_pair hd hpair) hw
      case word | seq => exact execWordFetch_illegal h hx hp (checkWord_error hd) hw
    case fault =>
      intro level range reason h hx
      exact ⟨_, execWordFetch_fault h hx, rfl, rfl, rfl, rfl, rfl, rfl⟩

/-! ### A step -/

theorem step_of_agenda {t : Turn} {r : List Turn} (h : s.agenda = t :: r) :
    step s = doTurn t { s with tick := s.tick + tickStride, agenda := r } := by
  simp only [step, h]

/-- The group in focus acts at its turn (R18, R20, R25). -/
def Ready (s : State) : Prop :=
  inFocus s ∧ mayIssue s.p s.l s.t s.g = true ∧ quotaHolds s s.g.id = false ∧ s.g.park = none

theorem groupTurn_ready (h : Ready s) : groupTurn s.g.id s = groupAct s := by
  obtain ⟨hf, hmay, hquota, -⟩ := h
  have hfoc := focus_here hf
  obtain ⟨-, -, ht, -, hl, -, hp⟩ := hf
  simp [groupTurn, hfoc, ht, hl, hp, hmay, hquota]

theorem Ready.setTurn (h : Ready s) (n : Nat) (r : List Turn) : Ready { s with tick := n, agenda := r } := h

theorem step_ready {r : List Turn} (ha : s.agenda = .group s.g.id :: r) (h : Ready s) :
    step s = groupAct { s with tick := s.tick + tickStride, agenda := r } :=
  (step_of_agenda ha).trans (groupTurn_ready (h.setTurn _ r))

theorem runSlot_dec {d : WordD} (h : s.g.dec = some d) : runSlot s = exec (slotInstr s.g.pos d) s := by
  simp [runSlot, h]

theorem groupAct_slot (hp : s.g.park = none) (hpos : s.g.pos ≠ .fetch) : groupAct s = runSlot s := by
  simp [groupAct, hp, hpos]

theorem groupAct_fetch {u : State} (hp : s.g.park = none) (hpos : s.g.pos = .fetch) (h : exec .wordFetch s = .next u) :
    groupAct s = afterFetch u := by
  simp [groupAct, hp, hpos, h]

theorem afterFetch_slot (hpos : s.g.pos ≠ .fetch) (hw : s.g.wait = .none) (hp : s.g.park = none) : afterFetch s = runSlot s := by
  simp [afterFetch, hpos, hw, hp]

theorem startPos_ne_fetch (b : Bool) (d : WordD) : startPos b d ≠ .fetch := by
  rw [startPos_eq]; split_ifs <;> decide

/-- Settles O34: the turn taken off the agenda is the group's, which acts where it stands; after a fetch that brings a word its slot runs too. -/
theorem stepRunsDecoded : Obligations.StepRunsDecoded := by
  unfold Obligations.StepRunsDecoded
  intro s k r u ready
  refine ⟨?_, ?_, ?_⟩
  · rintro d pa ha ⟨hf, rfl, hready⟩ hpos hb hwf hx hpo hc v
    obtain ⟨hmay, hquota, hpark⟩ := hready
    have hv : v.g = satNow s.g := readWord_g pa u
    have hvpark : v.g.park = none := by rw [hv, satNow_park, hpark]
    have hslot : startPos v.g.slotB d = startPos s.g.slotB d := by rw [hv, satNow_slotB]
    calc step s = groupAct u := step_ready ha ⟨hf, hmay, hquota, hpark⟩
      _ = afterFetch { v with g := gotWord (wordAt s.hbm pa) d v.g } :=
        groupAct_fetch (s := u) hpark hpos (execWordFetch_legal (s := u) ⟨hb, hwf⟩ hx hpo hc)
      _ = runSlot { v with g := gotWord (wordAt s.hbm pa) d v.g } := afterFetch_slot (startPos_ne_fetch _ _) rfl hvpark
      _ = exec (slotInstr (startPos v.g.slotB d) d) { v with g := gotWord (wordAt s.hbm pa) d v.g } := runSlot_dec rfl
      _ = exec (slotInstr (startPos s.g.slotB d) d) { v with g := gotWord (wordAt s.hbm pa) d v.g } := by rw [hslot]
  · rintro d ha ⟨hf, rfl, hready⟩ hpos hd
    calc step s = groupAct u := step_ready ha ⟨hf, hready⟩
      _ = runSlot u := groupAct_slot (s := u) hready.2.2 hpos
      _ = exec (slotInstr s.g.pos d) u := runSlot_dec (s := u) hd
  · intro i ha hi
    exact (step_of_agenda ha).trans (if_pos hi)

end Sys2Proof.Machine
end

