-- ==== Sys2Proof/Proofs/Exceptions.lean ====
section
/-!
SUPPORT. Taking a precise class (R298, R300, R301): where each field of a frame lies among its bytes, what the handler area reads as once the
frame is written, and how the group enters its handler (O41).
-/
namespace Sys2Proof.Machine

/-! ### Fields of a byte string -/

/-- An n-byte little-endian number stands at an offset of a byte string. -/
def HasField (bs : List Byte) (a n x : Nat) : Prop := ∃ pre post, bs = pre ++ (leBytes n x ++ post) ∧ pre.length = a

section Fields
variable {bs : List Byte} {a n x : Nat}

theorem HasField.self (n x : Nat) : HasField (leBytes n x) 0 n x := ⟨[], [], by simp, rfl⟩

theorem HasField.before (h : HasField bs a n x) (pre : List Byte) : HasField (pre ++ bs) (pre.length + a) n x := by
  obtain ⟨l, r, rfl, rfl⟩ := h
  exact ⟨pre ++ l, r, (List.append_assoc ..).symm, List.length_append⟩

theorem HasField.after (h : HasField bs a n x) (post : List Byte) : HasField (bs ++ post) a n x := by
  obtain ⟨l, r, rfl, hl⟩ := h
  exact ⟨l, r ++ post, by simp only [List.append_assoc], hl⟩

theorem length_flatMap_range {f : Nat → List Byte} {w : Nat} (hw : ∀ j, (f j).length = w) (k : Nat) : ((List.range k).flatMap f).length = w * k := by
  simp [List.length_flatMap, hw, mul_comm]

/-- A field of one of k parts of w bytes each. -/
theorem HasField.flatMap {f : Nat → List Byte} {w j : Nat} (hw : ∀ j, (f j).length = w) (h : HasField (f j) a n x) :
    ∀ {k : Nat}, j < k → HasField ((List.range k).flatMap f) (w * j + a) n x
  | k + 1, hj => by
    have hsplit : (List.range (k + 1)).flatMap f = (List.range k).flatMap f ++ f k := by simp [List.range_succ]
    rw [hsplit]
    rcases Nat.lt_succ_iff_lt_or_eq.1 hj with hlt | rfl
    · exact (h.flatMap hw hlt).after _
    · rw [← length_flatMap_range hw]
      exact h.before _

/-- A field of one of the parts of a byte string, whose lengths are known. -/
theorem HasField.flatten {b : Nat} : ∀ {cs : List (List Byte)} {k : Nat} {c : List Byte}, cs[k]? = some c → HasField c a n x →
    ((cs.map List.length).take k).sum + a = b → HasField cs.flatten b n x
  | d :: cs, 0, c, hc, h, hb => by
    cases hc
    subst hb
    simpa using h.after cs.flatten
  | d :: cs, k + 1, c, hc, h, hb => by
    have hrest := (HasField.flatten (cs := cs) hc h rfl).before d
    subst hb
    simpa [add_assoc] using hrest

/-- Bytes written one after another are written together. -/
theorem memPutBytes_append (ys : List Byte) : ∀ (xs : List Byte) (m : Mem) (a : Nat),
    memPutBytes m a (xs ++ ys) = memPutBytes (memPutBytes m a xs) (a + xs.length) ys
  | [], _, _ => rfl
  | x :: xs, m, a => by
    rw [List.cons_append, memPutBytes, memPutBytes_append ys xs, memPutBytes, List.length_cons, Nat.add_right_comm a 1, add_assoc]

/-- A field of a byte string, read from a memory where the string was written. -/
theorem HasField.memNat {m : Mem} (h : HasField bs a n x) (hm : memWf m = true) : memNat (memPutBytes m 0 bs) a n = x % 2 ^ (8 * n) := by
  obtain ⟨pre, post, rfl, rfl⟩ := h
  have hbelow : ∀ j, j < n → memGet (memPutBytes m 0 (pre ++ (leBytes n x ++ post))) (pre.length + j) =
      memGet (memPutNat (memPutBytes m 0 pre) pre.length n x) (pre.length + j) := fun j hj => by
    rw [memPutBytes_append, memPutBytes_append, zero_add, leBytes_length]
    exact memGet_putBytes_other _ _ (.inl (by omega))
  rw [memNat_congr _ _ _ _ hbelow, memNat_putNat (memWf_putBytes _ _ hm)]

/-- A field that its bytes hold in full. -/
theorem HasField.memNat_eq {m : Mem} (h : HasField bs a n x) (hm : memWf m = true) (hx : x < 2 ^ (8 * n)) :
    Machine.memNat (memPutBytes m 0 bs) a n = x := by
  rw [h.memNat hm, Nat.mod_eq_of_lt hx]

end Fields

/-- A number's bytes, in two parts. -/
theorem leBytes_add (n k x : Nat) : leBytes (n + k) x = leBytes n x ++ leBytes k (x / 256 ^ n) := by
  induction n generalizing x with
  | zero => simp [leBytes]
  | succ n ih => rw [Nat.add_right_comm, leBytes, ih, leBytes, List.cons_append, Nat.div_div_eq_div_mul, pow_succ']

/-- Zero bytes. -/
theorem hasField_zeros {j n : Nat} (h : j < n) : HasField (leBytes n 0) j 1 0 := by
  have hsplit : n = j + (1 + (n - j - 1)) := by omega
  rw [hsplit, leBytes_add, leBytes_add]
  simp only [Nat.zero_div]
  exact ⟨_, _, rfl, leBytes_length ..⟩

theorem memNat_one (m : Mem) (a : Nat) : memNat m a 1 = (memGet m a).toNat := by simp [memNat, memBytes, leNat]

/-! ### The frame -/

section Frame
variable {g : Group} {b : Bool} {w : W128} {i : TrapI}

/-- The saved scalars. -/
def frameScalars (g : Group) : List Byte := (List.range 8).flatMap fun j => leBytes 8 (getS g j).toNat

/-- A saved vector register. -/
def frameLanes (g : Group) (j : Nat) : List Byte := (List.range 32).flatMap fun n => leBytes 4 (getLane g j n).toNat

/-- The parts of a frame, in their order (R301). -/
def frameParts (g : Group) (b : Bool) (w : W128) (i : TrapI) : List (List Byte) :=
  [frameScalars g, leBytes 8 (exm g).toNat, leBytes 8 (g.pc.toNat / 16 * 16 + (if b then 1 else 0)), leBytes 4 (getP g 0).toNat,
    leBytes 4 (getP g 1).toNat, leBytes 1 i.cls, leBytes 1 i.field, leBytes 2 i.code, leBytes 1 i.lane ++ leBytes 3 0, leBytes 16 w.toNat,
    leBytes 8 i.faddr.toNat, leBytes 8 i.fextra.toNat, leBytes 128 0, (List.range 4).flatMap (frameLanes g)]

theorem frameBytes_eq : frameBytes g b w i = (frameParts g b w i).flatten := by
  simp only [frameBytes, frameParts, List.flatten_cons, List.flatten_nil, List.append_nil, List.append_assoc]
  rfl

@[simp] theorem frameScalars_length : (frameScalars g).length = 64 := length_flatMap_range (fun _ => leBytes_length ..) 8

@[simp] theorem frameLanes_length (j : Nat) : (frameLanes g j).length = 128 := length_flatMap_range (fun _ => leBytes_length ..) 32

theorem frameParts_lengths : (frameParts g b w i).map List.length = [64, 8, 8, 4, 4, 1, 1, 2, 4, 16, 8, 8, 128, 512] := by
  simp [frameParts, length_flatMap_range frameLanes_length]

theorem frameBytes_length : (frameBytes g b w i).length = 0x300 := by
  rw [frameBytes_eq, List.length_flatten, frameParts_lengths]
  rfl

/-- A field of a part of the frame. -/
theorem hasField_frame {k a n x c : Nat} {p : List Byte} (hp : (frameParts g b w i)[k]? = some p) (h : HasField p a n x)
    (hc : ([64, 8, 8, 4, 4, 1, 1, 2, 4, 16, 8, 8, 128, 512].take k).sum + a = c) : HasField (frameBytes g b w i) c n x := by
  rw [frameBytes_eq]
  refine h.flatten hp ?_
  rw [frameParts_lengths]
  exact hc

/-- A field of a frame, read from the handler area where the frame was written. -/
theorem memNat_frame {m : Mem} (hm : memWf m = true) {k a n x c : Nat} {p : List Byte} (hp : (frameParts g b w i)[k]? = some p)
    (h : HasField p a n x) (hc : ([64, 8, 8, 4, 4, 1, 1, 2, 4, 16, 8, 8, 128, 512].take k).sum + a = c) (hx : x < 2 ^ (8 * n)) :
    memNat (memPutBytes m 0 (frameBytes g b w i)) c n = x :=
  (hasField_frame hp h hc).memNat_eq hm hx

theorem hasField_frameScalars {j : Nat} (h : j < 8) : HasField (frameScalars g) (8 * j) 8 (getS g j).toNat :=
  (HasField.self 8 _).flatMap (fun _ => leBytes_length ..) h

theorem hasField_frameLanes {j n : Nat} (hj : j < 4) (hn : n < 32) :
    HasField ((List.range 4).flatMap (frameLanes g)) (128 * j + 4 * n) 4 (getLane g j n).toNat :=
  ((HasField.self 4 _).flatMap (f := fun n => leBytes 4 (getLane g j n).toNat) (fun _ => leBytes_length ..) hn).flatMap frameLanes_length hj

/-- The lane, with the zero bytes behind it. -/
theorem hasField_lane {x : Nat} (h : x < 32) : HasField (leBytes 1 x ++ leBytes 3 0) 0 4 x := by
  have hsplit : leBytes 4 x = leBytes 1 x ++ leBytes 3 0 := by
    rw [leBytes_add 1 3, Nat.div_eq_of_lt (by omega)]
  rw [← hsplit]
  exact .self 4 x

/-- A frame holds nothing of its group but these registers. -/
theorem frameBytes_congr {g' : Group} (hs : frameScalars g' = frameScalars g) (hexm : exm g' = exm g) (hpc : g'.pc = g.pc) (hp : g'.p = g.p)
    (hv : g'.v = g.v) : frameBytes g' b w i = frameBytes g b w i := by
  have hlanes : frameLanes g' = frameLanes g := funext fun j => by simp only [frameLanes, getLane, getV, hv]
  simp only [frameBytes_eq, frameParts, getP, hs, hexm, hpc, hp, hlanes]

/-- The saved PC is a whole number of words with a slot bit. -/
theorem savedPc_lt (pc : W64) (b : Bool) : pc.toNat / 16 * 16 + (if b then 1 else 0) < 2 ^ (8 * 8) := by
  have := pc.isLt
  split <;> omega

end Frame

/-! ### What a class leaves before it is taken -/

/-- What MAP_INTEGRITY leaves in its group (R48, R63). -/
def rerunLeft (i : TrapI) (g : Group) : Group := if i.cls = 7 then raise flagRERUN { g with residue := 0 } else g

section Rerun
variable (i : TrapI) (g : Group)

@[simp] theorem rerunLeft_id : (rerunLeft i g).id = g.id := by unfold rerunLeft; split <;> rfl
@[simp] theorem rerunLeft_hmode : (rerunLeft i g).hmode = g.hmode := by unfold rerunLeft; split <;> rfl
@[simp] theorem rerunLeft_harea : (rerunLeft i g).harea = g.harea := by unfold rerunLeft; split <;> rfl
@[simp] theorem rerunLeft_pc : (rerunLeft i g).pc = g.pc := by unfold rerunLeft; split <;> rfl
@[simp] theorem rerunLeft_p : (rerunLeft i g).p = g.p := by unfold rerunLeft; split <;> rfl
@[simp] theorem rerunLeft_v : (rerunLeft i g).v = g.v := by unfold rerunLeft; split <;> rfl

@[simp] theorem slotRound_rerunLeft (s : State) : slotRound { s with g := rerunLeft i s.g } = slotRound s := by unfold rerunLeft; split <;> rfl

theorem rerunLeft_s {j : Nat} (h : j ≠ 60) : (rerunLeft i g).s[j]! = g.s[j]! := by
  unfold rerunLeft
  split
  · exact getElem!_set!_ne _ _ h
  · rfl

theorem frameBytes_rerunLeft (r : Nat) (b : Bool) (w : W128) : frameBytes { rerunLeft i g with trapRound := r } b w i = frameBytes g b w i := by
  refine frameBytes_congr (List.flatMap_congr fun j hj => ?_) (congrArg (BitVec.setWidth 32) (rerunLeft_s i g (by decide)))
    (rerunLeft_pc i g) (rerunLeft_p i g) (rerunLeft_v i g)
  have hlt : j < 8 := List.mem_range.1 hj
  simp only [getS, Nat.mod_eq_of_lt (show j < 64 by omega), rerunLeft_s i g (show j ≠ 60 by omega)]

end Rerun

/-! ### Taking a class -/

section Take
variable {i : TrapI} {s : State}

/-- A precise class whose frame waits for no load. -/
theorem trapAt_eq_takeTrap (h : waitsFrame s.g = false ∨ s.g.hmode = true) :
    trapAt i s = takeTrap (s.g.pos = .b) s.g.word i { s with g := rerunLeft i s.g } := by
  have hgo : (waitsFrame s.g && !s.g.hmode) = false := by rcases h with h | h <;> simp [h]
  rw [trapAt, hgo, if_neg (by decide), rerunLeft]
  split <;> rfl

/-- In handler mode the launch ends with DOUBLE_FAULT. -/
theorem trapAt_handler (h : s.g.hmode = true) :
    trapAt i s = endLaunch s.l.id (BitVec.ofInt 64 (-84)) { s with g := rerunLeft i s.g } := by
  rw [trapAt_eq_takeTrap (.inr h), takeTrap_double (by simpa using h)]
  rfl

/-- The group of a class that is taken outside handler mode (R300). -/
def trapped (i : TrapI) (s : State) : Group :=
  enterHandler s.l s.p.regs.vecbase (s.g.pos = .b) s.g.word i { rerunLeft i s.g with trapRound := slotRound s }

theorem trapAt_user (h : s.g.hmode = false) (hw : waitsFrame s.g = false) :
    trapAt i s = { settled (frameLocs s.g.id) { s with g := rerunLeft i s.g } with g := trapped i s } := by
  rw [trapAt_eq_takeTrap (.inl hw), takeTrap_enter (by simpa using h), slotRound_rerunLeft]
  simp only [rerunLeft_id, trapped]

/-- No record holds an older value of bytes that have been settled. -/
theorem settled_recs (as : List Loc) (s : State) : ∀ w ∈ (settled as s).recs, ∀ o ∈ w.old, o.1 ∉ as := by
  have hsettle : ∀ u : State, ∀ w ∈ (settle as u).recs, ∀ o ∈ w.old, o.1 ∉ as := by
    intro u w hw o ho
    unfold settle at hw
    split at hw
    · next h => rw [List.isEmpty_iff.1 h] at hw; cases hw
    · obtain ⟨r, -, rfl⟩ := List.mem_map.1 hw
      simpa using (List.mem_filter.1 ho).2
  exact hsettle _

/-- The offset of the handler that the image names for a class. -/
def handlerOffset (l : Launch) (cls : Nat) : Option Nat :=
  if cls = 4 then l.kern.hIllegal else if cls = 5 then l.kern.hShape else if cls = 6 then l.kern.hRefine else none

theorem userHandler_eq (l : Launch) (cls : Nat) : userHandler l cls = (handlerOffset l cls).map fun o => l.code + BitVec.ofNat 64 o := by
  unfold userHandler handlerOffset
  split
  · rfl
  · rfl
  · rfl
  · next h4 h5 h6 => rw [if_neg h4, if_neg h5, if_neg h6]

/-- The three scalars that entering a handler writes keep all bits of what they are given. -/
theorem setS_entry (g : Group) (x : W64) :
    setS (setS (setS g 62 0xFFFFFFFF) 0 0x100000000) 1 x = { g with s := ((g.s.set! 62 0xFFFFFFFF).set! 0 0x100000000).set! 1 x } := by
  have hexm : keptS (62 % 64) 0xFFFFFFFF = 0xFFFFFFFF := by decide
  rw [setS_unwired _ (by decide), setS_unwired _ (by decide), setS_unwired _ (by decide), hexm]
  rfl

/-- The group of a taken class, field by field. -/
theorem trapped_eq : trapped i s = { rerunLeft i s.g with
    harea := memPutBytes s.g.harea 0 (frameBytes s.g (s.g.pos = .b) s.g.word i), hmode := true, vec := (handlerOffset s.l i.cls).isNone
    pc := ((handlerOffset s.l i.cls).map fun o => s.l.code + BitVec.ofNat 64 o).getD s.p.regs.vecbase, slotB := false, pos := .fetch
    dec := none, wait := .none, park := none, trapRound := slotRound s, cls := i.cls
    s := (((rerunLeft i s.g).s.set! 62 0xFFFFFFFF).set! 0 0x100000000).set! 1 (BitVec.ofNat 64 i.cls) } := by
  rw [trapped, enterHandler, ← frameBytes_rerunLeft i s.g (slotRound s)]
  simp only [setS_entry, userHandler_eq, Option.isNone_map, rerunLeft_harea]

theorem trapped_harea : (trapped i s).harea = memPutBytes s.g.harea 0 (frameBytes s.g (s.g.pos = .b) s.g.word i) := by rw [trapped_eq]

/-- A TRAP whose code fits raises class 13 with it (R177). -/
theorem exec_trap {f : OpF} (h : issues .trap f s = true) (hf : isImm f.a = false ∨ (immS f).toNat < 2 ^ 16) :
    exec (.trap f) s = .next (trapAt ⟨13, 0, (intS s.g f f.a).toNat % 2 ^ 16, 0, 0, 0⟩ s) := by
  have hcode : (!isImm f.a || decide ((immS f).toNat < 2 ^ 16)) = true := by simpa using hf
  refine runG_trap h ?_
  rw [hcode]
  rfl

/-- BKPT raises class 14 (R177). -/
theorem exec_bkpt {f : OpF} (h : issues .bkpt f s = true) : exec (.bkpt f) s = .next (trapAt ⟨14, 0, 0, 0, 0, 0⟩ s) := runG_trap h rfl

end Take

/-! ### The statement -/

/-- Settles O41: the frame is read back field by field, and TRAP and BKPT raise their classes as every op does. -/
theorem exceptions : Obligations.Exceptions := by
  unfold Obligations.Exceptions
  intro f i s code rerun taken user legal doubled
  have htaken : ∀ i : TrapI, user → i.cls < 2 ^ 8 → i.field < 2 ^ 8 → i.code < 2 ^ 16 → i.lane < 32 → taken (.next (trapAt i s)) i := by
    rintro i ⟨hm, hw, hwf⟩ hcls hfield hcode hlane
    refine ⟨_, congrArg Host.Outcome.next (trapAt_user hm hw), ?kept, settled_recs _ _, ?_⟩
    case kept =>
      obtain ⟨rs, ts, hs⟩ := settled_eq (s := { s with g := rerunLeft i s.g }) (frameLocs s.g.id)
      rw [hs]
    dsimp only
    rw [trapped_harea]
    refine ⟨?scalars, ?exm, ?pc, ?p0, ?p1, ?cls, ?field, ?code, ?lane, ?word, ?faddr, ?fextra, ?zeros, ?lanes, ?rest, ?group⟩
    case scalars => exact fun j hj => memNat_frame hwf (k := 0) rfl (hasField_frameScalars hj) (zero_add _) (getS s.g j).isLt
    case exm => exact memNat_frame hwf (k := 1) rfl (.self ..) rfl ((exm s.g).isLt.trans (by decide))
    case pc =>
      refine (memNat_frame hwf (k := 2) rfl (.self ..) rfl (savedPc_lt ..)).trans ?_
      simp only [decide_eq_true_eq]
    case p0 => exact memNat_frame hwf (k := 3) rfl (.self ..) rfl (getP s.g 0).isLt
    case p1 => exact memNat_frame hwf (k := 4) rfl (.self ..) rfl (getP s.g 1).isLt
    case cls => exact memNat_frame hwf (k := 5) rfl (.self ..) rfl hcls
    case field => exact memNat_frame hwf (k := 6) rfl (.self ..) rfl hfield
    case code => exact memNat_frame hwf (k := 7) rfl (.self ..) rfl hcode
    case lane => exact memNat_frame hwf (k := 8) rfl (hasField_lane hlane) rfl (hlane.trans (by decide))
    case word => exact memNat_frame hwf (k := 9) rfl (.self ..) rfl s.g.word.isLt
    case faddr => exact memNat_frame hwf (k := 10) rfl (.self ..) rfl i.faddr.isLt
    case fextra => exact memNat_frame hwf (k := 11) rfl (.self ..) rfl i.fextra.isLt
    case zeros =>
      intro a hlo hhi
      obtain ⟨j, rfl⟩ := Nat.exists_eq_add_of_le hlo
      have hj : j < 128 := by omega
      rw [← BitVec.toNat_inj, ← memNat_one]
      exact memNat_frame hwf (k := 12) rfl (hasField_zeros hj) rfl (by decide)
    case lanes =>
      intro j n hj hn
      exact memNat_frame hwf (k := 13) rfl (hasField_frameLanes hj hn) (add_assoc ..).symm (getLane s.g j n).isLt
    case rest => exact fun a ha => memGet_putBytes_other _ _ (.inr (by rw [frameBytes_length, zero_add]; exact ha))
    case group => rw [trapped_eq]; simp only [Option.isNone_map]; rfl
  have hdouble : ∀ i : TrapI, i.cls ≠ 7 → s.g.hmode = true → Host.Outcome.next (trapAt i s) = doubled := fun i hi hm => by
    rw [trapAt_handler hm, rerunLeft, if_neg hi]
  refine ⟨htaken i, fun hm hw => trapAt_waits hw hm, fun hm => trapAt_handler hm, ?_, ?_, ?_, ?_⟩
  · intro hi hl hu
    rw [exec_trap hi hl]
    exact htaken _ hu (by simp) (by simp) (Nat.mod_lt _ (by simp)) (by simp)
  · intro hi hu
    rw [exec_bkpt hi]
    exact htaken _ hu (by simp) (by simp) (by simp) (by simp)
  · exact fun hi hl hm => (exec_trap hi hl).trans (hdouble _ (by simp) hm)
  · exact fun hi hm => (exec_bkpt hi).trans (hdouble _ (by simp) hm)

end Sys2Proof.Machine
end

