-- ==== Sys2Proof/Proofs/ScalarMoves.lean ====
section
/-!
SUPPORT. The scalar ops whose result is a word made of their operands' bits: moves, logic, shifts and the rotate (O1); which source fields make a
scalar op illegal.
-/
namespace Sys2Proof.Machine

section Legal
variable {l : Launch} {o : Op} {f : OpF}

/-- The sources that an op takes where its fields are legal (R133, R134). -/
theorem srcs_of_legal (h : legal l o f = true) :
    srcOk l (immAvail (spec o f) f) (aCount o f) (spec o f).a f.a = true ∧ srcOk l (immAvail (spec o f) f) (cCount o f) (spec o f).c f.c = true := by
  simp only [legal, Bool.and_eq_true] at h
  obtain ⟨⟨⟨_, ha⟩, _⟩, hc⟩ := h
  exact ⟨ha, hc⟩

/-- A source that is the immediate alone. -/
theorem isImm_of_hash {av : Bool} {n : Nat} {x : Src} (h : srcOk l av n .hash x = true) : isImm x = true := by
  simp only [srcOk, Bool.and_eq_true] at h
  exact h.1.1.2

/-- A condition source carries no sign bits. -/
theorem neg_of_cnd {av : Bool} {n : Nat} {x : Src} (h : srcOk l av n .cnd x = true) : x.neg = false := by
  simp only [srcOk, plain, Bool.and_eq_true, Bool.not_eq_true'] at h
  exact h.1.1.2

/-- SLI takes the immediate alone. -/
theorem legal_sli (h : isImm f.a = false) : legal l .sli f = false :=
  Bool.eq_false_iff.2 fun hl => Bool.false_ne_true (h.symm.trans (isImm_of_hash (srcs_of_legal hl).1))

/-- SSEL takes its condition without a negate bit. -/
theorem legal_ssel (h : f.c.neg = true) : legal l .ssel f = false :=
  Bool.eq_false_iff.2 fun hl => Bool.false_ne_true ((neg_of_cnd (srcs_of_legal hl).2).symm.trans h)

end Legal

/-- A word's lower half below another's (SLIH). -/
theorem low_append_low (x y : W64) : x.extractLsb' 0 32 ++ y.extractLsb' 0 32 = (x <<< 32) ||| (y &&& 0xFFFFFFFF) := by
  have hmask : (0xFFFFFFFF : W64) = (BitVec.allOnes 32).setWidth 64 := by decide
  rw [hmask]
  ext j hj
  rw [BitVec.getElem_append, BitVec.getElem_or, BitVec.getElem_and, BitVec.getElem_shiftLeft, BitVec.getElem_setWidth, BitVec.getLsbD_allOnes]
  by_cases h : j < 32
  · simp [h, BitVec.getLsbD_eq_getElem hj]
  · simp [h, BitVec.getLsbD_eq_getElem (show j - 32 < 64 by omega)]

/-- The two readings of a count modulo 64. -/
theorem cntS_eq (g : Group) (f : OpF) : cntS g f = (intS g f f.b &&& 63).toNat := by
  rw [cntS, BitVec.toNat_and]
  exact (Nat.and_two_pow_sub_one_eq_mod _ 6).symm

theorem rotateRight_eq (x : W64) {n : Nat} (h : n < 64) : x.rotateRight n = (x >>> n) ||| (x <<< (64 - n)) := by
  rw [BitVec.rotateRight_def, Nat.mod_eq_of_lt h]

/-- Settles O1: each op issues with its body's result, and SLI with a register is not legal. -/
theorem scalarMovesAndLogic : Obligations.ScalarMovesAndLogic := by
  unfold Obligations.ScalarMovesAndLogic
  refine ⟨fun f s => ⟨?sli, ?illegal, ?slih, ?smov⟩, fun f s => ?_⟩
  case sli => exact fun h => runP_issues h
  case illegal => exact fun hi h1 h2 h3 => runWith_illegal h1 h2 h3 (legal_sli hi)
  case slih => exact fun h => (runP_issues h).trans (by rw [low_append_low])
  case smov => exact fun h => runP_issues h
  intro a b n put
  have hn : cntS s.g f = n := cntS_eq s.g f
  have hlt : n < 64 := hn ▸ Nat.mod_lt _ (by decide)
  refine ⟨?sand, ?sor, ?sxor, ?sshl, ?sshr, ?srot⟩
  case sand => exact fun h => runP_issues h
  case sor => exact fun h => runP_issues h
  case sxor => exact fun h => runP_issues h
  case sshl => exact fun h => (runP_issues h).trans (by rw [hn])
  case sshr => exact fun h => (runP_issues h).trans (by simp only [hn]; rfl)
  case srot => exact fun h => (runP_issues h).trans (by rw [hn, rotateRight_eq _ hlt])

end Sys2Proof.Machine
end

