-- ==== Sys2Proof/Proofs/ScalarArithmetic.lean ====
section
/-!
SUPPORT. Scalar arithmetic (R164, R167): the model computes on integers and writes the result modulo 2^64, which are the operations of 64-bit
words where nothing saturates (O2).
-/
namespace Sys2Proof.Machine

/-! ### Results that wrap or saturate -/

/-- A saturated result and its flag (R167). -/
def clampS (d : Nat) (v : Int) (g : Group) : Group :=
  if v < -2 ^ 63 then raise flagSAT (setS g d 0x8000000000000000)
  else if 2 ^ 63 - 1 < v then raise flagSAT (setS g d 0x7FFFFFFFFFFFFFFF)
  else raise 0 (setS g d (BitVec.ofInt 64 v))

theorem arithS_eq (f : OpF) (v : Int) (g : Group) :
    arithS f v g = if satOpt f then clampS f.dst.toNat v g else setS g f.dst.toNat (BitVec.ofInt 64 v) := by
  have hlo : (intRange 64 true).1 = -2 ^ 63 := by decide
  have hhi : (intRange 64 true).2 = 2 ^ 63 - 1 := by decide
  unfold arithS clampS intSat
  dsimp only
  rw [hlo, hhi]
  split_ifs <;> rfl

theorem ofInt_toInt_add (a b : W64) : BitVec.ofInt 64 (a.toInt + b.toInt) = a + b := by
  rw [BitVec.ofInt_add, BitVec.ofInt_toInt, BitVec.ofInt_toInt]

theorem ofInt_toInt_sub (a b : W64) : BitVec.ofInt 64 (a.toInt - b.toInt) = a - b :=
  BitVec.eq_of_toInt_eq (by rw [BitVec.toInt_ofInt, BitVec.toInt_sub])

theorem ofInt_toInt_mul (a b : W64) : BitVec.ofInt 64 (a.toInt * b.toInt) = a * b := by
  rw [BitVec.ofInt_mul, BitVec.ofInt_toInt, BitVec.ofInt_toInt]

/-! ### Signed and unsigned operands -/

section Operands
variable {f : OpF} {a b : W64}

theorem intN_signed (h : f.opt = false) (x : W64) : intN f x = x.toInt := by rw [intN, h]; rfl

theorem intN_unsigned (h : f.opt = true) (x : W64) : intN f x = x.toNat := by rw [intN, h]; rfl

/-- The order that SMIN and SMAX take. -/
theorem intN_le_iff : intN f a ≤ intN f b ↔ (if f.opt then a.ule b else a.sle b) = true := by
  cases h : f.opt
  · rw [intN_signed h, intN_signed h]
    exact BitVec.sle_iff_toInt_le.symm
  · rw [intN_unsigned h, intN_unsigned h, Int.ofNat_le]
    exact BitVec.ule_iff_toNat_le.symm

theorem intN_eq_zero_iff : intN f b = 0 ↔ b = 0 := by
  cases h : f.opt
  · rw [intN_signed h, ← BitVec.toInt_inj]; rfl
  · rw [intN_unsigned h, ← BitVec.toNat_inj, Int.natCast_eq_zero]; rfl

/-- The upper half of a product. -/
theorem ofInt_mulhi : BitVec.ofInt 64 ((intN f a * intN f b).fdiv (2 ^ 64)) =
    if f.opt then BitVec.ofNat 64 (a.toNat * b.toNat / 2 ^ 64) else BitVec.ofInt 64 (a.toInt * b.toInt / 2 ^ 64) := by
  rw [Int.fdiv_eq_ediv_of_nonneg _ (by decide)]
  cases h : f.opt
  · rw [intN_signed h, intN_signed h]; rfl
  · rw [intN_unsigned h, intN_unsigned h]
    exact BitVec.ofInt_natCast ..

/-- A quotient that truncates toward zero. -/
theorem ofInt_tdiv : BitVec.ofInt 64 ((intN f a).tdiv (intN f b)) = if f.opt then a.udiv b else a.sdiv b := by
  cases h : f.opt
  · rw [intN_signed h, intN_signed h]
    exact BitVec.eq_of_toInt_eq (by rw [BitVec.toInt_ofInt]; exact (BitVec.toInt_sdiv a b).symm)
  · rw [intN_unsigned h, intN_unsigned h, ← Int.ofNat_tdiv, BitVec.ofInt_natCast]
    exact BitVec.udiv_def.symm

/-- The remainder that belongs to it. -/
theorem ofInt_trem : BitVec.ofInt 64 (intN f a - intN f b * (intN f a).tdiv (intN f b)) = if f.opt then a.umod b else a.srem b := by
  rw [← Int.tmod_def]
  cases h : f.opt
  · rw [intN_signed h, intN_signed h, ← BitVec.toInt_srem, BitVec.ofInt_toInt]
    rfl
  · rw [intN_unsigned h, intN_unsigned h, ← Int.ofNat_tmod, BitVec.ofInt_natCast]
    exact BitVec.umod_def.symm

end Operands

/-- Settles O2: each op writes its integer result modulo 2^64, saturated or not, and the divisions have their case of zero. -/
theorem scalarArithmetic : Obligations.ScalarArithmetic := by
  unfold Obligations.ScalarArithmetic
  refine ⟨fun f s => ⟨?sadd, ?ssub, ?smul⟩, fun f s => ⟨?smin, ?smax, ?smulhi, ?sdiv, ?srem⟩⟩
  case sadd => exact fun h => (runP_issues h).trans (by rw [arithS_eq, ofInt_toInt_add]; rfl)
  case ssub => exact fun h => (runP_issues h).trans (by rw [arithS_eq, ofInt_toInt_sub]; rfl)
  case smul => exact fun h => (runP_issues h).trans (by rw [arithS_eq, ofInt_toInt_mul]; rfl)
  case smin => exact fun h => (runP_issues h).trans (by simp only [intN_le_iff])
  case smax => exact fun h => (runP_issues h).trans (by simp only [intN_le_iff])
  case smulhi => exact fun h => (runP_issues h).trans (by rw [ofInt_mulhi])
  case sdiv => exact fun h => (runP_issues h).trans (by simp only [intN_eq_zero_iff, ofInt_tdiv])
  case srem => exact fun h => (runP_issues h).trans (by simp only [intN_eq_zero_iff, ofInt_trem])

end Sys2Proof.Machine
end

