-- ==== Sys2Proof/Proofs/ScalarConditions.lean ====
section
/-!
SUPPORT. Compares, conditions, loop counters and identifiers (R168, R174 to R176, R27, R13): the relation that SCMP names, and the identifier
that each selector of IDR names (O3).
-/
namespace Sys2Proof.Machine

section Compare
variable {f : OpF} {s : State} {r : Nat}

/-- SCMP writes whether its relation holds, and then whether it does not. -/
theorem exec_scmp (h : issues .scmp f s = true) {c : Bool} (hc : relS f (intS s.g f f.a) (intS s.g f f.b) = c) :
    exec (.scmp f) s = goesOn s (setK (setK s.g (f.dst.toNat % 8) c) (f.dst.toNat / 8 % 8) (!c)) := by
  subst hc
  exact runWith_issues h

theorem relS_eq (a b : W64) (h : f.dst.toNat / 64 = 0) : relS f a b = if f.opt then decide (a &&& b = 0) else decide (a = b) := by
  cases ho : f.opt <;> simp [relS, h, ho]

theorem relS_ne (a b : W64) (h : f.dst.toNat / 64 = 1) : relS f a b = if f.opt then decide (a &&& b ≠ 0) else decide (a ≠ b) := by
  cases ho : f.opt <;> simp [relS, h, ho]

theorem relS_lt (a b : W64) (h : f.dst.toNat / 64 = 2) : relS f a b = if f.opt then decide (a.toNat < b.toNat) else decide (a.toInt < b.toInt) := by
  cases ho : f.opt
  · simp [relS, h, ho, BitVec.slt_eq_decide]
  · simp [relS, h, ho, BitVec.ult_eq_decide]

theorem relS_le (a b : W64) (h : f.dst.toNat / 64 = 3) : relS f a b = if f.opt then decide (a.toNat ≤ b.toNat) else decide (a.toInt ≤ b.toInt) := by
  cases ho : f.opt
  · simp [relS, h, ho, BitVec.sle_eq_decide]
  · simp [relS, h, ho, BitVec.ule_eq_decide]

end Compare

section Identifiers
variable {f : OpF} {s : State}

/-- A selector of IDR that names an identifier (R27). -/
theorem exec_idr (h : issues .idr f s = true) {n : W32} {x : W64} (hn : f.imm = n) (hlt : n.toNat < 12) (hx : identifier s.l s.g n.toNat = x) :
    exec (.idr f) s = goesOn s (setS s.g f.dst.toNat x) := by
  subst hn hx
  refine runG_issues h ?_
  rw [decide_eq_true hlt]
  rfl

/-- A selector of IDR that names none. -/
theorem exec_idr_illegal (h : issues .idr f s = true) (hn : 12 ≤ f.imm.toNat) : exec (.idr f) s = .next (trapAt trapIllegal s) := by
  refine runG_trap h ?_
  rw [decide_eq_false (not_lt.2 hn)]
  rfl

/-- Outside replay mode a team's task ID is its linear index. -/
theorem taskId_direct {l : Launch} {k : Tid} (h : l.replay = false) : taskId l k = BitVec.ofNat 64 k.team := by
  rw [taskId, taskOf, h, Bool.false_and, if_neg (by decide)]
  rfl

/-- In replay mode it is that of its task. -/
theorem taskId_replay {l : Launch} {k : Tid} {x : Task} (h : l.replay = true) (hl : l.id = k.l)
    (hx : l.tasks.find? (fun t => t.team = k.team) = some x) : taskId l k = x.id := by
  rw [taskId, taskOf, h, hl, decide_eq_true rfl, Bool.true_and, if_pos rfl, hx]
  rfl

/-- The facts about a launch that a selector names. -/
theorem launchFacts_eq (l : Launch) : l.replay.toNat + 2 * (!l.kern.gens.isEmpty).toNat + 4 * l.cohort.toNat =
    (if l.replay then 1 else 0) + (if l.kern.gens = [] then 0 else 2) + (if l.cohort then 4 else 0) := by
  have hgens : 2 * (!l.kern.gens.isEmpty).toNat = if l.kern.gens = [] then 0 else 2 := by cases l.kern.gens <;> simp
  rw [hgens]
  cases l.replay <;> cases l.cohort <;> rfl

end Identifiers

/-- Settles O3: SCMP by its relation, the condition ops and counters by their bodies, and IDR selector by selector. -/
theorem conditionsCountersIdentifiers : Obligations.ConditionsCountersIdentifiers := by
  unfold Obligations.ConditionsCountersIdentifiers
  refine ⟨fun f s => ⟨?eq, ?ne, ?lt, ?le, ?scmp_off, ?sfcmp_off, ?kand, ?kor, ?kxor, ?nset, ?nget, ?clkr⟩, fun f s h => ?_⟩
  case eq => exact fun h hr => exec_scmp h (relS_eq _ _ hr)
  case ne => exact fun h hr => exec_scmp h (relS_ne _ _ hr)
  case lt => exact fun h hr => exec_scmp h (relS_lt _ _ hr)
  case le => exact fun h hr => exec_scmp h (relS_le _ _ hr)
  case scmp_off => exact fun h1 h2 => runWith_off h1 h2
  case sfcmp_off => exact fun h1 h2 => runWith_off h1 h2
  case kand => exact fun h => runP_issues h
  case kor => exact fun h => runP_issues h
  case kxor => exact fun h => runP_issues h
  case nset => exact fun h => (runP_issues h).trans (by rw [BitVec.setWidth_eq_extractLsb' (by decide)])
  case nget => exact fun h => runP_issues h
  case clkr => exact fun h => runP_issues h
  intro l team put
  refine ⟨?num, ?groups, ?x, ?y, ?z, ?gx, ?gy, ?gz, ?role, ?roleIndex, ?team, ?task, ?facts, exec_idr_illegal h⟩
  case num => exact fun hi => exec_idr h hi (by decide) rfl
  case groups => exact fun hi => exec_idr h hi (by decide) rfl
  case x => exact fun hi => exec_idr h hi (by decide) rfl
  case y => exact fun hi => exec_idr h hi (by decide) rfl
  case z => exact fun hi => exec_idr h hi (by decide) (congrArg (BitVec.ofNat 64) (Nat.div_div_eq_div_mul ..))
  case gx => exact fun hi => exec_idr h hi (by decide) rfl
  case gy => exact fun hi => exec_idr h hi (by decide) rfl
  case gz => exact fun hi => exec_idr h hi (by decide) rfl
  case role => exact fun hi => exec_idr h hi (by decide) rfl
  case roleIndex => exact fun hi => exec_idr h hi (by decide) rfl
  case team => exact fun hi hr => exec_idr h hi (by decide) (taskId_direct hr)
  case task => exact fun x hi hr hl hx => exec_idr h hi (by decide) (taskId_replay hr hl hx)
  case facts => exact fun hi => exec_idr h hi (by decide) (congrArg (BitVec.ofNat 64) (launchFacts_eq l))

end Sys2Proof.Machine
end

