-- ==== Sys2Proof/Proofs/ScalarBits.lean ====
section
/-!
SUPPORT. Bit fields, counts and scaled add (R170): a field word and when it is legal, a field read and written bit by bit, and what each of the
three counts counts (O4).
-/
namespace Sys2Proof.Machine

/-! ### Field words -/

section FieldWord
variable (f : OpF)

theorem fwPos_eq : fwPos f = (f.imm &&& 63).toNat := by
  rw [fwPos, BitVec.extractLsb'_toNat, BitVec.toNat_and, Nat.shiftRight_zero]
  exact (Nat.and_two_pow_sub_one_eq_mod _ 6).symm

theorem fwLen_eq : fwLen f = (f.imm >>> 6 &&& 63).toNat + 1 := by
  rw [fwLen, BitVec.extractLsb'_toNat, BitVec.toNat_and, BitVec.toNat_ushiftRight]
  exact congrArg (· + 1) (Nat.and_two_pow_sub_one_eq_mod _ 6).symm

theorem fwLen_pos : 0 < fwLen f := Nat.succ_pos _

/-- The bits above a field word are zero. -/
theorem fieldWord_high : f.imm.extractLsb' 13 19 = (0 : BitVec 19) ↔ f.imm.toNat < 2 ^ 13 := by
  have hlt := f.imm.isLt
  rw [← BitVec.toNat_inj, BitVec.extractLsb'_toNat, Nat.shiftRight_eq_div_pow]
  change f.imm.toNat / 2 ^ 13 % 2 ^ 19 = 0 ↔ _
  omega

theorem fwOk_iff (sign : Bool) : fwOk f sign = true ↔
    f.imm.toNat < 2 ^ 13 ∧ fwPos f + fwLen f ≤ 64 ∧ (f.imm.getLsbD 12 = true → sign = true) := by
  have hsign : (sign || !f.imm.getLsbD 12) = true ↔ (f.imm.getLsbD 12 = true → sign = true) := by cases sign <;> simp
  rw [fwOk, Bool.and_eq_true, Bool.and_eq_true, hsign, decide_eq_true_eq, decide_eq_true_eq, fieldWord_high, and_assoc]

end FieldWord

/-! ### Fields -/

section Fields
variable {pos len : Nat} (x : W64)

/-- A field shifted up against bit 63. -/
theorem getLsbD_fieldUp (h : pos + len ≤ 64) {j : Nat} (hj : j < len) :
    (x <<< (64 - pos - len)).getLsbD (64 - len + j) = x.getLsbD (pos + j) := by
  have hin : 64 - len + j < 64 := by omega
  have hge : ¬64 - len + j < 64 - pos - len := by omega
  have hat : 64 - len + j - (64 - pos - len) = pos + j := by omega
  rw [BitVec.getLsbD_shiftLeft, hat, decide_eq_true hin, decide_eq_false hge]
  rfl

/-- The field of a register, zero-extended. -/
theorem ofInt_field (h : pos + len ≤ 64) :
    BitVec.ofInt 64 ((x.toNat / 2 ^ pos % 2 ^ len : Nat) : Int) = (x <<< (64 - pos - len)) >>> (64 - len) := by
  have hfield : BitVec.ofInt 64 ((x.toNat / 2 ^ pos % 2 ^ len : Nat) : Int) = (x.extractLsb' pos len).setWidth 64 := by
    rw [BitVec.ofInt_natCast, ← BitVec.ofNat_toNat, BitVec.extractLsb'_toNat, Nat.shiftRight_eq_div_pow]
  rw [hfield]
  ext j hj
  rw [BitVec.getElem_setWidth, BitVec.getLsbD_extractLsb', BitVec.getElem_ushiftRight]
  by_cases hl : j < len
  · rw [getLsbD_fieldUp x h hl, decide_eq_true hl, Bool.true_and]
  · rw [decide_eq_false hl, Bool.false_and, BitVec.getLsbD_of_ge _ _ (show 64 ≤ 64 - len + j by omega)]

/-- A number of `len` bits read as signed. -/
theorem sextNat_eq_toInt (y : Nat) : sextNat len y = (BitVec.ofNat len y).toInt := by
  rw [sextNat, BitVec.toInt_eq_toNat_cond, BitVec.toNat_ofNat]
  split_ifs <;> omega

/-- The field of a register, sign-extended. -/
theorem ofInt_sext_field (h : pos + len ≤ 64) (hlen : 0 < len) :
    BitVec.ofInt 64 (sextNat len (x.toNat / 2 ^ pos % 2 ^ len)) = (x <<< (64 - pos - len)).sshiftRight (64 - len) := by
  have hfield : BitVec.ofInt 64 (sextNat len (x.toNat / 2 ^ pos % 2 ^ len)) = (x.extractLsb' pos len).signExtend 64 := by
    rw [sextNat_eq_toInt, BitVec.signExtend]
    congr 2
    apply BitVec.eq_of_toNat_eq
    rw [BitVec.toNat_ofNat, BitVec.extractLsb'_toNat, Nat.mod_mod, Nat.shiftRight_eq_div_pow]
  rw [hfield]
  ext j hj
  rw [BitVec.getElem_signExtend, BitVec.getElem_sshiftRight]
  by_cases hl : j < len
  · rw [dif_pos hl, dif_pos (show 64 - len + j < 64 by omega), ← BitVec.getLsbD_eq_getElem, ← BitVec.getLsbD_eq_getElem,
      getLsbD_fieldUp x h hl, BitVec.getLsbD_extractLsb', decide_eq_true hl, Bool.true_and]
  · have htop : 64 - 1 = 64 - len + (len - 1) := by omega
    have hlast : len - 1 < len := Nat.sub_one_lt_of_lt hlen
    rw [dif_neg hl, dif_neg (show ¬64 - len + j < 64 by omega), BitVec.msb_eq_getLsbD_last, BitVec.msb_eq_getLsbD_last, htop,
      getLsbD_fieldUp x h hlast, BitVec.getLsbD_extractLsb', decide_eq_true hlast, Bool.true_and]

/-- A field's mask. -/
theorem getLsbD_fieldMask {j : Nat} (hj : j < 64) :
    (BitVec.ofNat 64 ((2 ^ len - 1) * 2 ^ pos)).getLsbD j = decide (pos ≤ j ∧ j < pos + len) := by
  rw [BitVec.getLsbD_ofNat, ← Nat.shiftLeft_eq, Nat.testBit_shiftLeft, Nat.testBit_two_pow_sub_one, decide_eq_true hj,
    Bool.true_and, ← Bool.decide_and]
  exact decide_eq_decide.2 (by omega)

/-- A field of a register replaced. -/
theorem getLsbD_insert (y : W64) {j : Nat} (hj : j < 64) :
    ((y &&& ~~~BitVec.ofNat 64 ((2 ^ len - 1) * 2 ^ pos)) ||| ((x <<< pos) &&& BitVec.ofNat 64 ((2 ^ len - 1) * 2 ^ pos))).getLsbD j =
      if pos ≤ j ∧ j < pos + len then x.getLsbD (j - pos) else y.getLsbD j := by
  rw [BitVec.getLsbD_or, BitVec.getLsbD_and, BitVec.getLsbD_and, BitVec.getLsbD_not, BitVec.getLsbD_shiftLeft, getLsbD_fieldMask hj]
  by_cases hin : pos ≤ j ∧ j < pos + len
  · have hge : ¬j < pos := by omega
    simp [hin, hj, hge]
  · simp [hin, hj]

end Fields

/-! ### Counts -/

theorem popCount_eq (n x : Nat) : popCount x n = (List.range n).countP fun j => x.testBit j := by
  induction n generalizing x with
  | zero => rfl
  | succ n ih =>
    have hstep : ((fun j => x.testBit j) ∘ Nat.succ) = fun j => (x / 2).testBit j := funext fun j => Nat.testBit_succ x j
    rw [popCount, ih, List.range_succ_eq_map, List.countP_cons, List.countP_map, hstep, Nat.testBit_zero, add_comm]
    rcases Nat.mod_two_eq_zero_or_one x with h | h <;> simp [h]

theorem trailZeros_eq (n x : Nat) : trailZeros x n = ((List.range n).takeWhile fun j => !x.testBit j).length := by
  induction n generalizing x with
  | zero => rfl
  | succ n ih =>
    have hstep : ((fun j => !x.testBit j) ∘ Nat.succ) = fun j => !(x / 2).testBit j := funext fun j => congrArg not (Nat.testBit_succ x j)
    rw [trailZeros, ih, List.range_succ_eq_map, List.takeWhile_cons, List.takeWhile_map, hstep, Nat.testBit_zero]
    rcases Nat.mod_two_eq_zero_or_one x with h | h <;> simp [h, add_comm]

theorem leadZeros_eq {n x : Nat} (h : x < 2 ^ n) : leadZeros x n = ((List.range n).reverse.takeWhile fun j => !x.testBit j).length := by
  induction n with
  | zero => rw [leadZeros, if_pos (Nat.lt_one_iff.1 h)]; rfl
  | succ n ih =>
    rw [List.range_succ, List.reverse_append, List.reverse_singleton, List.singleton_append, List.takeWhile_cons]
    cases htop : x.testBit n
    · have hlt : x < 2 ^ n := Nat.lt_pow_two_of_testBit x fun j hj => by
        rcases hj.eq_or_lt with rfl | hj
        · exact htop
        · exact Nat.testBit_lt_two_pow (h.trans_le (Nat.pow_le_pow_right (by decide) hj))
      rw [if_pos (by rfl), List.length_cons, ← ih hlt, leadZeros, leadZeros]
      split
      · rfl
      · next h0 =>
        have := (Nat.log2_lt h0).2 hlt
        omega
    · have hge : 2 ^ n ≤ x := Nat.ge_two_pow_of_testBit htop
      have h0 : x ≠ 0 := fun h0 => by simp [h0] at htop
      have hlog : Nat.log2 x = n := (Nat.log2_eq_iff h0).2 ⟨hge, h⟩
      rw [if_neg (by decide), leadZeros, if_neg h0, hlog]
      simp

/-! ### The ops -/

section Ops
variable {f : OpF} {s : State}

theorem exec_sbfx (h : issues .sbfx f s = true) (hok : fwOk f true = true) : exec (.sbfx f) s =
    goesOn s (setS s.g f.dst.toNat (if f.imm.getLsbD 12
      then ((intS s.g f f.a) <<< (64 - fwPos f - fwLen f)).sshiftRight (64 - fwLen f)
      else ((intS s.g f f.a) <<< (64 - fwPos f - fwLen f)) >>> (64 - fwLen f))) := by
  obtain ⟨-, hlen, -⟩ := (fwOk_iff f true).1 hok
  rw [← ofInt_field _ hlen, ← ofInt_sext_field _ hlen (fwLen_pos f), ← apply_ite]
  refine runG_issues h ?_
  rw [hok]
  rfl

theorem exec_sbfi (h : issues .sbfi f s = true) (hok : fwOk f false = true) : ∃ x, exec (.sbfi f) s = goesOn s (setS s.g f.dst.toNat x) ∧
    ∀ j, j < 64 → x.getLsbD j =
      if fwPos f ≤ j ∧ j < fwPos f + fwLen f then (intS s.g f f.a).getLsbD (j - fwPos f) else (getS s.g f.dst.toNat).getLsbD j := by
  refine ⟨_, runG_issues h ?_, fun j hj => getLsbD_insert _ _ hj⟩
  rw [hok]
  rfl

/-- A field op whose field word is not legal. -/
theorem exec_field_illegal {o : Op} {sign : Bool} {b : Group → Unit → Res Group} (h : issues o f s = true) (hok : fwOk f sign = false) :
    runG o f (fun g => (Res.require (fwOk f sign)).bind (b g)) s = .next (trapAt trapIllegal s) :=
  runG_trap h (by rw [hok]; rfl)

theorem exec_sadda (h : issues .sadda f s = true) (hn : f.imm.toNat ≤ 7) :
    exec (.sadda f) s = goesOn s (setS s.g f.dst.toNat (intS s.g f f.a + (intS s.g f f.b <<< f.imm.toNat))) :=
  runG_issues h (by rw [decide_eq_true (Nat.lt_succ_of_le hn)]; rfl)

theorem exec_sadda_illegal (h : issues .sadda f s = true) (hn : 7 < f.imm.toNat) : exec (.sadda f) s = .next (trapAt trapIllegal s) :=
  runG_trap h (by rw [decide_eq_false (not_lt.2 (Nat.succ_le_of_lt hn))]; rfl)

end Ops

/-- Settles O4: field words are legal as R170 says, a field is read and written bit by bit, and each count is a count of bits. -/
theorem scalarBits : Obligations.ScalarBits := by
  unfold Obligations.ScalarBits
  intro f s a b put pos len field
  have hpos : fwPos f = pos := fwPos_eq f
  have hlen : fwLen f = len := fwLen_eq f
  have hfield : ∀ sign, fwOk f sign = true ↔ field sign := fun sign => by rw [fwOk_iff, hpos, hlen]
  have hillegal : ∀ sign, ¬field sign → fwOk f sign = false := fun sign h => Bool.eq_false_iff.2 fun hok => h ((hfield sign).1 hok)
  refine ⟨?ssel, ?ssel_neg, ?sbfx_illegal, ?sbfi_illegal, ?sadda_illegal, ?sbfx, ?sbfi, ?spopc, ?sclz, ?sctz, ?sadda⟩
  case ssel => exact fun h => runP_issues h
  case ssel_neg => exact fun hn h1 h2 h3 => runWith_illegal h1 h2 h3 (legal_ssel hn)
  case sbfx_illegal => exact fun h hf => exec_field_illegal h (hillegal true hf)
  case sbfi_illegal => exact fun h hf => exec_field_illegal h (hillegal false hf)
  case sadda_illegal => exact exec_sadda_illegal
  case sbfx =>
    intro h hf
    rw [exec_sbfx h ((hfield true).2 hf), hpos, hlen]
  case sbfi =>
    intro h hf
    have hx := exec_sbfi h ((hfield false).2 hf)
    rwa [hpos, hlen] at hx
  case spopc => exact fun h => (runP_issues h).trans (by rw [popCount_eq]; rfl)
  case sclz => exact fun h => (runP_issues h).trans (by rw [leadZeros_eq (BitVec.isLt _)]; rfl)
  case sctz => exact fun h => (runP_issues h).trans (by rw [trailZeros_eq]; rfl)
  case sadda => exact exec_sadda

end Sys2Proof.Machine
end

