-- ==== Sys2Proof/Proofs/ScalarFloats.lean ====
section
/-!
SUPPORT. Scalar float ops (R169, R172, R173): the body of each, and the modifiers that SFCMP and SCVT take (O5).
-/
namespace Sys2Proof.Machine

/-- The lowest bit of a modifier. -/
theorem imm24_odd (f : OpF) : decide (imm24 f % 2 = 1) = f.imm.getLsbD 0 := by
  have hmod : imm24 f % 2 = f.imm.toNat % 2 := by
    rw [imm24, BitVec.extractLsb'_toNat]
    omega
  rw [hmod, BitVec.getLsbD, Nat.testBit_zero]

section Bodies
variable {f : OpF} {s : State}

/-- SFCMP with a modifier of at most one bit, its signalling form by that bit (R169). -/
theorem exec_sfcmp (h : issues .sfcmp f s = true) (hm : f.form = .long → imm24 f ≤ 1) {c : Bool × Flags}
    (hc : fCompare (sfTy f).fmt (f.dst.toNat / 64) (if f.form = .long then f.imm.getLsbD 0 else f.opt) (fltS s.g f (sfTy f) f.a)
      (fltS s.g f (sfTy f) f.b) = c) :
    exec (.sfcmp f) s = goesOn s (raise c.2 (setPair f c.1 (!c.1) s.g)) := by
  subst hc
  have hok : (f.form ≠ .long || decide (imm24 f < 2)) = true := by
    simp only [Bool.or_eq_true, decide_eq_true_eq]
    exact (Classical.em (f.form = .long)).symm.imp_right fun hl => Nat.lt_succ_of_le (hm hl)
  refine (runWith_issues h).trans ?_
  have hsig : decide (if f.form = .long then imm24 f % 2 = 1 else f.opt = true) = if f.form = .long then f.imm.getLsbD 0 else f.opt := by
    rw [← imm24_odd]
    by_cases hl : f.form = .long <;> simp [hl]
  rw [onG, ← hsig]
  dsimp only
  rw [hok]
  rfl

/-- SCVT with a modifier of at most one bit, which a 32-bit integer type goes with (R173). -/
theorem exec_scvt (h : issues .scvt f s = true) (hm : imm24 f ≤ 1)
    (hw : f.imm.getLsbD 0 = true → (((ty0 f).isInt && (ty0 f).bits = 32) || ((ty1 f).isInt && (ty1 f).bits = 32)) = true) :
    exec (.scvt f) s =
      goesOn s (setF f (cvtS (f.imm.getLsbD 0) (ty1 f) (ty0 f) f.rnd.toNat f.sat (cvtSrc s.g f (ty1 f))) s.g) := by
  have hok : (decide (imm24 f < 2) && (((ty0 f).isInt && (ty0 f).bits = 32) || ((ty1 f).isInt && (ty1 f).bits = 32) || !f.imm.getLsbD 0)) = true := by
    rw [decide_eq_true (Nat.lt_succ_of_le hm), Bool.true_and]
    cases hb : f.imm.getLsbD 0
    · exact Bool.or_true _
    · rw [hw hb]; rfl
  refine runG_issues h ?_
  dsimp only
  rw [imm24_odd, hok]
  rfl

end Bodies

/-- Settles O5: each op writes its one rounded result and raises its flags. -/
theorem scalarFloats : Obligations.ScalarFloats := by
  unfold Obligations.ScalarFloats
  intro f s t x y z put cmp wide has32
  refine ⟨?sfadd, ?sfmul, ?sfma, ?sfcmp, ?scvt⟩
  case sfadd => exact fun h => runP_issues h
  case sfmul => exact fun h => runP_issues h
  case sfma => exact fun h => runP_issues h
  case sfcmp => exact fun h hm => exec_sfcmp h hm rfl
  case scvt => exact fun h hm hw => exec_scvt h hm hw

end Sys2Proof.Machine
end

