-- ==== Sys2Proof/Proofs/VectorOps.lean ====
section
/-!
SUPPORT. The shared shape of the vector ops (R178): an op that is ready ends as its body says, a lane read back sub-vector by sub-vector, and when two
ways to compute the sub-vectors of the active lanes leave the same register and raise the same flags.
-/
namespace Sys2Proof.Machine

/-! ### Widths and steps -/

theorem Ty.bits_pos (t : Ty) : 0 < t.bits := by cases t <;> decide

theorem Ty.bits_le_step (t : Ty) : t.bits ≤ t.step := by cases t <;> decide

theorem Ty.step_mul_count (t : Ty) : t.step * t.count = 32 := by cases t <;> rfl

theorem subOf_lt (t : Ty) (x : W32) (k : Nat) : subOf t x k < 2 ^ t.bits := Nat.mod_lt _ (by positivity)

/-! ### A lane from its sub-vectors and back -/

theorem joinSubs_lt (t : Ty) (xs : List Nat) : joinSubs t xs < 2 ^ (t.step * xs.length) := by
  induction xs with
  | nil => exact Nat.one_pos
  | cons x xs ih =>
    have hx : x % 2 ^ t.bits < 2 ^ t.step := (Nat.mod_lt x (by positivity)).trans_le (Nat.pow_le_pow_right (by decide) t.bits_le_step)
    have hpow : 2 ^ (t.step * (xs.length + 1)) = 2 ^ t.step * 2 ^ (t.step * xs.length) := by rw [← pow_add]; congr 1; ring
    calc joinSubs t (x :: xs) < 2 ^ t.step * (joinSubs t xs + 1) := by rw [joinSubs, mul_add]; omega
      _ ≤ 2 ^ t.step * 2 ^ (t.step * xs.length) := Nat.mul_le_mul_left _ ih
      _ = _ := hpow.symm

/-- The step of a lane that sub-vector k was put into holds it and nothing else. -/
theorem joinSubs_div_mod (t : Ty) (xs : List Nat) (k : Nat) :
    joinSubs t xs / 2 ^ (t.step * k) % 2 ^ t.bits = xs.getD k 0 % 2 ^ t.bits := by
  have hdvd : 2 ^ t.bits ∣ 2 ^ t.step := pow_dvd_pow 2 t.bits_le_step
  induction xs generalizing k with
  | nil => simp [joinSubs]
  | cons x xs ih =>
    cases k with
    | zero =>
      rw [mul_zero, pow_zero, Nat.div_one, joinSubs, Nat.add_mod, Nat.mod_mod, Nat.mod_eq_zero_of_dvd (hdvd.mul_right _), add_zero, Nat.mod_mod]
      rfl
    | succ k =>
      have hx : x % 2 ^ t.bits < 2 ^ t.step := (Nat.mod_lt x (by positivity)).trans_le (Nat.pow_le_pow_right (by decide) t.bits_le_step)
      have hpow : 2 ^ (t.step * (k + 1)) = 2 ^ t.step * 2 ^ (t.step * k) := by rw [← pow_add]; congr 1; ring
      rw [joinSubs, hpow, ← Nat.div_div_eq_div_mul, Nat.add_mul_div_left _ _ (by positivity), Nat.div_eq_of_lt hx, zero_add, ih]
      rfl

/-- A lane written sub-vector by sub-vector, read back. -/
theorem subOf_joinSubs {t : Ty} {xs : List Nat} (h : xs.length = t.count) (k : Nat) :
    subOf t (BitVec.ofNat 32 (joinSubs t xs)) k = xs.getD k 0 % 2 ^ t.bits := by
  have hlt := joinSubs_lt t xs
  rw [h, t.step_mul_count] at hlt
  rw [subOf, BitVec.toNat_ofNat, Nat.mod_eq_of_lt hlt, joinSubs_div_mod]

/-- A lane takes of each sub-vector its low bits alone. -/
theorem joinSubs_congr {α : Type} {t : Ty} {f g : α → Nat} {xs : List α} (h : ∀ x ∈ xs, f x % 2 ^ t.bits = g x % 2 ^ t.bits) :
    joinSubs t (xs.map f) = joinSubs t (xs.map g) := by
  induction xs with
  | nil => rfl
  | cons x xs ih =>
    rw [List.map_cons, List.map_cons, joinSubs, joinSubs, h x (List.mem_cons_self ..), ih fun y hy => h y (List.mem_cons_of_mem _ hy)]

/-! ### Flags of a set of results -/

theorem getLsbD_foldl_or {α : Type} (p : α → Flags) (xs : List α) (f : Flags) (j : Nat) :
    (xs.foldl (fun f x => f ||| p x) f).getLsbD j = true ↔ f.getLsbD j = true ∨ ∃ x ∈ xs, (p x).getLsbD j = true := by
  induction xs generalizing f with
  | nil => simp
  | cons x xs ih => rw [List.foldl_cons, ih, BitVec.getLsbD_or, Bool.or_eq_true, List.exists_mem_cons_iff, or_assoc]

theorem getLsbD_foldl_foldl_or {α : Type} (p : α → Flags) (rs : List (List α)) (f : Flags) (j : Nat) :
    (rs.foldl (fun f es => es.foldl (fun f e => f ||| p e) f) f).getLsbD j = true ↔
      f.getLsbD j = true ∨ ∃ es ∈ rs, ∃ e ∈ es, (p e).getLsbD j = true := by
  induction rs generalizing f with
  | nil => simp
  | cons es rs ih => rw [List.foldl_cons, ih, getLsbD_foldl_or, List.exists_mem_cons_iff, or_assoc]

/-- A result of the active lanes. -/
theorem exists_mem_results {α : Type} (P : α → Prop) (act : W32) (n : Nat) (fn : Nat → Nat → α) :
    (∃ es ∈ (List.range 32).map fun i => if lane act i then (List.range n).map (fn i) else [], ∃ e ∈ es, P e) ↔
      ∃ i k, i < 32 ∧ k < n ∧ act.getLsbD i = true ∧ P (fn i k) := by
  simp only [List.mem_map, List.mem_range, exists_exists_and_eq_and]
  refine exists_congr fun i => ⟨?_, ?_⟩
  · rintro ⟨hi, e, he, hP⟩
    by_cases ha : lane act i = true
    · rw [if_pos ha, List.mem_map] at he
      obtain ⟨k, hk, rfl⟩ := he
      exact ⟨k, hi, List.mem_range.1 hk, ha, hP⟩
    · rw [if_neg ha] at he
      exact absurd he List.not_mem_nil
  · rintro ⟨k, hi, hk, ha, hP⟩
    refine ⟨hi, fn i k, ?_, hP⟩
    rw [if_pos (show lane act i = true from ha)]
    exact List.mem_map_of_mem (List.mem_range.2 hk)

/-- The results of the active lanes raise what one of them raises. -/
theorem getLsbD_resultFlags (t : Ty) (act : W32) (fn : Nat → Nat → Nat × Flags) (j : Nat) :
    (resultFlags (laneResults t act fn)).getLsbD j = true ↔
      ∃ i k, i < 32 ∧ k < t.count ∧ act.getLsbD i = true ∧ (fn i k).2.getLsbD j = true := by
  rw [resultFlags, getLsbD_foldl_foldl_or, or_iff_right (by simp)]
  exact exists_mem_results (fun e => e.2.getLsbD j = true) act t.count fn

/-! ### The active lanes of a register -/

theorem laneResults_getD (t : Ty) (act : W32) (fn : Nat → Nat → Nat × Flags) {i : Nat} (hi : i < 32) :
    (laneResults t act fn).getD i [] = if lane act i then (List.range t.count).map (fn i) else [] := by
  simp [laneResults, hi]

/-- The register that the results of the active lanes leave. -/
def lanesReg (t : Ty) (act : W32) (fn : Nat → Nat → Nat × Flags) (old : VReg) : VReg := Vector.ofFn fun i =>
  if lane act i.val then BitVec.ofNat 32 (joinSubs t ((List.range t.count).map fun k => (fn i.val k).1)) else old[i.val]

theorem setLanes_laneResults (t : Ty) (d : Nat) (act : W32) (fn : Nat → Nat → Nat × Flags) (g : Group) :
    setLanes t d act (laneResults t act fn) g =
      raise (resultFlags (laneResults t act fn)) (setV g d (lanesReg t act fn (getV g d))) := by
  refine congrArg (fun r => raise (resultFlags (laneResults t act fn)) (setV g d r)) ?_
  unfold lanesReg
  congr 1
  funext i
  rw [laneResults_getD t act fn i.isLt]
  by_cases ha : lane act i.val = true
  · rw [if_pos ha, if_pos ha, if_pos ha, List.map_map]; rfl
  · rw [if_neg ha, if_neg ha]

/-- Two ways to compute the sub-vectors of the active lanes. -/
theorem setLanes_congr {t : Ty} {act : W32} {fn fn' : Nat → Nat → Nat × Flags} (d : Nat) (g : Group)
    (h : ∀ i k, i < 32 → k < t.count → act.getLsbD i = true → (fn i k).1 % 2 ^ t.bits = (fn' i k).1 % 2 ^ t.bits ∧ (fn i k).2 = (fn' i k).2) :
    setLanes t d act (laneResults t act fn) g = setLanes t d act (laneResults t act fn') g := by
  have hflags : resultFlags (laneResults t act fn) = resultFlags (laneResults t act fn') := by
    refine BitVec.eq_of_getLsbD_eq fun j _ => Bool.eq_iff_iff.2 ?_
    rw [getLsbD_resultFlags, getLsbD_resultFlags]
    exact exists_congr fun i => exists_congr fun k => and_congr_right fun hi => and_congr_right fun hk => and_congr_right fun ha => by
      rw [(h i k hi hk ha).2]
  have hreg : lanesReg t act fn (getV g d) = lanesReg t act fn' (getV g d) := by
    unfold lanesReg
    congr 1
    funext i
    by_cases ha : lane act i.val = true
    · rw [if_pos ha, if_pos ha, joinSubs_congr fun k hk => (h i.val k i.isLt (List.mem_range.1 hk) ha).1]
    · rw [if_neg ha, if_neg ha]
  rw [setLanes_laneResults, setLanes_laneResults, hflags, hreg]

/-- Two ways that give the same results in the active lanes. -/
theorem setLanes_congr_of_eq {t : Ty} {act : W32} {fn fn' : Nat → Nat → Nat × Flags} (d : Nat) (g : Group)
    (h : ∀ i k, i < 32 → k < t.count → act.getLsbD i = true → fn i k = fn' i k) :
    setLanes t d act (laneResults t act fn) g = setLanes t d act (laneResults t act fn') g :=
  setLanes_congr d g fun i k hi hk ha => by rw [h i k hi hk ha]; exact ⟨rfl, rfl⟩

/-! ### An op that is ready -/

section Ready
variable {o : Op} {f : OpF} {t : Ty} {s : State}

/-- Where the map checks pass, the operands are delivered and the body is performed. -/
theorem vecBody_ready {b : VIn → Group → Group} (h : mapChecks s (lanesOn f s) t (mappedSrcs (spec o f) f) = .ok ()) :
    vecBody o f t (fun v g => .ok (b v g)) s = .ok { s with
      g := afterMaps (mappedSrcs (spec o f) f) (b (vecIn o f t s) (raise (vecFlags o f t s) s.g)) } := by
  rw [vecBody, show activeMask s.g f.guard = lanesOn f s from rfl]
  dsimp only
  rw [h]
  rfl

/-- A vector op that is ready, with a legal field word, ends as its body says (R178). -/
theorem runVecIf_ready {ok : Bool} {b : VIn → Group → Group} (h : vecReady o f t s) (hok : ok = true) :
    runVecIf ok o f t (fun v g => .ok (b v g)) s = vecEnds o f t s b := by
  obtain ⟨hissues, hmaps⟩ := h
  rw [runVecIf, runS_issues hissues, hok, if_pos rfl, vecBody_ready hmaps]
  rfl

theorem runVec_ready {b : VIn → Group → Group} (h : vecReady o f t s) :
    runVec o f t (fun v g => .ok (b v g)) s = vecEnds o f t s b := runVecIf_ready h rfl

/-- Two bodies that leave the same group end alike. -/
theorem vecEnds_congr {b b' : VIn → Group → Group}
    (h : b (vecIn o f t s) (raise (vecFlags o f t s) s.g) = b' (vecIn o f t s) (raise (vecFlags o f t s) s.g)) :
    vecEnds o f t s b = vecEnds o f t s b' := by rw [vecEnds, h, vecEnds]

/-- Two functions of the operands' sub-vectors that agree on patterns of the type's width. -/
theorem vecLanes_congr {fn fn' : Nat → Nat → Nat → Nat × Flags} (h : ∀ x y z, x < 2 ^ t.bits → y < 2 ^ t.bits → z < 2 ^ t.bits →
    (fn x y z).1 % 2 ^ t.bits = (fn' x y z).1 % 2 ^ t.bits ∧ (fn x y z).2 = (fn' x y z).2) : vecLanes o f t s fn = vecLanes o f t s fn' :=
  vecEnds_congr (setLanes_congr _ _ fun _ _ _ _ _ => h _ _ _ (subOf_lt ..) (subOf_lt ..) (subOf_lt ..))

/-- An op over the sub-vectors of its operands. -/
theorem vecMap_ready {fn : Nat → Nat → Nat → Nat × Flags} (h : vecReady o f t s) : vecMap o f t fn s = vecLanes o f t s fn := runVec_ready h

end Ready

end Sys2Proof.Machine
end

