-- ==== Sys2Proof/Proofs/LaneWrites.lean ====
section
/-!
SUPPORT. What a vector op leaves (R178, R14, R47): the computed sub-vectors in the active lanes of its destination, every other lane and register, and
the flags of the active lanes (O8).
-/
namespace Sys2Proof.Machine

/-! ### Flags raised -/

theorem getV_raise (fl : Flags) (g : Group) (n : Nat) : getV (raise fl g) n = getV g n := rfl

theorem getS_raise_self (fl : Flags) (g : Group) : getS (raise fl g) 60 = getS g 60 ||| fl.setWidth 64 :=
  getElem!_set!_self _ _ (by decide)

theorem getS_raise_ne (fl : Flags) (g : Group) {n : Nat} (h : n % 64 ≠ 60) : getS (raise fl g) n = getS g n := by
  rw [getS, getS, raise]
  dsimp only
  rw [getElem!_set!_ne _ _ h]

/-! ### Lanes written -/

section Lanes
variable (t : Ty) (d : Nat) (act : W32) (fn : Nat → Nat → Nat × Flags) (g : Group)

theorem getV_setLanes_self : getV (setLanes t d act (laneResults t act fn) g) d = lanesReg t act fn (getV g d) := by
  rw [setLanes_laneResults, getV_raise, getV_setV_self]

theorem getV_setLanes_ne {n : Nat} (h : n % 256 ≠ d % 256) (rs : List (List (Nat × Flags))) : getV (setLanes t d act rs g) n = getV g n :=
  getV_setV_ne g h _

theorem lanesReg_on (old : VReg) {i : Nat} (hi : i < 32) (ha : act.getLsbD i = true) :
    (lanesReg t act fn old)[i % 32]! = BitVec.ofNat 32 (joinSubs t ((List.range t.count).map fun k => (fn i k).1)) := by
  rw [Nat.mod_eq_of_lt hi, getElem!_pos _ i hi, lanesReg, Vector.getElem_ofFn, if_pos (show lane act i = true from ha)]

theorem lanesReg_off (old : VReg) {i : Nat} (hi : i < 32) (ha : act.getLsbD i = false) : (lanesReg t act fn old)[i % 32]! = old[i % 32]! := by
  have hoff : ¬lane act i = true := Bool.eq_false_iff.1 ha
  rw [Nat.mod_eq_of_lt hi, getElem!_pos _ i hi, getElem!_pos _ i hi, lanesReg, Vector.getElem_ofFn, if_neg hoff]

/-- A sub-vector of an active lane is the computed one. -/
theorem subOf_getLane_setLanes {i k : Nat} (hi : i < 32) (hk : k < t.count) (ha : act.getLsbD i = true) :
    subOf t (getLane (setLanes t d act (laneResults t act fn) g) d i) k = (fn i k).1 % 2 ^ t.bits := by
  rw [getLane, getV_setLanes_self, lanesReg_on _ _ _ _ hi ha, subOf_joinSubs (by simp)]
  simp [hk]

theorem getLane_setLanes_off {i : Nat} (hi : i < 32) (ha : act.getLsbD i = false) :
    getLane (setLanes t d act (laneResults t act fn) g) d i = getLane g d i := by
  rw [getLane, getV_setLanes_self, lanesReg_off _ _ _ _ hi ha, getLane]

/-- The flags of the active lanes, beside those raised before. -/
theorem getLsbD_flags_setLanes {j : Nat} (hj : j < 9) : (getS (setLanes t d act (laneResults t act fn) g) 60).getLsbD j = true ↔
    (getS g 60).getLsbD j = true ∨ ∃ i k, i < 32 ∧ k < t.count ∧ act.getLsbD i = true ∧ (fn i k).2.getLsbD j = true := by
  have hbit : ((resultFlags (laneResults t act fn)).setWidth 64).getLsbD j = (resultFlags (laneResults t act fn)).getLsbD j := by
    rw [BitVec.getLsbD_setWidth, decide_eq_true (hj.trans (by decide)), Bool.true_and]
  rw [setLanes_laneResults, getS_raise_self, BitVec.getLsbD_or, Bool.or_eq_true, hbit, getLsbD_resultFlags]
  rfl

end Lanes

/-- Settles O8: each clause is one of the rules of lanes written. -/
theorem laneWrites : Obligations.LaneWrites := by
  unfold Obligations.LaneWrites
  intro t d fn v g hd h at_
  refine ⟨?active, ?inactive, ?registers, ?flags, ?scalars, rfl⟩
  case active => exact fun i k hi hk ha => subOf_getLane_setLanes t d v.act _ g hi hk ha
  case inactive => exact fun i hi ha => getLane_setLanes_off t d v.act _ g hi ha
  case registers => exact fun n hn hne => getV_setLanes_ne t d v.act g (mod_ne_mod hn hd hne) _
  case flags => exact fun j hj => getLsbD_flags_setLanes t d v.act _ g hj
  case scalars => exact fun n hne hn => getS_raise_ne _ _ (by omega)

end Sys2Proof.Machine
end

