-- ==== Sys2Proof/Proofs/VectorIntegers.lean ====
section
/-!
SUPPORT. Integer vector ops (R182, R183): the value that a pattern of the type's width has, the pattern that a result leaves, and the ops that give each
active lane a number (O6).
-/
namespace Sys2Proof.Machine

/-! ### Patterns and values -/

/-- A pattern of w bits read as an integer. -/
theorem intRead_of_lt {w x : Nat} (sgn : Bool) (h : x < 2 ^ w) :
    intRead w sgn x = if sgn = true ∧ 2 ^ (w - 1) ≤ x then (x : Int) - 2 ^ w else x := by
  simp [intRead, Nat.mod_eq_of_lt h]

theorem intWrap_eq (w : Nat) (v : Int) : intWrap w v = (v % 2 ^ w).toNat := by rw [intWrap, Nat.cast_pow, Nat.cast_ofNat]

theorem intRange_eq (w : Nat) (sgn : Bool) :
    intRange w sgn = (if sgn then -2 ^ (w - 1) else 0, if sgn then 2 ^ (w - 1) - 1 else 2 ^ w - 1) := by
  rw [intRange, Nat.cast_pow, Nat.cast_pow, Nat.cast_ofNat]
  cases sgn <;> rfl

/-- A result wraps, or is clamped to the type's range with SAT (R70, R83). -/
theorem intFinish_eq (w : Nat) (sgn sat : Bool) (v : Int) {lo hi : Int} (h : intRange w sgn = (lo, hi)) : intFinish w sgn sat v =
    if sat = true ∧ v < lo then ((lo % 2 ^ w).toNat, flagSAT)
    else if sat = true ∧ hi < v then ((hi % 2 ^ w).toNat, flagSAT)
    else ((v % 2 ^ w).toNat, 0) := by
  rw [intFinish, intSat, h]
  cases sat
  · simp [intWrap_eq]
  · dsimp only
    by_cases hlo : v < lo
    · simp [hlo, intWrap_eq]
    · by_cases hhi : hi < v <;> simp [hlo, hhi, intWrap_eq]

/-! ### The ops -/

section Ops
variable {o : Op} {f : OpF} {s : State}

/-- A class 1 op on integers, by the operation on the values that its operands' patterns have (R183). -/
theorem vecInt_ready (h : vecReady o f (ty0 f) s) {fn : Int → Int → Int → Int} {val : Nat → Int} {fit : Int → Nat × Flags}
    (hval : ∀ x, x < 2 ^ (ty0 f).bits → intRead (ty0 f).bits (ty0 f).signed x = val x)
    (hfit : ∀ v, intFinish (ty0 f).bits (ty0 f).signed (satOpt f) v = fit v) :
    vecInt o f fn s = vecLanes o f (ty0 f) s fun x y z => fit (fn (val x) (val y) (val z)) := by
  refine (vecMap_ready h).trans (vecLanes_congr fun x y z hx hy hz => ?_)
  rw [hval x hx, hval y hy, hval z hz, hfit]
  exact ⟨rfl, rfl⟩

theorem natAbs_sub_eq (x y : Int) : ((x - y).natAbs : Int) = if x ≤ y then y - x else x - y := by split <;> omega

end Ops

/-- Settles O6: each arithmetic op by its operation on the operands' values, and the moves by their bodies. -/
theorem vectorIntegers : Obligations.VectorIntegers := by
  unfold Obligations.VectorIntegers
  intro f s t w val lo hi fit arith
  have hval : ∀ x, x < 2 ^ t.bits → intRead t.bits t.signed x = val x := fun x hx => intRead_of_lt t.signed hx
  have hfit : ∀ v, intFinish t.bits t.signed (satOpt f) v = fit v := fun v => intFinish_eq _ _ _ v (intRange_eq t.bits t.signed)
  have hint : ∀ {o fn}, vecReady o f t s → vecInt o f fn s = arith o fn := fun h => vecInt_ready h hval hfit
  refine ⟨?vmov, ?vli, ?vlane, ?vadd, ?vsub, ?vmul, ?vmulhi, ?vmad, ?vmin, ?vmax, ?vabsdiff⟩
  case vmov => exact fun h => vecMap_ready h
  case vli => exact fun h => runVec_ready h
  case vlane => exact fun h => (runVec_ready h).trans (by simp only [intWrap_eq]; rfl)
  case vadd => exact fun h => show execVadd f s = _ from hint h
  case vsub => exact fun h => show execVsub f s = _ from hint h
  case vmul => exact fun h => show execVmul f s = _ from hint h
  case vmulhi =>
    intro h
    have hdiv : ∀ x : Int, x.fdiv (2 ^ (ty0 f).bits : Nat) = x / 2 ^ (ty0 f).bits := fun x => by
      rw [Int.fdiv_eq_ediv_of_nonneg _ (Int.natCast_nonneg _), Nat.cast_pow, Nat.cast_ofNat]
    exact (show execVmulhi f s = _ from hint h).trans (by simp only [hdiv]; rfl)
  case vmad => exact fun h => show execVmad f s = _ from hint h
  case vmin => exact fun h => (show execVmin f s = _ from hint h).trans (by simp only [min_def])
  case vmax => exact fun h => (show execVmax f s = _ from hint h).trans (by simp only [max_def])
  case vabsdiff => exact fun h => (show execVabsdiff f s = _ from hint h).trans (by simp only [natAbs_sub_eq])

end Sys2Proof.Machine
end

