-- ==== Sys2Proof/Proofs/VectorBits.lean ====
section
/-!
SUPPORT. Bit ops and field ops of class 1 (R184): shifts, the rotate and bit fields as arithmetic on the patterns of the sub-vectors (O7).
-/
namespace Sys2Proof.Machine

/-! ### Shifts and the rotate -/

section Shifts
variable {w n x : Nat}

/-- A shift to the right of the value that a pattern has: bits of the sign come in. -/
theorem intWrap_fdiv (sgn : Bool) (h : x < 2 ^ w) : intWrap w ((intRead w sgn x).fdiv (2 ^ n : Nat)) =
    if sgn = true ∧ 2 ^ (w - 1) ≤ x then 2 ^ w - 1 - ((2 ^ w - 1 - x) >>> n) else x >>> n := by
  rw [Int.fdiv_eq_ediv_of_nonneg _ (Int.natCast_nonneg _), intRead_of_lt sgn h, Nat.shiftRight_eq_div_pow, Nat.shiftRight_eq_div_pow, intWrap]
  split
  · have hneg : (x : Int) - 2 ^ w = Int.negSucc (2 ^ w - 1 - x) := by
      rw [Int.negSucc_eq, Nat.cast_sub (by omega), Nat.cast_sub (by omega)]
      push_cast
      ring
    have hdiv : Int.negSucc (2 ^ w - 1 - x) / (2 ^ n : Nat) = -(((2 ^ w - 1 - x) / 2 ^ n : Nat) + 1) := Int.negSucc_ediv _ (by positivity)
    have hle : (2 ^ w - 1 - x) / 2 ^ n ≤ 2 ^ w - 1 - x := Nat.div_le_self ..
    rw [hneg, hdiv, ← Int.add_emod_right]
    generalize (2 ^ w - 1 - x) / 2 ^ n = q at hle ⊢
    rw [Int.emod_eq_of_lt (by omega) (by omega)]
    omega
  · have hlt : x / 2 ^ n < 2 ^ w := (Nat.div_le_self ..).trans_lt h
    rw [← Int.natCast_ediv, ← Int.natCast_mod, Int.toNat_natCast, Nat.mod_eq_of_lt hlt]

/-- A rotate to the right by n bits: the low n bits come in at the top. -/
theorem rotate_mod (h : x < 2 ^ w) (hn : n < w) :
    (x / 2 ^ n + x * 2 ^ (w - n)) % 2 ^ w = if n = 0 then x else x / 2 ^ n + x % 2 ^ n * 2 ^ (w - n) := by
  have hpow : 2 ^ n * 2 ^ (w - n) = 2 ^ w := by rw [← pow_add]; congr 1; omega
  have hsplit : x * 2 ^ (w - n) = x % 2 ^ n * 2 ^ (w - n) + 2 ^ w * (x / 2 ^ n) := by
    conv_lhs => rw [← Nat.mod_add_div x (2 ^ n)]
    rw [← hpow]
    ring
  rw [hsplit, ← add_assoc, Nat.add_mul_mod_self_left]
  by_cases h0 : n = 0
  · subst h0
    simp [Nat.mod_one, Nat.mod_eq_of_lt h]
  · have hhigh : x / 2 ^ n < 2 ^ (w - n) := Nat.div_lt_of_lt_mul (hpow ▸ h)
    have hlow : x % 2 ^ n < 2 ^ n := Nat.mod_lt _ (by positivity)
    rw [if_neg h0, Nat.mod_eq_of_lt]
    calc x / 2 ^ n + x % 2 ^ n * 2 ^ (w - n) < (x % 2 ^ n + 1) * 2 ^ (w - n) := by rw [Nat.succ_mul]; omega
      _ ≤ 2 ^ n * 2 ^ (w - n) := Nat.mul_le_mul_right _ hlow
      _ = 2 ^ w := hpow

end Shifts

/-! ### Fields -/

/-- A pattern of w bits read as a signed number. -/
theorem sextNat_of_lt {w y : Nat} (hw : 0 < w) (h : y < 2 ^ w) : sextNat w y = if 2 ^ (w - 1) ≤ y then (y : Int) - 2 ^ w else y := by
  have hhalf : 2 ^ w = 2 * 2 ^ (w - 1) := by rw [← pow_succ', Nat.sub_add_cancel hw]
  have hiff : 2 ^ w ≤ 2 * y ↔ 2 ^ (w - 1) ≤ y := by omega
  simp [sextNat, Nat.mod_eq_of_lt h, hiff]

section Fields
variable {w pos len : Nat}

/-- A field of a pattern, extended to the pattern's width by its sign where the type has one. -/
theorem extend_field (sgn : Bool) {y : Nat} (h : y < 2 ^ len) (hlen : 0 < len) (hw : len ≤ w) :
    (if sgn then intWrap w (sextNat len y) else y) = if sgn = true ∧ 2 ^ (len - 1) ≤ y then y + 2 ^ w - 2 ^ len else y := by
  have hle : 2 ^ len ≤ 2 ^ w := Nat.pow_le_pow_right (by decide) hw
  have hsext : intWrap w (sextNat len y) = if 2 ^ (len - 1) ≤ y then y + 2 ^ w - 2 ^ len else y := by
    have hcast : (2 : Int) ^ len = (2 ^ len : Nat) := by rw [Nat.cast_pow, Nat.cast_ofNat]
    rw [sextNat_of_lt hlen h, hcast, intWrap]
    split
    · rw [← Int.add_emod_right, Int.emod_eq_of_lt (by omega) (by omega)]
      omega
    · rw [Int.emod_eq_of_lt (by omega) (by omega), Int.toNat_natCast]
  rw [hsext]
  cases sgn <;> simp

/-- The bits of a pattern under a field's mask. -/
theorem land_fieldMask (x : Nat) : Nat.land x ((2 ^ len - 1) * 2 ^ pos) = x / 2 ^ pos % 2 ^ len * 2 ^ pos := by
  have hmask : (x &&& (2 ^ len - 1) <<< pos) = (x >>> pos &&& (2 ^ len - 1)) <<< pos := by
    refine Nat.eq_of_testBit_eq fun j => ?_
    rw [Nat.testBit_and, Nat.testBit_shiftLeft, Nat.testBit_shiftLeft, Nat.testBit_and, Nat.testBit_shiftRight]
    by_cases h : pos ≤ j
    · rw [Nat.add_sub_cancel' h]
      cases x.testBit j <;> simp
    · simp [h]
  rw [Nat.shiftLeft_eq, Nat.and_two_pow_sub_one_eq_mod, Nat.shiftRight_eq_div_pow, Nat.shiftLeft_eq] at hmask
  exact hmask

/-- A field of a pattern replaced. -/
theorem insert_field (x old : Nat) :
    old - Nat.land old ((2 ^ len - 1) * 2 ^ pos) + Nat.land (x * 2 ^ pos) ((2 ^ len - 1) * 2 ^ pos) =
      old % 2 ^ pos + x % 2 ^ len * 2 ^ pos + old / 2 ^ (pos + len) * 2 ^ (pos + len) := by
  have hlow := Nat.mod_add_div old (2 ^ pos)
  have hhigh := Nat.mod_add_div (old / 2 ^ pos) (2 ^ len)
  have hold : old = old % 2 ^ pos + old / 2 ^ pos % 2 ^ len * 2 ^ pos + old / 2 ^ (pos + len) * 2 ^ (pos + len) := by
    conv_lhs => rw [← hlow, ← hhigh, Nat.div_div_eq_div_mul, ← pow_add]
    ring
  rw [land_fieldMask, land_fieldMask, Nat.mul_div_cancel _ (by positivity)]
  omega

end Fields

/-- A vector field word that is legal (R184). -/
theorem vfOk_of_field {f : OpF} (h : imm24 f < 2 ^ 10 ∧ imm24 f % 32 + (imm24 f / 32 % 32 + 1) ≤ (ty0 f).bits) : vfOk f = true := by
  rw [vfOk, Bool.and_eq_true, decide_eq_true_eq, decide_eq_true_eq]
  exact h

/-- A bit op, by an operation that agrees with the model's on patterns of the type's width (R184). -/
theorem vecBits_ready {o : Op} {f : OpF} {s : State} (h : vecReady o f (ty0 f) s) {fn fn' : Nat → Nat → Nat}
    (hfn : ∀ x y, x < 2 ^ (ty0 f).bits → fn x y % 2 ^ (ty0 f).bits = fn' x y % 2 ^ (ty0 f).bits) :
    vecBits o f fn s = vecLanes o f (ty0 f) s fun x y _ => (fn' x y, 0) :=
  (vecMap_ready h).trans (vecLanes_congr fun x y _ hx _ _ => ⟨(Nat.mod_mod ..).trans (hfn x y hx), rfl⟩)

/-- Settles O7: the bit ops agree with their arithmetic on patterns of the type's width, and the field ops where their field word is legal. -/
theorem vectorBits : Obligations.VectorBits := by
  unfold Obligations.VectorBits
  intro f s t w bits pos len field get
  have hmod : ∀ {a b : Nat}, a = b → a % 2 ^ w = b % 2 ^ w := congrArg (· % 2 ^ w)
  refine ⟨?vand, ?vor, ?vxor, ?vshl, ?vshr, ?vrot, ?vbfx, ?vbfi, ?vpopc, ?vclz⟩
  case vand => exact fun h => show execVand f s = _ from vecBits_ready h fun _ _ _ => rfl
  case vor => exact fun h => show execVor f s = _ from vecBits_ready h fun _ _ _ => rfl
  case vxor => exact fun h => show execVxor f s = _ from vecBits_ready h fun _ _ _ => rfl
  case vshl =>
    exact fun h => show execVshl f s = _ from vecBits_ready h fun x y _ => (hmod (Nat.shiftLeft_eq x (y % w)).symm).trans (Nat.mod_mod ..).symm
  case vshr => exact fun h => show execVshr f s = _ from vecBits_ready h fun x y hx => hmod (intWrap_fdiv t.signed hx)
  case vrot =>
    exact fun h => show execVrot f s = _ from vecBits_ready h fun x y hx =>
      (Nat.mod_mod ..).symm.trans (hmod (rotate_mod hx (Nat.mod_lt y t.bits_pos)))
  case vbfx =>
    intro h hf
    have hget : ∀ x, get x < 2 ^ len := fun x => Nat.mod_lt _ (by positivity)
    refine (runVecIf_ready h (vfOk_of_field hf)).trans (vecLanes_congr fun x _ _ _ _ _ => ⟨hmod ?_, rfl⟩)
    exact extend_field t.signed (hget x) (Nat.succ_pos _) ((Nat.le_add_left ..).trans hf.2)
  case vbfi =>
    intro h hf
    refine (runVecIf_ready h (vfOk_of_field hf)).trans (vecEnds_congr (setLanes_congr _ _ fun _ _ _ _ _ => ⟨?_, rfl⟩))
    exact hmod (insert_field ..)
  case vpopc => exact fun h => show execVpopc f s = _ from vecBits_ready h fun x _ _ => hmod (popCount_eq w x)
  case vclz => exact fun h => show execVclz f s = _ from vecBits_ready h fun x _ hx => hmod (leadZeros_eq hx)

end Sys2Proof.Machine
end

