-- ==== Sys2Proof/Proofs/Predicates.lean ====
section
/-!
SUPPORT. Predicates (R185, R186, R190, R198): the condition that a compare finds in each active lane and the flags that it raises, and the compares with
no active lane (O9).
-/
namespace Sys2Proof.Machine

/-! ### A mask from conditions -/

/-- Conditions put in from bit n on. -/
theorem testBit_maskFold (cs : List Bool) {n a : Nat} (h : a < 2 ^ n) (i : Nat) :
    ((cs.zipIdx n).foldl (fun a c => if c.1 then a + 2 ^ c.2 else a) a).testBit i = if i < n then a.testBit i else cs.getD (i - n) false := by
  induction cs generalizing n a with
  | nil =>
    by_cases hi : i < n
    · simp [hi]
    · simpa [hi] using Nat.testBit_lt_two_pow (h.trans_le (Nat.pow_le_pow_right (by decide) (not_lt.1 hi)))
  | cons c cs ih =>
    have hlt : (if c then a + 2 ^ n else a) < 2 ^ (n + 1) := by rw [pow_succ]; split <;> omega
    have hbit : (if c then a + 2 ^ n else a).testBit i = if i < n then a.testBit i else c && decide (i - n = 0) := by
      have hadd := Nat.testBit_two_pow_mul_add (if c then 1 else 0) h i
      have hone : (if c then 1 else 0 : Nat).testBit (i - n) = (c && decide (i - n = 0)) := by
        cases c
        · simp
        · exact Bool.eq_iff_iff.2 (by simp [Nat.testBit_one_eq_true_iff_self_eq_zero])
      rw [← hone, ← hadd]
      cases c <;> simp [add_comm]
    rw [List.zipIdx_cons, List.foldl_cons, ih hlt, hbit]
    rcases lt_trichotomy i n with hi | rfl | hi
    · simp [hi, Nat.lt_succ_of_lt hi]
    · simp
    · obtain ⟨k, rfl⟩ := Nat.exists_eq_add_of_lt hi
      have hk : n + k + 1 - n = k + 1 := by omega
      have hk' : n + k + 1 - (n + 1) = k := by omega
      rw [if_neg (by omega), if_neg (by omega), hk, hk', List.getD_cons_succ]

theorem getLsbD_maskOf (cs : List Bool) {i : Nat} (hi : i < 32) : (maskOf cs).getLsbD i = cs.getD i false := by
  have hbit := testBit_maskFold cs (n := 0) (a := 0) (by decide) i
  rw [maskOf, BitVec.getLsbD_ofNat, decide_eq_true hi, Bool.true_and, hbit]
  rfl

/-! ### Compares -/

/-- What a compare finds in the sub-vectors of the active lanes. -/
def cmpResults (t : Ty) (p : Nat → Nat → Bool × Flags) (v : VIn) : List (List (Bool × Flags)) :=
  (List.range 32).map fun i =>
    if lane v.act i then (List.range t.count).map fun k => p (subOf t (v.a[i % 32]!) k) (subOf t (v.b[i % 32]!) k) else []

/-- The lanes whose condition holds. -/
def cmpMask (sub : Nat) (t : Ty) (p : Nat → Nat → Bool × Flags) (v : VIn) : W32 :=
  maskOf ((cmpResults t p v).map fun r => !r.isEmpty && cmpLane sub (r.map Prod.fst))

/-- The flags that a compare raises. -/
def cmpFlags (t : Ty) (p : Nat → Nat → Bool × Flags) (v : VIn) : Flags :=
  (cmpResults t p v).foldl (fun a r => r.foldl (fun a x => a ||| x.2) a) 0

section Compare
variable {t : Ty} {p q : Nat → Nat → Bool × Flags} {v : VIn}

theorem cmpResults_congr (h : ∀ x y, x < 2 ^ t.bits → y < 2 ^ t.bits → p x y = q x y) : cmpResults t p v = cmpResults t q v := by
  unfold cmpResults
  simp only [h _ _ (subOf_lt ..) (subOf_lt ..)]

theorem getLsbD_cmpMask (sub : Nat) {i : Nat} (hi : i < 32) : (cmpMask sub t p v).getLsbD i =
    (v.act.getLsbD i && cmpLane sub ((List.range t.count).map fun k => (p (subOf t (v.a[i % 32]!) k) (subOf t (v.b[i % 32]!) k)).1)) := by
  have hne : (List.range t.count).isEmpty = false := by cases t <;> rfl
  rw [cmpMask, getLsbD_maskOf _ hi, cmpResults]
  change _ = (lane v.act i && _)
  by_cases ha : lane v.act i = true <;> simp [hi, ha, hne, Function.comp_def]

theorem getLsbD_cmpFlags (j : Nat) : (cmpFlags t p v).getLsbD j = true ↔ ∃ i k, i < 32 ∧ k < t.count ∧ v.act.getLsbD i = true ∧
    (p (subOf t (v.a[i % 32]!) k) (subOf t (v.b[i % 32]!) k)).2.getLsbD j = true := by
  rw [cmpFlags, getLsbD_foldl_foldl_or, or_iff_right (by simp)]
  exact exists_mem_results (fun e : Bool × Flags => e.2.getLsbD j = true) v.act t.count _

/-- The lane's condition, by the sub-vector selector (R185). -/
theorem cmpLane_map_range {sub n : Nat} (cs : Nat → Bool) (h : sub = 0 ∨ sub = 1 ∨ (4 ≤ sub ∧ sub - 4 < n)) :
    cmpLane sub ((List.range n).map cs) =
      if sub = 0 then (List.range n).all cs else if sub = 1 then (List.range n).any cs else cs (sub - 4) := by
  rcases h with rfl | rfl | ⟨h4, hn⟩
  · simp [cmpLane]
  · simp [cmpLane]
  · obtain ⟨k, rfl⟩ := Nat.exists_eq_add_of_le' h4
    rw [Nat.add_sub_cancel] at hn
    rw [if_neg (by omega), if_neg (by omega), Nat.add_sub_cancel]
    change ((List.range n).map cs).getD (k + 4 - 4) false = cs k
    simp [hn]

end Compare

/-! ### The compare word (R185) -/

section Word
variable {f : OpF}

theorem cmpV_eq (f : OpF) : cmpV f = if f.form = .long then f.imm.getLsbD 3 else f.opt := by
  have hbit : decide (imm24 f / 8 % 2 = 1) = f.imm.getLsbD 3 := by
    have hdiv : imm24 f / 8 % 2 = f.imm.toNat / 2 ^ 3 % 2 := by
      rw [imm24, BitVec.extractLsb'_toNat]
      omega
    rw [hdiv, BitVec.getLsbD, Nat.testBit_eq_decide_div_mod_eq]
  rw [cmpV, hbit]

theorem cmpOk_of_word (hlong : f.form = .long → imm24 f < 16)
    (hsub : cmpSub f = 0 ∨ cmpSub f = 1 ∨ (4 ≤ cmpSub f ∧ cmpSub f - 4 < (ty0 f).count)) : cmpOk f = true := by
  have hform : (f.form ≠ .long || decide (imm24 f < 16)) = true := by
    by_cases hl : f.form = .long
    · simp [hl, hlong hl]
    · simp [hl]
  simp only [cmpOk, hform, Bool.true_and, Bool.and_eq_true, Bool.or_eq_true, decide_eq_true_eq]
  omega

/-- The relation that a VCMP names (R185), on the patterns of its operands and on their values. -/
theorem relV_eq {t : Ty} {val : Nat → Int} (hval : ∀ x, x < 2 ^ t.bits → intRead t.bits t.signed x = val x) (rel : Nat) (var : Bool) {x y : Nat}
    (hx : x < 2 ^ t.bits) (hy : y < 2 ^ t.bits) :
    relV rel var t x y = (if rel = 0 then (if var then x &&& y = 0 else x = y)
      else if rel = 1 then (if var then x &&& y ≠ 0 else x ≠ y)
      else if rel = 2 then (if var then val y < val x else val x < val y)
      else (if var then val y ≤ val x else val x ≤ val y) : Bool) := by
  have hinj : val x = val y ↔ x = y := by
    rw [← hval x hx, ← hval y hy]
    refine ⟨fun h => ?_, fun h => h ▸ rfl⟩
    rw [intRead, intRead, Nat.mod_eq_of_lt hx, Nat.mod_eq_of_lt hy] at h
    split at h <;> split at h <;> omega
  match rel with
  | 0 => cases var <;> simp [relV, hval x hx, hval y hy, hinj]
  | 1 => cases var <;> simp [relV, hval x hx, hval y hy, hinj]
  | 2 => cases var <;> simp [relV, hval x hx, hval y hy]
  | _ + 3 => cases var <;> simp [relV, hval x hx, hval y hy]

end Word

/-! ### The ops -/

section Ops
variable {o : Op} {f : OpF} {s : State}

/-- A compare that is ready, with a legal word, by a relation that agrees with the model's on patterns of the type's width. -/
theorem vecCmp_ready (h : vecReady o f (ty0 f) s) (hok : cmpOk f = true) {p q : Nat → Nat → Bool × Flags}
    (hp : ∀ x y, x < 2 ^ (ty0 f).bits → y < 2 ^ (ty0 f).bits → p x y = q x y) :
    vecCmp o f p s = vecEnds o f (ty0 f) s fun v g =>
      raise (cmpFlags (ty0 f) q v) (setPredPair f (cmpMask (cmpSub f) (ty0 f) q v) (v.act &&& ~~~cmpMask (cmpSub f) (ty0 f) q v) g) := by
  obtain ⟨hissues, hmaps⟩ := h
  have hres : ∀ v, cmpResults (ty0 f) p v = cmpResults (ty0 f) q v := fun v => cmpResults_congr hp
  simp only [cmpFlags, cmpMask, ← hres]
  rw [vecCmp, runWith_issues hissues]
  dsimp only
  rw [hok, Bool.not_true, if_neg (by decide)]
  exact congrArg (finish s) (vecBody_ready hmaps)

/-- An op whose guard is a predicate would not execute where no lane is active (R136). -/
theorem would_of_no_lane (hg : guardK o = false) (h : lanesOn f s = 0) : would o f s.g = false := by
  rw [would, guardHolds, hg, if_neg (by decide), decide_eq_false_iff_not, not_not]
  exact h

/-- A compare with no active lane clears both predicates (R139, R185). -/
theorem vecCmp_off {p : Nat → Nat → Bool × Flags} (h : waitsExm o s.g = false) (hg : guardK o = false) (h0 : lanesOn f s = 0) :
    vecCmp o f p s = goesOn s (setPredPair f 0 0 s.g) := by
  rw [vecCmp]
  exact runWith_off h (would_of_no_lane hg h0)

theorem predB_eq (g : Group) (f : OpF) : predB g f = if f.opt then ~~~(getP g f.b.reg.toNat) else getP g f.b.reg.toNat := by
  cases h : f.opt
  · simp [predB, h]
  · simp only [predB, h, if_true]
    exact BitVec.xor_allOnes

end Ops

/-- Settles O9: a compare by the mask and the flags that its relation gives, the select and the predicate ops by their bodies. -/
theorem predicatesAndSelects : Obligations.PredicatesAndSelects := by
  unfold Obligations.PredicatesAndSelects
  intro f s t pd1 pd2 rel sub var word meets writes val int pb pa
  have hwrites : ∀ {o : Op} {p q : Nat → Nat → Bool × Flags}, vecReady o f t s → word →
      (∀ x y, x < 2 ^ t.bits → y < 2 ^ t.bits → p x y = q x y) → writes o q (vecCmp o f p s) := by
    intro o p q h hword hp
    obtain ⟨hlong, hsub⟩ := hword
    refine ⟨cmpMask sub t q (vecIn o f t s), fun i hi => ?_, cmpFlags t q (vecIn o f t s), fun j _ => getLsbD_cmpFlags j, ?_⟩
    · rw [getLsbD_cmpMask _ hi, cmpLane_map_range _ hsub]
      rfl
    · exact (vecCmp_ready h (cmpOk_of_word hlong hsub) hp).trans (vecEnds_congr rfl)
  refine ⟨?vcmp, ?vfcmp, ?vcmp_off, ?vfcmp_off, ?vsel, ?pand, ?por, ?pxor⟩
  case vcmp =>
    have hval : ∀ x, x < 2 ^ t.bits → intRead t.bits t.signed x = val x := fun x hx => intRead_of_lt t.signed hx
    refine fun h hword => show writes .vcmp (fun x y => (int x y, 0)) (execVcmp f s) from
      hwrites (q := fun x y => (int x y, 0)) h hword fun x y hx hy => ?_
    rw [cmpV_eq, relV_eq hval _ _ hx hy]
  case vfcmp =>
    refine fun h hword => show writes .vfcmp (fCompare t.fmt rel var) (execVfcmp f s) from
      hwrites (q := fCompare t.fmt rel var) h hword fun x y _ _ => ?_
    rw [cmpV_eq]
  case vcmp_off => exact fun h h0 => show execVcmp f s = _ from vecCmp_off h rfl h0
  case vfcmp_off => exact fun h h0 => show execVfcmp f s = _ from vecCmp_off h rfl h0
  case vsel => exact fun h => (runVec_ready h).trans (vecEnds_congr rfl)
  case pand => exact fun h => (runP_issues h).trans (by rw [predB_eq])
  case por => exact fun h => (runP_issues h).trans (by rw [predB_eq])
  case pxor => exact fun h => (runP_issues h).trans (by rw [predB_eq])

end Sys2Proof.Machine
end

