-- ==== Sys2Proof/Proofs/VectorFloats.lean ====
section
/-!
SUPPORT. Float ops of class 2 (R188 to R191, R82): every conversion gives a pattern of the destination's width, and VPACK puts the converted
sub-vectors between those that it keeps (O10).
-/
namespace Sys2Proof.Machine

/-! ### A conversion gives a pattern of the destination's width -/

section Widths
variable {t : FFmt}

theorem fCanon_lt (h : t ∈ [fmtF32, fmtF16, fmtBF16, fmtE4M3, fmtE5M2]) : fCanon t < 2 ^ (t.eb + t.fb) := by
  revert t
  decide

theorem fInf_lt (h : t ∈ [fmtF32, fmtF16, fmtBF16, fmtE4M3, fmtE5M2]) (neg : Bool) : fInf t neg < 2 ^ (t.eb + t.fb + 1) := by
  revert t neg
  decide

theorem fOverflow_lt (h : t ∈ [fmtF32, fmtF16, fmtBF16, fmtE4M3, fmtE5M2]) (mode : Nat) (sat neg : Bool) :
    (fOverflow t mode sat neg).1 < 2 ^ (t.eb + t.fb + 1) := by
  have hbig := signBit_add_lt neg (wf_of_mem h).big_lt
  have heither : ∀ big : Bool, (if big then fSignBit t neg + t.big else fInf t neg) < 2 ^ (t.eb + t.fb + 1) := fun big => by
    cases big
    · exact fInf_lt h neg
    · exact hbig
  unfold fOverflow
  split
  · exact hbig
  · exact heither _

theorem fRound_lt (h : t ∈ [fmtF32, fmtF16, fmtBF16, fmtE4M3, fmtE5M2]) (mode : Nat) (sat : Bool) (v : XV) :
    (fRound t mode sat v).1 < 2 ^ (t.eb + t.fb + 1) := by
  have hpow : 2 ^ (t.eb + t.fb) < 2 ^ (t.eb + t.fb + 1) := Nat.pow_lt_pow_right (by decide) (Nat.lt_succ_self _)
  cases v with
  | nan => exact (fCanon_lt h).trans hpow
  | inf neg => exact fInf_lt h neg
  | fin neg m e =>
    unfold fRound
    dsimp only
    split
    · exact signBit_add_lt neg (x := 0) (by positivity)
    · split
      · exact fOverflow_lt h mode sat neg
      · next hle => exact signBit_add_lt neg ((not_lt.1 hle).trans_lt (wf_of_mem h).big_lt)

/-- A NaN carried into another format (R82). -/
theorem nanConvert_lt (h : t ∈ [fmtF32, fmtF16, fmtBF16, fmtE4M3, fmtE5M2]) (s : FFmt) (x : Nat) :
    nanConvert s t x < 2 ^ (t.eb + t.fb + 1) := by
  unfold nanConvert
  split
  · next he =>
    refine signBit_add_lt _ ?_
    have : ∀ t ∈ [fmtF32, fmtF16, fmtBF16, fmtE4M3, fmtE5M2], t.e4m3 = true → 0x7F < 2 ^ (t.eb + t.fb) := by decide
    exact this t h he
  · split
    · exact signBit_add_lt _ (fCanon_lt h)
    · dsimp only
      rw [add_assoc]
      refine signBit_add_lt _ ?_
      have hfb := (wf_of_mem h).fb_pos
      have hfrac : (if s.fb ≤ t.fb then fFrac s x * 2 ^ (t.fb - s.fb) else fFrac s x / 2 ^ (s.fb - t.fb)) < 2 ^ t.fb := by
        have hlt : fFrac s x < 2 ^ s.fb := Nat.mod_lt _ (by positivity)
        split
        · next hle =>
          calc fFrac s x * 2 ^ (t.fb - s.fb) < 2 ^ s.fb * 2 ^ (t.fb - s.fb) := Nat.mul_lt_mul_of_pos_right hlt (by positivity)
            _ = 2 ^ t.fb := by rw [← pow_add, Nat.add_sub_cancel' hle]
        · next hle =>
          refine Nat.div_lt_of_lt_mul (hlt.trans_eq ?_)
          rw [← pow_add]
          congr 1
          omega
      generalize (if s.fb ≤ t.fb then fFrac s x * 2 ^ (t.fb - s.fb) else fFrac s x / 2 ^ (s.fb - t.fb)) = y at hfrac ⊢
      have hhalf : 2 ^ t.fb = 2 ^ (t.fb - 1) * 2 := by rw [← pow_succ, Nat.sub_add_cancel hfb]
      have hquiet : (if y / 2 ^ (t.fb - 1) % 2 = 1 then y else y + 2 ^ (t.fb - 1)) < 2 ^ t.fb := by
        split
        · exact hfrac
        · next hbit =>
          have hq : y / 2 ^ (t.fb - 1) < 2 := Nat.div_lt_of_lt_mul (hhalf ▸ hfrac)
          have hq0 : y / 2 ^ (t.fb - 1) = 0 := by
            generalize y / 2 ^ (t.fb - 1) = q at hq hbit
            omega
          have hlow := (Nat.div_eq_zero_iff_lt (by positivity)).1 hq0
          omega
      have hpos : 0 < 2 ^ t.eb := by positivity
      calc _ < (2 ^ t.eb - 1 + 1) * 2 ^ t.fb := by rw [Nat.succ_mul]; omega
        _ = 2 ^ (t.eb + t.fb) := by rw [Nat.sub_add_cancel hpos, pow_add]

end Widths

theorem intWrap_lt (w : Nat) (v : Int) : intWrap w v < 2 ^ w := by
  have hpos : (0 : Int) < (2 ^ w : Nat) := by positivity
  have h0 := Int.emod_nonneg v hpos.ne'
  have hlt := Int.emod_lt_of_pos v hpos
  rw [intWrap]
  omega

theorem intFinish_lt (w : Nat) (sgn sat : Bool) (v : Int) : (intFinish w sgn sat v).1 < 2 ^ w := by
  unfold intFinish
  split <;> exact intWrap_lt ..

theorem cvtFI_lt (s : FFmt) (w : Nat) (sgn : Bool) (mode x : Nat) : (cvtFI s w sgn mode x).1 < 2 ^ w := by
  unfold cvtFI
  dsimp only
  split
  · positivity
  · exact intWrap_lt ..
  · split
    · exact intWrap_lt ..
    · split <;> exact intWrap_lt ..

/-- The float format of a type that is neither an integer nor a picot type has the type's width (R68). -/
theorem Ty.fmt_width {t : Ty} (hint : t.isInt = false) (hpicot : t.isPicot = false) :
    t.fmt ∈ [fmtF32, fmtF16, fmtBF16, fmtE4M3, fmtE5M2] ∧ t.bits = t.fmt.eb + t.fmt.fb + 1 := by
  revert hint hpicot
  cases t <;> decide

theorem cvtElem_lt (s : Ty) {d : Ty} (hd : d.isPicot = false) (mode : Nat) (sat : Bool) (x : Nat) : (cvtElem s d mode sat x).1 < 2 ^ d.bits := by
  unfold cvtElem
  split
  · next _ hint =>
    obtain ⟨hmem, hbits⟩ := Ty.fmt_width hint hd
    rw [hbits, cvtFF]
    split
    · exact nanConvert_lt hmem ..
    · exact fRound_lt hmem ..
  · exact cvtFI_lt ..
  · next _ hint =>
    obtain ⟨hmem, hbits⟩ := Ty.fmt_width hint hd
    rw [hbits]
    exact fRound_lt hmem ..
  · exact intFinish_lt ..

/-! ### A lane from whole steps -/

/-- Numbers below 2^w put one after another, lowest first, make one number, which holds them. -/
theorem testBit_steps {w : Nat} (hw : 0 < w) {x : Nat → Nat} (hx : ∀ j, x j < 2 ^ w) (n b : Nat) :
    ((List.range n).foldl (fun acc j => acc + x j * 2 ^ (w * j)) 0).testBit b = (decide (b / w < n) && (x (b / w)).testBit (b % w)) := by
  have hlt : ∀ n, (List.range n).foldl (fun acc j => acc + x j * 2 ^ (w * j)) 0 < 2 ^ (w * n) := by
    intro n
    induction n with
    | zero => exact Nat.one_pos
    | succ n ih =>
      rw [List.range_succ, List.foldl_append, List.foldl_cons, List.foldl_nil]
      calc _ < (x n + 1) * 2 ^ (w * n) := by rw [Nat.succ_mul]; omega
        _ ≤ 2 ^ w * 2 ^ (w * n) := Nat.mul_le_mul_right _ (hx n)
        _ = 2 ^ (w * (n + 1)) := by rw [← pow_add]; congr 1; ring
  induction n with
  | zero => simp
  | succ n ih =>
    rw [List.range_succ, List.foldl_append, List.foldl_cons, List.foldl_nil, add_comm, mul_comm, Nat.testBit_two_pow_mul_add _ (hlt n), ih]
    have hdm := Nat.div_add_mod b w
    rcases lt_trichotomy (b / w) n with h | h | h
    · have hb : b < w * n := by rw [mul_comm]; exact (Nat.div_lt_iff_lt_mul hw).1 h
      simp [hb, h, Nat.lt_succ_of_lt h]
    · have hb : ¬b < w * n := by rw [← h]; omega
      have hsub : b - w * n = b % w := by rw [← h]; omega
      simp [h, hsub, hb]
    · have hb : ¬b < w * n := fun hb => absurd ((Nat.div_lt_iff_lt_mul hw).2 (by rwa [mul_comm])) (not_lt.2 h.le)
      have hn : ¬b / w < n + 1 := by omega
      have hge : w ≤ b - w * n := by
        have := Nat.mul_le_mul_left w h
        rw [Nat.mul_succ] at this
        omega
      simp [hb, hn, Nat.testBit_lt_two_pow ((hx n).trans_le (Nat.pow_le_pow_right (by decide) hge))]

/-- The bits of a whole step of a lane. -/
theorem testBit_stepOf (t : Ty) (x : W32) (b : Nat) : (stepOf t x (b / t.step)).testBit (b % t.step) = x.getLsbD b := by
  have hpos : 0 < t.step := t.bits_pos.trans_le t.bits_le_step
  rw [stepOf, Nat.testBit_mod_two_pow, Nat.testBit_div_two_pow, decide_eq_true (Nat.mod_lt b hpos), Bool.true_and, Nat.mod_add_div, BitVec.getLsbD]

/-! ### VPACK (R191) -/

section Pack
variable (f : OpF) (v : VIn) (old : VReg)

/-- The converted sub-vectors of the active lanes. -/
def packResults : List (List (Nat × Flags)) :=
  laneResults (ty1 f) v.act fun i j => cvtOf f (subOf (ty1 f) (v.a[i % 32]!) j)

/-- Step j of lane i: a converted sub-vector, or what stands there. -/
def packStep (i j : Nat) : Nat :=
  if cvtK f * (ty1 f).count ≤ j && j < cvtK f * (ty1 f).count + (ty1 f).count then
    (((packResults f v).getD i []).getD (j - cvtK f * (ty1 f).count) (0, 0)).1
  else stepOf (ty0 f) (old[i % 32]!) j

/-- The register that VPACK leaves. -/
def packReg : VReg := Vector.ofFn fun i =>
  if lane v.act i.val then
    BitVec.ofNat 32 ((List.range (ty0 f).count).foldl (fun acc j => acc + packStep f v old i.val j * 2 ^ ((ty0 f).step * j)) 0)
  else old[i.val]

variable {f v old} {i : Nat}

/-- A step that VPACK writes. -/
theorem packStep_in (hi : i < 32) (ha : v.act.getLsbD i = true) {j : Nat}
    (hj : cvtK f * (ty1 f).count ≤ j ∧ j < cvtK f * (ty1 f).count + (ty1 f).count) :
    packStep f v old i j = (cvtOf f (subOf (ty1 f) (v.a[i % 32]!) (j - cvtK f * (ty1 f).count))).1 := by
  have hlt : j - cvtK f * (ty1 f).count < (ty1 f).count := by omega
  rw [packStep, if_pos (by simpa using hj), packResults, laneResults_getD _ _ _ hi, if_pos (show lane v.act i = true from ha)]
  simp [hlt]

/-- A step that VPACK keeps. -/
theorem packStep_out {j : Nat} (hj : ¬(cvtK f * (ty1 f).count ≤ j ∧ j < cvtK f * (ty1 f).count + (ty1 f).count)) :
    packStep f v old i j = stepOf (ty0 f) (old[i % 32]!) j := by
  rw [packStep, if_neg (by simpa using hj)]

theorem packStep_lt (hd : (ty0 f).isPicot = false) (hi : i < 32) (ha : v.act.getLsbD i = true) (j : Nat) :
    packStep f v old i j < 2 ^ (ty0 f).step := by
  by_cases hj : cvtK f * (ty1 f).count ≤ j ∧ j < cvtK f * (ty1 f).count + (ty1 f).count
  · rw [packStep_in hi ha hj]
    exact (cvtElem_lt _ hd _ _ _).trans_le (Nat.pow_le_pow_right (by decide) (ty0 f).bits_le_step)
  · rw [packStep_out hj]
    exact Nat.mod_lt _ (by positivity)

theorem packReg_off (hi : i < 32) (ha : v.act.getLsbD i = false) : (packReg f v old)[i]! = old[i % 32]! := by
  have hoff : ¬lane v.act i = true := Bool.eq_false_iff.1 ha
  rw [Nat.mod_eq_of_lt hi, getElem!_pos _ i hi, getElem!_pos _ i hi, packReg, Vector.getElem_ofFn, if_neg hoff]

/-- The bits of an active lane, step by step. -/
theorem getLsbD_packReg_on (hd : (ty0 f).isPicot = false) (hi : i < 32) (ha : v.act.getLsbD i = true) {b : Nat} (hb : b < 32) :
    ((packReg f v old)[i]!).getLsbD b = (packStep f v old i (b / (ty0 f).step)).testBit (b % (ty0 f).step) := by
  have hpos : 0 < (ty0 f).step := (ty0 f).bits_pos.trans_le (ty0 f).bits_le_step
  have hstep : b / (ty0 f).step < (ty0 f).count := (Nat.div_lt_iff_lt_mul hpos).2 (by rwa [mul_comm, (ty0 f).step_mul_count])
  rw [getElem!_pos _ i hi, packReg, Vector.getElem_ofFn, if_pos (show lane v.act i = true from ha), BitVec.getLsbD_ofNat, decide_eq_true hb,
    Bool.true_and, testBit_steps hpos (packStep_lt hd hi ha), decide_eq_true hstep, Bool.true_and]

/-- A bit of an active lane after VPACK: of a converted sub-vector, with zero above its width, or as it stood. -/
theorem getLsbD_packReg (hd : (ty0 f).isPicot = false) (hi : i < 32) (ha : v.act.getLsbD i = true) {b : Nat} (hb : b < 32) :
    if cvtK f * (ty1 f).count ≤ b / (ty0 f).step ∧ b / (ty0 f).step < cvtK f * (ty1 f).count + (ty1 f).count then
      ((packReg f v old)[i]!).getLsbD b = (decide (b % (ty0 f).step < (ty0 f).bits) &&
        (cvtOf f (subOf (ty1 f) (v.a[i % 32]!) (b / (ty0 f).step - cvtK f * (ty1 f).count))).1.testBit (b % (ty0 f).step))
    else ((packReg f v old)[i]!).getLsbD b = (old[i % 32]!).getLsbD b := by
  rw [getLsbD_packReg_on hd hi ha hb]
  split
  · next hj =>
    rw [packStep_in hi ha hj]
    by_cases hw : b % (ty0 f).step < (ty0 f).bits
    · rw [decide_eq_true hw, Bool.true_and]
    · rw [decide_eq_false hw, Bool.false_and]
      exact Nat.testBit_lt_two_pow ((cvtElem_lt _ hd _ _ _).trans_le (Nat.pow_le_pow_right (by decide) (not_lt.1 hw)))
  · next hj => rw [packStep_out hj, testBit_stepOf]

end Pack

/-! ### The ops -/

section Ops
variable {f : OpF} {s : State}

/-- The types of an op whose fields are legal (R137). -/
theorem types_of_legal {l : Launch} {o : Op} (h : legal l o f = true) : tyOk (spec o f).ty f = true := by
  simp only [legal, Bool.and_eq_true] at h
  obtain ⟨⟨⟨⟨⟨⟨hty, _⟩, _⟩, _⟩, _⟩, _⟩, _⟩ := h
  exact hty

/-- VPACK converts into no picot type. -/
theorem isPicot_of_vpack (h : issues .vpack f s = true) : (ty0 f).isPicot = false := by
  obtain ⟨_, _, _, hlegal⟩ := issues_iff.1 h
  have hty : (!(ty0 f).isPicot && !(ty1 f).isPicot) = true := types_of_legal hlegal
  simp only [Bool.and_eq_true, Bool.not_eq_true'] at hty
  exact hty.1

theorem cvtRnd_of_ints (h : (ty0 f).isInt = true → (ty1 f).isInt = true → f.rnd = 0) : cvtRnd f = true := by
  cases hd : (ty0 f).isInt
  · simp [cvtRnd, hd]
  · cases hs : (ty1 f).isInt
    · simp [cvtRnd, hs]
    · simp [cvtRnd, h hd hs]

/-- A selector that is legal stands in the two bits that the model reads. -/
theorem cvtK_of_lt {t u : Ty} (h : imm24 f < t.count / u.count) : cvtK f = imm24 f := by
  have hcount : ∀ t u : Ty, t.count / u.count ≤ 4 := fun t u => by cases t <;> cases u <;> decide
  exact Nat.mod_eq_of_lt (h.trans_le (hcount t u))

theorem exec_vpack (h : vecReady .vpack f (ty1 f) s) (hcount : (ty1 f).count < (ty0 f).count) (hk : imm24 f < (ty0 f).count / (ty1 f).count)
    (hrnd : cvtRnd f = true) : exec (.vpack f) s = vecEnds .vpack f (ty1 f) s fun v g =>
      raise (resultFlags (packResults f v)) (setV g f.dst.toNat (packReg f v (getV g f.dst.toNat))) :=
  runVecIf_ready h (by rw [decide_eq_true hcount, decide_eq_true hk, hrnd]; rfl)

end Ops

/-- Settles O10: each float op is its operation on the sub-vectors, a conversion that of its element, and VPACK as its steps say. -/
theorem vectorFloats : Obligations.VectorFloats := by
  unfold Obligations.VectorFloats
  intro f s t u mode sat k cvt ints
  refine ⟨?vfadd, ?vfsub, ?vfmul, ?vfma, ?vfmin, ?vfmax, ?vfrnd, ?vfclass, ?vfscale, ?vcvt, ?vunpack, ?vpack⟩
  case vfadd => exact fun h => vecMap_ready h
  case vfsub => exact fun h => vecMap_ready h
  case vfmul => exact fun h => vecMap_ready h
  case vfma => exact fun h => vecMap_ready h
  case vfmin => exact fun h => vecMap_ready h
  case vfmax => exact fun h => vecMap_ready h
  case vfrnd => exact fun h => vecMap_ready h
  case vfclass => exact fun h => vecMap_ready h
  case vfscale =>
    refine fun h => (vecMap_ready h).trans (vecLanes_congr fun x y _ _ hy _ => ?_)
    have hscale := congrArg (fScale t.fmt mode sat x) (sextNat_of_lt t.bits_pos hy)
    exact ⟨congrArg (fun r => r.1 % 2 ^ t.bits) hscale, congrArg Prod.snd hscale⟩
  case vcvt =>
    intro h hcount hne hk hints
    refine runVecIf_ready h ?_
    rw [decide_eq_true hcount, decide_eq_true hne, decide_eq_true hk, cvtRnd_of_ints hints]
    rfl
  case vunpack =>
    intro h hcount hk hints
    refine (runVecIf_ready h ?_).trans (vecEnds_congr (by rw [cvtK_of_lt hk]; rfl))
    rw [decide_eq_true hcount, decide_eq_true hk, cvtRnd_of_ints hints]
    rfl
  case vpack =>
    intro h hcount hk hints
    have hsel : cvtK f = k := cvtK_of_lt hk
    refine ⟨packReg f (vecIn .vpack f u s) (getV s.g f.dst.toNat), resultFlags (packResults f (vecIn .vpack f u s)),
      (exec_vpack h hcount hk (cvtRnd_of_ints hints)).trans (vecEnds_congr rfl), fun j _ => getLsbD_resultFlags .., fun i hi => ?_⟩
    dsimp only
    split
    · next ha =>
      intro b hb
      have hbit := getLsbD_packReg (v := vecIn .vpack f u s) (old := getV s.g f.dst.toNat) (isPicot_of_vpack h.1) hi ha hb
      rw [hsel] at hbit
      exact hbit
    · next ha => exact packReg_off hi (Bool.eq_false_iff.2 ha)

end Sys2Proof.Machine
end

