-- ==== Sys2Proof/Proofs/SpecialFunctions.lean ====
section
/-!
SUPPORT. Special functions (R192): each is its function of R81 on every sub-vector of the active lanes (O11).
-/
namespace Sys2Proof.Machine

/-- Settles O11: every special function is an op over the sub-vectors of its operands. -/
theorem specialFunctions : Obligations.SpecialFunctions := by
  unfold Obligations.SpecialFunctions
  intro f s t mode one
  refine ⟨?vexp2, ?vlog2, ?vrcp, ?vrsq, ?vsqrt, ?vdiv, ?vtanh, ?vsin, ?vcos⟩
  case vexp2 => exact fun h => vecMap_ready h
  case vlog2 => exact fun h => vecMap_ready h
  case vrcp => exact fun h => vecMap_ready h
  case vrsq => exact fun h => vecMap_ready h
  case vsqrt => exact fun h => vecMap_ready h
  case vdiv => exact fun h => vecMap_ready h
  case vtanh => exact fun h => vecMap_ready h
  case vsin => exact fun h => vecMap_ready h
  case vcos => exact fun h => vecMap_ready h

end Sys2Proof.Machine
end

