-- ==== Sys2Proof/Proofs/LaneOps.lean ====
section
/-!
SUPPORT. Class 3 (R194 to R197, R299): the operation words of the tree ops, a scan that has a value in every active lane, and vector registers named by
number, in the register file or in a handler's frame (O14).
-/
namespace Sys2Proof.Machine

/-! ### The lane tree -/

section Tree
variable (op : Nat → Nat → Nat × Flags)

@[simp] theorem isSome_nodeCombine (l r : Node) : (nodeCombine op l r).isSome = (l.isSome || r.isSome) := by cases l <;> cases r <;> rfl

/-- The node above a present lane is present, at every level. -/
theorem isSome_level {xs : List Node} {i : Nat} (h : (xs.getD i none).isSome = true) (l : Nat) :
    (((treeLevel op)^[l] xs).getD (i / 2 ^ l) none).isSome = true := by
  have hval : ∀ x : Node, (nodeVal x).isSome = x.isSome := fun x => Option.isSome_map
  induction l with
  | zero => simpa using h
  | succ l ih =>
    have hhalf : i / 2 ^ (l + 1) = i / 2 ^ l / 2 := by rw [pow_succ, Nat.div_div_eq_div_mul]
    rw [Function.iterate_succ_apply', ← hval, nodeVal_treeLevel, Option.isSome_merge, hval, hval, hhalf, Bool.or_eq_true]
    rcases Nat.even_or_odd' (i / 2 ^ l) with ⟨c, hc | hc⟩
    · left
      rwa [show 2 * (i / 2 ^ l / 2) = i / 2 ^ l by omega]
    · right
      rwa [show 2 * (i / 2 ^ l / 2) + 1 = i / 2 ^ l by omega]

/-- The scan loop of a present lane: it has a value already, or the lane is still to be joined. -/
theorem isSome_treeScanFrom {xs : List Node} {i : Nat} (h : (xs.getD i none).isSome = true) (l : Nat) {base : Nat} {res : Node} (hl : l ≤ 5)
    (hbase : base = (i + 1) / 2 ^ (l + 1) * 2 ^ (l + 1)) (hres : res.isSome = true ∨ base ≤ i) :
    (treeScanFrom op (treeLevels op 5 xs) i l base res).isSome = true := by
  induction l generalizing base res with
  | zero =>
    rw [treeScanFrom]
    split
    · have hi : base = i := by omega
      rw [isSome_nodeCombine, treeLevels_getD op hl, hi, Function.iterate_zero, id, h, Bool.or_true]
    · exact hres.resolve_right (by omega)
  | succ l ih =>
    have hquot : (i + 1) / 2 ^ (l + 2) = (i + 1) / 2 ^ (l + 1) / 2 := by rw [pow_succ 2 (l + 1), Nat.div_div_eq_div_mul]
    have hpow : 2 ^ (l + 2) = 2 * 2 ^ (l + 1) := by ring
    have hpos : 0 < 2 ^ (l + 1) := by positivity
    rw [hquot, hpow, ← mul_assoc] at hbase
    rw [treeScanFrom]
    split
    · next hbit =>
      have hnext : base + 2 ^ (l + 1) = (i + 1) / 2 ^ (l + 1) * 2 ^ (l + 1) := by
        rw [hbase, ← Nat.succ_mul]
        congr 1
        omega
      refine ih (by omega) hnext ?_
      by_cases hle : base + 2 ^ (l + 1) ≤ i
      · exact .inr hle
      · have hnode : base ≤ i → base / 2 ^ (l + 1) = i / 2 ^ (l + 1) := fun hb => by
          rw [hbase, Nat.mul_div_cancel _ hpos]
          refine (Nat.div_eq_of_lt_le (hbase ▸ hb) ?_).symm
          rw [Nat.succ_mul, ← hbase]
          exact not_le.1 hle
        rw [isSome_nodeCombine, treeLevels_getD op hl, Bool.or_eq_true]
        exact .inl (hres.imp_right fun hb => hnode hb ▸ isSome_level op h (l + 1))
    · next hbit =>
      refine ih (by omega) ?_ hres
      rw [hbase]
      congr 1
      omega

/-- A scan has a value in every lane that is present. -/
theorem isSome_treeScan {xs : List Node} {i : Nat} (hi : i < 32) (h : (xs.getD i none).isSome = true) : (treeScan op xs i).isSome = true :=
  isSome_treeScanFrom op h 5 le_rfl (by omega) (.inr (Nat.zero_le i))

theorem treeLeaves_getD (t : Ty) {v : VIn} {i : Nat} (hi : i < 32) (ha : v.act.getLsbD i = true) (k : Nat) :
    (treeLeaves t v k).getD i none = some (subOf t (v.a[i % 32]!) k, 0) := by
  simp [treeLeaves, hi, show lane v.act i = true from ha]

/-- An inclusive scan needs no identity in an active lane. -/
theorem treeScan_leaves_getD (t : Ty) {v : VIn} {i : Nat} (hi : i < 32) (ha : v.act.getLsbD i = true) (k : Nat) (x y : Nat × Flags) :
    (treeScan op (treeLeaves t v k) i).getD x = (treeScan op (treeLeaves t v k) i).getD y := by
  have hsome := isSome_treeScan op hi (xs := treeLeaves t v k) (by rw [treeLeaves_getD t hi ha]; rfl)
  obtain ⟨r, hr⟩ := Option.isSome_iff_exists.1 hsome
  rw [hr]
  rfl

end Tree

/-- An operation word that is legal (R193, R194). -/
theorem treeOk_of_word {f : OpF} {scan : Bool} (hw : imm24 f < if scan then 16 else 8) (hint : (ty0 f).isInt = true → imm24 f % 8 < 6)
    (hflt : (ty0 f).isInt = false → imm24 f % 8 < 3) (hsat : f.sat = true → (ty0 f).isInt = true ∧ imm24 f % 8 = 0) : treeOk f scan = true := by
  have hop : treeOpOf f < if (ty0 f).isInt then 6 else 3 := by
    cases h : (ty0 f).isInt
    · exact hflt h
    · exact hint h
  have hs : (!f.sat || ((ty0 f).isInt && treeOpOf f = 0)) = true := by
    cases h : f.sat
    · rfl
    · simp [hsat h, treeOpOf]
  rw [treeOk, decide_eq_true hw, decide_eq_true hop, hs]
  rfl

/-! ### Vector registers by number -/

section Numbered
variable {g : Group} {n : Nat}

theorem inFrame_iff : (g.hmode && decide (n < 4)) = true ↔ g.hmode = true ∧ n < 4 := by rw [Bool.and_eq_true, decide_eq_true_eq]

theorem regX_eq : regX g n = if g.hmode = true ∧ n < 4 then frameVec g.harea (0x100 + 128 * n) else getV g n := by
  simp only [regX, inFrame_iff]
  rfl

theorem vrdxReads_eq : vrdxReads g n = if g.hmode = true ∧ n < 4 then locsFrom ⟨.handler g.id, 0x100 + 128 * n⟩ 128 else [] := by
  simp only [vrdxReads, inFrame_iff]
  rfl

theorem setRegX_out (h : ¬(g.hmode = true ∧ n < 4)) (v : VReg) : setRegX g n v = setV g n v := by
  rw [setRegX, if_neg (mt inFrame_iff.1 h)]

theorem setRegX_in (h : g.hmode = true ∧ n < 4) (v : VReg) :
    setRegX g n v = { g with harea := memPutBytes g.harea (0x100 + 128 * n) (vecBytes v) } := by
  rw [setRegX, if_pos (inFrame_iff.2 h)]
  rfl

/-- A field of a byte string, read from a memory where the string was written from an address on. -/
theorem HasField.memNat_from {bs : List Byte} {a k x : Nat} (h : HasField bs a k x) {m : Mem} (hm : memWf m = true) (c : Nat) :
    Machine.memNat (memPutBytes m c bs) (c + a) k = x % 2 ^ (8 * k) := by
  obtain ⟨pre, post, rfl, rfl⟩ := h
  have hbelow : ∀ j, j < k → memGet (memPutBytes m c (pre ++ (leBytes k x ++ post))) (c + pre.length + j) =
      memGet (memPutNat (memPutBytes m c pre) (c + pre.length) k x) (c + pre.length + j) := fun j hj => by
    rw [memPutBytes_append, memPutBytes_append, leBytes_length]
    exact memGet_putBytes_other _ _ (.inl (by omega))
  rw [memNat_congr _ _ _ _ hbelow, memNat_putNat (memWf_putBytes _ _ hm)]

theorem vecBytes_length (v : VReg) : (vecBytes v).length = 128 := length_flatMap_range (fun _ => leBytes_length ..) 32

/-- A vector register written to a frame, read back from it. -/
theorem frameVec_putBytes {m : Mem} (hm : memWf m = true) (c : Nat) (v : VReg) : frameVec (memPutBytes m c (vecBytes v)) c = v := by
  ext1 i hi
  have hfield : HasField (vecBytes v) (4 * i) 4 (v[i % 32]!).toNat :=
    (HasField.self 4 _).flatMap (f := fun i => leBytes 4 (v[i % 32]!).toNat) (fun _ => leBytes_length ..) hi
  rw [frameVec, Vector.getElem_ofFn, hfield.memNat_from hm, Nat.mod_eq_of_lt (BitVec.isLt _), BitVec.ofNat_toNat, BitVec.setWidth_eq,
    Nat.mod_eq_of_lt hi, getElem!_pos v i hi]

end Numbered

/-! ### The ops -/

section Ops
variable {f : OpF} {s : State}

/-- VBALLOT with no active lane (R195). -/
theorem exec_vballot_off (h : waitsExm .vballot s.g = false) (h0 : lanesOn f s = 0) : exec (.vballot f) s = finish s (ballotOff f s) :=
  runWith_off h (would_of_no_lane rfl h0)

/-- A VRDX of a register that the kernel has (R197). -/
theorem exec_vrdx (h : issues .vrdx f s = true) (hn : (rawS s.g f f.a).toNat < s.l.kern.regs) : exec (.vrdx f) s =
    if poisoned s (vrdxReads s.g (rawS s.g f f.a).toNat) then goesOnWith (memError s.g.id s)
    else goesOn (eccRead (vrdxReads s.g (rawS s.g f f.a).toNat) s)
      (setV s.g f.dst.toNat (blend (lanesOn f s) (regX s.g (rawS s.g f f.a).toNat) (getV s.g f.dst.toNat))) := by
  refine (runS_issues h).trans ?_
  rw [vrdxBody, decide_eq_true hn]
  dsimp only [Res.require_true, Res.bind_ok]
  split
  · rfl
  · rw [eccRead_g]
    rfl

/-- A VWRX of a register that the kernel has (R197). -/
theorem exec_vwrx (h : issues .vwrx f s = true) (hn : (rawS s.g f f.a).toNat < s.l.kern.regs) : exec (.vwrx f) s =
    goesOn s (setRegX s.g (rawS s.g f f.a).toNat (blend (lanesOn f s) (getV s.g f.b.reg.toNat) (regX s.g (rawS s.g f f.a).toNat))) := by
  refine runG_issues h ?_
  dsimp only
  rw [decide_eq_true hn]
  rfl

end Ops

/-- Settles O14: the tree ops by their words and leaves, the ballots and permutations by their bodies, and a register named by number as it stands in
the register file or in the frame. -/
theorem laneOps : Obligations.LaneOps := by
  unfold Obligations.LaneOps
  intro f s t act op word x y d n inFrame frame old reg mix
  have hok : ∀ {scan : Bool}, word → imm24 f < (if scan then 16 else 8) → treeOk f scan = true := fun hword hw => by
    obtain ⟨hint, hflt, hsat⟩ := hword
    exact treeOk_of_word hw hint hflt hsat
  have hreg : regX s.g n = reg := regX_eq
  have hframe : vrdxReads s.g n = frame := vrdxReads_eq
  refine ⟨?vlred, ?vlscan, ?vlscan_ex, ?vballot, ?vballot_off, ?vballot_hold, ?vpermx, ?vextr, ?vinsr, ?vrdx, ?vrdx_error, ?vwrx, ?vwrx_frame⟩
  case vlred =>
    intro h hw hword
    refine (runVecIf_ready h (hok (scan := false) hword hw)).trans (vecEnds_congr (setLanes_congr_of_eq _ _ fun i k _ hk _ => ?_))
    rw [List.getD_eq_getElem _ _ (by simpa using hk), List.getElem_map, List.getElem_range]
  case vlscan =>
    intro h hw hword
    have hex : ¬imm24 f / 8 % 2 = 1 := by omega
    refine (runVecIf_ready h (hok (scan := true) hword (hw.trans (by decide)))).trans
      (vecEnds_congr (setLanes_congr_of_eq _ _ fun i k hi _ ha => ?_))
    dsimp only
    rw [if_neg hex]
    exact treeScan_leaves_getD _ t hi ha k ..
  case vlscan_ex =>
    intro h hlo hw hword
    have hex : imm24 f / 8 % 2 = 1 := by omega
    refine (runVecIf_ready h (hok (scan := true) hword hw)).trans (vecEnds_congr (setLanes_congr_of_eq _ _ fun i k _ _ _ => ?_))
    dsimp only
    rw [if_pos hex, apply_ite (Option.getD · _)]
    rfl
  case vballot => exact fun h => runWith_issues h
  case vballot_off =>
    intro h h0 hout
    rw [exec_vballot_off h h0, ballotOff, if_neg (by simpa using hout)]
    rfl
  case vballot_hold =>
    intro h h0 hin
    rw [exec_vballot_off h h0, ballotOff, if_pos (by simpa using hin)]
    rfl
  case vpermx => exact fun h => runVec_ready h
  case vextr => exact fun h => runP_issues h
  case vinsr => exact fun h => runP_issues h
  case vrdx =>
    intro h hn hp
    rw [exec_vrdx h hn, hframe, hp, hreg]
    rfl
  case vrdx_error =>
    intro h hn hp
    rw [exec_vrdx h hn, hframe, hp]
    rfl
  case vwrx =>
    intro h hn hout
    rw [exec_vwrx h hn, hreg, setRegX_out hout]
    rfl
  case vwrx_frame =>
    intro h hn hin hm
    refine ⟨_, (exec_vwrx h hn).trans (by rw [setRegX_in hin]), ?_, fun a ha => memGet_putBytes_other _ _ ?_⟩
    · rw [frameVec_putBytes hm, hreg]
      rfl
    · rw [vecBytes_length]
      omega

end Sys2Proof.Machine
end

