-- ==== Sys2Proof/Proofs/Accumulators.lean ====
section
/-!
SUPPORT. Accumulator ops (R207 to R210): what each puts into the containers of the active lanes (O17).
-/
namespace Sys2Proof.Machine

/-- Two steps that do the same to every group. -/
theorem overLanes_congr {act : W32} {n : Nat} {step step' : Nat → Nat → Group → Group} (h : ∀ i k g, step i k g = step' i k g) (g : Group) :
    overLanes act n step g = overLanes act n step' g := by
  have hstep : step = step' := funext fun i => funext fun k => funext fun g => h i k g
  rw [hstep]

/-- AIN's container of one sub-vector: its exact value, with NV for a signalling NaN (R210). -/
theorem putAcc_ain (t : Ty) (v : VReg) (n i k : Nat) (g : Group) :
    putAcc n i (accBits (accFromValue (subValue t v i k).1).1, flagIf (subValue t v i k).2 flagNV) g =
      raise (if t.isInt = false ∧ fIsSNaN t.fmt (subOf t (v[i % 32]!) k) = true then flagNV else 0)
        (setA g n i (accBits (accFromValue (elemValue t (subOf t (v[i % 32]!) k))).1)) := by
  refine congrArg (fun fl => raise fl (setA g n i _)) ?_
  simp only [flagIf, subValue, Bool.and_eq_true, Bool.not_eq_true']

section Ops
variable {f : OpF} {s : State}

/-- AMAC whose mapped source passes the checks (R208): the sum is formed on the group as it stands, then the map is used once. -/
theorem exec_amac (h : vecReady .amac f (ty0 f) s) : exec (.amac f) s =
    goesOn s (afterMaps (mappedSrcs (spec .amac f) f) (overLanes (lanesOn f s) (ty0 f).count (fun i k g =>
      let m := amacTerm s (seenAlt .amac f s) (ty0 f) (lanesOn f s) f.a
        (if (mappedSrcs (spec .amac f) f).isEmpty then (rawV s [] (immV .amac f) (ty0 f) (lanesOn f s) f.a).1 else getV s.g f.a.reg.toNat) i k
      let r := accAdd (getA g (f.dst.toNat + k) i) (accBits m.1)
      raise (r.2 ||| m.2) (setA g (f.dst.toNat + k) i r.1)) s.g)) := by
  obtain ⟨hissues, hmaps⟩ := h
  refine (runS_issues hissues).trans ?_
  rw [amacBody, show activeMask s.g f.guard = lanesOn f s from rfl]
  dsimp only
  rw [hmaps]
  rfl

/-- AOUT with a modifier of one bit (R210). -/
theorem exec_aout (h : issues .aout f s = true) (hm : imm24 f ≤ 1) : exec (.aout f) s =
    let g := setLanes (ty0 f) f.dst.toNat (lanesOn f s) (laneResults (ty0 f) (lanesOn f s) fun i k =>
      accToElem (ty0 f) f.sat (accRead (getA s.g (f.a.reg.toNat + k) i))) s.g
    goesOn s (if imm24 f = 1 then overLanes (lanesOn f s) (ty0 f).count (fun i k g => setA g (f.a.reg.toNat + k) i 0) g else g) := by
  refine runG_issues h ?_
  rw [decide_eq_true (Nat.lt_succ_of_le hm)]
  rfl

end Ops

/-- Settles O17: each op is its body over the active lanes; AMAC and AOUT past their own checks. -/
theorem accumulators : Obligations.Accumulators := by
  unfold Obligations.Accumulators
  intro f s t act d a on alt raw
  refine ⟨?aclr, ?aadd, ?ascale, ?ain, ?amac, ?aout⟩
  case aclr => exact fun h => runP_issues h
  case aadd => exact fun h => runP_issues h
  case ascale => exact fun h => runVec_ready h
  case ain =>
    exact fun h => (runVec_ready h).trans (vecEnds_congr (overLanes_congr (fun i k g => putAcc_ain t _ _ i k g) _))
  case amac => exact exec_amac
  case aout => exact exec_aout

end Sys2Proof.Machine
end

