-- ==== Sys2Proof/Proofs/Quantisation.lean ====
section
/-!
SUPPORT. Quantisation ops (R212 to R215): the bytes that QPACK writes into its destination, each the one of its lane and place, and the ops whose byte
select is in range (O18).
-/
namespace Sys2Proof.Machine

/-! ### Bytes of a register -/

/-- A byte of a lane replaced, bit by bit. -/
theorem getLsbD_putByte (w : W32) (b x : Nat) {j : Nat} (hj : j < 32) :
    (putByte w b x).getLsbD j = if j / 8 = b then x.testBit (j % 8) else w.getLsbD j := by
  have hmask : (0xFF : W32).getLsbD (j - 8 * b) = decide (j - 8 * b < 8) := Nat.testBit_two_pow_sub_one 8 _
  have hbyte : (BitVec.ofNat 32 (x % 2 ^ 8)).getLsbD (j - 8 * b) = (decide (j - 8 * b < 8) && x.testBit (j - 8 * b)) := by
    rw [BitVec.getLsbD_ofNat, Nat.testBit_mod_two_pow, decide_eq_true (show j - 8 * b < 32 by omega), Bool.true_and]
  rw [putByte, show 256 = 2 ^ 8 from rfl, BitVec.getLsbD_or, BitVec.getLsbD_and, BitVec.getLsbD_not, BitVec.getLsbD_shiftLeft,
    BitVec.getLsbD_shiftLeft, hmask, hbyte]
  by_cases hb : j / 8 = b
  · have hlo : ¬j < 8 * b := by omega
    have hhi : j - 8 * b < 8 := by omega
    have hmod : j - 8 * b = j % 8 := by omega
    rw [if_pos hb, decide_eq_false hlo, decide_eq_true hj, decide_eq_true hhi, hmod]
    simp
  · have hout : j < 8 * b ∨ ¬j - 8 * b < 8 := by omega
    rw [if_neg hb]
    rcases hout with hlo | hhi
    · simp [hj, hlo]
    · simp [hj, hhi]

theorem getLane_setLane_self (g : Group) (n i : Nat) (x : W32) : getLane (setLane g n i x) n i = x := by
  rw [getLane, setLane, getV_setV_self]
  exact getElem!_set!_self _ _ (Nat.mod_lt i (by decide))

theorem getLane_setLane_ne (g : Group) (n : Nat) {i j : Nat} (h : j % 32 ≠ i % 32) (x : W32) :
    getLane (setLane g n i x) n j = getLane g n j := by
  rw [getLane, setLane, getV_setV_self, getElem!_set!_ne _ _ h, getLane]

/-- Bytes of register d written one after another, each given by its lane and its place in it, with the value that these have. -/
def writeBytes (d : Nat) (val : Nat → Nat → Nat) (ws : List (Nat × Nat)) (g : Group) : Group :=
  ws.foldl (fun g w => setLane g d w.1 (putByte (getLane g d w.1) w.2 (val w.1 w.2))) g

section Bytes
variable (d : Nat) (val : Nat → Nat → Nat)

theorem writeBytes_cons (w : Nat × Nat) (ws : List (Nat × Nat)) (g : Group) : writeBytes d val (w :: ws) g =
    writeBytes d val ws (setLane g d w.1 (putByte (getLane g d w.1) w.2 (val w.1 w.2))) := rfl

/-- Nothing but vector registers is written. -/
theorem writeBytes_frame (ws : List (Nat × Nat)) (g : Group) : { writeBytes d val ws g with v := g.v } = g := by
  suffices h : ∀ v, { writeBytes d val ws g with v := v } = { g with v := v } from h g.v
  induction ws generalizing g with
  | nil => exact fun v => rfl
  | cons w ws ih => exact fun v => ih _ v

theorem getV_writeBytes_ne {n : Nat} (h : n % 256 ≠ d % 256) (ws : List (Nat × Nat)) (g : Group) :
    getV (writeBytes d val ws g) n = getV g n := by
  induction ws generalizing g with
  | nil => rfl
  | cons w ws ih => rw [writeBytes_cons, ih, setLane, getV_setV_ne g h]

/-- A bit of the register is one of its byte's value where that byte is among the written ones. -/
theorem getLsbD_writeBytes {ws : List (Nat × Nat)} (hws : ∀ w ∈ ws, w.1 < 32) (g : Group) {i j : Nat} (hi : i < 32) (hj : j < 32) :
    (getLane (writeBytes d val ws g) d i).getLsbD j =
      if (i, j / 8) ∈ ws then (val i (j / 8)).testBit (j % 8) else (getLane g d i).getLsbD j := by
  induction ws generalizing g with
  | nil => rfl
  | cons w ws ih =>
    obtain ⟨n, b⟩ := w
    have hn : n < 32 := hws _ (List.mem_cons_self ..)
    have hstep : (getLane (setLane g d n (putByte (getLane g d n) b (val n b))) d i).getLsbD j =
        if (i, j / 8) = (n, b) then (val i (j / 8)).testBit (j % 8) else (getLane g d i).getLsbD j := by
      by_cases hin : i = n
      · subst hin
        rw [getLane_setLane_self, getLsbD_putByte _ _ _ hj]
        by_cases hb : j / 8 = b
        · simp [hb]
        · simp [hb]
      · have hne : ¬(i, j / 8) = (n, b) := fun h => hin (Prod.ext_iff.1 h).1
        rw [getLane_setLane_ne g d (by omega), if_neg hne]
    rw [writeBytes_cons, ih (fun w hw => hws w (List.mem_cons_of_mem _ hw)), hstep]
    simp only [List.mem_cons]
    by_cases hmem : (i, j / 8) ∈ ws
    · simp [hmem]
    · simp [hmem]

end Bytes

/-! ### The bytes of the blocks -/

theorem mem_qBlocks {fl : Ty} {b : Nat × Nat} : b ∈ qBlocks fl ↔ b.1 < fl.count ∧ b.2 < 2 := by
  obtain ⟨k, q⟩ := b
  simp only [qBlocks, List.mem_flatMap, List.mem_range, List.mem_cons, Prod.mk.injEq, List.not_mem_nil, or_false]
  constructor
  · rintro ⟨a, ha, ⟨rfl, rfl⟩ | ⟨rfl, rfl⟩⟩ <;> exact ⟨ha, by decide⟩
  · rintro ⟨hk, hq⟩
    exact ⟨k, hk, by omega⟩

/-- The byte of each active lane of each block, as lane and place (R214). -/
def packedBytes (fl : Ty) (act : W32) (sel : Nat) : List (Nat × Nat) :=
  (qBlocks fl).flatMap fun b => (((List.range 16).filter fun j => lane act (16 * b.2 + j)).map fun j => (16 * b.2 + j, sel + b.1))

theorem mem_packedBytes {fl : Ty} {act : W32} {sel i p : Nat} :
    (i, p) ∈ packedBytes fl act sel ↔ i < 32 ∧ act.getLsbD i = true ∧ sel ≤ p ∧ p < sel + fl.count := by
  simp only [packedBytes, List.mem_flatMap, List.mem_map, List.mem_filter, List.mem_range, mem_qBlocks, Prod.mk.injEq]
  constructor
  · rintro ⟨b, ⟨hk, hq⟩, j, ⟨hj, ha⟩, rfl, rfl⟩
    exact ⟨by omega, ha, by omega, by omega⟩
  · rintro ⟨hi, ha, hlo, hhi⟩
    have hsplit : 16 * (i / 16) + i % 16 = i := by omega
    exact ⟨(p - sel, i / 16), ⟨by omega, by omega⟩, i % 16, ⟨by omega, by rw [hsplit]; exact ha⟩, hsplit, by omega⟩

/-- Block by block and lane by lane, QPACK writes these bytes, each the code of its block at its lane (R214). -/
theorem foldl_qBlocks_eq_writeBytes (fl : Ty) (act : W32) (sel d : Nat) (packed : Nat × Nat → Nat × List Nat × Flags) (g : Group) :
    (qBlocks fl).foldl (fun g b => (List.range 16).foldl (fun g j =>
      if lane act (16 * b.2 + j) then
        setLane g d (16 * b.2 + j) (putByte (getLane g d (16 * b.2 + j)) (sel + b.1) ((packed b).2.1.getD j 0))
      else g) g) g =
    writeBytes d (fun i p => (packed (p - sel, i / 16)).2.1.getD (i % 16) 0) (packedBytes fl act sel) g := by
  rw [writeBytes, packedBytes, List.foldl_flatMap]
  congr 1
  funext g b
  rw [List.foldl_map, List.foldl_filter]
  refine List.foldl_ext _ _ _ fun g j hj => ?_
  have hlt : j < 16 := List.mem_range.1 hj
  have hblock : ((sel + b.1 - sel, (16 * b.2 + j) / 16) : Nat × Nat) = b := Prod.ext (by omega) (by dsimp only; omega)
  have hcode : (16 * b.2 + j) % 16 = j := by omega
  dsimp only
  rw [hblock, hcode]

/-! ### The byte select -/

section Select
variable (f : OpF)

theorem testBit_imm24 {n : Nat} (h : n < 24) : (imm24 f).testBit n = f.imm.getLsbD n := by
  have hbit : (imm24 f).testBit n = (f.imm.extractLsb' 0 24).getLsbD n := rfl
  rw [hbit, BitVec.getLsbD_extractLsb', decide_eq_true h, Bool.true_and, Nat.zero_add]

theorem qAmax_eq : qAmax f = (imm24 f).testBit 2 := (testBit_imm24 f (by decide)).symm

/-- A byte select in range (R212). -/
theorem qOk_of_fits {fl : Ty} (amax : Bool) (hm : imm24 f < if amax then 8 else 4) (hfit : imm24 f % 4 + fl.count ≤ 4) :
    qOk fl amax f = true := by
  rw [qOk, Bool.and_eq_true, decide_eq_true_eq, decide_eq_true_eq]
  exact ⟨hm, hfit⟩

end Select

/-! ### The ops -/

/-- NV where an active lane holds a signalling NaN (R69). -/
theorem nanFlag_eq (fl : Ty) (act : W32) (v : VReg) : nanFlag fl act v =
    if ((List.range 32).filter fun i => act.getLsbD i).any fun i =>
      (List.range fl.count).any fun k => !fl.isInt && fIsSNaN fl.fmt (subOf fl (v[i]!) k) then flagNV else 0 := by
  have hany : ((lanesOf act).any fun i => (List.range fl.count).any fun k => (subValue fl v i k).2) =
      ((List.range 32).filter fun i => act.getLsbD i).any fun i =>
        (List.range fl.count).any fun k => !fl.isInt && fIsSNaN fl.fmt (subOf fl (v[i]!) k) := by
    rw [Bool.eq_iff_iff, List.any_eq_true, List.any_eq_true]
    refine exists_congr fun i => and_congr_right fun hi => ?_
    have hlt : i < 32 := List.mem_range.1 (List.mem_filter.1 hi).1
    simp only [subValue, Nat.mod_eq_of_lt hlt]
  rw [nanFlag, hany, flagIf]

/-- What QPACK makes of a block: its header, the code of each lane and its flags (R214). -/
def packedBlock (f : OpF) (s : State) (b : Nat × Nat) : Nat × List Nat × Flags :=
  qpackBlock (ty0 f).mag (qBlock (ty1 f) (lanesOn f s) (getV s.g f.a.reg.toNat) b.1 b.2)

/-- The group with the bytes of QPACK's destination written. -/
def packedGroup (f : OpF) (s : State) : Group :=
  writeBytes f.dst.toNat (fun i p => (packedBlock f s (p - imm24 f % 4, i / 16)).2.1.getD (i % 16) 0)
    (packedBytes (ty1 f) (lanesOn f s) (imm24 f % 4)) s.g

section Ops
variable {f : OpF} {s : State}

/-- QSCAN of header lanes (R213). -/
theorem exec_qscan (h : issues .qscan f s = true) (hm : imm24 f < 4) (hfit : imm24 f % 4 + (ty1 f).count ≤ 4) : exec (.qscan f) s =
    goesOn s (setV s.g f.dst.toNat (putHeaders ((qBlocks (ty1 f)).map fun b => (2 * (imm24 f % 4 + b.1) + b.2,
      (qpackBlock (ty0 f).mag (qBlock (ty1 f) (lanesOn f s) (getV s.g f.a.reg.toNat) b.1 b.2)).1)) (getV s.g f.dst.toNat))) := by
  have hamax : qAmax f = false := (qAmax_eq f).trans (Nat.testBit_lt_two_pow hm)
  refine runG_issues h ?_
  dsimp only
  rw [qOk_of_fits f true (hm.trans (by decide)) hfit, hamax]
  rfl

/-- QSCAN.amax (R213). -/
theorem exec_qscan_amax (h : issues .qscan f s = true) (hlo : 4 ≤ imm24 f) (hm : imm24 f < 8) (hfit : imm24 f % 4 + (ty1 f).count ≤ 4) :
    exec (.qscan f) s = goesOn s (setV s.g f.dst.toNat ((qBlocks (ty1 f)).foldl (fun r b => r.set! (2 * (imm24 f % 4 + b.1) + b.2)
      (BitVec.ofNat 32 (qMax ((qBlock (ty1 f) (lanesOn f s) (getV s.g f.a.reg.toNat) b.1 b.2).map Prod.fst)))) (getV s.g f.dst.toNat))) := by
  have hbit : (imm24 f).testBit 2 = true := by
    rw [Nat.testBit_eq_decide_div_mod_eq, decide_eq_true_eq]
    omega
  have hamax : qAmax f = true := (qAmax_eq f).trans hbit
  refine runG_issues h ?_
  dsimp only
  rw [qOk_of_fits f true hm hfit, hamax]
  rfl

/-- QPACK (R214): its bytes, then its headers, then its flags. -/
theorem exec_qpack (h : issues .qpack f s = true) (hm : imm24 f < 4) (hfit : imm24 f % 4 + (ty1 f).count ≤ 4) (hd : f.b.reg ≠ f.dst)
    (ha : f.b.reg ≠ f.a.reg) : exec (.qpack f) s =
    goesOn s (raise (((qBlocks (ty1 f)).map (packedBlock f s)).foldl (fun a b => a ||| b.2.2)
        (nanFlag (ty1 f) (lanesOn f s) (getV s.g f.a.reg.toNat)))
      (setV (packedGroup f s) f.b.reg.toNat
        (putHeaders ((qBlocks (ty1 f)).map fun b => (2 * (imm24 f % 4 + b.1) + b.2, (packedBlock f s b).1)) (getV s.g f.b.reg.toNat)))) := by
  have hok : (qOk (ty1 f) false f && f.b.reg ≠ f.dst && f.b.reg ≠ f.a.reg) = true := by
    rw [qOk_of_fits f false hm hfit, decide_eq_true hd, decide_eq_true ha]
    rfl
  refine runG_issues h ?_
  dsimp only
  rw [hok, packedGroup, ← foldl_qBlocks_eq_writeBytes, List.foldl_map, List.foldl_map, List.foldl_map, List.map_map]
  rfl

/-- QUNPACK (R215). -/
theorem exec_qunpack (h : issues .qunpack f s = true) (hm : imm24 f < 4) (hfit : imm24 f % 4 + (ty0 f).count ≤ 4) : exec (.qunpack f) s =
    goesOn s (setLanes (ty0 f) f.dst.toNat (lanesOn f s) (laneResults (ty0 f) (lanesOn f s) fun i k =>
      qElem (ty0 f) (ty1 f).mag (((getV s.g f.b.reg.toNat)[2 * (imm24 f % 4 + k) + i / 16]!).toNat % 65536) (i % 16 / 4)
        (((getV s.g f.a.reg.toNat)[i]!).toNat / 2 ^ (8 * (imm24 f % 4 + k)) % 256)) s.g) := by
  refine (runG_issues h (g := setLanes (ty0 f) f.dst.toNat (lanesOn f s) (laneResults (ty0 f) (lanesOn f s) fun i k =>
    qElem (ty0 f) (ty1 f).mag (((getV s.g f.b.reg.toNat)[(2 * (imm24 f % 4 + k) + i / 16) % 32]!).toNat % 65536) (i % 16 / 4)
      (((getV s.g f.a.reg.toNat)[i % 32]!).toNat / 2 ^ (8 * (imm24 f % 4 + k)) % 256)) s.g) ?_).trans
    (congrArg (goesOn s) (setLanes_congr_of_eq _ _ fun i k hi hk _ => ?_))
  · dsimp only
    rw [qOk_of_fits f false hm hfit]
    rfl
  · have hheader : 2 * (imm24 f % 4 + k) + i / 16 < 32 := by omega
    rw [Nat.mod_eq_of_lt hheader, Nat.mod_eq_of_lt hi]

end Ops

/-- Settles O18: each op past its byte select; QPACK's destination bit by bit from the bytes written. -/
theorem quantisation : Obligations.Quantisation := by
  unfold Obligations.Quantisation
  intro f s act sel d src fl blocks lane vals packed nan
  refine ⟨?qscan, ?qscan_amax, ?qpack, ?qunpack⟩
  case qscan => exact exec_qscan
  case qscan_amax => exact exec_qscan_amax
  case qpack =>
    intro h hm hfit hd ha
    refine ⟨packedGroup f s, (exec_qpack h hm hfit hd ha).trans (by rw [nanFlag_eq]; rfl), writeBytes_frame .., fun n hn hne => ?_,
      fun i j hi hj => ?_⟩
    · have hlt : d < 256 := f.dst.isLt
      exact getV_writeBytes_ne _ _ (by omega) _ _
    · rw [packedGroup, getLsbD_writeBytes _ _ (fun w hw => (mem_packedBytes.1 hw).1) _ hi hj]
      simp only [mem_packedBytes, hi, true_and]
      rfl
  case qunpack => exact exec_qunpack

end Sys2Proof.Machine
end

