-- ==== Sys2Proof/Proofs/MapBindings.lean ====
section
/-!
SUPPORT. Map numbers (R202 to R206): what binding and releasing one leaves, and the ops past their checks (O19).
-/
namespace Sys2Proof.Machine

/-! ### A map number bound -/

/-- A binding changes one descriptor, and none for number 0 (R50). -/
theorem setMap_eq (n : Nat) (d : W64) (g : Group) :
    setMap g n d = { g with maps := if 0 < n ∧ n < 15 then g.maps.set! n d else g.maps } := by
  unfold setMap
  by_cases h0 : n = 0
  · subst h0; rfl
  · rw [if_neg h0, apply_ite (fun m => ({ g with maps := m } : Group))]
    simp only [Nat.pos_of_ne_zero h0, true_and]

/-- A map number bound twice has the later descriptor, with any streams put between. -/
theorem setMap_setMap (n : Nat) (d e : W64) (ss : List (Nat × Stream)) (g : Group) :
    setMap { setMap g n e with streams := ss } n d = setMap { g with streams := ss } n d := by
  rw [setMap_eq, setMap_eq, setMap_eq]
  by_cases h : 0 < n ∧ n < 15
  · simp only [if_pos h, Vector.set!_eq_setIfInBounds, Vector.setIfInBounds_setIfInBounds]
  · simp only [if_neg h]

/-- A release binds 0 and drops the number's stream (R206). -/
theorem mapRelease_eq (n : Nat) (g : Group) : mapRelease n g = setMap { g with streams := g.streams.filter fun e => e.1 ≠ n } n 0 := by
  rw [mapRelease, setMap_eq, setMap_eq]

/-- A binding drops the stream that the number held (R203). -/
theorem mapBind_eq (n : Nat) (d : W64) (g : Group) : mapBind n d g = setMap { g with streams := g.streams.filter fun e => e.1 ≠ n } n d :=
  setMap_setMap ..

/-! ### A stream advanced -/

section Advance
variable {n : Nat} {g : Group} {e : Nat × Stream}

/-- Past its last block a stream's map number is released (R206). -/
theorem streamAdvance_last (hf : g.streams.find? (fun e => e.1 = n) = some e) (hb : swCount e.2.word ≤ mdB (getMap g n) + 1) :
    streamAdvance n g = mapRelease n g := by
  rw [streamAdvance, hf]
  exact if_pos hb

/-- A stream moved on to its next block, whose fetch is the one that went ahead, and the fetch after it begun (R205, R206). -/
theorem streamAdvance_next (hf : g.streams.find? (fun e => e.1 = n) = some e) (hb : mdB (getMap g n) + 1 < swCount e.2.word) :
    streamAdvance n g =
      setMap { g with seqn := g.seqn + 1, streams := g.streams.map fun x => if x.1 = n then (n, { x.2 with
          here := x.2.ahead, ahead := false, seqHere := x.2.seqAhead, seqAhead := g.seqn, gotHere := x.2.gotAhead, gotAhead := [] }) else x } n
        (setPos (getMap g n) (mdB (getMap g n) + 1) ((e.2.fields.extractLsb' 22 3).toNat + 1)) := by
  rw [streamAdvance, hf]
  refine (if_neg (not_le.2 hb)).trans ?_
  simp only [setMap_eq]

end Advance

/-! ### The ops -/

section Ops
variable {f : OpF} {s : State}

/-- An op whose body changes its group alone. -/
theorem runS_ends {o : Op} {body : State → Res State} {g : Group} (h : issues o f s = true) (e : body s = .ok { s with g := g }) :
    runS o f body s = goesOn s g := by
  rw [runS_issues h, e]
  rfl

/-- An op whose body raises a class. -/
theorem runS_traps {o : Op} {body : State → Res State} {i : TrapI} (h : issues o f s = true) (e : body s = .trap i) :
    runS o f body s = .next (trapAt i s) := by
  rw [runS_issues h, e]
  rfl

theorem exec_mapset (h : issues .mapset f s = true) (hok : mapsetOk s (dstMap f) (getS s.g f.a.reg.toNat) = true) :
    execMapset f s = goesOn s (mapBind (dstMap f) (getS s.g f.a.reg.toNat) s.g) :=
  runS_ends h (by dsimp only; rw [hok]; rfl)

theorem exec_mapset_illegal (h : issues .mapset f s = true) (hok : mapsetOk s (dstMap f) (getS s.g f.a.reg.toNat) = false) :
    execMapset f s = .next (trapAt trapIllegal s) :=
  runS_traps h (by dsimp only; rw [hok]; rfl)

/-- MAPBIND of a view that lies within a resident map (R202). -/
theorem exec_mapbind {m : W64} {x : Nat} (h : issues .mapbind f s = true) (hm : getMap s.g f.a.reg.toNat = m) (hx : (intS s.g f f.b).toNat = x)
    (hk : mdKind m = 1) (hlt : x < 1024) (hr : x % 32 + 1 ≤ mdRows m) (hc : x / 32 % 32 + 1 ≤ mdCols m)
    (hs : slotsFree s (dstMap f) (viewDesc m x) = true) : execMapbind f s = goesOn s (mapBind (dstMap f) (viewDesc m x) s.g) := by
  subst hm hx
  refine runS_ends h ?_
  dsimp only
  rw [decide_eq_true hk, decide_eq_true hlt, decide_eq_true hr, decide_eq_true hc, hs]
  rfl

/-- MAPADV of a map number that no stream holds. -/
theorem exec_mapadv_illegal (h : issues .mapadv f s = true) (hk : mdKind (getMap s.g (dstMap f)) ≠ 3) :
    exec (.mapadv f) s = .next (trapAt trapIllegal s) :=
  runG_trap h (by rw [decide_eq_false hk]; rfl)

theorem exec_mapadv (h : issues .mapadv f s = true) (hk : mdKind (getMap s.g (dstMap f)) = 3) :
    exec (.mapadv f) s = goesOn s (streamAdvance (dstMap f) s.g) :=
  runG_issues h (by rw [decide_eq_true hk]; rfl)

end Ops

/-- Settles O19: each op binds, releases or advances past its checks. -/
theorem mapBindings : Obligations.MapBindings := by
  unfold Obligations.MapBindings
  intro f s n d m x rows cols bind cur
  have hbind : ∀ d, goesOn s (mapBind n d s.g) = bind d := fun d => congrArg (goesOn s) (mapBind_eq n d s.g)
  have hrelease : goesOn s (mapRelease n s.g) = bind 0 := congrArg (goesOn s) (mapRelease_eq n s.g)
  refine ⟨?mapset, ?mapset_illegal, ?mapbind, ?maprel, ?mapadv_illegal, ?mapadv_last, ?mapadv_next⟩
  case mapset => exact fun h hok => (exec_mapset h hok).trans (hbind d)
  case mapset_illegal => exact exec_mapset_illegal
  case mapbind =>
    intro h hk hlt hr hc hs
    refine (exec_mapbind h rfl rfl hk hlt hr hc hs).trans ((hbind _).trans ?_)
    rw [viewDesc, hk]
  case maprel => exact fun h => (runP_issues h).trans hrelease
  case mapadv_illegal => exact exec_mapadv_illegal
  case mapadv_last => exact fun e h hk hf hb => (exec_mapadv h hk).trans ((congrArg (goesOn s) (streamAdvance_last hf hb)).trans hrelease)
  case mapadv_next => exact fun e h hk hf hb => (exec_mapadv h hk).trans (congrArg (goesOn s) (streamAdvance_next hf hb))

end Sys2Proof.Machine
end

