-- ==== Sys2Proof/Proofs/MapTransfers.lean ====
section
/-!
SUPPORT. Map transfers (R201, R204, R205): the ops that MAPLD, MAPST and MAPGEN put into MP and the stream of MAPSTR, past their checks, and what a
mapped source can find in a slot that another group's load fills (R60) (O20).
-/
namespace Sys2Proof.Machine

/-! ### Descriptors -/

section Desc
variable {kind slot fmt rows cols word : Nat}

/-- The slot of a descriptor made from its fields. -/
theorem mdSlot_mkDesc (hs : slot < 256) (hf : fmt < 16) (hr : rows ≤ 32) (hc : cols ≤ 32) (hw : word < 2 ^ 30) :
    mdSlot (mkDesc kind slot fmt rows cols word) = slot := by
  rw [mdSlot, mkDesc, BitVec.extractLsb'_toNat, BitVec.toNat_ofNat, Nat.shiftRight_eq_div_pow]
  omega

/-- The kind of a descriptor made from its fields. -/
theorem mdKind_mkDesc (hk : kind < 4) (hs : slot < 256) (hf : fmt < 16) (hr : rows ≤ 32) (hc : cols ≤ 32) (hw : word < 2 ^ 30) :
    mdKind (mkDesc kind slot fmt rows cols word) = kind := by
  rw [mdKind, mkDesc, BitVec.extractLsb'_toNat, BitVec.toNat_ofNat, Nat.shiftRight_eq_div_pow]
  omega

/-- A map that is no stream stands at its first slot. -/
theorem mdBase_of_not_stream {d : W64} (h : mdKind d ≠ 3) : mdBase d = 2048 * mdSlot d := if_neg h

end Desc

/-- Where MAPGEN.diag writes. -/
theorem mdBase_genDesc {f : OpF} (h : gwGen f = 5) : mdBase (genDesc f) = 2048 * gwSlot f := by
  have hs : gwSlot f < 256 := BitVec.isLt _
  have hf : gwFmt f < 16 := BitVec.isLt _
  have hr : gwRows f ≤ 32 := Nat.succ_le_of_lt (BitVec.isLt _)
  have hc : gwCols f ≤ 32 := Nat.succ_le_of_lt (BitVec.isLt _)
  have hkind := mdKind_mkDesc (kind := 1) (word := 0) (by decide) hs hf hr hc (by decide)
  rw [genDesc, if_pos h, mdBase_of_not_stream (by rw [hkind]; decide), mdSlot_mkDesc hs hf hr hc (by decide)]

/-! ### The ops -/

/-- Room in MP (R98). -/
theorem needMp_ok {s : State} (h : s.g.mapops.length < 63) : needMp s = .ok () := if_pos h

section Ops
variable {f : OpF} {s : State} {accs : List Acc}

/-- MAPLD past its checks (R201). -/
theorem exec_mapld {d : W64} (h : issues .mapld f s = true) (hd : getS s.g f.b.reg.toNat = d) (hok : residentOk s (dstMap f) d = true)
    (hroom : s.g.mapops.length < 63)
    (himg : checkImage s (imageReqs (spaceOf (f.dst.toNat / 64)) (imageBase s.g f) (imageSize (mdFmt d) (mdRows d)) true) = .ok accs) :
    exec (.mapld f) s = goesOn s (issueMap (mapldOp d accs) (mapBind (dstMap f) d s.g)) := by
  refine (runWith_issues h).trans ?_
  rw [mapldBody, hd, hok, needMp_ok hroom, Res.require_true, Res.bind_ok, Res.bind_ok, himg]
  rfl

/-- A resident descriptor stands at its first slot. -/
theorem mdBase_of_resident {n : Nat} {d : W64} (h : residentOk s n d = true) : mdBase d = 2048 * mdSlot d := by
  simp only [residentOk, Bool.and_eq_true, decide_eq_true_eq] at h
  obtain ⟨⟨⟨-, hkind⟩, -⟩, -⟩ := h
  exact mdBase_of_not_stream (by rw [hkind]; decide)

/-- MAPST past its checks, with no earlier load of its own to its slots and the lines it needs reserved (R60, R201, R317). -/
theorem exec_mapst {m : W64} (h : issues .mapst f s = true) (hm : getMap s.g (dstMap f) = m) (hkind : mdKind m = 1 ∨ mdKind m = 2)
    (hroom : s.g.mapops.length < 63)
    (himg : checkImage s (imageReqs (spaceOf (f.dst.toNat / 64)) (imageBase s.g f) (imageSize (mdFmt m) (mdRows m)) false) = .ok accs)
    (hfree : mdKind m = 1 → mapPending s.g (mdBase m) (imageSize (mdFmt m) (mdRows m)) = false) (hres : reserve s 2 accs 0 = .ok ()) :
    exec (.mapst f) s = goesOn s (issueMap
      { emptyMap with kind := .store, fmt := mdFmt m, accs := accs, image := some (mapImage s m), done := false } s.g) := by
  have hreq : (mdKind m = 1 || mdKind m = 2) = true := by
    rw [Bool.or_eq_true, decide_eq_true_eq, decide_eq_true_eq]
    exact hkind
  have hgo : ¬(mdKind m = 1 && mapPending s.g (mdBase m) (imageSize (mdFmt m) (mdRows m))) = true := by
    rw [Bool.and_eq_true, decide_eq_true_eq]
    exact fun ⟨hk, hp⟩ => Bool.false_ne_true ((hfree hk).symm.trans hp)
  refine (runWith_issues h).trans ?_
  rw [mapstBody, hm]
  dsimp only
  rw [hreq, needMp_ok hroom, Res.require_true, Res.bind_ok, Res.bind_ok, himg, Res.bind_ok, if_neg hgo, hres]
  rfl

/-- MAPGEN past its checks (R204). -/
theorem exec_mapgen (h : issues .mapgen f s = true) (hok : mapgenOk s f = true) (hroom : s.g.mapops.length < 63) :
    exec (.mapgen f) s = goesOn s (raise (if gwGen f = 5 then (diagRows f).foldl (fun a i => a ||| (diagElem s.g f i).2) 0 else 0)
      (issueMap (mapgenOp s.g f) (mapBind (dstMap f) (genDesc f) s.g))) := by
  refine (runWith_issues h).trans ?_
  rw [mapgenBody, hok, needMp_ok hroom]
  rfl

/-- MAPSTR past its checks (R205). -/
theorem exec_mapstr (h : issues .mapstr f s = true) (hok : mapstrOk s f = true)
    (himg : checkImage s (streamReqs (getS s.g f.a.reg.toNat) (getS s.g f.b.reg.toNat) (imageSize (sfFmt f) (sfRows f))) = .ok accs) :
    exec (.mapstr f) s = goesOn s { mapBind (dstMap f) (streamDesc f) s.g with
      streams := (mapBind (dstMap f) (streamDesc f) s.g).streams ++ [(dstMap f, ⟨getS s.g f.a.reg.toNat, getS s.g f.b.reg.toNat, f.imm, accs,
        false, false, s.g.seqn, s.g.seqn + 1, [], []⟩)]
      seqn := s.g.seqn + 2 } := by
  refine (runS_issues h).trans ?_
  rw [mapstrBody]
  dsimp only
  rw [hok, Res.require_true, Res.bind_ok, himg]
  rfl

end Ops

/-- The streams that a binding leaves (R203). -/
theorem mapBind_streams (n : Nat) (d : W64) (g : Group) : (mapBind n d g).streams = g.streams.filter fun e => e.1 ≠ n := setMap_streams ..

/-! ### What a mapped source finds -/

section Seen
variable {s : State}

/-- An unfinished load of another group that has some of its values (R60). -/
theorem mem_altSlots {c : Coming} (h : c ∈ altSlots s) : ∃ k ∈ teamGroups s s.g.id.t, ∃ o ∈ k.mapops, k.id ≠ s.g.id ∧ o.done = false ∧
    (o.kind = .load ∨ o.kind = .diag) ∧
      c = ⟨o.first, o.size, (comingBytes o).map Prod.fst, (comingBytes o).foldl (fun m y => memPut m y.1 y.2) s.t.slots⟩ := by
  obtain ⟨k, hk, hc⟩ := List.mem_flatMap.1 h
  obtain ⟨hteam, hother⟩ := List.mem_filter.1 hk
  obtain ⟨o, ho, rfl⟩ := List.mem_map.1 hc
  obtain ⟨hop, hsome⟩ := List.mem_filter.1 ho
  simp only [Bool.and_eq_true, Bool.or_eq_true, Bool.not_eq_true', decide_eq_true_eq] at hsome
  obtain ⟨⟨hdone, hkind⟩, -⟩ := hsome
  exact ⟨k, hteam, o, hop, of_decide_eq_true hother, hdone, hkind, rfl⟩

/-- The slot store that a reader finds is the one that stands, or the one that a load with all its bytes of the element brings (R60). -/
theorem seenStore_cases (s : State) (alt : List Coming) (bs : List Nat) (n : Nat) :
    seenStore s alt bs n = s.t.slots ∨ ∃ c ∈ alt, c.has bs = true ∧ seenStore s alt bs n = c.mem := by
  unfold seenStore
  cases hf : alt.zipIdx.find? fun c => c.1.has bs && Config.freeBit (s.tick + n + 2 ^ 20 * c.2) with
  | none => exact .inl rfl
  | some c =>
    have hhas := List.find?_some hf
    rw [Bool.and_eq_true] at hhas
    exact .inr ⟨c.1, List.fst_mem_of_mem_zipIdx (List.mem_of_find?_eq_some hf), hhas.1, rfl⟩

/-- A load has the value of each byte that it fills of an element it is found for. -/
theorem Coming.has_known {c : Coming} {bs : List Nat} (h : c.has bs = true) {b : Nat} (hb : b ∈ bs) (hlo : c.first ≤ b)
    (hhi : b < c.first + c.size) : b ∈ c.known := by
  rw [Coming.has, Bool.and_eq_true, List.all_eq_true] at h
  refine List.contains_iff_mem.1 (h.2 b (List.mem_filter.2 ⟨hb, ?_⟩))
  rw [Bool.and_eq_true, decide_eq_true_eq, decide_eq_true_eq]
  exact ⟨hlo, hhi⟩

/-- An element of the slot store as it stands, or of the one that a load brings. -/
theorem seenElem_cases (s : State) (m : W64) (i j : Nat) : seenElem s (altSlots s) m i j = mapElem s.t.slots m i j ∨
    ∃ c ∈ altSlots s, c.has (elemBytes m i j) = true ∧ seenElem s (altSlots s) m i j = mapElem c.mem m i j := by
  rw [seenElem]
  by_cases hnone : (altSlots s).isEmpty = true
  · exact .inl (by rw [if_pos hnone])
  · rw [if_neg hnone]
    rcases seenStore_cases s (altSlots s) (elemBytes m i j) (mdBase m / 2 + 32 * i + j) with h | ⟨c, hc, hhas, h⟩
    · exact .inl (by rw [h])
    · exact .inr ⟨c, hc, hhas, by rw [h]⟩

end Seen

/-- Settles O20: the ops past their checks, and an element by the load that it is found in. -/
theorem mapTransfers : Obligations.MapTransfers := by
  unfold Obligations.MapTransfers
  intro f s n d sp m put room img
  refine ⟨?mapld, ?mapst, ?mapgen, ?mapgen_diag, ?mapstr, ?seen⟩
  case mapld =>
    intro accs h hok hroom himg
    refine (exec_mapld h rfl hok hroom himg).trans ?_
    rw [mapldOp, mdBase_of_resident hok]
    rfl
  case mapst => exact fun accs h hkind hroom himg hfree hres => exec_mapst h rfl hkind hroom himg hfree hres
  case mapgen =>
    intro h hok hgen hroom
    refine (exec_mapgen h hok hroom).trans ?_
    rw [if_neg hgen, raise_zero, mapgenOp, if_neg hgen, genDesc, if_neg hgen]
    rfl
  case mapgen_diag =>
    intro h hok hgen hroom
    refine (exec_mapgen h hok hroom).trans ?_
    rw [if_pos hgen, mapgenOp, if_pos hgen, mdBase_genDesc hgen, genDesc, if_pos hgen]
    rfl
  case mapstr => exact fun accs h hok himg => (exec_mapstr h hok himg).trans (by rw [mapBind_streams]; rfl)
  case seen =>
    intro i j
    rcases seenElem_cases s m i j with h | ⟨c, hc, hhas, h⟩
    · exact .inl h
    · obtain ⟨k, hk, o, ho, hne, hdone, hkind, rfl⟩ := mem_altSlots hc
      exact .inr ⟨k, hk, o, ho, hne, hdone, hkind, h, fun b hb hlo hhi => Coming.has_known hhas hb hlo hhi⟩

end Sys2Proof.Machine
end

