-- ==== Sys2Proof/Proofs/AtomicIssue.lean ====
section
/-!
SUPPORT. The issue of ATOM and ARED, and the order of a task's deferred records (O22).
-/
namespace Sys2Proof.Machine

variable {s : State} {f : OpF} {accs : List Acc}

/-! ### Queueing -/

/-- Room in a counter (R98). -/
theorem needRoom_ok {c : Ctr} (h : ctrCount s.g c < 63) : needRoom c s = .ok () := if_pos (decide_eq_true h)

@[simp] theorem finish_issueLane (o : LaneOp) : finish s (issueLane o s) = goesOn s (enqueue o s.g) := rfl

/-- An update is left to the seam on global memory of a replay launch alone (R34). -/
theorem deferred_eq_false {sp : Space} (h : s.l.replay = false ∨ sp ≠ .g) : deferred s sp = false := by
  rcases h with h | h <;> simp [deferred, h]

theorem deferred_eq_true {sp : Space} (h : s.l.replay = true) (hsp : sp = .g) : deferred s sp = true := by simp [deferred, h, hsp]

/-! ### Records -/

/-- Records made by the group in focus join those of its task one after the other. -/
theorem foldl_addRed (hl : s.l.live = true) (hid : s.l.id = s.g.id.t.l) (rs : List RedRec) :
    rs.foldl (fun u r => addRed u.g r u) s =
      { s with l := updTask s.g.id.t.team (fun t => { t with recs := rs.foldl (fun rs r => redAdd s.g r rs) t.recs }) s.l } := by
  induction rs generalizing s with
  | nil => simp [updTask]
  | cons r rs ih =>
    have hone : addRed s.g r s = { s with l := updTask s.g.id.t.team (fun t => { t with recs := redAdd s.g r t.recs }) s.l } := by
      rw [addRed, ← hid]
      exact updLaunch_focus hl
    rw [List.foldl_cons, hone]
    refine (ih (s := { s with l := updTask _ _ s.l }) hl hid).trans ?_
    simp only [updTask, List.map_map]
    congr 2
    refine List.map_congr_left fun t _ => ?_
    by_cases h : t.team = s.g.id.t.team <;> simp [h]

/-- The order of records, spelled out. -/
theorem redLe_iff {a b : RedRec} : redLe a b = true ↔
    a.epoch < b.epoch ∨ (a.epoch = b.epoch ∧ (a.op.k.num < b.op.k.num ∨ (a.op.k.num = b.op.k.num ∧ a.op.seq ≤ b.op.seq))) := by
  simp [redLe]

theorem redLe_trans {a b c : RedRec} (hab : redLe a b = true) (hbc : redLe b c = true) : redLe a c = true := by
  rw [redLe_iff] at *
  omega

theorem redLe_of_not {a b : RedRec} (h : ¬redLe a b = true) : redLe b a = true := by
  rw [redLe_iff] at *
  omega

/-- A record put behind those that come before it keeps the order. -/
theorem pairwise_redLe_insert (r : RedRec) {rs : List RedRec} (h : rs.Pairwise fun a b => redLe a b = true) :
    (rs.takeWhile (fun x => redLe x r) ++ r :: rs.dropWhile fun x => redLe x r).Pairwise fun a b => redLe a b = true := by
  induction rs with
  | nil => exact List.pairwise_singleton _ _
  | cons x xs ih =>
    obtain ⟨hx, hxs⟩ := List.pairwise_cons.1 h
    by_cases hle : redLe x r = true
    · rw [List.takeWhile_cons, List.dropWhile_cons, if_pos hle, if_pos hle, List.cons_append]
      refine List.pairwise_cons.2 ⟨fun y hy => ?_, ih hxs⟩
      rcases List.mem_append.1 hy with hy | hy
      · exact hx y (List.takeWhile_subset _ hy)
      · rcases List.mem_cons.1 hy with rfl | hy
        · exact hle
        · exact hx y (List.dropWhile_subset _ hy)
    · rw [List.takeWhile_cons, List.dropWhile_cons, if_neg hle, if_neg hle, List.nil_append]
      have hr := redLe_of_not hle
      exact List.pairwise_cons.2 ⟨List.forall_mem_cons.2 ⟨hr, fun y hy => redLe_trans hr (hx y hy)⟩, h⟩

theorem pairwise_redAdd (g : Group) (r : RedRec) {rs : List RedRec} (h : rs.Pairwise fun a b => redLe a b = true) :
    (redAdd g r rs).Pairwise fun a b => redLe a b = true := pairwise_redLe_insert _ h

/-- A record joins the others with its epoch. -/
theorem redAdd_perm (g : Group) (r : RedRec) (rs : List RedRec) :
    (redAdd g r rs).Perm ({ r with epoch := redEpoch g r.op.seq rs } :: rs) := by
  refine List.perm_middle.trans (List.Perm.cons _ ?_)
  rw [List.takeWhile_append_dropWhile]

/-- The epoch of a next record, from the epoch found so far and one more record. -/
def epochAfter (g : Group) (seq e : Nat) (r : RedRec) : Nat :=
  if r.op.k = g.id then max e r.epoch else if redKnows g seq r then max e (r.epoch + 1) else e

theorem redEpoch_eq (g : Group) (seq : Nat) (rs : List RedRec) : redEpoch g seq rs = rs.foldl (epochAfter g seq) 0 := rfl

theorem le_epochAfter (g : Group) (seq e : Nat) (r : RedRec) : e ≤ epochAfter g seq e r := by
  unfold epochAfter
  (repeat' split) <;> omega

theorem le_foldl_epochAfter (g : Group) (seq e : Nat) (rs : List RedRec) : e ≤ rs.foldl (epochAfter g seq) e := by
  induction rs generalizing e with
  | nil => exact le_rfl
  | cons r rs ih => exact (le_epochAfter g seq e r).trans (ih _)

/-- A group's next record stands in no earlier epoch than its own records, and in a later one than those it has acquired. -/
theorem epoch_le_redEpoch {g : Group} {seq : Nat} {rs : List RedRec} {x : RedRec} (hx : x ∈ rs) :
    (x.op.k = g.id → x.epoch ≤ redEpoch g seq rs) ∧ (x.op.k ≠ g.id → redKnows g seq x = true → x.epoch < redEpoch g seq rs) := by
  obtain ⟨xs, ys, rfl⟩ := List.append_of_mem hx
  have hafter := le_foldl_epochAfter g seq (epochAfter g seq (xs.foldl (epochAfter g seq) 0) x) ys
  rw [redEpoch_eq, List.foldl_append, List.foldl_cons]
  refine ⟨fun hk => le_trans ?_ hafter, fun hk hknows => lt_of_lt_of_le ?_ hafter⟩
  · rw [epochAfter, if_pos hk]
    exact le_max_right _ _
  · rw [epochAfter, if_neg hk, if_pos hknows]
    exact Nat.succ_le_iff.1 (le_max_right _ _)

/-! ### Rounds -/

/-- A round taken leaves the group. -/
@[simp] theorem ordTake_g (s : State) : (ordTake s).2.g = s.g := by
  unfold ordTake
  dsimp only
  split <;> rfl

/-- A replay launch allows no returning atomic without .ord or wider than the team (R35). -/
theorem ordAllowed_replay (h : s.l.replay = true) (hf : memOrd f = false ∨ 1 < memScope f) : ordAllowed s f = false := by
  rcases hf with hf | hf
  · simp [ordAllowed, h, hf]
  · simp [ordAllowed, h, Nat.not_le.2 hf]

theorem ordAllowed_plain (h : s.l.replay = false) (hf : memOrd f = false) : ordAllowed s f = true := by simp [ordAllowed, h, hf]

/-! ### ATOM and ARED -/

/-- ATOM past its checks. -/
theorem execAtom_checked (hi : issues .atom f s = true) (hok : atomicOk true f = true) (hallowed : ordAllowed s f = true)
    (hroom : ctrCount s.g .ld < 63) (hacc : checkReqs s 0 (memReqs s.g f true true (atomData s.g f) (atomExp s.g f)) = .ok accs) :
    execAtom f s = finish s (atomIssue f accs s) := by
  rw [execAtom, runWith_issues hi, atomBody, hok, hallowed, needRoom_ok hroom, hacc]
  rfl

/-- An ATOM that is not allowed raises ORDER_VIOLATION before its accesses are checked. -/
theorem execAtom_violation (hi : issues .atom f s = true) (hok : atomicOk true f = true) (hallowed : ordAllowed s f = false) :
    execAtom f s = .next (trapAt (trapOrder (ordRound s (opPc s.g))) s) := by
  rw [execAtom, runWith_issues hi, atomBody, hok, hallowed]
  rfl

/-- ARED past its checks. -/
theorem execAred_checked (hi : issues .ared f s = true) (hok : atomicOk false f = true) (hroom : ctrCount s.g .st < 63)
    (hacc : checkReqs s 0 (memReqs s.g f true true (atomData s.g f) noExp) = .ok accs) :
    execAred f s = finish s (if deferred s (spaceOf (memQ f)) then
      (reserve s 0 [] accs.length).bind fun _ =>
        issueLane { aredOp f with done := true } ((aredRecs ⟨s.g.id, s.g.seqn⟩ f accs).foldl (fun s r => addRed s.g r s) s)
      else issueLane { aredOp f with accs := accs } s) := by
  rw [execAred, runWith_issues hi, aredBody, hok, needRoom_ok hroom, hacc]
  rfl

/-- Settles O22: ATOM and ARED past their checks, and a record put in its place by an order that is total. -/
theorem atomicIssue : Obligations.AtomicIssue := by
  unfold Obligations.AtomicIssue
  intro f s accs wide scope dst atom ared reads merges task
  refine ⟨?plain, ?violation, ?ord, ?ared, ?deferred, ?records⟩
  case plain =>
    intro hi hok hord hrep hroom hacc
    refine (execAtom_checked hi hok (ordAllowed_plain hrep hord) hroom hacc).trans ?_
    rw [atomIssue, hord]
    rfl
  case violation => exact fun hi hok hrep hf => execAtom_violation hi hok (ordAllowed_replay hrep hf)
  case ord =>
    intro hi hok hord hallowed hroom hacc
    refine (execAtom_checked hi hok hallowed hroom hacc).trans ?_
    rw [atomIssue, hord, if_pos rfl, ordWait, finish_block, ordTake_g]
    rfl
  case ared =>
    intro hi hok hdef hroom hacc
    refine (execAred_checked hi hok hroom hacc).trans ?_
    rw [deferred_eq_false hdef]
    rfl
  case deferred =>
    intro hi hok hrep hsp hroom hacc hres hl hid
    refine (execAred_checked hi hok hroom hacc).trans ?_
    rw [deferred_eq_true hrep hsp, if_pos rfl, hres, Res.bind_ok, foldl_addRed hl hid]
    rfl
  case records => exact fun r rs h => ⟨pairwise_redAdd s.g r h, redAdd_perm s.g r rs, fun x hx => epoch_le_redEpoch hx⟩

end Sys2Proof.Machine
end

