-- ==== Sys2Proof/Proofs/Signals.lean ====
section
/-!
SUPPORT. The signal ops of the lane path: what SIGADD queues or leaves to the seam, and when SIGWAIT ends (O27).
-/
namespace Sys2Proof.Machine

variable {s : State} {f : OpF} {x : Acc}

/-! ### SIGADD -/

/-- A record made by the group in focus joins those of its task. -/
theorem addRed_focus (hl : s.l.live = true) (hid : s.l.id = s.g.id.t.l) (r : RedRec) :
    addRed s.g r s = { s with l := updTask s.g.id.t.team (fun t => { t with recs := redAdd s.g r t.recs }) s.l } :=
  foldl_addRed hl hid [r]

/-- The op that a SIGADD queues. -/
def sigaddOp (f : OpF) : LaneOp := { laneOp .st .sigadd 8 [] .none with rel := some (scopeOf (scopeField f.c)) }

/-- SIGADD past its checks. -/
theorem execSigadd_checked (hi : issues .sigadd f s = true) (hsc : scopeField f.c ≤ 5) (hroom : ctrCount s.g .st < 63)
    (hacc : checkReqs s 0 [sigReq s.g f true (intS s.g f f.b)] = .ok [x]) :
    execSigadd f s = finish s (if deferred s (spaceOf (f.dst.toNat / 64)) then
      (reserve s 0 [] 1).bind fun _ =>
        issueLane { sigaddOp f with done := true } (addRed s.g (sigRec s.g .lane x.loc.addr x.va (intS s.g f f.b)) s)
      else issueLane { sigaddOp f with accs := [x] } s) := by
  rw [execSigadd, runWith_issues hi, sigaddBody, decide_eq_true hsc, Res.require_true, Res.bind_ok, needRoom_ok hroom, Res.bind_ok]
  dsimp only
  rw [hacc]
  rfl

/-! ### SIGWAIT -/

/-- Nothing stands in the way of a read: no lane-path op in the queue, and memory without errors. -/
structure Clear (s : State) : Prop where
  lane : s.g.lane = []
  poison : s.dev.poison = []
  corrected : s.dev.corrected = []

/-- Nothing is performed before accesses where nothing is queued. -/
theorem performFor_idle (hl : s.g.lane = []) (accs : List Acc) : performFor accs s = some s := by
  simp [performFor, opsBefore, hl, laneClosure, performList, allDone]

/-- The value of a signal. -/
def sigValue (s : State) (x : Acc) : W64 := BitVec.ofNat 64 (leNat (peekBytes s.g.id (locsFrom x.loc 8) s))

/-- The value on which a SIGWAIT ends (R233). -/
def sigMet (s : State) (x : Acc) (target : W64) : Prop := (sigValue s x).toInt < 0 ∨ target.toInt ≤ (sigValue s x).toInt

/-- What a SIGWAIT that ends leaves: the signal's value written, and the releases that it found acquired. -/
def sigEnded (d : Nat) (x : Acc) (sc : Scope) (s : State) : State :=
  let tags := relsAt s s.g.id (plainly (locsFrom x.loc 8))
  acquire s.g.id sc s.g.seqn tags (learnNewest s.g.id .lane s.g.seqn (locsFrom x.loc 8)
    { s with g := { setS s.g d (sigValue s x) with lastRead := tags, lastSeq := s.g.seqn, lastBound := false, seqn := s.g.seqn + 1 } })

theorem Clear.sigPoisoned (h : Clear s) : sigPoisoned x s = false := by simp [Machine.sigPoisoned, poisoned, h.poison]

theorem Clear.eccRead (h : Clear s) (ls : List Loc) : eccRead ls s = s := by simp [Machine.eccRead, h.corrected]

theorem Clear.sigwaitTry_met (h : Clear s) {d : Nat} {target : W64} {sc : Scope} (hmet : sigMet s x target) :
    sigwaitTry d x target sc s = some (sigEnded d x sc s) := by
  rw [sigwaitTry, performFor_idle h.lane]
  unfold sigMet sigValue at hmet
  dsimp only
  rw [if_pos hmet]
  simp only [sigEnded, sigValue, setS_id]

theorem Clear.sigwaitTry_not_met (h : Clear s) {d : Nat} {target : W64} {sc : Scope} (hmet : ¬sigMet s x target) :
    sigwaitTry d x target sc s = none := by
  unfold sigMet sigValue at hmet
  rw [sigwaitTry, performFor_idle h.lane]
  dsimp only
  rw [if_neg hmet]

/-- SIGWAIT past its checks tries to end. -/
theorem Clear.execSigwait_checked (h : Clear s) (hi : issues .sigwait f s = true) (hsc : scopeField f.c ≤ 5)
    (hacc : checkReqs s 0 [sigReq s.g f false 0] = .ok [x]) :
    execSigwait f s = finish s (tryOr (.sigwait (f.dst.toNat % 64) x (intS s.g f f.b) (scopeOf (scopeField f.c)))
      (sigwaitTry (f.dst.toNat % 64) x (intS s.g f f.b) (scopeOf (scopeField f.c))) s) := by
  rw [execSigwait, runS_issues hi, sigwaitBody, decide_eq_true hsc, Res.require_true, Res.bind_ok, hacc, Res.bind_ok]
  dsimp only
  rw [if_neg (Bool.eq_false_iff.1 h.sigPoisoned), h.eccRead]

/-- SIGWAIT_END reads the signal again. -/
theorem Clear.execSigwaitEnd_focused (h : Clear s) (hf : inFocus s) {d : Nat} {target : W64} {sc : Scope} (hw : s.g.wait = .sigwait d x target sc) :
    execSigwaitEnd s.g.id s = .next (ending (sigwaitTry d x target sc) s) := by
  rw [execSigwaitEnd, resume, focus_here hf]
  simp only [hf.1, hw, h.sigPoisoned, h.eccRead, Bool.true_and, decide_true, if_true, Bool.false_eq_true, if_false]

/-- Settles O27: SIGADD past its checks, and SIGWAIT by the value that it reads. -/
theorem signals : Obligations.Signals := by
  unfold Obligations.Signals
  intro f s x sp scope sc addr delta req read calm ends
  have clear : calm → Clear s := fun ⟨hl, hp, hc, _⟩ => ⟨hl, hp, hc⟩
  refine ⟨?sigadd, ?deferred, ?met, ?waits, ?sigwaitEnd⟩
  case sigadd =>
    intro hi hsc hroom hacc hdef
    refine (execSigadd_checked hi hsc hroom hacc).trans ?_
    rw [deferred_eq_false hdef]
    rfl
  case deferred =>
    intro hi hsc hroom hacc hrep hsp hres hl hid
    refine (execSigadd_checked hi hsc hroom hacc).trans ?_
    rw [deferred_eq_true hrep hsp, if_pos rfl, hres, Res.bind_ok, addRed_focus hl hid]
    rfl
  case met =>
    intro hi hsc hacc hcalm hmet
    refine ((clear hcalm).execSigwait_checked hi hsc hacc).trans ?_
    exact finish_tryOr_some ((clear hcalm).sigwaitTry_met hmet)
  case waits =>
    intro hi hsc hacc hcalm hnn hlt
    refine ((clear hcalm).execSigwait_checked hi hsc hacc).trans ?_
    exact finish_tryOr_none ((clear hcalm).sigwaitTry_not_met (not_or.2 ⟨not_lt.2 hnn, not_le.2 hlt⟩))
  case sigwaitEnd =>
    intro d target sc hf hcalm hw hmet
    refine ((clear hcalm).execSigwaitEnd_focused hf hw).trans ?_
    rw [ending, (clear hcalm).sigwaitTry_met hmet]
    rfl

end Sys2Proof.Machine
end

