-- ==== Sys2Proof/Proofs/RegisterQuota.lean ====
section
/-!
SUPPORT. The bounds that ROLEQ moves and the registers that are spilled: both leave every value (O29).
-/
namespace Sys2Proof.Machine

variable {s u w : State} {f : OpF}

/-! ### One group's bound -/

/-- Registers moved one after the other change where registers stand alone. -/
theorem foldl_forms {move : Group → Nat → Group} (h : ∀ g j, ∃ fs, move g j = { g with forms := fs }) (is : List Nat) (g : Group) :
    ∃ fs, is.foldl move g = { g with forms := fs } := by
  induction is generalizing g with
  | nil => exact ⟨g.forms, rfl⟩
  | cons i is ih =>
    obtain ⟨fs, he⟩ := h g i
    obtain ⟨fs', he'⟩ := ih { g with forms := fs }
    exact ⟨fs', by rw [List.foldl_cons, he, he']⟩

/-- A bound changed leaves the values: only the bound and the registers in the backing store differ. -/
theorem setBound_eq (b : Nat) (g : Group) : ∃ fs, setBound b g = { g with bound := b, forms := fs } := by
  obtain ⟨fs, he⟩ := foldl_forms (move := fun g i => spillOut (b + i) g) (fun _ _ => ⟨_, rfl⟩) (List.range (g.bound - b)) g
  obtain ⟨fs', he'⟩ := foldl_forms (move := fun g i => spillIn (g.bound + i) g) (fun _ _ => ⟨_, rfl⟩) (List.range (b - g.bound))
    { g with forms := fs }
  refine ⟨fs', ?_⟩
  rw [setBound, he]
  dsimp only
  rw [he']

@[simp] theorem setBound_live (b : Nat) (g : Group) : (setBound b g).live = g.live := by
  obtain ⟨fs, h⟩ := setBound_eq b g
  rw [h]

@[simp] theorem setBound_id (b : Nat) (g : Group) : (setBound b g).id = g.id := by
  obtain ⟨fs, h⟩ := setBound_eq b g
  rw [h]

/-- A group with another bound and base keeps all else but where its registers stand. -/
structure Requoted (b : Nat) (x y : Group) : Prop where
  bound : y.bound = b
  rest : { y with bound := x.bound, base := x.base, forms := x.forms } = x

theorem requoted_setBound (b : Nat) (g : Group) : Requoted b g (setBound b g) := by
  obtain ⟨fs, h⟩ := setBound_eq b g
  rw [h]
  exact ⟨rfl, rfl⟩

theorem Requoted.setBase {b : Nat} {x y : Group} (h : Requoted b x y) (n : Nat) : Requoted b x { y with base := n } := ⟨h.bound, h.rest⟩

/-- The next slot, of a group with another bound and base. -/
theorem Requoted.ownNext {b : Nat} {x y : Group} (h : Requoted b x y) (n : Nat) : Requoted b (nextSlot x) (nextSlot { y with base := n }) := by
  obtain ⟨hb, hr⟩ := h
  refine ⟨hb, ?_⟩
  conv_rhs => rw [← hr]
  rfl

/-! ### Lookups -/

/-- A lookup of a group after an update of every group of a team that keeps their names and lives. -/
theorem group?_updTeamGroups {f : Group → Group} (hl : ∀ x, (f x).live = x.live) (hi : ∀ x, (f x).id = x.id) (k : Tid) (j : Gid) :
    group? (updTeamGroups k f s) j = (group? s j).map fun x => if j.t = k then f x else x := by
  have hmap : ((s.g :: s.groups).map fun x => if x.live && decide (x.id.t = k) then f x else x) =
      (updTeamGroups k f s).g :: (updTeamGroups k f s).groups := rfl
  have hp : (fun y => y.live && decide (y.id = j)) ∘ (fun x => if x.live && decide (x.id.t = k) then f x else x) =
      fun y : Group => y.live && decide (y.id = j) := by
    funext x
    rw [Function.comp_apply]
    split
    · rw [hl, hi]
    · rfl
  simp only [group?, allGroups, List.find?_filter, Bool.decide_and, Bool.decide_eq_true]
  rw [← hmap, List.find?_map, hp]
  cases hx : (s.g :: s.groups).find? fun y => y.live && decide (y.id = j) with
  | none => rfl
  | some x =>
    have hs := List.find?_some hx
    rw [Bool.and_eq_true, decide_eq_true_eq] at hs
    obtain ⟨hlx, hid⟩ := hs
    simp [hlx, hid]

/-- Another group is found as before where the one in focus goes on. -/
theorem group?_nextSlot_ne (v : State) {k : Gid} (hk : k ≠ v.g.id) : group? { v with g := nextSlot v.g } k = group? v k := by
  rw [group?_eq, group?_eq]
  simp [hk.symm]

theorem updTeamGroups_g (k : Tid) (f : Group → Group) (s : State) :
    (updTeamGroups k f s).g = if s.g.live && decide (s.g.id.t = k) then f s.g else s.g := rfl

theorem updGroup_g_eq (k : Gid) (f : Group → Group) (s : State) :
    (updGroup k f s).g = if s.g.live && decide (s.g.id = k) then f s.g else s.g := by
  rw [updGroup]
  split <;> rfl

theorem updGroup_frame (k : Gid) (f : Group → Group) (s : State) : { updGroup k f s with g := s.g, groups := s.groups } = s := by
  rw [updGroup]
  split <;> rfl

/-! ### Bounds summed -/

/-- A sum of bounds depends on the numbers and bounds of a team's groups alone. -/
theorem boundsBelow_congr {t : Tid} (h : ∀ n, (group? u ⟨t, n⟩).map (fun g => (g.id.num, g.bound)) = (group? w ⟨t, n⟩).map fun g => (g.id.num, g.bound))
    (n : Nat) : boundsBelow (teamGroups u t) n = boundsBelow (teamGroups w t) n := by
  have sum : ∀ gs : List Group, boundsBelow gs n =
      ((gs.map fun g => (g.id.num, g.bound)).filter fun x => x.1 < n).foldl (fun a x => a + x.2) 0 := by
    intro gs
    rw [boundsBelow, List.filter_map, List.foldl_map]
    rfl
  have same : (teamGroups u t).map (fun g => (g.id.num, g.bound)) = (teamGroups w t).map fun g => (g.id.num, g.bound) := by
    simp only [teamGroups, List.map_filterMap, h]
  rw [sum, sum, same]

/-! ### The move -/

/-- The state with the bounds moved and the bases as they were. -/
def boundsMoved (d r k : Nat) (s : State) : State :=
  updGroup ⟨s.g.id.t, r⟩ (fun g => setBound (g.bound + k) g) (updGroup ⟨s.g.id.t, d⟩ (fun g => setBound (g.bound - k) g) s)

/-- A group of number n with its bound moved, if it is donor or receiver. -/
def quota (d r k n : Nat) (g : Group) : Group :=
  if n = d then setBound (g.bound - k) g else if n = r then setBound (g.bound + k) g else g

/-- The bound that a group of number n then has. -/
def quotaBound (d r k n b : Nat) : Nat := if n = d then b - k else if n = r then b + k else b

theorem requoted_quota (d r k n : Nat) (g : Group) : Requoted (quotaBound d r k n g.bound) g (quota d r k n g) := by
  unfold quota quotaBound
  split
  · exact requoted_setBound _ g
  · split
    · exact requoted_setBound _ g
    · exact ⟨rfl, rfl⟩

@[simp] theorem quota_live (d r k n : Nat) (g : Group) : (quota d r k n g).live = g.live := by
  unfold quota
  (repeat' split) <;> simp

@[simp] theorem quota_id (d r k n : Nat) (g : Group) : (quota d r k n g).id = g.id := by
  unfold quota
  (repeat' split) <;> simp

/-- The group in focus keeps its name and life where a bound moves. -/
theorem updGroup_setBound_keeps (k : Gid) (b : Group → Nat) (s : State) :
    (updGroup k (fun g => setBound (b g) g) s).g.id = s.g.id ∧ (updGroup k (fun g => setBound (b g) g) s).g.live = s.g.live := by
  rw [updGroup_g_eq]
  split
  · exact ⟨setBound_id _ _, setBound_live _ _⟩
  · exact ⟨rfl, rfl⟩

theorem boundsMoved_keeps (d r k : Nat) (s : State) :
    (boundsMoved d r k s).g.id = s.g.id ∧ (boundsMoved d r k s).g.live = s.g.live := by
  obtain ⟨hid, hlive⟩ := updGroup_setBound_keeps ⟨s.g.id.t, d⟩ (fun g => g.bound - k) s
  obtain ⟨hid', hlive'⟩ := updGroup_setBound_keeps ⟨s.g.id.t, r⟩ (fun g => g.bound + k)
    (updGroup ⟨s.g.id.t, d⟩ (fun g => setBound (g.bound - k) g) s)
  exact ⟨hid'.trans hid, hlive'.trans hlive⟩

/-- The bases of a team's groups from the bounds that stand (R21). -/
theorem group?_rebase (t : Team) (s : State) (j : Gid) : group? (rebase t s) j =
    (group? s j).map fun x => if j.t = t.id then { x with base := t.block + boundsBelow (teamGroups s t.id) x.id.num } else x :=
  group?_updTeamGroups (f := fun x => { x with base := t.block + boundsBelow (teamGroups s t.id) x.id.num }) (fun _ => rfl) (fun _ => rfl) t.id j

theorem rebase_keeps (t : Team) (s : State) : (rebase t s).g.id = s.g.id ∧ (rebase t s).g.live = s.g.live := by
  rw [rebase, updTeamGroups_g]
  split <;> exact ⟨rfl, rfl⟩

theorem roleqMove_eq (d r k : Nat) (s : State) : roleqMove d r k s = rebase s.t (boundsMoved d r k s) := by
  rw [roleqMove, boundsMoved]
  rw [(updGroup_setBound_keeps ⟨s.g.id.t, d⟩ (fun g => g.bound - k) s).1, updGroup_t, updGroup_t]

/-- A group of the team with the moved bounds. -/
theorem group?_boundsMoved {d r : Nat} (hdr : d ≠ r) (k n : Nat) :
    group? (boundsMoved d r k s) ⟨s.g.id.t, n⟩ = (group? s ⟨s.g.id.t, n⟩).map (quota d r k n) := by
  rw [boundsMoved, group?_updGroup (fun _ => setBound_live _ _) (fun _ => setBound_id _ _),
    group?_updGroup (fun _ => setBound_live _ _) (fun _ => setBound_id _ _), Option.map_map]
  congr 1
  funext g
  by_cases hd : n = d
  · subst hd
    simp [quota, hdr]
  · by_cases hr : n = r <;> simp [quota, hd, hr, hdr.symm]

/-- The base that a move gives the group of a number. -/
def movedBase (d r k : Nat) (s : State) (n : Nat) : Nat := s.t.block + boundsBelow (teamGroups (boundsMoved d r k s) s.t.id) n

/-- A group of the team with the moved bounds and the bases that follow from them. -/
theorem group?_roleqMove {d r : Nat} (hdr : d ≠ r) (k : Nat) (ht : s.t.id = s.g.id.t) {n : Nat} {x : Group}
    (hx : group? s ⟨s.g.id.t, n⟩ = some x) :
    group? (roleqMove d r k s) ⟨s.g.id.t, n⟩ = some { quota d r k n x with base := movedBase d r k s n } := by
  obtain ⟨-, hid⟩ := live_id_of_group? s hx
  rw [roleqMove_eq, group?_rebase, group?_boundsMoved hdr, hx, ht]
  simp [hid, movedBase, ht]

theorem roleqMove_frame (d r k : Nat) (s : State) : { roleqMove d r k s with g := s.g, groups := s.groups } = s := by
  have h := updGroup_frame ⟨s.g.id.t, d⟩ (fun g => setBound (g.bound - k) g) s
  have h' := updGroup_frame ⟨s.g.id.t, r⟩ (fun g => setBound (g.bound + k) g) (updGroup ⟨s.g.id.t, d⟩ (fun g => setBound (g.bound - k) g) s)
  rw [roleqMove_eq, boundsMoved]
  conv_rhs => rw [← h, ← h']
  rfl

/-- A state whose group in focus has gone on, with the bounds of donor and receiver moved. -/
structure BoundsMoved (s u : State) (d r k : Nat) : Prop where
  others : ∀ j x, group? s j = some x → j.t = s.g.id.t → j ≠ s.g.id → ∃ y, group? u j = some y ∧
    Requoted (quotaBound d r k j.num x.bound) x y ∧ y.base = u.t.block + boundsBelow (teamGroups u s.t.id) j.num
  own : Requoted (quotaBound d r k s.g.id.num s.g.bound) (nextSlot s.g) u.g
  rest : { u with g := s.g, groups := s.groups } = s

/-- What the next slot leaves of the group in focus, it leaves of the group found. -/
theorem map_group?_nextSlot {α : Type} {p : Group → α} (hp : ∀ g, p (nextSlot g) = p g) (v : State) (k : Gid) :
    (group? { v with g := nextSlot v.g } k).map p = (group? v k).map p := by
  rw [group?_eq, group?_eq, apply_ite (Option.map p), apply_ite (Option.map p)]
  exact if_congr Iff.rfl (congrArg some (hp v.g)) rfl

/-- The move of R236, once the group has gone on. -/
theorem boundsMoved_roleqMove (hf : inFocus s) {d r : Nat} (hdr : d ≠ r) (k : Nat) :
    BoundsMoved s { roleqMove d r k s with g := nextSlot (roleqMove d r k s).g } d r k := by
  have ht : s.t.id = s.g.id.t := hf.2.2.1
  have hteam : (roleqMove d r k s).t = s.t := by
    rw [roleqMove_eq]
    exact (updGroup_t _ _ _).trans (updGroup_t _ _ _)
  obtain ⟨hid, hlive⟩ : (roleqMove d r k s).g.id = s.g.id ∧ (roleqMove d r k s).g.live = s.g.live := by
    rw [roleqMove_eq]
    exact ⟨(rebase_keeps _ _).1.trans (boundsMoved_keeps d r k s).1, (rebase_keeps _ _).2.trans (boundsMoved_keeps d r k s).2⟩
  have hg : (roleqMove d r k s).g = { quota d r k s.g.id.num s.g with base := movedBase d r k s s.g.id.num } := by
    have hfound := group?_focus (s := roleqMove d r k s) (hlive.trans hf.1)
    rw [hid] at hfound
    exact Option.some.inj (hfound.symm.trans (group?_roleqMove hdr k ht (group?_focus hf.1)))
  have hbase : ∀ n, movedBase d r k s n = s.t.block +
      boundsBelow (teamGroups { roleqMove d r k s with g := nextSlot (roleqMove d r k s).g } s.t.id) n := by
    intro n
    rw [movedBase, roleqMove_eq]
    congr 1
    refine (boundsBelow_congr (fun m => ?_) n).symm
    refine (map_group?_nextSlot (p := fun g => (g.id.num, g.bound)) (fun _ => rfl) (rebase s.t (boundsMoved d r k s)) _).trans ?_
    rw [group?_rebase, Option.map_map]
    congr 1
    funext x
    rw [Function.comp_apply]
    split <;> rfl
  refine ⟨fun j x hx hj hne => ?_, ?_, ?_⟩
  · obtain ⟨t, n⟩ := j
    subst hj
    refine ⟨_, ?_, (requoted_quota d r k n x).setBase (movedBase d r k s n), ?_⟩
    · exact (group?_nextSlot_ne _ (by rwa [hid])).trans (group?_roleqMove hdr k ht hx)
    · rw [hbase]
      dsimp only
      rw [hteam]
  · rw [hg]
    exact (requoted_quota d r k s.g.id.num s.g).ownNext _
  · exact roleqMove_frame d r k s

/-! ### The checks of ROLEQ -/

/-- The checks of R236, spelled out. -/
theorem roleqOk_iff {d r k : Nat} : roleqOk s d r k = true ↔ ∃ x y, group? s ⟨s.g.id.t, d⟩ = some x ∧ group? s ⟨s.g.id.t, r⟩ = some y ∧ d ≠ r ∧
    hasExited y = false ∧ y.bound + k ≤ s.l.kern.regs ∧ if hasExited x then k ≤ x.bound else k + 16 ≤ x.bound := by
  have spare : ∀ x : Group, k + (if hasExited x then 0 else 16) ≤ x.bound ↔ if hasExited x then k ≤ x.bound else k + 16 ≤ x.bound := by
    intro x
    split <;> rfl
  unfold roleqOk
  split
  · next x y hx hy => simp [hx, hy, spare, and_assoc]
  · next h =>
    refine iff_of_false Bool.false_ne_true ?_
    rintro ⟨x, y, hx, hy, -⟩
    exact h x y hx hy

theorem roleqOk_ne {d r k : Nat} (h : roleqOk s d r k = true) : d ≠ r := by
  obtain ⟨_, _, -, -, hne, -⟩ := roleqOk_iff.1 h
  exact hne

/-- The unused bits of a request are zero below 2^14. -/
theorem roleq_unused {q : W64} : q.extractLsb' 14 50 = 0 ↔ q.toNat < 2 ^ 14 := by
  rw [← BitVec.toNat_inj]
  simp only [BitVec.extractLsb'_toNat, Nat.shiftRight_eq_div_pow, BitVec.ofNat_eq_ofNat, BitVec.toNat_ofNat]
  omega

section Roleq
variable {d r n : Nat}

/-- ROLEQ past its checks. -/
theorem execRoleq_legal (hi : issues .roleq f s = true) (hd : ((intS s.g f f.a).extractLsb' 0 5).toNat = d)
    (hr : ((intS s.g f f.a).extractLsb' 5 5).toNat = r) (hn : ((intS s.g f f.a).extractLsb' 10 4).toNat + 1 = n)
    (hq : (intS s.g f f.a).toNat < 2 ^ 14) (hok : roleqOk s d r (16 * n) = true) :
    execRoleq f s = finish s (tryOr (.roleq d r n) (fun s => if roleqFree s d r then some (roleqMove d r (16 * n) s) else none) s) := by
  refine (runS_issues hi).trans ?_
  simp only [hd, hr, hn, roleq_unused.2 hq, hok, decide_true, Bool.and_self, Res.require_true, Res.bind_ok]

theorem execRoleq_illegal (hi : issues .roleq f s = true) (h : ¬((intS s.g f f.a).toNat < 2 ^ 14 ∧ roleqOk s ((intS s.g f f.a).extractLsb' 0 5).toNat
      ((intS s.g f f.a).extractLsb' 5 5).toNat (16 * (((intS s.g f f.a).extractLsb' 10 4).toNat + 1)) = true)) :
    execRoleq f s = .next (trapAt trapIllegal s) := by
  rw [← roleq_unused, ← decide_eq_true_iff (p := _ = _), ← Bool.and_eq_true, Bool.not_eq_true] at h
  refine (runS_issues hi).trans ?_
  dsimp only
  rw [h]
  rfl

/-- ROLEQ_MOVE once the loads have retired, its checks made again. -/
theorem execRoleqMove_moves (hf : inFocus s) (hw : s.g.wait = .roleq d r n) (hfree : roleqFree s d r = true) (hok : roleqOk s d r (16 * n) = true) :
    execRoleqMove s.g.id s = goesOnWith (roleqMove d r (16 * n) s) := by
  rw [execRoleqMove, focus_here hf]
  simp only [hf.1, hw, hfree, hok, Bool.true_and, decide_true, if_true, Bool.not_true, Bool.false_eq_true, if_false]
  rfl

end Roleq

/-! ### Registers spilled -/

/-- A register moved to the backing store stands there, and the others stand where they did. -/
theorem mem_spillOut {g : Group} {j m : Nat} : (∃ t, (m, t) ∈ (spillOut j g).forms) ↔ m = j ∨ ∃ t, (m, t) ∈ g.forms := by
  by_cases h : m = j <;> simp [spillOut, h]

theorem mem_spillIn {g : Group} {j m : Nat} : (∃ t, (m, t) ∈ (spillIn j g).forms) ↔ m ≠ j ∧ ∃ t, (m, t) ∈ g.forms := by
  by_cases h : m = j <;> simp [spillIn, h]

/-- REGISTER_SPILL of the group in focus. -/
theorem execRegisterSpill_focused (hl : s.g.live = true) (j : Nat) :
    execRegisterSpill s.g.id j s = .next { s with g := if s.g.forms.any fun e => e.1 = j then spillIn j s.g else spillOut j s.g } :=
  congrArg _ (updGroup_focus hl)

theorem any_forms_iff {g : Group} {j : Nat} : (g.forms.any fun e => e.1 = j) = true ↔ ∃ t, (j, t) ∈ g.forms := by simp

/-- Settles O29: the lookups after a move of bounds, and the backing store after a spill. -/
theorem registerQuota : Obligations.RegisterQuota := by
  unfold Obligations.RegisterQuota
  intro f s q donor recv n legal moved
  have spelled : ∀ {u : State} {d r n : Nat}, BoundsMoved s u d r (16 * n) → moved u d r n := by
    rintro u d r n ⟨hothers, ⟨hb, hr⟩, hrest⟩
    refine ⟨fun k x hx hk hne => ?_, hb, hr, hrest⟩
    obtain ⟨y, hy, hq, hbase⟩ := hothers k x hx hk hne
    exact ⟨y, hy, hq.bound, hbase, hq.rest⟩
  refine ⟨?now, ?waits, ?illegal, ?checks, ?event, ?spill⟩
  case now =>
    rintro hi hf - ⟨hq, hok⟩ hfree
    refine ⟨_, (execRoleq_legal hi rfl rfl rfl hq hok).trans (finish_tryOr_some (if_pos hfree)), spelled ?_⟩
    exact boundsMoved_roleqMove hf (roleqOk_ne hok) _
  case waits =>
    rintro hi ⟨hq, hok⟩ hfree
    exact (execRoleq_legal hi rfl rfl rfl hq hok).trans (finish_tryOr_none (if_neg (Bool.eq_false_iff.1 hfree)))
  case illegal => exact fun hi hn => execRoleq_illegal hi hn
  case checks =>
    intro d r k gone
    simp only [roleqOk_iff, hasExited_eq_false_iff]
    rfl
  case event =>
    rintro d r n hf - hw hfree hok
    exact ⟨_, execRoleqMove_moves hf hw hfree hok, spelled (boundsMoved_roleqMove hf (roleqOk_ne hok) _)⟩
  case spill =>
    intro j hl
    by_cases h : ∃ t, (j, t) ∈ s.g.forms
    · refine ⟨(spillIn j s.g).forms, (execRegisterSpill_focused hl j).trans (by rw [if_pos (any_forms_iff.2 h)]; rfl), fun m hm => ?_, ?_⟩
      · simp [mem_spillIn, hm]
      · simp [mem_spillIn, h]
    · refine ⟨(spillOut j s.g).forms, (execRegisterSpill_focused hl j).trans (by rw [if_neg (h ∘ any_forms_iff.1)]; rfl), fun m hm => ?_, ?_⟩
      · simp [mem_spillOut, hm]
      · simp [mem_spillOut, h]

end Sys2Proof.Machine
end

