-- ==== Sys2Proof/Proofs/Fences.lean ====
section
/-!
SUPPORT. FENCE, XFENCE and PROMOTE: the read that a FENCE.acq makes an acquire, what an XFENCE crosses, and the promotion point (O24).
-/
namespace Sys2Proof.Machine

variable {s u : State} {f : OpF}

/-! ### FENCE -/

/-- A group after a FENCE, from what the FENCE makes of its mark and its next release. -/
def fenced (f : OpF) (s : State) (g : Group) : Group :=
  { g with
    fences := s.g.seqn :: s.g.fences.filter fun m => s.g.lane.any fun o => o.seq < m
    relNext := if memRel f then wider s.g.relNext (some (scopeOf (memScope f))) else s.g.relNext }

/-- A FENCE goes on where the acquire that it makes can be made. -/
theorem execFence_goes (hi : issues .fence f s = true) (hok : fenceOk f = true)
    (ha : (if memAcq f then fenceAcq (scopeOf (memScope f)) s else some s) = some u) : execFence f s = goesOn u (fenceMark f u.g) := by
  rw [execFence, runS_issues hi, hok, Res.require_true, Res.bind_ok, fenceBody, ha]
  rfl

/-- And else it waits. -/
theorem execFence_waits (hi : issues .fence f s = true) (hok : fenceOk f = true)
    (ha : (if memAcq f then fenceAcq (scopeOf (memScope f)) s else some s) = none) : execFence f s = .next (holdAt s) := by
  rw [execFence, runS_issues hi, hok, Res.require_true, Res.bind_ok, fenceBody, ha]
  rfl

/-- With an empty queue a FENCE.acq is made of the newest read that has been performed. -/
theorem fenceAcq_idle (hl : s.g.lane = []) (sc : Scope) : fenceAcq sc s = lateAcquire sc s.g.lastSeq s.g.lastBound s.g.lastRead s := by
  rw [fenceAcq, lastReader, hl]
  rfl

/-- The only op of the queue, a read still to be performed, is the nearest earlier read. -/
theorem lastReader_sole {o : LaneOp} (hl : s.g.lane = [o]) (hr : o.kind.reads = true) (hseq : s.g.lastSeq ≤ o.seq) : lastReader s.g = some o := by
  simp [lastReader, hl, hr, hseq]

theorem fenceAcq_sole {o : LaneOp} (hl : s.g.lane = [o]) (hr : o.kind.reads = true) (hd : o.done = false) (hseq : s.g.lastSeq ≤ o.seq) (sc : Scope) :
    fenceAcq sc s = some { s with g := { s.g with lane := [{ o with acq := sc :: o.acq }] } } := by
  simp [fenceAcq, lastReader_sole hl hr hseq, hd, hl]

/-- A late acquire leaves what a FENCE reads of its group. -/
theorem fenceMark_acquire (hg : s.g.live = true) (sc : Scope) (n : Nat) (tags : List RelTag) :
    fenceMark f (acquire s.g.id sc n tags s).g = fenced f s (acquire s.g.id sc n tags s).g := by
  obtain ⟨cs, os, x, he⟩ := acquires_frame s.g.id [sc] n tags hg rfl
  rw [List.foldl_cons, List.foldl_nil] at he
  rw [he]
  rfl

/-! ### XFENCE -/

/-- A crossing onto the other classes of a mask, by the classes that the mask names. -/
theorem crossTo_eq (mask : W32) (seq : Nat) (p : Path) (c : Crossing) : crossTo mask seq p c =
    ((((List.range 6).filter fun n => mask.getLsbD n).filter fun n => n ≠ pathBit p).map fun n =>
      { c with onto := some (pathOf n), from_ := seq, by_ := none }) := by
  rw [List.filter_filter, crossTo]
  congr 2
  funext n
  exact Bool.and_comm _ _

/-- A mask names two or more classes and nothing else (R228). -/
theorem xfenceOk_of {mask : W32} (h : mask.toNat < 64) (hn : 2 ≤ ((List.range 6).filter fun n => mask.getLsbD n).length) : xfenceOk mask = true := by
  have hz : mask.extractLsb' 6 26 = 0 := by
    apply BitVec.eq_of_toNat_eq
    simp only [BitVec.extractLsb'_toNat, Nat.shiftRight_eq_div_pow, BitVec.ofNat_eq_ofNat, BitVec.toNat_ofNat]
    omega
  rw [xfenceOk, hz, decide_eq_true hn]
  rfl

theorem execXfence_goes (hi : issues .xfence f s = true) (hok : xfenceOk f.imm = true) : execXfence f s = goesOnWith (xfenceDo f.imm s) := by
  rw [execXfence, runS_issues hi, hok]
  rfl

theorem mem_xfenceDo_crossed {mask : W32} {c : Crossing} : c ∈ (xfenceDo mask s).g.crossed ↔ c ∈ crossings mask s ∨ c ∈ s.g.crossed := by
  rw [← List.mem_append]
  exact List.mem_eraseDups

/-! ### PROMOTE -/

/-- PROMOTE of a team of the grid. -/
theorem execPromote_legal (hi : issues .promote f s = true) (ht : (intS s.g f f.a).toNat < s.l.gx * s.l.gy * s.l.gz) :
    execPromote f s = finish s (if s.l.replay || (intS s.g f f.a).toNat = s.g.id.t.team || (team? s ⟨s.l.id, (intS s.g f f.a).toNat⟩).isNone then .ok s
      else .block { s with g := { s.g with wait := .promote (intS s.g f f.a) } }) := by
  rw [execPromote, runS_issues hi, promoteBody]
  dsimp only
  rw [teamCount, decide_eq_true ht, Res.require_true, Res.bind_ok]

/-- The promotion point of the group in focus. -/
theorem execPromoteComplete_focused (hf : inFocus s) {x : W64} (hw : s.g.wait = .promote x) :
    execPromoteComplete s.g.id s = (promoteTeam ⟨s.g.id.t.l, x.toNat⟩ s).elim (.next s) goesOnWith := by
  rw [execPromoteComplete, focus_here hf]
  simp only [hf.1, hw, Bool.true_and, decide_true, if_true]
  cases promoteTeam ⟨s.g.id.t.l, x.toNat⟩ s <;> rfl

/-- A release of the team is left at neither of the narrow scopes. -/
theorem promoteTag_scope {t : Tid} {r : RelTag} (h : (promoteTag t r).by_.any (fun b => b.t = t) = true) :
    (promoteTag t r).scope ≠ .grp ∧ (promoteTag t r).scope ≠ .team := by
  unfold promoteTag at h ⊢
  split
  · exact ⟨Scope.noConfusion, Scope.noConfusion⟩
  · next hn =>
    rw [if_neg hn] at h
    have hnarrow : narrow r.scope ≠ true := fun hs => hn (by rw [hs, h]; rfl)
    exact ⟨fun he => hnarrow (by rw [he]; rfl), fun he => hnarrow (by rw [he]; rfl)⟩

/-- The releases after a promotion are those of a state, promoted. -/
theorem promoteTeam_rels {t : Tid} (h : promoteTeam t s = some u) : ∃ rs : List RelTag, u.rels = rs.map (promoteTag t) := by
  obtain ⟨v, -, rfl⟩ := Option.map_eq_some_iff.1 h
  exact ⟨_, rfl⟩

/-- Settles O24: the read that a FENCE makes an acquire, the crossings of an XFENCE, and the promotion point. -/
theorem fences : Obligations.Fences := by
  unfold Obligations.Fences
  intro f s sc mark mask named seen carried crossed t
  refine ⟨?plain, ?performed, ?queued, ?xfence, ?promoted, ?waits, ?complete⟩
  case plain =>
    intro hi hok hacq
    exact execFence_goes hi hok (by rw [hacq]; rfl)
  case performed =>
    intro hi hok hacq hl hg
    have hidle : (if memAcq f then fenceAcq sc s else some s) = lateAcquire sc s.g.lastSeq s.g.lastBound s.g.lastRead s := by
      rw [hacq, if_pos rfl, fenceAcq_idle hl]
    refine ⟨fun hn => ?_, fun ho => ?_⟩
    · have hlate : lateAcquire sc s.g.lastSeq s.g.lastBound s.g.lastRead s = some (acquire s.g.id sc s.g.lastSeq s.g.lastRead s) :=
        if_neg (by simpa using hn)
      refine (execFence_goes hi hok (hidle.trans hlate)).trans ?_
      rw [fenceMark_acquire hg]
      rfl
    · have hlate : lateAcquire sc s.g.lastSeq s.g.lastBound s.g.lastRead s = none := if_pos (by simpa using ho)
      exact execFence_waits hi hok (hidle.trans hlate)
  case queued =>
    intro o hi hok hacq hl hr hd hseq
    refine (execFence_goes hi hok (by rw [hacq, if_pos rfl, fenceAcq_sole hl hr hd hseq])).trans ?_
    have hmark : mark s.g = s.g.seqn :: s.g.fences.filter fun m => [o].any fun o => o.seq < m := by rw [← hl]
    rw [hmark]
    rfl
  case xfence =>
    intro hi hmask hn
    have hcrossed : crossings mask s = crossed := by
      simp only [crossings, crossTo_eq]
      rfl
    refine ⟨_, execXfence_goes hi (xfenceOk_of hmask hn), fun c => ?_, rfl, fun hrep => ?_⟩
    · rw [← hcrossed]
      exact mem_xfenceDo_crossed
    · exact if_neg (Bool.eq_false_iff.1 hrep)
  case promoted =>
    intro hi ht hown
    refine (execPromote_legal hi ht).trans ?_
    rw [if_pos (by simpa [or_assoc] using hown)]
    rfl
  case waits =>
    intro hi ht hrep hne hres
    refine (execPromote_legal hi ht).trans ?_
    have hx : BitVec.ofNat 64 t = intS s.g f f.a := BitVec.ofNat_toNat ..
    have hnone : (team? s ⟨s.l.id, t⟩).isNone = false := Option.isNone_eq_false_iff.2 hres
    have hgo : (s.l.replay || decide (t = s.g.id.t.team) || (team? s ⟨s.l.id, t⟩).isNone) = false := by
      rw [hrep, decide_eq_false hne, hnone]
      rfl
    rw [hx, if_neg (Bool.eq_false_iff.1 hgo)]
    rfl
  case complete =>
    intro x hg hw ht hti hl hli hp hpn
    have hexec := execPromoteComplete_focused ⟨hg, ht, hti, hl, hli, hp, hpn⟩ hw
    refine ⟨fun hnone => hexec.trans (by rw [hnone]; rfl), fun u hu => ⟨hexec.trans (by rw [hu]; rfl), fun r hr hby => ?_⟩⟩
    obtain ⟨rs, hrs⟩ := promoteTeam_rels hu
    obtain ⟨r, -, rfl⟩ := List.mem_map.1 (hrs ▸ hr)
    exact promoteTag_scope hby

end Sys2Proof.Machine
end

