-- ==== Sys2Proof/Proofs/AccessChecks.lean ====
section
/-!
SUPPORT. The checks of R97 on the accesses of an op: which access a check reports, and what each check asks of an access.
-/
namespace Sys2Proof.Machine

variable {s : State} {rs : List Req} {r : Req}

/-! ### The access that a check reports -/

/-- Of two accesses in the same role the one reported has the lower lane, or in one lane the lower address. -/
theorem reqFirst_iff {a b : Req} (hrole : a.role = b.role) :
    reqFirst a b = true ↔ a.lane < b.lane ∨ (a.lane = b.lane ∧ a.addr.toNat ≤ b.addr.toNat) := by simp [reqFirst, hrole]

/-- An access reported of those for which a check fails: none comes before it. -/
structure Reported (bad : Req → Prop) (rs : List Req) (r : Req) : Prop where
  mem : r ∈ rs
  fails : bad r
  first : ∀ q ∈ rs, bad q → r.lane < q.lane ∨ (r.lane = q.lane ∧ r.addr.toNat ≤ q.addr.toNat)

/-- No access is reported where the check fails for none. -/
theorem worst_eq_none {bad : Req → Bool} (h : ∀ q ∈ rs, bad q = false) : worst bad rs = none := by
  rw [worst]
  induction rs with
  | nil => rfl
  | cons q rs ih =>
    rw [List.foldl_cons, if_neg (Bool.eq_false_iff.1 (h q (by simp)))]
    exact ih fun p hp => h p (List.mem_cons_of_mem _ hp)

/-- One more access. -/
theorem worst_concat (bad : Req → Bool) (rs : List Req) (q : Req) : worst bad (rs ++ [q]) =
    if bad q then some ((worst bad rs).elim q fun a => if reqFirst a q then a else q) else worst bad rs := by
  rw [worst, List.foldl_append, List.foldl_cons, List.foldl_nil, ← worst]
  cases worst bad rs with
  | none => rfl
  | some a =>
    dsimp only [Option.elim_some]
    split
    · exact (apply_ite some _ _ _).symm
    · rfl

/-- Of accesses in one role, one for which the check fails is reported. -/
theorem worst_reported {bad : Req → Bool} {n : Nat} (hrole : ∀ q ∈ rs, q.role = n) (hr : r ∈ rs) (hbad : bad r = true) :
    ∃ a, worst bad rs = some a ∧ Reported (fun q => bad q = true) rs a := by
  induction rs using List.reverseRecOn generalizing r with
  | nil => cases hr
  | append_singleton rs q ih =>
    have hq : q.role = n := hrole q (by simp)
    have hrs : ∀ p ∈ rs, p.role = n := fun p hp => hrole p (by simp [hp])
    rw [worst_concat]
    by_cases hex : ∃ p ∈ rs, bad p = true
    · obtain ⟨p, hp, hpb⟩ := hex
      obtain ⟨a, ha, hmem, hab, hfirst⟩ := ih hrs hp hpb
      rw [ha]
      by_cases hqb : bad q = true
      · have hle := reqFirst_iff ((hrs a hmem).trans hq.symm)
        rw [if_pos hqb, Option.elim_some]
        by_cases haq : reqFirst a q = true
        · rw [if_pos haq]
          refine ⟨a, rfl, by simp [hmem], hab, fun x hx hxb => ?_⟩
          rcases List.mem_append.1 hx with hx | hx
          · exact hfirst x hx hxb
          · rw [List.mem_singleton.1 hx]
            exact hle.1 haq
        · rw [if_neg haq]
          refine ⟨q, rfl, by simp, hqb, fun x hx hxb => ?_⟩
          rcases List.mem_append.1 hx with hx | hx
          · have hax := hfirst x hx hxb
            rw [hle] at haq
            omega
          · rw [List.mem_singleton.1 hx]
            exact .inr ⟨rfl, le_rfl⟩
      · rw [if_neg hqb]
        refine ⟨a, rfl, by simp [hmem], hab, fun x hx hxb => ?_⟩
        rcases List.mem_append.1 hx with hx | hx
        · exact hfirst x hx hxb
        · rw [List.mem_singleton.1 hx] at hxb
          exact absurd hxb hqb
    · have hnone : ∀ p ∈ rs, bad p = false := fun p hp => Bool.eq_false_iff.2 fun hpb => hex ⟨p, hp, hpb⟩
      have hrq : r = q := by
        rcases List.mem_append.1 hr with hr | hr
        · exact absurd ⟨r, hr, hbad⟩ hex
        · exact List.mem_singleton.1 hr
      subst hrq
      rw [if_pos hbad, worst_eq_none hnone]
      refine ⟨r, rfl, by simp, hbad, fun x hx hxb => ?_⟩
      rcases List.mem_append.1 hx with hx | hx
      · exact absurd ⟨x, hx, hxb⟩ hex
      · rw [List.mem_singleton.1 hx]
        exact .inr ⟨rfl, le_rfl⟩

/-- The accesses of a load or a store: of one width in one space, all of them reads or all of them writes. -/
def Uniform (sp : Space) (w : Nat) (wr : Bool) (rs : List Req) : Prop :=
  ∀ q ∈ rs, q.role = 0 ∧ q.sp = sp ∧ q.w = w ∧ q.wr = wr ∧ q.rd = !wr

/-- Two accesses that no check tells apart: they differ in their data and their number within the lane at most. -/
structure SameAccess (a r : Req) : Prop where
  lane : a.lane = r.lane
  addr : a.addr = r.addr
  sp : a.sp = r.sp
  w : a.w = r.w
  wr : a.wr = r.wr
  rd : a.rd = r.rd

/-- The access reported is the first for which the check fails. -/
theorem Uniform.worst_eq {sp : Space} {w : Nat} {wr : Bool} (hu : Uniform sp w wr rs) {P : Req → Prop} {bad : Req → Bool}
    (hb : ∀ q, bad q = true ↔ P q) (h : Reported P rs r) : ∃ a, worst bad rs = some a ∧ SameAccess a r := by
  obtain ⟨a, ha, hmem, hab, hfirst⟩ := worst_reported (fun q hq => (hu q hq).1) h.mem ((hb r).2 h.fails)
  have hle := h.first a hmem ((hb a).1 hab)
  have hge := hfirst r h.mem ((hb r).2 h.fails)
  obtain ⟨-, hsp, hw, hwr, hrd⟩ := hu a hmem
  obtain ⟨-, hsp', hw', hwr', hrd'⟩ := hu r h.mem
  exact ⟨a, ha, by omega, BitVec.eq_of_toNat_eq (by omega), hsp.trans hsp'.symm, hw.trans hw'.symm, hwr.trans hwr'.symm, hrd.trans hrd'.symm⟩

/-- A check that fails for none reports none. -/
theorem worst_none {P : Req → Prop} {bad : Req → Bool} (hb : ∀ q, bad q = true ↔ P q) (h : ∀ q ∈ rs, ¬P q) : worst bad rs = none :=
  worst_eq_none fun q hq => Bool.eq_false_iff.2 fun hq' => h q hq ((hb q).1 hq')

/-! ### What the checks ask -/

/-- A well-formed address has bits 63:55 all equal (R97). -/
theorem wellFormed_iff {a : W64} : wellFormed a = true ↔ a.toNat / 2 ^ 55 = 0 ∨ a.toNat / 2 ^ 55 = 2 ^ 9 - 1 := by
  have hbit : a.getLsbD 55 = decide (a.toNat / 2 ^ 55 % 2 = 1) := by
    rw [← BitVec.testBit_toNat, Nat.testBit_eq_decide_div_mod_eq]
  have htop : (a.extractLsb' 56 8).toNat = a.toNat / 2 ^ 55 / 2 := by
    rw [BitVec.extractLsb'_toNat, Nat.shiftRight_eq_div_pow]
    omega
  rw [wellFormed, decide_eq_true_iff, hbit, ← BitVec.toNat_inj, htop]
  split <;> next h =>
    rw [decide_eq_true_iff] at h
    simp
    omega

/-- Check 2 of R97: an access not aligned to its width. -/
def Misaligned (r : Req) : Prop := r.addr.toNat % r.w ≠ 0

/-- Check 3 of R97: a global address that is not well formed. -/
def Unformed (r : Req) : Prop := r.sp = .g ∧ r.addr.toNat / 2 ^ 55 ≠ 0 ∧ r.addr.toNat / 2 ^ 55 ≠ 2 ^ 9 - 1

/-- A byte of a global write outside all write regions of its task (R31). -/
def Stray (s : State) (r : Req) (i : Nat) : Prop :=
  r.sp = .g ∧ r.wr = true ∧ s.l.replay = true ∧ hasRegions s.l = true ∧ i < r.w ∧
    ∃ t, taskOf s.l s.g.id.t = some t ∧ ¬∃ e ∈ t.writes, e.1.toNat ≤ r.addr.toNat + i ∧ r.addr.toNat + i < e.1.toNat + e.2.toNat

/-- Check 4 of R97: a scratchpad access past its allocation, or past the handler window in handler mode (R302). -/
def Beyond (s : State) (r : Req) : Prop :=
  r.sp ≠ .g ∧ (if r.sp = .b ∧ s.g.hmode = true ∧ 2 ^ 32 ≤ r.addr.toNat then 2 ^ 32 + 2048 else allocOf s.l r.sp) < r.addr.toNat + r.w

/-- Check 5 of R97: a global access that does not translate. -/
def Faults (s : State) (r : Req) : Prop :=
  r.sp = .g ∧ ∃ level range reason, xlat s s.p ⟨r.rd, r.wr, false⟩ r.addr r.w = .fault level range reason

theorem misaligned_iff (r : Req) : decide (r.addr.toNat % r.w ≠ 0) = true ↔ Misaligned r := decide_eq_true_iff

theorem unformed_iff (r : Req) : (r.sp = .g && !wellFormed r.addr) = true ↔ Unformed r := by
  have h := @wellFormed_iff r.addr
  simp only [Unformed, Bool.and_eq_true, decide_eq_true_eq, Bool.not_eq_true', Bool.eq_false_iff, ne_eq, h, not_or]

/-- A search below a bound finds the least number. -/
theorem find?_range_eq_some_iff {p : Nat → Bool} {n i : Nat} :
    (List.range n).find? p = some i ↔ (i < n ∧ p i = true) ∧ ∀ m, m < i → ¬(m < n ∧ p m = true) := by
  rw [List.find?_range_eq_some, List.mem_range]
  constructor
  · rintro ⟨hp, hi, hmin⟩
    exact ⟨⟨hi, hp⟩, fun m hm h => absurd h.2 (by simpa using hmin m hm)⟩
  · rintro ⟨⟨hi, hp⟩, hmin⟩
    exact ⟨hp, hi, fun m hm => by simpa using fun h => hmin m hm ⟨hm.trans hi, h⟩⟩

/-- The region test reports the first byte outside. -/
theorem outsideRegion_eq_some {n : Nat} : outsideRegion s.l s.g.id.t r = some n ↔ Stray s r n ∧ ∀ m, m < n → ¬Stray s r m := by
  by_cases hg : r.sp = .g ∧ r.wr = true ∧ s.l.replay = true ∧ hasRegions s.l = true
  · obtain ⟨hsp, hwr, hrep, hreg⟩ := hg
    rw [outsideRegion, if_pos (by simp [hsp, hwr, hrep, hreg])]
    cases ht : taskOf s.l s.g.id.t with
    | none => simp [Stray, ht]
    | some t =>
      refine find?_range_eq_some_iff.trans ?_
      simp [Stray, ht, hsp, hwr, hrep, hreg]
  · rw [outsideRegion, if_neg (by simpa [and_assoc] using hg)]
    exact iff_of_false (by simp) fun ⟨⟨hsp, hwr, hrep, hreg, _⟩, _⟩ => hg ⟨hsp, hwr, hrep, hreg⟩

theorem stray_iff (r : Req) : (outsideRegion s.l s.g.id.t r).isSome = true ↔ ∃ n, Stray s r n := by
  classical
  rw [Option.isSome_iff_exists]
  refine ⟨fun ⟨n, h⟩ => ⟨n, (outsideRegion_eq_some.1 h).1⟩, fun h => ⟨Nat.find h, ?_⟩⟩
  exact outsideRegion_eq_some.2 ⟨Nat.find_spec h, fun m => Nat.find_min h⟩

/-- Whether an access stays inside, by what it must stay below. -/
theorem inBounds_iff (r : Req) : inBounds s.g s.l r = true ↔ r.sp ≠ .g →
    r.addr.toNat + r.w ≤ if r.sp = .b ∧ s.g.hmode = true ∧ 2 ^ 32 ≤ r.addr.toNat then 2 ^ 32 + 2048 else allocOf s.l r.sp := by
  unfold inBounds
  cases r.sp with
  | g => simp
  | l => exact decide_eq_true_iff.trans (by simp)
  | y => exact decide_eq_true_iff.trans (by simp)
  | b =>
    have hwin : (s.g.hmode && decide (handlerBase ≤ r.addr.toNat)) = true ↔ s.g.hmode = true ∧ 2 ^ 32 ≤ r.addr.toNat := by
      rw [Bool.and_eq_true, decide_eq_true_iff]; rfl
    dsimp only
    by_cases hw : s.g.hmode = true ∧ 2 ^ 32 ≤ r.addr.toNat
    · rw [if_pos (hwin.2 hw), if_pos ⟨rfl, hw⟩, decide_eq_true_iff]
      simp [handlerBase]
    · rw [if_neg (mt hwin.1 hw), if_neg fun h => hw h.2, decide_eq_true_iff]
      simp [allocOf]

theorem beyond_iff (r : Req) : (!inBounds s.g s.l r) = true ↔ Beyond s r := by
  rw [Bool.not_eq_true', Bool.eq_false_iff, Ne, inBounds_iff, Classical.not_imp, Nat.not_le]
  rfl

theorem faults_iff (r : Req) : xrFaults (reqXlat s r) = true ↔ Faults s r := by
  unfold reqXlat Faults
  by_cases hsp : r.sp = .g
  · rw [if_pos hsp]
    cases xlat s s.p ⟨r.rd, r.wr, false⟩ r.addr r.w <;> simp [xrFaults, hsp]
  · simp [xrFaults, hsp]

/-! ### What an op with such an access does -/

section
variable {sp : Space} {w n : Nat} {wr : Bool} (hu : Uniform sp w wr rs) 
include hu

theorem Uniform.checkReqs_misaligned (h : Reported Misaligned rs r) : checkReqs s n rs = .trap (.at_ 8 r.lane r.addr) := by
  obtain ⟨a, ha, hs⟩ := hu.worst_eq misaligned_iff h
  rw [checkReqs, checkForm, ha, ← hs.lane, ← hs.addr]
  rfl

theorem Uniform.checkReqs_unformed (h2 : ∀ q ∈ rs, ¬Misaligned q) (h : Reported Unformed rs r) :
    checkReqs s n rs = .trap (.at_ 9 r.lane r.addr) := by
  obtain ⟨a, ha, hs⟩ := hu.worst_eq unformed_iff h
  rw [checkReqs, checkForm, worst_none misaligned_iff h2, ha, ← hs.lane, ← hs.addr]
  rfl

omit hu in
theorem checkReqs_formed (h : ∀ q ∈ rs, ¬Misaligned q ∧ ¬Unformed q) : checkReqs s n rs = checkReach s n rs := by
  rw [checkReqs, checkForm, worst_none misaligned_iff fun q hq => (h q hq).1, worst_none unformed_iff fun q hq => (h q hq).2]
  rfl

theorem Uniform.checkReqs_stray {i : Nat} (h2 : ∀ q ∈ rs, ¬Misaligned q ∧ ¬Unformed q) (h : Reported (fun q => ∃ i, Stray s q i) rs r)
    (hi : Stray s r i) (hmin : ∀ m, m < i → ¬Stray s r m) :
    checkReqs s n rs = .trap (.at_ 16 r.lane (r.addr + BitVec.ofNat 64 i)) := by
  obtain ⟨a, ha, hs⟩ := hu.worst_eq stray_iff h
  have hout : outsideRegion s.l s.g.id.t a = some i := by
    rw [← outsideRegion_eq_some.2 ⟨hi, hmin⟩, outsideRegion, outsideRegion, hs.sp, hs.wr, hs.w, hs.addr]
  rw [checkReqs_formed h2, checkReach, ha, ← hs.lane, ← hs.addr]
  dsimp only
  rw [hout]
  rfl

theorem Uniform.checkReqs_beyond (h2 : ∀ q ∈ rs, ¬Misaligned q ∧ ¬Unformed q) (h3 : ∀ q ∈ rs, ¬∃ i, Stray s q i)
    (h : Reported (Beyond s) rs r) : checkReqs s n rs = .trap (.at_ 10 r.lane r.addr) := by
  obtain ⟨a, ha, hs⟩ := hu.worst_eq beyond_iff h
  rw [checkReqs_formed h2, checkReach, worst_none stray_iff h3, ha, ← hs.lane, ← hs.addr]

theorem Uniform.checkReqs_faults {level reason : Nat} {range : Option Nat} (h2 : ∀ q ∈ rs, ¬Misaligned q ∧ ¬Unformed q)
    (h3 : ∀ q ∈ rs, ¬∃ i, Stray s q i) (h4 : ∀ q ∈ rs, ¬Beyond s q) (h : Reported (Faults s) rs r)
    (hx : xlat s s.p ⟨r.rd, r.wr, false⟩ r.addr r.w = .fault level range reason) :
    checkReqs s n rs = .park (parkOf n (if r.wr then 1 else 0) r.addr level range reason) := by
  obtain ⟨a, ha, hs⟩ := hu.worst_eq faults_iff h
  have hsp : a.sp = .g := hs.sp.trans h.fails.1
  have hrx : reqXlat s a = .fault level range reason := by rw [reqXlat, if_pos hsp, hs.rd, hs.wr, hs.addr, hs.w, hx]
  obtain ⟨-, -, -, hwr, hrd⟩ := hu r h.mem
  have hk : kindCode a = if r.wr then 1 else 0 := by
    rw [kindCode, hs.rd, hs.wr, hrd, hwr]
    cases wr <;> rfl
  rw [checkReqs_formed h2, checkReach, worst_none stray_iff h3, worst_none beyond_iff h4, ha, ← hs.addr]
  dsimp only
  rw [hrx, hk, faultPark]

end

end Sys2Proof.Machine
end

