-- ==== Sys2Proof/Proofs/MemoryIssue.lean ====
section
/-!
SUPPORT. The issue of the loads and stores of registers (O21).
-/
namespace Sys2Proof.Machine

variable {s : State} {f : OpF}

/-! ### Their accesses -/

theorem memReqs_uniform (g : Group) (wr : Bool) (data : Nat → BitVec 128) (exp : Nat → W64) :
    Uniform (spaceOf (memQ f)) (widthBytes (memW f)) wr (memReqs g f (!wr) wr data exp) := by
  intro q hq
  obtain ⟨i, -, rfl⟩ := List.mem_map.1 hq
  exact ⟨rfl, rfl, rfl, rfl, rfl⟩

theorem scalarReq_uniform (g : Group) (wr : Bool) (data : BitVec 128) :
    Uniform (spaceOf (f.dst.toNat / 64)) (widthBytes (scalarW f)) wr [scalarReq g f (!wr) wr data] := by
  intro q hq
  rw [List.mem_singleton.1 hq]
  exact ⟨rfl, rfl, rfl, rfl, rfl⟩

theorem accReqs_uniform (g : Group) (wr : Bool) : Uniform (spaceOf (f.dst.toNat / 64)) 8 wr (accReqs g f wr) := by
  intro q hq
  obtain ⟨i, -, hq⟩ := List.mem_flatMap.1 hq
  obtain ⟨j, -, rfl⟩ := List.mem_map.1 hq
  exact ⟨rfl, rfl, rfl, rfl, rfl⟩

/-! ### Past legality and room -/

/-- An op whose accesses are checked and go on to what follows. -/
def ChecksFirst (i : Instr) (rs : List Req) (k : List Acc → Res State) (s : State) : Prop := exec i s = finish s ((checkReqs s 0 rs).bind k)

theorem ChecksFirst.passed {i : Instr} {rs : List Req} {k : List Acc → Res State} {accs : List Acc} (h : ChecksFirst i rs k s)
    (hacc : checkReqs s 0 rs = .ok accs) : exec i s = finish s (k accs) := by
  rw [h, hacc]
  rfl

theorem issueMem_room {o : LaneOp} {rs : List Req} (h : ctrCount s.g o.ctr < 63) :
    issueMem o rs s = (checkReqs s 0 rs).bind fun accs => issueWith { o with accs := accs.flatMap halves } s := by
  rw [issueMem, needRoom_ok h]
  rfl

/-- The op that a VLD queues. -/
def vldOp (f : OpF) : LaneOp := laneOp .ld (.load (memSgn f)) (widthBytes (memW f)) [] (.vec f.dst.toNat (spanW (memW f)))
/-- The op that a VST queues. -/
def vstOp (f : OpF) : LaneOp := laneOp .st .store (widthBytes (memW f)) [] .none
/-- The op that an SLD queues. -/
def sldOp (f : OpF) : LaneOp := laneOp .ld (.load (scalarSgn f)) (widthBytes (scalarW f)) [] (.scl (f.dst.toNat % 64))
/-- The op that an SST queues. -/
def sstOp (f : OpF) : LaneOp := laneOp .st .store (widthBytes (scalarW f)) [] .none
/-- The op that an ASAVE queues. -/
def asaveOp : LaneOp := laneOp .acc .store 8 [] .none
/-- The op that an ALOAD queues. -/
def aloadOp (f : OpF) : LaneOp := laneOp .acc (.load false) 8 [] (.acc (f.dst.toNat % 64))

/-- What a load or store of the lane path does past its checks: its op joins the queue, a .b128 access as two. -/
def queueHalves (o : LaneOp) (s : State) (accs : List Acc) : Res State := issueWith { o with accs := accs.flatMap halves } s
/-- The same for an op of containers. -/
def queueWhole (o : LaneOp) (s : State) (accs : List Acc) : Res State := issueWith { o with accs := accs } s

theorem exec_vld (hi : issues .vld f s = true) (hok : plainOk true f = true) (hroom : ctrCount s.g .ld < 63) :
    ChecksFirst (.vld f) (memReqs s.g f true false noData noExp) (queueHalves (vldOp f) s) s := by
  refine (runWith_issues hi).trans (congrArg (finish s) ?_)
  rw [vldBody, hok]
  exact issueMem_room hroom

theorem exec_vst (hi : issues .vst f s = true) (hok : plainOk false f = true) (hroom : ctrCount s.g .st < 63) :
    ChecksFirst (.vst f) (memReqs s.g f false true (vstData s.g f) noExp) (queueHalves (vstOp f) s) s := by
  refine (runWith_issues hi).trans (congrArg (finish s) ?_)
  rw [vstBody, hok]
  exact issueMem_room hroom

theorem exec_sld (hi : issues .sld f s = true) (hok : scalarOk true f = true) (hroom : ctrCount s.g .ld < 63) :
    ChecksFirst (.sld f) [scalarReq s.g f true false 0] (queueHalves (sldOp f) s) s := by
  refine (runWith_issues hi).trans (congrArg (finish s) ?_)
  rw [sldBody, hok]
  exact issueMem_room hroom

/-- The bytes that an SST stores. -/
def sstDatum (g : Group) (f : OpF) : BitVec 128 := ((getS g (f.dst.toNat % 64)).setWidth (8 * widthBytes (scalarW f))).setWidth 128

theorem exec_sst (hi : issues .sst f s = true) (hok : scalarOk false f = true) (hroom : ctrCount s.g .st < 63) :
    ChecksFirst (.sst f) [scalarReq s.g f false true (sstDatum s.g f)] (queueHalves (sstOp f) s) s := by
  refine (runWith_issues hi).trans (congrArg (finish s) ?_)
  rw [sstBody, hok]
  exact issueMem_room hroom

theorem exec_asave (hi : issues .asave f s = true) : ChecksFirst (.asave f) (accReqs s.g f true) (queueWhole asaveOp s) s := runS_issues hi

theorem exec_aload (hi : issues .aload f s = true) : ChecksFirst (.aload f) (accReqs s.g f false) (queueWhole (aloadOp f) s) s :=
  runS_issues hi

/-! ### The checks -/

/-- Where a check of R97 fails for any access, the op stops at the first check that does. -/
structure Stops (i : Instr) (rs : List Req) (s : State) : Prop where
  misaligned : ∀ r, Reported Misaligned rs r → exec i s = .next (trapAt (.at_ 8 r.lane r.addr) s)
  unformed : ∀ r, (∀ q ∈ rs, ¬Misaligned q) → Reported Unformed rs r → exec i s = .next (trapAt (.at_ 9 r.lane r.addr) s)
  stray : ∀ r n, (∀ q ∈ rs, ¬Misaligned q ∧ ¬Unformed q) → Reported (fun q => ∃ n, Stray s q n) rs r → Stray s r n →
    (∀ m, m < n → ¬Stray s r m) → exec i s = .next (trapAt (.at_ 16 r.lane (r.addr + BitVec.ofNat 64 n)) s)
  beyond : ∀ r, (∀ q ∈ rs, ¬Misaligned q ∧ ¬Unformed q) → (∀ q ∈ rs, ¬∃ n, Stray s q n) → Reported (Beyond s) rs r →
    exec i s = .next (trapAt (.at_ 10 r.lane r.addr) s)
  faults : ∀ r level range reason, (∀ q ∈ rs, ¬Misaligned q ∧ ¬Unformed q) → (∀ q ∈ rs, ¬∃ n, Stray s q n) → (∀ q ∈ rs, ¬Beyond s q) →
    Reported (Faults s) rs r → xlat s s.p ⟨r.rd, r.wr, false⟩ r.addr r.w = .fault level range reason →
    exec i s = .next (parkAt (parkOf 0 (if r.wr then 1 else 0) r.addr level range reason) s)

theorem Uniform.stops {sp : Space} {w : Nat} {wr : Bool} {i : Instr} {rs : List Req} {k : List Acc → Res State}
    (hu : Uniform sp w wr rs) (hk : ChecksFirst i rs k s) : Stops i rs s where
  misaligned r h := by rw [hk, hu.checkReqs_misaligned h]; rfl
  unformed r h2 h := by rw [hk, hu.checkReqs_unformed h2 h]; rfl
  stray r n h2 h hn hmin := by rw [hk, hu.checkReqs_stray h2 h hn hmin]; rfl
  beyond r h2 h3 h := by rw [hk, hu.checkReqs_beyond h2 h3 h]; rfl
  faults r level range reason h2 h3 h4 h hx := by rw [hk, hu.checkReqs_faults h2 h3 h4 h hx]; rfl

/-! ### The queue -/

/-- A load joins the queue. -/
theorem finish_issueWith_load {o : LaneOp} (h : o.kind.writes = false) : finish s (issueWith o s) = goesOn s (enqueue o s.g) := by
  rw [issueWith, if_pos (by simp [h]), finish_issueLane]

/-- How a store joins the queue: without new lines of the spill pool at once, and with them performed as it issues, held until it can be, or
parked on the fault of the reservation (R317). -/
structure StoreIssued (o : LaneOp) (s : State) (r : Out) : Prop where
  plain : poolNeed s o.accs 0 = 0 → r = goesOn s (enqueue o s.g)
  performed : poolNeed s o.accs 0 ≠ 0 → reserve s 0 o.accs 0 = .ok () →
    undone s.g.id s.g.seqn (performTo s.g.id s.g.seqn { s with g := enqueue o s.g }) = false →
    r = goesOnWith (performTo s.g.id s.g.seqn { s with g := enqueue o s.g })
  held : poolNeed s o.accs 0 ≠ 0 → reserve s 0 o.accs 0 = .ok () →
    undone s.g.id s.g.seqn (performTo s.g.id s.g.seqn { s with g := enqueue o s.g }) = true → r = .next (holdAt s)
  parked : ∀ p, reserve s 0 o.accs 0 = .park p → r = .next (parkAt p s)

/-- Where nothing is needed of the pool, the reservation succeeds. -/
theorem reserve_zero {path recs : Nat} {ws : List Acc} (h : poolNeed s ws recs = 0) : reserve s path ws recs = .ok () := if_pos h

/-- Past its reservation, a store is performed as it issues. -/
theorem issueWith_reserves {o : LaneOp} (h : o.kind.writes = true) (hneed : poolNeed s o.accs 0 ≠ 0) :
    issueWith o s = (reserve s 0 o.accs 0).bind fun _ =>
      if undone s.g.id s.g.seqn (performTo s.g.id s.g.seqn { s with g := enqueue o s.g }) then .hold
      else .ok (performTo s.g.id s.g.seqn { s with g := enqueue o s.g }) := by
  rw [issueWith, if_neg (by simp [h, hneed])]
  rfl

theorem storeIssued {o : LaneOp} (h : o.kind.writes = true) : StoreIssued o s (finish s (issueWith o s)) where
  plain hneed := by rw [issueWith, if_pos (by simp [hneed]), finish_issueLane]
  performed hneed hres hdone := by
    rw [issueWith_reserves h hneed, hres, Res.bind, if_neg (by simp [hdone]), finish_ok]
  held hneed hres hdone := by rw [issueWith_reserves h hneed, hres, Res.bind, if_pos hdone, finish_hold]
  parked p hp := by
    have hneed : poolNeed s o.accs 0 ≠ 0 := fun h0 => by simp [reserve_zero h0] at hp
    rw [issueWith_reserves h hneed, hp, Res.bind, finish_park]

/-- Settles O21: an op past its legality and room is its checks and then the queue, for each of the six; a check reports the access that
comes first, and the queue takes a load at once and a store with what its reservation allows. -/
theorem memoryIssue : Obligations.MemoryIssue := by
  unfold Obligations.MemoryIssue
  intro f s accs wide span low high apart load stores roomLd roomSt d w vstDatum datum forms first odd unformed stray window beyond faults
  have hstored {c : Ctr} {w : Nat} {as : List Acc} {k : Res State} (hk : k = issueWith { laneOp c .store w [] .none with accs := as } s) :
      stores c as w (finish s k) := by
    obtain ⟨hplain, hperformed, hheld, hparked⟩ := storeIssued (s := s) (o := { laneOp c .store w [] .none with accs := as }) rfl
    rw [hk]
    exact ⟨hplain, hperformed, hheld, hparked⟩
  refine ⟨?checks, ?vld, ?vst, ?sld, ?sst, ?asave, ?aload⟩
  case checks =>
    intro o i ok rs r hform hi hok
    have hstops : Stops i rs s := by
      simp only [forms, List.mem_cons, List.not_mem_nil, or_false, Prod.mk.injEq] at hform
      rcases hform with ⟨rfl, rfl, rfl, rfl⟩ | ⟨rfl, rfl, rfl, rfl⟩ | ⟨rfl, rfl, rfl, rfl⟩ | ⟨rfl, rfl, rfl, rfl⟩ |
        ⟨rfl, rfl, -, rfl⟩ | ⟨rfl, rfl, -, rfl⟩
      · obtain ⟨hword, hroom⟩ := Bool.and_eq_true_iff.1 hok
        exact (memReqs_uniform s.g false _ _).stops (exec_vld hi hword (of_decide_eq_true hroom))
      · obtain ⟨hword, hroom⟩ := Bool.and_eq_true_iff.1 hok
        exact (memReqs_uniform s.g true _ _).stops (exec_vst hi hword (of_decide_eq_true hroom))
      · obtain ⟨hword, hroom⟩ := Bool.and_eq_true_iff.1 hok
        exact (scalarReq_uniform s.g false _).stops (exec_sld hi hword (of_decide_eq_true hroom))
      · obtain ⟨hword, hroom⟩ := Bool.and_eq_true_iff.1 hok
        exact (scalarReq_uniform s.g true _).stops (exec_sst hi hword (of_decide_eq_true hroom))
      · exact (accReqs_uniform s.g true).stops (exec_asave hi)
      · exact (accReqs_uniform s.g false).stops (exec_aload hi)
    refine ⟨fun ⟨hr, hbad, hmin⟩ => hstops.misaligned r ⟨hr, hbad, hmin⟩, fun h2 ⟨hr, hbad, hmin⟩ => hstops.unformed r h2 ⟨hr, hbad, hmin⟩,
      fun n h2 ⟨hr, hbad, hmin⟩ => hstops.stray r n h2 ⟨hr, hbad, hmin⟩, fun h2 h3 ⟨hr, hbad, hmin⟩ => hstops.beyond r h2 h3 ⟨hr, hbad, hmin⟩,
      fun level range reason h2 h3 h4 ⟨hr, hbad, hmin⟩ => hstops.faults r level range reason h2 h3 h4 ⟨hr, hbad, hmin⟩⟩
  case vld =>
    intro hi hok hroom hacc
    exact ((exec_vld hi hok hroom).passed hacc).trans (finish_issueWith_load (o := { vldOp f with accs := apart }) rfl)
  case vst =>
    intro hi hok hroom hacc
    rw [(exec_vst hi hok hroom).passed hacc]
    exact hstored rfl
  case sld =>
    intro hi hok hroom hacc
    exact ((exec_sld hi hok hroom).passed hacc).trans (finish_issueWith_load (o := { sldOp f with accs := apart }) rfl)
  case sst =>
    intro hi hok hroom hacc
    rw [(exec_sst hi hok hroom).passed hacc]
    exact hstored rfl
  case asave =>
    intro hi hacc
    rw [(exec_asave hi).passed hacc]
    exact hstored rfl
  case aload =>
    intro hi hacc
    exact ((exec_aload hi).passed hacc).trans (finish_issueWith_load (o := { aloadOp f with accs := accs }) rfl)

end Sys2Proof.Machine
end

