-- ==== Sys2Proof/Proofs/ByteWrites.lean ====
section
/-!
SUPPORT. Bytes written by a group: what they leave as it was, and what beside memory they do not see.
-/
namespace Sys2Proof.Machine

variable {s u : State} {k : Gid} {p : Path} {a : Loc} {va : W64} {b : Byte}

/-! ### What stands beside memory -/

/-- What the ops of a group change beside memory, its team and its registers: the queues of its copies and engines, the records and releases,
and the free-value counter. -/
structure Aside where
  copies : List CopyOp → List CopyOp
  bobs : List BobCmd → List BobCmd
  imgs : List ImgOp → List ImgOp
  recs : List WriteRec
  rels : List RelTag
  tick : Nat

/-- A state with these changed. -/
def Aside.on (x : Aside) (s : State) : State :=
  { s with g := { s.g with copies := x.copies s.g.copies, bobs := x.bobs s.g.bobs, imgs := x.imgs s.g.imgs },
           recs := x.recs, rels := x.rels, tick := x.tick }

/-- What stands beside memory in a state, as it is. -/
def Aside.of (s : State) : Aside := ⟨id, id, id, s.recs, s.rels, s.tick⟩

variable {x : Aside}

theorem updHarea_on {f : Mem → Mem} : updGroup k (fun g => { g with harea := f g.harea }) (x.on s) =
    x.on (updGroup k (fun g => { g with harea := f g.harea }) s) := by
  unfold updGroup
  rw [apply_ite x.on]
  rfl

theorem updTeam_on {t : Tid} {f : Team → Team} : updTeam t f (x.on s) = x.on (updTeam t f s) := by
  unfold updTeam
  rw [apply_ite x.on]
  rfl

theorem updLaunch_on {l : Lid} {f : Launch → Launch} : updLaunch l f (x.on s) = x.on (updLaunch l f s) := by
  unfold updLaunch
  rw [apply_ite x.on]
  rfl

theorem updHome_on {h : Home} {f : Mem → Mem} : updHome h f (x.on s) = x.on (updHome h f s) := by
  cases h with
  | phys => rfl
  | bench t => exact updTeam_on
  | handler k => exact updHarea_on
  | loft l c => exact updLaunch_on
  | yard l d => exact updLaunch_on
  | taskLoft t => exact updTeam_on
  | taskYard t => exact updTeam_on

theorem writeByte_on : writeByte k p a va b (x.on s) = x.on (writeByte k p a va b s) := by
  unfold writeByte
  rw [apply_ite x.on, ← updLaunch_on, ← updHome_on]
  rfl

theorem harea_on (k : Gid) : (group? (x.on s) k).elim [] Group.harea = (group? s k).elim [] Group.harea := by
  rw [group?_eq, group?_eq]
  change (if (s.g.live && decide (s.g.id = k)) = true then some (x.on s).g else _).elim [] Group.harea = _
  split <;> rfl

theorem homeMem_on (h : Home) : homeMem (x.on s) h = homeMem s h := by
  cases h with
  | handler k => exact harea_on k
  | _ => rfl

theorem viewByte_on (k : Gid) (a : Loc) : viewByte (x.on s) k a = viewByte s k a := by
  unfold viewByte
  rw [homeMem_on]
  rfl

theorem bytesAt_on (k : Gid) (as : List Loc) : bytesAt (x.on s) k as = bytesAt s k as := List.map_congr_left fun a _ => viewByte_on k a

/-! ### What a write leaves -/

/-- A group without its handler area. -/
def Group.blank (g : Group) : Group := { g with harea := [] }
/-- A team without its memories. -/
def Team.blank (t : Team) : Team := { t with bench := [], tloft := [], tyard := [] }
/-- A launch without its memories and merge buffers. -/
def Launch.blank (l : Launch) : Launch := { l with loft := [], yard := [], tasks := l.tasks.map fun t => { t with buf := [] } }

/-- A state without the bytes of any memory. -/
def State.blank (s : State) : State :=
  { s with g := s.g.blank, t := s.t.blank, l := s.l.blank, groups := s.groups.map Group.blank, teams := s.teams.map Team.blank,
           launches := s.launches.map Launch.blank, hbm := [] }

theorem map_ite_blank {α : Type} {blank f : α → α} {p : α → Bool} (h : ∀ x, blank (f x) = blank x) (xs : List α) :
    (xs.map fun x => if p x then f x else x).map blank = xs.map blank := by
  rw [List.map_map]
  refine List.map_congr_left fun x _ => ?_
  rw [Function.comp_apply, apply_ite blank, h, ite_self]

theorem blank_updGroup {f : Group → Group} (h : ∀ g, (f g).blank = g.blank) : (updGroup k f s).blank = s.blank := by
  unfold updGroup
  split
  · simp only [State.blank, h]
  · exact congrArg (fun gs => { s.blank with groups := gs }) (map_ite_blank h s.groups)

theorem blank_updTeam {t : Tid} {f : Team → Team} (h : ∀ x, (f x).blank = x.blank) : (updTeam t f s).blank = s.blank := by
  unfold updTeam
  split
  · simp only [State.blank, h]
  · exact congrArg (fun ts => { s.blank with teams := ts }) (map_ite_blank h s.teams)

theorem blank_updLaunch {l : Lid} {f : Launch → Launch} (h : ∀ x, (f x).blank = x.blank) : (updLaunch l f s).blank = s.blank := by
  unfold updLaunch
  split
  · simp only [State.blank, h]
  · exact congrArg (fun ls => { s.blank with launches := ls }) (map_ite_blank h s.launches)

theorem blank_updTask (n : Nat) (f : Task → List BufByte) (l : Launch) : (updTask n (fun t => { t with buf := f t }) l).blank = l.blank := by
  have hmap : ((l.tasks.map fun t => if t.team = n then { t with buf := f t } else t).map fun t => ({ t with buf := [] } : Task)) =
      l.tasks.map fun t => { t with buf := [] } := by
    rw [List.map_map]
    refine List.map_congr_left fun t _ => ?_
    rw [Function.comp_apply]
    split <;> rfl
  exact congrArg (fun ts => { l.blank with tasks := ts }) hmap

/-- A byte written changes nothing but bytes. -/
theorem blank_writeByte : (writeByte k p a va b s).blank = s.blank := by
  unfold writeByte
  split
  · exact blank_updLaunch (blank_updTask _ _)
  · cases a.home with
    | phys => rfl
    | bench t => exact blank_updTeam fun _ => rfl
    | handler k => exact blank_updGroup fun _ => rfl
    | loft l c => exact blank_updLaunch fun _ => rfl
    | yard l d => exact blank_updLaunch fun _ => rfl
    | taskLoft t => exact blank_updTeam fun _ => rfl
    | taskYard t => exact blank_updTeam fun _ => rfl

section Blank
variable (h : u.blank = s.blank)
include h

theorem g_of_blank : u.g.blank = s.g.blank := congrArg State.g h
theorem live_of_blank : u.g.live = s.g.live := (congrArg Group.live (g_of_blank h) :)
theorem id_of_blank : u.g.id = s.g.id := (congrArg Group.id (g_of_blank h) :)

theorem inFocus_of_blank (hf : inFocus s) : inFocus u := by
  obtain ⟨hg, ht, hti, hl, hli, hpl, hpn⟩ := hf
  have eg := id_of_blank h
  have ep : u.p = s.p := (congrArg State.p h :)
  exact ⟨(live_of_blank h).trans hg, (congrArg (·.t.live) h).trans ht, (congrArg (·.t.id) h).trans (hti.trans (by rw [eg])),
    (congrArg (·.l.live) h).trans hl, (congrArg (·.l.id) h).trans (hli.trans (by rw [eg])), by rw [ep, hpl], by rw [ep, eg, hpn]⟩

theorem dev_of_blank : u.dev = s.dev := (congrArg State.dev h :)
theorem replay_of_blank : u.l.replay = s.l.replay := congrArg (·.l.replay) h
theorem muted_of_blank : u.l.muted = s.l.muted := congrArg (·.l.muted) h

theorem allGroups_of_blank : (allGroups u).map Group.blank = (allGroups s).map Group.blank := by
  have hall : ∀ v : State, (allGroups v).map Group.blank = allGroups v.blank := by
    intro v
    have hlive : (Group.live ∘ Group.blank) = Group.live := rfl
    simp only [allGroups, State.blank, ← List.map_cons, List.filter_map, hlive]
  rw [hall, hall, h]

theorem group?_of_blank (k : Gid) : (group? u k).map Group.blank = (group? s k).map Group.blank := by
  have hfind : ∀ v : State, (group? v k).map Group.blank = ((allGroups v).map Group.blank).find? fun g => g.id = k := by
    intro v
    rw [List.find?_map]
    rfl
  rw [hfind, hfind, allGroups_of_blank h]

/-- What matters to be observed is as before, but for what is recorded. -/
theorem noted_on {op : OpId} (hs : s.recs = []) (hx : ∀ r ∈ x.recs, r.op ≠ op) : noted (x.on u) op = noted s op := by
  have hany : ∀ v : State, ((allGroups v).any fun g => g.crossed.any fun c => c.by_ = some op) =
      ((allGroups v).map Group.blank).any fun g => g.crossed.any fun c => c.by_ = some op := fun v => by rw [List.any_map]; rfl
  have hon : ((allGroups (x.on u)).any fun g => g.crossed.any fun c => c.by_ = some op) =
      (allGroups u).any fun g => g.crossed.any fun c => c.by_ = some op := by
    by_cases hg : u.g.live = true <;> simp [allGroups, Aside.on, hg]
  have hrecs : ((x.on u).recs.any fun r => r.op = op) = false := by simpa [Aside.on] using hx
  rw [noted, noted, hon, hany u, hany s, allGroups_of_blank h, hrecs, hs]
  rfl

end Blank

/-! ### Bytes in a row -/

/-- Bytes with their places, written by a group on a path one after another. -/
def putBytes (k : Gid) (p : Path) (xs : List ((Loc × W64) × Byte)) (s : State) : State :=
  xs.foldl (fun u y => writeByte k p y.1.1 y.1.2 y.2 u) s

/-- Bytes from a location on, with their places. -/
def spread (a : Loc) (va : W64) (bs : List Byte) : List ((Loc × W64) × Byte) :=
  bs.zipIdx.map fun y => ((({ a with addr := a.addr + y.2 } : Loc), va + BitVec.ofNat 64 y.2), y.1)

theorem putBytes_cons (y : (Loc × W64) × Byte) (ys : List ((Loc × W64) × Byte)) :
    putBytes k p (y :: ys) s = putBytes k p ys (writeByte k p y.1.1 y.1.2 y.2 s) := rfl

theorem putBytes_append (xs ys : List ((Loc × W64) × Byte)) : putBytes k p (xs ++ ys) s = putBytes k p ys (putBytes k p xs s) :=
  List.foldl_append

theorem putBytes_on (xs : List ((Loc × W64) × Byte)) : putBytes k p xs (x.on s) = x.on (putBytes k p xs s) := by
  induction xs generalizing s with
  | nil => rfl
  | cons y ys ih => rw [putBytes_cons, putBytes_cons, writeByte_on, ih]

theorem blank_putBytes (xs : List ((Loc × W64) × Byte)) : (putBytes k p xs s).blank = s.blank := by
  induction xs generalizing s with
  | nil => rfl
  | cons y ys ih => rw [putBytes_cons, ih, blank_writeByte]

theorem spread_cons (b : Byte) (bs : List Byte) : spread a va (b :: bs) = ((a, va), b) :: spread { a with addr := a.addr + 1 } (va + 1) bs := by
  rw [spread, List.zipIdx_cons, List.zipIdx_succ, List.map_cons, List.map_map, spread]
  refine congrArg₂ List.cons (by simp) (List.map_congr_left fun y _ => ?_)
  simp [Nat.add_comm, Nat.add_left_comm, BitVec.ofNat_add, BitVec.add_assoc, BitVec.add_comm 1#64]

theorem writeBytesFrom_eq {op : OpId} (bs : List Byte) {n : Nat} :
    writeBytesFrom op p va n { a with addr := a.addr + n } bs s =
      putBytes op.k p ((bs.zipIdx n).map fun y => ((({ a with addr := a.addr + y.2 } : Loc), va + BitVec.ofNat 64 y.2), y.1)) s := by
  induction bs generalizing n s with
  | nil => rfl
  | cons b bs ih => exact ih (n := n + 1)

theorem writeBytesFrom_zero {op : OpId} (bs : List Byte) : writeBytesFrom op p va 0 a bs s = putBytes op.k p (spread a va bs) s :=
  writeBytesFrom_eq (n := 0) bs

end Sys2Proof.Machine
end

