-- ==== Sys2Proof/Proofs/CommandEnds.lean ====
section
/-!
SUPPORT. The writes of a copy or an engine's command on its path, and the tag and the signal with which it ends.
-/
namespace Sys2Proof.Machine

variable {s u : State} {k : Gid} {op : OpId} {p : Path} {a : Loc} {va : W64} {bs : List Byte} {x y : Aside}

/-- Records of one op on one path alone. -/
def Own (op : OpId) (p : Path) (rs : List WriteRec) : Prop := ∀ r ∈ rs, r.op = op ∧ r.path = p

theorem Own.path {rs : List WriteRec} (h : Own op p rs) : ∀ r ∈ rs, r.path = p := fun r hr => (h r hr).2

/-- Bytes that an op writes after all others, with a record of what they held. -/
theorem putAt_on (rmw : Bool) (h : Own op p x.recs) : ∃ rs, Own op p rs ∧
    putAt op p rmw [] a va bs (x.on u) = ({ x with recs := rs } : Aside).on (putBytes op.k p (spread a va bs) u) := by
  obtain ⟨rs, hrs, hadd⟩ : ∃ rs, Own op p rs ∧
      addRec op p rmw ((locsFrom a bs.length).map fun l => (l, viewByte (x.on u) op.k l)) (x.on u) = ({ x with recs := rs } : Aside).on u :=
    ⟨_, addRec_own (s := x.on u) h, addRec_eq _ _ _ _ _⟩
  exact ⟨rs, hrs, by rw [putAt_nil, hadd, writeBytesFrom_zero, putBytes_on]⟩

/-- An op passes no write of its own: it writes its bytes as they come. -/
theorem writeKnown_on (know : List Crossing) (h : Own op p x.recs) : ∃ rs ts, Own op p rs ∧
    writeKnown know op p a va bs (x.on u) = ({ x with recs := rs, rels := ts } : Aside).on (putBytes op.k p (spread a va bs) u) := by
  obtain ⟨rels, hrels⟩ : ∃ ts, endRels op a bs.length (x.on u) = ({ x with rels := ts } : Aside).on u :=
    ⟨x.rels.map (endTag (replays (x.on u) op.k.t.l) op a bs.length), endRels_rels op a bs.length (x.on u)⟩
  obtain ⟨rs, hrs, hput⟩ := putAt_on (x := { x with rels := rels }) false h
  exact ⟨rs, rels, hrs, by rw [writeKnown_same h.path, hrels, hput]⟩

theorem writeAt_on (h : Own op p x.recs) : ∃ rs ts, Own op p rs ∧
    writeAt op p a va bs (x.on u) = ({ x with recs := rs, rels := ts } : Aside).on (putBytes op.k p (spread a va bs) u) :=
  writeKnown_on [] h

/-! ### Tags -/

/-- A team once an op pending on one of its tags has finished (R106). -/
def tagged (f : OpId → Bool) (op : OpId) (tag : Option Nat) (t : Team) : Team :=
  match tag with
  | none => t
  | some n => { t with tags := t.tags.modify n fun y =>
      { pending := y.pending - 1, set := y.set || decide (y.pending = 1), ops := op :: y.ops.filter f } }

theorem zipIdx_map_eq_modify {α : Type} (l : List α) (n : Nat) (f : α → α) :
    (l.zipIdx.map fun x => if x.2 = n then f x.1 else x.1) = l.modify n f := by
  refine List.ext_getElem? fun i => ?_
  rw [getElem?_zipIdx_map, List.getElem?_modify]
  by_cases h : i = n
  · simp [h]
  · simp [h, Ne.symm h]

theorem commandTag_focus (ht : u.t.live = true) (hk : op.k.t = u.t.id) (tag : Option Nat) :
    commandTag op tag u = { u with t := tagged (noted u) op tag u.t } := by
  cases tag with
  | none => rfl
  | some n =>
    rw [commandTag, hk, updTeam_focus ht, tagged, ← zipIdx_map_eq_modify]

/-! ### Signals (R107) -/

/-- Whether a command leaves its signal alone: its bundle has aborted, or it is a global one of a replay task. -/
abbrev Still (s : State) (r : SigRef) : Prop := s.l.muted = true ∨ (s.l.replay = true ∧ r.loc.home = .phys)

/-- SAT of a signal update: at once between two words, else due. -/
def clamped (u : State) : State := { u with g := if u.g.pos = .fetch then raise flagSAT u.g else { u.g with satDue := true } }

/-- A state after the signal update of a finished command. -/
def signalled (s : State) (k : Gid) (p : Path) (sig : Option SigRef) (u : State) : State :=
  match sig with
  | none => u
  | some r =>
    let new := signalNew (BitVec.ofNat 64 (leNat (bytesAt u k (locsFrom r.loc 8)))) r.delta
    let v := putBytes k p (spread r.loc r.va (leBytes 8 new.1.toNat)) u
    if Still s r then u else if new.2 then clamped v else v

theorem clamped_on : clamped (x.on u) = x.on (clamped u) := by
  unfold clamped
  by_cases hp : u.g.pos = .fetch
  · rw [if_pos hp, if_pos (show (x.on u).g.pos = .fetch from hp)]
    rfl
  · rw [if_neg hp, if_neg (show ¬(x.on u).g.pos = .fetch from hp)]
    rfl

theorem raiseSat_focus (hg : u.g.live = true) (hk : k = u.g.id) : raiseSat k u = clamped u := by
  rw [raiseSat, hk, updGroup_focus hg]
  rfl

theorem signalled_on (s : State) (k : Gid) (p : Path) (sig : Option SigRef) : signalled s k p sig (x.on u) = x.on (signalled s k p sig u) := by
  cases sig with
  | none => rfl
  | some r => simp only [signalled, bytesAt_on, putBytes_on, clamped_on, ← apply_ite x.on]

theorem signalled_congr {v : State} (hm : v.l.muted = s.l.muted) (hr : v.l.replay = s.l.replay) (sig : Option SigRef) :
    signalled v k p sig u = signalled s k p sig u := by
  cases sig with
  | none => rfl
  | some r => simp only [signalled, Still, hm, hr]

/-- The release of a signal update (R115). -/
structure SignalReleased (op : OpId) (r : SigRef) (w : RelTag) : Prop where
  bytes : w.bytes = locsFrom r.loc 8
  ended : w.ended = []
  scope : w.scope = .dev
  by_ : w.by_ = some op.k
  seen : w.seen = [op]

/-- The release that it leaves. -/
def signalTag (op : OpId) (r : SigRef) (u : State) : RelTag :=
  { bytes := locsFrom r.loc 8, ended := [], scope := .dev, by_ := some op.k, op := op, core := coreOf u op.k, know := [], seen := [op],
    at_ := u.tick }

section Command
variable (hf : inFocus u) (hk : op.k = u.g.id) (hp : u.dev.poison = []) (hc : u.dev.corrected = []) (hx : Own op p x.recs)
include hf hk hp hc hx

/-- A finished command's signal. -/
theorem commandSignal_on (sig : Option SigRef) : ∃ rs ts, Own op p rs ∧
    commandSignal op p sig (x.on u) = ({ x with recs := rs, rels := ts } : Aside).on (signalled u op.k p sig u) ∧
    ∀ r, sig = some r → ¬Still u r → ∃ w ∈ ts, SignalReleased op r w := by
  cases sig with
  | none => exact ⟨x.recs, x.rels, hx, rfl, nofun⟩
  | some r =>
    have hl : launch? (x.on u) op.k.t.l = some u.l := by rw [hk]; exact launch?_inFocus hf
    have hstill : ((launch? (x.on u) op.k.t.l).elim false fun l => l.muted || (l.replay && decide (r.loc.home = .phys))) = true ↔ Still u r := by
      rw [hl, Option.elim_some, Bool.or_eq_true, Bool.and_eq_true, decide_eq_true_iff]
    by_cases hs : Still u r
    · refine ⟨x.recs, x.rels, hx, ?_, fun _ e h => absurd (Option.some.inj e ▸ hs) h⟩
      rw [commandSignal, signalled]
      dsimp only
      rw [if_pos (hstill.2 hs), if_pos hs]
    · have hpois : poisoned (x.on u) (locsFrom r.loc 8) = false := by simp [poisoned, Aside.on, hp]
      have hecc : eccRead (locsFrom r.loc 8) (x.on u) = x.on u := if_pos (by simp [Aside.on, hc])
      have hbytes : ((locsFrom r.loc 8).map fun a => viewByte (x.on u) op.k a) = bytesAt u op.k (locsFrom r.loc 8) := bytesAt_on _ _
      rw [commandSignal, signalled]
      dsimp only
      rw [if_neg (mt hstill.1 hs), if_neg hs, hpois, hecc, rmwAt_same hx.path, hbytes]
      dsimp only
      generalize hnew : signalNew (BitVec.ofNat 64 (leNat (bytesAt u op.k (locsFrom r.loc 8)))) r.delta = new
      obtain ⟨rs, hrs, hput⟩ := putAt_on (a := r.loc) (va := r.va) (u := u) (bs := leBytes 8 new.1.toNat) true hx
      have hz := inFocus_of_blank (blank_putBytes (k := op.k) (p := p) (spread r.loc r.va (leBytes 8 new.1.toNat))) hf
      have hid := id_of_blank (blank_putBytes (k := op.k) (p := p) (s := u) (spread r.loc r.va (leBytes 8 new.1.toNat)))
      rw [hput, passedPlain_nil]
      generalize putBytes op.k p (spread r.loc r.va (leBytes 8 new.1.toNat)) u = z at hz hid
      refine ⟨rs, signalTag op r (({ x with recs := rs } : Aside).on z) :: x.rels, hrs, ?_, ?_⟩
      · rw [if_neg Bool.false_ne_true]
        by_cases hclamp : new.2 = true
        · rw [if_pos hclamp, if_pos hclamp, ← clamped_on]
          exact raiseSat_focus hz.1 (hk.trans hid.symm)
        · rw [if_neg hclamp, if_neg hclamp]
          rfl
      · rintro _ ⟨⟩ -
        exact ⟨_, List.mem_cons_self, rfl, rfl, rfl, rfl, rfl⟩

/-- A finished command's tag and its signal. -/
theorem commandEnd_on (tag : Option Nat) (sig : Option SigRef) : ∃ rs ts, Own op p rs ∧
    commandEnd op p tag sig (x.on u) = ({ x with recs := rs, rels := ts } : Aside).on
      (signalled u op.k p sig { u with t := tagged (noted (x.on u)) op tag u.t }) ∧
    ∀ r, sig = some r → ¬Still u r → ∃ w ∈ ts, SignalReleased op r w := by
  have hbad : signalBad op.k sig (x.on u) = false := by
    cases sig <;> simp [signalBad, poisoned, Aside.on, hp]
  have htag : commandTag op tag (x.on u) = x.on { u with t := tagged (noted (x.on u)) op tag u.t } :=
    commandTag_focus (u := x.on u) hf.2.1 (by rw [hk]; exact hf.2.2.1.symm) tag
  have hfocus : inFocus { u with t := tagged (noted (x.on u)) op tag u.t } := by
    obtain ⟨hg, ht, hti, hrest⟩ := hf
    cases tag <;> exact ⟨hg, ht, hti, hrest⟩
  obtain ⟨rs, ts, hrs, he, hrel⟩ := commandSignal_on (u := { u with t := tagged (noted (x.on u)) op tag u.t }) hfocus hk hp hc hx sig
  exact ⟨rs, ts, hrs, by rw [commandEnd, hbad, htag]; exact he, hrel⟩

end Command

/-- A signal update leaves its group alive and its name. -/
theorem signalled_live_id (s : State) (k : Gid) (p : Path) (sig : Option SigRef) (u : State) :
    (signalled s k p sig u).g.live = u.g.live ∧ (signalled s k p sig u).g.id = u.g.id := by
  have hclamped : ∀ v : State, (clamped v).g.live = v.g.live ∧ (clamped v).g.id = v.g.id := by
    intro v
    unfold clamped
    split <;> exact ⟨rfl, rfl⟩
  cases sig with
  | none => exact ⟨rfl, rfl⟩
  | some r =>
    rw [signalled]
    generalize spread r.loc r.va _ = xs
    have hput : (putBytes k p xs u).g.live = u.g.live ∧ (putBytes k p xs u).g.id = u.g.id :=
      ⟨live_of_blank (blank_putBytes xs), id_of_blank (blank_putBytes xs)⟩
    split
    · exact ⟨rfl, rfl⟩
    · split
      · exact ⟨(hclamped _).1.trans hput.1, (hclamped _).2.trans hput.2⟩
      · exact hput

/-- How an op of the group in focus of s ends on a path from a state u: its tag, then its signal; beside them only records, releases, the
free-value counter, and what waits for it. -/
def Ends (s : State) (r : Out) (p : Path) (tag : Option Nat) (q : Nat) (sig : Option SigRef) (u : State) : Prop :=
  ∃ rs ts n f, r = .next (wake s.g.id.t { signalled s s.g.id p sig { u with t := tagged f ⟨s.g.id, q⟩ tag u.t } with
      recs := rs, rels := ts, tick := n }) ∧
    (∀ op, op ≠ ⟨s.g.id, q⟩ → f op = noted s op) ∧
    ∀ r, sig = some r → ¬Still s r → ∃ w ∈ ts, SignalReleased ⟨s.g.id, q⟩ r w

/-- A state in which an op of the group in focus of s may end: that group and its team and launch in focus, and no memory error. -/
structure Ending (s u : State) : Prop where
  focus : inFocus u
  id : u.g.id = s.g.id
  dev : u.dev = s.dev
  muted : u.l.muted = s.l.muted
  replay : u.l.replay = s.l.replay

theorem Ending.of_blank (hf : inFocus s) (h : u.blank = s.blank) : Ending s u :=
  ⟨inFocus_of_blank h hf, id_of_blank h, dev_of_blank h, muted_of_blank h, replay_of_blank h⟩

/-- A finished command ends, whatever its queue is left as. -/
theorem Ending.commandEnd (h : Ending s u) (hc : calm s) {q : Nat} (hx : Own ⟨s.g.id, q⟩ p x.recs)
    (hn : ∀ op, op ≠ ⟨s.g.id, q⟩ → noted (x.on u) op = noted s op) (tag : Option Nat) (sig : Option SigRef) :
    ∃ rs ts v, commandEnd ⟨s.g.id, q⟩ p tag sig (x.on u) = ({ x with recs := rs, rels := ts } : Aside).on v ∧
      v.g.live = true ∧ v.g.id = s.g.id ∧
      ∀ y : Aside, Ends s (.next (wake s.g.id.t (({ y with recs := rs, rels := ts, tick := x.tick } : Aside).on v))) p tag q sig (y.on u) := by
  obtain ⟨hf, hid, hdev, hm, hr⟩ := h
  obtain ⟨rs, ts, -, he, hrel⟩ := commandEnd_on (op := ⟨s.g.id, q⟩) hf hid.symm (hdev ▸ hc.2.1) (hdev ▸ hc.2.2) hx tag sig
  have hlive := signalled_live_id u s.g.id p sig { u with t := tagged (noted (x.on u)) ⟨s.g.id, q⟩ tag u.t }
  refine ⟨rs, ts, _, he, hlive.1.trans hf.1, hlive.2.trans hid, fun y => ⟨rs, ts, x.tick, noted (x.on u), ?_, hn, fun r hsig hstill => ?_⟩⟩
  · rw [signalled_congr hm hr]
    exact congrArg (fun v : State => Host.Outcome.next (wake s.g.id.t { v with recs := rs, rels := ts, tick := x.tick }))
      (signalled_on (x := y) s s.g.id p sig).symm
  · exact hrel r hsig (by rwa [Still, hm, hr])

end Sys2Proof.Machine
end

