-- ==== Sys2Proof/Proofs/CopyEnds.lean ====
section
/-!
SUPPORT. The progress and the end of a copy alone in its group's queue.
-/
namespace Sys2Proof.Machine

variable {s u : State} {x : Aside} {c : CopyOp}

/-! ### Nothing stands in the way -/

/-- A group in focus, in memory without errors and writes recorded, with no read that what follows has to wait for. -/
structure Free (s : State) : Prop where
  focus : inFocus s
  calm : calm s
  lane : ∀ p ∈ s.g.lane, p.leads s.g = false

/-- Nothing has to be performed first. -/
theorem Free.afterAcquires (h : Free s) (seq : Nat) (next : State → State) : afterAcquires s.g.id seq next s = next s := by
  have hnone : (s.g.lane.filter fun p => p.seq < seq && p.leads s.g) = [] :=
    List.filter_eq_nil_iff.2 fun p hp => by simp [h.lane p hp]
  simp [Machine.afterAcquires, performAcquires, group?_focus h.focus.1, hnone]

theorem Free.poisoned (h : Free s) (as : List Loc) : poisoned s as = false := by simp [Machine.poisoned, h.calm.2.1]

theorem Free.eccRead (h : Free s) (as : List Loc) : eccRead as s = s := if_pos (by simp [h.calm.2.2])

/-! ### What has been read -/

/-- The bytes of some accesses: those read earlier as they were found, the others as the group sees them. -/
def seenImage (s : State) (as : List Acc) (got : List (Nat × Byte)) : List Byte :=
  (accLocs as).zipIdx.map fun x => ((got.find? fun e => e.1 = x.2).map Prod.snd).getD (viewByte s s.g.id x.1)

theorem seenImage_nil (s : State) (as : List Acc) : seenImage s as [] = bytesAt s s.g.id (accLocs as) := by
  have hfst : ((accLocs as).zipIdx.map Prod.fst).map (viewByte s s.g.id) = bytesAt s s.g.id (accLocs as) := by rw [List.zipIdx_map_fst]; rfl
  rw [← hfst, List.map_map]
  rfl

/-- What is left to be read, joined with its numbers to what has been. -/
def readBy (s : State) (as : List Acc) (got : List (Nat × Byte)) : List (Nat × Byte) :=
  ((restOf as got).map Prod.fst).zip (bytesAt s s.g.id ((restOf as got).map Prod.snd)) ++ got

theorem readBy_eq (s : State) (as : List Acc) (got : List (Nat × Byte)) :
    readBy s as got = (restOf as got).map (fun e => (e.1, viewByte s s.g.id e.2)) ++ got := by
  rw [readBy, bytesAt, List.map_map, List.zip_map']
  rfl

/-- A list's entries with their numbers hold each number once. -/
theorem find?_numbered {α : Type} (l : List α) {i : Nat} (h : i < l.length) :
    ((l.zipIdx.map fun x => (x.2, x.1)).find? fun e => e.1 = i) = some (i, l[i]) := by
  rw [List.find?_map, Option.map_eq_some_iff]
  refine ⟨(l[i], i), ?_, rfl⟩
  rw [List.find?_eq_some_iff_getElem]
  refine ⟨by simp, i, by simpa using h, by simp, fun j hj => ?_⟩
  simp [Nat.ne_of_lt hj]

/-- What is left to be read is what has not been. -/
theorem find?_restOf (as : List Acc) {got : List (Nat × Byte)} (hgot : got.isEmpty = false) {i : Nat} (h : i < (accLocs as).length) :
    ((restOf as got).find? fun e => e.1 = i) = if got.any (fun y => y.1 = i) then none else some (i, (accLocs as)[i]) := by
  rw [restOf, hgot, if_neg Bool.false_ne_true, List.find?_filter]
  split
  · next hany =>
    refine List.find?_eq_none.2 fun e _ he => ?_
    obtain ⟨hnot, hi⟩ := of_decide_eq_true he
    rw [of_decide_eq_true hi, hany] at hnot
    cases hnot
  · next hany =>
    rw [← find?_numbered (accLocs as) h]
    congr 1
    funext e
    refine decide_eq_decide.2 ⟨fun he => of_decide_eq_true he.2, fun he => ⟨?_, decide_eq_true he⟩⟩
    rw [he, Bool.not_eq_true']
    exact Bool.eq_false_iff.2 hany

/-- A byte read earlier is as it was found, another as the group sees it. -/
theorem find?_readBy (s : State) (as : List Acc) {got : List (Nat × Byte)} (hgot : got.isEmpty = false) {i : Nat} (h : i < (accLocs as).length) :
    ((readBy s as got).find? fun e => e.1 = i).map Prod.snd =
      some (((got.find? fun e => e.1 = i).map Prod.snd).getD (viewByte s s.g.id (accLocs as)[i])) := by
  have hcomp : (fun e : Nat × Byte => decide (e.1 = i)) ∘ (fun e : Nat × Loc => (e.1, viewByte s s.g.id e.2)) = fun e => decide (e.1 = i) := rfl
  rw [readBy_eq, List.find?_append, List.find?_map, hcomp, find?_restOf as hgot h]
  split
  · next hany =>
    obtain ⟨e, hfound⟩ := Option.isSome_iff_exists.1 (List.find?_isSome.2 (List.any_eq_true.1 hany))
    rw [hfound]
    rfl
  · next hany =>
    have hnone : (got.find? fun e => e.1 = i) = none := List.find?_eq_none.2 fun e he hei => hany (List.any_eq_true.2 ⟨e, he, hei⟩)
    rw [hnone]
    rfl

/-- Once the rest is read, the image is whole. -/
theorem readImage_readBy (s : State) (as : List Acc) (got : List (Nat × Byte)) :
    readImage (accLocs as).length got.isEmpty (readBy s as got) = seenImage s as got := by
  cases hgot : got.isEmpty with
  | true =>
    have hzip : (accLocs as).zipIdx.map (fun x => viewByte s s.g.id x.1) = (accLocs as).map (viewByte s s.g.id) := by
      conv_rhs => rw [← List.zipIdx_map_fst 0 (accLocs as), List.map_map]
      rfl
    rw [List.isEmpty_iff.1 hgot, seenImage_nil, readBy_eq, readImage, if_pos rfl, restOf, List.append_nil, bytesAt, ← hzip]
    simp only [List.isEmpty_nil, if_true, List.map_map]
    rfl
  | false =>
    rw [readImage, if_neg Bool.false_ne_true, wholeImage, seenImage]
    refine List.ext_getElem (by simp) fun i hi _ => ?_
    simp only [List.length_map, List.length_range] at hi
    simp only [List.getElem_map, List.getElem_range, find?_readBy s as hgot hi, Option.getD_some, List.getElem_zipIdx]
    simp

/-! ### A copy's bytes -/

/-- A group in focus whose only copy has written nothing. -/
structure Copies (s : State) (c : CopyOp) : Prop where
  free : Free s
  sole : s.g.copies = [c]
  done : c.done = false
  buf : c.buf = none
  written : c.written = 0

/-- The source bytes of a copy. -/
def copyVals (s : State) (c : CopyOp) : List Byte := seenImage s (c.pairs.map Prod.fst) c.got

/-- A copy that has read its source. -/
def copyHeld (s : State) (c : CopyOp) : CopyOp := { c with got := [], buf := some (copyVals s c) }

/-- A state with its only copy replaced. -/
def withCopy (c : CopyOp) (x : Aside) : Aside := { x with copies := fun _ => [c] }

theorem find_copy (hg : u.g.live = true) : ((group? ((withCopy c x).on u) u.g.id).bind fun g => g.copies.find? fun o => o.seq = c.seq) = some c := by
  have hgroup : group? ((withCopy c x).on u) u.g.id = some ((withCopy c x).on u).g := group?_focus (s := (withCopy c x).on u) hg
  rw [hgroup]
  simp [Aside.on, withCopy]

theorem updCopy_on (hg : u.g.live = true) (f : CopyOp → CopyOp) :
    updCopy u.g.id c.seq f ((withCopy c x).on u) = (withCopy (f c) x).on u := by
  refine (updGroup_focus (s := (withCopy c x).on u) hg).trans ?_
  simp [Aside.on, withCopy]

theorem Copies.self (h : Copies s c) : (withCopy c (Aside.of s)).on s = s := by
  have hq : { s.g with copies := [c] } = s.g := by rw [← h.sole]
  exact congrArg (fun g => { s with g := g }) hq

/-- A copy reads its source. -/
theorem Copies.read (h : Copies s c) : copyRead s.g.id c none s = (withCopy (copyHeld s c) (Aside.of s)).on s := by
  have hunread : copyUnread c = restOf (c.pairs.map Prod.fst) c.got := by rw [copyUnread, h.buf]; rfl
  have hall : ((restOf (c.pairs.map Prod.fst) c.got).filter fun e => Option.all (fun is : List Nat => is.contains e.1) none) =
      restOf (c.pairs.map Prod.fst) c.got := List.filter_eq_self.2 fun _ _ => rfl
  rw [copyRead, h.buf, if_neg (by simp), h.free.afterAcquires, hunread, hall]
  simp only [h.free.poisoned, h.free.eccRead, readBytes_calm h.free.calm.1]
  have hupd : ∀ f, updCopy s.g.id c.seq f s = (withCopy (f c) (Aside.of s)).on s := by
    intro f
    conv_lhs => rw [← h.self]
    exact updCopy_on h.free.focus.1 f
  rw [if_neg Bool.false_ne_true]
  refine (hupd _).trans (congrArg (fun o => (withCopy o (Aside.of s)).on s) ?_)
  rw [copyHeld, copyVals, ← readImage_readBy]
  rfl

/-- What a copy writes of some bytes: all of them in order, or of a tile all but some that it also reads (R104). -/
structure Written (tile : Bool) (src : List Loc) (xs ys : List ((Loc × W64) × Byte)) : Prop where
  all : tile = false → ys = xs
  sublist : ys.Sublist xs
  unread : ∀ y ∈ xs, y.1.1 ∉ src → y ∈ ys

theorem copyWrite_on {op : OpId} {tile : Bool} {src : List Loc} (xs : List ((Loc × W64) × Byte)) (hx : Own op .copy x.recs) :
    ∃ ys rs ts n, Written tile src xs ys ∧ Own op .copy rs ∧
      copyWrite op tile src xs (x.on u) = ({ x with recs := rs, rels := ts, tick := n } : Aside).on (putBytes op.k .copy ys u) := by
  induction xs generalizing x u with
  | nil => exact ⟨[], x.recs, x.rels, x.tick, ⟨fun _ => rfl, .slnil, by simp⟩, hx, rfl⟩
  | cons y xs ih =>
    have wrote : ∀ {x : Aside}, Own op .copy x.recs → ∃ rs ts, Own op .copy rs ∧ writeAt op .copy y.1.1 y.1.2 [y.2] (x.on u) =
        ({ x with recs := rs, rels := ts } : Aside).on (writeByte op.k .copy y.1.1 y.1.2 y.2 u) := by
      intro x hx
      obtain ⟨rs, ts, hrs, he⟩ := writeAt_on (a := y.1.1) (va := y.1.2) (bs := [y.2]) (u := u) hx
      refine ⟨rs, ts, hrs, he.trans ?_⟩
      simp [spread, putBytes]
    have goesOn : ∀ {x : Aside}, Own op .copy x.recs → ∃ ys rs ts n, Written tile src (y :: xs) ys ∧ Own op .copy rs ∧
        copyWrite op tile src xs (writeAt op .copy y.1.1 y.1.2 [y.2] (x.on u)) =
          ({ x with recs := rs, rels := ts, tick := n } : Aside).on (putBytes op.k .copy ys u) := by
      intro x hx
      obtain ⟨rs, ts, hrs, he⟩ := wrote hx
      obtain ⟨ys, rs', ts', n, hw, hrs', he'⟩ := ih (x := { x with recs := rs, rels := ts }) (u := writeByte op.k .copy y.1.1 y.1.2 y.2 u) hrs
      refine ⟨y :: ys, rs', ts', n, ⟨fun ht => by rw [hw.all ht], hw.sublist.cons_cons y, ?_⟩, hrs', by rw [he, he']; rfl⟩
      exact List.forall_mem_cons.2 ⟨fun _ => List.mem_cons_self, fun z hz hn => List.mem_cons_of_mem _ (hw.unread z hz hn)⟩
    rw [copyWrite]
    split
    · next hshared =>
      obtain ⟨htile, hmem⟩ := Bool.and_eq_true_iff.1 hshared
      dsimp only [useTick]
      split
      · exact goesOn (x := { x with tick := x.tick + 1 }) hx
      · obtain ⟨ts, he⟩ : ∃ ts, endRels op y.1.1 1 { x.on u with tick := (x.on u).tick + 1 } =
            ({ x with rels := ts, tick := x.tick + 1 } : Aside).on u := ⟨_, endRels_rels _ _ _ _⟩
        obtain ⟨ys, rs, ts', n, hw, hrs, he'⟩ := ih (x := { x with rels := ts, tick := x.tick + 1 }) (u := u) hx
        refine ⟨ys, rs, ts', n, ⟨fun ht => by simp [ht] at htile, hw.sublist.cons y, ?_⟩, hrs, by rw [he, he']⟩
        exact List.forall_mem_cons.2 ⟨fun hn => absurd (List.contains_iff_mem.1 hmem) hn, hw.unread⟩
    · exact goesOn hx

/-- Bytes of a copy counted into its slot (R110). -/
def counted (k : Gid) (c : CopyOp) (n : Nat) (t : Team) : Team :=
  match c.ring with
  | none => t
  | some (r, j) => if n = 0 then t else updSlot r j (ringCount ⟨k, c.seq⟩ n) t

/-- The bytes that a copy writes, with their places. -/
def copyBytes (s : State) (c : CopyOp) : List ((Loc × W64) × Byte) := (copyDsts c).zip (copyVals s c)

/-- Its source. -/
def copySrcs (c : CopyOp) : List Loc := accLocs (c.pairs.map Prod.fst)

/-- A copy that has read its source and written n bytes. -/
def copyAt (s : State) (c : CopyOp) (n : Nat) : CopyOp := { copyHeld s c with written := n }

/-- A state with some bytes of a copy written and n counted. -/
def copied (s : State) (c : CopyOp) (ys : List ((Loc × W64) × Byte)) (n : Nat) : State :=
  { putBytes s.g.id .copy ys s with t := counted s.g.id c n (putBytes s.g.id .copy ys s).t }

/-- A copy writes its next n bytes. -/
theorem Copies.step (h : Copies s c) (n : Nat) : ∃ ys rs ts i, Written c.tile (copySrcs c) ((copyBytes s c).take n) ys ∧
    Own ⟨s.g.id, c.seq⟩ .copy rs ∧
    copyStep s.g.id c.seq n s = (withCopy (copyAt s c ((copyBytes s c).take n).length) ⟨id, id, id, rs, ts, i⟩).on
      (copied s c ys ((copyBytes s c).take n).length) := by
  have hg := h.free.focus.1
  have hfind : ((group? s s.g.id).bind fun g => g.copies.find? fun o => o.seq = c.seq) = some c := by
    have hf := find_copy (c := c) (x := Aside.of s) hg
    rwa [h.self] at hf
  have hheld := find_copy (c := copyHeld s c) (x := Aside.of s) hg
  have hxs : (((copyDsts (copyHeld s c)).zip ((copyHeld s c).buf.getD [])).drop (copyHeld s c).written).take n = (copyBytes s c).take n := by
    rw [show (copyHeld s c).written = 0 from h.written]
    rfl
  have hgoing : ((copyHeld s c).done || (copyHeld s c).buf.isNone) = false := by simp [copyHeld, h.done]
  generalize hm : (copyBytes s c).take n = xs at hxs
  obtain ⟨ys, rs, ts, i, hw, hrs, he⟩ := copyWrite_on (u := s) (op := ⟨s.g.id, c.seq⟩) (x := withCopy (copyHeld s c) (Aside.of s))
    (tile := c.tile) (src := copySrcs c) xs (by simp [Own, withCopy, Aside.of, h.free.calm.1])
  refine ⟨ys, rs, ts, i, hw, hrs, ?_⟩
  have hput := blank_putBytes (k := s.g.id) (p := .copy) (s := s) ys
  have hf := inFocus_of_blank hput h.free.focus
  have hid := id_of_blank hput
  have hwrote : updCopy s.g.id c.seq (fun o => { o with written := o.written + xs.length })
      (copyWrite ⟨s.g.id, c.seq⟩ (copyHeld s c).tile (accLocs ((copyHeld s c).pairs.map Prod.fst)) xs
        ((withCopy (copyHeld s c) (Aside.of s)).on s)) =
      (withCopy (copyAt s c xs.length) ⟨id, id, id, rs, ts, i⟩).on (putBytes s.g.id .copy ys s) := by
    refine (congrArg (updCopy s.g.id c.seq _) he).trans ?_
    have hupd := updCopy_on (u := putBytes s.g.id .copy ys s) (c := copyHeld s c) (x := ⟨id, id, id, rs, ts, i⟩) hf.1
      fun o => { o with written := o.written + xs.length }
    rw [hid, show (copyHeld s c).written + xs.length = xs.length by rw [show (copyHeld s c).written = 0 from h.written, Nat.zero_add]] at hupd
    exact hupd
  have hcount : ∀ f, updTeam s.g.id.t f ((withCopy (copyAt s c xs.length) ⟨id, id, id, rs, ts, i⟩).on (putBytes s.g.id .copy ys s)) =
      (withCopy (copyAt s c xs.length) ⟨id, id, id, rs, ts, i⟩).on { putBytes s.g.id .copy ys s with t := f (putBytes s.g.id .copy ys s).t } := by
    intro f
    have hti : s.g.id.t = (putBytes s.g.id .copy ys s).t.id := by rw [hf.2.2.1, hid]
    rw [updTeam_on, hti, updTeam_focus hf.2.1]
  simp only [copyStep, hfind, h.done, h.read, Bool.false_eq_true, if_false]
  rw [show (fun g : Group => g.copies.find? fun o => o.seq = c.seq) = fun g => g.copies.find? fun o => o.seq = (copyHeld s c).seq from rfl, hheld]
  simp only [hgoing, hxs, hwrote, hcount, Bool.false_eq_true, if_false]
  rw [show (copyHeld s c).ring = c.ring from rfl, copied, counted]
  cases c.ring with
  | none => rfl
  | some e =>
    by_cases hnil : xs.length = 0
    · simp [List.length_eq_zero_iff.1 hnil]
    · have hne : xs.isEmpty = false := by simpa using hnil
      simp [hne, hnil]

/-- Bytes written and counted leave the op free to end. -/
theorem ending_copied (h : Free s) (ys : List ((Loc × W64) × Byte)) (n : Nat) : Ending s (copied s c ys n) := by
  obtain ⟨⟨hg, ht, hti, hrest⟩, hid, hdev, hm, hr⟩ := Ending.of_blank h.focus (blank_putBytes (k := s.g.id) (p := .copy) ys)
  have hteam : ∀ t : Team, (counted s.g.id c n t).live = t.live ∧ (counted s.g.id c n t).id = t.id := by
    intro t
    unfold counted
    split
    · exact ⟨rfl, rfl⟩
    · split <;> exact ⟨rfl, rfl⟩
  exact ⟨⟨hg, (hteam _).1.trans ht, (hteam _).2.trans hti, hrest⟩, hid, hdev, hm, hr⟩

theorem copyPop_on {c : CopyOp} (hg : u.g.live = true) : copyPop u.g.id c.seq ((withCopy c x).on u) =
    wake u.g.id.t (({ x with copies := fun _ => [] } : Aside).on u) := by
  refine congrArg (wake u.g.id.t) ((updGroup_focus (s := (withCopy c x).on u) hg).trans ?_)
  simp [Aside.on, withCopy]

/-- A copy ends. -/
theorem Copies.finishes (h : Copies s c) : ∃ ys, Written c.tile (copySrcs c) (copyBytes s c) ys ∧
    let u := copied s c ys (copyBytes s c).length
    Ends s (.next (copyEnd s.g.id c.seq s)) .copy c.tag c.seq c.sig { u with g := { u.g with copies := [] } } := by
  obtain ⟨ys, rs, ts, i, hw, hrs, hstep⟩ := h.step ((copyDsts c).length - c.written)
  have hall : (copyBytes s c).take ((copyDsts c).length - c.written) = copyBytes s c :=
    List.take_of_length_le (by rw [h.written, copyBytes, List.length_zip]; omega)
  rw [hall] at hw hstep
  have hend : Ending s (copied s c ys (copyBytes s c).length) := ending_copied h.free ys _
  have hnoted : ∀ op, op ≠ ⟨s.g.id, c.seq⟩ → noted ((withCopy (copyAt s c (copyBytes s c).length) ⟨id, id, id, rs, ts, i⟩).on
      (copied s c ys (copyBytes s c).length)) op = noted s op := fun op hne =>
    noted_on (blank_putBytes (k := s.g.id) (p := .copy) ys) h.free.calm.1 fun r hr => by rw [(hrs r hr).1]; exact hne.symm
  refine ⟨ys, hw, ?_⟩
  generalize copied s c ys (copyBytes s c).length = u at hstep hend hnoted
  have hfind : ((group? s s.g.id).bind fun g => g.copies.find? fun o => o.seq = c.seq) = some c := by
    have hf := find_copy (c := c) (x := Aside.of s) h.free.focus.1
    rwa [h.self] at hf
  have hat := find_copy (u := u) (c := copyAt s c (copyBytes s c).length) (x := ⟨id, id, id, rs, ts, i⟩) hend.focus.1
  have hgoing : ((copyAt s c (copyBytes s c).length).done || (copyAt s c (copyBytes s c).length).buf.isNone) = false := by
    simp [copyAt, copyHeld, h.done]
  obtain ⟨rs', ts', v, hcmd, hlive, hid, hends⟩ := hend.commandEnd h.free.calm
    (x := withCopy (copyAt s c (copyBytes s c).length) ⟨id, id, id, rs, ts, i⟩) hrs hnoted c.tag c.sig
  have hpop := copyPop_on (u := v) (c := copyAt s c (copyBytes s c).length) (x := ⟨id, id, id, rs', ts', i⟩) hlive
  rw [hid] at hpop
  rw [hend.id] at hat
  have hcopy : copyEnd s.g.id c.seq s = wake s.g.id.t ((⟨fun _ => [], id, id, rs', ts', i⟩ : Aside).on v) := by
    simp only [copyEnd, hfind, h.done, hstep, Bool.false_eq_true, if_false]
    rw [show (fun g : Group => g.copies.find? fun o => o.seq = c.seq) =
      fun g => g.copies.find? fun o => o.seq = (copyAt s c (copyBytes s c).length).seq from rfl, hat]
    dsimp only
    rw [hgoing, if_neg Bool.false_ne_true]
    exact (congrArg (copyPop s.g.id c.seq) hcmd).trans hpop
  rw [hcopy]
  exact hends ⟨fun _ => [], id, id, u.recs, u.rels, u.tick⟩

/-- The only copy of a queue goes on by itself. -/
theorem Copies.copyAfter (h : Copies s c) (m : CopyMove) : copyAfter s.g.id 0 m s = copyGo s.g.id (c.seq, m) s := by
  simp [Machine.copyAfter, group?_focus h.free.focus.1, copyPlan, h.sole, h.done, copyClosure]

/-- A copy counts some bytes. -/
theorem Copies.counts (h : Copies s c) {n : Nat} (hn : n ≤ (copyBytes s c).length) : ∃ ys rs ts i,
    Written c.tile (copySrcs c) ((copyBytes s c).take n) ys ∧
    copyStep s.g.id c.seq n s = { copied s c ys n with
      g := { (putBytes s.g.id .copy ys s).g with copies := [copyAt s c n] }, recs := rs, rels := ts, tick := i } := by
  obtain ⟨ys, rs, ts, i, hw, -, hstep⟩ := h.step n
  rw [List.length_take, Nat.min_eq_left hn] at hstep
  exact ⟨ys, rs, ts, i, hw, hstep⟩

end Sys2Proof.Machine
end

