-- ==== Sys2Proof/Proofs/StreamPath.lean ====
section
/-!
SUPPORT. Map transfers and stream blocks that nothing of their group has to go before.
-/
namespace Sys2Proof.Machine

variable {s u : State} {o : MapOp} {p : Moving}

/-! ### Nothing earlier meets it -/

/-- Nothing earlier on the stream path of a group shares a slot byte or a memory byte with something under way there. -/
def First (g : Group) (p : Moving) : Prop :=
  ∀ q ∈ movings g, q.foot.2.2.2 < p.foot.2.2.2 → slotsMeet q p = false ∧ memMeet q p = false

theorem movingClosure_apart {n : MoveNeed} (qs : List Moving) (h : ∀ q ∈ qs, slotsMeet q n.m = false ∧ memMeet q n.m = false) :
    movingClosure qs [n] = [n] := by
  induction qs with
  | nil => rfl
  | cons q qs ih =>
    obtain ⟨⟨hslots, hmem⟩, hqs⟩ := List.forall_mem_cons.1 h
    have hneed : moveNeed [n] q = none := by simp [moveNeed, hslots, hmem]
    rw [movingClosure, hneed]
    exact ih hqs

/-- What comes first moves by itself. -/
theorem movingTo_first (h : Free s) (hp : First s.g p) : movingTo s.g.id ⟨p, none⟩ s = movingDo s.g.id ⟨p, none⟩ s := by
  have hclosure : movingClosure ((movings s.g).filter fun q => q.foot.2.2.2 < p.foot.2.2.2).reverse [⟨p, none⟩] = [⟨p, none⟩] := by
    refine movingClosure_apart _ fun q hq => ?_
    obtain ⟨hmem, hlt⟩ := List.mem_filter.1 (List.mem_reverse.1 hq)
    exact hp q hmem (of_decide_eq_true hlt)
  simp only [movingTo, group?_focus h.focus.1, hclosure]
  rfl

/-- An image read at once. -/
theorem streamRead_free (h : Free s) (seq : Nat) (as : List Acc) : streamRead s.g.id seq (restOf as []) [] s = some (readBy s as [], s) := by
  simp only [streamRead, h.poisoned, h.eccRead, readBytes_calm h.calm.1, Bool.false_eq_true, if_false]
  rfl

theorem readImage_free (s : State) (as : List Acc) (n : Nat) : readImage n true (readBy s as []) = bytesAt s s.g.id (accLocs as) :=
  (readImage_readBy s as []).trans (seenImage_nil s as)

/-! ### Map transfers -/

/-- A group in focus with one unfinished map transfer, that none has to go before. -/
structure Transfer (s : State) (o : MapOp) : Prop where
  free : Free s
  sole : s.g.mapops = [o]
  done : o.done = false
  got : o.got = []
  rival : o.rival = []
  first : First s.g (.xfer o)

/-- A state whose group's only map transfer is finished. -/
def finished (o : MapOp) (u : State) : State := { u with g := { u.g with mapops := [{ o with done := true }] } }

/-- A state whose group has retired it. -/
def mapEnded (k : Gid) (o : MapOp) (u : State) : State := { u with g := { u.g with
  mapops := [], retired := ((.mp, o.seq) :: u.g.retired).filter fun y => noted u ⟨k, y.2⟩ } }

theorem noted_finished (op : OpId) : noted (finished o u) op = noted u op := by
  by_cases hg : u.g.live = true <;> simp [noted, allGroups, finished, hg]

theorem updGroup_mapRetire (hg : u.g.live = true) :
    updGroup u.g.id (mapRetire fun q => noted (finished o u) ⟨u.g.id, q⟩) (finished o u) = mapEnded u.g.id o u := by
  refine (updGroup_focus (s := finished o u) hg).trans ?_
  simp only [noted_finished]
  rfl

/-- What a transfer has filled in other groups' loads leaves the group in focus. -/
theorem markRivals_focus {k : Gid} (hk : u.g.id = k) : markRivals k o u = { u with groups := (markRivals k o u).groups } := by
  simp [markRivals, updTeamGroups, hk]

theorem updMapop_sole (hg : u.g.live = true) (ho : u.g.mapops = [o]) :
    updMapop u.g.id o.seq (fun o => { o with done := true }) u = finished o u := by
  rw [updMapop, updGroup_focus hg, finished, ho]
  simp

theorem Transfer.execComplete (h : Transfer s o) (hdo : mapDo s.g.id o.seq s = finished o u) (hg : u.g.live = true) (hid : u.g.id = s.g.id) :
    execMapTransferComplete s.g.id 0 s = .next (wake s.g.id.t (mapEnded s.g.id o u)) := by
  have hfind : ((group? s s.g.id).bind fun g => g.mapops[0]?) = some o := by simp [group?_focus h.free.focus.1, h.sole]
  have hmove : movingTo s.g.id ⟨.xfer o, none⟩ s = finished o u := by
    rw [movingTo_first h.free h.first]
    exact (h.free.afterAcquires o.seq _).trans hdo
  simp only [execMapTransferComplete, hfind, h.done, Bool.false_eq_true, if_false, hmove]
  rw [← hid, updGroup_mapRetire hg]

/-- The slot store of the team in focus, filled with an image. -/
def filled (o : MapOp) (bs : List Byte) (s : State) : State := { s with t := fillSlots o.first o.fmt bs s.t }

theorem Transfer.execComplete_fills (h : Transfer s o) {bs : List Byte}
    (hdo : mapDo s.g.id o.seq s = finished o (markRivals s.g.id o (filled o bs s))) :
    execMapTransferComplete s.g.id 0 s = .next (wake s.g.id.t (mapEnded s.g.id o (markRivals s.g.id o (filled o bs s)))) := by
  have hg : (markRivals s.g.id o (filled o bs s)).g = s.g := by
    rw [markRivals_focus (k := s.g.id) (u := filled o bs s) rfl]
    rfl
  exact h.execComplete hdo (by rw [hg]; exact h.free.focus.1) (by rw [hg])

theorem Transfer.fills (h : Transfer s o) (bs : List Byte) :
    fillFrom s.g.id o bs (finished o s) = finished o (markRivals s.g.id o (filled o bs s)) := by
  have hteam : updTeam s.g.id.t (fillSlots o.first o.fmt bs) (finished o s) = finished o (filled o bs s) := by
    rw [← h.free.focus.2.2.1]
    exact updTeam_focus (s := finished o s) h.free.focus.2.1
  rw [fillFrom, h.rival, List.isEmpty_nil, if_pos rfl, hteam, markRivals_focus (k := s.g.id) (u := finished o (filled o bs s)) rfl,
    markRivals_focus (k := s.g.id) (u := filled o bs s) rfl]
  rfl

theorem Transfer.find (h : Transfer s o) : ((group? s s.g.id).bind fun g => g.mapops.find? fun p => p.seq = o.seq) = some o := by
  simp [group?_focus h.free.focus.1, h.sole]

theorem Transfer.mapDo_load (h : Transfer s o) (hk : o.kind = .load) :
    mapDo s.g.id o.seq s = finished o (markRivals s.g.id o (filled o (bytesAt s s.g.id (accLocs o.accs)) s)) := by
  rw [← h.fills, ← updMapop_sole h.free.focus.1 h.sole]
  simp only [mapDo, h.find, h.done, hk, h.got, streamRead_free h.free, List.isEmpty_nil, readImage_free, Bool.false_eq_true, if_false]

theorem Transfer.mapDo_diag (h : Transfer s o) (hk : o.kind = .diag) :
    mapDo s.g.id o.seq s = finished o (markRivals s.g.id o (filled o (o.image.getD []) s)) := by
  rw [← h.fills, ← updMapop_sole h.free.focus.1 h.sole]
  simp only [mapDo, h.find, h.done, hk, Bool.false_eq_true, if_false]

/-- The bytes of a stored image, with their places. -/
def imageBytes (as : List Acc) (bs : List Byte) : List ((Loc × W64) × Byte) :=
  (as.flatMap fun a => (List.range a.w).map fun i => ((({ a.loc with addr := a.loc.addr + i } : Loc), a.va + BitVec.ofNat 64 i))).zip bs

theorem zip_append_take {α β : Type} (l r : List α) (bs : List β) :
    (l ++ r).zip bs = l.zip (bs.take l.length) ++ r.zip (bs.drop l.length) := by
  induction l generalizing bs with
  | nil => simp
  | cons x l ih =>
    cases bs with
    | nil => simp
    | cons b bs => simp [ih]

theorem zip_range_map {α β : Type} {n : Nat} (f : Nat → α) {bs : List β} (h : bs.length ≤ n) :
    ((List.range n).map f).zip bs = bs.zipIdx.map fun y => (f y.2, y.1) :=
  List.ext_getElem (by simpa using h) fun i _ _ => by simp

theorem imageBytes_cons (a : Acc) (as : List Acc) (bs : List Byte) :
    imageBytes (a :: as) bs = spread a.loc a.va (bs.take a.w) ++ imageBytes as (bs.drop a.w) := by
  rw [imageBytes, List.flatMap_cons, zip_append_take, List.length_map, List.length_range, zip_range_map _ (List.length_take_le _ _)]
  rfl

theorem storeImage_on {op : OpId} {x : Aside} (as : List Acc) (bs : List Byte) (hx : Own op .stream x.recs) : ∃ rs ts, Own op .stream rs ∧
    storeImage op as bs (x.on u) = ({ x with recs := rs, rels := ts } : Aside).on (putBytes op.k .stream (imageBytes as bs) u) := by
  induction as generalizing x u bs with
  | nil => exact ⟨x.recs, x.rels, hx, rfl⟩
  | cons a as ih =>
    obtain ⟨rs, ts, hrs, he⟩ := writeAt_on (a := a.loc) (va := a.va) (bs := bs.take a.w) (u := u) hx
    obtain ⟨rs', ts', hrs', he'⟩ := ih (x := { x with recs := rs, rels := ts }) (u := putBytes op.k .stream (spread a.loc a.va (bs.take a.w)) u)
      (bs.drop a.w) hrs
    exact ⟨rs', ts', hrs', by rw [storeImage, he, he', imageBytes_cons, putBytes_append]⟩

theorem storeImage_free (h : Free s) (q : Nat) (as : List Acc) (bs : List Byte) : ∃ rs ts,
    storeImage ⟨s.g.id, q⟩ as bs s = { putBytes s.g.id .stream (imageBytes as bs) s with recs := rs, rels := ts } := by
  obtain ⟨rs, ts, -, he⟩ := storeImage_on (op := ⟨s.g.id, q⟩) (u := s) (x := Aside.of s) as bs (by simp [Own, Aside.of, h.calm.1])
  have htick : (putBytes s.g.id .stream (imageBytes as bs) s).tick = s.tick :=
    (congrArg State.tick (blank_putBytes (k := s.g.id) (p := .stream) (s := s) (imageBytes as bs)) :)
  exact ⟨rs, ts, he.trans (congrArg (fun n => { putBytes s.g.id .stream (imageBytes as bs) s with recs := rs, rels := ts, tick := n }) htick.symm)⟩

theorem Transfer.mapDo_store (h : Transfer s o) (hk : o.kind = .store) : ∃ rs ts,
    mapDo s.g.id o.seq s = finished o { putBytes s.g.id .stream (imageBytes o.accs (o.image.getD [])) s with recs := rs, rels := ts } := by
  obtain ⟨rs, ts, he⟩ := storeImage_free h.free o.seq o.accs (o.image.getD [])
  have hput := blank_putBytes (k := s.g.id) (p := .stream) (s := s) (imageBytes o.accs (o.image.getD []))
  refine ⟨rs, ts, ?_⟩
  simp only [mapDo, h.find, h.done, hk, h.got, List.isEmpty_nil, if_true, Bool.false_eq_true, if_false, he]
  generalize putBytes s.g.id .stream (imageBytes o.accs (o.image.getD [])) s = v at hput
  rw [← id_of_blank hput]
  exact updMapop_sole (u := { v with recs := rs, rels := ts }) ((live_of_blank hput).trans h.free.focus.1)
    ((congrArg Group.mapops (g_of_blank hput) :).trans h.sole)

/-! ### Stream blocks -/

/-- A stream with a block in its buffer. -/
theorem fetched_none (d : W64) (m blk : Nat) (e : Nat × Stream) : fetched d m blk none e =
    if e.1 = m then (m, if blk = mdB d then { e.2 with here := true, gotHere := [] } else { e.2 with ahead := true, gotAhead := [] }) else e := by
  by_cases he : e.1 = m <;> simp [fetched, he]

/-- What a fetch in flight is. -/
theorem fetching_fields {g : Group} {m blk : Nat} {st : Fetch} (h : fetching g m blk = some st) :
    st.map = m ∧ st.blk = blk ∧ st.first = streamBase (getMap g m) blk := by
  unfold fetching at h
  dsimp only at h
  split at h
  · cases h
  · (repeat' split at h) <;> cases h
    · exact ⟨rfl, rfl, rfl⟩
    · exact ⟨rfl, rfl, rfl⟩

/-- A block of a stream comes in. -/
theorem execStreamBlockArrival_free {m blk : Nat} {st : Fetch} (h : Free s) (hst : fetching s.g m blk = some st) (hgot : st.got = [])
    (hfirst : First s.g (.fetch st)) : execStreamBlockArrival s.g.id m blk s = .next (wake s.g.id.t { s with
      t := fillSlots st.first (mdFmt (getMap s.g m)) (bytesAt s s.g.id (accLocs st.accs)) s.t
      g := { s.g with streams := s.g.streams.map (fetched (getMap s.g m) m blk none) } }) := by
  obtain ⟨hmap, hblk, -⟩ := fetching_fields hst
  have hg := group?_focus h.focus.1
  have hdo : fetchDo s.g.id m blk s = { s with
      t := fillSlots st.first (mdFmt (getMap s.g m)) (bytesAt s s.g.id (accLocs st.accs)) s.t
      g := { s.g with streams := s.g.streams.map (fetched (getMap s.g m) m blk none) } } := by
    simp only [fetchDo, hg, Option.bind_some, hst, Option.map_some, hgot, streamRead_free h, List.isEmpty_nil, readImage_free,
      updGroup_focus h.focus.1]
    rw [← h.focus.2.2.1]
    exact updTeam_focus (s := { s with g := { s.g with streams := s.g.streams.map (fetched (getMap s.g m) m blk none) } }) h.focus.2.1
  have hmove : movingTo s.g.id ⟨.fetch st, none⟩ s = fetchDo s.g.id m blk s := by
    rw [movingTo_first h hfirst]
    refine (h.afterAcquires st.seq _).trans ?_
    rw [hmap, hblk]
  simp only [execStreamBlockArrival, hg, Option.bind_some, hst, hmove, hdo]

end Sys2Proof.Machine
end

