-- ==== Sys2Proof/Proofs/BobbinEnds.lean ====
section
/-!
SUPPORT. The end of a bobbin command alone in its group's queue.
-/
namespace Sys2Proof.Machine

variable {s u : State} {x : Aside} {op : OpId} {keep : List Loc} {know : List Crossing}

/-- The bits that a move reads from a state. -/
def moveBits (s : State) (k : Gid) (m : BitMove) : Nat := leNat (bytesAt s k (locsFrom m.src (max 1 (m.w / 8))))

/-- The value of a move: as it was read before, or as it is found. -/
def moveValue (s : State) (k : Gid) (m : BitMove) : Nat :=
  m.val.getD (if m.w < 8 then moveBits s k m / 2 ^ m.sbit % 2 ^ m.w else moveBits s k m)

theorem moveVals_free (h : s.recs = []) (ms : List BitMove) :
    moveVals (bobRead op) ms s = (ms.map fun m => (m, moveValue s op.k m), s) := by
  induction ms with
  | nil => rfl
  | cons m ms ih =>
    have hval : moveVal (bobRead op) m s = (moveValue s op.k m, s) := by
      unfold moveVal moveValue
      cases m.val with
      | some v => rfl
      | none =>
        simp only [bobRead, readBytes_calm h]
        rfl
    simp only [moveVals, hval, ih, List.map_cons]

/-- Bytes of a move written over the present ones, but for those that keep theirs. -/
def moved (k : Gid) (keep : List Loc) (m : BitMove) (n : Nat) (u : State) : State :=
  putBytes k .bobbin ((spread m.dst m.dva (moveBytes k m n u)).filter fun y => !keep.contains y.1.1) u

theorem moveWrite_on (bs : List Byte) {a : Loc} {va : W64} (hx : Own op .bobbin x.recs) : ∃ rs ts, Own op .bobbin rs ∧
    moveWrite know op keep va a bs (x.on u) =
      ({ x with recs := rs, rels := ts } : Aside).on (putBytes op.k .bobbin ((spread a va bs).filter fun y => !keep.contains y.1.1) u) := by
  induction bs generalizing x u a va with
  | nil => exact ⟨x.recs, x.rels, hx, rfl⟩
  | cons b bs ih =>
    rw [moveWrite, spread_cons]
    by_cases hkeep : keep.contains a = true
    · rw [if_pos hkeep, List.filter_cons_of_neg (by simpa using hkeep)]
      exact ih hx
    · obtain ⟨rs, ts, hrs, he⟩ := writeKnown_on (a := a) (va := va) (bs := [b]) (u := u) know hx
      obtain ⟨rs', ts', hrs', he'⟩ := ih (x := { x with recs := rs, rels := ts }) (u := putBytes op.k .bobbin (spread a va [b]) u)
        (a := { a with addr := a.addr + 1 }) (va := va + 1) hrs
      rw [if_neg hkeep, he, List.filter_cons_of_pos (by simpa using hkeep)]
      refine ⟨rs', ts', hrs', he'.trans ?_⟩
      simp [spread, putBytes]

theorem moveBytes_on (k : Gid) (m : BitMove) (n : Nat) : moveBytes k m n (x.on u) = moveBytes k m n u := by
  simp only [moveBytes, viewByte_on]

/-- Moves to places apart, one after another. -/
theorem movesWrite_on (xs : List (BitMove × Nat)) {seen : List (Loc × Nat)} (hx : Own op .bobbin x.recs)
    (hn : (xs.map fun y => (y.1.dst, y.1.dbit)).Nodup) (hs : ∀ y ∈ xs, (y.1.dst, y.1.dbit) ∉ seen) : ∃ rs ts, Own op .bobbin rs ∧
    movesWrite know op keep seen xs (x.on u) =
      ({ x with recs := rs, rels := ts } : Aside).on (xs.foldl (fun u y => moved op.k keep y.1 y.2 u) u) := by
  induction xs generalizing x u seen with
  | nil => exact ⟨x.recs, x.rels, hx, rfl⟩
  | cons y xs ih =>
    obtain ⟨hy, hxs⟩ := List.nodup_cons.1 hn
    obtain ⟨hsy, hsxs⟩ := List.forall_mem_cons.1 hs
    obtain ⟨rs, ts, hrs, he⟩ := moveWrite_on (know := know) (keep := keep) (u := u) (a := y.1.dst) (va := y.1.dva) (moveBytes op.k y.1 y.2 u) hx
    obtain ⟨rs', ts', hrs', he'⟩ := ih (x := { x with recs := rs, rels := ts }) (u := moved op.k keep y.1 y.2 u)
      (seen := (y.1.dst, y.1.dbit) :: seen) hrs hxs fun z hz hmem => by
        rcases List.mem_cons.1 hmem with heq | hmem
        · exact hy (List.mem_map.2 ⟨z, hz, heq⟩)
        · exact hsxs z hz hmem
    refine ⟨rs', ts', hrs', ?_⟩
    rw [movesWrite, if_neg (by simpa using hsy)]
    dsimp only
    rw [moveBytes_on, he]
    exact he'

/-- What a command's moves leave, each of the value found at first. -/
def movedAll (s : State) (b : BobCmd) : State := b.moves.foldl (fun u m => moved s.g.id b.keep m (moveValue s s.g.id m) u) s

theorem blank_movedAll (s : State) (b : BobCmd) : (movedAll s b).blank = s.blank := by
  have hall : ∀ (ms : List BitMove) (u : State), (ms.foldl (fun u m => moved s.g.id b.keep m (moveValue s s.g.id m) u) u).blank = u.blank := by
    intro ms
    induction ms with
    | nil => exact fun _ => rfl
    | cons m ms ih => exact fun u => (ih _).trans (blank_putBytes _)
  exact hall b.moves s

/-- The only command of a queue ends. -/
theorem bobFinish_free {b : BobCmd} (h : Free s) (hb : s.g.bobs = [b]) (hn : (b.moves.map fun m => (m.dst, m.dbit)).Nodup) :
    Ends s (.next (bobFinish s.g.id s)) .bobbin b.tag b.seq b.sig
      { movedAll s b with g := { (movedAll s b).g with bobs := [] } } := by
  have hself : (⟨id, fun _ => [b], id, s.recs, s.rels, s.tick⟩ : Aside).on s = s := by
    have hq : { s.g with bobs := [b] } = s.g := by rw [← hb]
    exact congrArg (fun g => { s with g := g }) hq
  obtain ⟨rs, ts, hrs, he⟩ := movesWrite_on (op := ⟨s.g.id, b.seq⟩) (know := []) (keep := b.keep) (u := s) (seen := [])
    (x := ⟨id, fun _ => [b], id, s.recs, s.rels, s.tick⟩) (b.moves.map fun m => (m, moveValue s s.g.id m))
    (by simp [Own, h.calm.1]) (by simpa [Function.comp_def] using hn) (by simp)
  rw [hself, List.foldl_map] at he
  have hput := blank_movedAll s b
  obtain ⟨rs', ts', v, hcmd, hlive, hid, hends⟩ := (Ending.of_blank h.focus hput).commandEnd h.calm
    (x := ⟨id, fun _ => [b], id, rs, ts, s.tick⟩) hrs
    (fun op hne => noted_on hput h.calm.1 fun r hr => by rw [(hrs r hr).1]; exact hne.symm) b.tag b.sig
  have hpop : updGroup s.g.id (fun g => { g with bobs := g.bobs.tail }) ((⟨id, fun _ => [b], id, rs', ts', s.tick⟩ : Aside).on v) =
      (⟨id, fun _ => [], id, rs', ts', s.tick⟩ : Aside).on v := by
    rw [← hid]
    exact updGroup_focus (s := (⟨id, fun _ => [b], id, rs', ts', s.tick⟩ : Aside).on v) hlive
  have hmoves : movesDo [] ⟨s.g.id, b.seq⟩ (bobRead ⟨s.g.id, b.seq⟩) b.keep b.moves s =
      (⟨id, fun _ => [b], id, rs, ts, s.tick⟩ : Aside).on (movedAll s b) := by
    simp only [movesDo, h.eccRead, moveVals_free h.calm.1]
    exact he
  have hfinish : bobFinish s.g.id s = wake s.g.id.t ((⟨id, fun _ => [], id, rs', ts', s.tick⟩ : Aside).on v) := by
    simp only [bobFinish, group?_focus h.focus.1, Option.bind_some, hb, List.head?_cons, h.afterAcquires, h.poisoned, Bool.false_eq_true, if_false,
      hmoves, hcmd, hpop]
  rw [hfinish]
  exact hends ⟨id, fun _ => [], id, (movedAll s b).recs, (movedAll s b).rels, (movedAll s b).tick⟩

end Sys2Proof.Machine
end

