-- ==== Sys2Proof/Proofs/ImageStores.lean ====
section
/-!
SUPPORT. The end of an image store alone in its group's queue, with no unfinished store of another group before it.
-/
namespace Sys2Proof.Machine

variable {s u : State} {x : Aside} {i : ImgOp} {op : OpId}

/-- A state with the only image store of its group replaced. -/
def withImg (i : ImgOp) (x : Aside) : Aside := { x with imgs := fun _ => [i] }

/-- The bytes of some writes, with their places. -/
def accBytes (as : List Acc) : List ((Loc × W64) × Byte) := as.flatMap fun a => spread a.loc a.va (leBytes a.w a.data.toNat)

theorem imgOf_sole (hg : u.g.live = true) : imgOf ((withImg i x).on u) ⟨u.g.id, i.seq⟩ = some i := by
  have hgroup : group? ((withImg i x).on u) u.g.id = some ((withImg i x).on u).g := group?_focus (s := (withImg i x).on u) hg
  rw [imgOf, hgroup]
  simp [Aside.on, withImg]

/-- Writes of an image store made one after another. -/
theorem foldl_imgWrite_on (as : List Acc) (hx : Own op .image x.recs) : ∃ rs ts, Own op .image rs ∧
    as.foldl (fun s a => imgWrite op a s) (x.on u) =
      ({ x with recs := rs, rels := ts } : Aside).on (putBytes op.k .image (accBytes as) u) := by
  induction as generalizing x u with
  | nil => exact ⟨x.recs, x.rels, hx, rfl⟩
  | cons a as ih =>
    obtain ⟨rs, ts, hrs, he⟩ := writeAt_on (a := a.loc) (va := a.va) (bs := leBytes a.w a.data.toNat) (u := u) hx
    obtain ⟨rs', ts', hrs', he'⟩ := ih (x := { x with recs := rs, rels := ts })
      (u := putBytes op.k .image (spread a.loc a.va (leBytes a.w a.data.toNat)) u) hrs
    refine ⟨rs', ts', hrs', ?_⟩
    rw [List.foldl_cons, imgWrite, he, he', show accBytes (a :: as) = _ ++ accBytes as from List.flatMap_cons, putBytes_append]

/-- The first n writes of a store that its group has alone. -/
theorem imgWrites_on (hg : u.g.live = true) (hx : Own ⟨u.g.id, i.seq⟩ .image x.recs) (n : Nat) : ∃ rs ts, Own ⟨u.g.id, i.seq⟩ .image rs ∧
    imgWrites ⟨u.g.id, i.seq⟩ n ((withImg i x).on u) = (withImg { i with writes := i.writes.drop n } { x with recs := rs, rels := ts }).on
      (putBytes u.g.id .image (accBytes (i.writes.take n)) u) := by
  have hgroup : group? ((withImg i x).on u) u.g.id = some ((withImg i x).on u).g := group?_focus (s := (withImg i x).on u) hg
  have hbefore : imgBefore ⟨u.g.id, i.seq⟩ (i.writes.take n) ((withImg i x).on u) = (withImg i x).on u := by
    have hnone : (((group? ((withImg i x).on u) u.g.id).elim [] Group.imgs).filter fun o => o.seq < i.seq) = [] := by
      rw [hgroup]
      simp [Aside.on, withImg]
    simp only [imgBefore, hnone]
    rfl
  obtain ⟨rs, ts, hrs, he⟩ := foldl_imgWrite_on (u := u) (x := withImg i x) (op := ⟨u.g.id, i.seq⟩) (i.writes.take n) hx
  have hput := blank_putBytes (k := u.g.id) (p := .image) (s := u) (accBytes (i.writes.take n))
  refine ⟨rs, ts, hrs, ?_⟩
  simp only [imgWrites, imgOf_sole hg, hbefore, he]
  generalize putBytes u.g.id .image (accBytes (i.writes.take n)) u = v at hput
  rw [← id_of_blank hput]
  refine (updGroup_focus (s := ({ withImg i x with recs := rs, rels := ts } : Aside).on v) ((live_of_blank hput).trans hg)).trans ?_
  simp [Aside.on, withImg]

/-! ### Stores of other groups -/

theorem imgReach_none (h : imgOf s op = none) (fuel : Nat) (n : Option Nat) : imgReach fuel op n s = s := by
  cases fuel with
  | zero => rfl
  | succ fuel => simp [imgReach, h]

theorem imgOf_other (hk : op.k ≠ u.g.id) : imgOf (x.on u) op = imgOf u op := by
  have hne : ¬(u.g.live && decide (u.g.id = op.k)) = true := by simp [Ne.symm hk]
  rw [imgOf, imgOf, group?_eq, group?_eq, if_neg (show ¬((x.on u).g.live && decide ((x.on u).g.id = op.k)) = true from hne), if_neg hne]
  rfl

theorem imgOf_of_blank (h : u.blank = s.blank) (op : OpId) : imgOf u op = imgOf s op := by
  have hmap : ∀ v : State, imgOf v op = ((group? v op.k).map Group.blank).bind fun g => g.imgs.find? fun o => o.seq = op.seq := by
    intro v
    rw [imgOf]
    cases group? v op.k <;> rfl
  rw [hmap, hmap, group?_of_blank h]

/-- Stores that are finished bring nothing more. -/
theorem foldl_imgReach_none (ps : List OpId) (h : ∀ p ∈ ps, imgOf s p = none) (fuel : Nat) :
    ps.foldl (fun s p => imgReach fuel p ((imgOf s p).map imgPrimaries) s) s = s := by
  induction ps with
  | nil => rfl
  | cons p ps ih =>
    obtain ⟨hp, hps⟩ := List.forall_mem_cons.1 h
    rw [List.foldl_cons, imgReach_none hp]
    exact ih hps

/-- A group in focus with one image store, before which no unfinished store of another group comes. -/
structure Stores (s : State) (i : ImgOp) : Prop where
  free : Free s
  sole : s.g.imgs = [i]
  after : ∀ p ∈ imgAfter s.g i.seq, ∀ g, group? s p.k = some g → ∀ y ∈ g.imgs, y.seq ≠ p.seq

theorem Stores.imgOf_after (h : Stores s i) (hu : u.blank = s.blank) {p : OpId} (hp : p ∈ imgAfter s.g i.seq) : imgOf (x.on u) p = none := by
  have hk : p.k ≠ u.g.id := by
    rw [id_of_blank hu]
    obtain ⟨c, hc, rfl⟩ := List.mem_map.1 (List.mem_eraseDups.1 hp)
    have hcond := List.of_mem_filter hc
    simp only [Bool.and_eq_true, decide_eq_true_eq] at hcond
    exact hcond.1.1.2
  rw [imgOf_other hk, imgOf_of_blank hu, imgOf]
  cases hg : group? s p.k with
  | none => rfl
  | some g => exact List.find?_eq_none.2 fun y hy hq => h.after p hp g hg y hy (of_decide_eq_true hq)

theorem Stores.self (h : Stores s i) : (withImg i (Aside.of s)).on s = s := by
  have hq : { s.g with imgs := [i] } = s.g := by rw [← h.sole]
  exact congrArg (fun g => { s with g := g }) hq

/-- All writes of such a store are made, its primaries first. -/
theorem Stores.reach (h : Stores s i) (fuel : Nat) : ∃ rs ts, Own ⟨s.g.id, i.seq⟩ .image rs ∧
    imgReach (fuel + 1) ⟨s.g.id, i.seq⟩ none s = (withImg { i with writes := [] } ⟨id, id, id, rs, ts, s.tick⟩).on
      (putBytes s.g.id .image (accBytes i.writes) s) := by
  have hg := h.free.focus.1
  have hof : imgOf s ⟨s.g.id, i.seq⟩ = some i := by
    have hs := imgOf_sole (i := i) (x := Aside.of s) hg
    rwa [h.self] at hs
  have hearlier : ((group? s s.g.id).elim [] Group.imgs).filter (fun p => p.seq < i.seq) = [] := by simp [group?_focus hg, h.sole]
  generalize hn : imgPrimaries i = n
  obtain ⟨rs, ts, hrs, hprim⟩ := imgWrites_on (i := i) (x := Aside.of s) hg (by simp [Own, Aside.of, h.free.calm.1]) n
  rw [h.self] at hprim
  have hput := blank_putBytes (k := s.g.id) (p := .image) (s := s) (accBytes (i.writes.take n))
  have hbytes : putBytes s.g.id .image (accBytes (i.writes.drop n)) (putBytes s.g.id .image (accBytes (i.writes.take n)) s) =
      putBytes s.g.id .image (accBytes i.writes) s := by
    rw [← putBytes_append, accBytes, accBytes, ← List.flatMap_append, List.take_append_drop]
    rfl
  generalize putBytes s.g.id .image (accBytes (i.writes.take n)) s = v at hprim hput hbytes
  have hv : v.g.live = true := (live_of_blank hput).trans hg
  have hid := id_of_blank hput
  have hdrop : (i.writes.drop n).take (i.writes.length - n) = i.writes.drop n := List.take_of_length_le (by simp)
  have hnil : (i.writes.drop n).drop (i.writes.length - n) = [] := List.drop_eq_nil_of_le (by simp)
  obtain ⟨rs', ts', hrs', hrest⟩ := imgWrites_on (u := v) (i := { i with writes := i.writes.drop n }) (x := { Aside.of s with recs := rs, rels := ts })
    hv (by rw [hid]; exact hrs) (i.writes.length - n)
  dsimp only at hrest hrs'
  rw [hdrop, hnil, hid, hbytes] at hrest
  rw [hid] at hrs'
  refine ⟨rs', ts', hrs', ?_⟩
  have hps : (group? ((withImg { i with writes := i.writes.drop n } { Aside.of s with recs := rs, rels := ts }).on v) s.g.id).elim []
      (fun g => imgAfter g i.seq) = imgAfter s.g i.seq := by
    have hgroup := group?_focus (s := (withImg { i with writes := i.writes.drop n } { Aside.of s with recs := rs, rels := ts }).on v) hv
    rw [show ((withImg { i with writes := i.writes.drop n } { Aside.of s with recs := rs, rels := ts }).on v).g.id = s.g.id from hid] at hgroup
    rw [hgroup]
    exact (congrArg (fun g => imgAfter g i.seq) (g_of_blank hput) :)
  generalize hx : withImg { i with writes := i.writes.drop n } { Aside.of s with recs := rs, rels := ts } = x at hprim hrest hps
  have hothers : ∀ p ∈ imgAfter s.g i.seq, imgOf (x.on v) p = none := fun p hp => h.imgOf_after hput hp
  have hany : ((imgAfter s.g i.seq).any fun p => (imgOf (x.on v) p).any fun o => imgPrimaries o ≠ 0) = false :=
    List.any_eq_false.2 fun p hp => by rw [hothers p hp]; simp
  rw [imgReach, hof]
  simp only [Option.isNone_some, Bool.false_eq_true, if_false, hearlier, List.foldl_nil, h.free.afterAcquires, hof, Option.getD_none, hn,
    Nat.min_self, hprim, Option.any_none, hps, foldl_imgReach_none _ hothers, hany]
  exact hrest

/-- Such a store ends. -/
theorem Stores.finishes (h : Stores s i) :
    let u := putBytes s.g.id .image (accBytes i.writes) s
    Ends s (.next (imgFinish s.g.id s)) .image i.tag i.seq i.sig { u with g := { u.g with imgs := [] } } := by
  obtain ⟨rs, ts, hrs, hreach⟩ := h.reach 256
  have hput := blank_putBytes (k := s.g.id) (p := .image) (s := s) (accBytes i.writes)
  have hv : (putBytes s.g.id .image (accBytes i.writes) s).g.live = true := (live_of_blank hput).trans h.free.focus.1
  have hid := id_of_blank hput
  obtain ⟨rs', ts', v, hcmd, hlive, hvid, hends⟩ := (Ending.of_blank h.free.focus hput).commandEnd h.free.calm
    (x := withImg { i with writes := [] } ⟨id, id, id, rs, ts, s.tick⟩) hrs
    (fun op hne => noted_on hput h.free.calm.1 fun r hr => by rw [(hrs r hr).1]; exact hne.symm) i.tag i.sig
  dsimp only
  generalize putBytes s.g.id .image (accBytes i.writes) s = u at hreach hput hv hid hcmd hends
  have hof := imgOf_sole (i := { i with writes := [] }) (x := ⟨id, id, id, rs, ts, s.tick⟩) hv
  have hgroup := group?_focus (s := (withImg { i with writes := [] } ⟨id, id, id, rs, ts, s.tick⟩).on u) hv
  rw [show ((withImg { i with writes := [] } ⟨id, id, id, rs, ts, s.tick⟩).on u).g.id = s.g.id from hid] at hgroup
  rw [hid] at hof
  have hpop : updGroup s.g.id (fun g => { g with imgs := g.imgs.tail }) ((withImg { i with writes := [] } ⟨id, id, id, rs', ts', s.tick⟩).on v) =
      (⟨id, id, fun _ => [], rs', ts', s.tick⟩ : Aside).on v := by
    rw [← hvid]
    exact updGroup_focus (s := (withImg { i with writes := [] } ⟨id, id, id, rs', ts', s.tick⟩).on v) hlive
  have hfinish : imgFinish s.g.id s = wake s.g.id.t ((⟨id, id, fun _ => [], rs', ts', s.tick⟩ : Aside).on v) := by
    simp only [imgFinish, group?_focus h.free.focus.1, Option.bind_some, h.sole, List.head?_cons, imgDepth, hreach, hof, Option.any_some,
      List.isEmpty_nil, if_true, imgPop, hgroup]
    exact congrArg (wake s.g.id.t) ((congrArg (updGroup s.g.id _) hcmd).trans hpop)
  rw [hfinish]
  exact hends ⟨id, id, fun _ => [], u.recs, u.rels, u.tick⟩

end Sys2Proof.Machine
end

