-- ==== Sys2Proof/Proofs/Transfers.lean ====
section
/-!
SUPPORT. What the paths outside the lane path do when they finish (O45).
-/
namespace Sys2Proof.Machine

variable {s : State}

/-- Outside a replay launch global bytes go to memory. -/
theorem putBytes_phys {p : Path} (hf : inFocus s) (hr : s.l.replay = false) (xs : List ((Loc × W64) × Byte)) (hx : ∀ y ∈ xs, y.1.1.home = .phys) :
    putBytes s.g.id p xs s = { s with hbm := xs.foldl (fun m y => memPut m y.1.1.addr y.2) s.hbm } := by
  induction xs using List.reverseRecOn with
  | nil => rfl
  | append_singleton xs y ih =>
    have hy : y.1.1.home = .phys := hx y (by simp)
    have hrep : ¬(y.1.1.home = .phys ∧ replays { s with hbm := xs.foldl (fun m y => memPut m y.1.1.addr y.2) s.hbm } s.g.id.t.l = true) := by
      rintro ⟨-, h⟩
      exact Bool.false_ne_true (((replays_focus hf).trans hr).symm.trans h)
    rw [putBytes_append, ih fun z hz => hx z (by simp [hz]), List.foldl_append]
    refine (if_neg hrep).trans ?_
    rw [hy]
    rfl

/-- Settles O45: each path moves its bytes over a state that its own records leave as it is, and then a command's tag and signal follow. -/
theorem transfers : Obligations.Transfers := by
  unfold Obligations.Transfers
  intro s c o b x k free spread put tagged still clamped signalled ends srcs vals xs counted copy first mapd filled mapEnds ms bits value moved imaged
  have start : free → Free s := fun ⟨hf, hc, hl⟩ => ⟨hf, hc, hl⟩
  have spelled : ∀ {r : Out} {p : Path} {tag : Option Nat} {q : Nat} {sig : Option SigRef} {u : State}, Ends s r p tag q sig u →
      ends r p tag q sig u := by
    rintro r p tag q sig u ⟨rs, ts, n, f, hr, hf, hrel⟩
    refine ⟨rs, ts, n, f, hr, hf, fun y hy hs => ?_⟩
    obtain ⟨w, hw, hbytes, hended, hscope, hby, hseen⟩ := hrel y hy hs
    exact ⟨w, hw, hbytes, hended, hscope, hby, hseen⟩
  have copies : copy → Copies s c := fun ⟨hfree, hsole, hd, hb, hw⟩ => ⟨start hfree, hsole, hd, hb, hw⟩
  have transfer : mapd → Transfer s o := fun ⟨hfree, hsole, hd, hg, hr, hf⟩ => ⟨start hfree, hsole, hd, hg, hr, hf⟩
  refine ⟨?bytes, ?copy, ?ring, ?load, ?diag, ?store, ?stream, ?bob, ?img⟩
  case bytes => exact fun p ys hf hr hx => putBytes_phys hf hr ys hx
  case copy =>
    intro h
    obtain ⟨ys, ⟨hall, hsub, hun⟩, hends⟩ := (copies h).finishes
    refine ⟨ys, hall, hsub, hun, spelled ?_⟩
    rw [show exec (.copyComplete k 0) s = .next (copyAfter s.g.id 0 .finish s) from rfl, (copies h).copyAfter]
    exact hends
  case ring =>
    intro n h hn
    obtain ⟨ys, rs, ts, i, ⟨hall, hsub, hun⟩, hstep⟩ := (copies h).counts hn
    refine ⟨ys, rs, ts, i, hall, hsub, hun, ?_⟩
    rw [show exec (.ringByteCount k 0 n) s = .next (copyAfter s.g.id 0 (.write n) s) from rfl, (copies h).copyAfter]
    exact congrArg Host.Outcome.next hstep
  case load =>
    intro h hk
    exact (transfer h).execComplete_fills ((transfer h).mapDo_load hk)
  case diag =>
    intro h hk
    exact (transfer h).execComplete_fills ((transfer h).mapDo_diag hk)
  case store =>
    intro h hk
    obtain ⟨rs, ts, hdo⟩ := (transfer h).mapDo_store hk
    have hput := blank_putBytes (k := s.g.id) (p := .stream) (s := s) (imageBytes o.accs (o.image.getD []))
    have hlive := (live_of_blank hput).trans (transfer h).free.focus.1
    have hid := id_of_blank hput
    exact ⟨rs, ts, (transfer h).execComplete hdo hlive hid⟩
  case stream =>
    intro m blk st hfree hst hgot hfirst d
    refine ⟨(fetching_fields hst).2.2, ?_⟩
    have h := execStreamBlockArrival_free (start hfree) hst hgot hfirst
    simp only [funext (fetched_none (getMap s.g m) m blk)] at h
    exact h
  case bob =>
    intro hfree hb hn
    exact spelled (bobFinish_free (start hfree) hb hn)
  case img =>
    intro hfree hx hafter
    exact spelled (Stores.finishes ⟨start hfree, hx, hafter⟩)

end Sys2Proof.Machine
end
